-- ==== Sys2Proof/Word.lean ====
section
/-! DEFINITION. The word types of Griolo (R4, R54) and their plainest arithmetic. -/

namespace Sys2Proof

/-- A 64-bit scalar or special register, an address or a program counter (R54). -/
abbrev Word := BitVec 64

/-- The smallest addressable unit. -/
abbrev Byte := BitVec 8

/-- The number of a scalar register s0 to s31. -/
abbrev SReg := BitVec 5

/-- The number of a vector register v0 to v31. -/
abbrev VReg := BitVec 5

/-- The number of a mask register; 0 in a mask field makes every element active (R76). -/
abbrev MReg := BitVec 3

/-- The number of a stream register q0 to q15. -/
abbrev QReg := BitVec 4

/-- The number of an accumulator tile a0 to a3. -/
abbrev AReg := BitVec 2

/-- The number of an operand slot o0 to o15. -/
abbrev OReg := BitVec 4

/-- The field `hi:lo` of a natural number, read unsigned (R2). -/
def bitsOf (x hi lo : Nat) : Nat := x / 2 ^ lo % 2 ^ (hi + 1 - lo)

/-- The value of `w` bits read in two's complement. -/
def signed (w x : Nat) : Int :=
  if x % 2 ^ w < 2 ^ (w - 1) then (x % 2 ^ w : Nat) else (x % 2 ^ w : Nat) - (2 ^ w : Nat)

/-- The low `w` bits of an integer (R8). -/
def low (w : Nat) (x : Int) : Nat := (x % (2 ^ w : Nat)).toNat

/-- The ceiling of a quotient. -/
def ceilDiv (x y : Nat) : Nat := (x + y - 1) / y

end Sys2Proof
end

