-- ==== Sys2Proof/Machine/Aes.lean ====
section
/-! DEFINITION. AES-256-XTS, which stores the units of sealed pages (R289). -/

namespace Sys2Proof.Machine

/-- The product in GF(2^8) modulo x^8 + x^4 + x^3 + x + 1, over the low `n` bits of `y`. -/
def gfMul : Nat → Nat → Nat → Nat
  | 0, _, _ => 0
  | n + 1, x, y =>
    let x2 := if x < 128 then 2 * x else (2 * x) % 256 ^^^ 0x1B
    (if y % 2 = 1 then x else 0) ^^^ gfMul n x2 (y / 2)

/-- x ^ (2^n - 1), squared: the step of the inverse. -/
def gfPow : Nat → Nat → Nat
  | 0, _ => 1
  | n + 1, x =>
    let p := gfPow n x
    gfMul 8 (gfMul 8 p p) x

/-- The inverse in GF(2^8), x^254; 0 for 0. -/
def gfInv (x : Nat) : Nat :=
  let p := gfPow 7 x
  gfMul 8 p p

/-- A byte turned left by `n`. -/
def rotByte (x n : Nat) : Nat := (x * 2 ^ n) % 256 + x / 2 ^ (8 - n)

/-- The byte substitution of AES. -/
def aesSub (x : Nat) : Nat :=
  let b := gfInv x
  b ^^^ rotByte b 1 ^^^ rotByte b 2 ^^^ rotByte b 3 ^^^ rotByte b 4 ^^^ 0x63

/-- Its inverse. -/
def aesUnsub (x : Nat) : Nat := gfInv (rotByte x 1 ^^^ rotByte x 3 ^^^ rotByte x 6 ^^^ 0x05)

/-- Byte `i` of a list. -/
def nth (l : List Nat) (i : Nat) : Nat := l.getD i 0

/-- The exclusive or of two lists of bytes. -/
def xorBytes (x y : List Nat) : List Nat := List.zipWith (· ^^^ ·) x y

/-- The round constant of an even key word pair. -/
def aesRcon (i : Nat) : Nat := 2 ^ (i - 1)

/-- The key schedule: `ws` holds the words so far, the latest first; `n` more follow. -/
def aesExpand : Nat → List (List Nat) → List (List Nat)
  | 0, ws => ws.reverse
  | n + 1, ws =>
    let i := ws.length
    let t := ws.headD []
    let u :=
      if i % 8 = 0 then
        let r := [nth t 1, nth t 2, nth t 3, nth t 0].map aesSub
        xorBytes r [aesRcon (i / 8), 0, 0, 0]
      else if i % 8 = 4 then t.map aesSub
      else t
    aesExpand n (xorBytes (ws.getD 7 []) u :: ws)

/-- The little-endian bytes of a number. -/
def natBytes : Nat → Nat → List Nat
  | 0, _ => []
  | n + 1, x => x % 256 :: natBytes n (x / 256)

/-- The number of little-endian bytes. -/
def bytesNat : List Nat → Nat
  | [] => 0
  | x :: l => x + 256 * bytesNat l

/-- The words of a 32-byte key. -/
def keyWords (k : List Nat) : List (List Nat) :=
  [0, 1, 2, 3, 4, 5, 6, 7].map fun i => (k.drop (4 * i)).take 4

/-- The 60 round-key words of a 32-byte key. -/
def aesSchedule (k : List Nat) : List (List Nat) := aesExpand 52 (keyWords k).reverse

/-- The 16 bytes of round key `r`. -/
def roundKey (ws : List (List Nat)) (r : Nat) : List Nat := ((ws.drop (4 * r)).take 4).flatten

/-- The row shift: byte 4c + r comes from column c + r. -/
def shiftRows (b : List Nat) : List Nat :=
  [0, 5, 10, 15, 4, 9, 14, 3, 8, 13, 2, 7, 12, 1, 6, 11].map (nth b)

/-- Its inverse. -/
def unshiftRows (b : List Nat) : List Nat :=
  [0, 13, 10, 7, 4, 1, 14, 11, 8, 5, 2, 15, 12, 9, 6, 3].map (nth b)

/-- A column times the circulant matrix of first row `m`. -/
def mixColumn (m c : List Nat) : List Nat :=
  [0, 1, 2, 3].map fun r =>
    gfMul 8 (nth c r) (nth m 0) ^^^ gfMul 8 (nth c ((r + 1) % 4)) (nth m 1) ^^^
      gfMul 8 (nth c ((r + 2) % 4)) (nth m 2) ^^^ gfMul 8 (nth c ((r + 3) % 4)) (nth m 3)

/-- The four columns mixed. -/
def mixColumns (m b : List Nat) : List Nat :=
  ([0, 1, 2, 3].map fun c => mixColumn m ((b.drop (4 * c)).take 4)).flatten

/-- Rounds `r`, `r + 1`, ... of encryption, `n` of them, and the last round. -/
def aesRounds (ws : List (List Nat)) : Nat → Nat → List Nat → List Nat
  | 0, r, b => xorBytes (shiftRows (b.map aesSub)) (roundKey ws r)
  | n + 1, r, b => aesRounds ws n (r + 1) (xorBytes (mixColumns [2, 3, 1, 1] (shiftRows (b.map aesSub))) (roundKey ws r))

/-- One block encrypted under a 32-byte key. -/
def aesEncrypt (k b : List Nat) : List Nat :=
  let ws := aesSchedule k
  aesRounds ws 13 1 (xorBytes b (roundKey ws 0))

/-- The inverse rounds from round `n` down. -/
def aesUnrounds (ws : List (List Nat)) : Nat → List Nat → List Nat
  | 0, b => xorBytes ((unshiftRows b).map aesUnsub) (roundKey ws 0)
  | n + 1, b =>
    aesUnrounds ws n (mixColumns [14, 11, 13, 9] (xorBytes ((unshiftRows b).map aesUnsub) (roundKey ws (n + 1))))

/-- One block decrypted. -/
def aesDecrypt (k b : List Nat) : List Nat :=
  let ws := aesSchedule k
  aesUnrounds ws 13 (xorBytes b (roundKey ws 14))

/-- The next tweak: times x in GF(2^128), the first byte lowest. -/
def xtsNext (t : Nat) : Nat := (2 * t) % 2 ^ 128 ^^^ (if t < 2 ^ 127 then 0 else 0x87)

/-- The blocks of a data unit under XTS, each turned by `f`. -/
def xtsBlocks (f : List Nat → List Nat) : Nat → Nat → List Nat → List Nat
  | 0, _, _ => []
  | n + 1, t, b =>
    let tb := natBytes 16 t
    xorBytes (f (xorBytes (b.take 16) tb)) tb ++ xtsBlocks f n (xtsNext t) (b.drop 16)

/-- A data unit of `n` blocks encrypted: the first half of the key encrypts data, the second the tweak. -/
def xtsEncrypt (key : BitVec 512) (tweak n : Nat) (b : List Nat) : List Nat :=
  let k1 := natBytes 32 (key.toNat % 2 ^ 256)
  let k2 := natBytes 32 (key.toNat / 2 ^ 256)
  xtsBlocks (aesEncrypt k1) n (bytesNat (aesEncrypt k2 (natBytes 16 tweak))) b

/-- A data unit of `n` blocks decrypted. -/
def xtsDecrypt (key : BitVec 512) (tweak n : Nat) (b : List Nat) : List Nat :=
  let k1 := natBytes 32 (key.toNat % 2 ^ 256)
  let k2 := natBytes 32 (key.toNat / 2 ^ 256)
  xtsBlocks (aesDecrypt k1) n (bytesNat (aesEncrypt k2 (natBytes 16 tweak))) b

end Sys2Proof.Machine
end

