-- ==== Sys2Proof/Syntax.lean ====
section
/-! DEFINITION. The instructions of Griolo: one constructor of `Instr` for each row of spec/opcode_table.json.
They are instructions with an encoding (files 04 and 05), the convoy (R84-R87), and the steps that no encoding
names: what an engine, another package, the host, the supervisor or the Pilot does to the machine (file 95).
Those carry what comes from outside as plain arguments. The order of the constructors means nothing. -/

namespace Sys2Proof

/-- The type suffixes of file 04 Table 4 (R77). -/
inductive VType where
  | n8 | n16 | n32 | n64 | s8 | s16 | s32 | s64
  | f64 | f32 | f16 | bf16 | e4m3 | e5m2 | e2m1 | e4m3x | e2m1x
  deriving DecidableEq, Repr

/-- The synchronisation scopes (R78). -/
inductive Scope where
  | core | cl | die | pkg | pod
  deriving DecidableEq, Repr

/-- The memory spaces (R63 Table 5). -/
inductive Space where
  | glob | cmem | spad | lane
  deriving DecidableEq, Repr

/-- Acquire and release orderings (R111 Table 5). -/
inductive MemOrder where
  | none | acq | rel | acqrel
  deriving DecidableEq, Repr

/-- The rounding field of a floating-point instruction (R111 Table 5). -/
inductive Rnd where
  | fpc | rne | rtz | rup | rdn
  deriving DecidableEq, Repr

/-- The conversion field of FCVT and VFCVT (R111 Table 5). -/
inductive Conv where
  | fpc | rne | rtz | rup | rdn | sr | sat | srSat
  deriving DecidableEq, Repr

/-- The conditions of scalar CMP (R110 Table 3). -/
inductive CmpCond where
  | eq | ne | ltS | geS | ltU | geU
  deriving DecidableEq, Repr

/-- The conditions of FCMP (R111 Table 5). -/
inductive FcmpCond where
  | eq | lt | le | un
  deriving DecidableEq, Repr

/-- The conditions of VCMP (R113 Table 7). -/
inductive VcmpCond where
  | eq | ne | lt | le | gt | ge | un
  deriving DecidableEq, Repr

/-- The operations of AMO (R111 Table 5). -/
inductive AmoOp where
  | add | and | or | xor | minS | maxS | minU | maxU | swap
  deriving DecidableEq, Repr

/-- The operations of MLOG (R114 Table 8). -/
inductive LogOp where
  | and | or | xor | andn | orn | nand | nor | xnor
  deriving DecidableEq, Repr

/-- The reductions of VRED and VSCAN (R113 Table 7). -/
inductive RedOp where
  | sum | seq | min | max | and | or | xor
  deriving DecidableEq, Repr

/-- The classes of FENCE (R111 Table 4). -/
inductive FenceClass where
  | ld | st | all
  deriving DecidableEq, Repr

/-- The conditions of WAITV (R48 Table 4). -/
inductive WaitCond where
  | ge | eq | ne
  deriving DecidableEq, Repr

/-- The SPAR values a tile instruction accepts (R81 Table 6). -/
inductive Spar where
  | dense | s24 | s48
  deriving DecidableEq, Repr

/-- The special registers (R62 Table 2). -/
inductive Spr where
  | vl | mvl | vt | mt | vstart | fsr | scnt | lcmap | tsm | tsn | tsk | fpc | srseed | vlcid | gmemb | vdecl
  | tcause | tpc | tval | tvec
  | vhwm (n : VReg)
  | maxvl
  | lremap (n : BitVec 2)
  deriving DecidableEq, Repr

/-- What one party of a collective mesh command brings to its round (R245): its place, the generation and the topology it
works on (0 and nothing where it holds none), the status of its checks at the start and of its reads while it runs (R465),
the values that R245 compares, and its inputs. A leaf is its tree and its child numbers; a partition entry is KEYFIRST, the
endpoint and the die. -/
structure PartyMsg where
  ep : Nat
  die : Nat
  gen : Nat
  leaves : List (Nat × List Nat)
  parts : List (Nat × Nat × Nat)
  code : Nat
  detail : Nat
  rcode : Nat
  rdetail : Nat
  count : Nat
  param : Nat
  same : List (BitVec 8)
  data : List (List (BitVec 8))
  /-- The second message of a party: how its command has run, in `rcode` and `rdetail`. -/
  ran : Bool
  deriving DecidableEq, Repr

/-- What a leaf says of an access that travels: its granule and wick bit (R283), the key slot of a sealed page (R289), and the key
that a core's access to a tag-enabled page carries (R290). -/
structure LeafUse where
  gr : Nat
  wick : Bool
  key : Option Nat
  tag : Option Nat
  deriving DecidableEq, Repr

/-- An atomic operation as it travels (R354). -/
inductive RemoteOp where
  | read (n : Nat)
  | write (n : Nat) (x : Nat)
  /-- A store to the low or high nibble of a byte (R149). -/
  | nibble (hi : Bool) (x : Nat)
  | amo (op : AmoOp) (n : Nat) (x : Nat)
  | cas (n : Nat) (old new : Nat)
  /-- The contributions of one VSTXA to one target, added in order in the elements' type (R145). -/
  | addTo (t : VType) (rm : Nat) (ftz : Bool) (xs : List Nat)
  /-- A walk's OR of A, D and UO on an entry, and the clearing of UO (R176, R294): the bits set and the bits cleared. -/
  | bits (set clear : Nat)
  /-- The memory tag of the tag unit (R290, R403). -/
  | tag (x : Nat)
  /-- The checks of a store whose bytes follow in a write of their own. -/
  | probe
  /-- Writes of one publication (R194): physical address, bytes, value and key slot. -/
  | batch (l : List (Nat × Nat × Nat × Option Nat))
  /-- A debugger command (R372): its operation, job, argument and address. -/
  | debug (op job : Nat) (arg addr : BitVec 64)
  /-- An operation through a leaf. -/
  | through (leaf : LeafUse) (op : RemoteOp)
  deriving DecidableEq, Repr

/-- Scalar, mask, stream or special state of a VLC (R311). -/
inductive RegMark where
  | scalar (r : SReg)
  | mask (m : MReg)
  | stream (q : QReg)
  | special (r : Spr)
  deriving DecidableEq, Repr

/-- What is found wrong (R284, R286, R288, R311, R312) at a place that is numbered beside it: a physical address of DRAM, a MESHID, an
HBM stack, or an 8-byte word of a register. -/
inductive Flaw where
  /-- Scrubbing finds a DRAM unit uncorrectable. -/
  | unit
  /-- A read of a DRAM unit finds an error: the layer's severity, and whether the controller's own decode cannot correct it. -/
  | read (sev : Nat) (beyond : Bool)
  /-- 32 bytes of DRAM and their carry check have come to differ: the bits in which they differ. -/
  | carry (x : BitVec 8)
  /-- A write to a DRAM unit arrives with a carry check that does not match its bytes. -/
  | write
  /-- The engine storage of a mesh. -/
  | mesh
  /-- One copy of a stack's region-table entry `r` fails its ECC: the second copy, or the first. -/
  | copy (r : Nat) (second : Bool)
  /-- A word of a vector register. -/
  | vreg (core slot : Nat) (r : VReg)
  /-- A word of an accumulator tile. -/
  | acc (core : Nat) (j : AReg)
  /-- A word of an operand slot. -/
  | oslot (core : Nat) (o : OReg)
  /-- Scalar, mask, stream or special state of a VLC; the place counts for nothing. -/
  | state (core slot : Nat) (m : RegMark)
  deriving DecidableEq, Repr

/-- The VLC that a forced pre-emption is for, and the element boundary at which it is met, where it is met inside a convoy (R87). -/
structure ForcedAt where
  slot : Nat
  elem : Option Nat
  deriving DecidableEq, Repr

/-- The VLC on which a pre-emption request is pending, and whether the supervisor makes it now (R313). -/
structure AskedOf where
  slot : Nat
  ask : Bool
  deriving DecidableEq, Repr

/-- A write of `n` bytes to a register. -/
structure RegData where
  n : Nat
  x : BitVec 64
  deriving DecidableEq, Repr

/-- A wave of a job, and the element boundaries at which it finds convoys in progress: core, slot and element (R87). -/
structure Wave where
  job : Nat
  cuts : List (Nat × Nat × Nat)
  deriving DecidableEq, Repr

/-- What a request to another endpoint brought back (R354, R355). -/
inductive RemoteAns where
  | data (x : Nat)
  | poisoned
  | prot (sub : Nat)
  | silent (ep : Nat)
  deriving DecidableEq, Repr

/-- The instructions: one constructor for each row of spec/opcode_table.json. -/
inductive Instr where
  /-- ADD: Writes the 64-bit sum of two scalar registers (R393). -/
  | add (d a b : SReg) (c : Bool)
  /-- SUB: Writes the 64-bit difference of two scalar registers (R393). -/
  | sub (d a b : SReg) (c : Bool)
  /-- MUL: Writes the low 64 bits of the product of two scalar registers (R393). -/
  | mul (d a b : SReg) (c : Bool)
  /-- MULH: Writes bits 127:64 of the signed or unsigned product of two scalar registers (R393). -/
  | mulh (u : Bool) (d a b : SReg) (c : Bool)
  /-- DIV: Writes the signed or unsigned quotient, following the integer corner cases, without trapping (R393). -/
  | div (u : Bool) (d a b : SReg) (c : Bool)
  /-- REM: Writes the signed or unsigned remainder, following the integer corner cases (R393). -/
  | rem (u : Bool) (d a b : SReg) (c : Bool)
  /-- AND: Writes the bitwise AND of two scalar registers (R393). -/
  | and (d a b : SReg) (c : Bool)
  /-- OR: Writes the bitwise OR of two scalar registers (R393). -/
  | or (d a b : SReg) (c : Bool)
  /-- XOR: Writes the bitwise XOR of two scalar registers (R393). -/
  | xor (d a b : SReg) (c : Bool)
  /-- SHL: Shifts left by the low 6 bits of rb (R393). -/
  | shl (d a b : SReg) (c : Bool)
  /-- SHR: Shifts right logically by the low 6 bits of rb (R393). -/
  | shr (d a b : SReg) (c : Bool)
  /-- SHRA: Shifts right arithmetically by the low 6 bits of rb (R393). -/
  | shra (d a b : SReg) (c : Bool)
  /-- CMP: Writes 1 or 0 according to the relation that func3 selects (R393). -/
  | cmp (p : CmpCond) (d a b : SReg) (c : Bool)
  /-- MIN: Writes the signed or unsigned smaller of two scalar registers (R393). -/
  | min (u : Bool) (d a b : SReg) (c : Bool)
  /-- MAX: Writes the signed or unsigned larger of two scalar registers (R393). -/
  | max (u : Bool) (d a b : SReg) (c : Bool)
  /-- CLZ: Writes the count of leading zero bits, or 64 for zero (R393). -/
  | clz (d a : SReg) (c : Bool)
  /-- CTZ: Writes the count of trailing zero bits, or 64 for zero (R393). -/
  | ctz (d a : SReg) (c : Bool)
  /-- POPC: Writes the number of 1 bits (R393). -/
  | popc (d a : SReg) (c : Bool)
  /-- SEL: Writes ra if rd is non-zero, and rb otherwise (R393). -/
  | sel (d a b : SReg) (c : Bool)
  /-- ADD_IMM: Adds a sign-extended 13-bit immediate (R393). -/
  | addImm (d a : SReg) (k : BitVec 13) (c : Bool)
  /-- AND_IMM: Computes the bitwise AND with a sign-extended immediate (R393). -/
  | andImm (d a : SReg) (k : BitVec 13) (c : Bool)
  /-- OR_IMM: Computes the bitwise OR with a sign-extended immediate (R393). -/
  | orImm (d a : SReg) (k : BitVec 13) (c : Bool)
  /-- XOR_IMM: Computes the bitwise XOR with a sign-extended immediate (R393). -/
  | xorImm (d a : SReg) (k : BitVec 13) (c : Bool)
  /-- SHL_IMM: Shifts left by an immediate from 0 to 63 (R393). -/
  | shlImm (d a : SReg) (k : BitVec 6) (c : Bool)
  /-- SHR_IMM: Shifts right logically by an immediate from 0 to 63 (R393). -/
  | shrImm (d a : SReg) (k : BitVec 6) (c : Bool)
  /-- SHRA_IMM: Shifts right arithmetically by an immediate from 0 to 63 (R393). -/
  | shraImm (d a : SReg) (k : BitVec 6) (c : Bool)
  /-- MUL_IMM: Multiplies by a sign-extended immediate and keeps the low 64 bits (R393). -/
  | mulImm (d a : SReg) (k : BitVec 13) (c : Bool)
  /-- CMP_S64_LT_IMM: Writes 1 if ra is less than the immediate, compared signed (R393). -/
  | cmpS64LtImm (d a : SReg) (k : BitVec 13) (c : Bool)
  /-- CMP_N64_LT_IMM: Writes 1 if ra is less than the sign-extended immediate, compared unsigned (R393). -/
  | cmpN64LtImm (d a : SReg) (k : BitVec 13) (c : Bool)
  /-- LIH: Shifts rd left by 18 bits and inserts an 18-bit unsigned field (R394). -/
  | lih (d : SReg) (k : BitVec 18) (c : Bool)
  /-- ADDPC: Writes its own address plus twice a signed halfword offset (R395). -/
  | addpc (d : SReg) (k : BitVec 18) (c : Bool)
  /-- MFS: Reads a special register into a scalar register (R413). -/
  | mfs (d : SReg) (r : Spr) (c : Bool)
  /-- MTS: Writes a scalar register to a special register, with the effects of Table 5 (R417). -/
  | mts (r : Spr) (a : SReg) (c : Bool)
  /-- TRAP: Raises the SYS class with TPC at the next instruction (R428). -/
  | trap (n : BitVec 12)
  /-- BR_EQZ: Branches if the register is zero (R398). -/
  | brEqz (a : SReg) (k : BitVec 18)
  /-- BR_NEZ: Branches if the register is non-zero (R398). -/
  | brNez (a : SReg) (k : BitVec 18)
  /-- BR_LTZ: Branches if the register is negative (R398). -/
  | brLtz (a : SReg) (k : BitVec 18)
  /-- BR_GEZ: Branches if the register is not negative (R398). -/
  | brGez (a : SReg) (k : BitVec 18)
  /-- BR_EQ: Branches if the two registers are equal (R398). -/
  | brEq (a b : SReg) (k : BitVec 13)
  /-- BR_NE: Branches if the two registers differ (R398). -/
  | brNe (a b : SReg) (k : BitVec 13)
  /-- BR_LT: Branches if the first register is less than the second, compared signed (R398). -/
  | brLt (a b : SReg) (k : BitVec 13)
  /-- BR_GE: Branches if the first register is greater than or equal to the second, compared signed (R398). -/
  | brGe (a b : SReg) (k : BitVec 13)
  /-- BR_LTU: Branches if the first register is less than the second, compared unsigned (R398). -/
  | brLtu (a b : SReg) (k : BitVec 13)
  /-- BR_GEU: Branches if the first register is greater than or equal to the second, compared unsigned (R398). -/
  | brGeu (a b : SReg) (k : BitVec 13)
  /-- JMP: Jumps to a PC-relative target (R400). -/
  | jmp (k : BitVec 18)
  /-- CALL: Jumps to a PC-relative target and writes the return address to s1 (R400). -/
  | call (k : BitVec 18)
  /-- JMP_REG: Jumps to ra plus a byte offset; a target of 0 at user level ends the VLC (R400). -/
  | jmpReg (a : SReg) (k : BitVec 13)
  /-- CALL_REG: Calls ra plus a byte offset and writes s1 (R400). -/
  | callReg (a : SReg) (k : BitVec 13)
  /-- RDTIME: Asks the I/O die for the Beacon time (R359). -/
  | rdtime (d : SReg)
  /-- FENCE: Orders the accesses of the selected class at the named scope and blocks until they are performed (R188). -/
  | fence (k : FenceClass) (sc : Scope)
  /-- LD_N8: Loads an unsigned byte from space 0 at ra plus an offset (R411). -/
  | ldN8 (d a : SReg) (k : BitVec 13)
  /-- LD_N16: Loads an unsigned halfword from space 0 (R411). -/
  | ldN16 (d a : SReg) (k : BitVec 13)
  /-- LD_N32: Loads an unsigned word from space 0 (R411). -/
  | ldN32 (d a : SReg) (k : BitVec 13)
  /-- LD_N64: Loads a doubleword from space 0 (R411). -/
  | ldN64 (d a : SReg) (k : BitVec 13)
  /-- LD_S8: Loads a sign-extended byte from space 0 (R411). -/
  | ldS8 (d a : SReg) (k : BitVec 13)
  /-- LD_S16: Loads a sign-extended halfword from space 0 (R411). -/
  | ldS16 (d a : SReg) (k : BitVec 13)
  /-- LD_S32: Loads a sign-extended word from space 0 (R411). -/
  | ldS32 (d a : SReg) (k : BitVec 13)
  /-- ST_N8: Stores a byte to space 0 (R411). -/
  | stN8 (d a : SReg) (k : BitVec 13)
  /-- ST_N16: Stores a halfword to space 0 (R411). -/
  | stN16 (d a : SReg) (k : BitVec 13)
  /-- ST_N32: Stores a word to space 0 (R411). -/
  | stN32 (d a : SReg) (k : BitVec 13)
  /-- ST_N64: Stores a doubleword to space 0 (R411). -/
  | stN64 (d a : SReg) (k : BitVec 13)
  /-- LD_SPACE: Loads from cluster memory or scratchpad at ra (R411). -/
  | ldSpace (t : VType) (x : Space) (d a : SReg)
  /-- ST_SPACE: Stores to cluster memory or scratchpad at ra (R411). -/
  | stSpace (t : VType) (x : Space) (d a : SReg)
  /-- LDA: Performs an acquire load at the named scope (R412). -/
  | lda (t : VType) (sc : Scope) (x : Space) (d a : SReg)
  /-- STREL: Performs a release store at the named scope (R412). -/
  | strel (t : VType) (sc : Scope) (x : Space) (d a : SReg)
  /-- CAS: Performs an atomic compare and swap, returning the old value in rd (R401). -/
  | cas (o : MemOrder) (cm w32 : Bool) (sc : Scope) (d a b : SReg)
  /-- AMO: Performs an atomic read-modify-write and returns the old value (R397). -/
  | amo (o : MemOrder) (cm w32 : Bool) (k : AmoOp) (sc : Scope) (d a b : SReg)
  /-- FADD: Computes a scalar floating-point add (R407). -/
  | fadd (t : VType) (p : Rnd) (d a b : SReg)
  /-- FSUB: Computes a scalar floating-point subtract (R407). -/
  | fsub (t : VType) (p : Rnd) (d a b : SReg)
  /-- FMUL: Computes a scalar floating-point multiply (R407). -/
  | fmul (t : VType) (p : Rnd) (d a b : SReg)
  /-- FDIV: Computes a scalar floating-point divide (R407). -/
  | fdiv (t : VType) (p : Rnd) (d a b : SReg)
  /-- FSQRT: Computes a scalar floating-point square root (R407). -/
  | fsqrt (t : VType) (p : Rnd) (d a : SReg)
  /-- FMA: Computes a fused multiply-add with rd as the addend and one rounding (R407). -/
  | fma (t : VType) (p : Rnd) (d a b : SReg)
  /-- FCMP: Writes 1 or 0 for a floating-point comparison (R408). -/
  | fcmp (t : VType) (p : FcmpCond) (d a b : SReg)
  /-- FMINMAX: Writes minimumNumber or maximumNumber of two values (R408). -/
  | fminmax (t : VType) (mx : Bool) (d a b : SReg)
  /-- FCVT: Converts a scalar value between types (R409). -/
  | fcvt (t : VType) (p : Conv) (u : VType) (d a : SReg)
  /-- C_ADD: Compressed form of ADD rA, rA, rB (R116). -/
  | cAdd (a b : SReg)
  /-- C_SUB: Compressed form of SUB (R116). -/
  | cSub (a b : SReg)
  /-- C_AND: Compressed form of AND (R116). -/
  | cAnd (a b : SReg)
  /-- C_OR: Compressed form of OR (R116). -/
  | cOr (a b : SReg)
  /-- C_XOR: Compressed form of XOR (R116). -/
  | cXor (a b : SReg)
  /-- C_ADD_IMM: Compressed add of a 5-bit signed immediate (R116). -/
  | cAddImm (a : SReg) (k : BitVec 5)
  /-- C_SHL: Compressed shift left by an immediate (R116). -/
  | cShl (a : SReg) (k : BitVec 4)
  /-- C_SHR: Compressed logical shift right by an immediate (R116). -/
  | cShr (a : SReg) (k : BitVec 4)
  /-- C_SHRA: Compressed arithmetic shift right by an immediate (R116). -/
  | cShra (a : SReg) (k : BitVec 4)
  /-- C_LD: Compressed 64-bit load from s2 plus 8 times B (R116). -/
  | cLd (a : SReg) (k : BitVec 5)
  /-- C_ST: Compressed 64-bit store to s2 plus 8 times B (R116). -/
  | cSt (a : SReg) (k : BitVec 5)
  /-- C_JMP: Compressed PC-relative jump (R116). -/
  | cJmp (k : BitVec 10)
  /-- C_CALL: Compressed PC-relative call; s1 receives the address plus 2 (R116). -/
  | cCall (k : BitVec 10)
  /-- C_JMP_REG: Compressed jump to rA (R116). -/
  | cJmpReg (a : SReg)
  /-- VADD: Adds two vectors element by element, modulo 2^w (R437). -/
  | vadd (t : VType) (m : MReg) (d a b : VReg) (c : Bool)
  /-- VSUB: Subtracts two vectors element by element (R437). -/
  | vsub (t : VType) (m : MReg) (d a b : VReg) (c : Bool)
  /-- VMUL: Multiplies two vectors element by element, keeping the low bits (R437). -/
  | vmul (t : VType) (m : MReg) (d a b : VReg) (c : Bool)
  /-- VMULH: Writes the high half of each element product (R437). -/
  | vmulh (t : VType) (m : MReg) (d a b : VReg) (c : Bool)
  /-- VAND: Computes the element-wise bitwise AND (R437). -/
  | vand (t : VType) (m : MReg) (d a b : VReg) (c : Bool)
  /-- VOR: Computes the element-wise bitwise OR (R437). -/
  | vor (t : VType) (m : MReg) (d a b : VReg) (c : Bool)
  /-- VXOR: Computes the element-wise bitwise XOR (R437). -/
  | vxor (t : VType) (m : MReg) (d a b : VReg) (c : Bool)
  /-- VSHL: Shifts each element left (R437). -/
  | vshl (t : VType) (m : MReg) (d a b : VReg) (c : Bool)
  /-- VSHR: Shifts each element right logically (R437). -/
  | vshr (t : VType) (m : MReg) (d a b : VReg) (c : Bool)
  /-- VSHRA: Shifts each element right arithmetically (R437). -/
  | vshra (t : VType) (m : MReg) (d a b : VReg) (c : Bool)
  /-- VMIN: Writes the element-wise minimum (R437). -/
  | vmin (t : VType) (m : MReg) (d a b : VReg) (c : Bool)
  /-- VMAX: Writes the element-wise maximum (R437). -/
  | vmax (t : VType) (m : MReg) (d a b : VReg) (c : Bool)
  /-- VSADD: Adds element by element with saturation (R437). -/
  | vsadd (t : VType) (m : MReg) (d a b : VReg) (c : Bool)
  /-- VSSUB: Subtracts element by element with saturation (R437). -/
  | vssub (t : VType) (m : MReg) (d a b : VReg) (c : Bool)
  /-- VFADD: Adds floating-point vectors, rounding by FPC.RM (R441). -/
  | vfadd (t : VType) (m : MReg) (d a b : VReg) (c : Bool)
  /-- VFSUB: Subtracts floating-point vectors (R441). -/
  | vfsub (t : VType) (m : MReg) (d a b : VReg) (c : Bool)
  /-- VFMUL: Multiplies floating-point vectors (R441). -/
  | vfmul (t : VType) (m : MReg) (d a b : VReg) (c : Bool)
  /-- VFDIV: Divides floating-point vectors (R441). -/
  | vfdiv (t : VType) (m : MReg) (d a b : VReg) (c : Bool)
  /-- VFSQRT: Computes the square root of each element (R441). -/
  | vfsqrt (t : VType) (m : MReg) (d a : VReg) (c : Bool)
  /-- VFRSQ: Writes the reciprocal square-root estimate of R142 for each element (R442). -/
  | vfrsq (t : VType) (m : MReg) (d a : VReg) (c : Bool)
  /-- VFRCP: Writes the reciprocal estimate of R141 for each element (R441). -/
  | vfrcp (t : VType) (m : MReg) (d a : VReg) (c : Bool)
  /-- VFMA: Computes a vector fused multiply-add with vd as the addend (R441). -/
  | vfma (t : VType) (m : MReg) (d a b : VReg) (c : Bool)
  /-- VFMIN: Writes the element-wise minimumNumber (R441). -/
  | vfmin (t : VType) (m : MReg) (d a b : VReg) (c : Bool)
  /-- VFMAX: Writes the element-wise maximumNumber (R441). -/
  | vfmax (t : VType) (m : MReg) (d a b : VReg) (c : Bool)
  /-- VFCVT: Converts each element between types, block by block for block-scaled destinations (R443). -/
  | vfcvt (t : VType) (p : Conv) (u : VType) (d a : VReg) (c : Bool)
  /-- VFCLASS: Writes a one-hot class code for each element (R442). -/
  | vfclass (t : VType) (m : MReg) (d a : VReg) (c : Bool)
  /-- VFEXP2: Applies EXP2T to each element (R441). -/
  | vfexp2 (t : VType) (m : MReg) (d a : VReg) (c : Bool)
  /-- VCMP: Compares two vectors into a mask register (R438). -/
  | vcmp (t : VType) (p : VcmpCond) (d : MReg) (a b : VReg) (c : Bool)
  /-- VSPLAT: Broadcasts a scalar to the active elements (R456). -/
  | vsplat (t : VType) (m : MReg) (d : VReg) (a : SReg) (c : Bool)
  /-- VEXT: Extracts element k of a vector into a scalar (R440). -/
  | vext (t : VType) (d : SReg) (a : VReg) (b : SReg)
  /-- VINS: Inserts a scalar into element k of a vector (R440). -/
  | vins (t : VType) (d : VReg) (a b : SReg)
  /-- VMERGE: Selects each element from va or vb by the mask (R451). -/
  | vmerge (t : VType) (m : MReg) (d a b : VReg) (c : Bool)
  /-- VPERM: Permutes elements by an index vector (R452). -/
  | vperm (t : VType) (m : MReg) (d a b : VReg)
  /-- VSLIDEUP: Slides elements up by a scalar amount (R455). -/
  | vslideup (t : VType) (m : MReg) (d a : VReg) (b : SReg)
  /-- VSLIDEDN: Slides elements down by a scalar amount (R455). -/
  | vslidedn (t : VType) (m : MReg) (d a : VReg) (b : SReg)
  /-- VCOMPRESS: Packs the active elements to the front of vd (R439). -/
  | vcompress (t : VType) (m : MReg) (d a : VReg)
  /-- VEXPAND: Unpacks consecutive elements into the active positions (R439). -/
  | vexpand (t : VType) (m : MReg) (d a : VReg)
  /-- VRED: Reduces the active elements into element 0 of vd (R453). -/
  | vred (t : VType) (m : MReg) (k : RedOp) (d a : VReg)
  /-- VSCAN: Computes inclusive prefixes over the active elements (R454). -/
  | vscan (t : VType) (m : MReg) (k : RedOp) (d a : VReg)
  /-- MLOG: Combines two masks bit by bit (R414). -/
  | mlog (p : LogOp) (d a b : MReg) (c : Bool)
  /-- MPOPC: Counts the set mask bits below VL (R415). -/
  | mpopc (d : SReg) (a : MReg)
  /-- MFIRST: Writes the index of the lowest set mask bit below VL (R415). -/
  | mfirst (d : SReg) (a : MReg)
  /-- MSBF: Sets the mask bits before the first set bit of ma (R416). -/
  | msbf (d a : MReg)
  /-- VLD: Loads elements through a stream register, fault-only-first (R446). -/
  | vld (t : VType) (m : MReg) (o : Option Scope) (d : VReg) (a : QReg) (c : Bool)
  /-- VST: Stores elements through a stream register (R446). -/
  | vst (t : VType) (m : MReg) (o : Option Scope) (d : VReg) (a : QReg) (c : Bool)
  /-- VLDX: Gathers elements at a base plus indices (R449). -/
  | vldx (t : VType) (m : MReg) (d : VReg) (a : QReg) (b : VReg) (c : Bool)
  /-- VSTX: Scatters elements to a base plus indices (R449). -/
  | vstx (t : VType) (m : MReg) (d : VReg) (a : QReg) (b : VReg) (c : Bool)
  /-- VSTXA: Scatter-adds elements atomically per target (R450). -/
  | vstxa (t : VType) (m : MReg) (d : VReg) (a : QReg) (b : VReg) (c : Bool)
  /-- VLDL: Loads from each lane's own table at indexed offsets (R448). -/
  | vldl (t : VType) (m : MReg) (d a : VReg) (c : Bool)
  /-- VSTL: Stores to each lane's own table at indexed offsets (R448). -/
  | vstl (t : VType) (m : MReg) (d a : VReg) (c : Bool)
  /-- VLDBPC: Loads BPC128 compressed chunks into a vector and a mask (R171). -/
  | vldbpc (t : VType) (k : MReg) (d : VReg) (a : QReg) (c : Bool)
  /-- SETVL: Makes a grant for a requested length and ends any active loop (R30). -/
  | setvl (d a : SReg)
  /-- VREGS: Writes the pending vector register declaration (R23). -/
  | vregs (n : BitVec 2)
  /-- SETVP: Divides an application length among the VLCs of the launch (R36). -/
  | setvp (d a b : SReg)
  /-- VLOOP: Starts a plain or spread hardware loop with a grant (R32). -/
  | vloop (spread : Bool) (d a : SReg)
  /-- VNEXT: Ends a strip and either grants the next strip and branches, or exits the loop (R33). -/
  | vnext (d : SReg) (k : BitVec 18)
  /-- BAR: Arrives at a group barrier and blocks (R41). -/
  | bar (g : BitVec 8)
  /-- SSYNC: Arrives at the superstep barrier of the launch (R43). -/
  | ssync (d : SReg)
  /-- WAITV: Reads a word and blocks until a condition against rb holds (R45). -/
  | waitv (cm : Bool) (sc : Scope) (p : WaitCond) (d a b : SReg)
  /-- VIDX: Writes start plus i times step to each element (R83). -/
  | vidx (step first : BitVec 8) (w : BitVec 2) (d : VReg) (c : Bool)
  /-- VSTBPC: Stores elements as BPC128 chunks and advances CURSOR (R172). -/
  | vstbpc (t : VType) (m : MReg) (d : VReg) (a : QReg) (c : Bool)
  /-- VBIN: Increments cell counters atomically and writes the ranks (R173). -/
  | vbin (t : VType) (m : MReg) (d a : VReg) (b : SReg)
  /-- VHASH: Writes the voxel hash of each key (R175). -/
  | vhash (m : MReg) (d a : VReg) (b : SReg)
  /-- VHLOOK: Looks up keys in a scratchpad voxel hash table (R175). -/
  | vhlook (m : MReg) (d a : VReg) (b : SReg)
  /-- VHINS: Inserts keys into a scratchpad voxel hash table (R175). -/
  | vhins (m : MReg) (d a : VReg) (b : SReg)
  /-- QSET: Binds a stream register from a 128 B record (R153). -/
  | qset (d : QReg) (a : SReg)
  /-- QCLR: Makes a stream register unbound (R153). -/
  | qclr (d : QReg)
  /-- SETVT: Writes VT.TYPE from the encoding (R419). -/
  | setvt (t : VType)
  /-- SETMT: Writes MT.SPACE from the encoding (R419). -/
  | setmt (x : Space)
  /-- SPLOOK: Looks up a tag in the scratchpad tag table and reports a hit or a victim (R168). -/
  | splook (d a : SReg)
  /-- SPTAG: Writes one entry of the scratchpad tag table (R169). -/
  | sptag (a b : SReg)
  /-- CPY: Issues a copy, fill or tag-set command on the copy engine (R403). -/
  | cpy (d a b : SReg)
  /-- PUBL: Waits for this VLC's commands with a given target base and publishes their shadows (R194). -/
  | publ (sc : Scope) (a : SReg)
  /-- CWAIT: Returns, or polls for, the status word of a command or transfer (R405). -/
  | cwait (d a b : SReg)
  /-- MNBR: Binds a stream register to a neighbour query of a mesh (R247). -/
  | mnbr (d : QReg) (a b : SReg)
  /-- MLOCATE: Issues a point-location command (R252). -/
  | mlocate (d a b : SReg)
  /-- MREFINE: Issues a collective refine or build command (R248). -/
  | mrefine (d a b : SReg)
  /-- MCOARSEN: Issues a collective coarsen command (R248). -/
  | mcoarsen (d a b : SReg)
  /-- MREMAP: Issues a field-remap command on the copy engine (R250). -/
  | mremap (d a b : SReg)
  /-- MCOLOR: Issues a face-colouring command (R253). -/
  | mcolor (d a b : SReg)
  /-- MCUT: Issues a collective partition command (R254). -/
  | mcut (d a b : SReg)
  /-- MMIGR: Issues a collective migration command (R255). -/
  | mmigr (d a b : SReg)
  /-- MGHOST: Issues a collective ghost-exchange command (R256). -/
  | mghost (d a b : SReg)
  /-- WQPOST: Posts a decode-attention query over a KV run and returns a tag (R264). -/
  | wqpost (d : SReg) (a : VReg) (b : SReg)
  /-- WQRECV: Delivers the next stack triple of a query, blocking until it is ready (R268). -/
  | wqrecv (d : VReg) (a b : SReg)
  /-- WKVAPP: Appends one key and value pair to a KV run (R271). -/
  | wkvapp (d : VReg) (a : SReg) (b : VReg)
  /-- WCOMB: Combines two attention triples (R269). -/
  | wcomb (d a : VReg) (b : SReg)
  /-- FPUT: Starts a transfer that writes bytes to another package (R356). -/
  | fput (d a : SReg)
  /-- FGET: Starts a transfer that reads bytes from another package (R356). -/
  | fget (d a : SReg)
  /-- CRING: Forms a ring of packages, blocking until every member issues or TMO passes (R361). -/
  | cring (d a b : SReg)
  /-- COLL: Takes part in one collective round on a ring (R363). -/
  | coll (d a b : SReg)
  /-- CABORT: Cancels the round in progress on a ring, or breaks the ring (R366). -/
  | cabort (d a : SReg)
  /-- LAUNCH: Enqueues a launch record from a program (R342). -/
  | launch (d a b : SReg)
  /-- VSAVE: Writes the VLC's state to a save area (R318). -/
  | vsave (a : SReg)
  /-- VRESTORE: Restores the VLC's state from a save area (R319). -/
  | vrestore (a : SReg)
  /-- TSHAPE: Grants a tile shape and writes TSM, TSN and TSK (R202). -/
  | tshape (t : VType) (sp : Spar) (d a b : SReg)
  /-- TCLAIM: Claims a free operand slot (R421). -/
  | tclaim (oa : OReg)
  /-- TREL: Releases an operand slot (R421). -/
  | trel (oa : OReg)
  /-- TLD: Fills an operand slot from a tile binding (R425). -/
  | tld (t : VType) (sp : Spar) (oa : OReg) (a : QReg)
  /-- TMMA: Multiplies two operand tiles into an accumulator tile (R212). -/
  | tmma (t : VType) (acc : AReg) (oa ob : OReg) (c : Bool)
  /-- TMMAS: Multiplies a sparse operand tile with metadata into an accumulator tile (R212). -/
  | tmmas (t : VType) (sp : Spar) (acc : AReg) (oa ob oc : OReg) (c : Bool)
  /-- TEXT: Extracts accumulator elements into a vector register from the cursor (R210). -/
  | text (t : VType) (m : MReg) (acc : AReg) (u : VType) (d : VReg) (c : Bool)
  /-- TINJ: Injects vector elements into an accumulator tile from the cursor (R210). -/
  | tinj (t : VType) (m : MReg) (acc : AReg) (u : VType) (a : VReg) (c : Bool)
  /-- TZERO: Clears an accumulator tile (R432). -/
  | tzero (acc : AReg) (c : Bool)
  /-- CONVOY: Issues a decoded convoy and runs its issue, vector, matrix and scalar phases (R86). -/
  | convoy (ws : List (BitVec 64))
  /-- COLL_ABORT_NOTICE: An abort or cancel notice arrives and ends the round with TIMEOUT (R365). -/
  | collAbortNotice (id flags peer : Nat)
  /-- SNUFF_RESUME_ARRIVAL: A resume message reaches an endpoint; a late arrival releases at once and sets LATE (R373). -/
  | snuffResumeArrival (job : Nat) (tick : BitVec 64)
  /-- RESUME_WRITE: Names a released VLC's save area, checks it and makes the VLC placeable (R321). -/
  | resumeWrite (die : Nat) (x : BitVec 64)
  /-- SNCMD_DUMP: Debugger command that writes a named VLC's state to a save area (R373). -/
  | sncmdDump (job : Nat)
  /-- SNCMD_LOAD: Debugger command that restores a named VLC's state (R373). -/
  | sncmdLoad (job : Nat)
  /-- BAR_GENERATION_COMPLETE: Every member has arrived or ended, so the waiting members leave (R41). -/
  | barGenerationComplete (launch group gen : Nat)
  /-- SSYNC_COMPLETE: Every VLC has arrived and the communication step is delivered; the next superstep begins (R43). -/
  | ssyncComplete (launch : Nat) (peers : List Nat)
  /-- WAITV_RETEST: A visible write to the watched line retests a waiting WAITV (R45). -/
  | waitvRetest (core slot : Nat)
  /-- FENCE_DONE: A FENCE completes once its earlier accesses are performed (R188). -/
  | fenceDone (core slot : Nat)
  /-- PUBL_SWAP: Once the commands complete, PUBL performs the release and swaps the shadows at one instant (R194). -/
  | publSwap (core slot : Nat)
  /-- COMMAND_ISSUE_RESUME: A command issue blocked by 64 unfinished commands proceeds when room frees (R241). -/
  | commandIssueResume (core slot : Nat)
  /-- TRANSFER_ISSUE_RESUME: An FPUT or FGET blocked by 64 unfinished transfers proceeds (R356). -/
  | transferIssueResume (core slot : Nat)
  /-- WQPOST_RESUME: A WQPOST blocked on full sub-query buffers proceeds (R264). -/
  | wqpostResume (core slot : Nat)
  /-- WQRECV_TRIPLE_READY: The next triple becomes ready and a waiting WQRECV delivers it (R268). -/
  | wqrecvTripleReady (core slot : Nat)
  /-- CWAIT_WAKE: The awaited command or transfer ends and CWAIT returns its status (R405). -/
  | cwaitWake (core slot : Nat)
  /-- MNBR_BINDING_MADE: The topology engine completes a binding for a blocked MNBR (R247). -/
  | mnbrBindingMade (core slot : Nat)
  /-- RDTIME_REPLY: The Beacon reply arrives and RDTIME writes rd (R359). -/
  | rdtimeReply (core slot : Nat) (t : BitVec 64)
  /-- IDLE_WAKE: A pre-emption request becomes pending and a blocked IDLE completes (R320). -/
  | idleWake (core : Nat) (slot : AskedOf)
  /-- GRANT_ROWS_FREE: A grant blocked for rows proceeds once they are free (R27). -/
  | grantRowsFree (core slot : Nat)
  /-- SPIN_DEMOTION_END: The core sees a write to the watched line, and the demotion ends (R47). -/
  | spinDemotionEnd (core slot : Nat)
  /-- CPY_COMMAND_END: A copy command finishes writing its shadow and records its status (R404). -/
  | cpyCommandEnd (die h : Nat)
  /-- MLOCATE_END: A point-location command ends with its results in the shadow (R252). -/
  | mlocateEnd (die h : Nat)
  /-- MREFINE_END: A refine or build ends, preparing a pending topology and remap records (R248). -/
  | mrefineEnd (die h : Nat) (others : List PartyMsg)
  /-- MCOARSEN_END: A coarsen ends, preparing a pending topology and remap records (R248). -/
  | mcoarsenEnd (die h : Nat) (others : List PartyMsg)
  /-- MREMAP_END: A field remap ends with the field written to the shadow (R250). -/
  | mremapEnd (die h : Nat)
  /-- MCOLOR_END: Colouring ends with the colour table and records in the shadow (R253). -/
  | mcolorEnd (die h : Nat)
  /-- MCUT_END: A cut ends with the new partition table (R254). -/
  | mcutEnd (die h : Nat) (others : List PartyMsg)
  /-- MMIGR_END: A migration ends with moved fields and a pending topology (R255). -/
  | mmigrEnd (die h : Nat) (others : List PartyMsg)
  /-- MGHOST_END: A ghost exchange ends with ghost sections in the shadow (R256). -/
  | mghostEnd (die h : Nat) (others : List PartyMsg)
  /-- TRANSFER_END: An FPUT or FGET transfer ends with its status word (R356). -/
  | transferEnd (die h : Nat)
  /-- RING_FORMED: Every member has issued CRING, and the ring forms in a slot (R361). -/
  | ringFormed (id : Nat) (recs : List (Nat × List Byte))
  /-- COLL_ROUND_COMPLETE: A round completes, DST is published and the waiting COLL writes its handle (R363). -/
  | collRoundComplete (slot : Nat) (parts : List (Nat × List Nat × List Byte))
  /-- LAUNCH_RECORD_CHECK: The dispatcher checks a record that has become the oldest of its queue (R327). -/
  | launchRecordCheck (q : Nat)
  /-- WAIT_WORD_REREAD: The dispatcher re-reads a wait word after a write to it (R329). -/
  | waitWordReread (launch : Nat)
  /-- LAUNCH_COMPLETE: Every VLC has ended and every publication is done, so the launch completes (R330). -/
  | launchComplete (launch : Nat) (peers : List (Nat × Bool))
  /-- SNUFF_WAVE_ARRIVAL: A wave reaches an endpoint, which stops the job's VLCs and injection (R369). -/
  | snuffWaveArrival (wave : Wave) (time : BitVec 64) (ep die cls rank : Nat) (pc detail : BitVec 64)
  /-- FROZEN_REPORT: Responses are absorbed and cause blocks written, so the endpoint reports frozen (R370). -/
  | frozenReport (job : Nat) (peers : Bool)
  /-- WICK_SCAN_ROW: A Wick unit finishes one DRAM row of its scan and yields the bank (R272). -/
  | wickScanRow (stack bank : Nat)
  /-- WICK_SUBQUERY_END: Every bank of a stack has scanned and the stack triple is ready (R267). -/
  | wickSubqueryEnd (stack launch rank slot seq : Nat)
  /-- DRFMT_DONE: A format finishes and BUSY clears (R282). -/
  | drfmtDone (die : Nat)
  /-- TLBINV_DONE: BUSY clears once affected accesses, sub-queries and appends have finished (R298). -/
  | tlbinvDone (die : Nat)
  /-- ISLAND_CHANGE_DONE: An island clock change completes and BUSY clears (R386). -/
  | islandChangeDone (die k : Nat)
  /-- PMCMD_DONE: A Pilot command ends and PMSTAT.BUSY clears (R383). -/
  | pmcmdDone
  /-- GANG_START: At tick START the placed VLCs of the gang issue (R344). -/
  | gangStart (launch : Nat)
  /-- REGISTER_WRITE: A write to a register window register that has no row of its own (R292). -/
  | registerWrite (pa : Nat) (x : RegData)
  /-- PACKAGE_RESET: Reset release starts bring-up: ROM, fuses, DRAM test and format, image load (R388). -/
  | packageReset
  /-- REMOTE_REQUEST: A request or atomic from another endpoint arrives, is performed and is answered (R354). -/
  | remoteRequest (ep id pa : Nat) (leaf : Option LeafUse) (op : RemoteOp)
  /-- SNUFF_RELEASE_TICK: At the release tick the frozen VLCs, engines and transfers of the job continue (R373). -/
  | snuffReleaseTick (job : Nat)
  /-- REFRESH_COMPLETE: A per-bank refresh finishes after tRFCpb, the held ordinary accesses are served and the scan opens its next row (R273). -/
  | refreshComplete (stack bank : Nat)
  /-- REGION_SWAP_PIECE: One 64 KiB piece of a region swap has moved (R287). -/
  | regionSwapPiece
  /-- RET: Jumps to s1 (R400). -/
  | ret
  /-- ERET: Returns from a handler: restores s1 to s31 from SREG, the level from PPL and the PC from TPC (R307). -/
  | eret
  /-- IDLE: Releases a saved VLC from its core, or otherwise blocks until a pre-emption request is pending (R320). -/
  | idle
  /-- BRK: Raises the BRK class at the BRK (R399). -/
  | brk
  /-- FENCEI: Makes the VLC's later instruction fetches see the writes that it sees (R189). -/
  | fencei
  /-- SNUFF: Starts a Snuff wave for the VLC's job and freezes the VLC at the next instruction (R368). -/
  | snuff
  /-- C_RET: Compressed return (R116). -/
  | cRet
  /-- YIELD: Gives up the VLC's next issue turn (R46). -/
  | yield
  /-- GRANT_WAIT_TIMEOUT: A grant that has waited 1 ms raises pre-emption requests on the VLCs that prevent it (R27). -/
  | grantWaitTimeout (core slot : Nat)
  /-- PREEMPT_FORCED: A request pending for 1 ms of residency without a grant takes the forced path (R315). -/
  | preemptForced (core : Nat) (slot : ForcedAt)
  /-- DEMOTED_ISSUE_DUE: A demoted VLC idle for 1020 ccy is chosen ahead of all others (R345). -/
  | demotedIssueDue (core slot : Nat)
  /-- WAITV_REMOTE_POLL: A WAITV on a remote word re-reads it at least every 1 µs (R354). -/
  | waitvRemotePoll (core slot : Nat)
  /-- MESH_COLLECTIVE_TIMEOUT: A party missing TMO µs after the first issue ends the arrived parties with TIMEOUT (R245). -/
  | meshCollectiveTimeout (die h : Nat)
  /-- RING_FORMATION_TIMEOUT: CRING ends with code 1 when a member is missing after TMO (R361). -/
  | ringFormationTimeout (id : Nat) (arrived : List Nat)
  /-- COLL_HEARTBEAT: A member in a round sends a heartbeat to its successor every 1 µs (R365). -/
  | collHeartbeat (slot : Nat)
  /-- COLL_SILENCE_TIMEOUT: With no word from the predecessor for TMO µs, the member names it silent and sends an abort notice (R365). -/
  | collSilenceTimeout (slot : Nat)
  /-- REFRESH_DUE: A per-bank refresh falls due, is issued or postponed, and pre-empts a scan at its row boundary (R285). -/
  | refreshDue (stack bank : Nat) (postpone : Bool)
  /-- REMAP_WINDOW_END: At the end of a 2^20-tick window the controller may begin a region swap (R287). -/
  | remapWindowEnd (stack r0 r1 : Nat)
  /-- REGION_TABLE_REBUILD: The Pilot rebuilds a region-table entry whose copies both failed, and poisons its regions (R288). -/
  | regionTableRebuild (stack r : Nat)
  /-- SCRUB_ERROR: An error found outside any instruction posts a MEMERR notice (R312). -/
  | scrubError (die place : Nat) (flaw : Flaw)
  /-- NOTTAIL_WRITE: The supervisor consumes notices, freeing room for held notices (R389). -/
  | nottailWrite (die : Nat) (x : BitVec 64)
  /-- LREC_WRITE: A 128 B posted write enqueues a launch record, or is dropped (R324). -/
  | lrecWrite (off : Nat) (data : List Byte)
  /-- QCFG_WRITE: Configures a queue; clearing EN discards records and setting EN clears DROP and FAILS (R325). -/
  | qcfgWrite (q : Nat) (x : BitVec 64)
  /-- LAUNCH_PLACE: The dispatcher chooses a ready launch by deficit round-robin and places all its VLCs (R334). -/
  | launchPlace
  /-- VLC_RESUME_PLACE: A VLC made placeable by RESUME is placed and resumes (R338). -/
  | vlcResumePlace
  /-- GANG_REPORT: A gang report arrives from another package over the management class (R344). -/
  | gangReport (ep gang npkg : Nat) (start : BitVec 64) (rank0 nvlc total : Nat)
  /-- GANG_REPORT_DEADLINE: At tick START − 5000 a missing report fails the gang with GANGFAIL (R344). -/
  | gangReportDeadline (launch : Nat)
  /-- VEND_RESIDENT: Ends a resident VLC named by core and slot (R341). -/
  | vendResident (die : Nat) (x : BitVec 64)
  /-- VEND_RELEASED: Ends a released VLC named by its save area (R341). -/
  | vendReleased (die : Nat) (x : BitVec 64)
  /-- TLBINV_CONTEXT: Invalidates every translation of one context on the die (R298). -/
  | tlbinvContext (die : Nat) (x : BitVec 64)
  /-- TLBINV_PAGE: Invalidates the 64 KiB, 2 MiB or 1 GiB page holding VA (R298). -/
  | tlbinvPage (die : Nat) (x : BitVec 64)
  /-- TLBINV_ALL: Invalidates the translations of every context (R298). -/
  | tlbinvAll (die : Nat) (x : BitVec 64)
  /-- DRFMT_SPREAD: Formats a spread region or a whole row group as spread with granule GR (R282). -/
  | drfmtSpread (die : Nat) (x : BitVec 64)
  /-- DRFMT_WICK: Formats a whole row group as wick with G64 (R282). -/
  | drfmtWick (die : Nat) (x : BitVec 64)
  /-- ISLCTL_WRITE: Requests an island clock step (R386). -/
  | islctlWrite (die k : Nat) (x : BitVec 64)
  /-- POWER_SAMPLE: The Pilot samples package power every 10 µs into PWR (R387). -/
  | powerSample (w : BitVec 16)
  /-- LIM_STEP_DOWN: While PWR exceeds LIMIT, every island's LIM drops one step every 20 µs (R387). -/
  | limStepDown
  /-- LIM_STEP_UP: After 1 ms below 95 % of LIMIT, each LIM rises one step (R387). -/
  | limStepUp
  /-- RAIL_OVERCURRENT: A core-rail current above 7500 A halves every island's clock within 1 µs (R387). -/
  | railOvercurrent
  /-- IDKEY: Pilot command that writes the device public key (R383). -/
  | idkey (x : BitVec 64)
  /-- ATTEST: Pilot command that writes a signed attestation report (R384). -/
  | attest (x : BitVec 64)
  /-- KEYSET: Pilot command that loads a fresh random key into a slot on every die (R383). -/
  | keyset (x : BitVec 64)
  /-- KEYCLR: Pilot command that erases a key slot (R383). -/
  | keyclr (x : BitVec 64)
  /-- FWSET: Pilot command that sets one firewall range (R390). -/
  | fwset (x : BitVec 64)
  /-- UPDATE: Pilot command that verifies a staged image, writes the slot and resets the package (R385). -/
  | update (x : BitVec 64)
  /-- PBOOT_RREQ: Requests recovery mode at the next reset (R385). -/
  | pbootRreq (x : BitVec 64)
  /-- BOOT_IMAGE_VERIFIED: Image verification ends: the system cores start, or the package enters recovery mode (R381). -/
  | bootImageVerified
  /-- HOST_DRAM_READ: A BAR 4 read passes the firewall and returns data, marking poisoned completions (R376). -/
  | hostDramRead (off n : Nat)
  /-- HOST_DRAM_WRITE: A BAR 4 write passes the firewall and merges into DRAM (R376). -/
  | hostDramWrite (off : Nat) (data : List Byte)
  /-- REMOTE_RESPONSE: A response arrives and completes the issuer's access element (R354). -/
  | remoteResponse (id : Nat) (ans : RemoteAns)
  /-- FABRIC_TIMEOUT: No response 50 µs after injection raises FABRIC or posts a FABRIC notice (R355). -/
  | fabricTimeout (id : Nat)
  /-- PLANE_FAILURE: A plane fails and the lines that hashed to it are re-hashed (R351). -/
  | planeFailure (p : Nat)
  /-- BEACON_SYNC: A Beacon synchronisation message slews the local Beacon (R358). -/
  | beaconSync (t : BitVec 64)
  /-- SNCMD_FREEZE: Debugger command that starts a wave with a command cause (R373). -/
  | sncmdFreeze (job : Nat)
  /-- SNCMD_RESUME: Debugger command that schedules the job's release at a tick (R373). -/
  | sncmdResume (job : Nat)
  /-- SNCMD_STEP: Debugger command that runs one convoy of a named VLC and refreezes it (R373). -/
  | sncmdStep (job : Nat)
  /-- CAUSE_RECORD: A package's cause record arrives and is placed in the cause block (R371). -/
  | causeRecord (job : Nat) (time : BitVec 64) (ep die cls rank : Nat) (pc detail : BitVec 64)
  /-- POWER_LOSS: The package loses its supply, for example during an UPDATE write, which leaves the image slot invalid (R385). -/
  | powerLoss
  /-- HOST_CONFIGURATION_REQUEST: A PCIe configuration request from the host is answered with Configuration Request Retry Status until bring-up step 6, and completed after it (R388). -/
  | hostConfigurationRequest
  /-- MATRIX_MEMBER_COMPLETE: A TMMA, TMMAS or TZERO finishes its occupancy of the matrix unit, which frees waiting TREL, TLD, TZERO, forced pre-emption and Snuff stops (R213). -/
  | matrixMemberComplete (core slot : Nat)
  deriving DecidableEq, Repr

end Sys2Proof
end

