-- ==== Sys2Proof/WellFormed.lean ====
section
/-! DEFINITION. The instructions that an encoding of file 05 can hold: the type classes of file 05 and the operand limits
that the types of `Instr` do not already fix. -/

namespace Sys2Proof

/-- Class I of file 05: the integer types. -/
def VType.isI : VType → Bool
  | .n8 | .n16 | .n32 | .n64 | .s8 | .s16 | .s32 | .s64 => true
  | .f64 | .f32 | .f16 | .bf16 | .e4m3 | .e5m2 | .e2m1 | .e4m3x | .e2m1x => false

/-- Class F of file 05. -/
def VType.isF : VType → Bool
  | .f64 | .f32 | .f16 | .bf16 => true
  | .n8 | .n16 | .n32 | .n64 | .s8 | .s16 | .s32 | .s64 | .e4m3 | .e5m2 | .e2m1 | .e4m3x | .e2m1x => false

/-- Class N of file 05: the narrow floating types. -/
def VType.isN : VType → Bool
  | .e4m3 | .e5m2 | .e2m1 | .e4m3x | .e2m1x => true
  | .n8 | .n16 | .n32 | .n64 | .s8 | .s16 | .s32 | .s64 | .f64 | .f32 | .f16 | .bf16 => false

/-- The block-scaled types. -/
def VType.isX : VType → Bool
  | .e4m3x | .e2m1x => true
  | .n8 | .n16 | .n32 | .n64 | .s8 | .s16 | .s32 | .s64 | .f64 | .f32 | .f16 | .bf16 | .e4m3 | .e5m2 | .e2m1 => false

/-- Every type but the block-scaled ones. -/
def VType.notX (t : VType) : Bool := !t.isX

/-- The types of a reduction, a scan, VCMP, VSTXA and the broadcast and packed forms. -/
def VType.isIF (t : VType) : Bool := t.isI || t.isF

/-- The types of a tile shape or a tile load (R117 Table 10). -/
def VType.isFN (t : VType) : Bool := t.isF || t.isN

/-- The types of TMMAS (R117 Table 10). -/
def VType.isSparse (t : VType) : Bool := t.isN || t == .f16 || t == .bf16

/-- The accumulator types of TEXT and TINJ (R117 Table 10). -/
def VType.isAcc (t : VType) : Bool := t == .f32 || t == .f64

/-- The rank types of VBIN (R112 Table 6). -/
def VType.isRank (t : VType) : Bool := t == .n32 || t == .n64

/-- Any assigned type. -/
def VType.any (_ : VType) : Bool := true

/-- The conversions a destination type takes (R111 Table 5). -/
def Conv.fits (p : Conv) (t : VType) : Bool :=
  match p with
  | .fpc | .rne | .rtz | .rup | .rdn => true
  | .sr => t == .bf16 || t == .f16 || t.isN
  | .sat | .srSat => t.isN

/-- The reductions a type takes (R113 Table 7). -/
def RedOp.fits (k : RedOp) (t : VType) : Bool :=
  match k with
  | .sum | .seq | .min | .max => true
  | .and | .or | .xor => t.isI

/-- The first halfword of an instruction of the integer group is not zero: the zero halfword is ILL whatever follows it
(R74), so that rd = s0 with C = 0 leaves bits 1:0 of field A to tell. -/
def notZero (d a : SReg) (c : Bool) : Bool := c || d != 0 || a.extractLsb' 0 2 != 0

/-- The instruction is one that its row's encoding can hold. Events are well formed whatever they carry. -/
def Instr.wf : Instr → Bool
  | .add d a _ c | .sub d a _ c | .mul d a _ c | .and d a _ c | .or d a _ c | .xor d a _ c | .shl d a _ c
  | .shr d a _ c | .shra d a _ c | .sel d a _ c => notZero d a c
  | .mulh _ d a _ c | .div _ d a _ c | .rem _ d a _ c | .min _ d a _ c | .max _ d a _ c => notZero d a c
  | .cmp _ d a _ c => notZero d a c
  | .clz d a c | .ctz d a c | .popc d a c => notZero d a c
  | .ldSpace t x _ _ | .stSpace t x _ _ => t.isI && (x == .cmem || x == .spad)
  | .lda t _ x _ _ | .strel t _ x _ _ => t.isI && x != .lane
  | .fadd t _ _ _ _ | .fsub t _ _ _ _ | .fmul t _ _ _ _ | .fdiv t _ _ _ _ | .fma t _ _ _ _ => t.isF
  | .fsqrt t _ _ _ => t.isF
  | .fcmp t _ _ _ _ | .fminmax t _ _ _ _ => t.isF
  | .fcvt t p u _ _ => t.notX && u.notX && p.fits t
  | .vadd t _ _ _ _ _ | .vsub t _ _ _ _ _ | .vmul t _ _ _ _ _ | .vmulh t _ _ _ _ _ | .vand t _ _ _ _ _
  | .vor t _ _ _ _ _ | .vxor t _ _ _ _ _ | .vshl t _ _ _ _ _ | .vshr t _ _ _ _ _ | .vshra t _ _ _ _ _
  | .vmin t _ _ _ _ _ | .vmax t _ _ _ _ _ | .vsadd t _ _ _ _ _ | .vssub t _ _ _ _ _ => t.isI
  | .vfadd t _ _ _ _ _ | .vfsub t _ _ _ _ _ | .vfmul t _ _ _ _ _ | .vfdiv t _ _ _ _ _ | .vfma t _ _ _ _ _
  | .vfmin t _ _ _ _ _ | .vfmax t _ _ _ _ _ => t.isF
  | .vfsqrt t _ _ _ _ | .vfrsq t _ _ _ _ | .vfrcp t _ _ _ _ | .vfclass t _ _ _ _ | .vfexp2 t _ _ _ _ => t.isF
  | .vfcvt t p _ _ _ _ => p.fits t
  | .vcmp t p d _ _ _ => t.isIF && d != 0 && (p != .un || t.isF)
  | .vred t _ k _ _ => t.isIF && k.fits t
  | .vscan t _ k _ _ => t.isIF && k.fits t && k != .seq
  | .mlog _ d a b _ => d != 0 && a != 0 && b != 0
  | .mpopc _ a | .mfirst _ a => a != 0
  | .msbf d a => d != 0 && a != 0
  | .vstxa t _ _ _ _ _ => t.isIF
  | .vldbpc t k _ _ _ => t.isIF && k != 0
  | .vstbpc t _ _ _ _ => t.isIF
  | .vbin t _ _ _ _ => t.isRank
  | .setvp d _ _ => d != 0 && d != 31
  | .wqpost _ _ b => b != 0 && decide (b.toNat ≤ 30)
  | .wqrecv _ _ b => b != 0 && decide (b.toNat ≤ 29)
  | .wcomb _ _ b => b != 0 && decide (b.toNat ≤ 26)
  | .tshape t _ _ _ _ | .tld t _ _ _ => t.isFN
  | .tmma t _ _ _ _ => t.isFN
  | .tmmas t sp _ _ _ _ _ => t.isSparse && sp != .dense
  | .text t _ _ u _ _ | .tinj t _ _ u _ _ => t.isAcc && u.notX
  | .convoy ws => decide (2 ≤ ws.length)
  | _ => true

end Sys2Proof
end

