-- ==== Sys2Proof/Decode.lean ====
section
/-! DEFINITION. The decoder and the encoder (files 04 and 05): the field layouts of R75, R79 and R81, the tables of
R109 to R119, and the order of checks of R108 as far as it depends on the encoding alone. -/

namespace Sys2Proof

/-! ## Codes of the sub-fields -/

/-- The ILL subcodes (R107 Table 1). -/
inductive IllSub where
  | zero | major | func5 | func3 | nonzero | regclass | vdecl | type | typeop | scope | imm | select | spr | sprro
  | lcempty | group | overlap | spreadtile | tileown | pfxop | pfxc | spar | crsv | cvcount | cvunit | cvmem
  | cvmatrix | cvjoin | cvhead | cventry
  deriving DecidableEq, Repr

/-- R107 Table 1. -/
def IllSub.code : IllSub → Nat
  | .zero => 0x01 | .major => 0x02 | .func5 => 0x03 | .func3 => 0x04 | .nonzero => 0x05 | .regclass => 0x06
  | .vdecl => 0x07 | .type => 0x08 | .typeop => 0x09 | .scope => 0x0A | .imm => 0x0B | .select => 0x0C
  | .spr => 0x0D | .sprro => 0x0E | .lcempty => 0x0F | .group => 0x10 | .overlap => 0x11 | .spreadtile => 0x12
  | .tileown => 0x13 | .pfxop => 0x14 | .pfxc => 0x15 | .spar => 0x16 | .crsv => 0x17 | .cvcount => 0x18
  | .cvunit => 0x19 | .cvmem => 0x1A | .cvmatrix => 0x1B | .cvjoin => 0x1C | .cvhead => 0x1D | .cventry => 0x1E

/-- The type code of a suffix (R77 Table 4). -/
def VType.code : VType → BitVec 5
  | .n8 => 0x00 | .n16 => 0x01 | .n32 => 0x02 | .n64 => 0x03 | .s8 => 0x04 | .s16 => 0x05 | .s32 => 0x06
  | .s64 => 0x07 | .f64 => 0x08 | .f32 => 0x09 | .f16 => 0x0A | .bf16 => 0x0B | .e4m3 => 0x0C | .e5m2 => 0x0D
  | .e2m1 => 0x0E | .e4m3x => 0x0F | .e2m1x => 0x10

/-- The suffix of a type code; none for 0x11 to 0x1F (R77 Table 4). -/
def VType.ofCode (c : BitVec 5) : Option VType :=
  match c.toNat with
  | 0 => some .n8 | 1 => some .n16 | 2 => some .n32 | 3 => some .n64 | 4 => some .s8 | 5 => some .s16
  | 6 => some .s32 | 7 => some .s64 | 8 => some .f64 | 9 => some .f32 | 10 => some .f16 | 11 => some .bf16
  | 12 => some .e4m3 | 13 => some .e5m2 | 14 => some .e2m1 | 15 => some .e4m3x | 16 => some .e2m1x
  | _ => none

/-- The element width in bits (R77 Table 4). -/
def VType.width : VType → Nat
  | .n8 | .s8 | .e4m3 | .e5m2 | .e2m1 | .e4m3x | .e2m1x => 8
  | .n16 | .s16 | .f16 | .bf16 => 16
  | .n32 | .s32 | .f32 => 32
  | .n64 | .s64 | .f64 => 64

/-- The width code, VT.W of R77 Table 4. -/
def VType.wcode : VType → Nat
  | .n8 | .s8 | .e4m3 | .e5m2 | .e2m1 | .e4m3x | .e2m1x => 0
  | .n16 | .s16 | .f16 | .bf16 => 1
  | .n32 | .s32 | .f32 => 2
  | .n64 | .s64 | .f64 => 3

/-- The signed integer suffixes. -/
def VType.isSigned : VType → Bool
  | .s8 | .s16 | .s32 | .s64 => true
  | .n8 | .n16 | .n32 | .n64 | .f64 | .f32 | .f16 | .bf16 | .e4m3 | .e5m2 | .e2m1 | .e4m3x | .e2m1x => false

/-- R78. -/
def Scope.code : Scope → BitVec 3
  | .core => 0 | .cl => 1 | .die => 2 | .pkg => 3 | .pod => 4

/-- R78. -/
def Scope.ofCode (c : BitVec 3) : Option Scope :=
  match c.toNat with
  | 0 => some .core | 1 => some .cl | 2 => some .die | 3 => some .pkg | 4 => some .pod | _ => none

/-- R63 Table 5. -/
def Space.code : Space → BitVec 5
  | .glob => 0 | .cmem => 1 | .spad => 2 | .lane => 3

/-- R63 Table 5. -/
def Space.ofCode (c : BitVec 5) : Option Space :=
  match c.toNat with
  | 0 => some .glob | 1 => some .cmem | 2 => some .spad | 3 => some .lane | _ => none

/-- R111 Table 5. -/
def MemOrder.code : MemOrder → BitVec 2
  | .none => 0 | .acq => 1 | .rel => 2 | .acqrel => 3

/-- R111 Table 5. -/
def MemOrder.ofCode (c : BitVec 2) : MemOrder :=
  match c.toNat with
  | 0 => .none | 1 => .acq | 2 => .rel | _ => .acqrel

/-- R111 Table 5. -/
def Rnd.code : Rnd → BitVec 3
  | .fpc => 0 | .rne => 1 | .rtz => 2 | .rup => 3 | .rdn => 4

/-- R111 Table 5. -/
def Rnd.ofCode (c : BitVec 3) : Option Rnd :=
  match c.toNat with
  | 0 => some .fpc | 1 => some .rne | 2 => some .rtz | 3 => some .rup | 4 => some .rdn | _ => none

/-- R111 Table 5. -/
def Conv.code : Conv → BitVec 3
  | .fpc => 0 | .rne => 1 | .rtz => 2 | .rup => 3 | .rdn => 4 | .sr => 5 | .sat => 6 | .srSat => 7

/-- R111 Table 5. -/
def Conv.ofCode (c : BitVec 3) : Conv :=
  match c.toNat with
  | 0 => .fpc | 1 => .rne | 2 => .rtz | 3 => .rup | 4 => .rdn | 5 => .sr | 6 => .sat | _ => .srSat

/-- R110 Table 3. -/
def CmpCond.code : CmpCond → BitVec 3
  | .eq => 0 | .ne => 1 | .ltS => 2 | .geS => 3 | .ltU => 6 | .geU => 7

/-- R110 Table 3. -/
def CmpCond.ofCode (c : BitVec 3) : Option CmpCond :=
  match c.toNat with
  | 0 => some .eq | 1 => some .ne | 2 => some .ltS | 3 => some .geS | 6 => some .ltU | 7 => some .geU | _ => none

/-- R111 Table 5. -/
def FcmpCond.code : FcmpCond → BitVec 3
  | .eq => 0 | .lt => 1 | .le => 2 | .un => 3

/-- R113 Table 7. -/
def VcmpCond.code : VcmpCond → BitVec 3
  | .eq => 0 | .ne => 1 | .lt => 2 | .le => 3 | .gt => 4 | .ge => 5 | .un => 6

/-- R113 Table 7. -/
def VcmpCond.ofCode (c : BitVec 3) : Option VcmpCond :=
  match c.toNat with
  | 0 => some .eq | 1 => some .ne | 2 => some .lt | 3 => some .le | 4 => some .gt | 5 => some .ge | 6 => some .un
  | _ => none

/-- R111 Table 5. -/
def AmoOp.code : AmoOp → BitVec 4
  | .add => 0 | .and => 1 | .or => 2 | .xor => 3 | .minS => 4 | .maxS => 5 | .minU => 6 | .maxU => 7 | .swap => 8

/-- R111 Table 5. -/
def AmoOp.ofCode (c : BitVec 4) : Option AmoOp :=
  match c.toNat with
  | 0 => some .add | 1 => some .and | 2 => some .or | 3 => some .xor | 4 => some .minS | 5 => some .maxS
  | 6 => some .minU | 7 => some .maxU | 8 => some .swap | _ => none

/-- R114 Table 8. -/
def LogOp.code : LogOp → BitVec 3
  | .and => 0 | .or => 1 | .xor => 2 | .andn => 3 | .orn => 4 | .nand => 5 | .nor => 6 | .xnor => 7

/-- R114 Table 8. -/
def LogOp.ofCode (c : BitVec 3) : LogOp :=
  match c.toNat with
  | 0 => .and | 1 => .or | 2 => .xor | 3 => .andn | 4 => .orn | 5 => .nand | 6 => .nor | _ => .xnor

/-- R113 Table 7. -/
def RedOp.code : RedOp → BitVec 5
  | .sum => 0 | .seq => 1 | .min => 2 | .max => 3 | .and => 4 | .or => 5 | .xor => 6

/-- R113 Table 7. -/
def RedOp.ofCode (c : BitVec 5) : Option RedOp :=
  match c.toNat with
  | 0 => some .sum | 1 => some .seq | 2 => some .min | 3 => some .max | 4 => some .and | 5 => some .or
  | 6 => some .xor | _ => none

/-- R111 Table 4. -/
def FenceClass.code : FenceClass → BitVec 5
  | .ld => 1 | .st => 2 | .all => 3

/-- R111 Table 4. -/
def FenceClass.ofCode (c : BitVec 5) : Option FenceClass :=
  match c.toNat with
  | 1 => some .ld | 2 => some .st | 3 => some .all | _ => none

/-- R48 Table 4. -/
def WaitCond.code : WaitCond → BitVec 3
  | .ge => 0 | .eq => 1 | .ne => 2

/-- R48 Table 4. -/
def WaitCond.ofCode (c : BitVec 3) : Option WaitCond :=
  match c.toNat with
  | 0 => some .ge | 1 => some .eq | 2 => some .ne | _ => none

/-- R81 Table 6. -/
def Spar.code : Spar → BitVec 2
  | .dense => 0 | .s24 => 1 | .s48 => 2

/-- R81 Table 6; 0b11 names no sparsity. -/
def Spar.ofCode (c : BitVec 2) : Option Spar :=
  match c.toNat with
  | 0 => some .dense | 1 => some .s24 | 2 => some .s48 | _ => none

/-- The special-register numbers (R62 Table 2). -/
def Spr.code : Spr → BitVec 13
  | .vl => 0x000 | .mvl => 0x001 | .vt => 0x002 | .mt => 0x003 | .vstart => 0x004 | .fsr => 0x005 | .scnt => 0x006
  | .lcmap => 0x007 | .tsm => 0x008 | .tsn => 0x009 | .tsk => 0x00A | .fpc => 0x00B | .srseed => 0x00C
  | .vlcid => 0x00D | .gmemb => 0x00E | .vdecl => 0x00F | .tcause => 0x010 | .tpc => 0x011 | .tval => 0x012
  | .tvec => 0x013
  | .vhwm n => 0b00001000#8 ++ n
  | .maxvl => 0x200
  | .lremap n => 0b00010000100#11 ++ n

/-- The register of a special-register number; none where R119 gives none. -/
def Spr.ofCode (c : BitVec 13) : Option Spr :=
  if c.extractLsb' 5 8 = 0b00001000#8 then some (.vhwm (c.extractLsb' 0 5))
  else if c.extractLsb' 2 11 = 0b00010000100#11 then some (.lremap (c.extractLsb' 0 2))
  else match c.toNat with
  | 0x000 => some .vl | 0x001 => some .mvl | 0x002 => some .vt | 0x003 => some .mt | 0x004 => some .vstart
  | 0x005 => some .fsr | 0x006 => some .scnt | 0x007 => some .lcmap | 0x008 => some .tsm | 0x009 => some .tsn
  | 0x00A => some .tsk | 0x00B => some .fpc | 0x00C => some .srseed | 0x00D => some .vlcid | 0x00E => some .gmemb
  | 0x00F => some .vdecl | 0x010 => some .tcause | 0x011 => some .tpc | 0x012 => some .tval | 0x013 => some .tvec
  | 0x200 => some .maxvl
  | _ => none

/-! ## Layouts -/

/-- A 32-bit instruction by its fields (R75 Table 2). -/
structure F32 where
  f5 : BitVec 5
  p : BitVec 3
  b : BitVec 5
  a : BitVec 5
  d : BitVec 5
  maj : BitVec 6
  c : Bool
  bank : BitVec 2
  deriving DecidableEq, Repr

/-- The word of the fields. -/
def F32.pack (f : F32) : BitVec 32 :=
  f.f5 ++ f.p ++ f.b ++ f.a ++ f.d ++ f.maj ++ BitVec.ofBool f.c ++ f.bank

/-- The fields of a word. -/
def F32.unpack (w : BitVec 32) : F32 where
  f5 := w.extractLsb' 27 5
  p := w.extractLsb' 24 3
  b := w.extractLsb' 19 5
  a := w.extractLsb' 14 5
  d := w.extractLsb' 9 5
  maj := w.extractLsb' 3 6
  c := w.getLsbD 2
  bank := w.extractLsb' 0 2

/-- The immediate of the immediate form (R75). -/
def F32.imm13 (f : F32) : BitVec 13 := f.f5 ++ f.p ++ f.b

/-- The immediate of the long form (R75). -/
def F32.imm18 (f : F32) : BitVec 18 := f.f5 ++ f.p ++ f.b ++ f.a

/-- A prefix word by its fields (R81 Table 6). -/
structure Pfx where
  rsv : BitVec 5
  mask : BitVec 3
  oc : BitVec 4
  ob : BitVec 4
  oa : BitVec 4
  acc : BitVec 2
  spar : BitVec 2
  ttype : BitVec 5
  c : Bool
  deriving DecidableEq, Repr

/-- The prefix word of the fields. -/
def Pfx.pack (f : Pfx) : BitVec 32 :=
  f.rsv ++ f.mask ++ f.oc ++ f.ob ++ f.oa ++ f.acc ++ f.spar ++ f.ttype ++ BitVec.ofBool f.c ++ 0b11#2

/-- The fields of a prefix word. -/
def Pfx.unpack (w : BitVec 32) : Pfx where
  rsv := w.extractLsb' 27 5
  mask := w.extractLsb' 24 3
  oc := w.extractLsb' 20 4
  ob := w.extractLsb' 16 4
  oa := w.extractLsb' 12 4
  acc := w.extractLsb' 10 2
  spar := w.extractLsb' 8 2
  ttype := w.extractLsb' 3 5
  c := w.getLsbD 2

/-- A compressed halfword by its fields (R79 Table 5). -/
structure F16 where
  b : BitVec 5
  a : BitVec 5
  cop : BitVec 4
  deriving DecidableEq, Repr

/-- The halfword of the fields. -/
def F16.pack (f : F16) : BitVec 16 := f.b ++ f.a ++ f.cop ++ 0b10#2

/-- The fields of a halfword. -/
def F16.unpack (w : BitVec 16) : F16 where
  b := w.extractLsb' 11 5
  a := w.extractLsb' 6 5
  cop := w.extractLsb' 2 4

/-! ## Checks -/

/-- What the checks of an encoding answer: the instruction, or the subcode of the first check that fails (R108). -/
abbrev Dec := Except IllSub Instr

/-- Go on if the check holds. -/
def chk (ok : Bool) (e : IllSub) (k : Dec) : Dec := if ok then k else .error e

/-- Go on with an assigned value. -/
def want {α : Type} (o : Option α) (e : IllSub) (k : α → Dec) : Dec :=
  match o with
  | some x => k x
  | none => .error e

/-- Check 6 of R108 for one type field. -/
def wantType (c : BitVec 5) (ok : VType → Bool) (k : VType → Dec) : Dec :=
  want (VType.ofCode c) .type fun t => chk (ok t) .typeop (k t)

/-- Check 6 of R108 for two type fields: the first field's type, then the second's. DEDUCED (log 11). -/
def wantTypes (c d : BitVec 5) (okc okd : VType → Bool) (k : VType → VType → Dec) : Dec :=
  wantType c okc fun t => wantType d okd fun u => k t u

/-- A field that must be 0. -/
def zer {w : Nat} (x : BitVec w) (k : Dec) : Dec := chk (x == 0) .nonzero k

/-- A 5-bit field that names a stream register (R76 Table 3). -/
def wantQ (x : BitVec 5) (k : QReg → Dec) : Dec :=
  chk (!x.getLsbD 4) .regclass (k (x.extractLsb' 0 4))

/-- A 5-bit field that names a mask register m1 to m7 (R76 Table 3). -/
def wantM (x : BitVec 5) (k : MReg → Dec) : Dec :=
  chk (x.extractLsb' 3 2 == 0 && x.extractLsb' 0 3 != 0) .regclass (k (x.extractLsb' 0 3))

/-! ## Forms that several rows share -/

/-- A typed vector row of three vector registers. -/
def vec3 (ok : VType → Bool) (mk : VType → MReg → VReg → VReg → VReg → Bool → Instr) (f : F32) : Dec :=
  wantType f.f5 ok fun t => .ok (mk t f.p f.d f.a f.b f.c)

/-- A typed vector row of two vector registers. -/
def vec2 (ok : VType → Bool) (mk : VType → MReg → VReg → VReg → Bool → Instr) (f : F32) : Dec :=
  wantType f.f5 ok fun t => zer f.b <| .ok (mk t f.p f.d f.a f.c)

/-- A vector row with a stream register and an index register. -/
def vecX (ok : VType → Bool) (mk : VType → MReg → VReg → QReg → VReg → Bool → Instr) (f : F32) : Dec :=
  wantType f.f5 ok fun t => wantQ f.a fun q => .ok (mk t f.p f.d q f.b f.c)

/-- The ordering field of VLD and VST (R113 Table 7): `mine` is the order the row accepts. -/
def vecOrd (mine : BitVec 2) (mk : VType → MReg → Option Scope → VReg → QReg → Bool → Instr) (f : F32) : Dec :=
  let o : BitVec 2 := f.b.extractLsb' 3 2
  let s : BitVec 3 := f.b.extractLsb' 0 3
  wantType f.f5 VType.any fun t =>
    if o == 0 then zer s <| wantQ f.a fun q => .ok (mk t f.p none f.d q f.c)
    else chk (o == 3 || (Scope.ofCode s).isSome) .scope <| chk (o == mine) .select <|
      want (Scope.ofCode s) .scope fun sc => wantQ f.a fun q => .ok (mk t f.p (some sc) f.d q f.c)

/-- A scalar row of the integer group; R110 gives FUNC3 for a value of 26:24 it does not list. -/
def int3 (mk : SReg → SReg → SReg → Bool → Instr) (f : F32) : Dec :=
  chk (f.p == 0) .func3 <| .ok (mk f.d f.a f.b f.c)

/-- A scalar row of the integer group with signed and unsigned forms. -/
def int3u (mk : Bool → SReg → SReg → SReg → Bool → Instr) (f : F32) : Dec :=
  chk (f.p.extractLsb' 1 2 == 0) .func3 <| .ok (mk (f.p.getLsbD 0) f.d f.a f.b f.c)

/-- A scalar row of the integer group with one source. -/
def int2 (mk : SReg → SReg → Bool → Instr) (f : F32) : Dec :=
  chk (f.p == 0) .func3 <| zer f.b <| .ok (mk f.d f.a f.c)

/-- A shift by an immediate from 0 to 63. -/
def shImm (mk : SReg → SReg → BitVec 6 → Bool → Instr) (f : F32) : Dec :=
  chk (f.imm13.extractLsb' 6 7 == 0) .imm <| .ok (mk f.d f.a (f.imm13.extractLsb' 0 6) f.c)

/-- A scalar floating-point row of two sources. -/
def fp3 (mk : VType → Rnd → SReg → SReg → SReg → Instr) (f : F32) : Dec :=
  want (Rnd.ofCode f.p) .func3 fun p => wantType f.f5 VType.isF fun t => .ok (mk t p f.d f.a f.b)

/-- A scalar acquire load or release store. -/
def ordMem (mk : VType → Scope → Space → SReg → SReg → Instr) (f : F32) : Dec :=
  wantType f.f5 VType.isI fun t => want (Scope.ofCode f.p) .scope fun sc =>
    want (Space.ofCode f.b) .select fun x => chk (x != .lane) .select <| .ok (mk t sc x f.d f.a)

/-- A scalar load or store that names its space. -/
def spaceMem (mk : VType → Space → SReg → SReg → Instr) (f : F32) : Dec :=
  wantType f.f5 VType.isI fun t => want (Space.ofCode f.b) .select fun x =>
    chk (x == .cmem || x == .spad) .select <| zer f.p <| .ok (mk t x f.d f.a)

/-- An AMO row: the order and the width are in the major (R111 Table 5). -/
def amoRow (f : F32) : Dec :=
  want (AmoOp.ofCode (f.f5.extractLsb' 0 4)) .func5 fun k => want (Scope.ofCode f.p) .scope fun sc =>
    .ok (.amo (MemOrder.ofCode (f.maj.extractLsb' 1 2)) (f.f5.getLsbD 4) (f.maj.getLsbD 0) k sc f.d f.a f.b)

/-- A row of an engine group with three scalar registers. -/
def eng3 (mk : SReg → SReg → SReg → Instr) (f : F32) : Dec := zer f.p <| .ok (mk f.d f.a f.b)

/-- A row of an engine group with two scalar registers. -/
def eng2 (mk : SReg → SReg → Instr) (f : F32) : Dec := zer f.b <| zer f.p <| .ok (mk f.d f.a)

/-- A run of `n` scalar registers from field 23:19 (R114). -/
def run3 (n : Nat) (mk : BitVec 5 → BitVec 5 → BitVec 5 → Instr) (f : F32) : Dec :=
  zer f.p <| chk (f.b != 0 && decide (f.b.toNat + n ≤ 32)) .regclass <| .ok (mk f.d f.a f.b)

/-! ## Bank 0 (R109-R111) -/

/-- R110 Table 3. -/
def decodeInt (f : F32) : Dec :=
  match f.f5.toNat with
  | 0 => int3 .add f | 1 => int3 .sub f | 2 => int3 .mul f
  | 3 => int3u .mulh f | 4 => int3u .div f | 5 => int3u .rem f
  | 6 => int3 .and f | 7 => int3 .or f | 8 => int3 .xor f
  | 9 => int3 .shl f | 10 => int3 .shr f | 11 => int3 .shra f
  | 12 => want (CmpCond.ofCode f.p) .func3 fun p => .ok (.cmp p f.d f.a f.b f.c)
  | 13 => int3u .min f | 14 => int3u .max f
  | 15 => int2 .clz f | 16 => int2 .ctz f | 17 => int2 .popc f
  | 18 => int3 .sel f
  | _ => .error .func5

/-- R111 Table 4. -/
def decodeSys (f : F32) : Dec :=
  match f.f5.toNat with
  | 0 => zer f.d <| zer f.a <| zer f.b <| zer f.p <| .ok .eret
  | 1 => zer f.d <| zer f.a <| zer f.b <| zer f.p <| .ok .idle
  | 2 => zer f.d <| zer f.a <| zer f.b <| zer f.p <| .ok .brk
  | 3 => zer f.d <| zer f.a <| zer f.b <| zer f.p <| .ok .fencei
  | 4 => zer f.a <| zer f.b <| zer f.p <| .ok (.rdtime f.d)
  | 5 => zer f.d <| zer f.a <| zer f.b <| zer f.p <| .ok .snuff
  | 6 => want (Scope.ofCode f.p) .scope fun sc => want (FenceClass.ofCode f.b) .select fun k =>
      zer f.d <| zer f.a <| .ok (.fence k sc)
  | _ => .error .func5

/-- FCMP and FMINMAX (R111 Table 5). -/
def decodeFcmp (f : F32) : Dec :=
  match f.p.toNat with
  | 0 => wantType f.f5 VType.isF fun t => .ok (.fcmp t .eq f.d f.a f.b)
  | 1 => wantType f.f5 VType.isF fun t => .ok (.fcmp t .lt f.d f.a f.b)
  | 2 => wantType f.f5 VType.isF fun t => .ok (.fcmp t .le f.d f.a f.b)
  | 3 => wantType f.f5 VType.isF fun t => .ok (.fcmp t .un f.d f.a f.b)
  | 4 => wantType f.f5 VType.isF fun t => .ok (.fminmax t false f.d f.a f.b)
  | 5 => wantType f.f5 VType.isF fun t => .ok (.fminmax t true f.d f.a f.b)
  | _ => .error .func3

/-- The conversion field fits the destination type code; an unassigned code takes no `.sr` or `.sat` (R111 Table 5). -/
def convOk (p : BitVec 3) (c : BitVec 5) : Bool :=
  match VType.ofCode c with
  | some t => (Conv.ofCode p).fits t
  | none => decide (p.toNat < 5)

/-- R109 Table 2. -/
def decodeBank0 (f : F32) : Dec :=
  match f.maj.toNat with
  | 0x00 => decodeInt f
  | 0x01 => .ok (.addImm f.d f.a f.imm13 f.c)
  | 0x02 => .ok (.andImm f.d f.a f.imm13 f.c)
  | 0x03 => .ok (.orImm f.d f.a f.imm13 f.c)
  | 0x04 => .ok (.xorImm f.d f.a f.imm13 f.c)
  | 0x05 => shImm .shlImm f
  | 0x06 => shImm .shrImm f
  | 0x07 => shImm .shraImm f
  | 0x08 => .ok (.mulImm f.d f.a f.imm13 f.c)
  | 0x09 => .ok (.cmpS64LtImm f.d f.a f.imm13 f.c)
  | 0x0A => .ok (.cmpN64LtImm f.d f.a f.imm13 f.c)
  | 0x0B => .ok (.lih f.d f.imm18 f.c)
  | 0x0C => .ok (.addpc f.d f.imm18 f.c)
  | 0x0D => zer f.a <| want (Spr.ofCode f.imm13) .spr fun r => .ok (.mfs f.d r f.c)
  | 0x0E => zer f.d <| want (Spr.ofCode f.imm13) .spr fun r => .ok (.mts r f.a f.c)
  | 0x0F => zer f.d <| zer f.a <| chk (!f.imm13.getLsbD 12) .imm <| .ok (.trap (f.imm13.extractLsb' 0 12))
  | 0x10 => .ok (.brEqz f.d f.imm18)
  | 0x11 => .ok (.brNez f.d f.imm18)
  | 0x12 => .ok (.brLtz f.d f.imm18)
  | 0x13 => .ok (.brGez f.d f.imm18)
  | 0x14 => .ok (.brEq f.d f.a f.imm13)
  | 0x15 => .ok (.brNe f.d f.a f.imm13)
  | 0x16 => .ok (.brLt f.d f.a f.imm13)
  | 0x17 => .ok (.brGe f.d f.a f.imm13)
  | 0x18 => .ok (.brLtu f.d f.a f.imm13)
  | 0x19 => .ok (.brGeu f.d f.a f.imm13)
  | 0x1A => zer f.d <| .ok (.jmp f.imm18)
  | 0x1B => zer f.d <| .ok (.call f.imm18)
  | 0x1C => zer f.d <| .ok (.jmpReg f.a f.imm13)
  | 0x1D => zer f.d <| .ok (.callReg f.a f.imm13)
  | 0x1E => zer f.d <| zer f.a <| zer f.b <| zer f.p <| zer f.f5 <| .ok .ret
  | 0x1F => decodeSys f
  | 0x20 => .ok (.ldN8 f.d f.a f.imm13)
  | 0x21 => .ok (.ldN16 f.d f.a f.imm13)
  | 0x22 => .ok (.ldN32 f.d f.a f.imm13)
  | 0x23 => .ok (.ldN64 f.d f.a f.imm13)
  | 0x24 => .ok (.ldS8 f.d f.a f.imm13)
  | 0x25 => .ok (.ldS16 f.d f.a f.imm13)
  | 0x26 => .ok (.ldS32 f.d f.a f.imm13)
  | 0x27 => .ok (.stN8 f.d f.a f.imm13)
  | 0x28 => .ok (.stN16 f.d f.a f.imm13)
  | 0x29 => .ok (.stN32 f.d f.a f.imm13)
  | 0x2A => .ok (.stN64 f.d f.a f.imm13)
  | 0x2B => spaceMem .ldSpace f
  | 0x2C => spaceMem .stSpace f
  | 0x2D => ordMem .lda f
  | 0x2E => ordMem .strel f
  | 0x2F => chk (!f.f5.getLsbD 0) .func5 <| want (Scope.ofCode f.p) .scope fun sc =>
      .ok (.cas (MemOrder.ofCode (f.f5.extractLsb' 3 2)) (f.f5.getLsbD 2) (f.f5.getLsbD 1) sc f.d f.a f.b)
  | 0x30 | 0x31 | 0x32 | 0x33 | 0x34 | 0x35 | 0x36 | 0x37 => amoRow f
  | 0x38 => fp3 .fadd f
  | 0x39 => fp3 .fsub f
  | 0x3A => fp3 .fmul f
  | 0x3B => fp3 .fdiv f
  | 0x3C => want (Rnd.ofCode f.p) .func3 fun p => wantType f.f5 VType.isF fun t =>
      zer f.b <| .ok (.fsqrt t p f.d f.a)
  | 0x3D => fp3 .fma f
  | 0x3E => decodeFcmp f
  | _ => chk (convOk f.p f.f5) .func3 <| wantTypes f.f5 f.b VType.notX VType.notX fun t u =>
      .ok (.fcvt t (Conv.ofCode f.p) u f.d f.a)

/-! ## Bank 1 (R112-R115) -/

/-- Major 0x27 (R114 Table 8). -/
def decodeMask (f : F32) : Dec :=
  match f.f5.toNat with
  | 0 => wantM f.d fun d => wantM f.a fun a => wantM f.b fun b => .ok (.mlog (LogOp.ofCode f.p) d a b f.c)
  | 1 => zer f.b <| zer f.p <| wantM f.a fun a => .ok (.mpopc f.d a)
  | 2 => zer f.b <| zer f.p <| wantM f.a fun a => .ok (.mfirst f.d a)
  | 3 => zer f.b <| zer f.p <| wantM f.d fun d => wantM f.a fun a => .ok (.msbf d a)
  | _ => .error .func5

/-- Major 0x30 (R48 Table 4). -/
def decodeGrant (f : F32) : Dec :=
  match f.f5.toNat with
  | 0 => zer f.b <| zer f.p <| .ok (.setvl f.d f.a)
  | 1 => chk (!f.p.getLsbD 2) .func3 <| zer f.d <| zer f.a <| zer f.b <| .ok (.vregs (f.p.extractLsb' 0 2))
  | 2 => zer f.p <| chk (f.d != 0 && f.d != 31) .regclass <| .ok (.setvp f.d f.a f.b)
  | 3 => chk (f.p.extractLsb' 1 2 == 0) .func3 <| zer f.b <| .ok (.vloop (f.p.getLsbD 0) f.d f.a)
  | _ => .error .func5

/-- Major 0x33 (R48 Table 4). -/
def decodeSync (f : F32) : Dec :=
  if f.f5.getLsbD 4 then
    want (WaitCond.ofCode f.p) .func3 fun p => want (Scope.ofCode (f.f5.extractLsb' 0 3)) .scope fun sc =>
      .ok (.waitv (f.f5.getLsbD 3) sc p f.d f.a f.b)
  else match f.f5.toNat with
  | 0 => zer f.a <| zer f.b <| zer f.p <| .ok (.ssync f.d)
  | 1 => zer f.d <| zer f.a <| zer f.b <| zer f.p <| .ok .yield
  | _ => .error .func5

/-- Major 0x38 (R114 Table 8). -/
def decodeSetup (f : F32) : Dec :=
  match f.f5.toNat with
  | 0 => zer f.b <| zer f.p <| wantQ f.d fun q => .ok (.qset q f.a)
  | 1 => zer f.a <| zer f.b <| zer f.p <| wantQ f.d fun q => .ok (.qclr q)
  | 2 => wantType f.b VType.any fun t => zer f.d <| zer f.a <| zer f.p <| .ok (.setvt t)
  | 3 => want (Space.ofCode f.b) .select fun x => zer f.d <| zer f.a <| zer f.p <| .ok (.setmt x)
  | 4 => eng2 .splook f
  | 5 => zer f.d <| zer f.p <| .ok (.sptag f.a f.b)
  | _ => .error .func5

/-- Major 0x39 (R114 Table 8). -/
def decodeCopy (f : F32) : Dec :=
  match f.f5.toNat with
  | 0 => eng3 .cpy f
  | 1 => want (Scope.ofCode f.p) .scope fun sc => zer f.d <| zer f.b <| .ok (.publ sc f.a)
  | 2 => eng3 .cwait f
  | _ => .error .func5

/-- Major 0x3A (R114 Table 8). -/
def decodeMesh (f : F32) : Dec :=
  match f.f5.toNat with
  | 0 => zer f.p <| wantQ f.d fun q => .ok (.mnbr q f.a f.b)
  | 1 => eng3 .mlocate f | 2 => eng3 .mrefine f | 3 => eng3 .mcoarsen f | 4 => eng3 .mremap f
  | 5 => eng3 .mcolor f | 6 => eng3 .mcut f | 7 => eng3 .mmigr f | 8 => eng3 .mghost f
  | _ => .error .func5

/-- Major 0x3B (R114 Table 8). -/
def decodeWick (f : F32) : Dec :=
  match f.f5.toNat with
  | 0 => run3 2 .wqpost f
  | 1 => run3 3 .wqrecv f
  | 2 => zer f.p <| .ok (.wkvapp f.d f.a f.b)
  | 3 => run3 6 .wcomb f
  | _ => .error .func5

/-- Major 0x3C (R114 Table 8; FPUT, FGET and CABORT use no third register, R356 and R366). -/
def decodeFabric (f : F32) : Dec :=
  match f.f5.toNat with
  | 0 => eng2 .fput f | 1 => eng2 .fget f | 2 => eng3 .cring f | 3 => eng3 .coll f | 4 => eng2 .cabort f
  | _ => .error .func5

/-- Major 0x3D (R114 Table 8). -/
def decodeLaunch (f : F32) : Dec :=
  match f.f5.toNat with
  | 0 => eng3 .launch f
  | 1 => zer f.d <| zer f.b <| zer f.p <| .ok (.vsave f.a)
  | 2 => zer f.d <| zer f.b <| zer f.p <| .ok (.vrestore f.a)
  | _ => .error .func5

/-- A reduction or a scan (R113 Table 7); `noSeq` marks VSCAN. -/
def decodeRed (noSeq : Bool) (mk : VType → MReg → RedOp → VReg → VReg → Instr) (f : F32) : Dec :=
  wantType f.f5 VType.isIF fun t => want (RedOp.ofCode f.b) .select fun k =>
    chk (k.fits t && !(noSeq && k == .seq)) .select <| .ok (mk t f.p k f.d f.a)

/-- R112 Table 6. -/
def decodeBank1 (f : F32) : Dec :=
  match f.maj.toNat with
  | 0x00 => vec3 VType.isI .vadd f | 0x01 => vec3 VType.isI .vsub f | 0x02 => vec3 VType.isI .vmul f
  | 0x03 => vec3 VType.isI .vmulh f | 0x04 => vec3 VType.isI .vand f | 0x05 => vec3 VType.isI .vor f
  | 0x06 => vec3 VType.isI .vxor f | 0x07 => vec3 VType.isI .vshl f | 0x08 => vec3 VType.isI .vshr f
  | 0x09 => vec3 VType.isI .vshra f | 0x0A => vec3 VType.isI .vmin f | 0x0B => vec3 VType.isI .vmax f
  | 0x0C => vec3 VType.isI .vsadd f | 0x0D => vec3 VType.isI .vssub f
  | 0x0E => vec3 VType.isF .vfadd f | 0x0F => vec3 VType.isF .vfsub f | 0x10 => vec3 VType.isF .vfmul f
  | 0x11 => vec3 VType.isF .vfdiv f | 0x12 => vec2 VType.isF .vfsqrt f | 0x13 => vec2 VType.isF .vfrsq f
  | 0x14 => vec2 VType.isF .vfrcp f | 0x15 => vec3 VType.isF .vfma f | 0x16 => vec3 VType.isF .vfmin f
  | 0x17 => vec3 VType.isF .vfmax f
  | 0x18 => chk (convOk f.p f.f5) .func3 <| wantTypes f.f5 f.b VType.any VType.any fun t u =>
      .ok (.vfcvt t (Conv.ofCode f.p) u f.d f.a f.c)
  | 0x19 => vec2 VType.isF .vfclass f | 0x1A => vec2 VType.isF .vfexp2 f
  | 0x1B => want (VcmpCond.ofCode f.p) .func3 fun p =>
      chk (p != .un || decide (8 ≤ f.f5.toNat)) .func3 <|
        wantType f.f5 VType.isIF fun t => wantM f.d fun d => .ok (.vcmp t p d f.a f.b f.c)
  | 0x1C => vec2 VType.any .vsplat f
  | 0x1D => wantType f.f5 VType.any fun t => zer f.p <| .ok (.vext t f.d f.a f.b)
  | 0x1E => wantType f.f5 VType.any fun t => zer f.p <| .ok (.vins t f.d f.a f.b)
  | 0x1F => vec3 VType.any .vmerge f
  | 0x20 => wantType f.f5 VType.any fun t => .ok (.vperm t f.p f.d f.a f.b)
  | 0x21 => wantType f.f5 VType.any fun t => .ok (.vslideup t f.p f.d f.a f.b)
  | 0x22 => wantType f.f5 VType.any fun t => .ok (.vslidedn t f.p f.d f.a f.b)
  | 0x23 => wantType f.f5 VType.any fun t => zer f.b <| .ok (.vcompress t f.p f.d f.a)
  | 0x24 => wantType f.f5 VType.any fun t => zer f.b <| .ok (.vexpand t f.p f.d f.a)
  | 0x25 => decodeRed false .vred f
  | 0x26 => decodeRed true .vscan f
  | 0x27 => decodeMask f
  | 0x28 => vecOrd 1 .vld f
  | 0x29 => vecOrd 2 .vst f
  | 0x2A => vecX VType.any .vldx f | 0x2B => vecX VType.any .vstx f | 0x2C => vecX VType.isIF .vstxa f
  | 0x2D => vec2 VType.any .vldl f | 0x2E => vec2 VType.any .vstl f
  | 0x2F => wantType f.f5 VType.isIF fun t => zer f.b <| wantQ f.a fun q =>
      chk (f.p != 0) .regclass <| .ok (.vldbpc t f.p f.d q f.c)
  | 0x30 => decodeGrant f
  | 0x31 => .ok (.vnext f.d f.imm18)
  | 0x32 => zer f.d <| zer f.a <| chk (f.imm13.extractLsb' 8 5 == 0) .imm <| .ok (.bar (f.imm13.extractLsb' 0 8))
  | 0x33 => decodeSync f
  | 0x34 => .ok (.vidx (f.f5 ++ f.p) (f.b ++ f.a.extractLsb' 2 3) (f.a.extractLsb' 0 2) f.d f.c)
  | 0x35 => wantType f.f5 VType.isIF fun t => zer f.b <| wantQ f.a fun q => .ok (.vstbpc t f.p f.d q f.c)
  | 0x36 => wantType f.f5 VType.isRank fun t => .ok (.vbin t f.p f.d f.a f.b)
  | 0x37 => match f.f5.toNat with
    | 0 => .ok (.vhash f.p f.d f.a f.b) | 1 => .ok (.vhlook f.p f.d f.a f.b) | 2 => .ok (.vhins f.p f.d f.a f.b)
    | _ => .error .func5
  | 0x38 => decodeSetup f
  | 0x39 => decodeCopy f
  | 0x3A => decodeMesh f
  | 0x3B => decodeWick f
  | 0x3C => decodeFabric f
  | 0x3D => decodeLaunch f
  | 0x3E => .error .pfxop
  | _ => .error .major

/-- A 32-bit instruction by its bank. -/
def decode32 (f : F32) : Dec :=
  if f.bank == 0 then decodeBank0 f else decodeBank1 f

/-! ## Tile operations (R117) -/

/-- The prefix fields that every tile operation leaves reserved, and the register fields it does not use. -/
def zerTile (g : Pfx) (f : F32) (k : Dec) : Dec := zer g.rsv <| zer f.p k

/-- Check 7 of R108: the SPAR values an operation accepts. -/
def wantSpar (c : BitVec 2) (ok : Spar → Bool) (k : Spar → Dec) : Dec :=
  want (Spar.ofCode c) .spar fun s => chk (ok s) .spar (k s)

/-- R117 Table 10. -/
def decodeTile (g : Pfx) (f : F32) : Dec :=
  match f.f5.toNat with
  | 0 => wantType g.ttype VType.isFN fun t => wantSpar g.spar (fun _ => true) fun sp =>
      zerTile g f <| zer g.mask <| zer g.oc <| zer g.ob <| zer g.oa <| zer g.acc <| .ok (.tshape t sp f.d f.a f.b)
  | 1 => wantType g.ttype (· == .n8) fun _ => wantSpar g.spar (· == .dense) fun _ =>
      zerTile g f <| zer g.mask <| zer g.oc <| zer g.ob <| zer g.acc <| zer f.d <| zer f.a <| zer f.b <|
        .ok (.tclaim g.oa)
  | 2 => wantType g.ttype (· == .n8) fun _ => wantSpar g.spar (· == .dense) fun _ =>
      zerTile g f <| zer g.mask <| zer g.oc <| zer g.ob <| zer g.acc <| zer f.d <| zer f.a <| zer f.b <|
        .ok (.trel g.oa)
  | 3 => wantType g.ttype VType.isFN fun t => wantSpar g.spar (fun _ => true) fun sp =>
      zerTile g f <| zer g.mask <| zer g.oc <| zer g.ob <| zer g.acc <| zer f.d <| zer f.b <|
        wantQ f.a fun q => .ok (.tld t sp g.oa q)
  | 4 => wantType g.ttype VType.isFN fun t => wantSpar g.spar (· == .dense) fun _ =>
      zerTile g f <| zer g.mask <| zer g.oc <| zer f.d <| zer f.a <| zer f.b <| .ok (.tmma t g.acc g.oa g.ob g.c)
  | 5 => wantType g.ttype VType.isSparse fun t => wantSpar g.spar (· != .dense) fun sp =>
      zerTile g f <| zer g.mask <| zer f.d <| zer f.a <| zer f.b <| .ok (.tmmas t sp g.acc g.oa g.ob g.oc g.c)
  | 6 => wantTypes g.ttype f.b VType.isAcc VType.notX fun t u => wantSpar g.spar (· == .dense) fun _ =>
      zerTile g f <| zer g.oc <| zer g.ob <| zer g.oa <| zer f.a <| .ok (.text t g.mask g.acc u f.d g.c)
  | 7 => wantTypes g.ttype f.b VType.isAcc VType.notX fun t u => wantSpar g.spar (· == .dense) fun _ =>
      zerTile g f <| zer g.oc <| zer g.ob <| zer g.oa <| zer f.d <| .ok (.tinj t g.mask g.acc u f.a g.c)
  | 8 => wantType g.ttype (· == .n8) fun _ => wantSpar g.spar (· == .dense) fun _ =>
      zerTile g f <| zer g.mask <| zer g.oc <| zer g.ob <| zer g.oa <| zer f.d <| zer f.a <| zer f.b <|
        .ok (.tzero g.acc g.c)
  | _ => .error .func5

/-- A prefixed instruction: PFXOP, PFXC, then its operation (R82, R108). -/
def decode64 (g : Pfx) (f : F32) : Dec :=
  chk (f.bank == 1 && f.maj == 0x3E) .pfxop <| chk (!f.c) .pfxc <| decodeTile g f

/-! ## Compressed instructions (R116 Table 9) -/

/-- R116 Table 9. -/
def decode16 (f : F16) : Dec :=
  match f.cop.toNat with
  | 0x0 => .ok (.cAdd f.a f.b) | 0x1 => .ok (.cSub f.a f.b) | 0x2 => .ok (.cAnd f.a f.b)
  | 0x3 => .ok (.cOr f.a f.b) | 0x4 => .ok (.cXor f.a f.b)
  | 0x5 => .ok (.cAddImm f.a f.b)
  | 0x6 => chk (!f.b.getLsbD 4) .imm <| .ok (.cShl f.a (f.b.extractLsb' 0 4))
  | 0x7 => chk (!f.b.getLsbD 4) .imm <| .ok (.cShr f.a (f.b.extractLsb' 0 4))
  | 0x8 => chk (!f.b.getLsbD 4) .imm <| .ok (.cShra f.a (f.b.extractLsb' 0 4))
  | 0x9 => .ok (.cLd f.a f.b) | 0xA => .ok (.cSt f.a f.b)
  | 0xB => .ok (.cJmp (f.b ++ f.a)) | 0xC => .ok (.cCall (f.b ++ f.a))
  | 0xD => zer f.a <| zer f.b <| .ok .cRet
  | 0xE => zer f.b <| .ok (.cJmpReg f.a)
  | _ => .error .crsv

/-! ## Roles (R84 Table 7) -/

/-- The convoy role of an instruction (R84 Table 7). -/
inductive Role where
  | scalar | ia | im | fm | fx | mem | accPort | matrix | whole | solo
  deriving DecidableEq, Repr

/-- R84 Table 7. -/
def Instr.role : Instr → Role
  | .add .. | .sub .. | .mul .. | .mulh .. | .div .. | .rem .. | .and .. | .or .. | .xor .. | .shl .. | .shr ..
  | .shra .. | .cmp .. | .min .. | .max .. | .clz .. | .ctz .. | .popc .. | .sel ..
  | .addImm .. | .andImm .. | .orImm .. | .xorImm .. | .shlImm .. | .shrImm .. | .shraImm .. | .mulImm ..
  | .cmpS64LtImm .. | .cmpN64LtImm .. | .lih .. | .addpc .. | .mfs .. | .mts .. => .scalar
  | .vadd .. | .vsub .. | .vand .. | .vor .. | .vxor .. | .vshl .. | .vshr .. | .vshra .. | .vmin .. | .vmax ..
  | .vsadd .. | .vssub .. | .mlog .. | .vmerge .. | .vsplat .. | .vidx .. => .ia
  | .vmul .. | .vmulh .. => .im
  | .vfadd .. | .vfsub .. | .vfmul .. | .vfma .. | .vfmin .. | .vfmax .. | .vfcvt .. => .fm
  | .vcmp t _ _ _ _ _ => if t.isI then .ia else .fm
  | .vfdiv .. | .vfsqrt .. | .vfrsq .. | .vfrcp .. | .vfexp2 .. | .vfclass .. => .fx
  | .vld .. | .vst .. | .vldx .. | .vstx .. | .vstxa .. | .vldl .. | .vstl .. | .vldbpc .. | .vstbpc .. => .mem
  | .text .. | .tinj .. => .accPort
  | .tmma .. | .tmmas .. | .tzero .. => .matrix
  | .vperm .. | .vslideup .. | .vslidedn .. | .vcompress .. | .vexpand .. | .vext .. | .vins .. | .vred ..
  | .vscan .. | .mpopc .. | .mfirst .. | .msbf .. => .whole
  | _ => .solo

/-- A member that is neither scalar nor solo nor whole-vector may head a convoy (R85). -/
def Role.heads : Role → Bool
  | .ia | .im | .fm | .fx | .mem | .accPort | .matrix => true
  | .scalar | .whole | .solo => false

/-! ## Whole instructions -/

/-- What the bytes at an address hold: an instruction; a whole-vector or solo instruction whose bit 2 is set, which R85
turns away after the instruction's own checks; an encoding that R108 turns away; or too few bytes. -/
inductive Decoded where
  | instr (i : Instr)
  | joined (i : Instr)
  | ill (e : IllSub)
  | truncated
  deriving DecidableEq, Repr

/-- Bit 2 counts as C for the convoy members only; on any other instruction it is turned away. -/
def joinOf (c : Bool) (d : Dec) : Decoded :=
  match d with
  | .error e => .ill e
  | .ok i =>
    match c, i.role with
    | true, .whole => .joined i
    | true, .solo => .joined i
    | _, _ => .instr i

/-- The instruction at the head of a list of bytes (R73, R106). Check 1 of R108 looks at the first halfword alone. -/
def decode : List Byte → Decoded
  | b0 :: b1 :: rest =>
    if b0 == 0 && b1 == 0 then .ill .zero
    else match b0.toNat % 4, rest with
    | 2, _ => joinOf false (decode16 (F16.unpack (b1 ++ b0)))
    | 3, b2 :: b3 :: b4 :: b5 :: b6 :: b7 :: _ =>
      let g := Pfx.unpack (b3 ++ b2 ++ b1 ++ b0)
      joinOf g.c (decode64 g (F32.unpack (b7 ++ b6 ++ b5 ++ b4)))
    | 3, _ => .truncated
    | _, b2 :: b3 :: _ =>
      let f := F32.unpack (b3 ++ b2 ++ b1 ++ b0)
      joinOf f.c (decode32 f)
    | _, _ => .truncated
  | _ => .truncated

/-! ## The encoder -/

/-- The words of an instruction. An event has none. -/
inductive Enc where
  | half (f : F16)
  | word (f : F32)
  | pair (g : Pfx) (f : F32)
  | none
  deriving DecidableEq, Repr

/-- A word of the register form. -/
def encR (bank : BitVec 2) (maj : BitVec 6) (f5 : BitVec 5) (p : BitVec 3) (b a d : BitVec 5) (c : Bool) : Enc :=
  .word { f5 := f5, p := p, b := b, a := a, d := d, maj := maj, c := c, bank := bank }

/-- A word of the immediate form. -/
def encI (bank : BitVec 2) (maj : BitVec 6) (k : BitVec 13) (a d : BitVec 5) (c : Bool) : Enc :=
  encR bank maj (k.extractLsb' 8 5) (k.extractLsb' 5 3) (k.extractLsb' 0 5) a d c

/-- A word of the long form. -/
def encL (bank : BitVec 2) (maj : BitVec 6) (k : BitVec 18) (d : BitVec 5) (c : Bool) : Enc :=
  encR bank maj (k.extractLsb' 13 5) (k.extractLsb' 10 3) (k.extractLsb' 5 5) (k.extractLsb' 0 5) d c

/-- The signed or unsigned choice of the integer group. -/
def uCode (u : Bool) : BitVec 3 := if u then 1 else 0

/-- A shift immediate as imm13. -/
def shCode (k : BitVec 6) : BitVec 13 := 0#7 ++ k

/-- A mask register in a 5-bit field. -/
def mField (m : MReg) : BitVec 5 := 0#2 ++ m

/-- A stream register in a 5-bit field. -/
def qField (q : QReg) : BitVec 5 := 0#1 ++ q

/-- The ordering field of VLD and VST. -/
def ordField (mine : BitVec 2) (o : Option Scope) : BitVec 5 :=
  match o with
  | none => 0
  | some sc => mine ++ sc.code

/-- A tile instruction's two words. -/
def encT (t : BitVec 5) (sp : BitVec 2) (acc : AReg) (oa ob oc : OReg) (m : MReg) (c : Bool) (f5 : BitVec 5)
    (b a d : BitVec 5) : Enc :=
  .pair { rsv := 0, mask := m, oc := oc, ob := ob, oa := oa, acc := acc, spar := sp, ttype := t, c := c }
    { f5 := f5, p := 0, b := b, a := a, d := d, maj := 0x3E, c := false, bank := 1 }

/-- A compressed halfword. -/
def encC (cop : BitVec 4) (b a : BitVec 5) : Enc := .half { b := b, a := a, cop := cop }

/-- The words of an instruction, from the tables of file 05. -/
def Instr.enc : Instr → Enc
  | .add d a b c => encR 0 0 0 0 b a d c
  | .sub d a b c => encR 0 0 1 0 b a d c
  | .mul d a b c => encR 0 0 2 0 b a d c
  | .mulh u d a b c => encR 0 0 3 (uCode u) b a d c
  | .div u d a b c => encR 0 0 4 (uCode u) b a d c
  | .rem u d a b c => encR 0 0 5 (uCode u) b a d c
  | .and d a b c => encR 0 0 6 0 b a d c
  | .or d a b c => encR 0 0 7 0 b a d c
  | .xor d a b c => encR 0 0 8 0 b a d c
  | .shl d a b c => encR 0 0 9 0 b a d c
  | .shr d a b c => encR 0 0 10 0 b a d c
  | .shra d a b c => encR 0 0 11 0 b a d c
  | .cmp p d a b c => encR 0 0 12 p.code b a d c
  | .min u d a b c => encR 0 0 13 (uCode u) b a d c
  | .max u d a b c => encR 0 0 14 (uCode u) b a d c
  | .clz d a c => encR 0 0 15 0 0 a d c
  | .ctz d a c => encR 0 0 16 0 0 a d c
  | .popc d a c => encR 0 0 17 0 0 a d c
  | .sel d a b c => encR 0 0 18 0 b a d c
  | .addImm d a k c => encI 0 0x01 k a d c
  | .andImm d a k c => encI 0 0x02 k a d c
  | .orImm d a k c => encI 0 0x03 k a d c
  | .xorImm d a k c => encI 0 0x04 k a d c
  | .shlImm d a k c => encI 0 0x05 (shCode k) a d c
  | .shrImm d a k c => encI 0 0x06 (shCode k) a d c
  | .shraImm d a k c => encI 0 0x07 (shCode k) a d c
  | .mulImm d a k c => encI 0 0x08 k a d c
  | .cmpS64LtImm d a k c => encI 0 0x09 k a d c
  | .cmpN64LtImm d a k c => encI 0 0x0A k a d c
  | .lih d k c => encL 0 0x0B k d c
  | .addpc d k c => encL 0 0x0C k d c
  | .mfs d r c => encI 0 0x0D r.code 0 d c
  | .mts r a c => encI 0 0x0E r.code a 0 c
  | .trap n => encI 0 0x0F (0#1 ++ n) 0 0 false
  | .brEqz a k => encL 0 0x10 k a false
  | .brNez a k => encL 0 0x11 k a false
  | .brLtz a k => encL 0 0x12 k a false
  | .brGez a k => encL 0 0x13 k a false
  | .brEq a b k => encI 0 0x14 k b a false
  | .brNe a b k => encI 0 0x15 k b a false
  | .brLt a b k => encI 0 0x16 k b a false
  | .brGe a b k => encI 0 0x17 k b a false
  | .brLtu a b k => encI 0 0x18 k b a false
  | .brGeu a b k => encI 0 0x19 k b a false
  | .jmp k => encL 0 0x1A k 0 false
  | .call k => encL 0 0x1B k 0 false
  | .jmpReg a k => encI 0 0x1C k a 0 false
  | .callReg a k => encI 0 0x1D k a 0 false
  | .ret => encR 0 0x1E 0 0 0 0 0 false
  | .eret => encR 0 0x1F 0 0 0 0 0 false
  | .idle => encR 0 0x1F 1 0 0 0 0 false
  | .brk => encR 0 0x1F 2 0 0 0 0 false
  | .fencei => encR 0 0x1F 3 0 0 0 0 false
  | .rdtime d => encR 0 0x1F 4 0 0 0 d false
  | .snuff => encR 0 0x1F 5 0 0 0 0 false
  | .fence k sc => encR 0 0x1F 6 sc.code k.code 0 0 false
  | .ldN8 d a k => encI 0 0x20 k a d false
  | .ldN16 d a k => encI 0 0x21 k a d false
  | .ldN32 d a k => encI 0 0x22 k a d false
  | .ldN64 d a k => encI 0 0x23 k a d false
  | .ldS8 d a k => encI 0 0x24 k a d false
  | .ldS16 d a k => encI 0 0x25 k a d false
  | .ldS32 d a k => encI 0 0x26 k a d false
  | .stN8 d a k => encI 0 0x27 k a d false
  | .stN16 d a k => encI 0 0x28 k a d false
  | .stN32 d a k => encI 0 0x29 k a d false
  | .stN64 d a k => encI 0 0x2A k a d false
  | .ldSpace t x d a => encR 0 0x2B t.code 0 x.code a d false
  | .stSpace t x d a => encR 0 0x2C t.code 0 x.code a d false
  | .lda t sc x d a => encR 0 0x2D t.code sc.code x.code a d false
  | .strel t sc x d a => encR 0 0x2E t.code sc.code x.code a d false
  | .cas o cm w32 sc d a b =>
    encR 0 0x2F (o.code ++ BitVec.ofBool cm ++ BitVec.ofBool w32 ++ 0#1) sc.code b a d false
  | .amo o cm w32 k sc d a b =>
    encR 0 (0b110#3 ++ o.code ++ BitVec.ofBool w32) (BitVec.ofBool cm ++ k.code) sc.code b a d false
  | .fadd t p d a b => encR 0 0x38 t.code p.code b a d false
  | .fsub t p d a b => encR 0 0x39 t.code p.code b a d false
  | .fmul t p d a b => encR 0 0x3A t.code p.code b a d false
  | .fdiv t p d a b => encR 0 0x3B t.code p.code b a d false
  | .fsqrt t p d a => encR 0 0x3C t.code p.code 0 a d false
  | .fma t p d a b => encR 0 0x3D t.code p.code b a d false
  | .fcmp t p d a b => encR 0 0x3E t.code p.code b a d false
  | .fminmax t mx d a b => encR 0 0x3E t.code (0b10#2 ++ BitVec.ofBool mx) b a d false
  | .fcvt t p u d a => encR 0 0x3F t.code p.code u.code a d false
  | .cAdd a b => encC 0x0 b a
  | .cSub a b => encC 0x1 b a
  | .cAnd a b => encC 0x2 b a
  | .cOr a b => encC 0x3 b a
  | .cXor a b => encC 0x4 b a
  | .cAddImm a k => encC 0x5 k a
  | .cShl a k => encC 0x6 (0#1 ++ k) a
  | .cShr a k => encC 0x7 (0#1 ++ k) a
  | .cShra a k => encC 0x8 (0#1 ++ k) a
  | .cLd a k => encC 0x9 k a
  | .cSt a k => encC 0xA k a
  | .cJmp k => encC 0xB (k.extractLsb' 5 5) (k.extractLsb' 0 5)
  | .cCall k => encC 0xC (k.extractLsb' 5 5) (k.extractLsb' 0 5)
  | .cRet => encC 0xD 0 0
  | .cJmpReg a => encC 0xE 0 a
  | .vadd t m d a b c => encR 1 0x00 t.code m b a d c
  | .vsub t m d a b c => encR 1 0x01 t.code m b a d c
  | .vmul t m d a b c => encR 1 0x02 t.code m b a d c
  | .vmulh t m d a b c => encR 1 0x03 t.code m b a d c
  | .vand t m d a b c => encR 1 0x04 t.code m b a d c
  | .vor t m d a b c => encR 1 0x05 t.code m b a d c
  | .vxor t m d a b c => encR 1 0x06 t.code m b a d c
  | .vshl t m d a b c => encR 1 0x07 t.code m b a d c
  | .vshr t m d a b c => encR 1 0x08 t.code m b a d c
  | .vshra t m d a b c => encR 1 0x09 t.code m b a d c
  | .vmin t m d a b c => encR 1 0x0A t.code m b a d c
  | .vmax t m d a b c => encR 1 0x0B t.code m b a d c
  | .vsadd t m d a b c => encR 1 0x0C t.code m b a d c
  | .vssub t m d a b c => encR 1 0x0D t.code m b a d c
  | .vfadd t m d a b c => encR 1 0x0E t.code m b a d c
  | .vfsub t m d a b c => encR 1 0x0F t.code m b a d c
  | .vfmul t m d a b c => encR 1 0x10 t.code m b a d c
  | .vfdiv t m d a b c => encR 1 0x11 t.code m b a d c
  | .vfsqrt t m d a c => encR 1 0x12 t.code m 0 a d c
  | .vfrsq t m d a c => encR 1 0x13 t.code m 0 a d c
  | .vfrcp t m d a c => encR 1 0x14 t.code m 0 a d c
  | .vfma t m d a b c => encR 1 0x15 t.code m b a d c
  | .vfmin t m d a b c => encR 1 0x16 t.code m b a d c
  | .vfmax t m d a b c => encR 1 0x17 t.code m b a d c
  | .vfcvt t p u d a c => encR 1 0x18 t.code p.code u.code a d c
  | .vfclass t m d a c => encR 1 0x19 t.code m 0 a d c
  | .vfexp2 t m d a c => encR 1 0x1A t.code m 0 a d c
  | .vcmp t p d a b c => encR 1 0x1B t.code p.code b a (mField d) c
  | .vsplat t m d a c => encR 1 0x1C t.code m 0 a d c
  | .vext t d a b => encR 1 0x1D t.code 0 b a d false
  | .vins t d a b => encR 1 0x1E t.code 0 b a d false
  | .vmerge t m d a b c => encR 1 0x1F t.code m b a d c
  | .vperm t m d a b => encR 1 0x20 t.code m b a d false
  | .vslideup t m d a b => encR 1 0x21 t.code m b a d false
  | .vslidedn t m d a b => encR 1 0x22 t.code m b a d false
  | .vcompress t m d a => encR 1 0x23 t.code m 0 a d false
  | .vexpand t m d a => encR 1 0x24 t.code m 0 a d false
  | .vred t m k d a => encR 1 0x25 t.code m k.code a d false
  | .vscan t m k d a => encR 1 0x26 t.code m k.code a d false
  | .mlog p d a b c => encR 1 0x27 0 p.code (mField b) (mField a) (mField d) c
  | .mpopc d a => encR 1 0x27 1 0 0 (mField a) d false
  | .mfirst d a => encR 1 0x27 2 0 0 (mField a) d false
  | .msbf d a => encR 1 0x27 3 0 0 (mField a) (mField d) false
  | .vld t m o d a c => encR 1 0x28 t.code m (ordField 1 o) (qField a) d c
  | .vst t m o d a c => encR 1 0x29 t.code m (ordField 2 o) (qField a) d c
  | .vldx t m d a b c => encR 1 0x2A t.code m b (qField a) d c
  | .vstx t m d a b c => encR 1 0x2B t.code m b (qField a) d c
  | .vstxa t m d a b c => encR 1 0x2C t.code m b (qField a) d c
  | .vldl t m d a c => encR 1 0x2D t.code m 0 a d c
  | .vstl t m d a c => encR 1 0x2E t.code m 0 a d c
  | .vldbpc t k d a c => encR 1 0x2F t.code k 0 (qField a) d c
  | .setvl d a => encR 1 0x30 0 0 0 a d false
  | .vregs n => encR 1 0x30 1 (0#1 ++ n) 0 0 0 false
  | .setvp d a b => encR 1 0x30 2 0 b a d false
  | .vloop spread d a => encR 1 0x30 3 (uCode spread) 0 a d false
  | .vnext d k => encL 1 0x31 k d false
  | .bar g => encI 1 0x32 (0#5 ++ g) 0 0 false
  | .ssync d => encR 1 0x33 0 0 0 0 d false
  | .yield => encR 1 0x33 1 0 0 0 0 false
  | .waitv cm sc p d a b => encR 1 0x33 (1#1 ++ BitVec.ofBool cm ++ sc.code) p.code b a d false
  | .vidx step first w d c =>
    encR 1 0x34 (step.extractLsb' 3 5) (step.extractLsb' 0 3) (first.extractLsb' 3 5) (first.extractLsb' 0 3 ++ w) d c
  | .vstbpc t m d a c => encR 1 0x35 t.code m 0 (qField a) d c
  | .vbin t m d a b => encR 1 0x36 t.code m b a d false
  | .vhash m d a b => encR 1 0x37 0 m b a d false
  | .vhlook m d a b => encR 1 0x37 1 m b a d false
  | .vhins m d a b => encR 1 0x37 2 m b a d false
  | .qset d a => encR 1 0x38 0 0 0 a (qField d) false
  | .qclr d => encR 1 0x38 1 0 0 0 (qField d) false
  | .setvt t => encR 1 0x38 2 0 t.code 0 0 false
  | .setmt x => encR 1 0x38 3 0 x.code 0 0 false
  | .splook d a => encR 1 0x38 4 0 0 a d false
  | .sptag a b => encR 1 0x38 5 0 b a 0 false
  | .cpy d a b => encR 1 0x39 0 0 b a d false
  | .publ sc a => encR 1 0x39 1 sc.code 0 a 0 false
  | .cwait d a b => encR 1 0x39 2 0 b a d false
  | .mnbr d a b => encR 1 0x3A 0 0 b a (qField d) false
  | .mlocate d a b => encR 1 0x3A 1 0 b a d false
  | .mrefine d a b => encR 1 0x3A 2 0 b a d false
  | .mcoarsen d a b => encR 1 0x3A 3 0 b a d false
  | .mremap d a b => encR 1 0x3A 4 0 b a d false
  | .mcolor d a b => encR 1 0x3A 5 0 b a d false
  | .mcut d a b => encR 1 0x3A 6 0 b a d false
  | .mmigr d a b => encR 1 0x3A 7 0 b a d false
  | .mghost d a b => encR 1 0x3A 8 0 b a d false
  | .wqpost d a b => encR 1 0x3B 0 0 b a d false
  | .wqrecv d a b => encR 1 0x3B 1 0 b a d false
  | .wkvapp d a b => encR 1 0x3B 2 0 b a d false
  | .wcomb d a b => encR 1 0x3B 3 0 b a d false
  | .fput d a => encR 1 0x3C 0 0 0 a d false
  | .fget d a => encR 1 0x3C 1 0 0 a d false
  | .cring d a b => encR 1 0x3C 2 0 b a d false
  | .coll d a b => encR 1 0x3C 3 0 b a d false
  | .cabort d a => encR 1 0x3C 4 0 0 a d false
  | .launch d a b => encR 1 0x3D 0 0 b a d false
  | .vsave a => encR 1 0x3D 1 0 0 a 0 false
  | .vrestore a => encR 1 0x3D 2 0 0 a 0 false
  | .tshape t sp d a b => encT t.code sp.code 0 0 0 0 0 false 0 b a d
  | .tclaim oa => encT 0 0 0 oa 0 0 0 false 1 0 0 0
  | .trel oa => encT 0 0 0 oa 0 0 0 false 2 0 0 0
  | .tld t sp oa a => encT t.code sp.code 0 oa 0 0 0 false 3 0 (qField a) 0
  | .tmma t acc oa ob c => encT t.code 0 acc oa ob 0 0 c 4 0 0 0
  | .tmmas t sp acc oa ob oc c => encT t.code sp.code acc oa ob oc 0 c 5 0 0 0
  | .text t m acc u d c => encT t.code 0 acc 0 0 0 m c 6 u.code 0 d
  | .tinj t m acc u a c => encT t.code 0 acc 0 0 0 m c 7 u.code a 0
  | .tzero acc c => encT 0 0 acc 0 0 0 0 c 8 0 0 0
  | _ => .none

/-- The bytes of the words, as they lie in memory (R4, R73). -/
def Enc.bytes : Enc → List Byte
  | .half f => [f.pack.extractLsb' 0 8, f.pack.extractLsb' 8 8]
  | .word f => [f.pack.extractLsb' 0 8, f.pack.extractLsb' 8 8, f.pack.extractLsb' 16 8, f.pack.extractLsb' 24 8]
  | .pair g f =>
    [g.pack.extractLsb' 0 8, g.pack.extractLsb' 8 8, g.pack.extractLsb' 16 8, g.pack.extractLsb' 24 8,
     f.pack.extractLsb' 0 8, f.pack.extractLsb' 8 8, f.pack.extractLsb' 16 8, f.pack.extractLsb' 24 8]
  | .none => []

/-- The encoding as TVAL holds it (R106). -/
def Enc.value : Enc → BitVec 64
  | .half f => f.pack.setWidth 64
  | .word f => f.pack.setWidth 64
  | .pair g f => f.pack ++ g.pack
  | .none => 0

/-- The encoder: the bytes of an instruction, none for a convoy or an event. -/
def encode (i : Instr) : List Byte := i.enc.bytes

/-- The length of an instruction in bytes (R73). -/
def Instr.len (i : Instr) : Nat := (encode i).length

/-- The encoding of an instruction as TVAL holds it (R106). -/
def Instr.value (i : Instr) : BitVec 64 := i.enc.value

/-- The C bit of a convoy member. -/
def Instr.joins (i : Instr) : Bool :=
  match i.enc with
  | .word f => f.c
  | .pair g _ => g.c
  | .half _ => false
  | .none => false

/-- The `n` lowest bytes of a number, the lowest first (R4). -/
def bytesOf : Nat → Nat → List Byte
  | 0, _ => []
  | n + 1, x => BitVec.ofNat 8 x :: bytesOf n (x / 256)

/-- The instruction the decoder reads from an encoding whose bits are `w`; bits above `nbits` are 0. -/
def decodeTableWord (nbits w : Nat) : Option Instr :=
  match decode (bytesOf 8 (w % 2 ^ nbits)) with
  | .instr i => some i
  | .joined _ => none
  | .ill _ => none
  | .truncated => none

end Sys2Proof
end

