-- ==== Sys2Proof/Machine/Reads.lean ====
section
/-! DEFINITION. The scalar, mask, stream and special state that each instruction reads (R311): an uncorrectable error in it raises
MEMERR REGFILE at that instruction. -/

namespace Sys2Proof.Machine

/-- The scalar registers an instruction reads. -/
def scalarReads : Instr → List SReg
  | .add _ a b _ | .sub _ a b _ | .mul _ a b _ | .mulh _ _ a b _ | .div _ _ a b _ | .rem _ _ a b _ | .and _ a b _ | .or _ a b _
  | .xor _ a b _ | .shl _ a b _ | .shr _ a b _ | .shra _ a b _ | .cmp _ _ a b _ | .min _ _ a b _ | .max _ _ a b _
  | .brEq a b _ | .brNe a b _ | .brLt a b _ | .brGe a b _ | .brLtu a b _ | .brGeu a b _
  | .amo _ _ _ _ _ _ a b | .fadd _ _ _ a b | .fsub _ _ _ a b | .fmul _ _ _ a b | .fdiv _ _ _ a b | .fcmp _ _ _ a b
  | .fminmax _ _ _ a b | .cAdd a b | .cSub a b | .cAnd a b | .cOr a b | .cXor a b | .vins _ _ a b | .setvp _ a b
  | .waitv _ _ _ _ a b | .sptag a b | .cpy _ a b | .cwait _ a b | .mlocate _ a b | .mrefine _ a b
  | .mcoarsen _ a b | .mremap _ a b | .mcolor _ a b | .mcut _ a b | .mmigr _ a b | .mghost _ a b | .wqrecv _ a b
  | .cring _ a b | .coll _ a b | .launch _ a b => [a, b]
  | .mnbr _ a b => [a, a + 1, b]
  | .sel d a b _ | .cas _ _ _ _ d a b | .fma _ _ d a b | .tshape _ _ d a b => [d, a, b]
  | .clz _ a _ | .ctz _ a _ | .popc _ a _ | .addImm _ a _ _ | .andImm _ a _ _ | .orImm _ a _ _ | .xorImm _ a _ _
  | .shlImm _ a _ _ | .shrImm _ a _ _ | .shraImm _ a _ _ | .mulImm _ a _ _ | .cmpS64LtImm _ a _ _ | .cmpN64LtImm _ a _ _
  | .mts _ a _ | .brEqz a _ | .brNez a _ | .brLtz a _ | .brGez a _ | .jmpReg a _ | .callReg a _
  | .ldN8 _ a _ | .ldN16 _ a _ | .ldN32 _ a _ | .ldN64 _ a _ | .ldS8 _ a _ | .ldS16 _ a _ | .ldS32 _ a _
  | .ldSpace _ _ _ a | .lda _ _ _ _ a | .fsqrt _ _ _ a | .fcvt _ _ _ _ a | .cAddImm a _ | .cShl a _ | .cShr a _
  | .cShra a _ | .cJmpReg a | .vsplat _ _ _ a _ | .vext _ _ _ a | .vslideup _ _ _ _ a | .vslidedn _ _ _ _ a
  | .setvl _ a | .vloop _ _ a | .vbin _ _ _ _ a | .vhash _ _ _ a | .vhlook _ _ _ a | .vhins _ _ _ a | .qset _ a
  | .splook _ a | .publ _ a | .wqpost _ _ a | .wkvapp _ a _ | .wcomb _ _ a | .fput _ a | .fget _ a | .cabort _ a
  | .vsave a | .vrestore a => [a]
  | .stN8 d a _ | .stN16 d a _ | .stN32 d a _ | .stN64 d a _ | .stSpace _ _ d a | .strel _ _ _ d a => [d, a]
  | .lih d _ _ => [d]
  | .cLd _ _ => [2]
  | .cSt a _ => [a, 2]
  | .ret | .cRet => [1]
  | _ => []

/-- The mask registers an instruction reads; 0 names none (R76). -/
def maskReads : Instr → List MReg
  | .vadd _ m _ _ _ _ | .vsub _ m _ _ _ _ | .vmul _ m _ _ _ _ | .vmulh _ m _ _ _ _ | .vand _ m _ _ _ _ | .vor _ m _ _ _ _
  | .vxor _ m _ _ _ _ | .vshl _ m _ _ _ _ | .vshr _ m _ _ _ _ | .vshra _ m _ _ _ _ | .vmin _ m _ _ _ _ | .vmax _ m _ _ _ _
  | .vsadd _ m _ _ _ _ | .vssub _ m _ _ _ _ | .vfadd _ m _ _ _ _ | .vfsub _ m _ _ _ _ | .vfmul _ m _ _ _ _
  | .vfdiv _ m _ _ _ _ | .vfma _ m _ _ _ _ | .vfmin _ m _ _ _ _ | .vfmax _ m _ _ _ _ | .vmerge _ m _ _ _ _
  | .vfsqrt _ m _ _ _ | .vfrsq _ m _ _ _ | .vfrcp _ m _ _ _ | .vfclass _ m _ _ _ | .vfexp2 _ m _ _ _ | .vsplat _ m _ _ _
  | .vperm _ m _ _ _ | .vslideup _ m _ _ _ | .vslidedn _ m _ _ _ | .vcompress _ m _ _ | .vexpand _ m _ _
  | .vred _ m _ _ _ | .vscan _ m _ _ _ | .mpopc _ m | .mfirst _ m | .msbf _ m | .vld _ m _ _ _ _ | .vst _ m _ _ _ _
  | .vldx _ m _ _ _ _ | .vstx _ m _ _ _ _ | .vstxa _ m _ _ _ _ | .vldl _ m _ _ _ | .vstl _ m _ _ _
  | .vstbpc _ m _ _ _ | .vbin _ m _ _ _ | .vhash m _ _ _ | .vhlook m _ _ _ | .vhins m _ _ _ | .text _ m _ _ _ _
  | .tinj _ m _ _ _ _ => [m]
  | .mlog _ _ a b _ => [a, b]
  | .vsave _ => [1, 2, 3, 4, 5, 6, 7]
  | _ => []

/-- The stream registers an instruction reads. -/
def streamReads : Instr → List QReg
  | .vld _ _ _ _ q _ | .vst _ _ _ _ q _ | .vldx _ _ _ q _ _ | .vstx _ _ _ q _ _ | .vstxa _ _ _ q _ _ | .vldbpc _ _ _ q _
  | .vstbpc _ _ _ q _ | .tld _ _ _ q => [q]
  | .vsave _ => (List.range 16).map (BitVec.ofNat 4)
  | _ => []

/-- The special registers that every element-wise instruction reads. -/
def elementSprs : List Spr := [.vl, .vstart]

/-- The special registers an instruction reads. -/
def specialReads : Instr → List Spr
  | .mfs _ r _ => [r]
  | .vadd .. | .vsub .. | .vmul .. | .vmulh .. | .vand .. | .vor .. | .vxor .. | .vshl .. | .vshr .. | .vshra .. | .vmin ..
  | .vmax .. | .vsadd .. | .vssub .. | .vsplat .. | .vmerge .. | .vidx .. | .mlog .. | .vext .. | .vins .. | .vperm ..
  | .vslideup .. | .vslidedn .. | .vcompress .. | .vexpand .. | .mpopc .. | .mfirst .. | .msbf .. | .vhash .. | .vhlook ..
  | .vhins .. | .vldl .. | .vstl .. | .wqpost .. | .wqrecv .. | .wkvapp .. | .wcomb .. => elementSprs
  | .vfadd .. | .vfsub .. | .vfmul .. | .vfdiv .. | .vfma .. | .vfmin .. | .vfmax .. | .vfsqrt .. | .vfrsq .. | .vfrcp ..
  | .vfclass .. | .vfexp2 .. | .vcmp .. | .vred .. | .vscan .. => .fpc :: elementSprs
  | .vfcvt _ p .. => if p = .sr ∨ p = .srSat then .srseed :: .fpc :: elementSprs else .fpc :: elementSprs
  | .fcvt _ p .. => if p = .sr ∨ p = .srSat then [.fpc, .srseed] else [.fpc]
  | .fadd .. | .fsub .. | .fmul .. | .fdiv .. | .fsqrt .. | .fma .. | .fcmp .. | .fminmax .. => [.fpc]
  | .vld .. | .vst .. | .vldx .. | .vstx .. | .vldbpc .. | .vstbpc .. | .vbin .. => .mt :: elementSprs
  | .vstxa .. => .mt :: .fpc :: elementSprs
  | .tld .. => [.mt, .vstart]
  | .text .. | .tinj .. => .tsm :: .tsn :: .tsk :: elementSprs
  | .tmma .. | .tmmas .. => [.tsm, .tsn, .tsk]
  | .setvl .. | .vloop .. => [.vt, .lcmap, .vdecl]
  | .vnext .. => [.vt, .lcmap, .vdecl, .scnt, .vl]
  | .setvp .. => [.vlcid]
  | .bar _ => [.gmemb, .vlcid]
  | .ssync _ => [.vlcid]
  | .eret => [.tvec, .tpc, .tcause]
  | .vsave _ =>
    [.vl, .mvl, .vt, .mt, .vstart, .fsr, .scnt, .lcmap, .tsm, .tsn, .tsk, .fpc, .srseed, .vlcid, .gmemb, .vdecl, .tcause, .tpc,
     .tval, .tvec]
  | _ => []

/-- The state an instruction reads that R311 protects without marking its words. -/
def stateReads (i : Instr) : List RegMark :=
  (scalarReads i).map .scalar ++ (maskReads i).map .mask ++ (streamReads i).map .stream ++ (specialReads i).map .special

end Sys2Proof.Machine
end

