-- ==== Sys2Proof/Machine/Assoc.lean ====
section
/-! DEFINITION. Sparse collections: lists of (key, value) pairs in ascending key order that list no entry equal to what an
unlisted key reads as, so that equal collections are equal lists. -/

namespace Sys2Proof.Machine

/-- The value at a key; `d` for a key that is not listed. -/
def look {α : Type} (d : α) (k : Nat) : List (Nat × α) → α
  | [] => d
  | (j, x) :: l => if j = k then x else look d k l

/-- The list without a key. -/
def strike {α : Type} (k : Nat) (l : List (Nat × α)) : List (Nat × α) := l.filter fun p => p.1 != k

/-- The list with the key holding `x`; a key that holds `d` is not listed. -/
def put {α : Type} [DecidableEq α] (d : α) (k : Nat) (x : α) : List (Nat × α) → List (Nat × α)
  | [] => if x = d then [] else [(k, x)]
  | (j, y) :: l =>
    if k < j then if x = d then strike k ((j, y) :: l) else (k, x) :: (j, y) :: l
    else if k = j then if x = d then strike k l else (k, x) :: l
    else (j, y) :: put d k x l

/-- Keys strictly rise from above `lo`, and no value is `d`. -/
def risingFrom {α : Type} [DecidableEq α] (d : α) (lo : Nat) : List (Nat × α) → Bool
  | [] => true
  | (k, x) :: l => decide (lo ≤ k) && x != d && risingFrom d (k + 1) l

/-- The canonical form of a sparse collection. -/
def canon {α : Type} [DecidableEq α] (d : α) (l : List (Nat × α)) : Bool := risingFrom d 0 l

/-- Every key from `k`, `n` of them, holding `x`. -/
def putRange {α : Type} [DecidableEq α] (d : α) (k : Nat) (x : α) : Nat → List (Nat × α) → List (Nat × α)
  | 0, l => l
  | n + 1, l => putRange d (k + 1) x n (put d k x l)

/-- The list with the entries whose key satisfies `p` gone. -/
def clearKeys {α : Type} (p : Nat → Bool) (l : List (Nat × α)) : List (Nat × α) := l.filter fun q => !p q.1

end Sys2Proof.Machine
end

