-- ==== Sys2Proof/Config.lean ====
section
/-! DEFINITION. What an implementation fixes and the spec leaves open: the free values (R7, log 5), the secrets of the
Pilot and the functions of its cryptography (R380-R391, log 8). None of them has a body. -/

namespace Sys2Proof

/-- A value the spec calls undefined, of `w` bits: the `n`-th such value a run needs. Nothing is known of it. -/
opaque Config.freeValue (w : Nat) (n : Nat) : BitVec w

/-- The image of a topology binding that VSAVE writes in bytes 136 to 255 of a stream (R317 Table 10), whose layout the
spec does not give: that of the `n`-th binding the package has saved. -/
opaque Config.bindingImage (n : Nat) : BitVec 960

/-- The engine region of a die cannot hold `cells` local cells (R234, R244): the spec gives neither its size nor its layout. -/
opaque Config.engineFull (die cells : Nat) : Bool

/-- The supervisor and the housekeeping firmware as bring-up loads them from the boot image, none for the one the package was made
with, from the first byte of the Pilot's reserved DRAM (R388; log 8). -/
opaque Config.firmware (image : Option (List Byte)) : List Byte

/-- The check bits of a unit's metadata (R280): `w` bits for share `k` of the bytes of a unit, poisoned or not. Their function is
internal to the device (log 64). -/
opaque Config.checkBits (w k : Nat) (bytes : List Byte) (poisoned : Bool) : BitVec w

/-- The `k`-th plane that the fixed hash of R351 gives the packets of endpoint `ep` to line `line`: a packet takes the first that is
up (log 64). -/
opaque Config.plane (ep line k : Nat) : Fin 18

/-- The AES-256-XTS key pair of the `n`-th key the Pilot draws (R383). -/
opaque Config.key (n : Nat) : BitVec 512

/-- The 1952 bytes of the device's public key, the first byte lowest (R380). -/
opaque Config.publicKey : BitVec 15616

/-- The 16 bytes of the fused device number (R384). -/
opaque Config.deviceNumber : BitVec 128

/-- SHAKE256 with 64 bytes of output (R380): the measurement of an image. -/
opaque Config.shake256 (bytes : List Byte) : BitVec 512

/-- The device's ML-DSA-65 signature, 3309 bytes (R384). -/
opaque Config.sign (bytes : List Byte) : BitVec 26472

/-- The ML-DSA-65 verification of an image under the fused hash of Moachega's key (R381). -/
opaque Config.verify (bytes : List Byte) : Bool

/-- The measurement of the image the package was made with (R384). -/
opaque Config.factoryMeasurement : BitVec 512

/-- That image passes verification (R381). -/
opaque Config.factoryVerifies : Bool

/-- The bytes of an image; the spec says that they are at most 64 MiB (R381). -/
opaque Config.imageBytes : Nat

/-- The BAR 4 offset of the first byte of the Pilot's reserved DRAM (R376); the spec does not give it. -/
opaque Config.pilotBase : Nat

/-- The size of the Pilot's reserved DRAM; the spec does not give it. That it is less than one stack is the model's (log 8). -/
opaque Config.pilotSize : Fin (2 ^ 36)

end Sys2Proof
end

