-- ==== Sys2Proof/Machine/State.lean ====
section
/-! DEFINITION. The state of one Griolo package, as plain data, and the state right after reset. Sparse collections are lists
of (key, value) pairs in ascending key order that list no entry equal to what an unlisted key reads as. -/

namespace Sys2Proof.Machine

/-- Why the machine stops with a fault. No instruction of the spec stops the machine: every trap is a next state (R305). -/
inductive Fault where
  /-- Raised by no instruction; the spec gives the machine no way to stop. Safe. -/
  | none
  deriving DecidableEq, Repr

/-- Why an instruction has no meaning. -/
inductive Refusal where
  /-- Raised by the arms of `exec` that have no meaning yet. Safe. -/
  | notModelled (mnemonic : String)
  deriving DecidableEq, Repr

/-! ## Memory -/

/-- A memory: its bytes; its poisoned 32-byte blocks (R281); the memory tags of its 32-byte blocks (R290); and the bits in which
the stored carry check of a 32-byte block differs from the check of its stored bytes (R286). A byte that is not listed reads 0
(log 2); a block that is not listed is not poisoned, has tag 0 and agrees with its check. -/
structure Memory where
  cells : List Host.Cell
  poison : List (Nat × Bool)
  tags : List (Nat × Nat)
  checks : List (Nat × Byte)
  deriving DecidableEq, Repr

/-- A memory with nothing listed. -/
def Memory.empty : Memory := { cells := [], poison := [], tags := [], checks := [] }

/-- Where a byte lies: a physical address, or an offset of a cluster's memory or a core's scratchpad. -/
inductive Place where
  | phys (pa : Nat)
  | cmem (cluster : Nat) (off : Nat)
  | spad (core : Nat) (off : Nat)
  deriving DecidableEq, Repr

/-! ## The VLC -/

/-- The privilege levels (R300). -/
inductive Level where
  | user | supervisor
  deriving DecidableEq, Repr

/-- The trap classes of R299 Table 4. -/
inductive TrapClass where
  | ill | priv | align | page | prot | memerr | fabric | arith | brk | step | watch | preempt | timeout
  | sparsemeta | tile | wick | sys
  deriving DecidableEq, Repr

/-- The kinds of access a fault record names (R305). -/
inductive AccKind where
  | load | store | fetch | rmw
  deriving DecidableEq, Repr

/-- The fault record of a PAGE trap (R305): the address, the element, the kind of access and the hints. -/
structure FaultRec where
  addr : Word
  elem : Nat
  kind : AccKind
  hints : List Word
  deriving DecidableEq, Repr

/-- A trap as the checks of an instruction find it: what R305 step 2 writes, and the fault record of a PAGE trap. -/
structure Trap where
  cls : TrapClass
  sub : Nat
  tval : Word
  tpc : Word
  forced : Bool
  frec : Option FaultRec
  deriving DecidableEq, Repr

/-- Where a VLC saved inside a strip goes back to, as its save area says (R338): its core and lane clusters, its VL, the width code of
its VT, and whether its loop is spread. -/
structure Seat where
  core : Nat
  lc : BitVec 4
  vl : Nat
  w : Nat
  spread : Bool
  deriving DecidableEq, Repr

/-- The states of a VLC (R21, R306, R320, R340, R344). -/
inductive VlcStatus where
  /-- No VLC: the record is empty. -/
  | absent
  /-- Its next instruction can start. -/
  | runnable
  /-- It waits inside the instruction at its pc (R21). -/
  | blocked (i : Instr)
  /-- It waits for its own outstanding stores, and then goes on with the instruction at its pc, of which nothing has taken effect. -/
  | draining (i : Instr)
  /-- What the instruction at its pc waited for has come: it goes on with that instruction, which no boundary precedes (R354). -/
  | again (i : Instr)
  /-- Its trap entry or its resumption waits for data of another endpoint (R354). -/
  | entering (t : Trap)
  /-- A trap with NEST = 1 stopped it (R306). -/
  | stopped
  /-- IDLE released it; it waits off the core for a RESUME that names the address (R320). -/
  | released (save : Nat)
  /-- RESUME made it placeable from the address (R321); a VLC saved inside a strip goes back to its seat (R338). -/
  | placeable (save : Nat) (seat : Option Seat)
  /-- It is placed and held until the start of its gang (R344). -/
  | held
  deriving DecidableEq, Repr

/-! ## Meshes -/

/-- A coarse cell (R223): its kind, its face entries and its vertices. -/
structure CoarseCell where
  kind : Nat
  faces : List Word
  verts : List Nat
  deriving DecidableEq, Repr

/-- A leaf: its tree and its child numbers from level 1 down (R221, R225); for kinds 0 and 4 a child's number is
a + 2b + 4c. -/
structure Leaf where
  tree : Nat
  path : List Nat
  deriving DecidableEq, Repr

/-- An entry of a partition table (R230). -/
structure PartEntry where
  first : Nat
  die : Nat
  ep : Nat
  deriving DecidableEq, Repr

/-- A topology of a mesh: its generation, its leaves in curve order and its partition (R229, R230, R246). -/
structure Topo where
  gen : Nat
  leaves : List Leaf
  parts : List PartEntry
  deriving DecidableEq, Repr

/-- A mesh as the topology engine of a die holds it (R234, R246); generation 0 of its current topology says that a build of
it is not yet published. -/
structure Mesh where
  die : Nat
  ctx : Nat
  id : Nat
  launch : Nat
  dim : Nat
  maxlev : Nat
  tbits : Nat
  coarse : List CoarseCell
  cur : Topo
  /-- The pending topology and the command that prepared it. -/
  pending : Option (Nat × Topo)
  lost : Bool
  deriving DecidableEq, Repr

/-! ## Commands and transfers -/

/-- One write of a shadow (R193): its place, its size of at most 8 bytes and its value, and the key slot of a sealed page. -/
structure Shade where
  place : Place
  n : Nat
  x : Nat
  key : Option Nat
  deriving DecidableEq, Repr

/-- The engine commands (R177, R240). -/
inductive CmdKind where
  | cpy | mlocate | mrefine | mcoarsen | mremap | mcolor | mcut | mmigr | mghost
  deriving DecidableEq, Repr

/-- A command (R193, R241, R402): who issued it, what it captured, its shadow and its status word once it has ended. -/
structure Command where
  die : Nat
  handle : Nat
  kind : CmdKind
  launch : Nat
  rank : Nat
  ctx : Nat
  sup : Bool
  core : Nat
  record : List Byte
  block : List Byte
  /-- The mesh as its die held it at issue (R246). -/
  mesh : Option Mesh
  /-- What parties of other packages have brought to its round (R245). -/
  others : List PartyMsg
  status : Option Word
  /-- The space and address at which the target begins (R194). -/
  target : Nat
  shadow : List Shade
  /-- Tags the command sets at publication, each on the tag unit of a physical address (R290). -/
  tags : List (Nat × Nat)
  /-- Published or discarded: nothing of it is left to publish. -/
  settled : Bool
  /-- CWAIT has returned its status (R405). -/
  claimed : Bool
  deriving DecidableEq, Repr

/-- A transfer (R356). -/
structure Transfer where
  die : Nat
  handle : Nat
  put : Bool
  launch : Nat
  rank : Nat
  ctx : Nat
  sup : Bool
  dst : Word
  src : Word
  bytes : Nat
  status : Option Word
  claimed : Bool
  deriving DecidableEq, Repr

/-! ## Wick -/

/-- A Wick triple (R268): the maximum, the sum, the accumulator and the status word. -/
structure Triple where
  m : BitVec 32
  l : BitVec 32
  acc : List (BitVec 32)
  status : Word
  deriving DecidableEq, Repr

/-- A Wick sub-query (R264, R265): the query, the blocks it holds in one stack as (block number, physical address), the
token pairs its banks have read, and its triple once every bank has scanned. -/
structure SubQuery where
  launch : Nat
  rank : Nat
  slot : Nat
  seq : Nat
  stack : Nat
  /-- The die whose translations it uses. -/
  die : Nat
  ctx : Nat
  d : Nat
  rowt : BitVec 5
  n : Nat
  query : List (BitVec 16)
  blocks : List (Nat × Nat)
  /-- The virtual addresses of its blocks, for R265. -/
  vas : List Word
  got : List (Nat × List Byte × Option Nat)
  last : Bool
  triple : Option Triple
  deriving DecidableEq, Repr

/-! ## The registers of a VLC -/

/-- A vector register: its byte image of 32768 bytes, width tag, high-water mark in bytes and poison marks per 8-byte
word (R54, R56, R58). -/
structure VecReg where
  img : BitVec 262144
  tag : BitVec 2
  hwm : Nat
  poison : BitVec 4096
  deriving DecidableEq, Repr

/-- The kinds of a stream register (R61). -/
inductive StreamKind where
  | unbound | pattern | tile | topology
  deriving DecidableEq, Repr

/-- A topology binding (R238, R239): the die, context and mesh it was made on, the generation it fixed, its view, and the
face records it delivers, whole, as MNBR found them. -/
structure TopoBind where
  die : Nat
  ctx : Nat
  mesh : Nat
  gen : Nat
  view : Nat
  recs : List (Word × Word)
  deriving DecidableEq, Repr

/-- A stream register (R151, R152). -/
structure Stream where
  kind : StreamKind
  base : Word
  ndim : Nat
  cursor : Nat
  strides : Vector Word 6
  bounds : Vector Word 6
  pos : Nat
  aux : Word
  touched : Bool
  unit : Nat
  topo : Option TopoBind
  deriving DecidableEq, Repr

/-- An unbound stream. -/
def Stream.unbound : Stream where
  kind := .unbound
  base := 0
  ndim := 0
  cursor := 0
  strides := Vector.replicate 6 0
  bounds := Vector.replicate 6 0
  pos := 0
  aux := 0
  touched := false
  unit := 1
  topo := none

/-- The loop modes (R20). -/
inductive LoopMode where
  | inactive | plain | spread
  deriving DecidableEq, Repr

/-- FPC (R127): FTZ, the rounding mode, the enables and the flags, each bit as the register lays them out. -/
structure Fpc where
  ftz : Bool
  rm : BitVec 2
  en : BitVec 5
  flags : BitVec 5
  deriving DecidableEq, Repr

/-- TCAUSE (R300 Table 5). -/
structure Tcause where
  recd : Bool
  nest : Bool
  ppl : Bool
  forced : Bool
  sub : BitVec 8
  cls : BitVec 5
  deriving DecidableEq, Repr

/-- The spin detector (R47): the word it counts, the value and the count; whether it demoted the VLC, and whether the
VLC has then been idle for 1020 ccy (R345). -/
structure Spin where
  addr : Option Place
  value : Word
  count : Nat
  demoted : Bool
  due : Bool
  deriving DecidableEq, Repr

/-- A barrier arrival, as BARW holds it (R44, R317). -/
structure Arrival where
  ssync : Bool
  gen : Nat
  group : Nat
  deriving DecidableEq, Repr

/-- A store or atomic sent to another endpoint and not yet acknowledged (R354): its request; the bytes it writes, from `pa`; the
bits it writes of them and their values, where `known` says that the values do not depend on what it finds; whether the
instruction under way made it; and whether it belongs to an earlier strip interval (R182). -/
structure Posted where
  id : Nat
  pa : Nat
  n : Nat
  mask : Nat
  val : Nat
  known : Bool
  fresh : Bool
  old : Bool
  deriving DecidableEq, Repr

/-- An append of WKVAPP while another endpoint advances LEN for it (R271): its token, the address of its pair and of its block, where
the pair goes, and the pair. -/
structure Append where
  token : Nat
  va : Word
  block : Word
  pa : Nat
  pair : List Byte
  deriving DecidableEq, Repr

/-- One VLC (R20). -/
structure Vlc where
  status : VlcStatus
  /-- Where it is: the core 0 to 1023 and the residency slot; for a released VLC the core it left. -/
  core : Nat
  slot : Nat
  /-- Its launch, its rank and its context (R37, R296). -/
  launch : Nat
  rank : BitVec 32
  ctx : Nat
  pc : Word
  level : Level
  sregs : Vector Word 32
  vregs : Vector VecReg 32
  /-- m1 to m7 at their numbers; the entry of number 0 belongs to no register and stays 0. -/
  masks : Vector (BitVec 8192) 8
  streams : Vector Stream 16
  vl : Nat
  mvl : Nat
  vt : VType
  mt : Space
  vstart : Nat
  tilepos : BitVec 32
  peer : BitVec 13
  fsrPoison : Bool
  fsrTrim : Bool
  scnt : Word
  mode : LoopMode
  slc : BitVec 2
  lc : BitVec 4
  /-- Rows held on each lane cluster (R25). -/
  rows : Vector Nat 4
  /-- MVL64 of the last grant (R26): a vector register holds that many 8-byte words (R54). -/
  mvl64 : Nat
  tsmM : BitVec 8
  tsmType : BitVec 5
  tsmSpar : BitVec 2
  tsn : BitVec 7
  tskK : BitVec 10
  acur : Nat
  /-- A TEXT or TINJ executed in this strip (R210). -/
  accTouched : Bool
  fpc : Fpc
  srseed : Word
  gmemb : Word
  declEff : BitVec 2
  declPend : BitVec 2
  /-- The declaration whose registers the VLC's rows hold: the one of its last grant (R417 Table 5). -/
  declHeld : BitVec 2
  tcause : Tcause
  tpc : Word
  tval : Word
  tvec : BitVec 55
  tileOwner : Bool
  /-- The instruction at pc was reached by a transfer of control (R88). -/
  entered : Bool
  /-- The role of the instruction before the one at pc, for R85; none when nothing ran before it. -/
  prevRole : Option Role
  spin : Spin
  yielded : Bool
  /-- A pre-emption request is pending, and it has been pending for 1 ms (R313, R315). -/
  preempt : Bool
  ripe : Bool
  /-- VEND named it (R341). -/
  vend : Bool
  barw : Option Arrival
  /-- The address of the last VSAVE since trap entry, with no VRESTORE since (R320). -/
  savedTo : Option Nat
  /-- Lane clusters the next grant drops or regains (R339), and those lent to a borrower. -/
  dropLc : BitVec 4
  gainLc : BitVec 4
  lent : List (Nat × Nat)
  /-- Outstanding Wick tags by slot, and the sequence number of the last post (R265). -/
  wickTags : Vector Word 16
  wickSeq : Nat
  /-- Answers received for the instruction at pc, by address or element (R354), and the request awaited. -/
  remoteData : List (Nat × RemoteAns)
  awaited : List (Nat × Nat)
  /-- The command, the transfer or the sub-queries captured by an issue that waits for room (R241, R264, R356, R403). -/
  queued : Option Command
  queuedT : Option Transfer
  queuedQ : List SubQuery
  /-- The append whose CAS another endpoint performs (R271). -/
  append : Option Append
  /-- Stores and atomics sent to another endpoint and not yet acknowledged, the oldest first. -/
  stores : List Posted
  /-- The stores to other endpoints of the members ahead of the release of the convoy at pc have been sent (R185). -/
  early : Bool
  /-- The endpoint of a store that timed out (R355). -/
  lateFabric : Option Nat
  /-- The 64-byte line a waiting WAITV watches (R45), by its first byte. -/
  watching : Option Place
  /-- Frozen by a Snuff wave, and the trap entry that waits for release (R368, R370). -/
  frozen : Bool
  /-- A wave has reached it inside an instruction: it freezes at its stopping point (R370). -/
  freezing : Bool
  /-- The element at which a forced pre-emption or a wave stops the convoy or TLD that runs next (R87, R206). -/
  cut : Option Nat
  /-- Scalar, mask, stream and special state that holds an uncorrectable error (R311). -/
  bad : List RegMark
  pending : Option Trap
  /-- A debugger STEP lets it run one convoy (R373). -/
  stepOnce : Bool
  deriving DecidableEq, Repr

/-- A cleared vector register whose image is 0. -/
def VecReg.clear : VecReg := { img := 0, tag := 3, hwm := 0, poison := 0 }

/-- The empty VLC record: every register at the value R63 gives a VLC's start, or 0 where the spec gives none (log 1). -/
def Vlc.absent : Vlc where
  status := .absent
  core := 0
  slot := 0
  launch := 0
  rank := 0
  ctx := 0
  pc := 0
  level := .user
  sregs := Vector.replicate 32 0
  vregs := Vector.replicate 32 VecReg.clear
  masks := Vector.replicate 8 0
  streams := Vector.replicate 16 Stream.unbound
  vl := 0
  mvl := 0
  vt := .f64
  mt := .glob
  vstart := 0
  tilepos := 0
  peer := 0
  fsrPoison := false
  fsrTrim := false
  scnt := 0
  mode := .inactive
  slc := 0
  lc := 0
  rows := Vector.replicate 4 0
  mvl64 := 0
  tsmM := 0
  tsmType := 0
  tsmSpar := 0
  tsn := 0
  tskK := 0
  acur := 0
  accTouched := false
  fpc := { ftz := false, rm := 0, en := 0, flags := 0 }
  srseed := 1
  gmemb := 0
  declEff := 0
  declPend := 0
  declHeld := 0
  tcause := { recd := false, nest := false, ppl := false, forced := false, sub := 0, cls := 0 }
  tpc := 0
  tval := 0
  tvec := 0
  tileOwner := false
  entered := false
  prevRole := none
  spin := { addr := none, value := 0, count := 0, demoted := false, due := false }
  yielded := false
  preempt := false
  ripe := false
  vend := false
  barw := none
  savedTo := none
  dropLc := 0
  gainLc := 0
  lent := []
  wickTags := Vector.replicate 16 0
  wickSeq := 0
  remoteData := []
  awaited := []
  queued := none
  queuedT := none
  queuedQ := []
  append := none
  stores := []
  early := false
  lateFabric := none
  watching := none
  frozen := false
  freezing := false
  cut := none
  bad := []
  pending := none
  stepOnce := false

/-! ## The core, the cluster and the die -/

/-- The states of an operand slot (R204). -/
inductive SlotState where
  | free | claimed
  | part (mark : Nat)
  | values | metadata
  deriving DecidableEq, Repr

/-- An operand slot: its state, what it records, its 16 KiB of contents and their poison (R204, R205, R311). -/
structure OSlot where
  st : SlotState
  type : BitVec 5
  spar : BitVec 2
  rows : Nat
  cols : Nat
  data : BitVec 131072
  poison : BitVec 2048
  deriving DecidableEq, Repr

/-- A free slot. -/
def OSlot.free : OSlot where
  st := .free
  type := 0
  spar := 0
  rows := 0
  cols := 0
  data := 0
  poison := 0

/-- An accumulator tile: 64 lane slices of 512 bytes, the slice of lane n from byte 512 n (R208), and poison per word. -/
structure Acc where
  data : BitVec 262144
  poison : BitVec 4096
  deriving DecidableEq, Repr

/-- An entry of the scratchpad tag table (R167 Table 4). -/
structure TagEntry where
  tag : BitVec 48
  age : BitVec 2
  d : Bool
  v : Bool
  user : BitVec 8
  deriving DecidableEq, Repr

/-- An invalid entry. -/
def TagEntry.invalid : TagEntry := { tag := 0, age := 0, d := false, v := false, user := 0 }

/-- A cached translation (R296): the context, log2 of the page size, the page's number, its leaf and where the leaf
lies, and the context's key slot as the walk read it. -/
structure TlbEntry where
  ctx : Nat
  size : Nat
  vpn : Nat
  pte : BitVec 64
  addr : Nat
  key : Option Nat
  deriving DecidableEq, Repr

/-- LREMAPn (R63 Table 10). -/
structure LaneMap where
  twop : Bool
  fail2 : BitVec 5
  skip : BitVec 5
  deriving DecidableEq, Repr

/-- One watch pair of the debug unit (R374). -/
structure Watch where
  addr : Word
  en : Bool
  kind : BitVec 3
  slots : BitVec 4
  size : BitVec 6
  deriving DecidableEq, Repr

/-- What a core holds beside its VLCs. -/
structure Core where
  spad : Memory
  /-- Byte o of lane table t at 4096 t + o (R150). -/
  lanes : Memory
  tagTable : List (Nat × TagEntry)
  slots : Vector OSlot 16
  accs : Vector Acc 4
  lcen : BitVec 4
  fused : BitVec 4
  lremap : Vector LaneMap 4
  tlb : List TlbEntry
  watch : Vector Watch 4
  stepctl : BitVec 4
  lastSlot : Nat
  deriving DecidableEq, Repr

/-- A core at reset (R63 Table 10, R374 Table 9; log 1 and log 8 for what they leave to the Pilot). -/
def Core.reset : Core where
  spad := Memory.empty
  lanes := Memory.empty
  tagTable := []
  slots := Vector.replicate 16 OSlot.free
  accs := Vector.replicate 4 { data := 0, poison := 0 }
  lcen := 15
  fused := 0
  lremap := Vector.replicate 4 { twop := false, fail2 := 0, skip := 16 }
  tlb := []
  watch := Vector.replicate 4 { addr := 0, en := false, kind := 0, slots := 0, size := 0 }
  stepctl := 0
  lastSlot := 3

/-- What a cluster holds. -/
structure Cluster where
  cmem : Memory
  lastCtx : Option Nat
  deriving DecidableEq, Repr

/-- A cluster at reset (R335). -/
def Cluster.reset : Cluster := { cmem := Memory.empty, lastCtx := none }

/-- ISLCTL of one island (R386 Table 6). -/
structure Island where
  busy : Bool
  cur : Nat
  lim : Nat
  req : Nat
  deriving DecidableEq, Repr

/-- An island at reset. -/
def Island.reset : Island := { busy := false, cur := 21, lim := 21, req := 21 }

/-- A notice as Table 9 of R389 lays it out, before its number is known. -/
structure Notice where
  kind : Nat
  core : Nat
  slot : Nat
  rank : Nat
  tcause : Word
  tpc : Word
  tval : Word
  loc : Word
  time : Word
  deriving DecidableEq, Repr

/-- What a die holds. -/
structure Die where
  tlb : List TlbEntry
  drfmtBusy : Bool
  drfmtErr : Bool
  drfmtGr : BitVec 2
  drfmtWick : Bool
  drfmtStack : Bool
  drfmtRegion : BitVec 15
  ctxbase : Word
  tlbinvBusy : Bool
  tlbinvKind : BitVec 3
  tlbinvVa : BitVec 41
  tlbinvCtx : BitVec 12
  resumeErr : Bool
  islands : Vector Island 2
  notbase : Word
  nottail : Word
  notices : Nat
  held : List Notice
  lost : Nat
  counters : List (Nat × Nat)
  deriving DecidableEq, Repr

/-- A die at reset (R282 Table 5, R297 Table 3, R321 Table 11, R386 Table 6, R389 Table 10). -/
def Die.reset : Die where
  tlb := []
  drfmtBusy := false
  drfmtErr := false
  drfmtGr := 1
  drfmtWick := false
  drfmtStack := false
  drfmtRegion := 0
  ctxbase := 0
  tlbinvBusy := false
  tlbinvKind := 0
  tlbinvVa := 0
  tlbinvCtx := 0
  resumeErr := false
  islands := Vector.replicate 2 Island.reset
  notbase := 0
  nottail := 0
  notices := 0
  held := []
  lost := 0
  counters := []

/-- A region's entry in the region table: its format, its granule and its slot (R277, R282, R288). -/
structure Region where
  wick : Bool
  gr : BitVec 2
  /-- The slot, as its distance from the region's own number modulo 32768, so that 0 is its own slot. -/
  moved : Nat
  deriving DecidableEq, Repr

/-- A region at reset: spread, G64, its own slot (R282). -/
def Region.reset : Region := { wick := false, gr := 1, moved := 0 }

/-- A region swap under way: the stack, the two regions and the pieces moved (R287). -/
structure Swap where
  stack : Nat
  r0 : Nat
  r1 : Nat
  pieces : Nat
  deriving DecidableEq, Repr

/-- Refresh state of a bank: refreshes postponed, and a refresh under way (R285, R273). -/
structure Refresh where
  postponed : Nat
  busy : Bool
  deriving DecidableEq, Repr

/-! ## Launches -/

/-- A queue (R323-R325): its configuration, its counters, its records that have not started, the oldest first, each with the context of
the VLC that enqueued it by LAUNCH (R336), and the launch its oldest record became once checked. -/
structure Queue where
  en : Bool
  maxprio : BitVec 3
  ctx : BitVec 12
  qtrap : BitVec 55
  drop : Nat
  fails : Nat
  lasterr : Nat
  recs : List (List Byte × Option Nat)
  head : Option Nat
  deficit : Nat
  deriving DecidableEq, Repr

/-- A queue at reset (R325 Table 2, Table 3). -/
def Queue.reset : Queue where
  en := false
  maxprio := 0
  ctx := 0
  qtrap := 0
  drop := 0
  fails := 0
  lasterr := 0
  recs := []
  head := none
  deficit := 0

/-- How far a launch has come (R327-R330, R344). -/
inductive Phase where
  | waiting | ready | held | running | done
  deriving DecidableEq, Repr

/-- A report of another package of a gang (R344). -/
structure GangReport where
  ep : Nat
  gang : Nat
  npkg : Nat
  start : Word
  rank0 : Nat
  nvlc : Nat
  total : Nat
  deriving DecidableEq, Repr

/-- A generation of a group barrier: its number and the ranks that arrived (R41). -/
structure BarGen where
  group : Nat
  gen : Nat
  arrived : List Nat
  deriving DecidableEq, Repr

/-- A launch (R326-R330), as its record and its kernel header gave it. -/
structure Launch where
  key : Nat
  queue : Nat
  prio : Nat
  ctx : Nat
  entry : Word
  args : Word
  regs : BitVec 2
  tile : Bool
  nvlc : Nat
  lcw : Nat
  minlc : Nat
  lendable : Bool
  borrow : Bool
  waits : List (Word × Word)
  sig : Option Word
  gang : Nat
  npkg : Nat
  start : Word
  rank0 : Nat
  total : Nat
  qtrap : BitVec 55
  /-- The ranks of each group, as ranges (R337, R100). -/
  groups : List (Nat × List (Nat × Nat))
  phase : Phase
  ended : List Nat
  /-- The failure code, once a failure is known (R328). -/
  failed : Option Nat
  bars : List BarGen
  superstep : Nat
  /-- The SSYNCs of which the gang's other packages have been told. -/
  told : Nat
  /-- Ranks that arrived at the SSYNC under way (R43). -/
  ssync : List Nat
  /-- Other packages of a gang that arrived at the SSYNC under way, and that completed. -/
  peersArrived : List Nat
  peersDone : List Nat
  /-- They have been told that the launch has ended here. -/
  toldDone : Bool
  deriving DecidableEq, Repr

/-! ## The fabric -/

/-- How a round ended at this member (R365): completed, or failed with its flags (2 a cancel, 1 a mismatch) and the endpoint
named. -/
inductive RoundEnd where
  | complete
  | failed (flags peer : Nat)
  deriving DecidableEq, Repr

/-- A collective round at this member (R362, R363), until its COLL has returned. -/
structure Round where
  launch : Nat
  rank : Nat
  seq : Nat
  op : Nat
  red : Nat
  type : BitVec 5
  count : Nat
  root : Nat
  src : List Byte
  /-- The shadow's places, one for each element of the result (R193), each with the key slot of a sealed page. -/
  targets : List (Place × Option Nat)
  done : Option RoundEnd
  deriving DecidableEq, Repr

/-- A live ring (R360, R361, R365): once broken, the flags and the endpoint recorded. -/
structure Ring where
  slot : Nat
  id : Nat
  launch : Nat
  pos : Nat
  eps : List Nat
  broken : Bool
  flags : Nat
  peer : Nat
  round : Option Round
  deriving DecidableEq, Repr

/-- A CRING that has arrived (R361): its record and members, whether its VLC's latest CRING is this one, and what the VLC
receives once the formation has ended. `old` is the id of the ring that it releases. -/
structure RingWait where
  id : Nat
  launch : Nat
  rank : Nat
  waiting : Bool
  record : List Byte
  eps : List Nat
  old : Option Nat
  outcome : Option Word
  deriving DecidableEq, Repr

/-- A cause record (R371). -/
structure Cause where
  time : Word
  ep : Nat
  die : Nat
  cls : Nat
  rank : Nat
  pc : Word
  detail : Word
  deriving DecidableEq, Repr

/-- What the package sends to the fabric (R349). -/
inductive Packet where
  | request (id : Nat) (ep : Nat) (pa : Nat) (op : RemoteOp)
  | response (ep : Nat) (id : Nat) (ans : RemoteAns)
  | ringIssue (id : Nat) (record : List Byte)
  | roundData (ringId pos : Nat) (params : List Nat) (src : List Byte)
  | heartbeat (ringId : Nat) (ep : Nat)
  | abort (ringId : Nat) (seq : Nat) (flags : Nat) (peer : Nat)
  | gangReport (r : GangReport)
  | ssyncArrived (gang : Nat) (step : Nat)
  | launchDone (gang : Nat) (failed : Bool)
  | wave (job : Nat) (c : Cause)
  | resume (job : Nat) (tick : Word)
  | cause (job : Nat) (c : Cause)
  | meshParty (kind : CmdKind) (mesh : Nat) (seq : Nat) (msg : PartyMsg)
  deriving DecidableEq, Repr

/-- The states of a job (R372 Table 8). -/
inductive JobState where
  | running | freezing | frozen | stepping
  deriving DecidableEq, Repr

/-- A job that a Snuff wave has reached (R367-R373); its key is its JOBID, or 65536 plus the context of a job of its own. -/
structure Job where
  key : Nat
  st : JobState
  origin : Word
  release : Word
  causes : List Cause
  /-- Engine steps that stopped with the job and continue at its release (R370). -/
  held : List Instr
  /-- The endpoint and the request that asked for the STEP under way (R372). -/
  asker : Option (Nat × Nat)
  deriving DecidableEq, Repr

/-- DBGCTX and DBGCB of a context (R367 Table 6). -/
structure DbgCtx where
  halt : BitVec 17
  job : BitVec 16
  cb : BitVec 38
  deriving DecidableEq, Repr

/-- A firewall range (R390). -/
structure FwRange where
  r : Bool
  w : Bool
  base : Nat
  limit : Nat
  deriving DecidableEq, Repr

/-- The Pilot's state and the registers of R378, R383, R385 and R387. -/
structure Pilot where
  /-- Bring-up step of R388 Table 8, PBOOT.STATE and PBOOT.RREQ. -/
  step : Nat
  boot : Nat
  rreq : Bool
  pmcmd : Nat
  pmarg : Word
  pmbusy : Bool
  pmerr : Bool
  ranges : Vector FwRange 16
  /-- Loaded key slots and the number of the key in each (R383). -/
  keys : List (Nat × Nat)
  nextKey : Nat
  flashValid : Bool
  /-- The image of the flash slot; none for the one the package was made with (log 8). -/
  image : Option (List Byte)
  /-- The image that an UPDATE is writing. -/
  staged : Option (List Byte)
  pwr : BitVec 16
  /-- The power samples of the last 100 µs, the newest first (R387). -/
  samples : List (BitVec 16)
  limit : BitVec 16
  /-- The core rail drew more than 7500 A and the Pilot's lower limits have not yet taken effect (R387). -/
  overcurrent : Bool
  /-- Limits were lowered since that current was met. -/
  lowered : Bool
  deriving DecidableEq, Repr

/-- The Pilot as reset is released (R385 Table 5, R387 Table 7, R388; log 1 and log 8). -/
def Pilot.reset : Pilot where
  step := 1
  boot := 0
  rreq := false
  pmcmd := 0
  pmarg := 0
  pmbusy := false
  pmerr := false
  ranges := Vector.replicate 16 { r := false, w := false, base := 0, limit := 0 }
  keys := []
  nextKey := 0
  flashValid := true
  image := none
  staged := none
  pwr := 0
  samples := []
  limit := 3600
  overcurrent := false
  lowered := false

/-- The Snuff command registers (R372 Table 8). -/
structure SnRegs where
  arg : Word
  addr : Word
  job : BitVec 16
  err : Bool
  late : Bool
  deriving DecidableEq, Repr

/-- An answer to the host: the bytes of a read, each with whether its completion is marked poisoned (R376), or the
completion of a configuration request (R388). -/
inductive HostReply where
  | data (bytes : List (Byte × Bool))
  | config (retry : Bool)
  deriving DecidableEq, Repr

/-! ## The package -/

/-- The state of one package. -/
structure State where
  /-- The VLC that issues. -/
  v : Vlc
  /-- Every other VLC of the package. -/
  parked : List Vlc
  /-- Inputs and due engine steps, the oldest first: the model's own (log 4). -/
  events : List Instr
  /-- Free values used so far: the model's own (log 5). -/
  freeCtr : Nat
  /-- This package's endpoint number (R346). -/
  endpoint : Nat
  /-- DRAM, by bits 42:0 of the physical address (R292). -/
  mem : Memory
  /-- Region table: region r of stack s at 32768 s + r; its first copy, its second copy and the persistent one (R288). -/
  regions : List (Nat × Region)
  regions2 : List (Nat × Region)
  regionsKept : List (Nat × Region)
  swap : Option Swap
  /-- Accesses counted in the window per stack and pseudo-channel, at 64 s + p (R287). -/
  accesses : List (Nat × Nat)
  refresh : List (Nat × Refresh)
  cores : List (Nat × Core)
  clusters : List (Nat × Cluster)
  dies : List (Nat × Die)
  /-- The core whose VLC issued last: the model's own (log 3). -/
  lastCore : Nat
  queues : List (Nat × Queue)
  launches : List Launch
  nextLaunch : Nat
  /-- The last queue visited at each level, and the launch each level reserves (R331, R332). -/
  visited : Vector Nat 8
  reserved : Vector (Option Nat) 8
  gangReports : List GangReport
  commands : List Command
  transfers : List Transfer
  nextHandle : Nat
  meshes : List Mesh
  /-- The bindings of which VSAVE has written an image (R317 Table 10): the device's memory of its images, the model's own. -/
  bindings : List TopoBind
  subqueries : List SubQuery
  rings : List Ring
  ringWaits : List RingWait
  /-- Planes that are up, and endpoints that answer (R346, R351; log 7). -/
  planes : BitVec 18
  /-- Requests sent on a plane that has failed and not yet answered, each with its line; and the requests for those lines that wait
  for them (R351). -/
  heldLines : List (Nat × Nat)
  withheld : List Packet
  peers : List Nat
  nextReq : Nat
  outbox : List Packet
  /-- Engine steps that wait for the answer of another endpoint: the request, the party, the key of its answer, the step. -/
  engineWaits : List (Nat × Nat × Nat × Instr)
  /-- Answers received for engine steps: the party, the key and the answer. -/
  engineData : List (Nat × Nat × RemoteAns)
  /-- Accesses of VLCs that have ended, not yet acknowledged: the request, the launch, the die, and the notice a time-out posts
  (R355). -/
  orphans : List (Nat × Nat × Nat × Notice)
  beacon : Word
  dbg : List (Nat × DbgCtx)
  sn : SnRegs
  jobs : List Job
  pilot : Pilot
  replies : List HostReply
  deriving DecidableEq, Repr

/-- The package right after reset is released: no VLC, every register at the value its table gives (R63, R388; log 1). -/
def State.reset : State where
  v := Vlc.absent
  parked := []
  events := []
  freeCtr := 0
  endpoint := 0
  mem := Memory.empty
  regions := []
  regions2 := []
  regionsKept := []
  swap := none
  accesses := []
  refresh := []
  cores := []
  clusters := []
  dies := []
  lastCore := 1023
  queues := []
  launches := []
  nextLaunch := 0
  visited := Vector.replicate 8 65535
  reserved := Vector.replicate 8 none
  gangReports := []
  commands := []
  transfers := []
  nextHandle := 1
  meshes := []
  bindings := []
  subqueries := []
  rings := []
  ringWaits := []
  planes := BitVec.allOnes 18
  heldLines := []
  withheld := []
  peers := []
  nextReq := 1
  outbox := []
  engineWaits := []
  engineData := []
  orphans := []
  beacon := 0
  dbg := []
  sn := { arg := 0, addr := 0, job := 0, err := false, late := false }
  jobs := []
  pilot := Pilot.reset
  replies := []

end Sys2Proof.Machine
end

