-- ==== Sys2Proof/Machine/Access.lean ====
section
/-! DEFINITION. Reading and writing the parts of the state by name: the scalar registers of the issuing VLC, the records of
cores, clusters, dies, regions and queues, and the raw bytes of a memory. -/

namespace Sys2Proof.Machine

/-- What a step answers. -/
abbrev Out := Host.Outcome State Fault Refusal

/-! ## The issuing VLC -/

/-- A trap entry or a resumption waits for data of another endpoint. -/
def VlcStatus.isEntering : VlcStatus → Bool
  | .entering _ => true
  | _ => false

/-- The issuing VLC changed. -/
def State.setV (s : State) (f : Vlc → Vlc) : State := { s with v := f s.v }

/-- A scalar register; s0 reads 0 (R55). -/
def Vlc.s (v : Vlc) (r : SReg) : Word := if r = 0 then 0 else v.sregs[r.toNat]

/-- A scalar register written; a write to s0 is discarded (R55). A write replaces an uncorrectable value (R311). -/
def Vlc.setS (v : Vlc) (r : SReg) (x : Word) : Vlc :=
  if r = 0 then v else { v with sregs := v.sregs.set r.toNat x, bad := v.bad.filter (· != .scalar r) }

/-- The VLC whose state named in `l` is written whole: it holds an uncorrectable error no more (R311). -/
def Vlc.mended (v : Vlc) (l : List RegMark) : Vlc := { v with bad := v.bad.filter fun m => !l.contains m }

/-- A scalar register of the issuing VLC. -/
def State.rd (s : State) (r : SReg) : Word := s.v.s r

/-- A scalar register of the issuing VLC written. -/
def State.wr (s : State) (r : SReg) (x : Word) : State := s.setV (·.setS r x)

/-- The compute die of a core. -/
def dieOf (core : Nat) : Nat := core / 128

/-- The cluster of a core. -/
def clusterOf (core : Nat) : Nat := core / 16

/-- The effective declaration in registers (R23). -/
def Vlc.decl (v : Vlc) : Nat := 8 * (v.declEff.toNat + 1)

/-- The level is supervisor. -/
def Vlc.sup (v : Vlc) : Bool := v.level == .supervisor

/-- A stream register. -/
def Vlc.stream (v : Vlc) (q : QReg) : Stream := v.streams[q.toNat]

/-- A stream register written. -/
def Vlc.setStream (v : Vlc) (q : QReg) (x : Stream) : Vlc :=
  { v with streams := v.streams.set q.toNat x, bad := v.bad.filter (· != .stream q) }

/-- A vector register. -/
def Vlc.vreg (v : Vlc) (r : VReg) : VecReg := v.vregs[r.toNat]

/-- A vector register written. A write to one that the VLC's rows do not hold is discarded (R417 Table 5). -/
def Vlc.setVreg (v : Vlc) (r : VReg) (x : VecReg) : Vlc :=
  if 8 * (v.declHeld.toNat + 1) ≤ r.toNat then v else { v with vregs := v.vregs.set r.toNat x }

/-- A mask register's bits; m0 is no register and every bit of it reads 1 (R76). -/
def Vlc.mask (v : Vlc) (m : MReg) : BitVec 8192 := if m = 0 then BitVec.allOnes 8192 else v.masks[m.toNat]

/-- A mask register written. -/
def Vlc.setMask (v : Vlc) (m : MReg) (x : BitVec 8192) : Vlc :=
  if m = 0 then v else { v with masks := v.masks.set m.toNat x, bad := v.bad.filter (· != .mask m) }

/-! ## Records -/

/-- A core. -/
def State.core (s : State) (c : Nat) : Core := look Core.reset c s.cores

/-- A core changed. -/
def State.setCore (s : State) (c : Nat) (f : Core → Core) : State :=
  { s with cores := put Core.reset c (f (s.core c)) s.cores }

/-- A cluster. -/
def State.cluster (s : State) (c : Nat) : Cluster := look Cluster.reset c s.clusters

/-- A cluster changed. -/
def State.setCluster (s : State) (c : Nat) (f : Cluster → Cluster) : State :=
  { s with clusters := put Cluster.reset c (f (s.cluster c)) s.clusters }

/-- A die. -/
def State.die (s : State) (d : Nat) : Die := look Die.reset d s.dies

/-- A die changed. -/
def State.setDie (s : State) (d : Nat) (f : Die → Die) : State :=
  { s with dies := put Die.reset d (f (s.die d)) s.dies }

/-- A queue. -/
def State.queue (s : State) (q : Nat) : Queue := look Queue.reset q s.queues

/-- A queue changed. -/
def State.setQueue (s : State) (q : Nat) (f : Queue → Queue) : State :=
  { s with queues := put Queue.reset q (f (s.queue q)) s.queues }

/-- DBGCTX and DBGCB of a context at reset (R367 Table 6). -/
def DbgCtx.reset : DbgCtx := { halt := 0, job := 0, cb := 0 }

/-- DBGCTX and DBGCB of a context. -/
def State.dbgOf (s : State) (c : Nat) : DbgCtx := look DbgCtx.reset c s.dbg

/-- DBGCTX and DBGCB of a context changed. -/
def State.setDbg (s : State) (c : Nat) (f : DbgCtx → DbgCtx) : State :=
  { s with dbg := put DbgCtx.reset c (f (s.dbgOf c)) s.dbg }

/-- A launch by its key. -/
def State.launch (s : State) (k : Nat) : Option Launch := s.launches.find? (·.key == k)

/-- A launch changed. -/
def State.setLaunch (s : State) (k : Nat) (f : Launch → Launch) : State :=
  { s with launches := s.launches.map fun l => if l.key == k then f l else l }

/-- An input or a due engine step appended. -/
def State.due (s : State) (e : Instr) : State := { s with events := s.events ++ [e] }

/-- A packet sent. -/
def State.send (s : State) (p : Packet) : State := { s with outbox := s.outbox ++ [p] }

/-! ## Free values (R7, log 5) -/

/-- The next free value of `w` bits. -/
def State.free (s : State) (w : Nat) : BitVec w := Config.freeValue w s.freeCtr

/-- The state after a free value is used. -/
def State.spend (s : State) : State := { s with freeCtr := s.freeCtr + 1 }

/-! ## Raw memories -/

/-- A byte of a memory. -/
def Memory.byte (m : Memory) (a : Nat) : Byte := look 0 a m.cells

/-- A byte of a memory written. -/
def Memory.setByte (m : Memory) (a : Nat) (x : Byte) : Memory := { m with cells := put 0 a x m.cells }

/-- `n` bytes read as a little-endian number (R4). -/
def Memory.read (m : Memory) (a : Nat) : Nat → Nat
  | 0 => 0
  | n + 1 => (m.byte a).toNat + 256 * m.read (a + 1) n

/-- `n` bytes written from a little-endian number (R4). -/
def Memory.write (m : Memory) (a : Nat) : Nat → Nat → Memory
  | 0, _ => m
  | n + 1, x => (m.setByte a (BitVec.ofNat 8 x)).write (a + 1) n (x / 256)

/-- The canonical form of a memory. -/
def Memory.wf (m : Memory) : Bool := canon 0 m.cells && canon false m.poison && canon 0 m.tags && canon 0 m.checks

/-- The `n` bytes from an address, as a list. -/
def Memory.bytes (m : Memory) (a : Nat) : Nat → List Byte
  | 0 => []
  | n + 1 => m.byte a :: m.bytes (a + 1) n

/-- A list of bytes written from an address. -/
def Memory.setBytes (m : Memory) (a : Nat) : List Byte → Memory
  | [] => m
  | x :: l => (m.setByte a x).setBytes (a + 1) l

/-! ## DRAM by physical address (R277, R292) -/

/-- The endpoint field of a physical address. -/
def epOf (pa : Nat) : Nat := pa / 2 ^ 43 % 8192

/-- The place of a physical address among the package's DRAM bytes: bits 42:0. -/
def dramKey (pa : Nat) : Nat := pa % 2 ^ 43

/-- Bits 39:37 of a physical address, which say what the offset names (R292). -/
def windowOf (pa : Nat) : Nat := pa / 2 ^ 37 % 8

/-- The stack of a DRAM address (R277). -/
def stackOf (pa : Nat) : Nat := 2 * (pa / 2 ^ 40 % 8) + pa / 2 ^ 36 % 2

/-- The region of a DRAM address within its stack (R277). -/
def regionNo (pa : Nat) : Nat := pa / 2 ^ 21 % 32768

/-- The key of a region of a stack in the region table. -/
def regionKey (stack r : Nat) : Nat := 32768 * stack + r

/-- The region table's entry for a DRAM address. -/
def State.region (s : State) (pa : Nat) : Region := look Region.reset (regionKey (stackOf pa) (regionNo pa)) s.regions

/-- The bytes of a unit of a granule (R280). -/
def unitBytes (gr : BitVec 2) : Nat := if gr = 0 then 32 else if gr = 1 then 64 else 256

/-- The slot of a region: its number, moved by the swaps (R279, R288). -/
def slotOf (r : Nat) (g : Region) : Nat := (r + g.moved) % 32768

/-- The pseudo-channel of a DRAM address (R278, R279). -/
def State.pseudoChannel (s : State) (pa : Nat) : Nat :=
  let g := s.region pa
  let o := pa % 2 ^ 21
  let k := slotOf (regionNo pa) g % 64
  if g.wick then regionNo pa % 64
  else if g.gr = 0 then (o / 32 % 64) ^^^ k
  else if g.gr = 1 then (o / 64 % 64) ^^^ k
  else 4 * ((o / 256 % 16) ^^^ (k % 16)) + o % 256 / 64

/-- The pseudo-channels that an access to a unit uses: one, or four under G256 (R280). -/
def State.channels (s : State) (pa : Nat) : List Nat :=
  let p := s.pseudoChannel pa
  if (s.region pa).gr = 2 ∧ !(s.region pa).wick then (List.range 4).map (p / 4 * 4 + ·) else [p]

/-- An access counted for the remapping window, on every pseudo-channel it uses (R287). -/
def State.count (s : State) (pa : Nat) : State :=
  { s with accesses := (s.channels pa).foldl (fun a p =>
      let k := 64 * stackOf pa + p
      put 0 k (look 0 k a + 1) a) s.accesses }

/-! ## The carry check (R286) -/

/-- `n` bits shifted through the generator x^8 + x^2 + x + 1. -/
def crcShift (c : Nat) : Nat → Nat
  | 0 => c
  | n + 1 => crcShift (if c / 128 = 1 then (2 * c) % 256 ^^^ 7 else 2 * c) n

/-- The carry check of bytes in ascending address: initial value 0, each byte most significant bit first, no final inversion. -/
def carryCheck (l : List Byte) : Byte := BitVec.ofNat 8 (l.foldl (fun c b => crcShift (c ^^^ b.toNat) 8) 0)

/-- The carry check stored with the 32 bytes that hold a DRAM byte. -/
def State.carryAt (s : State) (pa : Nat) : Byte :=
  carryCheck (s.mem.bytes (dramKey pa / 32 * 32) 32) ^^^ look 0 (dramKey pa / 32) s.mem.checks

/-- The 32 bytes that hold a DRAM byte fail their carry check: the stored check is not the one of the stored bytes. -/
def State.mismatch (s : State) (pa : Nat) : Bool := look 0 (dramKey pa / 32) s.mem.checks != 0

/-- A read of a DRAM byte gets poison: its unit is poisoned, or the carry check of its 32 bytes fails (R281, R286). -/
def State.poisoned (s : State) (pa : Nat) : Bool := look false (dramKey pa / 32) s.mem.poison || s.mismatch pa

/-- Some 32 bytes of the unit that holds a DRAM byte fail their carry check. -/
def State.unitMismatch (s : State) (pa : Nat) : Bool :=
  let u := unitBytes (s.region pa).gr
  s.mem.checks != [] && (List.range (u / 32)).any fun k => s.mismatch (pa / u * u + 32 * k)

/-- The memory tag of a DRAM byte (R290). -/
def State.tagAt (s : State) (pa : Nat) : Nat := look 0 (dramKey pa / 32) s.mem.tags

/-- `n` bytes of DRAM as stored. -/
def State.dram (s : State) (pa n : Nat) : Nat := s.mem.read (dramKey pa) n

/-- Every block of the unit of `u` bytes at a byte of DRAM marked poisoned or not, its checks made again. -/
def Memory.markUnit (m : Memory) (key u : Nat) (b : Bool) : Memory :=
  let first := key / u * u / 32
  { m with
    poison := putRange false first b (u / 32) m.poison
    checks := clearKeys (fun k => decide (first ≤ k) && decide (k < first + u / 32)) m.checks }

/-- The unit at a DRAM address marked poisoned or not. -/
def State.setPoison (s : State) (pa : Nat) (b : Bool) : State :=
  { s with mem := s.mem.markUnit (dramKey pa) (unitBytes (s.region pa).gr) b }

/-- DRAM once the controller has read the unit of a byte into which it merges new bytes: a failed carry check poisons the unit
(R281, R286). -/
def State.merged (s : State) (pa : Nat) : Memory :=
  if s.unitMismatch pa then s.mem.markUnit (dramKey pa) (unitBytes (s.region pa).gr) true else s.mem

/-- `n` bytes of DRAM stored as given, merged into their unit (R281). -/
def State.setDram (s : State) (pa n x : Nat) : State := { s with mem := (s.merged pa).write (dramKey pa) n x }

/-- The poison of every unit that lies wholly in the `n` bytes from `pa` cleared (R281); `k` bounds the units. -/
def State.wholeUnits (s : State) (pa n : Nat) : Nat → State
  | 0 => s
  | k + 1 =>
    let u := unitBytes (s.region pa).gr
    let base := pa / u * u
    if n = 0 then s
    else
      let step := base + u - pa
      let s := if pa = base ∧ u ≤ n then s.setPoison pa false else s
      s.wholeUnits (pa + step) (n - step) k

/-- The merges into every unit that `n` bytes from `pa` touch; `k` bounds the units. -/
def State.mergeUnits (s : State) (pa n : Nat) : Nat → State
  | 0 => s
  | k + 1 =>
    let u := unitBytes (s.region pa).gr
    let step := pa / u * u + u - pa
    if n = 0 then s
    else
      let s1 := s.count pa
      { s1 with mem := s1.merged pa }.mergeUnits (pa + step) (n - step) k

/-- The bytes of a list stored from a physical address of DRAM. -/
def State.setDramBytes (s : State) (pa : Nat) (l : List Byte) : State :=
  let s := s.mergeUnits pa l.length (l.length / 32 + 2)
  let s := { s with mem := s.mem.setBytes (dramKey pa) l }
  s.wholeUnits pa l.length (l.length / 32 + 2)

end Sys2Proof.Machine
end

