-- ==== Sys2Proof/Machine/Regs.lean ====
section
/-! DEFINITION. The registers of the I/O die's window and of the housekeeping blocks (R292, R378): which register an offset
names, what a read returns, and the write that a store of either size makes. -/

namespace Sys2Proof.Machine

/-- The registers of R378 Tables 2 and 3. -/
inductive Reg where
  | mgmtid | pboot | pmcmd | pmarg | pmstat | pcap
  | qcfg (q : Nat) | qtrap (q : Nat)
  | dbgctx (c : Nat) | dbgcb (c : Nat)
  | sncmd | snarg | snaddr | snstat
  | drfmt (d : Nat) | ctxbase (d : Nat) | tlbinv (d : Nat) | resume (d : Nat) | vend (d : Nat)
  | islctl (d k : Nat) | notbase (d : Nat) | nottail (d : Nat) | notstat (d : Nat)
  /-- The corrected (0) or uncorrectable (1) count of a pseudo-channel. -/
  | counter (d p k : Nat)
  | wpaddr (core n : Nat) | wpcfg (core n : Nat) | stepctl (core : Nat)
  deriving DecidableEq, Repr

/-- The register of an offset of the I/O die's window (R378 Table 2). -/
def ioReg (o : Nat) : Option Reg :=
  if o = 0x000000 then some .mgmtid
  else if o = 0x000008 then some .pboot
  else if o = 0x000100 then some .pmcmd
  else if o = 0x000108 then some .pmarg
  else if o = 0x000110 then some .pmstat
  else if o = 0x001000 then some .pcap
  else if 0x400000 ≤ o ∧ o < 0x500000 then
    if o % 16 = 0 then some (.qcfg ((o - 0x400000) / 16))
    else if o % 16 = 8 then some (.qtrap ((o - 0x400000) / 16))
    else none
  else if 0x500000 ≤ o ∧ o < 0x508000 then if o % 8 = 0 then some (.dbgctx ((o - 0x500000) / 8)) else none
  else if 0x508000 ≤ o ∧ o < 0x510000 then if o % 8 = 0 then some (.dbgcb ((o - 0x508000) / 8)) else none
  else if o = 0x510000 then some .sncmd
  else if o = 0x510008 then some .snarg
  else if o = 0x510010 then some .snaddr
  else if o = 0x510018 then some .snstat
  else none

/-- The register of an offset of a housekeeping block (R378 Table 3). -/
def hkReg (d o : Nat) : Option Reg :=
  if o = 0x0000 then some (.drfmt d)
  else if o = 0x0008 then some (.ctxbase d)
  else if o = 0x0010 then some (.tlbinv d)
  else if o = 0x0018 then some (.resume d)
  else if o = 0x0020 then some (.vend d)
  else if o = 0x0028 then some (.islctl d 0)
  else if o = 0x0030 then some (.islctl d 1)
  else if o = 0x0038 then some (.notbase d)
  else if o = 0x0040 then some (.nottail d)
  else if o = 0x0048 then some (.notstat d)
  else if 0x1000 ≤ o ∧ o < 0x1800 then
    if o % 8 = 0 then some (.counter d ((o - 0x1000) / 16) (o / 8 % 2)) else none
  else if 0x2000 ≤ o ∧ o < 0xA000 then
    let c := 128 * d + (o - 0x2000) / 0x100
    let r := o % 0x100
    if r % 8 ≠ 0 then none
    else if r < 0x20 then some (.wpaddr c (r / 8))
    else if r < 0x40 then some (.wpcfg c (r / 8 - 4))
    else if r = 0x40 then some (.stepctl c)
    else none
  else none

/-- The 8-byte register that holds a physical address of a register window (R292). -/
def regAt (pa : Nat) : Option Reg :=
  let o := pa % 2 ^ 37 / 8 * 8
  if windowOf pa = 6 then ioReg o
  else if windowOf pa = 7 then hkReg (pa / 2 ^ 40 % 8) o
  else none

/-- The bits of a word from bit `lo` up: a field laid out. -/
def fieldAt (x lo : Nat) : Word := BitVec.ofNat 64 (x * 2 ^ lo)

/-- A flag laid out. -/
def flagAt (b : Bool) (lo : Nat) : Word := if b then fieldAt 1 lo else 0

/-- The state code of a job (R372 Table 8). -/
def JobState.code : JobState → Nat
  | .running => 0 | .freezing => 1 | .frozen => 2 | .stepping => 3

/-- The job whose key is `k`, if a wave has reached it. -/
def State.job (s : State) (k : Nat) : Option Job := s.jobs.find? (·.key == k)

/-- MGMTID (R378 Table 4). -/
def mgmtid : Word := 0x8100B00100000000

/-- WPCFGn (R374 Table 9). -/
def Watch.word (w : Watch) : Word :=
  flagAt w.en 63 ||| fieldAt w.kind.toNat 60 ||| fieldAt w.slots.toNat 56 ||| fieldAt w.size.toNat 0

/-- A count that saturates at `top`. -/
def sat (top x : Nat) : Nat := if x ≤ top then x else top

/-- What a read of a register returns. -/
def regRead (s : State) : Reg → Word
  | .mgmtid => mgmtid
  | .pboot => fieldAt s.pilot.boot 0
  | .pmcmd => 0
  | .pmarg => s.pilot.pmarg
  | .pmstat => flagAt s.pilot.pmbusy 63 ||| flagAt s.pilot.pmerr 62 ||| fieldAt s.pilot.pmcmd 0
  | .pcap => fieldAt s.pilot.pwr.toNat 32 ||| fieldAt s.pilot.limit.toNat 0
  | .qcfg q =>
    let x := s.queue q
    flagAt x.en 63 ||| fieldAt x.maxprio.toNat 56 ||| fieldAt x.ctx.toNat 0
  | .qtrap q => fieldAt (s.queue q).qtrap.toNat 9
  | .dbgctx c => fieldAt (s.dbgOf c).halt.toNat 33 ||| fieldAt (s.dbgOf c).job.toNat 0
  | .dbgcb c => fieldAt (s.dbgOf c).cb.toNat 18
  | .sncmd => 0
  | .snarg => s.sn.arg
  | .snaddr => s.sn.addr
  | .snstat =>
    let st := match s.job s.sn.job.toNat with
      | some j => fieldAt j.st.code 62 ||| fieldAt (sat 0xFFFF j.causes.length) 16
      | none => 0
    st ||| flagAt s.sn.err 61 ||| flagAt s.sn.late 60 ||| fieldAt s.sn.job.toNat 0
  | .drfmt d =>
    let x := s.die d
    flagAt x.drfmtBusy 63 ||| flagAt x.drfmtErr 62 ||| fieldAt x.drfmtGr.toNat 22 ||| flagAt x.drfmtWick 21
      ||| flagAt x.drfmtStack 15 ||| fieldAt x.drfmtRegion.toNat 0
  | .ctxbase d => (s.die d).ctxbase
  | .tlbinv d =>
    let x := s.die d
    flagAt x.tlbinvBusy 63 ||| fieldAt x.tlbinvKind.toNat 60 ||| fieldAt x.tlbinvVa.toNat 16
      ||| fieldAt x.tlbinvCtx.toNat 0
  | .resume d => flagAt (s.die d).resumeErr 0
  | .vend _ => 0
  | .islctl d k =>
    let x := (s.die d).islands[k % 2]
    flagAt x.busy 63 ||| fieldAt x.cur 48 ||| fieldAt x.lim 40 ||| fieldAt x.req 0
  | .notbase d => (s.die d).notbase
  | .nottail d => (s.die d).nottail
  | .notstat d => fieldAt (s.die d).lost 32 ||| fieldAt (s.die d).held.length 0
  | .counter d p k => BitVec.ofNat 64 (look 0 (2 * p + k) (s.die d).counters)
  | .wpaddr c n => (s.core c).watch[n % 4].addr
  | .wpcfg c n => (s.core c).watch[n % 4].word
  | .stepctl c => fieldAt (s.core c).stepctl.toNat 0

/-- The bits of a register's RW fields, which a 4-byte store to the other half carries at their current values (R292). -/
def rwBits : Reg → Word
  | .mgmtid | .pboot | .pmcmd | .pmstat | .sncmd | .snstat | .resume _ | .vend _ | .notstat _ | .counter _ _ _ => 0
  | .pmarg | .snarg | .snaddr | .ctxbase _ | .notbase _ | .nottail _ | .wpaddr _ _ => BitVec.allOnes 64
  | .pcap => 0xFFFF
  | .qcfg _ => 0x8700000000000FFF
  | .qtrap _ => 0xFFFFFFFFFFFFFE00
  | .dbgctx _ => 0x0003FFFE0000FFFF
  | .dbgcb _ => 0x00FFFFFFFFFC0000
  | .drfmt _ => 0x0000000000E0FFFF
  | .tlbinv _ => 0x71FFFFFFFFFF0FFF
  | .islctl _ _ => 0xFF
  | .wpcfg _ _ => 0xFF0000000000003F
  | .stepctl _ => 0xF

/-- The step that a store of `n` bytes (4 or 8) at a register's address brings about. -/
def regStore (pa n x : Nat) : Instr := .registerWrite pa { n := n, x := BitVec.ofNat 64 x }

/-- The 8-byte write that a register takes for a store of `n` bytes at its address: one of 4 bytes carries the other half's RW
fields as they stand when it is performed (R292). -/
def regWord (s : State) (r : Reg) (pa n : Nat) (x : Word) : Word :=
  if n = 8 then x
  else
    let keep := (regRead s r &&& rwBits r).toNat
    BitVec.ofNat 64 (if pa % 8 = 0 then keep / 2 ^ 32 * 2 ^ 32 + x.toNat % 2 ^ 32 else x.toNat % 2 ^ 32 * 2 ^ 32 + keep % 2 ^ 32)

/-- What a load of `n` bytes (4 or 8) at a register's address returns (R292). -/
def regLoad (s : State) (r : Reg) (pa n : Nat) : Nat :=
  if n = 8 then (regRead s r).toNat
  else if pa % 8 = 0 then (regRead s r).toNat % 2 ^ 32 else (regRead s r).toNat / 2 ^ 32

end Sys2Proof.Machine
end

