-- ==== Sys2Proof/Machine/Ops.lean ====
section
/-! DEFINITION. The named operations over memory and registers: translation and the checks of an access (R291-R296, R302), loads,
stores and read-modify-writes of space 0 and of the other spaces, notices, taking a trap (R305) and returning from one
(R307), and the completion of an instruction. -/

namespace Sys2Proof.Machine

/-! ## What stops an instruction -/

/-- Why an instruction does not complete: a trap of a class with its detail, TVAL and, for PAGE, its fault record; data of another
endpoint that it needs and does not hold yet (R354); its VLC's own outstanding stores, which it waits for (R181, R183); or the
element boundary at which a forced pre-emption or a wave stops it (R87, R206). -/
inductive Stop where
  | trap (cls : TrapClass) (sub : Nat) (tval : Word) (frec : Option FaultRec)
  | remote (key ep pa : Nat) (op : RemoteOp)
  | drain
  | cut
  deriving DecidableEq, Repr

/-- A trap without a fault record. -/
def Stop.plain (cls : TrapClass) (sub : Nat) (tval : Word) : Stop := .trap cls sub tval none

/-- PROT with its detail (R301 Table 6). -/
def Stop.prot (sub : Nat) (tval : Word) : Stop := .plain .prot sub tval

/-- FABRIC naming an endpoint (R299 Table 4). -/
def Stop.fabric (ep : Nat) : Stop := .plain .fabric 0 (BitVec.ofNat 64 (ep % 8192))

/-! ## Who accesses -/

/-- The party of an access: its context and level, the die whose TLB and context table it uses, the core whose first-level TLB,
watch pairs and tag checks apply to it, and whose answers it takes: 0 for the issuing VLC, another number for each engine step. -/
structure Party where
  ctx : Nat
  sup : Bool
  die : Nat
  core : Option Nat
  slot : Nat
  watch : Bool
  owner : Nat
  deriving DecidableEq, Repr

/-- The issuing VLC as a party. -/
def State.party (s : State) : Party where
  ctx := s.v.ctx
  sup := s.v.sup
  die := dieOf s.v.core
  core := some s.v.core
  slot := s.v.slot
  watch := true
  owner := 0

/-- An access to space 0: its address as the program gives it, its size, its kind, the element it belongs to, whether a
register window serves it (R292), and whether it is a use-once access (R176). -/
structure Req where
  va : Word
  n : Nat
  kind : AccKind
  elem : Nat
  reg : Bool
  once : Bool
  deriving DecidableEq, Repr

/-- A scalar access of a register window's kind (R292). -/
def Req.scalar (va : Word) (n : Nat) (kind : AccKind) : Req :=
  { va := va, n := n, kind := kind, elem := 0, reg := true, once := false }

/-- An access that no register window serves. -/
def Req.mem (va : Word) (n : Nat) (kind : AccKind) (elem : Nat) : Req :=
  { va := va, n := n, kind := kind, elem := elem, reg := false, once := false }

/-! ## Addresses (R291) -/

/-- The tag key of an address, 0 when it carries none (R290, R291). -/
def tagKey (va : Word) : Nat := if bitsOf va.toNat 63 60 = 0 then bitsOf va.toNat 59 56 else 0

/-- The address that translation uses: a tag key cleared. -/
def untag (va : Word) : Word := if tagKey va = 0 then va else va &&& 0x00FFFFFFFFFFFFFF

/-- Bits 63:57 equal bit 56. -/
def canonical (va : Word) : Bool := decide (va.toNat / 2 ^ 56 = 0) || decide (va.toNat / 2 ^ 56 = 255)

/-- PAGE with its fault record (R305). -/
def pageStop (q : Req) (sub : Nat) (a : Word) : Stop :=
  .trap .page sub a (some { addr := a, elem := q.elem, kind := q.kind, hints := [] })

/-! ## Data of another endpoint (R354, R355) -/

/-- The key under which the answer to a load is kept. -/
def loadKey (pa n : Nat) : Nat := 2 * (16 * pa + n)

/-- The key under which the answer to an atomic is kept: the member of the convoy and the element. -/
def atomicKey (member elem : Nat) : Nat := 2 * (16384 * member + elem) + 1

/-- The key under which the answer to the checks of a store is kept. -/
def probeKey (pa n : Nat) : Nat := 2 * (2 ^ 72 + 16 * pa + n)

/-- The key under which the answer to an update of a leaf is kept. -/
def leafKey (pa set clear : Nat) : Nat := 2 * (2 ^ 80 + 65536 * pa + 256 * set + clear)

/-- An answer that has arrived for a party. -/
def State.answer (s : State) (p : Party) (key : Nat) : Option RemoteAns :=
  if p.owner = 0 then (s.v.remoteData.find? fun x => x.1 == key).map (·.2)
  else (s.engineData.find? fun x => x.1 == p.owner && x.2.1 == key).map (·.2.2)

/-- An endpoint answers (R355). -/
def State.answers (s : State) (ep : Nat) : Bool := s.peers.contains ep

/-- The data a request to another endpoint brings, once it has come; `a` is the address that traps name. -/
def State.remoteGet (s : State) (p : Party) (key pa : Nat) (op : RemoteOp) (memerr : Nat) (a : Word) :
    Except Stop Nat :=
  if !s.answers (epOf pa) then .error (.fabric (epOf pa))
  else match s.answer p key with
  | none => .error (.remote key (epOf pa) pa op)
  | some (.data x) => .ok x
  | some .poisoned => .error (.plain .memerr memerr a)
  | some (.prot sub) => .error (.prot sub a)
  | some (.silent ep) => .error (.fabric ep)

/-! ## Page tables (R293, R294, R296) -/

/-- Eight bytes of a page or context table. -/
def State.readTable (s : State) (p : Party) (pa : Nat) (a : Word) : Except Stop Nat :=
  if windowOf pa ≠ 0 then .error (.prot 6 a)
  else if epOf pa ≠ s.endpoint then s.remoteGet p (loadKey pa 8) pa (.read 8) 4 a
  else if s.poisoned pa then .error (.plain .memerr 4 a)
  else .ok (s.dram pa 8)

/-- The bit of a leaf entry (R294 Table 2). -/
def pteBit (e i : Nat) : Bool := e / 2 ^ i % 2 == 1

/-- The bits a leaf of log2 size `size` leaves 0 in FRAME. -/
def frameLow (e size : Nat) : Nat := e % 2 ^ size / 2 ^ 16

/-- A leaf entry is one that R294 allows at its size. -/
def leafOk (e size : Nat) : Bool :=
  bitsOf e 63 56 == 0 && !pteBit e 15 && frameLow e size == 0 && (pteBit e 1 || !pteBit e 2) && bitsOf e 9 8 != 3
    && bitsOf e 14 13 != 3

/-- A pointer entry at level `l` is one that R294 allows. -/
def pointerOk (e l : Nat) : Bool :=
  bitsOf e 63 56 == 0 && bitsOf e 7 1 == 0 && (l == 1 || bitsOf e 11 8 == 0)

/-- log2 of the size a leaf of level `l` maps, and the lowest address bit that level indexes. -/
def levelShift (l : Nat) : Nat := if l = 0 then 16 else 12 + 9 * l

/-- The walk from a table of level `l - 1` down (R293): the leaf, where it lies, log2 of its page's size, and the entries read. -/
def State.walk (s : State) (p : Party) (q : Req) (a : Word) : Nat → Nat → Except Stop (Nat × Nat × Nat × List Nat)
  | 0, _ => .error (pageStop q 2 a)
  | l + 1, table =>
    let size := levelShift l
    let at8 := table + 8 * (a.toNat / 2 ^ size % (if l = 0 then 32 else 512))
    match s.readTable p at8 a with
    | .error e => .error e
    | .ok e =>
      if !pteBit e 0 then .error (pageStop q 1 a)
      else if bitsOf e 3 1 = 0 then
        if l = 0 ∨ !pointerOk e l then .error (pageStop q 2 a)
        else (s.walk p q a l (bitsOf e 55 8 * 256)).map fun r => (r.1, r.2.1, r.2.2.1, at8 :: r.2.2.2)
      else if 3 ≤ l ∨ !leafOk e size then .error (pageStop q 2 a)
      else .ok (e, at8, size, [at8])

/-- A cached translation of a list. -/
def tlbFind (ctx : Nat) (a : Word) (l : List TlbEntry) : Option TlbEntry :=
  l.find? fun e => e.ctx == ctx && e.vpn == a.toNat / 2 ^ e.size

/-- The first-level TLB of a party. -/
def State.tlb1 (s : State) (p : Party) : List TlbEntry :=
  match p.core with
  | some c => (s.core c).tlb
  | none => []

/-- The translation of an address, cached or walked from the context's root, and the table entries read for it. -/
def State.translate (s : State) (p : Party) (q : Req) (a : Word) : Except Stop (TlbEntry × List Nat) :=
  match tlbFind p.ctx a (s.tlb1 p) with
  | some e => .ok (e, [])
  | none =>
    match tlbFind p.ctx a (s.die p.die).tlb with
    | some e => .ok (e, [])
    | none =>
      let base := (s.die p.die).ctxbase.toNat + 16 * p.ctx
      match s.readTable p base a with
      | .error e => .error e
      | .ok root =>
        match s.readTable p (base + 8) a with
        | .error e => .error e
        | .ok key =>
          match s.walk p q a 5 root with
          | .error e => .error e
          | .ok (pte, at8, size, read) =>
            .ok ({ ctx := p.ctx, size := size, vpn := a.toNat / 2 ^ size, pte := BitVec.ofNat 64 pte, addr := at8,
                   key := if pteBit key 8 then some (key % 256) else none }, base :: read)

/-! ## The fields of a translation (R294 Table 2) -/

/-- A bit of the leaf. -/
def TlbEntry.bit (e : TlbEntry) (i : Nat) : Bool := pteBit e.pte.toNat i

/-- The physical address an address maps to. -/
def TlbEntry.phys (e : TlbEntry) (a : Word) : Nat :=
  bitsOf e.pte.toNat 55 16 * 2 ^ 16 / 2 ^ e.size * 2 ^ e.size + a.toNat % 2 ^ e.size

/-- GR. -/
def TlbEntry.gr (e : TlbEntry) : Nat := bitsOf e.pte.toNat 9 8

/-- CP. -/
def TlbEntry.cp (e : TlbEntry) : Nat := bitsOf e.pte.toNat 14 13

/-- The rights R295 asks for. -/
def TlbEntry.permits (e : TlbEntry) (p : Party) (k : AccKind) : Bool :=
  (p.sup || e.bit 4) && match k with
  | .load => e.bit 1
  | .store => e.bit 2
  | .fetch => e.bit 3
  | .rmw => e.bit 1 && e.bit 2

/-- The physical address is one that R292 lets the access reach. -/
def TlbEntry.reaches (e : TlbEntry) (q : Req) (pa : Nat) : Bool :=
  windowOf pa == 0 || (q.reg && e.cp == 2 && (q.n == 4 || q.n == 8) && (regAt pa).isSome)

/-- The granule and the wick bit agree with the region (R283). -/
def State.granuleOk (s : State) (gr : Nat) (wick : Bool) (pa : Nat) : Bool :=
  gr == (s.region pa).gr.toNat && (!wick || (s.region pa).wick)

/-- The tag key that a core's access carries, where its page asks for one (R290). -/
def TlbEntry.tagFor (e : TlbEntry) (p : Party) (q : Req) : Option Nat :=
  if p.core.isSome && e.bit 12 then some (tagKey q.va) else none

/-- The stored tags of the `n` bytes from a DRAM byte are the key's (R290). -/
def State.tagged (s : State) (pa n key : Nat) : Bool := s.tagAt pa == key && s.tagAt (pa + n - 1) == key

/-- The tags agree with the key, as far as this package holds them (R290). -/
def State.tagsOk (s : State) (p : Party) (e : TlbEntry) (q : Req) (pa : Nat) : Bool :=
  p.core.isNone ||
    if e.bit 12 then epOf pa != s.endpoint || windowOf pa != 0 || s.tagged pa q.n (tagKey q.va)
    else tagKey q.va == 0

/-- The kinds a watch pair matches (R374): bit 2 fetch, bit 1 store, bit 0 load. -/
def watchKinds : AccKind → BitVec 3
  | .load => 1
  | .store => 2
  | .fetch => 4
  | .rmw => 3

/-- One watch pair matches an access of `n` bytes at `a` (R374 Table 9). -/
def Watch.hits (w : Watch) (slot : Nat) (k : AccKind) (a n : Nat) : Bool :=
  let lo := w.addr.toNat / 2 ^ w.size.toNat * 2 ^ w.size.toNat
  w.en && w.slots.getLsbD slot && w.kind &&& watchKinds k != 0 && decide (a < lo + 2 ^ w.size.toNat)
    && decide (lo < a + n)

/-- A watch pair of the core matches. -/
def State.watched (s : State) (p : Party) (k : AccKind) (a n : Nat) : Bool :=
  match p.core with
  | some c => p.watch && (s.core c).watch.toList.any fun w => w.hits p.slot k a n
  | none => false

/-- A permitted access: the translation, the address it used, as the program gave it too, the physical address, and the table entries
that the walk read. -/
structure Ref where
  e : TlbEntry
  a : Word
  va : Word
  pa : Nat
  walk : List Nat
  deriving DecidableEq, Repr

/-- An operation as another endpoint's controller checks it: through the leaf's granule, key slot and tag key (R283, R289, R290). -/
def Ref.via (r : Ref) (p : Party) (q : Req) (op : RemoteOp) : RemoteOp :=
  .through { gr := r.e.gr, wick := r.e.bit 10, key := if r.e.bit 11 then r.e.key else none, tag := r.e.tagFor p q } op

/-- PROT TAG names the address with its key (R301). -/
def Ref.named (r : Ref) : Stop → Stop
  | .trap .prot 4 _ f => .trap .prot 4 r.va f
  | e => e

/-- The answer of another endpoint to a permitted access. -/
def State.ask (s : State) (p : Party) (r : Ref) (key : Nat) (op : RemoteOp) : Except Stop Nat :=
  (s.remoteGet p key r.pa op 1 r.a).mapError r.named

/-- The checks that another endpoint's controller makes of a store before it: a store that no answer comes for is sent all the
same (R355). -/
def State.probed (s : State) (p : Party) (q : Req) (r : Ref) : Except Stop Unit :=
  if windowOf r.pa ≠ 0 then .ok ()
  else if !s.answers (epOf r.pa) then .error (.fabric (epOf r.pa))
  else match s.ask p r (probeKey r.pa q.n) (r.via p q .probe) with
  | .error (.trap .prot sub t f) => .error (.trap .prot sub t f)
  | .error (.remote key ep pa op) => .error (.remote key ep pa op)
  | _ => .ok ()

/-- The leaf after an access: A set, D set by a write, and UO as R176 keeps it. -/
def usedPte (e : TlbEntry) (q : Req) : BitVec 64 :=
  let w := q.kind == .store || q.kind == .rmw
  let a := e.pte ||| 0x20#64 ||| (if w then 0x40#64 else 0#64)
  if q.once && !e.bit 5 then a ||| 0x80#64
  else if q.once then a
  else a &&& ~~~0x80#64

/-- The bits that an access sets in its leaf, and those it clears (R294). -/
def leafSet (e : TlbEntry) (q : Req) : Nat := (usedPte e q &&& ~~~e.pte).toNat % 256

/-- The bits that an access clears in its leaf: UO (R176). -/
def leafClear (e : TlbEntry) (q : Req) : Nat := (e.pte &&& ~~~usedPte e q).toNat % 256

/-- The leaf's bits, where it lies at another endpoint, are updated before the access (R294). -/
def State.leafReady (s : State) (p : Party) (q : Req) (e : TlbEntry) (a : Word) : Except Stop Unit :=
  if epOf e.addr = s.endpoint ∨ usedPte e q = e.pte then .ok ()
  else (s.remoteGet p (leafKey e.addr (leafSet e q) (leafClear e q)) e.addr (.bits (leafSet e q) (leafClear e q)) 4 a).map
    fun _ => ()

/-- The checks of an access up to PROT, in the order of R302; what another endpoint checks, it answers (R283, R290). -/
def State.granted (s : State) (p : Party) (q : Req) : Except Stop Ref :=
  if tagKey q.va = 0 ∧ !canonical q.va then .error (pageStop q 3 q.va)
  else
    let a := untag q.va
    match s.translate p q a with
    | .error e => .error e
    | .ok (e, walk) =>
      let pa := e.phys a
      if !e.reaches q pa then .error (.prot 6 a)
      else if !e.permits p q.kind then .error (.prot 1 a)
      else if windowOf pa = 0 ∧ epOf pa = s.endpoint ∧ !s.granuleOk e.gr (e.bit 10) pa then .error (.prot 3 a)
      else if e.bit 11 ∧ (e.key.isNone ∨ e.bit 10) then .error (.prot 7 a)
      else if !s.tagsOk p e q pa then .error (.prot 4 q.va)
      else .ok { e := e, a := a, va := q.va, pa := pa, walk := walk }

/-- The checks of an access up to WATCH, in the order of R302: WATCH comes before MEMERR and FABRIC of the walk, and after what
another endpoint's controller checks. -/
def State.resolve (s : State) (p : Party) (q : Req) : Except Stop Ref :=
  let hit := s.watched p q.kind (untag q.va).toNat q.n
  match s.granted p q with
  | .error (.trap .memerr sub t r) => if hit then .error (.plain .watch 0 (untag q.va)) else .error (.trap .memerr sub t r)
  | .error (.trap .fabric sub t r) => if hit then .error (.plain .watch 0 (untag q.va)) else .error (.trap .fabric sub t r)
  | .error e => .error e
  | .ok r =>
    if hit then
      if epOf r.pa = s.endpoint then .error (.plain .watch 0 r.a)
      else match s.probed p q r with
      | .error (.trap .fabric _ _ _) => .error (.plain .watch 0 r.a)
      | .error e => .error e
      | .ok () => .error (.plain .watch 0 r.a)
    else match s.leafReady p q r.e r.a with
    | .error e => .error e
    | .ok () => .ok r

/-! ## Keeping translations (R176, R294, R296, R298) -/

/-- An entry kept in a TLB of `n` entries: the oldest leaves. Which entry leaves is the model's choice (log 9). -/
def tlbKeep (n : Nat) (e : TlbEntry) (l : List TlbEntry) : List TlbEntry :=
  if l.any fun x => x.ctx == e.ctx && x.size == e.size && x.vpn == e.vpn then
    l.map fun x => if x.ctx == e.ctx && x.size == e.size && x.vpn == e.vpn then e else x
  else (e :: l).take n

/-- The entry kept in the TLBs of the party, where they do not hold it already. -/
def State.keep (s : State) (p : Party) (e : TlbEntry) : State :=
  let s := if (s.die p.die).tlb.contains e then s else s.setDie p.die fun d => { d with tlb := tlbKeep 16384 e d.tlb }
  match p.core with
  | some c => if (s.core c).tlb.contains e then s else s.setCore c fun x => { x with tlb := tlbKeep 512 e x.tlb }
  | none => s

/-! ## Sealed units (R289) -/

/-- How the bytes of a page are stored: in the clear, under the `n`-th key, or under a key that is no longer loaded. -/
inductive Seal where
  | clear
  | key (k : Nat)
  | lost
  deriving DecidableEq, Repr

/-- How the bytes of a translation's page are stored. -/
def State.sealOf (s : State) (e : TlbEntry) : Seal :=
  if !e.bit 11 then .clear
  else match e.key with
  | none => .lost
  | some slot =>
    match s.pilot.keys.find? (·.1 == slot) with
    | some k => .key k.2
    | none => .lost

/-- The plain bytes of the unit at `base`, `u` bytes, under key `k`; the tweak is the unit's physical address. -/
def State.openUnit (s : State) (k base u : Nat) : List Nat :=
  xtsDecrypt (Config.key k) base (u / 16) (natBytes u (s.dram base u))

/-- A read of a byte through a seal gets poison: a sealed unit is read whole (R289). -/
def State.poisonedUnder (s : State) (k : Seal) (pa : Nat) : Bool :=
  match k with
  | .clear => s.poisoned pa
  | .key _ | .lost => s.poisoned pa || s.unitMismatch pa

/-- `n` bytes of DRAM through a seal. -/
def State.readSealed (s : State) (k : Seal) (pa n : Nat) : Nat × State :=
  match k with
  | .clear => (s.dram pa n, s)
  | .key k =>
    let u := unitBytes (s.region pa).gr
    let base := pa / u * u
    (bytesNat (((s.openUnit k base u).drop (pa - base)).take n), s)
  | .lost => ((s.free (8 * n)).toNat, s.spend)

/-- `n` bytes of DRAM written through a seal. -/
def State.writeSealed (s : State) (k : Seal) (pa n x : Nat) : State :=
  match k with
  | .clear => s.setDram pa n x
  | .key k =>
    let u := unitBytes (s.region pa).gr
    let base := pa / u * u
    let b := s.openUnit k base u
    let b := b.take (pa - base) ++ natBytes n x ++ b.drop (pa - base + n)
    s.setDram base u (bytesNat (xtsEncrypt (Config.key k) base (u / 16) b))
  | .lost =>
    let u := unitBytes (s.region pa).gr
    let base := pa / u * u
    (s.setDram base u (s.free (8 * u)).toNat).spend

/-! ## What a write wakes -/

/-- Every VLC record. -/
def State.vlcs (s : State) : List Vlc := s.v :: s.parked

/-- The 64-byte line of a place, by its first byte. -/
def Place.line : Place → Place
  | .phys pa => .phys (pa / 64 * 64)
  | .cmem c o => .cmem c (o / 64 * 64)
  | .spad c o => .spad c (o / 64 * 64)

/-- The steps a write to a line makes due for one VLC: a waiting WAITV tests again (R45), a demotion ends (R47). -/
def Vlc.woken (v : Vlc) (l : Place) : List Instr :=
  (if v.watching = some l then [.waitvRetest v.core v.slot] else []) ++
    (if v.spin.demoted ∧ v.spin.addr.map Place.line = some l then [.spinDemotionEnd v.core v.slot] else [])

/-- The launches whose wait words the dispatcher re-reads after a write (R329). -/
def State.rereads (s : State) (l : Place) : List Instr :=
  match l with
  | .phys _ => (s.launches.filter fun x => x.phase == .waiting || x.phase == .ready).map fun x => .waitWordReread x.key
  | .cmem _ _ => []
  | .spad _ _ => []

/-- What follows a write to a place: the steps it makes due, and the D bit of a scratchpad slot (R167). -/
def State.wrote (s : State) (at_ : Place) : State :=
  let l := at_.line
  let s := { s with events := s.events ++ (s.vlcs.flatMap fun v => v.woken l) ++ s.rereads l }
  match at_ with
  | .spad c o => s.setCore c fun x =>
      let t := look TagEntry.invalid (o / 64) x.tagTable
      if t.v then { x with tagTable := put TagEntry.invalid (o / 64) { t with d := true } x.tagTable } else x
  | .phys _ => s
  | .cmem _ _ => s

/-- Bits of a leaf of this package set and cleared by an atomic operation on the entry (R294, R176); a waiting WAITV on its line
tests again (R45). -/
def State.markLeaf (s : State) (addr set clear : Nat) : State :=
  (((s.setDram addr 1 ((s.dram addr 1 ||| set ||| clear) ^^^ clear)).count addr).wrote (.phys addr))

/-- The table entries of this package that a walk read, counted (R287). -/
def State.countWalk (s : State) (l : List Nat) : State :=
  l.foldl (fun s a => if epOf a = s.endpoint then s.count a else s) s

/-- A permitted access's translation used: its walk counted, the leaf's A, D and UO bits updated, and the translation kept. -/
def State.used (s : State) (p : Party) (q : Req) (r : Ref) : State :=
  let pte := usedPte r.e q
  let s := (s.countWalk r.walk).keep p { r.e with pte := pte }
  if pte = r.e.pte ∨ epOf r.e.addr ≠ s.endpoint then s else s.markLeaf r.e.addr (leafSet r.e q) (leafClear r.e q)

/-- A permitted access made, and counted (R287). -/
def State.note (s : State) (p : Party) (q : Req) (r : Ref) : State :=
  let s := s.used p q r
  if windowOf r.pa = 0 ∧ epOf r.pa = s.endpoint then s.count r.pa else s

/-! ## Loads, stores and read-modify-writes of space 0 -/

/-! ## Outstanding stores to other endpoints (R181, R354) -/

/-- The bytes of an outstanding store meet the `n` bytes from `pa`. -/
def Posted.meets (w : Posted) (pa n : Nat) : Bool := decide (w.pa < pa + n) && decide (pa < w.pa + w.n)

/-- `n` bytes from `pa` with the bits that an outstanding store writes. -/
def Posted.over (w : Posted) (pa n x : Nat) : Nat :=
  let place (y : Nat) : Nat := (if pa ≤ w.pa then y * 2 ^ (8 * (w.pa - pa)) else y / 2 ^ (8 * (pa - w.pa))) % 2 ^ (8 * n)
  (x ||| place w.mask) ^^^ place w.mask ||| place (w.val &&& w.mask)

/-- `n` bytes that another endpoint answered, as the VLC sees them: with its own outstanding stores over them (R181). -/
def Vlc.overlay (v : Vlc) (pa n x : Nat) : Nat :=
  v.stores.foldl (fun y w => if w.meets pa n then w.over pa n y else y) x

/-- A load of another endpoint waits for the VLC's own outstanding stores: an atomic's result is not known before its answer, and
no register is read ahead of a store to it. -/
def Vlc.loadWaits (v : Vlc) (pa n : Nat) : Bool :=
  v.stores.any fun w => w.meets pa n && (windowOf pa != 0 || (!w.known && !w.fresh))

/-- What a load of another endpoint brings, as its party sees it. -/
def State.fetchRef (s : State) (p : Party) (q : Req) (r : Ref) : Except Stop Nat :=
  if p.owner = 0 ∧ s.v.loadWaits r.pa q.n then .error .drain
  else
    let op := if windowOf r.pa = 0 then r.via p q (.read q.n) else .read q.n
    (s.ask p r (loadKey r.pa q.n) op).map fun x => if p.owner = 0 then s.v.overlay r.pa q.n x else x

/-- A permitted load. -/
def State.loadRef (s : State) (p : Party) (q : Req) (r : Ref) : Except Stop (Nat × State) :=
  if epOf r.pa ≠ s.endpoint then (s.fetchRef p q r).map fun x => (x, s.note p q r)
  else match regAt r.pa with
  | some g => .ok (regLoad s g r.pa q.n, s.note p q r)
  | none =>
    if s.poisonedUnder (s.sealOf r.e) r.pa then .error (.plain .memerr 1 r.a)
    else
      let (x, s1) := s.readSealed (s.sealOf r.e) r.pa q.n
      .ok (x, s1.note p q r)

/-- A load of space 0. -/
def State.load (s : State) (p : Party) (q : Req) : Except Stop (Nat × State) :=
  match s.resolve p q with
  | .error e => .error e
  | .ok r => s.loadRef p q r

/-- The 64-byte line of a request's target, as R351 hashes it. -/
def lineOf (pa : Nat) : Nat := pa / 64 % 2 ^ 50

/-- A request sent under the next request number. For a line whose earlier packets a failed plane holds up, it waits for them
(R351). -/
def State.inject (s : State) (ep pa : Nat) (op : RemoteOp) : State :=
  let p := Packet.request s.nextReq ep pa op
  if s.heldLines.any fun x => x.2 == lineOf pa then { s with withheld := s.withheld ++ [p], nextReq := s.nextReq + 1 }
  else { s with outbox := s.outbox ++ [p], nextReq := s.nextReq + 1 }

/-- A request whose answer the party does not wait for: it writes, of the `n` bytes from `pa`, the bits `mask` with `val`, where
`known` says that these do not depend on what it finds. A convoy that sent it before its release began (R185) does not send it again:
request 0 stands for it. -/
def State.post (s : State) (p : Party) (pa n mask val : Nat) (known : Bool) (op : RemoteOp) : State :=
  let w (id : Nat) : Posted := { id := id, pa := pa, n := n, mask := mask, val := val, known := known, fresh := true, old := false }
  if p.owner = 0 ∧ s.v.early then s.setV fun v => { v with stores := v.stores ++ [w 0] }
  else
    let s1 := s.inject (epOf pa) pa op
    if p.owner = 0 then s1.setV fun v => { v with stores := v.stores ++ [w s.nextReq] } else s1

/-- A permitted store to another endpoint of the bits `mask` of `q.n` bytes. -/
def State.sendRef (s : State) (p : Party) (q : Req) (r : Ref) (mask x : Nat) (op : RemoteOp) : Except Stop State :=
  if !s.answers (epOf r.pa) then .error (.fabric (epOf r.pa))
  else match s.probed p q r with
  | .error e => .error e
  | .ok () => .ok ((s.note p q r).post p r.pa q.n mask x true (if windowOf r.pa = 0 then r.via p q op else op))

/-- A permitted store of `q.n` bytes. -/
def State.storeRef (s : State) (p : Party) (q : Req) (r : Ref) (x : Nat) : Except Stop State :=
  if epOf r.pa = s.endpoint then
    if (regAt r.pa).isSome then .ok ((s.note p q r).due (regStore r.pa q.n x))
    else .ok (((s.note p q r).writeSealed (s.sealOf r.e) r.pa q.n x).wrote (.phys r.pa))
  else s.sendRef p q r (2 ^ (8 * q.n) - 1) (x % 2 ^ (8 * q.n)) (.write q.n x)

/-- A store to space 0. -/
def State.store (s : State) (p : Party) (q : Req) (x : Nat) : Except Stop State :=
  match s.resolve p q with
  | .error e => .error e
  | .ok r => s.storeRef p q r x

/-- A nibble put into a byte. -/
def putNibble (hi : Bool) (x old : Nat) : Nat :=
  if hi then x % 16 * 16 + old % 16 else old / 16 * 16 + x % 16

/-- A store to one nibble of a byte of space 0 (R149). -/
def State.storeNibble (s : State) (p : Party) (q : Req) (hi : Bool) (x : Nat) : Except Stop State :=
  match s.resolve p q with
  | .error e => .error e
  | .ok r =>
    if epOf r.pa = s.endpoint then
      let (old, s1) := s.readSealed (s.sealOf r.e) r.pa 1
      .ok (((s1.note p q r).writeSealed (s.sealOf r.e) r.pa 1 (putNibble hi x old)).wrote (.phys r.pa))
    else s.sendRef p q r (putNibble hi 15 0) (putNibble hi x 0) (.nibble hi x)

/-- A permitted read-modify-write: the old value and the state after. `key` and `op` are for another endpoint, where it waits for
the VLC's own outstanding stores (R180). -/
def State.rmwRef (s : State) (p : Party) (q : Req) (r : Ref) (key : Nat) (op : RemoteOp) (f : Nat → Nat) :
    Except Stop (Nat × State) :=
  if epOf r.pa = s.endpoint then
    if s.poisonedUnder (s.sealOf r.e) r.pa then .error (.plain .memerr 1 r.a)
    else
      let (old, s1) := s.readSealed (s.sealOf r.e) r.pa q.n
      .ok (old, ((s1.note p q r).writeSealed (s.sealOf r.e) r.pa q.n (f old)).wrote (.phys r.pa))
  else if p.owner = 0 ∧ s.v.stores ≠ [] then .error .drain
  else (s.ask p r key (r.via p q op)).map fun x => (x, s.note p q r)

/-- A read-modify-write of space 0. One that another endpoint has performed is not made again, whatever its translation has become
(R190). -/
def State.rmw (s : State) (p : Party) (q : Req) (key : Nat) (op : RemoteOp) (f : Nat → Nat) :
    Except Stop (Nat × State) :=
  match s.answer p key with
  | some (.data x) =>
    .ok (x, match s.resolve p q with
      | .ok r => s.note p q r
      | .error _ => s)
  | _ =>
    match s.resolve p q with
    | .error e => .error e
    | .ok r => s.rmwRef p q r key op f

/-! ## The other spaces (R147-R150) -/

/-- The extent of a space other than 0. -/
def spaceExtent : Space → Nat
  | .glob => 0
  | .cmem => 0x400000
  | .spad => 0x40000
  | .lane => 0x1000

/-- The memory behind a space other than 0, for the issuing VLC. -/
def State.spaceMem (s : State) (x : Space) : Memory :=
  match x with
  | .glob => s.mem
  | .cmem => (s.cluster (clusterOf s.v.core)).cmem
  | .spad => (s.core s.v.core).spad
  | .lane => (s.core s.v.core).lanes

/-- That memory changed. -/
def State.setSpaceMem (s : State) (x : Space) (m : Memory) : State :=
  match x with
  | .glob => { s with mem := m }
  | .cmem => s.setCluster (clusterOf s.v.core) fun c => { c with cmem := m }
  | .spad => s.setCore s.v.core fun c => { c with spad := m }
  | .lane => s.setCore s.v.core fun c => { c with lanes := m }

/-- The place of an offset of a space other than 0. -/
def State.spacePlace (s : State) (x : Space) (o : Nat) : Place :=
  match x with
  | .glob => .phys o
  | .cmem => .cmem (clusterOf s.v.core) o
  | .spad => .spad s.v.core o
  | .lane => .phys o

/-- What follows a write to a space other than 0; nothing watches a lane table. -/
def State.wroteSpace (s : State) (x : Space) (o : Nat) : State :=
  match x with
  | .lane => s
  | .glob => s.wrote (s.spacePlace x o)
  | .cmem => s.wrote (s.spacePlace x o)
  | .spad => s.wrote (s.spacePlace x o)

/-- The bounds of an access of `n` bytes at an offset (R149). -/
def inSpace (x : Space) (o n : Nat) : Bool := decide (o + n ≤ spaceExtent x)

/-- The key of an offset in its memory: lane table `t` begins at 4096 t. -/
def laneKey (t o : Nat) : Nat := 4096 * t + o

/-- Bytes of a space other than 0. -/
def State.spaceRead (s : State) (x : Space) (o n : Nat) : Nat := (s.spaceMem x).read o n

/-- Bytes of a space other than 0 written. -/
def State.spaceWrite (s : State) (x : Space) (o n y : Nat) : State :=
  (s.setSpaceMem x ((s.spaceMem x).write o n y)).wroteSpace x o

/-- ALIGN (R149): an access of 2, 4 or 8 bytes at a multiple of its size. -/
def alignOk (a n : Nat) : Bool := n == 1 || a % n == 0

/-- ALIGN at an address of a space: TVAL carries no tag key (R301). -/
def misaligned (x : Space) (a : Word) : Stop := .plain .align 0 (if x = .glob then untag a else a)

/-- A scalar load from any space (R148, R149). -/
def State.loadAt (s : State) (x : Space) (a : Word) (n : Nat) (reg : Bool) : Except Stop (Nat × State) :=
  if !alignOk a.toNat n then .error (misaligned x a)
  else match x with
  | .glob => s.load s.party { va := a, n := n, kind := .load, elem := 0, reg := reg, once := false }
  | .cmem => if inSpace x a.toNat n then .ok (s.spaceRead x a.toNat n, s) else .error (.prot 5 a)
  | .spad => if inSpace x a.toNat n then .ok (s.spaceRead x a.toNat n, s) else .error (.prot 5 a)
  | .lane => if inSpace x a.toNat n then .ok (s.spaceRead x a.toNat n, s) else .error (.prot 5 a)

/-- A scalar store to any space (R148, R149). -/
def State.storeAt (s : State) (x : Space) (a : Word) (n y : Nat) : Except Stop State :=
  if !alignOk a.toNat n then .error (misaligned x a)
  else match x with
  | .glob => s.store s.party (.scalar a n .store) y
  | .cmem => if inSpace x a.toNat n then .ok (s.spaceWrite x a.toNat n y) else .error (.prot 5 a)
  | .spad => if inSpace x a.toNat n then .ok (s.spaceWrite x a.toNat n y) else .error (.prot 5 a)
  | .lane => if inSpace x a.toNat n then .ok (s.spaceWrite x a.toNat n y) else .error (.prot 5 a)

/-- A scalar read-modify-write of space 0 or cluster memory (R397, R401). -/
def State.rmwAt (s : State) (x : Space) (a : Word) (n : Nat) (op : RemoteOp) (f : Nat → Nat) :
    Except Stop (Nat × State) :=
  if !alignOk a.toNat n then .error (misaligned x a)
  else match x with
  | .glob => s.rmw s.party (.mem a n .rmw 0) (atomicKey 0 0) op f
  | .cmem =>
    if inSpace x a.toNat n then
      let old := s.spaceRead x a.toNat n
      .ok (old, s.spaceWrite x a.toNat n (f old))
    else .error (.prot 5 a)
  | .spad => .error (.prot 5 a)
  | .lane => .error (.prot 5 a)

/-! ## The spin detector (R47) -/

/-- The detector with nothing counted. -/
def Spin.idle : Spin := { addr := none, value := 0, count := 0, demoted := false, due := false }

/-- Anything that resets the count: a store, an atomic, a barrier or a grant. It ends a demotion. -/
def State.spinReset (s : State) : State := if s.v.spin = Spin.idle then s else s.setV fun v => { v with spin := Spin.idle }

/-- An acquire load of `x` from an 8-byte word: the count rises when the word and the value are those of the load before. -/
def Spin.acquire (p : Spin) (at_ : Place) (x : Word) : Spin :=
  if p.addr = some at_ ∧ p.value = x then { p with count := p.count + 1, demoted := p.demoted || decide (64 ≤ p.count + 1) }
  else { addr := some at_, value := x, count := 0, demoted := false, due := false }

/-- A load of `x` from an 8-byte word: a demotion ends when the watched word returns another value. -/
def Spin.saw (p : Spin) (at_ : Place) (x : Word) : Spin :=
  if p.demoted ∧ p.addr = some at_ ∧ p.value ≠ x then Spin.idle else p

/-- The 8-byte word of an address of a space, as the detector names it. -/
def State.wordOf (s : State) (x : Space) (a : Word) : Option Place :=
  match x with
  | .glob =>
    match s.resolve s.party (.scalar a 1 .load) with
    | .ok r => some (.phys (r.pa / 8 * 8))
    | .error _ => none
  | .cmem => some (s.spacePlace .cmem (a.toNat / 8 * 8))
  | .spad => some (s.spacePlace .spad (a.toNat / 8 * 8))
  | .lane => none

/-- The detector after an acquire load; each element of an `.acq` VLD is one (DESIGN CHOICE, log 60). -/
def State.spinAcquire (s : State) (x : Space) (a : Word) (y : Word) : State :=
  match s.wordOf x a with
  | some p => s.setV fun v => { v with spin := v.spin.acquire p y }
  | none => s

/-- The detector after a plain load. -/
def State.spinSaw (s : State) (x : Space) (a : Word) (y : Word) : State :=
  if !s.v.spin.demoted then s
  else match s.wordOf x a with
  | some p => s.setV fun v => { v with spin := v.spin.saw p y }
  | none => s

/-! ## Records -/

/-- `n` words of 8 bytes captured from an address of space 0, the lowest first: a record's bytes. -/
def State.capture (s : State) (p : Party) (a : Word) : Nat → Except Stop (List Byte × State)
  | 0 => .ok ([], s)
  | n + 1 =>
    match s.load p (.mem a 8 .load 0) with
    | .error e => .error e
    | .ok (x, s1) =>
      match (if p.owner = 0 then s1.spinSaw .glob a (BitVec.ofNat 64 x) else s1).capture p (a + 8) n with
      | .error e => .error e
      | .ok (l, s2) => .ok (bytesOf 8 x ++ l, s2)

/-- A field of `n` bytes of a captured record. -/
def field (r : List Byte) (o n : Nat) : Nat := bytesNat (((r.drop o).take n).map (·.toNat))

/-- Words stored one after another, as far as no store stops. -/
def State.storeWords (s : State) (p : Party) (a : Word) : List Word → State × Option Stop
  | [] => (s, none)
  | x :: l =>
    match s.store p (.mem a 8 .store 0) x.toNat with
    | .error e => (s, some e)
    | .ok s1 => s1.storeWords p (a + 8) l

/-! ## Notices (R389) -/

/-- The bytes of notice `n` of a die. -/
def Notice.bytes (x : Notice) (d n : Nat) : List Byte :=
  bytesOf 8 n ++ bytesOf 1 x.kind ++ bytesOf 1 d ++ bytesOf 1 x.core ++ bytesOf 1 x.slot ++ bytesOf 4 x.rank
    ++ bytesOf 8 x.tcause.toNat ++ bytesOf 8 x.tpc.toNat ++ bytesOf 8 x.tval.toNat ++ bytesOf 8 x.loc.toNat
    ++ bytesOf 8 x.time.toNat ++ bytesOf 8 0

/-- The ring of a die has room for its next notice. -/
def Die.hasRoom (d : Die) : Bool := d.notbase != 0 && decide (d.notices + 1 ≤ d.nottail.toNat + 64)

/-- The next notice written to the ring, as a release at die scope; a ring of another endpoint's DRAM is written by request. -/
def State.writeNotice (s : State) (d : Nat) (x : Notice) : State :=
  let n := (s.die d).notices + 1
  let pa := (s.die d).notbase.toNat + 64 * ((n - 1) % 64)
  let s := s.setDie d fun y => { y with notices := n }
  if windowOf pa ≠ 0 then s
  else if epOf pa = s.endpoint then (s.setDramBytes pa (x.bytes d n)).wrote (.phys pa)
  else s.inject (epOf pa) pa (.write 64 (bytesNat ((x.bytes d n).map (·.toNat))))

/-- A notice posted: written, held (a stop notice) or lost, as the ring has room. -/
def State.postNotice (s : State) (d : Nat) (x : Notice) : State :=
  if (s.die d).hasRoom then s.writeNotice d x
  else if x.kind = 1 then s.setDie d fun y => { y with held := y.held ++ [x] }
  else s.setDie d fun y => { y with lost := sat 0xFFFFFFFF (y.lost + 1) }

/-- TCAUSE as a word (R300 Table 5). -/
def Tcause.word (t : Tcause) : Word :=
  flagAt t.recd 20 ||| flagAt t.nest 19 ||| flagAt t.ppl 18 ||| flagAt t.forced 16 ||| fieldAt t.sub.toNat 8
    ||| fieldAt t.cls.toNat 0

/-- TCAUSE from a word (R300 Table 5). -/
def Tcause.ofWord (x : Word) : Tcause where
  recd := x.getLsbD 20
  nest := x.getLsbD 19
  ppl := x.getLsbD 18
  forced := x.getLsbD 16
  sub := x.extractLsb' 8 8
  cls := x.extractLsb' 0 5

/-- The stop notice of the issuing VLC (R306). -/
def State.stopNotice (s : State) : Notice where
  kind := 1
  core := s.v.core % 128
  slot := s.v.slot
  rank := s.v.rank.toNat
  tcause := s.v.tcause.word
  tpc := s.v.tpc
  tval := s.v.tval
  loc := 0
  time := s.beacon

/-! ## The Snuff wave's start (R368, R371) -/

/-- The job of a context: its JOBID, or a job of its own (R367). -/
def State.jobOf (s : State) (ctx : Nat) : Nat :=
  if (s.dbgOf ctx).job = 0 then 65536 + ctx else (s.dbgOf ctx).job.toNat

/-- Where a wave that starts in this package stops the VLCs of its job: each at an element that no rule names (R87; log 5). -/
def State.waveCuts (s : State) (key : Nat) : List Vlc → List (Nat × Nat × Nat) × State
  | [] => ([], s)
  | v :: l =>
    if s.jobOf v.ctx == key && v.status == .runnable && !v.frozen then
      let r := s.spend.waveCuts key l
      ((v.core, v.slot, (s.free 14).toNat) :: r.1, r.2)
    else s.waveCuts key l

/-- This package's first cause for a freeze of the job is known: it arrived, or is about to (R371). -/
def State.causeKnown (s : State) (key : Nat) : Bool :=
  ((s.job key).any fun j => (j.st == .freezing || j.st == .frozen) && j.causes.any fun x => x.ep == s.endpoint)
    || s.events.any fun e =>
      match e with
      | .snuffWaveArrival w _ ep _ _ _ _ _ => w.job == key && ep == s.endpoint
      | _ => false

/-- A wave starts for a job: with this package's first cause it goes to the job's other packages, and it arrives in this one. -/
def State.startWave (s : State) (key : Nat) (c : Cause) : State :=
  let s := if key < 65536 ∧ !s.causeKnown key then s.send (.wave key c) else s
  let r := s.waveCuts key s.vlcs
  r.2.due (.snuffWaveArrival { job := key, cuts := r.1 } c.time c.ep c.die c.cls c.rank c.pc c.detail)

/-- The cause record of the issuing VLC (R371). -/
def State.causeOf (s : State) (cls : Nat) (pc detail : Word) : Cause where
  time := s.beacon
  ep := s.endpoint
  die := dieOf s.v.core
  cls := cls
  rank := s.v.rank.toNat
  pc := pc
  detail := detail

/-! ## Taking a trap (R305) and returning from one (R307) -/

/-- The codes of R299 Table 4. -/
def TrapClass.code : TrapClass → Nat
  | .ill => 1 | .priv => 2 | .align => 3 | .page => 4 | .prot => 5 | .memerr => 6 | .fabric => 7 | .arith => 8
  | .brk => 9 | .step => 10 | .watch => 11 | .preempt => 12 | .timeout => 13 | .sparsemeta => 14 | .tile => 15
  | .wick => 16 | .sys => 17

/-- The codes of the kinds of access (R305). -/
def AccKind.code : AccKind → Nat
  | .load => 1 | .store => 2 | .fetch => 3 | .rmw => 4

/-- The trap block's address (R304). -/
def Vlc.block (v : Vlc) : Word := v.tvec ++ 0#9

/-- The trap's own accesses are made at supervisor level (R305). -/
def State.trapParty (s : State) : Party := { s.party with sup := true }

/-- The 16 words of the fault record (R305). -/
def FaultRec.words (f : FaultRec) : List Word :=
  [f.addr, fieldAt (f.elem % 2 ^ 32) 0 ||| fieldAt f.kind.code 32 ||| fieldAt f.hints.length 40, 0, 0, 0, 0, 0, 0]
    ++ f.hints.take 8 ++ List.replicate (8 - f.hints.length) 0

/-- Step 2 of R305: TCAUSE, TPC and TVAL. -/
def Vlc.record (v : Vlc) (t : Trap) : Vlc :=
  { v.mended [.special .tcause, .special .tpc, .special .tval] with
    tcause := { recd := false, nest := false, ppl := v.sup, forced := t.forced, sub := BitVec.ofNat 8 t.sub,
                cls := BitVec.ofNat 5 t.cls.code },
    tpc := t.tpc, tval := t.tval, savedTo := none, remoteData := [], awaited := [], watching := none, queued := none,
    queuedT := none, queuedQ := [], append := none, early := false, cut := none }

/-- Nothing of the instruction under way has been done: its VLC stands at the boundary before it. -/
def Vlc.untouched (v : Vlc) : Bool := !v.early && v.remoteData == []

/-- R306: the VLC stays resident and trapped, and its die posts a stop notice. -/
def State.nestStop (s : State) : State :=
  let s := s.setV fun v => { v with tcause := { v.tcause with nest := true }, status := .stopped }
  s.postNotice (dieOf s.v.core) s.stopNotice

/-- Step 5 of R305. -/
def Vlc.atHandler (v : Vlc) (stack handler : Word) : Vlc :=
  { (v.setS 2 stack).setS 3 v.block with
    level := .supervisor, pc := handler, status := .runnable, entered := true, prevRole := none }

/-- A request sent, for the answer that the VLC waits for. -/
def State.request (s : State) (key ep pa : Nat) (op : RemoteOp) : State :=
  (s.setV fun v => { v with awaited := v.awaited ++ [(s.nextReq, key)] }).inject ep pa op

/-- The trap entry of `s`, which came as far as `s1`, waits for data of another endpoint or for the VLC's own stores, and then begins
again; a fault ends it (R305 step 4). -/
def State.awaitEntry (s s1 : State) (t : Trap) (e : Stop) : State :=
  match e with
  | .remote key ep pa op => (s.request key ep pa op).setV fun v => { v with status := .entering t }
  | .drain | .cut => s.setV fun v => { v with status := .entering t }
  | .trap _ _ _ _ => s1.nestStop

/-- The fault record stored, and REC, for a trap that has one (R305 step 4). -/
def State.storeRec (s : State) (t : Trap) : State × Option Stop :=
  match t.frec with
  | none => (s, none)
  | some f =>
    match s.storeWords s.trapParty (s.v.block + 0x40) f.words with
    | (s1, some e) => (s1, some e)
    | (s1, none) => (s1.setV fun v => { v with tcause := { v.tcause with recd := true } }, none)

/-- Steps 4 and 5 of R305, once TCAUSE, TPC and TVAL are written. -/
def State.enterHandler (s : State) (t : Trap) : State :=
  match s.load s.trapParty (.mem s.v.block 8 .load 0) with
  | .error e => s.awaitEntry s t e
  | .ok (handler, s1) =>
    match s1.load s.trapParty (.mem (s.v.block + 8) 8 .load 0) with
    | .error e => s.awaitEntry s1 t e
    | .ok (stack, s2) =>
      match s2.storeWords s.trapParty (s.v.block + 0x100) (0 :: (s.v.sregs.toList.drop 1)) with
      | (s3, some e) => s.awaitEntry s3 t e
      | (s3, none) =>
        match s3.storeRec t with
        | (s4, some e) => s.awaitEntry s4 t e
        | (s4, none) =>
          if handler % 2 = 1 then s4.nestStop
          else s4.setV (·.atHandler (BitVec.ofNat 64 stack) (BitVec.ofNat 64 handler))

/-- Steps 2 to 5 of R305. -/
def State.enterTrap (s : State) (t : Trap) : State :=
  let s1 := s.setV (·.record t)
  if s1.v.tcause.ppl ∨ s1.v.tvec = 0 then s1.nestStop else s1.enterHandler t

/-- The class is halting for the VLC's context (R367 Table 6). -/
def State.halting (s : State) (c : TrapClass) : Bool := (s.dbgOf s.v.ctx).halt.getLsbD (c.code - 1)

/-- The answer that a STEP gives the endpoint that asked for it. -/
def Job.answer (j : Job) : List Packet :=
  match j.asker with
  | some (ep, id) => [.response ep id (.data 0)]
  | none => []

/-- The STEP of a job has ended: the job's new state, and the answer to the package that asked for it. -/
def State.endStep (s : State) (key : Nat) (st : JobState) : State :=
  { s with
    outbox := s.outbox ++ (s.jobs.filter fun j => j.key == key && j.st == .stepping).flatMap (·.answer)
    jobs := s.jobs.map fun j => if j.key == key && j.st == .stepping then { j with st := st, asker := none } else j }

/-- A debugger STEP has ended: its job is frozen again (R373). -/
def State.stepEnded (s : State) : State :=
  (s.setV fun v => { v with stepOnce := false }).endStep (s.jobOf s.v.ctx) .frozen

/-- The VLC frozen again after the one convoy of a debugger STEP (R373): not while its trap entry waits. Its job is frozen again once
the accesses that the step made at other endpoints are complete. -/
def State.refreeze (s : State) : State :=
  if s.v.stepOnce ∧ !s.v.status.isEntering then
    let s := s.setV fun v => { v with frozen := true }
    if s.v.stores = [] then s.stepEnded else s
  else s

/-- A trap taken: a halting one freezes its VLC first and starts a wave (R299, R368), any other enters its handler. -/
def State.takeTrap (s : State) (t : Trap) : State :=
  if s.halting t.cls then
    let s := s.setV fun v => { v with frozen := true, pending := some t, status := .runnable, remoteData := [], cut := none }
    (s.startWave (s.jobOf s.v.ctx) (s.causeOf t.cls.code t.tpc t.tval)).refreeze
  else (s.enterTrap t).refreeze

/-- A trap of the instruction at the pc. -/
def State.trapHere (s : State) (cls : TrapClass) (sub : Nat) (tval : Word) (frec : Option FaultRec) : State :=
  s.takeTrap { cls := cls, sub := sub, tval := tval, tpc := s.v.pc, forced := false, frec := frec }

/-- The VLC waits for its own outstanding stores, and then executes `i` again. -/
def State.drain (s : State) (i : Instr) : State := s.setV fun v => { v with status := .draining i }

/-- A trap entry that waited goes on, once it has every answer. -/
def State.goOn (s : State) : State :=
  match s.v.status with
  | .entering t => if s.v.awaited = [] then (s.enterHandler t).refreeze else s
  | _ => s

/-- The jobs that are freezing look again whether they are frozen here (R370). -/
def State.dueFrozen (s : State) : State :=
  { s with events := s.events ++ (s.jobs.filter fun j => j.st == .freezing).map fun j =>
      .frozenReport j.key (decide (65536 ≤ j.key)) }

/-- The busy TLB invalidations look again whether they are done (R298). -/
def State.dueTlb (s : State) : State :=
  { s with events := s.events ++ (s.dies.filter fun d => d.2.tlbinvBusy).map fun d => .tlbinvDone d.1 }

/-- The VLC frozen at the boundary it stands at, what it had read ahead dropped (R370). -/
def State.freezeHere (s : State) : State :=
  (s.setV fun v => { v with frozen := true, freezing := false, status := .runnable, remoteData := [], append := none,
                            early := false, cut := none }).dueFrozen

/-- A forced pre-emption of the issuing VLC (R315): PREEMPT with FORCED = 1 at its pc. -/
def State.forcePreempt (s : State) : State :=
  let s := s.setV fun v => { v with preempt := false, ripe := false }
  (s.takeTrap { cls := .preempt, sub := 0, tval := 0, tpc := s.v.pc, forced := true, frec := none }).dueTlb

/-- The waits that a forced pre-emption stops (R44, R45, R241, R264, R268, R188, R194, R356). -/
def stopsForced : Instr → Bool
  | .bar _ | .ssync _ | .waitv .. | .fence .. | .publ .. | .cwait .. | .wqpost .. | .wqrecv .. | .cpy ..
  | .mlocate .. | .mrefine .. | .mcoarsen .. | .mremap .. | .mcolor .. | .mcut .. | .mmigr .. | .mghost ..
  | .fput .. | .fget .. | .cring .. | .coll .. | .setvl .. | .vloop .. | .vnext .. => true
  | _ => false

/-- A pre-emption request has ripened and its VLC is not at supervisor level (R315, R316). -/
def Vlc.due (v : Vlc) : Bool := v.preempt && v.ripe && !v.sup

/-- The VLC blocked inside the instruction at its pc (R21). A wave that has reached it freezes it there (R370); a forced pre-emption that
is due stops it there (R315); a debugger STEP ends there (R373). -/
def State.block (s : State) (i : Instr) : State :=
  let s1 := s.setV fun v => { v with status := .blocked i }
  if s.v.freezing then (s1.setV fun v => { v with frozen := true, freezing := false, cut := none }).dueFrozen
  else if stopsForced i ∧ s.v.due then s1.forcePreempt
  else s1.refreeze

/-- An instruction that does not complete: its trap is taken; or it waits for data of another endpoint or for the VLC's own stores, and
executes again; or a wave or a forced pre-emption stops it at the element that VSTART names. A wave stops an instruction that would
ask another endpoint. -/
def State.raise (s : State) (i : Instr) (e : Stop) : State :=
  match e with
  | .trap cls sub tval frec => s.trapHere cls sub tval frec
  | .remote key ep pa op =>
    if s.v.freezing then s.freezeHere else (s.request key ep pa op).setV fun v => { v with status := .blocked i }
  | .drain => s.drain i
  | .cut => if s.v.freezing then s.freezeHere else s.forcePreempt

/-! ## Completing an instruction -/

/-- STEP after the instruction or convoy at `head` (R299, R374). -/
def State.stepTrap (s : State) (head : Word) : State :=
  if !s.v.sup ∧ (s.core s.v.core).stepctl.getLsbD s.v.slot then
    s.takeTrap { cls := .step, sub := 0, tval := head, tpc := s.v.pc, forced := false, frec := none }
  else s.refreeze

/-- The VLC past an instruction, with the pc at `next`; nothing that the instruction awaited or captured is kept. -/
def Vlc.past (v : Vlc) (i : Instr) (next : Word) (entered : Bool) : Vlc :=
  { v with pc := next, entered := entered, prevRole := if entered then none else some i.role, status := .runnable,
           remoteData := [], awaited := [], watching := none, queued := none, queuedT := none, queuedQ := [], append := none,
           early := false, cut := none }

/-- The instruction completed with the pc at `next`. -/
def State.complete (s : State) (i : Instr) (next : Word) (entered : Bool) : State :=
  (s.setV (·.past i next entered)).stepTrap s.v.pc

/-- The instruction completed; the pc moves past it (R73). -/
def State.finish (s : State) (i : Instr) : State := s.complete i (s.v.pc + BitVec.ofNat 64 i.len) false

/-- The outcome of an instruction that may stop. -/
def State.run (s : State) (i : Instr) (x : Except Stop State) : State :=
  match x with
  | .ok s1 => s1.finish i
  | .error e => s.raise i e

/-! ## The checks of decode that depend on state (R108 steps 2, 12, 13 and R85) -/

/-- How a level may use a special register (R62 Table 2). -/
inductive SprUse where
  | none | ro | rw
  deriving DecidableEq, Repr

/-- R62 Table 2. -/
def sprUse (r : Spr) (sup : Bool) : SprUse :=
  match r with
  | .vl | .mvl | .lcmap | .vlcid | .gmemb | .vhwm _ => .ro
  | .vt | .mt | .vstart | .fsr | .fpc | .srseed => .rw
  | .scnt | .tsm | .tsn | .tsk | .vdecl => if sup then .rw else .ro
  | .tcause | .tpc | .tval | .tvec | .maxvl => if sup then .rw else .none
  | .lremap _ => if sup then .ro else .none

/-- The vector registers an operand of a type names: a block-scaled one also names its companion (R125). -/
def namesOf (t : VType) (r : VReg) : List Nat := if t.isX then [r.toNat, r.toNat + 1] else [r.toNat]

/-- The vector registers an instruction names (R24). -/
def vnames : Instr → List Nat
  | .vadd t _ d a b _ | .vsub t _ d a b _ | .vmul t _ d a b _ | .vmulh t _ d a b _ | .vand t _ d a b _
  | .vor t _ d a b _ | .vxor t _ d a b _ | .vshl t _ d a b _ | .vshr t _ d a b _ | .vshra t _ d a b _
  | .vmin t _ d a b _ | .vmax t _ d a b _ | .vsadd t _ d a b _ | .vssub t _ d a b _
  | .vfadd t _ d a b _ | .vfsub t _ d a b _ | .vfmul t _ d a b _ | .vfdiv t _ d a b _ | .vfma t _ d a b _
  | .vfmin t _ d a b _ | .vfmax t _ d a b _ | .vmerge t _ d a b _ =>
    namesOf t d ++ namesOf t a ++ namesOf t b
  | .vfsqrt t _ d a _ | .vfrsq t _ d a _ | .vfrcp t _ d a _ | .vfclass t _ d a _ | .vfexp2 t _ d a _ =>
    namesOf t d ++ namesOf t a
  | .vfcvt t _ u d a _ => namesOf t d ++ namesOf u a
  | .vcmp t _ _ a b _ => namesOf t a ++ namesOf t b
  | .vsplat t _ d _ _ => namesOf t d
  | .vext t _ a _ => namesOf t a
  | .vins t d _ _ => namesOf t d
  | .vperm t _ d a b => namesOf t d ++ namesOf t a ++ [b.toNat]
  | .vslideup t _ d a _ | .vslidedn t _ d a _ | .vcompress t _ d a | .vexpand t _ d a =>
    namesOf t d ++ namesOf t a
  | .vred t _ _ d a | .vscan t _ _ d a => namesOf t d ++ namesOf t a
  | .vld t _ _ d _ _ | .vst t _ _ d _ _ | .vldbpc t _ d _ _ | .vstbpc t _ d _ _ => namesOf t d
  | .vldx t _ d _ b _ | .vstx t _ d _ b _ | .vstxa t _ d _ b _ => namesOf t d ++ [b.toNat]
  | .vldl t _ d a _ | .vstl t _ d a _ => namesOf t d ++ [a.toNat]
  | .vidx _ _ _ d _ => [d.toNat]
  | .vbin _ _ d a _ => [d.toNat, a.toNat]
  | .vhash _ d a _ | .vhlook _ d a _ | .vhins _ d a _ => [d.toNat, a.toNat]
  | .wqpost _ a _ => [a.toNat]
  | .wqrecv d _ _ => [d.toNat]
  | .wkvapp d _ b => [d.toNat, b.toNat]
  | .wcomb d a _ => [d.toNat, a.toNat]
  | .text _ _ _ _ d _ => [d.toNat]
  | .tinj _ _ _ _ a _ => [a.toNat]
  | _ => []

/-- OVERLAP (R115). -/
def overlaps : Instr → Bool
  | .vperm _ _ d a b => d == a || d == b
  | .vslideup _ _ d a _ | .vslidedn _ _ d a _ | .vcompress _ _ d a | .vexpand _ _ d a => d == a
  | _ => false

/-- A 64-bit prefixed instruction. -/
def isTile : Instr → Bool
  | .tshape .. | .tclaim .. | .trel .. | .tld .. | .tmma .. | .tmmas .. | .text .. | .tinj .. | .tzero .. => true
  | _ => false

/-- An ILL with its subcode. -/
def illStop (e : IllSub) (tval : Word) : Stop := .plain .ill e.code tval

/-- PRIV (R118). -/
def privileged (i : Instr) (sup : Bool) : Bool :=
  match i with
  | .eret | .idle | .vsave _ | .vrestore _ => !sup
  | .mfs _ r _ | .mts r _ _ => sprUse r sup == .none
  | _ => false

/-- The group numbers of GMEMB's valid entries (R63 Table 8). -/
def groupsOf (g : Word) : List Nat :=
  [0, 16, 32, 48].filterMap fun o => if g.getLsbD (o + 15) then some (bitsOf g.toNat (o + 7) o) else none

/-- MTS of MAXVL that leaves no enabled lane cluster (R69). -/
def emptiesLc (i : Instr) (s : State) : Bool :=
  match i with
  | .mts .maxvl a _ => ((s.rd a).extractLsb' 0 4 &&& ~~~(s.core s.v.core).fused) == 0
  | _ => false

/-- MTS of VT to an unassigned type code (R63 Table 4). -/
def badVt (i : Instr) (s : State) : Bool :=
  match i with
  | .mts .vt a _ => (VType.ofCode ((s.rd a).extractLsb' 0 5)).isNone
  | _ => false

/-- The checks of an operand against the state: a read-only special register (SPRRO), a group of which the VLC is no member
(GROUP). -/
def operandStop (i : Instr) (s : State) : Option Stop :=
  match i with
  | .mts r _ _ => if sprUse r s.v.sup = .ro then some (illStop .sprro i.value) else none
  | .bar g => if (groupsOf s.v.gmemb).contains g.toNat then none else some (illStop .group (fieldAt g.toNat 0))
  | _ => none

/-- The checks of R108 steps 12 and 13 that a convoy makes of each member: those of its own encoding, level and state. -/
def ownStop (i : Instr) (s : State) : Option Stop :=
  if privileged i s.v.sup then some (.plain .priv 0 i.value)
  else if (vnames i).any fun r => decide (s.v.decl ≤ r) then some (illStop .vdecl i.value)
  else if overlaps i then some (illStop .overlap i.value)
  else if isTile i ∧ s.v.mode = .spread then some (illStop .spreadtile i.value)
  else if isTile i ∧ !s.v.tileOwner then some (illStop .tileown i.value)
  else operandStop i s

/-- R85: an instruction with C = 1 that belongs to no convoy. -/
def joinStop (i : Instr) (s : State) : Option Stop :=
  if !i.joins then none
  else match s.v.prevRole with
  | some .whole | some .solo => some (illStop .cvjoin i.value)
  | _ => some (illStop .cvhead i.value)

/-- An instruction, of which nothing has been done yet, reads scalar, mask, stream or special state that holds an uncorrectable error
(R311). -/
def badReads (i : Instr) (s : State) : Bool := s.v.untouched && (stateReads i).any fun m => s.v.bad.contains m

/-- MEMERR REGFILE (R301 Table 6). -/
def regfileStop : Stop := .plain .memerr 3 0

/-- An instruction that writes memory. -/
def storesMemory : Instr → Bool
  | .stN8 .. | .stN16 .. | .stN32 .. | .stN64 .. | .stSpace .. | .strel .. | .cSt .. | .amo .. | .cas .. | .vst .. | .vstx ..
  | .vstxa .. | .vstl .. | .vstbpc .. | .vbin .. | .vhins .. | .wkvapp .. | .vsave .. => true
  | _ => false

/-- A store of a spread strip waits for those of the strips before it (R183 Table 2). -/
def waitsForOld (i : Instr) (s : State) : Bool := storesMemory i && s.v.stores.any (·.old)

/-- Every check of decode that depends on state, for an instruction in its own turn; then the uncorrectable state it would read, and
the stores it must wait for. -/
def decodeStop (i : Instr) (s : State) : Option Stop :=
  if i.joins ∧ s.v.entered then some (illStop .cventry i.value)
  else if badVt i s then some (illStop .type i.value)
  else match ownStop i s with
  | some e => some e
  | none =>
    if emptiesLc i s then some (illStop .lcempty i.value)
    else match joinStop i s with
    | some e => some e
    | none => if badReads i s then some regfileStop else if waitsForOld i s then some .drain else none

/-- MEMERR REGFILE is taken once: the state it was raised for then holds its undefined value (R311). -/
def State.unmark (s : State) (i : Instr) (e : Stop) : State :=
  if e = regfileStop then s.setV (·.mended (stateReads i)) else s

/-- An instruction that passes its decode checks goes on; otherwise its trap is taken. -/
def checked (i : Instr) (s : State) (k : State → State) : State :=
  match decodeStop i s with
  | some e => (s.unmark i e).raise i e
  | none => k s

/-- A release (R185) goes on once no store of the VLC to another endpoint is outstanding; until then it waits, and then
executes again. -/
def State.afterStores (s : State) (i : Instr) (k : State → State) : State :=
  if s.v.stores = [] then k s else s.drain i

/-! ## ERET (R307) -/

/-- s1 to s31 reloaded from SREG: `n` registers from `r` up, at `a`. -/
def State.reload (s : State) (a : Word) (r : Nat) : Nat → Except Stop State
  | 0 => .ok s
  | n + 1 =>
    match s.load s.trapParty (.mem a 8 .load 0) with
    | .error e => .error e
    | .ok (x, s1) => (s1.wr (BitVec.ofNat 5 r) (BitVec.ofNat 64 x)).reload (a + 8) (r + 1) n

/-- The level of a PPL bit. -/
def levelOf (ppl : Bool) : Level := if ppl then .supervisor else .user

/-- A fault of ERET's own accesses: NEST, with the original cause kept (R307). -/
def State.eretFault (s : State) (i : Instr) (e : Stop) : State :=
  match e with
  | .remote key ep pa op => s.raise i (.remote key ep pa op)
  | .drain | .cut => s.drain i
  | .trap _ _ _ _ => s.nestStop.refreeze

/-- An operand slot whose contents are lost: claimed, where it was not free (R204 Table 5). -/
def OSlot.lost (o : OSlot) (x : BitVec 131072) : OSlot :=
  if o.st = .free then o else { OSlot.free with st := .claimed, data := x }

/-- The slots of the issuing VLC's core after PREEMPT at a grant: every slot that was not free is claimed, with undefined contents
(R204 Table 5, R216). -/
def State.loseSlots (s : State) : State :=
  (List.finRange 16).foldl (fun (s : State) (j : Fin 16) =>
    if (s.core s.v.core).slots[j].st = .free then s
    else
      (s.setCore s.v.core fun c => { c with slots := c.slots.set j (c.slots[j].lost (s.free 131072)) }).spend) s

/-- What a VLC that took PREEMPT at a grant has lost when it resumes. -/
def State.afterGrantPreempt (s : State) : State :=
  if s.v.tcause.cls.toNat = TrapClass.preempt.code ∧ !s.v.tcause.forced ∧ s.v.tileOwner then s.loseSlots else s

/-- The return from a trap: s1 to s31 from SREG, the level from PPL, the pc from TPC. No STEP follows: ERET runs at supervisor level
(R374). -/
def State.returnFrom (s : State) (i : Instr) : State :=
  if s.v.tpc.getLsbD 0 then s.raise i (.plain .align 0 (untag s.v.tpc))
  else match s.reload (s.v.block + 0x108) 1 31 with
  | .error e => s.eretFault i e
  | .ok s1 =>
    (s1.afterGrantPreempt.setV fun v => { v with level := levelOf v.tcause.ppl }.past i s.v.tpc true).refreeze

end Sys2Proof.Machine
end

