-- ==== Sys2Proof/Machine/Ending.lean ====
section
/-! DEFINITION. Groups, barriers and supersteps as a launch keeps them (R40-R44), the freeing of what a VLC holds, and the end
of a VLC (R22, R340). -/

namespace Sys2Proof.Machine

/-! ## VLC records by name -/

/-- A VLC on a core: every state but those in which it has left it. -/
def VlcStatus.resident : VlcStatus → Bool
  | .absent | .released _ | .placeable _ _ => false
  | .runnable | .blocked _ | .draining _ | .again _ | .entering _ | .stopped | .held => true

/-- The VLC resident at a core and slot. -/
def Vlc.isAt (v : Vlc) (core slot : Nat) : Bool := v.status.resident && v.core == core && v.slot == slot

/-- Every VLC record changed. -/
def State.mapVlcs (s : State) (f : Vlc → Vlc) : State := { s with v := f s.v, parked := s.parked.map f }

/-- The VLC resident at a core and slot changed. -/
def State.setVlcAt (s : State) (core slot : Nat) (f : Vlc → Vlc) : State :=
  s.mapVlcs fun v => if v.isAt core slot then f v else v

/-- The first entry of a list that satisfies `p` replaced by `x`. -/
def replaceFirst {α : Type} (p : α → Bool) (x : α) : List α → List α
  | [] => []
  | y :: l => if p y then x :: l else y :: replaceFirst p x l

/-- The VLC that satisfies `p` made the issuing one; the VLC that issued takes its place among the others. -/
def State.bring (s : State) (p : Vlc → Bool) : Option State :=
  if p s.v then some s
  else match s.parked.find? p with
  | none => none
  | some v =>
    if s.v.status = .absent then some { s with v := v, parked := s.parked.eraseP p }
    else some { s with v := v, parked := replaceFirst p s.v s.parked }

/-- A step about the VLC at a core and slot: it is made the issuing one, and `k` follows. Where no such VLC is, nothing
happens, and a frozen VLC stays as it is (R370). -/
def State.onVlc (s : State) (core slot : Nat) (k : State → State) : State :=
  match s.bring (·.isAt core slot) with
  | none => s
  | some s1 => if s1.v.frozen then s else k s1

/-- A pre-emption request made pending on the VLC at a core and slot (R313); it completes a waiting IDLE (R320). -/
def State.requestPreempt (s : State) (core slot : Nat) : State :=
  let s1 := s.setVlcAt core slot fun v => { v with preempt := true }
  if s1.vlcs.any fun v => v.isAt core slot && v.status == .blocked .idle then s1.due (.idleWake core ⟨slot, false⟩) else s1

/-! ## Groups and barriers (R40-R44) -/

/-- The rank ranges of a group; none for an empty entry. -/
def Launch.group (l : Launch) (g : Nat) : List (Nat × Nat) :=
  match l.groups.find? (·.1 == g) with
  | some x => x.2
  | none => []

/-- The ranks of the launch in this package. -/
def Launch.ranks (l : Launch) : List Nat := (List.range l.nvlc).map (· + l.rank0)

/-- A rank lies in a list of ranges. -/
def inRanges (r : Nat) (l : List (Nat × Nat)) : Bool := l.any fun x => decide (x.1 ≤ r) && decide (r ≤ x.2)

/-- The number of the current generation of a group: the one that has not completed (R41). -/
def Launch.genOf (l : Launch) (g : Nat) : Nat :=
  match l.bars.find? (·.group == g) with
  | some b => b.gen
  | none => 0

/-- The ranks that have arrived at the current generation of a group. -/
def Launch.arrivedAt (l : Launch) (g : Nat) : List Nat :=
  match l.bars.find? (·.group == g) with
  | some b => b.arrived
  | none => []

/-- Every member of the group has arrived or ended, and some member waits. -/
def Launch.barDone (l : Launch) (g : Nat) : Bool :=
  !(l.arrivedAt g).isEmpty
    && (l.ranks.filter fun r => inRanges r (l.group g)).all fun r => (l.arrivedAt g).contains r || l.ended.contains r

/-- A group's entry of the generation list changed. -/
def Launch.setBar (l : Launch) (g : Nat) (b : BarGen) : Launch :=
  if l.bars.any (·.group == g) then { l with bars := l.bars.map fun x => if x.group == g then b else x }
  else { l with bars := b :: l.bars }

/-- The stores of every member of a group are performed, those of its ended members too (R42, R340). -/
def State.groupQuiet (s : State) (l : Launch) (g : Nat) : Bool :=
  (s.vlcs.all fun v => v.launch != l.key || !inRanges v.rank.toNat (l.group g) || v.status == .absent || v.stores.isEmpty)
    && s.orphans.all fun o => o.2.1 != l.key || !inRanges o.2.2.2.rank (l.group g)

/-- The current generation of a group can complete (R41, R42). -/
def State.barReady (s : State) (l : Launch) (g : Nat) : Bool := l.barDone g && s.groupQuiet l g

/-- The generations that have become complete fall due. -/
def State.dueBars (s : State) (key : Nat) : State :=
  match s.launch key with
  | none => s
  | some l =>
    { s with events := s.events ++ (l.bars.filter fun b => s.barReady l b.group).map fun b =>
        .barGenerationComplete key b.group b.gen }

/-- A command that writes memory has ended. -/
def Command.ended (c : Command) : Bool := c.status.isSome

/-- Every datum of the launch's communication step is present at its destination (R196). -/
def State.stepPresent (s : State) (key : Nat) : Bool :=
  (s.transfers.all fun t => t.launch != key || t.status.isSome)
    && (s.vlcs.all fun v => v.launch != key || v.status == .absent || v.stores.isEmpty)
    && (s.orphans.all fun o => o.2.1 != key)
    && (s.commands.all fun c => c.launch != key || c.kind != .mghost || c.ended)
    && s.rings.all fun r => r.launch != key || r.round.all (·.done.isSome)

/-- Every VLC of the launch in this package has arrived at SSYNC or ended, and some VLC waits. -/
def Launch.ssyncArrived (l : Launch) : Bool :=
  !l.ssync.isEmpty && l.ranks.all fun r => l.ssync.contains r || l.ended.contains r

/-- The endpoints of the other packages of a gang that have reported. -/
def State.gangPeers (s : State) (l : Launch) : List Nat :=
  ((s.gangReports.filter fun r => r.gang == l.gang).map (·.ep)).filter (· != s.endpoint)

/-- The launch's SSYNC can complete (R43): every VLC, of every package of a gang, has arrived or ended (R22), and the communication
step is delivered. -/
def State.ssyncReady (s : State) (l : Launch) : Bool :=
  l.ssyncArrived && s.stepPresent l.key
    && (l.npkg ≤ 1 || (s.gangPeers l).all fun e => l.peersArrived.contains e || l.peersDone.contains e)

/-- SSYNC falls due, once it is ready. -/
def State.dueSsync (s : State) (key : Nat) : State :=
  match s.launch key with
  | none => s
  | some l => if s.ssyncReady l then s.due (.ssyncComplete key []) else s

/-- A gang tells its other packages that every VLC of this one has arrived, once that is so and they have not been told. -/
def State.tellSsync (s : State) (key : Nat) : State :=
  match s.launch key with
  | none => s
  | some l =>
    if l.npkg ≤ 1 ∨ !l.ssyncArrived ∨ !s.stepPresent key ∨ l.superstep < l.told then s
    else (s.setLaunch key fun x => { x with told := l.superstep + 1 }).send (.ssyncArrived l.gang l.superstep)

/-- What a change to the arrivals or to the communication step of a launch makes due. -/
def State.settleLaunch (s : State) (key : Nat) : State := ((s.dueBars key).tellSsync key).dueSsync key

/-! ## Power gating (R69) -/

/-- Lane cluster `c` of a core has lost power: its lane tables and its slices of the accumulator tiles hold free values. -/
def State.unpower (s : State) (core c : Nat) : State :=
  let x := (s.free (8 * 65536)).toNat
  let s1 := s.spend
  let s2 := s1.setCore core fun k => { k with lanes := k.lanes.write (65536 * c) 65536 x }
  (List.finRange 4).foldl (fun (s : State) (j : Fin 4) =>
    let y := (s.free 65536).toNat <<< (65536 * c)
    (s.setCore core fun k => { k with accs := k.accs.set j { k.accs[j] with
      data := k.accs[j].data &&& ~~~BitVec.ofNat 262144 ((2 ^ 65536 - 1) <<< (65536 * c)) ||| BitVec.ofNat 262144 y } }).spend) s2

/-- The lane clusters of a core that MAXVL gates and no resident VLC holds lose power. -/
def State.gatePower (s : State) (core : Nat) : State :=
  let gated := ~~~(s.core core).lcen ||| (s.core core).fused
  let held := ((s.vlcs.filter fun v => v.status.resident && v.core == core).map (·.lc)).foldl (· ||| ·) 0
  ((List.range 4).filter fun c => gated.getLsbD c && !held.getLsbD c).foldl (fun s c => s.unpower core c) s

/-! ## Giving up what a VLC holds -/

/-- The VLC waits for rows inside a grant. -/
def Vlc.inGrant (v : Vlc) : Bool :=
  match v.status with
  | .blocked (.setvl _ _) => true
  | .blocked (.vloop _ _ _) => true
  | .blocked (.vnext _ _) => true
  | _ => false

/-- The VLCs of a core that wait for rows inside a grant try again (R27). -/
def State.dueRows (s : State) (core : Nat) : State :=
  { s with events := s.events ++ ((s.vlcs.filter fun v => v.core == core && v.slot != s.v.slot && v.inGrant).map
      fun v => Instr.grantRowsFree core v.slot) }

/-- What a lender regains when the VLC at a slot of its core has left (R339): a request that was still pending is dropped
(R39), a lane cluster already dropped comes back at the next grant. -/
def Vlc.regain (v : Vlc) (slot : Nat) : Vlc :=
  let mine := (v.lent.filter (·.2 == slot)).map fun x => BitVec.ofNat 4 (2 ^ x.1)
  let all := mine.foldl (· ||| ·) 0
  { v with
    lent := v.lent.filter (·.2 != slot)
    gainLc := v.gainLc ||| (all &&& ~~~v.dropLc)
    dropLc := v.dropLc &&& ~~~all }

/-- The lenders of the issuing VLC regain what they lent it, those that have been released since too (R339). -/
def State.reclaim (s : State) : State :=
  let c := s.v.core
  let slot := s.v.slot
  s.mapVlcs fun v => if v.status != .absent && v.core == c then v.regain slot else v

/-- Every slot of a core free (R204). -/
def State.freeSlots (s : State) (core : Nat) : State :=
  s.setCore core fun c => { c with slots := Vector.replicate 16 OSlot.free }

/-- The rows, lane clusters and slots of the issuing VLC freed, as it leaves its core. -/
def State.vacate (s : State) : State :=
  let s := if s.v.tileOwner then s.freeSlots s.v.core else s
  s.reclaim.dueRows s.v.core

/-! ## The commands of a VLC -/

/-- A command that a VLC issued. -/
def Command.of (c : Command) (launch : Nat) (rank : Nat) : Bool := c.launch == launch && c.rank == rank

/-- A command with nothing left to publish. -/
def Command.dropShadow (c : Command) : Command := { c with shadow := [], tags := [], settled := true }

/-- The shadow of a round whose COLL a VLC issued is discarded with it (R193); a round that has ended already is over. -/
def Ring.dropRound (g : Ring) (launch rank : Nat) : Ring :=
  { g with round := g.round.bind fun (x : Round) =>
      if !(x.launch == launch && x.rank == rank) then some x
      else if x.done.isSome then none
      else some { x with targets := [] } }

/-- The unpublished shadows and pending topologies of a VLC discarded (R193, R246). -/
def State.discardShadows (s : State) (p : Command → Bool) : State :=
  let gone := (s.commands.filter fun c => p c && !c.settled).map fun c => (c.die, c.handle)
  let s1 := { s with
    commands := s.commands.map fun (c : Command) => if p c && !c.settled then c.dropShadow else c
    meshes := s.meshes.map fun (m : Mesh) =>
      match m.pending with
      | some (h, _) => if gone.contains (m.die, h) then { m with pending := none } else m
      | none => m }
  s1.dueTlb

/-! ## FABRIC notices (R355, R389) -/

/-- A FABRIC notice about the issuing VLC and a silent endpoint. -/
def State.fabricNotice (s : State) (ep : Nat) : Notice where
  kind := 3
  core := s.v.core % 128
  slot := s.v.slot
  rank := s.v.rank.toNat
  tcause := 7
  tpc := s.v.pc
  tval := BitVec.ofNat 64 (ep % 8192)
  loc := 0
  time := s.beacon

/-- A late FABRIC that the issuing VLC will not take is told to its die (R355). -/
def State.tellLate (s : State) : State :=
  match s.v.lateFabric with
  | none => s
  | some ep => (s.postNotice (dieOf s.v.core) (s.fabricNotice ep)).setV fun v => { v with lateFabric := none }

/-! ## The end of a VLC (R22, R340) -/

/-- The dispatcher tries again to place the resumed VLCs. -/
def State.duePlace (s : State) : State :=
  if s.vlcs.any fun v => (match v.status with | .placeable _ _ => true | _ => false) then s.due .vlcResumePlace else s

/-- The dispatcher tries again to place what waits: resumed VLCs, and ready launches. -/
def State.dueDispatch (s : State) : State :=
  let s1 := s.duePlace
  if s.launches.any fun l => l.phase == .ready then s1.due .launchPlace else s1

/-- The WQPOSTs that wait for room in a stack controller try again (R264). -/
def State.duePosts (s : State) : State :=
  { s with events := s.events ++ (s.vlcs.filter fun v => v.queuedQ != []).map fun v => .wqpostResume v.core v.slot }

/-- A VLC of a launch counted as ended. -/
def Launch.endRank (l : Launch) (r : Nat) (fails : Bool) : Launch :=
  { l with ended := r :: l.ended, failed := if fails then some 8 else l.failed }

/-- Every VLC of the launch in this package has ended. -/
def Launch.allEnded (l : Launch) : Bool := l.phase == .running && l.ranks.all fun r => l.ended.contains r

/-- The launch falls due to complete, once every VLC of it has ended and every access they made is performed (R340). -/
def State.dueComplete (s : State) (key : Nat) : State :=
  match s.launch key with
  | none => s
  | some l => if l.allEnded && s.orphans.all (·.2.1 != key) then s.due (.launchComplete key []) else s

/-- The issuing VLC ends; `fails` says that VEND ended it. -/
def State.endVlc (s : State) (fails : Bool) : State :=
  let key := s.v.launch
  let r := s.v.rank.toNat
  let core := s.v.core
  let s := (if s.v.stepOnce then s.stepEnded else s).tellLate
  let s := if s.v.status.resident then s.vacate else s
  let s := s.discardShadows (·.of key r)
  let s := { s with
    subqueries := s.subqueries.filter fun q => !(q.launch == key && q.rank == r)
    ringWaits := s.ringWaits.filter fun w => !(w.launch == key && w.rank == r)
    rings := s.rings.map fun (g : Ring) => g.dropRound key r
    orphans := s.orphans
      ++ (s.v.stores.map (fun (w : Posted) => w.id) ++ s.v.awaited.map (fun (a : Nat × Nat) => a.1)).map fun (id : Nat) => (id, key, dieOf core, s.fabricNotice 0)
    v := Vlc.absent }
  let s := (s.gatePower core).setLaunch key (·.endRank r fails)
  ((s.settleLaunch key).dueComplete key).dueDispatch.duePosts.dueTlb

end Sys2Proof.Machine
end

