-- ==== Sys2Proof/Machine/Fetch.lean ====
section
/-! DEFINITION. The convoy sequencer's choice (R345, R46, R47), what is taken at an instruction boundary (R315, R341, R355),
and the fetch of an instruction or convoy (R73, R74, R85). -/

namespace Sys2Proof.Machine

/-! ## The sequencer's choice -/

/-- The VLC's next instruction can start. -/
def Vlc.ready (v : Vlc) : Bool :=
  !v.frozen && match v.status with
  | .runnable | .again _ => true
  | _ => false

/-- How far `x` lies after `last` in a cycle of `n`: 0 for the next one, `n - 1` for `last` itself. -/
def cyc (n last x : Nat) : Nat := (x + n - 1 - last) % n

/-- The entry with the least key, the earlier on a tie. -/
def leastBy (key : Vlc → Nat) : List Vlc → Option Vlc
  | [] => none
  | v :: l =>
    match leastBy key l with
    | none => some v
    | some w => if key v ≤ key w then some v else some w

/-- The choice among the ready VLCs of one core (R345): a demoted one that is due, by slot; then one that is neither demoted
nor passing its turn, in slot order after the slot that issued last; then a demoted one; then one that passes its turn. -/
def chooseOn (last : Nat) (l : List Vlc) : Option Vlc :=
  let after := leastBy fun v => cyc 4 last v.slot
  match leastBy (·.slot) (l.filter fun v => v.spin.demoted && v.spin.due) with
  | some v => some v
  | none =>
    match after (l.filter fun v => !v.spin.demoted && !v.yielded) with
    | some v => some v
    | none =>
      match after (l.filter fun v => v.spin.demoted && !v.yielded) with
      | some v => some v
      | none => after l

/-- The core's island has a clock (R386): island 2d holds a die's clusters 0 to 3, island 2d + 1 its clusters 4 to 7. -/
def State.clocked (s : State) (core : Nat) : Bool :=
  let d := s.die (dieOf core)
  (if core % 128 < 64 then d.islands[0] else d.islands[1]).cur != 0

/-- The core whose turn is next: cores that hold a ready VLC take turns (log 3). -/
def State.nextCore (s : State) : Option Nat :=
  (leastBy (fun v => cyc 1024 s.lastCore v.core) (s.vlcs.filter fun v => v.ready && s.clocked v.core)).map (·.core)

/-- Turns that YIELD gave up on a core count as passed. -/
def State.passTurns (s : State) (core : Nat) : State :=
  s.mapVlcs fun v => if v.ready && v.core == core && v.yielded then { v with yielded := false } else v

/-- The stores that the issuing VLC's earlier instructions sent are no longer those of the instruction under way. -/
def Vlc.settled (v : Vlc) : Vlc :=
  if v.stores.any (·.fresh) then { v with stores := v.stores.map fun w => { w with fresh := false } } else v

/-- The issuing VLC noted as the last that issued, on its core and in the package. -/
def State.issued (s : State) : State :=
  let s := if (s.core s.v.core).lastSlot = s.v.slot then s
    else s.setCore s.v.core fun c => { c with lastSlot := s.v.slot }
  let s := { s with lastCore := s.v.core, v := s.v.settled }
  if s.v.spin.due then s.setV fun v => { v with spin := { v.spin with due := false } } else s

/-- The VLC that issues next, made the issuing one; none when no VLC can run. The package runs VLCs once its bring-up is
complete (R388). -/
def State.pick (s : State) : Option State :=
  if s.pilot.boot ≠ 3 then none
  else match s.nextCore with
  | none => none
  | some c =>
    match chooseOn (s.core c).lastSlot (s.vlcs.filter fun v => v.ready && v.core == c) with
    | none => none
    | some w => ((s.passTurns c).bring (·.isAt w.core w.slot)).map (·.issued)

/-! ## Instruction boundaries -/

/-- What is taken at the boundary before the issuing VLC's next instruction: an end that VEND asked for (R341); a wave that has
reached it (R370); and, below supervisor level (R316), a store's late FABRIC (R355) or a forced pre-emption (R315). One that is to
stop inside the next convoy waits for it. -/
def State.boundary (s : State) : Option State :=
  if s.v.vend then some (s.endVlc true)
  else if s.v.cut.isSome then none
  else if s.v.freezing then some s.freezeHere
  else if s.v.sup then none
  else match s.v.lateFabric with
  | some ep =>
    some ((s.setV fun v => { v with lateFabric := none }).trapHere .fabric 0 (BitVec.ofNat 64 (ep % 8192)) none)
  | none => if s.v.preempt ∧ s.v.ripe then some s.forcePreempt else none

/-! ## Fetch (R73, R74) -/

/-- The halfwords of an instruction, `n` of them from `a`, as a number. -/
def State.halfwords (s : State) (a : Word) : Nat → Except Stop (Nat × State)
  | 0 => .ok (0, s)
  | n + 1 =>
    match s.load s.party (.mem a 2 .fetch 0) with
    | .error e => .error e
    | .ok (x, s1) =>
      match s1.halfwords (a + 2) n with
      | .error e => .error e
      | .ok (y, s2) => .ok (x + 65536 * y, s2)

/-- The bytes of an instruction from its first halfword (R73); a zero halfword is fetched alone (R74). -/
def lengthOf (h : Nat) : Nat := if h = 0 then 2 else if h % 4 = 2 then 2 else if h % 4 = 3 then 8 else 4

/-- The instruction at an address: its halfwords as one number and its length in bytes. -/
def State.fetchAt (s : State) (a : Word) : Except Stop (Nat × Nat × State) :=
  match s.halfwords a 1 with
  | .error e => .error e
  | .ok (h, s1) =>
    match s1.halfwords (a + 2) (lengthOf h / 2 - 1) with
    | .error e => .error e
    | .ok (x, s2) => .ok (h + 65536 * x, lengthOf h, s2)

/-- An encoding carries C = 1; a compressed one has no C bit. -/
def carriesC (w : Nat) : Bool := w % 4 != 2 && w / 4 % 2 == 1

/-- The members after a convoy's head, up to the first instruction with C = 0 (R85); `n` bounds them. -/
def State.followers (s : State) (a : Word) : Nat → Except Stop (List (BitVec 64) × State)
  | 0 => .ok ([], s)
  | n + 1 =>
    match s.fetchAt a with
    | .error e => .error e
    | .ok (w, len, s1) =>
      if !carriesC w then .ok ([], s1)
      else
        match s1.followers (a + BitVec.ofNat 64 len) n with
        | .error e => .error e
        | .ok (l, s2) => .ok (BitVec.ofNat 64 w :: l, s2)

/-- What the fetch at the pc finds: an instruction or convoy to execute, or a trap of decode. -/
inductive Fetched where
  | run (i : Instr)
  | stop (e : Stop)
  deriving DecidableEq, Repr

/-- The trap of an encoding that decode turns away (R106, R108): CVENTRY comes before every other but ZERO. -/
def turnAway (s : State) (e : IllSub) (w : Nat) : Stop :=
  let tval := BitVec.ofNat 64 w
  if e = .zero then illStop .zero 0
  else if carriesC w ∧ s.v.entered then illStop .cventry tval
  else illStop e tval

/-- The trap of a whole-vector or solo instruction with bit 2 set (R85): its own checks come first. -/
def joinedStop (s : State) (i : Instr) (w : Nat) : Stop :=
  let tval := BitVec.ofNat 64 w
  if s.v.entered then illStop .cventry tval
  else match ownStop i s with
  | some (.trap cls sub t r) => .trap cls sub (if t = i.value then tval else t) r
  | some e => e
  | none => illStop .cvjoin tval

/-- A 32-bit word whose major says that it is a vector or accumulator-port member (R84, R112), assigned or not. -/
def headMajor (w : Nat) : Bool :=
  let maj := bitsOf w 8 3
  w % 4 == 1 && (decide (maj ≤ 0x1C) || maj == 0x1F || (maj == 0x27 && bitsOf w 31 27 == 0)
    || (decide (0x28 ≤ maj) && decide (maj ≤ 0x2F)) || maj == 0x34 || maj == 0x35)

/-- An encoding that decode turns away would head a convoy: its operation is one whose role heads (R84). -/
def wouldHead (w : Nat) : Bool :=
  headMajor w || (w % 4 == 3 && bitsOf w 40 32 == 0x1F1 && decide (4 ≤ bitsOf w 63 59) && decide (bitsOf w 63 59 ≤ 8))

/-- The instruction at an address is there and has C = 1. -/
def State.joinedAt (s : State) (a : Word) : Bool :=
  match s.fetchAt a with
  | .ok (w, _, _) => carriesC w
  | .error _ => false

/-- A failure of the head of a convoy of two or more: TVAL is its address (R85). -/
def addressed (s : State) : Stop → Stop
  | .trap .ill sub _ r => .trap .ill sub s.v.pc r
  | e => e

/-- The trap of a head that fails its own checks: `len` bytes on, a member follows or not. -/
def headStop (s : State) (len : Nat) (e : Stop) : Stop :=
  if s.joinedAt (s.v.pc + BitVec.ofNat 64 len) then addressed s e else e

/-- The most members a convoy can have before its chain has come round to the head, whose C is 0. -/
def convoyBound : Nat := 2 ^ 62

/-- The instruction or convoy at the pc. A head that fails its own checks traps before a fault of the look-ahead (log 59). -/
def State.fetch (s : State) : Except Stop (Fetched × State) :=
  match s.fetchAt s.v.pc with
  | .error e => .error e
  | .ok (w, len, s1) =>
    match decode (bytesOf 8 w) with
    | .ill e =>
      let st := turnAway s e w
      .ok (.stop (if wouldHead w ∧ !carriesC w then headStop s1 len st else st), s1)
    | .truncated => .ok (.stop (turnAway s .zero w), s1)
    | .joined i => .ok (.stop (joinedStop s i w), s1)
    | .instr i =>
      if i.role.heads ∧ !i.joins then
        match s1.followers (s.v.pc + BitVec.ofNat 64 len) convoyBound with
        | .error e =>
          match ownStop i s1 with
          | some st => .ok (.stop (headStop s1 len st), s1)
          | none => .error e
        | .ok ([], s2) => .ok (.run i, s2)
        | .ok (ws, s2) => .ok (.run (.convoy (BitVec.ofNat 64 w :: ws)), s2)
      else .ok (.run i, s1)

/-- The instruction that a wait for a fetch's data names; no event wakes it by name. -/
def fetching : Instr := .convoy []

end Sys2Proof.Machine
end

