-- ==== Sys2Proof/Machine/Flags.lean ====
section
/-! DEFINITION. Numbers and their flags (file 06): the floating-point formats, exact values, the one rounding every result goes
through, the operations of R129, the conversions of R134 to R136, the generator of R138, the estimates of R140 to R142,
and the integer corner cases of R126. -/

namespace Sys2Proof

/-! ## Flags -/

/-- The FPC flags (R127). -/
abbrev Flags := BitVec 5

/-- The inexact flag. -/
def flagNX : Flags := 1
/-- The underflow flag. -/
def flagUF : Flags := 2
/-- The overflow flag. -/
def flagOF : Flags := 4
/-- The division by zero flag. -/
def flagDZ : Flags := 8
/-- The invalid operation flag. -/
def flagNV : Flags := 16

/-- A result and the flags it raises. -/
structure Res where
  bits : Nat
  flags : Flags
  deriving DecidableEq, Repr

/-- A result that raises nothing. -/
def Res.quiet (x : Nat) : Res := { bits := x, flags := 0 }

/-! ## Formats (R120 Table 1) -/

/-- How a format uses its top encodings. -/
inductive FmtKind where
  | ieee | e4m3 | e2m1
  deriving DecidableEq, Repr

/-- A floating-point format: its fraction bits, its exponent bits and its bias. -/
structure Fmt where
  fb : Nat
  eb : Nat
  bias : Nat
  kind : FmtKind
  deriving DecidableEq, Repr

/-- The format of a type; an integer type has none, and answers the format of .f64. The block-scaled types answer their
payload's format. -/
def VType.fmt : VType → Fmt
  | .f64 => { fb := 52, eb := 11, bias := 1023, kind := .ieee }
  | .f32 => { fb := 23, eb := 8, bias := 127, kind := .ieee }
  | .f16 => { fb := 10, eb := 5, bias := 15, kind := .ieee }
  | .bf16 => { fb := 7, eb := 8, bias := 127, kind := .ieee }
  | .e4m3 | .e4m3x => { fb := 3, eb := 4, bias := 7, kind := .e4m3 }
  | .e5m2 => { fb := 2, eb := 5, bias := 15, kind := .ieee }
  | .e2m1 | .e2m1x => { fb := 1, eb := 2, bias := 1, kind := .e2m1 }
  | .n8 | .n16 | .n32 | .n64 | .s8 | .s16 | .s32 | .s64 => { fb := 52, eb := 11, bias := 1023, kind := .ieee }

/-- The bit that holds the sign. -/
def Fmt.signBit (f : Fmt) : Nat := 2 ^ (f.fb + f.eb)

/-- The encoding of a sign. -/
def Fmt.signOf (f : Fmt) (neg : Bool) : Nat := if neg then f.signBit else 0

/-- The canonical NaN (R121). -/
def Fmt.nan (f : Fmt) : Nat :=
  match f.kind with
  | .ieee => (2 ^ f.eb - 1) * 2 ^ f.fb + 2 ^ (f.fb - 1)
  | .e4m3 => 0x7F
  | .e2m1 => 0

/-- The largest finite magnitude's encoding (R120 Table 1). -/
def Fmt.maxBits (f : Fmt) : Nat :=
  match f.kind with
  | .ieee => (2 ^ f.eb - 1) * 2 ^ f.fb - 1
  | .e4m3 => 0x7E
  | .e2m1 => 7

/-- The encoding of infinity's magnitude, in a format that has one. -/
def Fmt.infBits (f : Fmt) : Nat := (2 ^ f.eb - 1) * 2 ^ f.fb

/-- The exponent of the smallest normal. -/
def Fmt.emin (f : Fmt) : Int := 1 - (f.bias : Int)

/-! ## Exact values -/

/-- An exact dyadic number, with a sign that zero keeps: (−1)^neg × m × 2^e. -/
structure Dy where
  neg : Bool
  m : Nat
  e : Int
  deriving DecidableEq, Repr

/-- The value of an encoding. -/
inductive FpVal where
  | nan (signalling : Bool)
  | inf (neg : Bool)
  | num (d : Dy)
  deriving DecidableEq, Repr

/-- R120, R121: the value of the encoding `x`. -/
def Fmt.val (f : Fmt) (x : Nat) : FpVal :=
  let frac := x % 2 ^ f.fb
  let ex := x / 2 ^ f.fb % 2 ^ f.eb
  let neg := decide (x / f.signBit % 2 = 1)
  let fin : FpVal :=
    if ex = 0 then .num { neg := neg, m := frac, e := f.emin - f.fb }
    else .num { neg := neg, m := 2 ^ f.fb + frac, e := (ex : Int) - f.bias - f.fb }
  match f.kind with
  | .ieee =>
    if ex = 2 ^ f.eb - 1 then
      if frac = 0 then .inf neg else .nan (decide (frac < 2 ^ (f.fb - 1)))
    else fin
  | .e4m3 => if ex = 15 ∧ frac = 7 then .nan false else fin
  | .e2m1 => fin

/-- The magnitude m × 2^e as an integer multiple of 2^q, rounded down. -/
def floorTo (m : Nat) (e q : Int) : Nat :=
  if q ≤ e then m * 2 ^ (e - q).toNat else m / 2 ^ (q - e).toNat

/-- What is left over when m × 2^e is rounded down to a multiple of 2^q: nothing, less than half, half, or more. -/
def restOf (m : Nat) (e q : Int) : Ordering × Bool :=
  if q ≤ e then (.lt, false)
  else
    let r := m % 2 ^ (q - e).toNat
    (compare (2 * r) (2 ^ (q - e).toNat), decide (r ≠ 0))

/-- The rounding modes (R127, R128). -/
inductive RMode where
  | rne | rtz | rup | rdn
  deriving DecidableEq, Repr

/-- The mode an FPC.RM value names (R127 Table 3). -/
def RMode.ofRm (rm : BitVec 2) : RMode :=
  match rm.toNat with
  | 0 => .rne | 1 => .rtz | 2 => .rup | _ => .rdn

/-- m × 2^e rounded to a multiple of 2^q: the multiple, and whether it differs. -/
def roundAt (rm : RMode) (neg : Bool) (m : Nat) (e q : Int) : Nat × Bool :=
  let k := floorTo m e q
  let (half, inexact) := restOf m e q
  let up : Bool := match rm with
    | .rne => half == .gt || (half == .eq && k % 2 == 1)
    | .rtz => false
    | .rup => inexact && !neg
    | .rdn => inexact && neg
  (if up then k + 1 else k, inexact)

/-- floor(log2 (m × 2^e)) for m ≠ 0. -/
def expOf (m : Nat) (e : Int) : Int := (Nat.log2 m : Int) + e

/-- k × 2^q is at most m × 2^e. -/
def magLe (k : Nat) (q : Int) (m : Nat) (e : Int) : Bool :=
  if q ≤ e then decide (k ≤ m * 2 ^ (e - q).toNat) else decide (k * 2 ^ (q - e).toNat ≤ m)

/-- The encoding of the magnitude k × 2^q, which the format holds exactly. -/
def Fmt.encode (f : Fmt) (k : Nat) (q : Int) : Nat :=
  if k = 0 then 0
  else
    let ex := expOf k q
    if ex < f.emin then floorTo k q (f.emin - f.fb)
    else (ex + f.bias).toNat * 2 ^ f.fb + (floorTo k q (ex - f.fb) - 2 ^ f.fb)

/-- The largest finite magnitude as m and e. -/
def Fmt.maxMag (f : Fmt) : Nat × Int :=
  match f.val f.maxBits with
  | .num d => (d.m, d.e)
  | .nan _ => (0, 0)
  | .inf _ => (0, 0)

/-- The magnitude of the encoding for a result beyond the largest finite value (R134 Table 4). -/
def Fmt.beyond (f : Fmt) (rm : RMode) (sat neg : Bool) : Nat :=
  if sat then f.signOf neg + f.maxBits
  else match f.kind with
  | .e4m3 => 0x7F
  | .e2m1 => f.signOf neg + f.maxBits
  | .ieee =>
    let toInf : Bool := match rm with
      | .rne => true
      | .rtz => false
      | .rup => !neg
      | .rdn => neg
    f.signOf neg + (if toInf then f.infBits else f.maxBits)

/-- The one rounding (R128, R130, R132, R134): the exact nonzero magnitude m × 2^e with its sign, delivered in the format.
`ftz` flushes a tiny result. -/
def Fmt.round (f : Fmt) (rm : RMode) (ftz sat neg : Bool) (m : Nat) (e : Int) : Res :=
  if m = 0 then .quiet (f.signOf neg)
  else
    let ex := expOf m e
    let (ku, nxu) := roundAt rm neg m e (ex - f.fb)
    let tiny := !magLe 1 f.emin ku (ex - f.fb)
    let (mm, me) := f.maxMag
    if !magLe ku (ex - f.fb) mm me then
      { bits := f.beyond rm sat neg, flags := flagOF ||| flagNX }
    else if tiny then
      if ftz then { bits := f.signOf neg, flags := flagUF ||| flagNX }
      else
        let (k, nx) := roundAt rm neg m e (f.emin - f.fb)
        { bits := f.signOf neg + f.encode k (f.emin - f.fb), flags := if nx then flagUF ||| flagNX else 0 }
    else
      let q := max (ex - f.fb) (f.emin - f.fb)
      let (k, nx) := if ex < f.emin then roundAt rm neg m e q else (ku, nxu)
      { bits := f.signOf neg + f.encode k q, flags := if nx then flagNX else 0 }

/-! ## Operations (R129) -/

/-- A subnormal read as a zero of its sign (R132). -/
def FpVal.flush (f : Fmt) (ftz : Bool) (x : FpVal) : FpVal :=
  match x with
  | .num d => if ftz && d.m != 0 && decide (expOf d.m d.e < f.emin) then .num { d with m := 0 } else .num d
  | .nan s => .nan s
  | .inf n => .inf n

/-- An operand as an operation reads it. -/
def Fmt.read (f : Fmt) (ftz : Bool) (x : Nat) : FpVal := (f.val x).flush f ftz

/-- The canonical NaN, with NV when `nv`. -/
def Fmt.nanRes (f : Fmt) (nv : Bool) : Res := { bits := f.nan, flags := if nv then flagNV else 0 }

/-- An infinity. -/
def Fmt.inf (f : Fmt) (neg : Bool) : Nat := f.signOf neg + f.infBits

/-- A signalling NaN. -/
def FpVal.isSnan : FpVal → Bool
  | .nan s => s
  | .inf _ => false
  | .num _ => false

/-- A NaN. -/
def FpVal.isNan : FpVal → Bool
  | .nan _ => true
  | .inf _ => false
  | .num _ => false

/-- The signed mantissa of a dyadic at exponent `q ≤ e`. -/
def Dy.at (d : Dy) (q : Int) : Int :=
  let k : Int := (d.m * 2 ^ (d.e - q).toNat : Nat)
  if d.neg then -k else k

/-- The exact sum of two numbers; a zero sum takes the sign R129 gives. -/
def Dy.add (rm : RMode) (x y : Dy) : Dy :=
  let q := min x.e y.e
  let k := x.at q + y.at q
  if k = 0 then
    let neg := if x.neg == y.neg then x.neg else rm == .rdn
    { neg := neg, m := 0, e := q }
  else { neg := decide (k < 0), m := k.natAbs, e := q }

/-- The exact product. -/
def Dy.mul (x y : Dy) : Dy := { neg := x.neg != y.neg, m := x.m * y.m, e := x.e + y.e }

/-- x < y for numbers, with the two zeros equal. -/
def Dy.lt (x y : Dy) : Bool :=
  let q := min x.e y.e
  decide (x.at q < y.at q)

/-- The same number; the two zeros are equal. -/
def Dy.eqv (x y : Dy) : Bool :=
  let q := min x.e y.e
  decide (x.at q = y.at q)

/-- A number rounded to the format. -/
def Fmt.roundDy (f : Fmt) (rm : RMode) (ftz sat : Bool) (d : Dy) : Res := f.round rm ftz sat d.neg d.m d.e

/-- The sum of two values, rounded once. -/
def Fmt.addVal (f : Fmt) (rm : RMode) (ftz : Bool) (x y : FpVal) : Res :=
  match x, y with
  | .nan s, .nan r => f.nanRes (s || r)
  | .nan s, .inf _ => f.nanRes s
  | .nan s, .num _ => f.nanRes s
  | .inf _, .nan s => f.nanRes s
  | .num _, .nan s => f.nanRes s
  | .inf a, .inf b => if a == b then .quiet (f.inf a) else f.nanRes true
  | .inf a, .num _ => .quiet (f.inf a)
  | .num _, .inf b => .quiet (f.inf b)
  | .num a, .num b => f.roundDy rm ftz false (Dy.add rm a b)

/-- The value with its sign changed. -/
def FpVal.negate : FpVal → FpVal
  | .nan s => .nan s
  | .inf n => .inf (!n)
  | .num d => .num { d with neg := !d.neg }

/-- FADD and VFADD. -/
def fpAdd (f : Fmt) (rm : RMode) (ftz : Bool) (x y : Nat) : Res := f.addVal rm ftz (f.read ftz x) (f.read ftz y)

/-- FSUB and VFSUB. -/
def fpSub (f : Fmt) (rm : RMode) (ftz : Bool) (x y : Nat) : Res :=
  f.addVal rm ftz (f.read ftz x) (f.read ftz y).negate

/-- FMUL and VFMUL. -/
def fpMul (f : Fmt) (rm : RMode) (ftz : Bool) (x y : Nat) : Res :=
  match f.read ftz x, f.read ftz y with
  | .nan s, .nan r => f.nanRes (s || r)
  | .nan s, .inf _ => f.nanRes s
  | .nan s, .num _ => f.nanRes s
  | .inf _, .nan s => f.nanRes s
  | .num _, .nan s => f.nanRes s
  | .inf a, .inf b => .quiet (f.inf (a != b))
  | .inf a, .num d => if d.m = 0 then f.nanRes true else .quiet (f.inf (a != d.neg))
  | .num d, .inf b => if d.m = 0 then f.nanRes true else .quiet (f.inf (d.neg != b))
  | .num a, .num b => f.roundDy rm ftz false (a.mul b)

/-- A quotient of magnitudes as m and e with a sticky low bit, to more bits than any format holds. -/
def quotMag (m1 : Nat) (e1 : Int) (m2 : Nat) (e2 : Int) : Nat × Int :=
  let k := 60 + Nat.log2 m2 + 1
  let q := m1 * 2 ^ k / m2
  let r := m1 * 2 ^ k % m2
  (2 * q + (if r = 0 then 0 else 1), e1 - e2 - k - 1)

/-- FDIV and VFDIV. -/
def fpDiv (f : Fmt) (rm : RMode) (ftz : Bool) (x y : Nat) : Res :=
  match f.read ftz x, f.read ftz y with
  | .nan s, .nan r => f.nanRes (s || r)
  | .nan s, .inf _ => f.nanRes s
  | .nan s, .num _ => f.nanRes s
  | .inf _, .nan s => f.nanRes s
  | .num _, .nan s => f.nanRes s
  | .inf _, .inf _ => f.nanRes true
  | .inf a, .num d => .quiet (f.inf (a != d.neg))
  | .num d, .inf b => .quiet (f.signOf (d.neg != b))
  | .num a, .num b =>
    if b.m = 0 then
      if a.m = 0 then f.nanRes true else { bits := f.inf (a.neg != b.neg), flags := flagDZ }
    else if a.m = 0 then .quiet (f.signOf (a.neg != b.neg))
    else
      let (m, e) := quotMag a.m a.e b.m b.e
      f.round rm ftz false (a.neg != b.neg) m e

/-- The integer square root, bit by bit: the largest r below 2^n with r² ≤ x. -/
def isqrt : Nat → Nat → Nat → Nat
  | 0, _, r => r
  | n + 1, x, r =>
    let r' := r + 2 ^ n
    isqrt n x (if r' * r' ≤ x then r' else r)

/-- A square root of a magnitude as m and e with a sticky low bit. -/
def sqrtMag (m : Nat) (e : Int) : Nat × Int :=
  let m1 := if e % 2 = 0 then m else 2 * m
  let e1 := if e % 2 = 0 then e else e - 1
  let x := m1 * 2 ^ 120
  let r := isqrt 100 x 0
  (2 * r + (if r * r = x then 0 else 1), e1 / 2 - 60 - 1)

/-- FSQRT and VFSQRT. -/
def fpSqrt (f : Fmt) (rm : RMode) (ftz : Bool) (x : Nat) : Res :=
  match f.read ftz x with
  | .nan s => f.nanRes s
  | .inf neg => if neg then f.nanRes true else .quiet (f.inf false)
  | .num d =>
    if d.m = 0 then .quiet (f.signOf d.neg)
    else if d.neg then f.nanRes true
    else
      let (m, e) := sqrtMag d.m d.e
      f.round rm ftz false false m e

/-- The product of two values is 0 × ∞. -/
def mulInvalid (x y : FpVal) : Bool :=
  match x, y with
  | .inf _, .num d => d.m == 0
  | .num d, .inf _ => d.m == 0
  | .inf _, .inf _ => false
  | .num _, .num _ => false
  | .nan _, _ => false
  | .inf _, .nan _ => false
  | .num _, .nan _ => false

/-- The exact product of two values that are no NaN and not 0 × ∞; a NaN otherwise. -/
def mulVal (x y : FpVal) : FpVal :=
  match x, y with
  | .num a, .num b => .num (a.mul b)
  | .inf a, .inf b => .inf (a != b)
  | .inf a, .num d => if d.m = 0 then .nan true else .inf (a != d.neg)
  | .num d, .inf b => if d.m = 0 then .nan true else .inf (d.neg != b)
  | .nan s, .nan r => .nan (s || r)
  | .nan s, .inf _ => .nan s
  | .nan s, .num _ => .nan s
  | .inf _, .nan s => .nan s
  | .num _, .nan s => .nan s

/-- FMA and VFMA: x × y + z, rounded once. -/
def fpFma (f : Fmt) (rm : RMode) (ftz : Bool) (x y z : Nat) : Res :=
  let a := f.read ftz x
  let b := f.read ftz y
  let c := f.read ftz z
  if mulInvalid a b then f.nanRes true
  else if a.isNan || b.isNan || c.isNan then f.nanRes (a.isSnan || b.isSnan || c.isSnan)
  else f.addVal rm ftz (mulVal a b) c

/-- Below, with −0 below +0, for two numbers or infinities. -/
def FpVal.below (x y : FpVal) : Bool :=
  match x, y with
  | .inf a, .inf b => a && !b
  | .inf a, .num _ => a
  | .num _, .inf b => !b
  | .num a, .num b => a.lt b || (a.m == 0 && b.m == 0 && a.neg && !b.neg)
  | .nan _, _ => false
  | .inf _, .nan _ => false
  | .num _, .nan _ => false

/-- The encoding of a value as an operation delivers it: NaN canonical, a flushed subnormal as zero. -/
def Fmt.deliver (f : Fmt) (ftz : Bool) (x : Nat) : Nat :=
  match f.read ftz x with
  | .nan _ => f.nan
  | .inf neg => f.inf neg
  | .num d => if d.m = 0 then f.signOf d.neg else x % 2 ^ (f.fb + f.eb + 1)

/-- FMINMAX, VFMIN and VFMAX: minimumNumber and maximumNumber (R129). -/
def fpMinMax (f : Fmt) (mx ftz : Bool) (x y : Nat) : Res :=
  let a := f.read ftz x
  let b := f.read ftz y
  let nv := if a.isSnan || b.isSnan then flagNV else 0
  let pick :=
    if a.isNan then f.deliver ftz y
    else if b.isNan then f.deliver ftz x
    else if (if mx then a.below b else b.below a) then f.deliver ftz y else f.deliver ftz x
  { bits := pick, flags := nv }

/-- An element that reaches a result without any operation (R143, R144). -/
def fpPass (f : Fmt) (ftz : Bool) (x : Nat) : Res :=
  { bits := f.deliver ftz x, flags := if (f.read ftz x).isSnan then flagNV else 0 }

/-- Equal, less, or neither, for two values; none when one is a NaN. -/
def fpOrd (x y : FpVal) : Option Ordering :=
  match x, y with
  | .num a, .num b => some (if a.eqv b then .eq else if a.lt b then .lt else .gt)
  | .inf a, .inf b => some (if a == b then .eq else if a then .lt else .gt)
  | .inf a, .num _ => some (if a then .lt else .gt)
  | .num _, .inf b => some (if b then .gt else .lt)
  | .nan _, _ => none
  | .inf _, .nan _ => none
  | .num _, .nan _ => none

/-- A floating comparison (R129): its truth and its flags. -/
def fpCompare (f : Fmt) (ftz : Bool) (p : VcmpCond) (x y : Nat) : Bool × Flags :=
  let a := f.read ftz x
  let b := f.read ftz y
  let sn := a.isSnan || b.isSnan
  let un := a.isNan || b.isNan
  let o := fpOrd a b
  match p with
  | .eq => (o == some .eq, if sn then flagNV else 0)
  | .ne => (o != some .eq, if sn then flagNV else 0)
  | .un => (un, if sn then flagNV else 0)
  | .lt => (o == some .lt, if un then flagNV else 0)
  | .le => (o == some .lt || o == some .eq, if un then flagNV else 0)
  | .gt => (o == some .gt, if un then flagNV else 0)
  | .ge => (o == some .gt || o == some .eq, if un then flagNV else 0)

/-- The condition of FCMP as one of VCMP. -/
def FcmpCond.toVcmp : FcmpCond → VcmpCond
  | .eq => .eq | .lt => .lt | .le => .le | .un => .un

/-! ## Conversions (R134-R136) -/

/-- How a conversion rounds: by a mode, or stochastically with its draw (R136). -/
inductive CvtMode where
  | mode (rm : RMode)
  | draw (r : Nat)
  deriving DecidableEq, Repr

/-- Stochastic rounding of a nonzero magnitude (R136). -/
def Fmt.roundSr (f : Fmt) (sat neg : Bool) (m : Nat) (e : Int) (r : Nat) : Res :=
  let ue := max (expOf m e) f.emin - f.fb
  let t := floorTo m e (ue - 16)
  let y := (t + r) / 2 ^ 16
  let exact := decide (floorTo y ue (min ue e) = floorTo m e (min ue e))
  let (mm, me) := f.maxMag
  if !magLe y ue mm me then
    { bits := (if sat then f.signOf neg + f.maxBits else f.beyond .rne false neg), flags := flagOF ||| flagNX }
  else
    let tiny := !magLe 1 f.emin y ue
    { bits := f.signOf neg + f.encode y ue,
      flags := if exact then 0 else if tiny then flagUF ||| flagNX else flagNX }

/-- A finite value delivered in a floating format. -/
def Fmt.cvtNum (f : Fmt) (c : CvtMode) (sat : Bool) (d : Dy) : Res :=
  if d.m = 0 then .quiet (f.signOf d.neg)
  else match c with
  | .mode rm => f.round rm false sat d.neg d.m d.e
  | .draw r => f.roundSr sat d.neg d.m d.e r

/-- A value delivered in a floating format (R134 Table 4). -/
def Fmt.cvtVal (f : Fmt) (c : CvtMode) (sat : Bool) (x : FpVal) : Res :=
  match x with
  | .num d => f.cvtNum c sat d
  | .inf neg =>
    match f.kind with
    | .ieee => if sat then .quiet (f.signOf neg + f.maxBits) else .quiet (f.inf neg)
    | .e4m3 => if sat then .quiet (f.signOf neg + f.maxBits) else { bits := 0x7F, flags := flagNV }
    | .e2m1 => { bits := f.signOf neg + f.maxBits, flags := flagOF ||| flagNX }
  | .nan s =>
    match f.kind with
    | .e2m1 => { bits := 0, flags := flagNV }
    | .ieee => f.nanRes s
    | .e4m3 => f.nanRes s

/-- The least value of an integer type. -/
def VType.minInt (t : VType) : Int := if t.isSigned then -(2 ^ (t.width - 1) : Nat) else 0

/-- The greatest value of an integer type. -/
def VType.maxInt (t : VType) : Int :=
  if t.isSigned then (2 ^ (t.width - 1) : Nat) - 1 else (2 ^ t.width : Nat) - 1

/-- An integer type's value of the low bits of `x`. -/
def VType.int (t : VType) (x : Nat) : Int :=
  if t.isSigned then signed t.width x else (x % 2 ^ t.width : Nat)

/-- A value delivered in an integer type (R134 Table 4). -/
def cvtToInt (t : VType) (rm : RMode) (x : FpVal) : Res :=
  match x with
  | .nan _ => { bits := 0, flags := flagNV }
  | .inf neg => { bits := low t.width (if neg then t.minInt else t.maxInt), flags := flagNV }
  | .num d =>
    let (k, nx) := roundAt rm d.neg d.m d.e 0
    let i : Int := if d.neg then -(k : Int) else k
    if i < t.minInt then { bits := low t.width t.minInt, flags := flagNV }
    else if t.maxInt < i then { bits := low t.width t.maxInt, flags := flagNV }
    else { bits := low t.width i, flags := if nx then flagNX else 0 }

/-- An integer as an exact value. -/
def Dy.ofInt (i : Int) : Dy := { neg := decide (i < 0), m := i.natAbs, e := 0 }

/-- The value of the encoding `x` of type `t`, not block-scaled. -/
def VType.value (t : VType) (x : Nat) : FpVal :=
  if t.isI then .num (Dy.ofInt (t.int x)) else t.fmt.val x

/-- The value scaled by 2^(E − 127); E = 0xFF makes it NaN (R124). -/
def FpVal.scaled (x : FpVal) (e : Nat) : FpVal :=
  if e = 255 then .nan false
  else match x with
  | .num d => .num { d with e := d.e + (e : Int) - 127 }
  | .nan s => .nan s
  | .inf n => .inf n

/-- FCVT and one element of VFCVT: a value of type `u` in type `t` (R134). -/
def cvt (t u : VType) (c : CvtMode) (sat : Bool) (x : Nat) : Res :=
  if t.isI && u.isI then .quiet (low t.width (u.int x))
  else if t.isI then cvtToInt t (match c with | .mode rm => rm | .draw _ => .rne) (u.value x)
  else t.fmt.cvtVal c sat (u.value x)

/-- The generator (R138): the new state. -/
def srStep (s : Word) : Word :=
  let a := if s = 0 then 1 else s
  let b := a ^^^ (a <<< 13)
  let c := b ^^^ (b >>> 7)
  c ^^^ (c <<< 17)

/-- The draw of a new state (R138). -/
def srDraw (s : Word) : Nat := s.toNat % 65536

/-! ## EXP2T and the estimates (R140-R142) -/

/-- The largest 24-bit n with (2n − 1)^4096 ≤ 2^(i + 24·4096), bit by bit from bit k down. -/
def expSearch (bound : Nat) : Nat → Nat → Nat
  | 0, n => n
  | k + 1, n =>
    let n' := n + 2 ^ k
    expSearch bound k (if (2 * n' - 1) ^ 4096 ≤ bound then n' else n)

/-- T[i] × 2^23 of R140: the nearest integer to 2^(23 + i/4096). -/
def expTable (i : Nat) : Nat := expSearch (2 ^ (i + 98304)) 24 0

/-- The three outcomes of EXP2T: a NaN, a clamped result, or 2^n × T. -/
inductive Exp2 where
  | nan (signalling : Bool)
  | high
  | low
  | val (m : Nat) (e : Int)
  deriving DecidableEq, Repr

/-- EXP2T of an exact value, cut toward zero to FP32 where a table is used (R140). -/
def exp2Val (x : FpVal) : Exp2 :=
  match x with
  | .nan s => .nan s
  | .inf neg => if neg then .low else .high
  | .num d =>
    if !d.neg && magLe 128 0 d.m d.e then .high
    else if d.neg && !magLe d.m d.e 126 0 then .low
    else
      let r := VType.f32.fmt.round .rtz false false d.neg d.m d.e
      match VType.f32.fmt.val r.bits with
      | .num c =>
        let q : Int := -12
        let k := floorTo c.m c.e q
        let fx : Int := if c.neg then (if (restOf c.m c.e q).2 then -(k : Int) - 1 else -(k : Int)) else k
        .val (expTable (fx % 4096).toNat) (fx / 4096 - 23)
      | .nan s => .nan s
      | .inf _ => .high

/-- EXP2T on FP32 (R140). -/
def exp2t (x : Nat) : Res :=
  let f := VType.f32.fmt
  match exp2Val (f.val x) with
  | .nan s => f.nanRes s
  | .high => { bits := f.inf false, flags := flagOF ||| flagNX }
  | .low => { bits := 0, flags := flagUF ||| flagNX }
  | .val m e => .quiet (f.round .rne false false false m e).bits

/-- VFEXP2 in a type (R140): the table's result is rounded to the type by RNE. -/
def fpExp2 (f : Fmt) (ftz : Bool) (x : Nat) : Res :=
  match exp2Val (f.read ftz x) with
  | .nan s => f.nanRes s
  | .high => { bits := f.inf false, flags := flagOF ||| flagNX }
  | .low => { bits := 0, flags := flagUF ||| flagNX }
  | .val m e => f.round .rne ftz false false m e

/-- The flags of an estimate: NX stands only beside another flag (R142). A tiny result raises nothing unless FTZ flushed
it. -/
def estimate (r : Res) (f : Fmt) (ftz : Bool) (neg : Bool) (m : Nat) (e : Int) : Res :=
  if r.flags &&& flagOF ≠ 0 then { r with flags := flagOF ||| flagNX }
  else if ftz && r.flags &&& flagUF ≠ 0 then { r with flags := flagUF ||| flagNX }
  else .quiet (f.round .rne false false neg m e).bits

/-- VFRCP (R141). -/
def fpRcp (f : Fmt) (ftz : Bool) (x : Nat) : Res :=
  match f.read ftz x with
  | .nan s => f.nanRes s
  | .inf neg => .quiet (f.signOf neg)
  | .num d =>
    if d.m = 0 then { bits := f.inf d.neg, flags := flagDZ }
    else
      let ex := expOf d.m d.e
      let j := floorTo d.m (d.e - ex) (-11) - 2048
      -- 2^13 / ((2048 + j + 0.5) / 2048) = 2^25 / (4096 + 2j + 1)
      let den := 4097 + 2 * j
      let rc := (2 * 2 ^ 25 + den) / (2 * den)
      estimate (f.round .rne ftz false d.neg rc (-ex - 13)) f ftz d.neg rc (-ex - 13)

/-- The nearest integer to 2^13 / sqrt((1024 + j + 0.5) / 1024); no tie occurs. -/
def rsqTable (j : Nat) : Nat :=
  -- the square of the value is 2^26 * 2048 / (2049 + 2j); n is nearest when (2n - 1)^2 * den ≤ 4 * num
  let den := 2049 + 2 * j
  let num := 2 ^ 37
  let r := isqrt 16 (4 * num / den) 0
  (r + 1) / 2

/-- VFRSQ (R142). -/
def fpRsq (f : Fmt) (ftz : Bool) (x : Nat) : Res :=
  match f.read ftz x with
  | .nan s => f.nanRes s
  | .inf neg => if neg then f.nanRes true else .quiet 0
  | .num d =>
    if d.m = 0 then { bits := f.inf d.neg, flags := flagDZ }
    else if d.neg then f.nanRes true
    else
      let ex := expOf d.m d.e
      let ee := if ex % 2 = 0 then ex else ex - 1
      let j := floorTo d.m (d.e - ee) (-10) - 1024
      let rs := rsqTable j
      estimate (f.round .rne ftz false false rs (-ee / 2 - 13)) f ftz false rs (-ee / 2 - 13)

/-! ## Integers (R126) -/

/-- DIV and REM of R126 Table 2. -/
def intDiv (sgn : Bool) (w x y : Nat) : Nat :=
  if y % 2 ^ w = 0 then 2 ^ w - 1
  else if sgn then low w ((signed w x).tdiv (signed w y)) else x % 2 ^ w / (y % 2 ^ w)

/-- See `intDiv`. -/
def intRem (sgn : Bool) (w x y : Nat) : Nat :=
  if y % 2 ^ w = 0 then x % 2 ^ w
  else if sgn then low w ((signed w x).tmod (signed w y)) else x % 2 ^ w % (y % 2 ^ w)

/-- MULH and VMULH. -/
def intMulh (sgn : Bool) (w x y : Nat) : Nat :=
  if sgn then low w (signed w x * signed w y / (2 ^ w : Nat)) else x % 2 ^ w * (y % 2 ^ w) / 2 ^ w

/-- An exact result clamped to an integer type (VSADD, VSSUB). -/
def VType.clamp (t : VType) (i : Int) : Nat :=
  low t.width (if i < t.minInt then t.minInt else if t.maxInt < i then t.maxInt else i)

/-- The lesser or greater of two values of an integer type. -/
def VType.minMax (t : VType) (mx : Bool) (x y : Nat) : Nat :=
  if (if mx then t.int x < t.int y else t.int y < t.int x) then y % 2 ^ t.width else x % 2 ^ t.width

/-- An integer comparison. -/
def VType.compare (t : VType) (p : VcmpCond) (x y : Nat) : Bool :=
  match p with
  | .eq => t.int x == t.int y
  | .ne => t.int x != t.int y
  | .lt => decide (t.int x < t.int y)
  | .le => decide (t.int x ≤ t.int y)
  | .gt => decide (t.int y < t.int x)
  | .ge => decide (t.int y ≤ t.int x)
  | .un => false

end Sys2Proof
end

