-- ==== Sys2Proof/Machine/Scalar.lean ====
section
/-! DEFINITION. The scalar integer group (R393-R395) and its compressed forms (R116). Each instruction has its effect, which
the scalar phase of a convoy shares (R86), and its meaning alone. -/

namespace Sys2Proof.Machine

/-! ## Shared operations -/

/-- A scalar instruction in its own turn: decode's checks, its effect, and the pc past it. -/
def alone (i : Instr) (s : State) (f : State → State) : Out := .next (checked i s fun s => (f s).finish i)

/-- The register form: s(rd) := f a b. -/
def alu3 (f : Word → Word → Word) (d a b : SReg) (s : State) : State := s.wr d (f (s.rd a) (s.rd b))

/-- A form with one source: s(rd) := f a. -/
def alu2 (f : Word → Word) (d a : SReg) (s : State) : State := s.wr d (f (s.rd a))

/-- An immediate sign-extended (R393). -/
def simm {w : Nat} (k : BitVec w) : Word := k.signExtend 64

/-- The shift count of a register operand: its low 6 bits. -/
def shiftCount (b : Word) : Nat := b.toNat % 64

/-- A truth value as a scalar. -/
def truth (b : Bool) : Word := if b then 1 else 0

/-- The relations of CMP (R110 Table 3). -/
def cmpHolds (p : CmpCond) (a b : Word) : Bool :=
  match p with
  | .eq => a == b
  | .ne => a != b
  | .ltS => a.slt b
  | .geS => !a.slt b
  | .ltU => a.ult b
  | .geU => !a.ult b

/-- Leading zero bits. -/
def leadingZeros (a : Word) : Word := if a = 0 then 64 else BitVec.ofNat 64 (63 - Nat.log2 a.toNat)

/-- Trailing zero bits of the low `n` bits of a number. -/
def trailing : Nat → Nat → Nat
  | 0, _ => 0
  | n + 1, x => if x % 2 = 1 then 0 else trailing n (x / 2) + 1

/-- The number of 1 bits in the low `n` bits of a number. -/
def ones : Nat → Nat → Nat
  | 0, _ => 0
  | n + 1, x => x % 2 + ones n (x / 2)

/-- The smaller or larger of two words, read signed or unsigned. -/
def pick2 (u mx : Bool) (a b : Word) : Word :=
  let less := if u then a.ult b else a.slt b
  if less == mx then b else a

/-! ## Effects -/

/-- ADD. -/
def effAdd (d a b : SReg) : State → State := alu3 (· + ·) d a b
/-- SUB. -/
def effSub (d a b : SReg) : State → State := alu3 (· - ·) d a b
/-- MUL. -/
def effMul (d a b : SReg) : State → State := alu3 (· * ·) d a b
/-- MULH. -/
def effMulh (u : Bool) (d a b : SReg) : State → State :=
  alu3 (fun x y => BitVec.ofNat 64 (intMulh (!u) 64 x.toNat y.toNat)) d a b
/-- DIV. -/
def effDiv (u : Bool) (d a b : SReg) : State → State :=
  alu3 (fun x y => BitVec.ofNat 64 (intDiv (!u) 64 x.toNat y.toNat)) d a b
/-- REM. -/
def effRem (u : Bool) (d a b : SReg) : State → State :=
  alu3 (fun x y => BitVec.ofNat 64 (intRem (!u) 64 x.toNat y.toNat)) d a b
/-- AND. -/
def effAnd (d a b : SReg) : State → State := alu3 (· &&& ·) d a b
/-- OR. -/
def effOr (d a b : SReg) : State → State := alu3 (· ||| ·) d a b
/-- XOR. -/
def effXor (d a b : SReg) : State → State := alu3 (· ^^^ ·) d a b
/-- SHL. -/
def effShl (d a b : SReg) : State → State := alu3 (fun x y => x <<< shiftCount y) d a b
/-- SHR. -/
def effShr (d a b : SReg) : State → State := alu3 (fun x y => x >>> shiftCount y) d a b
/-- SHRA. -/
def effShra (d a b : SReg) : State → State := alu3 (fun x y => x.sshiftRight (shiftCount y)) d a b
/-- CMP. -/
def effCmp (p : CmpCond) (d a b : SReg) : State → State := alu3 (fun x y => truth (cmpHolds p x y)) d a b
/-- MIN. -/
def effMin (u : Bool) (d a b : SReg) : State → State := alu3 (pick2 u false) d a b
/-- MAX. -/
def effMax (u : Bool) (d a b : SReg) : State → State := alu3 (pick2 u true) d a b
/-- CLZ. -/
def effClz (d a : SReg) : State → State := alu2 leadingZeros d a
/-- CTZ. -/
def effCtz (d a : SReg) : State → State := alu2 (fun x => BitVec.ofNat 64 (trailing 64 x.toNat)) d a
/-- POPC. -/
def effPopc (d a : SReg) : State → State := alu2 (fun x => BitVec.ofNat 64 (ones 64 x.toNat)) d a
/-- SEL: rd is both the condition and the destination. -/
def effSel (d a b : SReg) (s : State) : State := s.wr d (if s.rd d ≠ 0 then s.rd a else s.rd b)
/-- ADD, immediate. -/
def effAddImm (d a : SReg) (k : BitVec 13) : State → State := alu2 (· + simm k) d a
/-- AND, immediate. -/
def effAndImm (d a : SReg) (k : BitVec 13) : State → State := alu2 (· &&& simm k) d a
/-- OR, immediate. -/
def effOrImm (d a : SReg) (k : BitVec 13) : State → State := alu2 (· ||| simm k) d a
/-- XOR, immediate. -/
def effXorImm (d a : SReg) (k : BitVec 13) : State → State := alu2 (· ^^^ simm k) d a
/-- SHL, immediate. -/
def effShlImm (d a : SReg) (k : BitVec 6) : State → State := alu2 (· <<< k.toNat) d a
/-- SHR, immediate. -/
def effShrImm (d a : SReg) (k : BitVec 6) : State → State := alu2 (· >>> k.toNat) d a
/-- SHRA, immediate. -/
def effShraImm (d a : SReg) (k : BitVec 6) : State → State := alu2 (fun x => x.sshiftRight k.toNat) d a
/-- MUL, immediate. -/
def effMulImm (d a : SReg) (k : BitVec 13) : State → State := alu2 (· * simm k) d a
/-- CMP.s64.lt, immediate. -/
def effCmpS64LtImm (d a : SReg) (k : BitVec 13) : State → State := alu2 (fun x => truth (x.slt (simm k))) d a
/-- CMP.n64.lt, immediate. -/
def effCmpN64LtImm (d a : SReg) (k : BitVec 13) : State → State := alu2 (fun x => truth (x.ult (simm k))) d a
/-- LIH (R394). -/
def effLih (d : SReg) (k : BitVec 18) (s : State) : State := s.wr d ((s.rd d) <<< 18 ||| k.setWidth 64)
/-- ADDPC (R395); `at_` is its own address. -/
def effAddpc (at_ : Word) (d : SReg) (k : BitVec 18) (s : State) : State := s.wr d (at_ + 2 * simm k)

/-! ## Meanings -/

/-- ADD (R393): writes the 64-bit sum of two scalar registers. -/
def execAdd (d a b : SReg) (c : Bool) (s : State) : Out := alone (.add d a b c) s (effAdd d a b)
/-- SUB (R393): writes the 64-bit difference of two scalar registers. -/
def execSub (d a b : SReg) (c : Bool) (s : State) : Out := alone (.sub d a b c) s (effSub d a b)
/-- MUL (R393): writes the low 64 bits of the product of two scalar registers. -/
def execMul (d a b : SReg) (c : Bool) (s : State) : Out := alone (.mul d a b c) s (effMul d a b)
/-- MULH (R393): writes bits 127:64 of the signed or unsigned product of two scalar registers. -/
def execMulh (u : Bool) (d a b : SReg) (c : Bool) (s : State) : Out := alone (.mulh u d a b c) s (effMulh u d a b)
/-- DIV (R393): writes the signed or unsigned quotient, following the integer corner cases, without trapping. -/
def execDiv (u : Bool) (d a b : SReg) (c : Bool) (s : State) : Out := alone (.div u d a b c) s (effDiv u d a b)
/-- REM (R393): writes the signed or unsigned remainder, following the integer corner cases. -/
def execRem (u : Bool) (d a b : SReg) (c : Bool) (s : State) : Out := alone (.rem u d a b c) s (effRem u d a b)
/-- AND (R393): writes the bitwise AND of two scalar registers. -/
def execAnd (d a b : SReg) (c : Bool) (s : State) : Out := alone (.and d a b c) s (effAnd d a b)
/-- OR (R393): writes the bitwise OR of two scalar registers. -/
def execOr (d a b : SReg) (c : Bool) (s : State) : Out := alone (.or d a b c) s (effOr d a b)
/-- XOR (R393): writes the bitwise XOR of two scalar registers. -/
def execXor (d a b : SReg) (c : Bool) (s : State) : Out := alone (.xor d a b c) s (effXor d a b)
/-- SHL (R393): shifts left by the low 6 bits of rb. -/
def execShl (d a b : SReg) (c : Bool) (s : State) : Out := alone (.shl d a b c) s (effShl d a b)
/-- SHR (R393): shifts right logically by the low 6 bits of rb. -/
def execShr (d a b : SReg) (c : Bool) (s : State) : Out := alone (.shr d a b c) s (effShr d a b)
/-- SHRA (R393): shifts right arithmetically by the low 6 bits of rb. -/
def execShra (d a b : SReg) (c : Bool) (s : State) : Out := alone (.shra d a b c) s (effShra d a b)
/-- CMP (R393): writes 1 or 0 according to the relation that func3 selects. -/
def execCmp (p : CmpCond) (d a b : SReg) (c : Bool) (s : State) : Out := alone (.cmp p d a b c) s (effCmp p d a b)
/-- MIN (R393): writes the signed or unsigned smaller of two scalar registers. -/
def execMin (u : Bool) (d a b : SReg) (c : Bool) (s : State) : Out := alone (.min u d a b c) s (effMin u d a b)
/-- MAX (R393): writes the signed or unsigned larger of two scalar registers. -/
def execMax (u : Bool) (d a b : SReg) (c : Bool) (s : State) : Out := alone (.max u d a b c) s (effMax u d a b)
/-- CLZ (R393): writes the count of leading zero bits, or 64 for zero. -/
def execClz (d a : SReg) (c : Bool) (s : State) : Out := alone (.clz d a c) s (effClz d a)
/-- CTZ (R393): writes the count of trailing zero bits, or 64 for zero. -/
def execCtz (d a : SReg) (c : Bool) (s : State) : Out := alone (.ctz d a c) s (effCtz d a)
/-- POPC (R393): writes the number of 1 bits. -/
def execPopc (d a : SReg) (c : Bool) (s : State) : Out := alone (.popc d a c) s (effPopc d a)
/-- SEL (R393): writes ra if rd is non-zero, and rb otherwise. -/
def execSel (d a b : SReg) (c : Bool) (s : State) : Out := alone (.sel d a b c) s (effSel d a b)
/-- ADD_IMM (R393): adds a sign-extended 13-bit immediate. -/
def execAddImm (d a : SReg) (k : BitVec 13) (c : Bool) (s : State) : Out :=
  alone (.addImm d a k c) s (effAddImm d a k)
/-- AND_IMM (R393): computes the bitwise AND with a sign-extended immediate. -/
def execAndImm (d a : SReg) (k : BitVec 13) (c : Bool) (s : State) : Out :=
  alone (.andImm d a k c) s (effAndImm d a k)
/-- OR_IMM (R393): computes the bitwise OR with a sign-extended immediate. -/
def execOrImm (d a : SReg) (k : BitVec 13) (c : Bool) (s : State) : Out := alone (.orImm d a k c) s (effOrImm d a k)
/-- XOR_IMM (R393): computes the bitwise XOR with a sign-extended immediate. -/
def execXorImm (d a : SReg) (k : BitVec 13) (c : Bool) (s : State) : Out :=
  alone (.xorImm d a k c) s (effXorImm d a k)
/-- SHL_IMM (R393): shifts left by an immediate from 0 to 63. -/
def execShlImm (d a : SReg) (k : BitVec 6) (c : Bool) (s : State) : Out :=
  alone (.shlImm d a k c) s (effShlImm d a k)
/-- SHR_IMM (R393): shifts right logically by an immediate from 0 to 63. -/
def execShrImm (d a : SReg) (k : BitVec 6) (c : Bool) (s : State) : Out :=
  alone (.shrImm d a k c) s (effShrImm d a k)
/-- SHRA_IMM (R393): shifts right arithmetically by an immediate from 0 to 63. -/
def execShraImm (d a : SReg) (k : BitVec 6) (c : Bool) (s : State) : Out :=
  alone (.shraImm d a k c) s (effShraImm d a k)
/-- MUL_IMM (R393): multiplies by a sign-extended immediate and keeps the low 64 bits. -/
def execMulImm (d a : SReg) (k : BitVec 13) (c : Bool) (s : State) : Out :=
  alone (.mulImm d a k c) s (effMulImm d a k)
/-- CMP_S64_LT_IMM (R393): writes 1 if ra is less than the immediate, compared signed. -/
def execCmpS64LtImm (d a : SReg) (k : BitVec 13) (c : Bool) (s : State) : Out :=
  alone (.cmpS64LtImm d a k c) s (effCmpS64LtImm d a k)
/-- CMP_N64_LT_IMM (R393): writes 1 if ra is less than the sign-extended immediate, compared unsigned. -/
def execCmpN64LtImm (d a : SReg) (k : BitVec 13) (c : Bool) (s : State) : Out :=
  alone (.cmpN64LtImm d a k c) s (effCmpN64LtImm d a k)
/-- LIH (R394): shifts rd left by 18 bits and inserts an 18-bit unsigned field. -/
def execLih (d : SReg) (k : BitVec 18) (c : Bool) (s : State) : Out := alone (.lih d k c) s (effLih d k)
/-- ADDPC (R395): writes its own address plus twice a signed halfword offset. -/
def execAddpc (d : SReg) (k : BitVec 18) (c : Bool) (s : State) : Out :=
  alone (.addpc d k c) s (effAddpc s.v.pc d k)

/-! ## Compressed forms (R80, R116) -/

/-- C_ADD (R116): compressed form of ADD rA, rA, rB. -/
def execCAdd (a b : SReg) (s : State) : Out := alone (.cAdd a b) s (effAdd a a b)
/-- C_SUB (R116): compressed form of SUB. -/
def execCSub (a b : SReg) (s : State) : Out := alone (.cSub a b) s (effSub a a b)
/-- C_AND (R116): compressed form of AND. -/
def execCAnd (a b : SReg) (s : State) : Out := alone (.cAnd a b) s (effAnd a a b)
/-- C_OR (R116): compressed form of OR. -/
def execCOr (a b : SReg) (s : State) : Out := alone (.cOr a b) s (effOr a a b)
/-- C_XOR (R116): compressed form of XOR. -/
def execCXor (a b : SReg) (s : State) : Out := alone (.cXor a b) s (effXor a a b)
/-- C_ADD_IMM (R116): compressed add of a 5-bit signed immediate. -/
def execCAddImm (a : SReg) (k : BitVec 5) (s : State) : Out :=
  alone (.cAddImm a k) s (effAddImm a a (k.signExtend 13))
/-- C_SHL (R116): compressed shift left by an immediate. -/
def execCShl (a : SReg) (k : BitVec 4) (s : State) : Out := alone (.cShl a k) s (effShlImm a a (k.setWidth 6))
/-- C_SHR (R116): compressed logical shift right by an immediate. -/
def execCShr (a : SReg) (k : BitVec 4) (s : State) : Out := alone (.cShr a k) s (effShrImm a a (k.setWidth 6))
/-- C_SHRA (R116): compressed arithmetic shift right by an immediate. -/
def execCShra (a : SReg) (k : BitVec 4) (s : State) : Out := alone (.cShra a k) s (effShraImm a a (k.setWidth 6))

end Sys2Proof.Machine
end

