-- ==== Sys2Proof/Machine/Special.lean ====
section
/-! DEFINITION. The special registers: what MFS reads (R62, R63, R127, R137, R203, R300, R304) and what MTS writes (R417). -/

namespace Sys2Proof.Machine

/-! ## Layouts -/

/-- VT (R63 Table 4). -/
def vtWord (t : VType) : Word := fieldAt t.wcode 8 ||| fieldAt t.code.toNat 0

/-- VSTART (R63 Table 6). -/
def Vlc.vstartWord (v : Vlc) : Word := fieldAt v.tilepos.toNat 32 ||| fieldAt v.vstart 0

/-- FSR (R63 Table 7); TWOPASS is a view of the lane maps of the core. -/
def State.fsrWord (s : State) : Word :=
  let m := (s.core s.v.core).lremap
  fieldAt s.v.peer.toNat 51 ||| flagAt m[3].twop 15 ||| flagAt m[2].twop 14 ||| flagAt m[1].twop 13
    ||| flagAt m[0].twop 12 ||| flagAt s.v.fsrPoison 1 ||| flagAt s.v.fsrTrim 0

/-- LMODE (R63 Table 8). -/
def LoopMode.code : LoopMode → Nat
  | .inactive => 0 | .plain => 1 | .spread => 2

/-- LCMAP (R63 Table 8). -/
def Vlc.lcmapWord (v : Vlc) : Word := fieldAt v.mode.code 12 ||| fieldAt v.slc.toNat 8 ||| fieldAt v.lc.toNat 0

/-- TSM (R203 Table 4). -/
def Vlc.tsmWord (v : Vlc) : Word :=
  fieldAt v.tsmSpar.toNat 13 ||| fieldAt v.tsmType.toNat 8 ||| fieldAt v.tsmM.toNat 0

/-- TSK (R203 Table 4). -/
def Vlc.tskWord (v : Vlc) : Word := fieldAt v.acur 16 ||| fieldAt v.tskK.toNat 0

/-- FPC (R127 Table 3). -/
def Fpc.word (f : Fpc) : Word :=
  flagAt f.ftz 20 ||| fieldAt f.rm.toNat 16 ||| fieldAt f.en.toNat 8 ||| fieldAt f.flags.toNat 0

/-- FPC from a word. -/
def Fpc.ofWord (x : Word) : Fpc where
  ftz := x.getLsbD 20
  rm := x.extractLsb' 16 2
  en := x.extractLsb' 8 5
  flags := x.extractLsb' 0 5

/-- VDECL (R63 Table 8). -/
def Vlc.vdeclWord (v : Vlc) : Word := fieldAt v.declPend.toNat 4 ||| fieldAt v.declEff.toNat 0

/-- VHWMn of a register (R63 Table 9). -/
def VecReg.hwmWord (r : VecReg) : Word :=
  fieldAt r.hwm 32 ||| fieldAt r.tag.toNat 16 ||| fieldAt (sat 8192 (ceilDiv (r.hwm * 8) (8 * 2 ^ r.tag.toNat))) 0

/-- LREMAPn (R63 Table 10). -/
def LaneMap.word (m : LaneMap) : Word :=
  flagAt m.twop 16 ||| fieldAt m.fail2.toNat 8 ||| fieldAt m.skip.toNat 0

/-! ## MFS (R413) -/

/-- What MFS reads from a special register. -/
def State.sprRead (s : State) : Spr → Word
  | .vl => BitVec.ofNat 64 s.v.vl
  | .mvl => BitVec.ofNat 64 s.v.mvl
  | .vt => vtWord s.v.vt
  | .mt => s.v.mt.code.setWidth 64
  | .vstart => s.v.vstartWord
  | .fsr => s.fsrWord
  | .scnt => s.v.scnt
  | .lcmap => s.v.lcmapWord
  | .tsm => s.v.tsmWord
  | .tsn => fieldAt s.v.tsn.toNat 0
  | .tsk => s.v.tskWord
  | .fpc => s.v.fpc.word
  | .srseed => s.v.srseed
  | .vlcid => s.v.rank.setWidth 64
  | .gmemb => s.v.gmemb
  | .vdecl => s.v.vdeclWord
  | .tcause => s.v.tcause.word
  | .tpc => s.v.tpc
  | .tval => s.v.tval
  | .tvec => s.v.block
  | .vhwm n => if s.v.decl ≤ n.toNat then 0 else (s.v.vreg n).hwmWord
  | .maxvl =>
    let c := s.core s.v.core
    fieldAt c.fused.toNat 4 ||| fieldAt c.lcen.toNat 0
  | .lremap n => (s.core s.v.core).lremap[n.toNat].word

/-! ## MTS (R417 Table 5) -/

/-- A vector register whose contents are undefined (R56): a free image, tag 64, mark 0, no poison. -/
def State.freshReg (s : State) : VecReg := { VecReg.clear with img := s.free 262144 }

/-- Registers from `r` up, `n` of them, made undefined. -/
def State.freshRegs (s : State) (r : Nat) : Nat → State
  | 0 => s
  | n + 1 =>
    let x := s.freshReg
    ((s.setV fun v => if h : r < 32 then { v with vregs := v.vregs.set r x h } else v).spend).freshRegs (r + 1) n

/-- VDECL written at supervisor level: a register that the new EFF adds reads undefined until the next grant. -/
def State.writeVdecl (s : State) (x : Word) : State :=
  let held := 8 * (s.v.declHeld.toNat + 1)
  let eff := x.extractLsb' 0 2
  let s := s.setV fun v => { v with declPend := x.extractLsb' 4 2, declEff := eff }
  s.freshRegs held (8 * (eff.toNat + 1) - held)

/-- The loop mode of a code; the reserved code 3 reads as no loop (log 14). -/
def LoopMode.ofCode (n : Nat) : LoopMode := if n = 1 then .plain else if n = 2 then .spread else .inactive

/-- The space of a code of MT. -/
def Space.ofBits (x : BitVec 2) : Space :=
  if x = 0 then .glob else if x = 1 then .cmem else if x = 2 then .spad else .lane

/-- MTS writes `x` to a special register, in the fields that Table 5 names. -/
def State.sprWrite (s : State) (r : Spr) (x : Word) : State :=
  match r with
  | .vl | .mvl | .lcmap | .vlcid | .gmemb | .vhwm _ | .lremap _ => s
  | .vt =>
    match VType.ofCode (x.extractLsb' 0 5) with
    | some t => s.setV fun v => { v with vt := t }
    | none => s
  | .mt => s.setV fun v => { v with mt := Space.ofBits (x.extractLsb' 0 2) }
  | .vstart => s.setV fun v => { v with vstart := bitsOf x.toNat 13 0, tilepos := x.extractLsb' 32 32 }
  | .fsr => s.setV fun v =>
      { v with fsrPoison := v.fsrPoison && !x.getLsbD 1, fsrTrim := v.fsrTrim && !x.getLsbD 0 }
  | .scnt => s.setV fun v => { v with scnt := x }
  | .tsm => s.setV fun v =>
      { v with tsmSpar := x.extractLsb' 13 2, tsmType := x.extractLsb' 8 5, tsmM := x.extractLsb' 0 8 }
  | .tsn => s.setV fun v => { v with tsn := x.extractLsb' 0 7 }
  | .tsk => s.setV fun v => { v with acur := bitsOf x.toNat 29 16, tskK := x.extractLsb' 0 10 }
  | .fpc => s.setV fun v => { v with fpc := Fpc.ofWord x }
  | .srseed => s.setV fun v => { v with srseed := x }
  | .vdecl => s.writeVdecl x
  | .tcause => s.setV fun v => { v with tcause := Tcause.ofWord x }
  | .tpc => s.setV fun v => { v with tpc := x }
  | .tval => s.setV fun v => { v with tval := x }
  | .tvec => s.setV fun v => { v with tvec := x.extractLsb' 9 55 }
  | .maxvl =>
    ((s.setCore s.v.core fun c => { c with lcen := (x.extractLsb' 0 4 &&& ~~~c.fused) ||| (c.lcen &&& c.fused) }).gatePower
      s.v.core).dueDispatch

/-- MFS. -/
def effMfs (d : SReg) (r : Spr) (s : State) : State := s.wr d (s.sprRead r)

/-- MTS. -/
def effMts (r : Spr) (a : SReg) (s : State) : State := (s.sprWrite r (s.rd a)).setV (·.mended [.special r])

/-- MFS (R413): reads a special register into a scalar register. -/
def execMfs (d : SReg) (r : Spr) (c : Bool) (s : State) : Out := alone (.mfs d r c) s (effMfs d r)
/-- MTS (R417): writes a scalar register to a special register, with the effects of Table 5. -/
def execMts (r : Spr) (a : SReg) (c : Bool) (s : State) : Out := alone (.mts r a c) s (effMts r a)

/-! ## The special registers by number (R62 Table 2), as a save area holds them -/

/-- The special registers 0x000 to 0x013, in order. -/
def savedSprs : List Spr :=
  [.vl, .mvl, .vt, .mt, .vstart, .fsr, .scnt, .lcmap, .tsm, .tsn, .tsk, .fpc, .srseed, .vlcid, .gmemb, .vdecl,
   .tcause, .tpc, .tval, .tvec]

end Sys2Proof.Machine
end

