-- ==== Sys2Proof/Machine/ScalarFp.lean ====
section
/-! DEFINITION. The scalar floating-point group (R406-R408) and FCVT (R409). -/

namespace Sys2Proof.Machine

/-- The mode of a rounding field (R128). -/
def rndMode (p : Rnd) (f : Fpc) : RMode :=
  match p with
  | .fpc => RMode.ofRm f.rm
  | .rne => .rne
  | .rtz => .rtz
  | .rup => .rup
  | .rdn => .rdn

/-- Flags ORed into FPC.FLAGS. -/
def State.raiseFlags (s : State) (f : Flags) : State :=
  if f = 0 then s else s.setV fun v => { v with fpc := { v.fpc with flags := v.fpc.flags ||| f } }

/-- A raised flag is enabled (R131). -/
def Fpc.traps (f : Fpc) (x : Flags) : Bool := f.en &&& x != 0

/-- A scalar result: its flags, then ARITH for an enabled one with rd unchanged, else the result written (R407). -/
def fpResult (i : Instr) (s : State) (d : SReg) (r : Res) (y : Word) (k : State → State) : State :=
  let s1 := s.raiseFlags r.flags
  if s.v.fpc.traps r.flags then s1.raise i (.plain .arith 0 (r.flags.setWidth 64))
  else ((k s1).wr d y).finish i

/-- A scalar floating-point instruction whose result is `f`. -/
def fpForm (i : Instr) (s : State) (d : SReg) (f : State → Res) : Out :=
  .next (checked i s fun s => fpResult i s d (f s) (BitVec.ofNat 64 (f s).bits) id)

/-- The low bits of a register, in a type (R133). -/
def State.rdAs (s : State) (t : VType) (r : SReg) : Nat := (s.rd r).toNat % 2 ^ t.width

/-- FADD (R407): computes a scalar floating-point add. -/
def execFadd (t : VType) (p : Rnd) (d a b : SReg) (s : State) : Out :=
  fpForm (.fadd t p d a b) s d fun s => fpAdd t.fmt (rndMode p s.v.fpc) false (s.rdAs t a) (s.rdAs t b)
/-- FSUB (R407): computes a scalar floating-point subtract. -/
def execFsub (t : VType) (p : Rnd) (d a b : SReg) (s : State) : Out :=
  fpForm (.fsub t p d a b) s d fun s => fpSub t.fmt (rndMode p s.v.fpc) false (s.rdAs t a) (s.rdAs t b)
/-- FMUL (R407): computes a scalar floating-point multiply. -/
def execFmul (t : VType) (p : Rnd) (d a b : SReg) (s : State) : Out :=
  fpForm (.fmul t p d a b) s d fun s => fpMul t.fmt (rndMode p s.v.fpc) false (s.rdAs t a) (s.rdAs t b)
/-- FDIV (R407): computes a scalar floating-point divide. -/
def execFdiv (t : VType) (p : Rnd) (d a b : SReg) (s : State) : Out :=
  fpForm (.fdiv t p d a b) s d fun s => fpDiv t.fmt (rndMode p s.v.fpc) false (s.rdAs t a) (s.rdAs t b)
/-- FSQRT (R407): computes a scalar floating-point square root. -/
def execFsqrt (t : VType) (p : Rnd) (d a : SReg) (s : State) : Out :=
  fpForm (.fsqrt t p d a) s d fun s => fpSqrt t.fmt (rndMode p s.v.fpc) false (s.rdAs t a)
/-- FMA (R407): computes a fused multiply-add with rd as the addend and one rounding. -/
def execFma (t : VType) (p : Rnd) (d a b : SReg) (s : State) : Out :=
  fpForm (.fma t p d a b) s d fun s => fpFma t.fmt (rndMode p s.v.fpc) false (s.rdAs t a) (s.rdAs t b) (s.rdAs t d)

/-- FCMP (R408): writes 1 or 0 for a floating-point comparison. -/
def execFcmp (t : VType) (p : FcmpCond) (d a b : SReg) (s : State) : Out :=
  fpForm (.fcmp t p d a b) s d fun s =>
    let r := fpCompare t.fmt false p.toVcmp (s.rdAs t a) (s.rdAs t b)
    { bits := if r.1 then 1 else 0, flags := r.2 }

/-- FMINMAX (R408): writes minimumNumber or maximumNumber of two values. -/
def execFminmax (t : VType) (mx : Bool) (d a b : SReg) (s : State) : Out :=
  fpForm (.fminmax t mx d a b) s d fun s => fpMinMax t.fmt mx false (s.rdAs t a) (s.rdAs t b)

/-! ## FCVT -/

/-- The mode of a conversion field (R128, R136); a draw of SRSEED for the stochastic ones. -/
def convMode (p : Conv) (f : Fpc) (seed : Word) : CvtMode :=
  match p with
  | .fpc | .sat => .mode (RMode.ofRm f.rm)
  | .rne => .mode .rne
  | .rtz => .mode .rtz
  | .rup => .mode .rup
  | .rdn => .mode .rdn
  | .sr | .srSat => .draw (srDraw (srStep seed))



/-- The generator after a draw. -/
def State.drawn (s : State) (p : Conv) : State :=
  if p == .sr || p == .srSat then s.setV fun v => { v with srseed := srStep v.srseed } else s

/-- A converted value in a scalar register (R133, R409). -/
def cvtWord (t : VType) (x : Nat) : Word := if t.isI then extend t x else BitVec.ofNat 64 x
where
  /-- An integer result extended by its type. -/
  extend (t : VType) (x : Nat) : Word := BitVec.ofInt 64 (t.int x)

/-- FCVT (R409): converts a scalar value between types. -/
def execFcvt (t : VType) (p : Conv) (u : VType) (d a : SReg) (s : State) : Out :=
  .next (checked (.fcvt t p u d a) s fun s =>
    let r := cvt t u (convMode p s.v.fpc s.v.srseed) (p == .sat || p == .srSat) ((s.rd a).toNat % 2 ^ u.width)
    fpResult (.fcvt t p u d a) s d r (cvtWord t r.bits) (·.drawn p))

end Sys2Proof.Machine
end

