-- ==== Sys2Proof/Machine/ScalarMem.lean ====
section
/-! DEFINITION. Scalar loads and stores (R410-R412), and the atomics CAS and AMO (R396, R397, R401). -/

namespace Sys2Proof.Machine

/-! ## Loads and stores -/

/-- A loaded value of a type in a scalar register (R411). -/
def extend (t : VType) (x : Nat) : Word := BitVec.ofInt 64 (t.int x)

/-- The bytes of a type. -/
def bytesIn (t : VType) : Nat := t.width / 8

/-- A load; `acq` for LDA. -/
def loadForm (i : Instr) (s : State) (t : VType) (x : Space) (d : SReg) (a : Word) (acq : Bool) : Out :=
  .next (checked i s fun s =>
    s.run i ((s.loadAt x a (bytesIn t) true).map fun r =>
      let y := extend t r.1
      (if acq then r.2.spinAcquire x a y else r.2.spinSaw x a y).wr d y))

/-- A store. -/
def storeForm (i : Instr) (s : State) (t : VType) (x : Space) (a : Word) (y : Word) : Out :=
  .next (checked i s fun s =>
    s.run i ((s.storeAt x a (bytesIn t) (y.toNat % 2 ^ t.width)).map (·.spinReset)))

/-- LD_N8 (R411): loads an unsigned byte from space 0 at ra plus an offset. -/
def execLdN8 (d a : SReg) (k : BitVec 13) (s : State) : Out := loadForm (.ldN8 d a k) s .n8 .glob d (s.rd a + simm k) false
/-- LD_N16 (R411): loads an unsigned halfword from space 0. -/
def execLdN16 (d a : SReg) (k : BitVec 13) (s : State) : Out :=
  loadForm (.ldN16 d a k) s .n16 .glob d (s.rd a + simm k) false
/-- LD_N32 (R411): loads an unsigned word from space 0. -/
def execLdN32 (d a : SReg) (k : BitVec 13) (s : State) : Out :=
  loadForm (.ldN32 d a k) s .n32 .glob d (s.rd a + simm k) false
/-- LD_N64 (R411): loads a doubleword from space 0. -/
def execLdN64 (d a : SReg) (k : BitVec 13) (s : State) : Out :=
  loadForm (.ldN64 d a k) s .n64 .glob d (s.rd a + simm k) false
/-- LD_S8 (R411): loads a sign-extended byte from space 0. -/
def execLdS8 (d a : SReg) (k : BitVec 13) (s : State) : Out := loadForm (.ldS8 d a k) s .s8 .glob d (s.rd a + simm k) false
/-- LD_S16 (R411): loads a sign-extended halfword from space 0. -/
def execLdS16 (d a : SReg) (k : BitVec 13) (s : State) : Out :=
  loadForm (.ldS16 d a k) s .s16 .glob d (s.rd a + simm k) false
/-- LD_S32 (R411): loads a sign-extended word from space 0. -/
def execLdS32 (d a : SReg) (k : BitVec 13) (s : State) : Out :=
  loadForm (.ldS32 d a k) s .s32 .glob d (s.rd a + simm k) false
/-- ST_N8 (R411): stores a byte to space 0. -/
def execStN8 (d a : SReg) (k : BitVec 13) (s : State) : Out := storeForm (.stN8 d a k) s .n8 .glob (s.rd a + simm k) (s.rd d)
/-- ST_N16 (R411): stores a halfword to space 0. -/
def execStN16 (d a : SReg) (k : BitVec 13) (s : State) : Out :=
  storeForm (.stN16 d a k) s .n16 .glob (s.rd a + simm k) (s.rd d)
/-- ST_N32 (R411): stores a word to space 0. -/
def execStN32 (d a : SReg) (k : BitVec 13) (s : State) : Out :=
  storeForm (.stN32 d a k) s .n32 .glob (s.rd a + simm k) (s.rd d)
/-- ST_N64 (R411): stores a doubleword to space 0. -/
def execStN64 (d a : SReg) (k : BitVec 13) (s : State) : Out :=
  storeForm (.stN64 d a k) s .n64 .glob (s.rd a + simm k) (s.rd d)
/-- LD_SPACE (R411): loads from cluster memory or scratchpad at ra. -/
def execLdSpace (t : VType) (x : Space) (d a : SReg) (s : State) : Out :=
  loadForm (.ldSpace t x d a) s t x d (s.rd a) false
/-- ST_SPACE (R411): stores to cluster memory or scratchpad at ra. -/
def execStSpace (t : VType) (x : Space) (d a : SReg) (s : State) : Out :=
  storeForm (.stSpace t x d a) s t x (s.rd a) (s.rd d)
/-- LDA (R412): performs an acquire load at the named scope. -/
def execLda (t : VType) (sc : Scope) (x : Space) (d a : SReg) (s : State) : Out :=
  loadForm (.lda t sc x d a) s t x d (s.rd a) true
/-- STREL (R412): performs a release store at the named scope. -/
def execStrel (t : VType) (sc : Scope) (x : Space) (d a : SReg) (s : State) : Out :=
  .next (checked (.strel t sc x d a) s fun s => s.afterStores (.strel t sc x d a) fun s =>
    s.run (.strel t sc x d a)
      ((s.storeAt x (s.rd a) (bytesIn t) ((s.rd d).toNat % 2 ^ t.width)).map (·.spinReset)))

/-- The address of a compressed load or store: s2 + 8 × B (R79, R116). -/
def stackSlot (s : State) (k : BitVec 5) : Word := s.rd 2 + 8 * k.setWidth 64

/-- C_LD (R116): compressed 64-bit load from s2 plus 8 times B. -/
def execCLd (a : SReg) (k : BitVec 5) (s : State) : Out := loadForm (.cLd a k) s .n64 .glob a (stackSlot s k) false
/-- C_ST (R116): compressed 64-bit store to s2 plus 8 times B. -/
def execCSt (a : SReg) (k : BitVec 5) (s : State) : Out := storeForm (.cSt a k) s .n64 .glob (stackSlot s k) (s.rd a)

/-! ## Atomics -/

/-- The new value of an AMO on `n` bytes (R397). -/
def amoNew (k : AmoOp) (n old y : Nat) : Nat :=
  let m := 2 ^ (8 * n)
  match k with
  | .add => (old + y) % m
  | .and => old &&& y
  | .or => old ||| y
  | .xor => old ^^^ y
  | .minS => if signed (8 * n) old ≤ signed (8 * n) y then old else y
  | .maxS => if signed (8 * n) y ≤ signed (8 * n) old then old else y
  | .minU => if old ≤ y then old else y
  | .maxU => if y ≤ old then old else y
  | .swap => y

/-- The old value an AMO returns: sign-extended for the signed minimum and maximum. -/
def amoOld (k : AmoOp) (n old : Nat) : Word :=
  match k with
  | .minS | .maxS => BitVec.ofInt 64 (signed (8 * n) old)
  | .add | .and | .or | .xor | .minU | .maxU | .swap => BitVec.ofNat 64 old

/-- The space of an atomic. -/
def atomicSpace (cm : Bool) : Space := if cm then .cmem else .glob

/-- An order that releases. -/
def releasing : MemOrder → Bool
  | .rel | .acqrel => true
  | .none | .acq => false

/-- An atomic once its order lets it go on. -/
def State.ordered (s : State) (i : Instr) (o : MemOrder) (k : State → State) : State :=
  if releasing o then s.afterStores i k else k s

/-- The bytes of an atomic. -/
def atomicBytes (w32 : Bool) : Nat := if w32 then 4 else 8

/-- AMO (R397): performs an atomic read-modify-write and returns the old value. -/
def execAmo (o : MemOrder) (cm w32 : Bool) (k : AmoOp) (sc : Scope) (d a b : SReg) (s : State) : Out :=
  .next (checked (.amo o cm w32 k sc d a b) s fun s => s.ordered (.amo o cm w32 k sc d a b) o fun s =>
    let n := atomicBytes w32
    let y := (s.rd b).toNat % 2 ^ (8 * n)
    s.run (.amo o cm w32 k sc d a b)
      ((s.rmwAt (atomicSpace cm) (s.rd a) n (.amo k n y) fun old => amoNew k n old y).map fun r =>
        (r.2.wr d (amoOld k n r.1)).spinReset))

/-- CAS (R401): performs an atomic compare and swap, returning the old value in rd. -/
def execCas (o : MemOrder) (cm w32 : Bool) (sc : Scope) (d a b : SReg) (s : State) : Out :=
  .next (checked (.cas o cm w32 sc d a b) s fun s => s.ordered (.cas o cm w32 sc d a b) o fun s =>
    let n := atomicBytes w32
    let m := 2 ^ (8 * n)
    let old := (s.rd d).toNat % m
    let new := (s.rd b).toNat % m
    s.run (.cas o cm w32 sc d a b)
      ((s.rmwAt (atomicSpace cm) (s.rd a) n (.cas n old new) fun x => if x = old then new else x).map fun r =>
        (r.2.wr d (BitVec.ofNat 64 r.1)).spinReset))

/-- A demotion ends: the core saw a write to the watched line (R47). -/
def execSpinDemotionEnd (core slot : Nat) (s : State) : Out :=
  .next (s.setVlcAt core slot fun v => if v.spin.demoted then { v with spin := Spin.idle } else v)

/-- A demoted VLC has started no convoy for 1020 ccy: it is chosen ahead of all others (R345). -/
def execDemotedIssueDue (core slot : Nat) (s : State) : Out :=
  .next (s.setVlcAt core slot fun v => if v.spin.demoted then { v with spin := { v.spin with due := true } } else v)

end Sys2Proof.Machine
end

