-- ==== Sys2Proof/Machine/Operands.lean ====
section
/-! DEFINITION. Vector operands: elements of the byte images and their relayout (R56-R58), masks (R59), lane tables (R150),
streams (R151-R157), the accesses of one element, and the vector phase of a convoy (R86, R87, R303). -/

namespace Sys2Proof.Machine

/-! ## Elements of a vector register (R56-R58, R64) -/

/-- Element `i` of a byte image at a width of `w` bits. -/
def VecReg.elem (r : VecReg) (w i : Nat) : Nat := r.img.toNat >>> (w * i) % 2 ^ w

/-- Element `i` replaced. -/
def VecReg.put (r : VecReg) (w i x : Nat) : VecReg :=
  { r with img := BitVec.ofNat 262144 (r.img.toNat - (r.elem w i) <<< (w * i) + (x % 2 ^ w) <<< (w * i)) }

/-- Element `i` at a width of `w` bits lies in a vector register: it holds MVL64 words of the last grant (R54). -/
def Vlc.fits (v : Vlc) (w i : Nat) : Bool := decide (w * (i + 1) ≤ 64 * v.mvl64)

/-- The bits an element of a type holds: an E2M1 value lies in bits 3:0 (R64). -/
def payload (t : VType) (x : Nat) : Nat := if t = .e2m1 ∨ t = .e2m1x then x % 16 else x

/-- MEMERR REG of a vector register (R301 Table 6). -/
def regStop (r : VReg) (i : Nat) : Stop := .plain .memerr 2 (fieldAt r.toNat 16 ||| fieldAt (i % 2 ^ 14) 0)

/-- What an element past the end of a register reads as: a value of its own (R54, log 15). -/
def State.beyond (s : State) (w : Nat) (r : VReg) (i : Nat) : Nat :=
  (Config.freeValue w (s.freeCtr + 2 ^ 64 * (1 + 8192 * r.toNat + i))).toNat

/-- Element `i` of a register at a width of `w` bits, for an active element. -/
def State.readRaw (s : State) (w : Nat) (r : VReg) (i : Nat) : Except Stop Nat :=
  if !s.v.fits w i then .ok (s.beyond w r i)
  else if (s.v.vreg r).poison.getLsbD (w * i / 64) then .error (regStop r i)
  else .ok ((s.v.vreg r).elem w i)

/-- Element `i` of a register in a type (R57). -/
def State.readElem (s : State) (t : VType) (r : VReg) (i : Nat) : Except Stop Nat :=
  (s.readRaw t.width r i).map (payload t)

/-- Element `i` of a register written in a type; one past the end of the register is dropped (log 15). -/
def State.writeElem (s : State) (t : VType) (r : VReg) (i x : Nat) : State :=
  if s.v.fits t.width i then s.setV fun v => v.setVreg r ((v.vreg r).put t.width i (payload t x)) else s

/-- The tag and mark after a write of a type that covers the elements below `e`, in a register of `words` words (R56). -/
def VecReg.cover (r : VecReg) (t : VType) (e words : Nat) : VecReg :=
  if e = 0 then r
  else { r with tag := BitVec.ofNat 2 t.wcode, hwm := max r.hwm (sat (8 * words) (e * t.width / 8)) }

/-- The words all of whose elements of `w` bits below `e` were written, as `act` says, lose their poison (R311). -/
def VecReg.heal (r : VecReg) (w : Nat) (act : Nat → Bool) (e : Nat) : VecReg :=
  if r.poison = 0 then r
  else
    let n := 64 / w
    let whole := (List.range (min (e / n) 4096)).filter fun j => (List.range n).all fun k => act (n * j + k)
    { r with poison := whole.foldl (fun p j => p &&& ~~~(1#4096 <<< j)) r.poison }

/-- The tag, mark and poison of a register after a write of the elements below `e` that `act` says. -/
def State.cover (s : State) (t : VType) (r : VReg) (e : Nat) (act : Nat → Bool) : State :=
  s.setV fun v => v.setVreg r (((v.vreg r).cover t e v.mvl64).heal t.width act e)

/-- The width of a register's tag, in bits. -/
def VecReg.tagWidth (r : VecReg) : Nat := 8 * 2 ^ r.tag.toNat

/-- Element `i` of an index register at its width tag, without relayout (R163, R164, R452). -/
def State.readIndex (s : State) (r : VReg) (i : Nat) : Except Stop Nat := s.readRaw (s.v.vreg r).tagWidth r i

/-- The scale companion of a block-scaled operand (R125). -/
def companion (r : VReg) : VReg := r + 1

/-! ## Masks (R59, R76) -/

/-- A bit of a mask register written. -/
def Vlc.setMaskBit (v : Vlc) (m : MReg) (i : Nat) (b : Bool) : Vlc :=
  v.setMask m (if b then v.mask m ||| 1#8192 <<< i else v.mask m &&& ~~~(1#8192 <<< i))

/-- The bits of a mask register at and above VL cleared (R59). -/
def Vlc.trimMask (v : Vlc) (m : MReg) : Vlc := v.setMask m (v.mask m &&& BitVec.ofNat 8192 (2 ^ v.vl - 1))

/-- Element `i` is active under a mask field (R433). -/
def Vlc.active (v : Vlc) (m : MReg) (i : Nat) : Bool :=
  decide (v.vstart ≤ i) && decide (i < v.vl) && (v.mask m).getLsbD i

/-! ## Lane tables (R150) -/

/-- The lane clusters of a set, in ascending order. -/
def clustersOf (lc : BitVec 4) : List Nat := (List.range 4).filter fun c => lc.getLsbD c

/-- The physical lane table of element `i`. A spread loop's strip has those of its lane cluster; once VNEXT has left the loop, the
plain map over LCMAP serves (DESIGN CHOICE, log 60). -/
def Vlc.laneTable (v : Vlc) (i : Nat) : Nat :=
  if v.mode = .spread then 16 * v.slc.toNat + i % 16
  else
    let l := clustersOf v.lc
    let t := i % (16 * l.length)
    16 * l.getD (t / 16) 0 + t % 16

/-! ## Streams (R151-R157) -/

/-- The product of the bounds of the dimensions: the number of positions. -/
def Stream.extent (q : Stream) : Nat := ((q.bounds.toList.take q.ndim).map (·.toNat)).foldl (· * ·) 1

/-- The offset of a position from BASE, over pairs of stride and bound (R154). -/
def patternOffset : List (Word × Word) → Nat → Word
  | [], _ => 0
  | (st, b) :: l, p => BitVec.ofNat 64 (p % b.toNat) * st + patternOffset l (p / b.toNat)

/-- The address of position `p`; `size` is the accessing element's byte size (R154). -/
def Stream.address (q : Stream) (size p : Nat) : Word :=
  match q.kind with
  | .tile =>
    let cols := (q.bounds[0]).toNat
    q.base + BitVec.ofNat 64 (p / cols) * q.strides[1] + BitVec.ofNat 64 (p % cols * size)
  | .pattern => q.base + patternOffset ((q.strides.toList.zip q.bounds.toList).take q.ndim) p
  | .unbound => 0
  | .topology => 0

/-- The position unit of a stream access (R155 Table 3). -/
def streamUnit (t : VType) : Nat := if t.isX then 128 else if t = .e2m1 then 2 else 1

/-- The bytes of a position: the block stride for a block-scaled type (R123), a byte of two nibbles for .e2m1. -/
def positionBytes (t : VType) : Nat := if t = .e4m3x then 136 else if t = .e2m1x then 72 else t.width / 8

/-- PROT with a stream reason (R157). -/
def streamStop (reason p : Nat) (q : QReg) : Stop :=
  .prot 2 (fieldAt reason 60 ||| fieldAt (p % 2 ^ 56) 4 ||| fieldAt q.toNat 0)

/-- A stream access touches its stream, with its unit (R155, R156). -/
def State.touch (s : State) (qn : QReg) (t : VType) : State :=
  let q := s.v.stream qn
  match q.kind with
  | .unbound => s
  | .pattern | .tile | .topology => s.setV (·.setStream qn { q with touched := true, unit := streamUnit t })

/-- An instruction that has performed elements up to `e` has taken its part in the strip: one that stops before its first
element has not (R156, R210; log 51). -/
def State.took (s : State) (e : Nat) (done : Bool) : Bool := done || decide (s.v.vstart < e)

/-- The first access through a pattern of contiguous elements or a tile binding marks its page use-once (R176). The element size is
the bytes of a position, for block-scaled types and .e2m1 too (DESIGN CHOICE, log 60). -/
def Stream.once (q : Stream) (t : VType) : Bool :=
  match q.kind with
  | .tile => true
  | .pattern => q.strides[0] == BitVec.ofNat 64 (positionBytes t)
  | .unbound => false
  | .topology => false

/-- Where a stream element lies: the address of its position, the position, and the fault of a position past the end. -/
structure At where
  addr : Word
  pos : Nat
  late : Option Stop
  deriving DecidableEq, Repr

/-- The position of element `i` of an access with unit `u` through a pattern or tile binding (R155, R157). -/
def State.streamAt (s : State) (qn : QReg) (u size i : Nat) : Except Stop At :=
  let q := s.v.stream qn
  let p := q.pos + i / u
  match q.kind with
  | .unbound => .error (streamStop 1 0 qn)
  | .topology => .error (streamStop 2 p qn)
  | .pattern | .tile =>
    .ok { addr := q.address size p, pos := p, late := if q.extent ≤ p then some (streamStop 3 p qn) else none }

/-! ## The access of one element -/

/-- The faults that come after PROT in R302 give way to a stream fault. -/
def lateFirst (late : Stop) : Stop → Stop
  | .trap .memerr _ _ _ => late
  | .trap .fabric _ _ _ => late
  | e => e

/-- An element's access to space 0 whose position lies past the end of its stream (R157): what R302 puts before. -/
def State.lateStop (s : State) (q : Req) (late : Stop) : Stop :=
  match s.granted s.party q with
  | .error e => lateFirst late e
  | .ok r =>
    if epOf r.pa = s.endpoint then late
    else match s.probed s.party q r with
    | .error e => lateFirst late e
    | .ok () => late

/-- An element's access in a space, as its checks see it. -/
structure Elt where
  space : Space
  addr : Word
  bytes : Nat
  elem : Nat
  once : Bool
  late : Option Stop
  deriving DecidableEq, Repr

/-- The request of an access to space 0. -/
def Elt.req (a : Elt) (k : AccKind) : Req :=
  { va := a.addr, n := a.bytes, kind := k, elem := a.elem, reg := false, once := a.once }

/-- The checks of an access that need no translation: ALIGN, the bounds of a space other than 0, and then a stream fault. -/
def Elt.check (a : Elt) (s : State) (k : AccKind) : Except Stop Unit :=
  if !alignOk a.addr.toNat a.bytes then .error (misaligned a.space a.addr)
  else match a.space with
  | .glob =>
    match a.late with
    | some e => .error (s.lateStop (a.req k) e)
    | none => .ok ()
  | .cmem | .spad | .lane =>
    if !inSpace a.space a.addr.toNat a.bytes then .error (.prot 5 a.addr)
    else match a.late with
    | some e => .error e
    | none => .ok ()

/-- Where an access to a space other than 0 lies in its memory. -/
def Elt.key (a : Elt) (s : State) : Nat :=
  if a.space = .lane then laneKey (s.v.laneTable a.elem) a.addr.toNat else a.addr.toNat

/-- An element loaded. -/
def State.vload (s : State) (a : Elt) : Except Stop (Nat × State) := do
  a.check s .load
  match a.space with
  | .glob => s.load s.party (a.req .load)
  | .cmem => .ok (s.spaceRead .cmem (a.key s) a.bytes, s)
  | .spad => .ok (s.spaceRead .spad (a.key s) a.bytes, s)
  | .lane => .ok (s.spaceRead .lane (a.key s) a.bytes, s)

/-- An element stored. -/
def State.vstore (s : State) (a : Elt) (x : Nat) : Except Stop State := do
  a.check s .store
  match a.space with
  | .glob => s.store s.party (a.req .store) x
  | .cmem => .ok (s.spaceWrite .cmem (a.key s) a.bytes x)
  | .spad => .ok (s.spaceWrite .spad (a.key s) a.bytes x)
  | .lane => .ok (s.spaceWrite .lane (a.key s) a.bytes x)

/-- One nibble of a byte stored (R149). -/
def State.vnibble (s : State) (a : Elt) (hi : Bool) (x : Nat) : Except Stop State := do
  a.check s .store
  match a.space with
  | .glob => s.storeNibble s.party (a.req .store) hi x
  | .cmem => .ok (s.spaceWrite .cmem (a.key s) 1 (putNibble hi x (s.spaceRead .cmem (a.key s) 1)))
  | .spad => .ok (s.spaceWrite .spad (a.key s) 1 (putNibble hi x (s.spaceRead .spad (a.key s) 1)))
  | .lane => .ok (s.spaceWrite .lane (a.key s) 1 (putNibble hi x (s.spaceRead .lane (a.key s) 1)))

/-- An element of a space other than 0 read, and `f` of it written. -/
def State.vrmw (s : State) (a : Elt) (f : Nat → Nat) : Nat × State :=
  let put (x : Space) : Nat × State :=
    let old := s.spaceRead x (a.key s) a.bytes
    (old, s.spaceWrite x (a.key s) a.bytes (f old))
  match a.space with
  | .glob => (0, s)
  | .cmem => put .cmem
  | .spad => put .spad
  | .lane => put .lane

/-- The place of a stop in the order of R302 within an element; what is not yet known comes first. -/
def Stop.rank : Stop → Nat
  | .remote .. | .drain | .cut => 0
  | .trap .align _ _ _ => 1
  | .trap .page _ _ _ => 2
  | .trap .prot sub _ _ => 3 + [5, 6, 1, 3, 7, 4, 2].idxOf sub
  | .trap .watch _ _ _ => 20
  | _ => 30

/-- What stops an access before its data (R302). -/
def State.tries (s : State) (k : AccKind) (a : Elt) : Option Stop :=
  match a.check s k with
  | .error e => some e
  | .ok () =>
    match a.space with
    | .glob =>
      match s.resolve s.party (a.req k) with
      | .error e => some e
      | .ok _ => none
    | .cmem | .spad | .lane => none

/-- The checks of every access of one element, before the data of any (R302). -/
def State.allowed (s : State) (k : AccKind) (l : List Elt) : Except Stop Unit :=
  let es := (l.filterMap (s.tries k)).filter fun e => decide (e.rank < 30)
  match es.find? fun e => es.all fun x => decide (e.rank ≤ x.rank) with
  | some e => .error e
  | none => .ok ()

/-- A value in memory that an element may be one nibble of. -/
inductive Part where
  | whole
  | nibble (hi : Bool)
  deriving DecidableEq, Repr

/-- An element, or a nibble, loaded. -/
def State.loadPart (s : State) (a : Elt) (p : Part) : Except Stop (Nat × State) :=
  match p with
  | .whole => s.vload a
  | .nibble hi => (s.vload a).map fun r => (if hi then r.1 / 16 else r.1 % 16, r.2)

/-- An element, or a nibble, stored. -/
def State.storePart (s : State) (a : Elt) (p : Part) (x : Nat) : Except Stop State :=
  match p with
  | .whole => s.vstore a x
  | .nibble hi => s.vnibble a hi x

/-! ## Vector members -/

/-- A vector or accumulator-port member of a convoy: whether it is fault-only-first and its trim unit (R160); whether it converts
blocks of 128, so that its convoy begins and stops at them (R87, R444); whether it writes groups of 128, so that its convoy stops at
them (R161, R172); whether it is a release (R185); which elements are active, what element `i` does,
given the state in which the member began, what the end of its run over
the elements below `e` does (`done` when it completed), and the address a gather or scatter touches (R305). An element may stop for
a later element of its block. -/
structure Member where
  fof : Bool
  tu : Nat
  block : Bool
  group : Bool
  release : Bool
  active : Vlc → Nat → Bool
  elem : State → State → Nat → Except (Nat × Stop) State
  close : State → Nat → Bool → State
  touch : State → Nat → Option (Word × AccKind)

/-- A member whose element `i` does `elem`: not fault-only-first, one element at a time, no release. -/
def Member.each (active : Vlc → Nat → Bool) (elem : State → Nat → Except (Nat × Stop) State) (close : State → Nat → Bool → State)
    (touch : State → Nat → Option (Word × AccKind)) : Member where
  fof := false
  tu := 1
  block := false
  group := false
  release := false
  active := active
  elem := fun _ => elem
  close := close
  touch := touch

/-- A member that accesses no memory. A mask that an earlier member of the convoy wrote is read as written (R86). -/
def Member.plain (active : Vlc → Nat → Bool) (elem : State → Nat → Except Stop State)
    (close : State → Nat → Bool → State) : Member :=
  Member.each active (fun s i => if active s.v i then (elem s i).mapError fun e => (i, e) else .ok s) close fun _ _ => none

/-- A member that writes register `d` in type `t`: element `i`, when active, takes what `f` computes. -/
def Member.writes (t : VType) (m : MReg) (d : VReg) (f : State → Nat → Except Stop (Nat × State)) : Member :=
  Member.plain (fun v i => v.active m i)
    (fun s i => (f s i).map fun r => r.2.writeElem t d i r.1)
    (fun s e _ => s.cover t d e (s.v.active m))

/-! ## The vector phase (R86, R87, R160, R303) -/

/-- Elements from `i`, `n` of them, as far as none stops. -/
def runElems (f : State → Nat → Except (Nat × Stop) State) (s : State) (i : Nat) : Nat → State × Option (Nat × Stop)
  | 0 => (s, none)
  | n + 1 =>
    match f s i with
    | .error e => (s, some e)
    | .ok s1 => runElems f s1 (i + 1) n

/-- The faults that a fault-only-first load trims for. -/
def Stop.trims : Stop → Bool
  | .trap .page _ _ _ => true
  | .trap .prot _ _ _ => true
  | .trap .align _ _ _ => true
  | _ => false

/-- A stop a member met: the element, the stop and the member. -/
structure Met where
  at_ : Nat
  stop : Stop
  member : Member

/-- The stops found so far: the first of the fault-only-first members and the first of every other kind. -/
structure Found where
  trim : Option Met
  stop : Option Met

/-- One past the last element that still matters. -/
def Found.bound (f : Found) (hi : Nat) : Nat :=
  let g (o : Option Met) (b : Nat) : Nat := match o with | some x => min b (x.at_ + 1) | none => b
  g f.trim (g f.stop hi)

/-- The lower of two stops, the earlier member on a tie. -/
def lower (o : Option Met) (x : Met) : Option Met :=
  match o with
  | some y => if x.at_ < y.at_ then some x else some y
  | none => some x

/-- A stop added to those found. -/
def Found.add (f : Found) (x : Met) : Found :=
  if x.member.fof && x.stop.trims then { f with trim := lower f.trim x } else { f with stop := lower f.stop x }

/-- Every member in program order, over the elements from `lo` to `hi` that still matter, each with its end before the next (R86):
the stops they meet. -/
def discover (lo hi : Nat) (done : Bool) : List Member → State → Found → State × Found
  | [], s, f => (s, f)
  | m :: l, s, f =>
    let b := f.bound hi
    let s := if m.release then s.setV fun v => { v with early := false } else s
    match runElems (m.elem s) s lo (b - lo) with
    | (s1, none) => discover lo hi done l (m.close s1 b (done && b == hi)) f
    | (s1, some (e, st)) => discover lo hi done l (m.close s1 e false) (f.add { at_ := e, stop := st, member := m })

/-- Every member over the elements from `lo` to `hi`, none of which stops, each with its end. -/
def performAll (lo hi : Nat) (l : List Member) (s : State) : State :=
  l.foldl (fun s m =>
    let s := if m.release then s.setV fun v => { v with early := false } else s
    m.close (runElems (m.elem s) s lo (hi - lo)).1 hi false) s

/-- The hint of one element (R305): the page, and whether the access writes. -/
def State.hintAt (s : State) (m : Member) (i : Nat) : Option Word :=
  match m.touch s i with
  | none => none
  | some (a, k) =>
    match s.resolve { s.party with watch := false } (.mem a 1 k i) with
    | .error (.trap .page 1 b _) =>
      some (b / 65536#64 * 65536#64 ||| (if k = .load then 0 else 1))
    | _ => none

/-- The hints of the elements from `i`, `n` of them: the pending pages, at most eight. -/
def State.hintsFrom (s : State) (ms : List Member) (i : Nat) (got : List Word) : Nat → List Word
  | 0 => got
  | n + 1 =>
    if 8 ≤ got.length then got.take 8
    else
      let new := (ms.filterMap fun m => s.hintAt m i).foldl
        (fun g x => if g.any fun y => y / 65536#64 == x / 65536#64 then g else g ++ [x]) got
      s.hintsFrom ms (i + 1) new n

/-- The fault record's hints filled in, for a PAGE trap at element `e`. -/
def State.hinted (s : State) (ms : List Member) (e : Nat) (st : Stop) : Stop :=
  match st with
  | .trap .page sub t (some f) =>
    .trap .page sub t (some { f with hints := (s.hintsFrom ms (e + 1) [] (s.v.vl - (e + 1))).take 8 })
  | st => st

/-- The flags of the element that ARITH stops are kept (R131), but for those of a block that is converted again (R444). -/
def State.arithFlags (s : State) (x : Met) : State :=
  match x.stop with
  | .trap .arith _ t _ => if x.member.block then s else s.raiseFlags (t.setWidth 5)
  | _ => s

/-- How a vector phase ends. -/
inductive Phased where
  /-- It completed. -/
  | done (s : State)
  /-- It stopped, with the state to trap in. -/
  | stopped (s : State) (e : Stop)

/-- A wave or a ripe forced pre-emption stops the VLC at the next element that asks another endpoint. -/
def Vlc.halts (v : Vlc) : Bool := v.freezing || v.due

/-- The element at which a stop of element `e` takes effect (R87, R161, R444). A convoy that writes groups stops at one, or where it
began (DEDUCED, log 61). -/
def stopPoint (ms : List Member) (lo e : Nat) : Nat :=
  if ms.any (·.block) then e / 128 * 128 else if ms.any (·.group) then max lo (e / 128 * 128) else e

/-- The stop of the elements at and above `e` with everything below performed. -/
def stopAt (ms : List Member) (lo e : Nat) (s : State) (flags : State → State) (st : Stop) : Phased :=
  let e := stopPoint ms lo e
  .stopped ((flags (performAll lo e ms s)).setV fun v => { v with vstart := e }) st

/-- A stop that a member met: a trap at its element; data of another endpoint is waited for, and the convoy then begins again, unless
a wave is to stop it there (R370). -/
def stopMet (ms : List Member) (lo : Nat) (s0 s : State) (x : Met) : Phased :=
  match x.stop with
  | .trap _ _ _ _ => stopAt ms lo x.at_ s (·.arithFlags x) (s.hinted ms x.at_ x.stop)
  | .remote key ep pa op => if s.v.halts then stopAt ms lo x.at_ s id .cut else .stopped s0 (.remote key ep pa op)
  | .drain | .cut => .stopped s0 x.stop

/-- The element below which a fault-only-first member that faults at `x` trims, and whether it trims (R160). -/
def trimPoint (lo : Nat) (s : State) (x : Met) : Option Nat :=
  let t := x.member.tu * (x.at_ / x.member.tu)
  if lo < t ∧ ((List.range (t - lo)).any fun k => x.member.active s.v (lo + k)) then some t else none

/-- A convoy whose fault-only-first member faults at `x`, and another member perhaps at `y` (R160, R303): it trims and completes over
the elements that are left, unless one of these stops it. -/
def trimMet (ms : List Member) (lo : Nat) (s0 s : State) (x : Met) (y : Option Met) : Phased :=
  let below := y.filter fun y => decide (y.at_ < x.at_)
  match trimPoint lo s x with
  | none =>
    match below with
    | some y => stopMet ms lo s0 s y
    | none => .stopped (ms.foldl (fun s m => m.close s lo false) s) (s.hinted ms x.at_ x.stop)
  | some t =>
    let r := discover lo t true ms (s.setV fun v => { v with vl := t, fsrTrim := true }) { trim := none, stop := none }
    match r.2.stop, below.filter fun y => decide (t ≤ y.at_) with
    | some z, _ => stopMet ms lo s0 s z
    | none, some y => stopMet ms lo s0 s y
    | none, none => .done r.1

/-- The elements of a phase: from VSTART.ELEM, or the start of its block, to VL - 1. -/
def phaseLo (ms : List Member) (s : State) : Nat := if ms.any (·.block) then s.v.vstart / 128 * 128 else s.v.vstart

/-- The vector phase over the elements from VSTART.ELEM to VL - 1. At or above VL it completes with no element performed (R417); a
forced pre-emption or a wave may stop it at an element (R87). -/
def phaseRun (ms : List Member) (s0 : State) : Phased :=
  let lo := phaseLo ms s0
  let s := s0.setV fun v => { v with vstart := lo }
  let vl := s.v.vl
  if vl = 0 then .done s
  else if vl ≤ lo then .done (ms.foldl (fun s m => m.close s vl true) s)
  else
    let hi := match s.v.cut with
      | some e => min vl (max lo e)
      | none => vl
    let r := discover lo hi (hi == vl) ms s { trim := none, stop := none }
    match r.2.trim, r.2.stop with
    | some x, y => trimMet ms lo s0 s x y
    | none, some y => stopMet ms lo s0 s y
    | none, none => if hi = vl then .done r.1 else stopAt ms lo hi s id .cut

/-- Where a phase ended: VL, or the element it stops at; none when it begins again. -/
def Phased.reached : Phased → Option Nat
  | .done s => some s.v.vl
  | .stopped s (.trap ..) | .stopped s .cut => some s.v.vstart
  | .stopped _ (.remote ..) | .stopped _ .drain => none

/-- The members ahead of a release (R185): their stores to other endpoints, from `lo` to `e`, are sent and performed before the
release member stores. -/
def earlyPosts (ms : List Member) (s0 : State) (e : Nat) : Option State :=
  let pre := ms.takeWhile fun m => !m.release
  if pre.length = ms.length ∨ s0.v.early then none
  else
    let lo := phaseLo ms s0
    let s1 := performAll lo e pre (s0.setV fun v => { v with vstart := lo, vl := min v.vl e })
    if s1.v.stores = s0.v.stores then none
    else some { s0 with outbox := s1.outbox, withheld := s1.withheld, nextReq := s1.nextReq, v := { s0.v with stores := s1.v.stores, early := true } }

/-- A phase that found stores of its members already sent: they are outstanding no more. -/
def Phased.sent : Phased → Phased
  | .done s => .done (s.setV fun v => { v with stores := v.stores.filter (·.id != 0) })
  | .stopped s e => .stopped (s.setV fun v => { v with stores := v.stores.filter (·.id != 0) }) e

/-- The vector phase; ahead of a release the stores of the members before it. -/
def vectorPhase (ms : List Member) (s0 : State) : Phased :=
  let r := phaseRun ms s0
  if ms.all (!·.release) then r
  else if s0.v.early then r.sent
  else match r.reached with
  | none => r
  | some e =>
    match earlyPosts ms s0 e with
    | some s1 => .stopped s1 .drain
    | none => r

/-- VSTART := 0 (R86). -/
def State.clearVstart (s : State) : State := s.setV fun v => { v with vstart := 0, tilepos := 0 }

/-- A vector or accumulator-port member that is a convoy of its own. -/
def vectorAlone (i : Instr) (s : State) (m : Member) : Out :=
  .next (checked i s fun s =>
    match vectorPhase [m] s with
    | .done s1 => s1.clearVstart.finish i
    | .stopped s1 e => s1.raise i e)

/-- A whole-vector instruction (R436): VSTART.ELEM counts as 0, but at or above VL nothing is performed, and only `left`, what a
completed write leaves, happens; `always` marks those that run whatever VSTART.ELEM holds (R415, R416). -/
def wholeAlone (i : Instr) (s : State) (always : Bool) (left : State → State) (f : State → Except Stop State) : Out :=
  .next (checked i s fun s =>
    if s.v.vl = 0 then s.clearVstart.finish i
    else if s.v.vl ≤ s.v.vstart ∧ !always then (left s).clearVstart.finish i
    else
      let s0 := s.setV fun v => { v with vstart := 0 }
      match f s0 with
      | .ok s1 => s1.clearVstart.finish i
      | .error e => s0.raise i e)

end Sys2Proof.Machine
end

