-- ==== Sys2Proof/Machine/Vector.lean ====
section
/-! DEFINITION. Vector integer instructions (R437), compares and masks (R438, R414-R416), VSPLAT, VMERGE and VIDX (R456, R451,
R83), and the whole-vector instructions on elements (R439, R440, R452, R455) with VRED and VSCAN (R453, R454, R143, R144). -/

namespace Sys2Proof.Machine

/-! ## Element-wise members -/

/-- Every element from VSTART.ELEM to VL - 1 is active. -/
def allActive (v : Vlc) (i : Nat) : Bool := v.active 0 i

/-- A member of two sources in its type. -/
def vec2op (t : VType) (m : MReg) (d a b : VReg) (f : Nat → Nat → Nat) : Member :=
  .writes t m d fun s i => do
    let x ← s.readElem t a i
    let y ← s.readElem t b i
    .ok (f x y % 2 ^ t.width, s)

/-- VADD. -/
def memAdd (t : VType) (m : MReg) (d a b : VReg) : Member := vec2op t m d a b fun x y => x + y
/-- VSUB. -/
def memSub (t : VType) (m : MReg) (d a b : VReg) : Member := vec2op t m d a b fun x y => x + 2 ^ t.width - y
/-- VMUL. -/
def memMul (t : VType) (m : MReg) (d a b : VReg) : Member := vec2op t m d a b fun x y => x * y
/-- VMULH. -/
def memMulh (t : VType) (m : MReg) (d a b : VReg) : Member := vec2op t m d a b (intMulh t.isSigned t.width)
/-- VAND. -/
def memAnd (t : VType) (m : MReg) (d a b : VReg) : Member := vec2op t m d a b fun x y => x &&& y
/-- VOR. -/
def memOr (t : VType) (m : MReg) (d a b : VReg) : Member := vec2op t m d a b fun x y => x ||| y
/-- VXOR. -/
def memXor (t : VType) (m : MReg) (d a b : VReg) : Member := vec2op t m d a b fun x y => x ^^^ y
/-- VSHL. -/
def memShl (t : VType) (m : MReg) (d a b : VReg) : Member := vec2op t m d a b fun x y => x <<< (y % t.width)
/-- VSHR. -/
def memShr (t : VType) (m : MReg) (d a b : VReg) : Member := vec2op t m d a b fun x y => x >>> (y % t.width)
/-- VSHRA. -/
def memShra (t : VType) (m : MReg) (d a b : VReg) : Member :=
  vec2op t m d a b fun x y => low t.width (signed t.width x / (2 ^ (y % t.width) : Nat))
/-- VMIN. -/
def memMin (t : VType) (m : MReg) (d a b : VReg) : Member := vec2op t m d a b (t.minMax false)
/-- VMAX. -/
def memMax (t : VType) (m : MReg) (d a b : VReg) : Member := vec2op t m d a b (t.minMax true)
/-- VSADD. -/
def memSadd (t : VType) (m : MReg) (d a b : VReg) : Member := vec2op t m d a b fun x y => t.clamp (t.int x + t.int y)
/-- VSSUB. -/
def memSsub (t : VType) (m : MReg) (d a b : VReg) : Member := vec2op t m d a b fun x y => t.clamp (t.int x - t.int y)

/-- VSPLAT (R456). -/
def memSplat (t : VType) (m : MReg) (d : VReg) (a : SReg) : Member :=
  .writes t m d fun s _ => .ok ((s.rd a).toNat % 2 ^ t.width, s)

/-- VMERGE (R451): it reads only the source it selects. -/
def memMerge (t : VType) (m : MReg) (d a b : VReg) : Member :=
  .writes t 0 d fun s i => do
    let x ← s.readElem t (if m ≠ 0 ∧ (s.v.mask m).getLsbD i then a else b) i
    .ok (x, s)

/-- The type of a width code of VIDX. -/
def widthType (w : BitVec 2) : VType := if w = 0 then .n8 else if w = 1 then .n16 else if w = 2 then .n32 else .n64

/-- VIDX (R83): from `first`, each next element `step` on. -/
def memIdx (step first : BitVec 8) (w : BitVec 2) (d : VReg) : Member :=
  .writes (widthType w) 0 d fun s i => .ok (low (widthType w).width (first.toInt + i * step.toInt), s)

/-- A member that writes bits of a mask register (R59). -/
def Member.maskBits (d : MReg) (f : State → Nat → Except Stop (Bool × State)) : Member :=
  .plain allActive (fun s i => (f s i).map fun r => r.2.setV (·.setMaskBit d i r.1))
    (fun s _ done => if done then s.setV (·.trimMask d) else s)

/-- The result of an element: ARITH for an enabled flag, else its flags set (R131). -/
def State.flagged (s : State) (f : Flags) : Except Stop State :=
  if s.v.fpc.traps f then .error (.plain .arith 0 (f.setWidth 64)) else .ok (s.raiseFlags f)

/-- FTZ as it applies to a vector instruction's type (R132). -/
def State.ftzFor (s : State) (t : VType) : Bool := s.v.fpc.ftz && (t == .f32 || t == .f16)

/-- VCMP (R438). -/
def memCmp (t : VType) (p : VcmpCond) (d : MReg) (a b : VReg) : Member :=
  .maskBits d fun s i => do
    let x ← s.readElem t a i
    let y ← s.readElem t b i
    if t.isI then .ok (t.compare p x y, s)
    else
      let r := fpCompare t.fmt (s.ftzFor t) p x y
      let s1 ← s.flagged r.2
      .ok (r.1, s1)

/-- The operations of MLOG (R414). -/
def logBit (p : LogOp) (a b : Bool) : Bool :=
  match p with
  | .and => a && b
  | .or => a || b
  | .xor => a != b
  | .andn => a && !b
  | .orn => a || !b
  | .nand => !(a && b)
  | .nor => !(a || b)
  | .xnor => a == b

/-- MLOG (R414). -/
def memLog (p : LogOp) (d a b : MReg) : Member :=
  .maskBits d fun s i => .ok (logBit p ((s.v.mask a).getLsbD i) ((s.v.mask b).getLsbD i), s)

/-- VADD (R437): adds two vectors element by element, modulo 2^w. -/
def execVadd (t : VType) (m : MReg) (d a b : VReg) (c : Bool) (s : State) : Out :=
  vectorAlone (.vadd t m d a b c) s (memAdd t m d a b)
/-- VSUB (R437): subtracts two vectors element by element. -/
def execVsub (t : VType) (m : MReg) (d a b : VReg) (c : Bool) (s : State) : Out :=
  vectorAlone (.vsub t m d a b c) s (memSub t m d a b)
/-- VMUL (R437): multiplies two vectors element by element, keeping the low bits. -/
def execVmul (t : VType) (m : MReg) (d a b : VReg) (c : Bool) (s : State) : Out :=
  vectorAlone (.vmul t m d a b c) s (memMul t m d a b)
/-- VMULH (R437): writes the high half of each element product. -/
def execVmulh (t : VType) (m : MReg) (d a b : VReg) (c : Bool) (s : State) : Out :=
  vectorAlone (.vmulh t m d a b c) s (memMulh t m d a b)
/-- VAND (R437): computes the element-wise bitwise AND. -/
def execVand (t : VType) (m : MReg) (d a b : VReg) (c : Bool) (s : State) : Out :=
  vectorAlone (.vand t m d a b c) s (memAnd t m d a b)
/-- VOR (R437): computes the element-wise bitwise OR. -/
def execVor (t : VType) (m : MReg) (d a b : VReg) (c : Bool) (s : State) : Out :=
  vectorAlone (.vor t m d a b c) s (memOr t m d a b)
/-- VXOR (R437): computes the element-wise bitwise XOR. -/
def execVxor (t : VType) (m : MReg) (d a b : VReg) (c : Bool) (s : State) : Out :=
  vectorAlone (.vxor t m d a b c) s (memXor t m d a b)
/-- VSHL (R437): shifts each element left. -/
def execVshl (t : VType) (m : MReg) (d a b : VReg) (c : Bool) (s : State) : Out :=
  vectorAlone (.vshl t m d a b c) s (memShl t m d a b)
/-- VSHR (R437): shifts each element right logically. -/
def execVshr (t : VType) (m : MReg) (d a b : VReg) (c : Bool) (s : State) : Out :=
  vectorAlone (.vshr t m d a b c) s (memShr t m d a b)
/-- VSHRA (R437): shifts each element right arithmetically. -/
def execVshra (t : VType) (m : MReg) (d a b : VReg) (c : Bool) (s : State) : Out :=
  vectorAlone (.vshra t m d a b c) s (memShra t m d a b)
/-- VMIN (R437): writes the element-wise minimum. -/
def execVmin (t : VType) (m : MReg) (d a b : VReg) (c : Bool) (s : State) : Out :=
  vectorAlone (.vmin t m d a b c) s (memMin t m d a b)
/-- VMAX (R437): writes the element-wise maximum. -/
def execVmax (t : VType) (m : MReg) (d a b : VReg) (c : Bool) (s : State) : Out :=
  vectorAlone (.vmax t m d a b c) s (memMax t m d a b)
/-- VSADD (R437): adds element by element with saturation. -/
def execVsadd (t : VType) (m : MReg) (d a b : VReg) (c : Bool) (s : State) : Out :=
  vectorAlone (.vsadd t m d a b c) s (memSadd t m d a b)
/-- VSSUB (R437): subtracts element by element with saturation. -/
def execVssub (t : VType) (m : MReg) (d a b : VReg) (c : Bool) (s : State) : Out :=
  vectorAlone (.vssub t m d a b c) s (memSsub t m d a b)
/-- VSPLAT (R456): broadcasts a scalar to the active elements. -/
def execVsplat (t : VType) (m : MReg) (d : VReg) (a : SReg) (c : Bool) (s : State) : Out :=
  vectorAlone (.vsplat t m d a c) s (memSplat t m d a)
/-- VMERGE (R451): selects each element from va or vb by the mask. -/
def execVmerge (t : VType) (m : MReg) (d a b : VReg) (c : Bool) (s : State) : Out :=
  vectorAlone (.vmerge t m d a b c) s (memMerge t m d a b)
/-- VIDX (R83): writes start plus i times step to each element. -/
def execVidx (step first : BitVec 8) (w : BitVec 2) (d : VReg) (c : Bool) (s : State) : Out :=
  vectorAlone (.vidx step first w d c) s (memIdx step first w d)
/-- VCMP (R438): compares two vectors into a mask register. -/
def execVcmp (t : VType) (p : VcmpCond) (d : MReg) (a b : VReg) (c : Bool) (s : State) : Out :=
  vectorAlone (.vcmp t p d a b c) s (memCmp t p d a b)
/-- MLOG (R414): combines two masks bit by bit. -/
def execMlog (p : LogOp) (d a b : MReg) (c : Bool) (s : State) : Out :=
  vectorAlone (.mlog p d a b c) s (memLog p d a b)

/-! ## Mask counts (R415, R416) -/

/-- The lowest set bit below VL of a mask register; VL when there is none. -/
def firstSet (x : Nat) (i : Nat) : Nat → Nat
  | 0 => i
  | n + 1 => if x.testBit i then i else firstSet x (i + 1) n

/-- The bits of a mask register below VL. -/
def Vlc.maskBelow (v : Vlc) (m : MReg) : Nat := (v.mask m).toNat % 2 ^ v.vl

/-- MPOPC (R415): counts the set mask bits below VL. -/
def execMpopc (d : SReg) (a : MReg) (s : State) : Out :=
  wholeAlone (.mpopc d a) s true id fun s => .ok (s.wr d (BitVec.ofNat 64 (ones s.v.vl (s.v.maskBelow a))))

/-- MFIRST (R415): writes the index of the lowest set mask bit below VL. -/
def execMfirst (d : SReg) (a : MReg) (s : State) : Out :=
  wholeAlone (.mfirst d a) s true id fun s =>
    let f := firstSet (s.v.maskBelow a) 0 s.v.vl
    .ok (s.wr d (if f < s.v.vl then BitVec.ofNat 64 f else BitVec.allOnes 64))

/-- MSBF (R416): sets the mask bits before the first set bit of ma. -/
def execMsbf (d a : MReg) (s : State) : Out :=
  wholeAlone (.msbf d a) s true id fun s =>
    .ok (s.setV (·.setMask d (BitVec.ofNat 8192 (2 ^ firstSet (s.v.maskBelow a) 0 s.v.vl - 1))))

/-! ## Whole-vector instructions on elements -/

/-- Values computed for elements from `i`, `n` of them, before anything is written; none for an element not written. -/
def gatherElems (f : Nat → Except Stop (Option Nat)) (i : Nat) : Nat → Except Stop (List (Nat × Nat))
  | 0 => .ok []
  | n + 1 => do
    let x ← f i
    let l ← gatherElems f (i + 1) n
    .ok (match x with | some y => (i, y) :: l | none => l)

/-- Elements written in a type. -/
def State.writeElems (s : State) (t : VType) (d : VReg) (l : List (Nat × Nat)) : State :=
  l.foldl (fun s x => s.writeElem t d x.1 x.2) s

/-- The tag and mark of a whole-vector write that performed no element (R56, R417). -/
def coverNone (t : VType) (d : VReg) (s : State) : State := s.cover t d s.v.vl fun _ => false

/-- A whole-vector write of the elements that `f` gives. -/
def wholeWrite (t : VType) (d : VReg) (s : State) (f : Nat → Except Stop (Option Nat)) : Except Stop State := do
  let l ← gatherElems f 0 s.v.vl
  .ok ((s.writeElems t d l).cover t d s.v.vl fun i => (l.map (·.1)).contains i)

/-- VEXT (R440): extracts element k of a vector into a scalar. -/
def execVext (t : VType) (d : SReg) (a : VReg) (b : SReg) (s : State) : Out :=
  wholeAlone (.vext t d a b) s false id fun s =>
    let k := (s.rd b).toNat
    if k < s.v.vl then (s.readElem t a k).map fun x => s.wr d (cvtWord t x) else .ok (s.wr d 0)

/-- VINS (R440): inserts a scalar into element k of a vector. -/
def execVins (t : VType) (d : VReg) (a b : SReg) (s : State) : Out :=
  wholeAlone (.vins t d a b) s false (coverNone t d) fun s =>
    let k := (s.rd b).toNat
    let s1 := if k < s.v.vl then s.writeElem t d k ((s.rd a).toNat % 2 ^ t.width) else s
    .ok (s1.cover t d s.v.vl fun i => i == k)

/-- VPERM (R452): permutes elements by an index vector. -/
def execVperm (t : VType) (m : MReg) (d a b : VReg) (s : State) : Out :=
  wholeAlone (.vperm t m d a b) s false (coverNone t d) fun s =>
    wholeWrite t d s fun i =>
      if s.v.active m i then do
        let k ← s.readIndex b i
        if k < s.v.vl then (s.readElem t a k).map some else .ok (some 0)
      else .ok none

/-- VSLIDEUP (R455): slides elements up by a scalar amount. -/
def execVslideup (t : VType) (m : MReg) (d a : VReg) (b : SReg) (s : State) : Out :=
  wholeAlone (.vslideup t m d a b) s false (coverNone t d) fun s =>
    let k := (s.rd b).toNat
    wholeWrite t d s fun i =>
      if s.v.active m i ∧ k ≤ i then (s.readElem t a (i - k)).map some else .ok none

/-- VSLIDEDN (R455): slides elements down by a scalar amount. -/
def execVslidedn (t : VType) (m : MReg) (d a : VReg) (b : SReg) (s : State) : Out :=
  wholeAlone (.vslidedn t m d a b) s false (coverNone t d) fun s =>
    let k := (s.rd b).toNat
    wholeWrite t d s fun i =>
      if s.v.active m i then
        if i + k < s.v.vl then (s.readElem t a (i + k)).map some else .ok (some 0)
      else .ok none

/-- The active elements, in ascending order. -/
def Vlc.activeList (v : Vlc) (m : MReg) : List Nat := (List.range v.vl).filter fun i => v.active m i

/-- The values of elements read in a type. -/
def State.readElems (s : State) (t : VType) (a : VReg) : List Nat → Except Stop (List Nat)
  | [] => .ok []
  | i :: l => do
    let x ← s.readElem t a i
    let r ← s.readElems t a l
    .ok (x :: r)

/-- VCOMPRESS (R439): packs the active elements to the front of vd. -/
def execVcompress (t : VType) (m : MReg) (d a : VReg) (s : State) : Out :=
  wholeAlone (.vcompress t m d a) s false (coverNone t d) fun s => do
    let l ← s.readElems t a (s.v.activeList m)
    .ok ((s.writeElems t d ((List.range l.length).zip l)).cover t d s.v.vl fun i => decide (i < l.length))

/-- VEXPAND (R439): unpacks consecutive elements into the active positions. -/
def execVexpand (t : VType) (m : MReg) (d a : VReg) (s : State) : Out :=
  wholeAlone (.vexpand t m d a) s false (coverNone t d) fun s => do
    let act := s.v.activeList m
    let l ← s.readElems t a (List.range act.length)
    .ok ((s.writeElems t d (act.zip l)).cover t d s.v.vl (s.v.active m))

/-! ## Reductions and scans (R143, R144, R453, R454) -/

/-- The bitwise and integer operations of a reduction. -/
def intReduce (t : VType) (k : RedOp) (x y : Nat) : Nat :=
  match k with
  | .sum | .seq => (x + y) % 2 ^ t.width
  | .min => t.minMax false x y
  | .max => t.minMax true x y
  | .and => x &&& y
  | .or => x ||| y
  | .xor => x ^^^ y

/-- One step of a floating reduction. -/
def fpReduce (t : VType) (k : RedOp) (rm : RMode) (ftz : Bool) (x y : Nat) : Res :=
  match k with
  | .min => fpMinMax t.fmt false ftz x y
  | .max => fpMinMax t.fmt true ftz x y
  | .sum | .seq | .and | .or | .xor => fpAdd t.fmt rm ftz x y

/-- A result with further flags. -/
def Res.with (r : Res) (f : Flags) : Res := { r with flags := r.flags ||| f }

/-- One level of the tree of R143: neighbours added in pairs, a node without a partner passed on. -/
def treeLevel (add : Nat → Nat → Res) : List Nat → List Nat × Flags
  | x :: y :: l =>
    let r := add x y
    let (l1, f) := treeLevel add l
    (r.bits :: l1, r.flags ||| f)
  | l => (l, 0)

/-- The tree, `n` levels of it. -/
def treeSum (add : Nat → Nat → Res) (l : List Nat) (f : Flags) : Nat → List Nat × Flags
  | 0 => (l, f)
  | n + 1 =>
    let (l1, f1) := treeLevel add l
    treeSum add l1 (f ||| f1) n

/-- A fold from the first entry in order; none for an empty list. -/
def orderedFold (op : Nat → Nat → Res) : List Nat → Option Res
  | [] => none
  | x :: l => some (l.foldl (fun r y => { bits := (op r.bits y).bits, flags := r.flags ||| (op r.bits y).flags }) (.quiet x))

/-- The result of a floating reduction over the active elements; `all` gives every element, +0.0 where inactive. -/
def fpVred (t : VType) (k : RedOp) (rm : RMode) (ftz : Bool) (act all : List Nat) : Res :=
  let f := t.fmt
  match k with
  | .sum =>
    if all.length = 1 then fpPass f ftz (all.headD 0)
    else
      let (l, fl) := treeSum (fpAdd f rm ftz) all 0 14
      { bits := l.headD 0, flags := fl }
  | .min | .max | .seq | .and | .or | .xor =>
    match act with
    | [x] => fpPass f ftz x
    | l =>
      match orderedFold (fpReduce t k rm ftz) l with
      | some r => r
      | none => .quiet (if k = .min then f.inf false else if k = .max then f.inf true else 0)

/-- The result of an integer reduction over the active elements (R453 Table 8). -/
def intVred (t : VType) (k : RedOp) (act : List Nat) : Nat :=
  let unit :=
    match k with
    | .sum | .seq | .or | .xor => 0
    | .and => 2 ^ t.width - 1
    | .min => low t.width t.maxInt
    | .max => low t.width t.minInt
  act.foldl (intReduce t k) unit

/-- The elements from `i` on, `n` of them: the values given for the active ones, 0 for the others. -/
def withZeros (act : Nat → Bool) (i : Nat) : Nat → List Nat → List Nat
  | 0, _ => []
  | n + 1, l => if act i then l.headD 0 :: withZeros act (i + 1) n l.tail else 0 :: withZeros act (i + 1) n l

/-- VRED over the active elements: nothing is written when an enabled flag is raised. -/
def State.vred (s : State) (t : VType) (m : MReg) (k : RedOp) (d a : VReg) : State × Option Stop :=
  match s.readElems t a (s.v.activeList m) with
  | .error e => (s, some e)
  | .ok act =>
    let put (s : State) (x : Nat) : State := (s.writeElem t d 0 x).cover t d 1 fun _ => true
    if t.isI then (put s (intVred t k act), none)
    else
      let all := withZeros (s.v.active m) 0 s.v.vl act
      let r := fpVred t k (RMode.ofRm s.v.fpc.rm) (s.ftzFor t) act all
      let s1 := s.raiseFlags r.flags
      if s.v.fpc.traps r.flags then (s1, some (.plain .arith 0 (r.flags.setWidth 64))) else (put s1 r.bits, none)

/-- VRED (R453): reduces the active elements into element 0 of vd. -/
def execVred (t : VType) (m : MReg) (k : RedOp) (d a : VReg) (s : State) : Out :=
  .next (checked (.vred t m k d a) s fun s =>
    if s.v.vl = 0 then s.clearVstart.finish (.vred t m k d a)
    else if s.v.vl ≤ s.v.vstart then (s.cover t d 1 fun _ => false).clearVstart.finish (.vred t m k d a)
    else
      match (s.setV fun v => { v with vstart := 0 }).vred t m k d a with
      | (s1, none) => s1.clearVstart.finish (.vred t m k d a)
      | (s1, some e) => s1.raise (.vred t m k d a) e)

/-- The highest element below `i` that a mask field allows (R454). -/
def Vlc.previous (v : Vlc) (m : MReg) : Nat → Option Nat
  | 0 => none
  | i + 1 => if (v.mask m).getLsbD i then some i else v.previous m i

/-- The result of an earlier element of a scan: one that this run wrote is as written, whatever its word held (R311). -/
def State.scanned (s : State) (t : VType) (d : VReg) (j : Nat) : Except Stop Nat :=
  if s.v.vstart ≤ j ∧ s.v.fits t.width j then .ok (payload t ((s.v.vreg d).elem t.width j)) else s.readElem t d j

/-- VSCAN: element `i` from the destination's element of the active element before it. -/
def memScan (t : VType) (m : MReg) (k : RedOp) (d a : VReg) : Member :=
  .writes t m d fun s i => do
    let x ← s.readElem t a i
    match s.v.previous m i with
    | none =>
      if t.isI then .ok (x, s)
      else
        let r := fpPass t.fmt (s.ftzFor t) x
        let s1 ← s.flagged r.flags
        .ok (r.bits, s1)
    | some j =>
      let p ← s.scanned t d j
      if t.isI then .ok (intReduce t k p x, s)
      else
        let r := fpReduce t k (RMode.ofRm s.v.fpc.rm) (s.ftzFor t) p x
        let s1 ← s.flagged r.flags
        .ok (r.bits, s1)

/-- VSCAN (R454): computes inclusive prefixes over the active elements. -/
def execVscan (t : VType) (m : MReg) (k : RedOp) (d a : VReg) (s : State) : Out :=
  vectorAlone (.vscan t m k d a) s (memScan t m k d a)

end Sys2Proof.Machine
end

