-- ==== Sys2Proof/Machine/VectorFp.lean ====
section
/-! DEFINITION. Vector floating point (R441, R442) and VFCVT (R443, R444, R135). -/

namespace Sys2Proof.Machine

/-- A member of two sources whose result carries flags. -/
def fp2op (t : VType) (m : MReg) (d a b : VReg) (f : State → Nat → Nat → Res) : Member :=
  .writes t m d fun s i => do
    let x ← s.readElem t a i
    let y ← s.readElem t b i
    let r := f s x y
    let s1 ← s.flagged r.flags
    .ok (r.bits, s1)

/-- A member of one source whose result carries flags. -/
def fp1op (t : VType) (m : MReg) (d a : VReg) (f : State → Nat → Res) : Member :=
  .writes t m d fun s i => do
    let x ← s.readElem t a i
    let r := f s x
    let s1 ← s.flagged r.flags
    .ok (r.bits, s1)

/-- FPC.RM as a mode. -/
def State.rm (s : State) : RMode := RMode.ofRm s.v.fpc.rm

/-- VFADD. -/
def memFadd (t : VType) (m : MReg) (d a b : VReg) : Member :=
  fp2op t m d a b fun s => fpAdd t.fmt s.rm (s.ftzFor t)
/-- VFSUB. -/
def memFsub (t : VType) (m : MReg) (d a b : VReg) : Member :=
  fp2op t m d a b fun s => fpSub t.fmt s.rm (s.ftzFor t)
/-- VFMUL. -/
def memFmul (t : VType) (m : MReg) (d a b : VReg) : Member :=
  fp2op t m d a b fun s => fpMul t.fmt s.rm (s.ftzFor t)
/-- VFDIV. -/
def memFdiv (t : VType) (m : MReg) (d a b : VReg) : Member :=
  fp2op t m d a b fun s => fpDiv t.fmt s.rm (s.ftzFor t)
/-- VFMIN. -/
def memFmin (t : VType) (m : MReg) (d a b : VReg) : Member :=
  fp2op t m d a b fun s => fpMinMax t.fmt false (s.ftzFor t)
/-- VFMAX. -/
def memFmax (t : VType) (m : MReg) (d a b : VReg) : Member :=
  fp2op t m d a b fun s => fpMinMax t.fmt true (s.ftzFor t)
/-- VFSQRT. -/
def memFsqrt (t : VType) (m : MReg) (d a : VReg) : Member :=
  fp1op t m d a fun s => fpSqrt t.fmt s.rm (s.ftzFor t)
/-- VFRSQ. -/
def memFrsq (t : VType) (m : MReg) (d a : VReg) : Member := fp1op t m d a fun s => fpRsq t.fmt (s.ftzFor t)
/-- VFRCP. -/
def memFrcp (t : VType) (m : MReg) (d a : VReg) : Member := fp1op t m d a fun s => fpRcp t.fmt (s.ftzFor t)
/-- VFEXP2. -/
def memFexp2 (t : VType) (m : MReg) (d a : VReg) : Member := fp1op t m d a fun s => fpExp2 t.fmt (s.ftzFor t)

/-- VFMA: the old element of the destination is the addend. -/
def memFma (t : VType) (m : MReg) (d a b : VReg) : Member :=
  .writes t m d fun s i => do
    let x ← s.readElem t a i
    let y ← s.readElem t b i
    let z ← s.readElem t d i
    let r := fpFma t.fmt s.rm (s.ftzFor t) x y z
    let s1 ← s.flagged r.flags
    .ok (r.bits, s1)

/-- The class of a value (R442 Table 4): the number of its bit. -/
def fpClass (f : Fmt) (x : Nat) : Nat :=
  match f.val x with
  | .inf neg => if neg then 0 else 7
  | .nan sn => if sn then 8 else 9
  | .num d =>
    if d.m = 0 then (if d.neg then 3 else 4)
    else if expOf d.m d.e < f.emin then (if d.neg then 2 else 5)
    else if d.neg then 1 else 6

/-- VFCLASS. -/
def memFclass (t : VType) (m : MReg) (d a : VReg) : Member := fp1op t m d a fun _ x => .quiet (2 ^ fpClass t.fmt x)

/-- VFADD (R441): adds floating-point vectors, rounding by FPC.RM. -/
def execVfadd (t : VType) (m : MReg) (d a b : VReg) (c : Bool) (s : State) : Out :=
  vectorAlone (.vfadd t m d a b c) s (memFadd t m d a b)
/-- VFSUB (R441): subtracts floating-point vectors. -/
def execVfsub (t : VType) (m : MReg) (d a b : VReg) (c : Bool) (s : State) : Out :=
  vectorAlone (.vfsub t m d a b c) s (memFsub t m d a b)
/-- VFMUL (R441): multiplies floating-point vectors. -/
def execVfmul (t : VType) (m : MReg) (d a b : VReg) (c : Bool) (s : State) : Out :=
  vectorAlone (.vfmul t m d a b c) s (memFmul t m d a b)
/-- VFDIV (R441): divides floating-point vectors. -/
def execVfdiv (t : VType) (m : MReg) (d a b : VReg) (c : Bool) (s : State) : Out :=
  vectorAlone (.vfdiv t m d a b c) s (memFdiv t m d a b)
/-- VFMA (R441): computes a vector fused multiply-add with vd as the addend. -/
def execVfma (t : VType) (m : MReg) (d a b : VReg) (c : Bool) (s : State) : Out :=
  vectorAlone (.vfma t m d a b c) s (memFma t m d a b)
/-- VFMIN (R441): writes the element-wise minimumNumber. -/
def execVfmin (t : VType) (m : MReg) (d a b : VReg) (c : Bool) (s : State) : Out :=
  vectorAlone (.vfmin t m d a b c) s (memFmin t m d a b)
/-- VFMAX (R441): writes the element-wise maximumNumber. -/
def execVfmax (t : VType) (m : MReg) (d a b : VReg) (c : Bool) (s : State) : Out :=
  vectorAlone (.vfmax t m d a b c) s (memFmax t m d a b)
/-- VFSQRT (R441): computes the square root of each element. -/
def execVfsqrt (t : VType) (m : MReg) (d a : VReg) (c : Bool) (s : State) : Out :=
  vectorAlone (.vfsqrt t m d a c) s (memFsqrt t m d a)
/-- VFRSQ (R442): writes the reciprocal square-root estimate of R142 for each element. -/
def execVfrsq (t : VType) (m : MReg) (d a : VReg) (c : Bool) (s : State) : Out :=
  vectorAlone (.vfrsq t m d a c) s (memFrsq t m d a)
/-- VFRCP (R441): writes the reciprocal estimate of R141 for each element. -/
def execVfrcp (t : VType) (m : MReg) (d a : VReg) (c : Bool) (s : State) : Out :=
  vectorAlone (.vfrcp t m d a c) s (memFrcp t m d a)
/-- VFCLASS (R442): writes a one-hot class code for each element. -/
def execVfclass (t : VType) (m : MReg) (d a : VReg) (c : Bool) (s : State) : Out :=
  vectorAlone (.vfclass t m d a c) s (memFclass t m d a)
/-- VFEXP2 (R441): applies EXP2T to each element. -/
def execVfexp2 (t : VType) (m : MReg) (d a : VReg) (c : Bool) (s : State) : Out :=
  vectorAlone (.vfexp2 t m d a c) s (memFexp2 t m d a)

/-! ## VFCVT -/

/-- The value of element `i` of a source of any type (R124, R443). -/
def State.readValue (s : State) (u : VType) (a : VReg) (i : Nat) : Except Stop FpVal := do
  let x ← s.readElem u a i
  if u.isX then
    match s.readRaw 8 (companion a) (i / 128) with
    | .ok e => .ok ((u.value x).scaled e)
    | .error _ => .error (regStop (companion a) i)
  else .ok (u.value x)

/-- A value converted to a type that is not block-scaled. -/
def cvtTo (t : VType) (c : CvtMode) (sat : Bool) (x : FpVal) : Res :=
  if t.isI then cvtToInt t (match c with | .mode rm => rm | .draw _ => .rne) x else t.fmt.cvtVal c sat x

/-- VFCVT of element `i` to a type that is not block-scaled; `s0` holds the sources as the instruction found them (R308). -/
def cvtElem (s0 : State) (t : VType) (p : Conv) (u : VType) (a : VReg) (s : State) (i : Nat) : Except Stop (Nat × State) := do
  let c := convMode p s.v.fpc s.v.srseed
  let r ← if t.isI && u.isI then (s0.readElem u a i).map fun x => cvt t u c false x
    else (s0.readValue u a i).map fun x => cvtTo t c (p == .sat || p == .srSat) x
  let s1 ← (s.drawn p).flagged r.flags
  .ok (r.bits, s1)

/-- VFCVT to a type that is not block-scaled. -/
def memCvt (t : VType) (p : Conv) (u : VType) (d a : VReg) : Member :=
  { Member.plain allActive (fun s _ => .ok s) (fun s e _ => s.cover t d e (allActive s.v)) with
    elem := fun s0 s i =>
      if allActive s.v i then
        match cvtElem s0 t p u a s i with
        | .error e => .error (i, e)
        | .ok r => .ok (r.2.writeElem t d i r.1)
      else .ok s }

/-- The payload type of a block-scaled type. -/
def payloadType (t : VType) : VType := if t = .e4m3x then .e4m3 else .e2m1

/-- The magnitude of a finite nonzero value, as its exponent, for the scale of a block. -/
def finiteExp : FpVal → Option Int
  | .num d => if d.m = 0 then none else some (expOf d.m d.e)
  | .nan _ => none
  | .inf _ => none

/-- A value that is ±∞ or NaN. -/
def isSpecial : FpVal → Bool
  | .num _ => false
  | .nan _ => true
  | .inf _ => true

/-- The scale of a block (R135). -/
def blockScale (t : VType) (l : List FpVal) : Nat :=
  if t = .e2m1x ∧ l.any isSpecial then 255
  else
    match (l.filterMap finiteExp) with
    | [] => 127
    | e :: es =>
      let top := es.foldl max e
      let x := top - (if t = .e4m3x then 8 else 2) + 127
      if x < 0 then 0 else if 254 < x then 254 else x.toNat

/-- The value divided by the scale. -/
def unscale (x : FpVal) (e : Nat) : FpVal :=
  match x with
  | .num d => .num { d with e := d.e - ((e : Int) - 127) }
  | .nan s => .nan s
  | .inf n => .inf n

/-- One payload of a block of scale `e` (R135). -/
def blockPayload (t : VType) (e : Nat) (c : CvtMode) (x : FpVal) : Res :=
  if isSpecial x then { bits := if t = .e4m3x then 0x7F else 0, flags := flagNV }
  else if e = 255 then .quiet 0
  else (payloadType t).fmt.cvtVal c true (unscale x e)

/-- The values of a block's elements, from `i`, `n` of them. -/
def State.blockValues (s : State) (u : VType) (a : VReg) (i : Nat) : Nat → Except (Nat × Stop) (List FpVal)
  | 0 => .ok []
  | n + 1 =>
    match s.readValue u a i with
    | .error e => .error (i, e)
    | .ok x =>
      match s.blockValues u a (i + 1) n with
      | .error e => .error e
      | .ok l => .ok (x :: l)

/-- The payloads of a block written in order, from element `i`. -/
def State.blockWrite (s : State) (t : VType) (p : Conv) (d : VReg) (e i : Nat) : List FpVal → Except (Nat × Stop) State
  | [] => .ok s
  | x :: l =>
    let r := blockPayload t e (convMode p s.v.fpc s.v.srseed) x
    match (s.drawn p).flagged r.flags with
    | .error st => .error (i, st)
    | .ok s1 => (s1.writeElem t d i r.bits).blockWrite t p d e (i + 1) l

/-- VFCVT to a block-scaled type: each block is converted whole, at its first element. -/
def memCvtBlock (t : VType) (p : Conv) (u : VType) (d a : VReg) : Member :=
  { Member.each allActive
      (fun s i =>
        if i % 128 ≠ 0 then .ok s
        else
          match s.blockValues u a i (min 128 (s.v.vl - i)) with
          | .error e => .error e
          | .ok l =>
            let e := blockScale t l
            match s.blockWrite t p d e i l with
            | .error st => .error st
            | .ok s1 => .ok (s1.writeElem .n8 (companion d) (i / 128) e))
      (fun s e _ => (s.cover t d e (allActive s.v)).cover .n8 (companion d) (ceilDiv e 128) fun k => allActive s.v (128 * k))
      (fun _ _ => none) with
    block := true }

/-- VFCVT. -/
def memFcvt (t : VType) (p : Conv) (u : VType) (d a : VReg) : Member :=
  if t.isX then memCvtBlock t p u d a else memCvt t p u d a

/-- VFCVT (R443): converts each element between types, block by block for block-scaled destinations. -/
def execVfcvt (t : VType) (p : Conv) (u : VType) (d a : VReg) (c : Bool) (s : State) : Out :=
  vectorAlone (.vfcvt t p u d a c) s (memFcvt t p u d a)

end Sys2Proof.Machine
end

