-- ==== Sys2Proof/Machine/VectorMem.lean ====
section
/-! DEFINITION. Stream registers (R151-R153), SETVT and SETMT (R419, R420), the vector loads and stores (R445-R450, R154-R165),
BPC128 chunks (R170-R172), binning (R173), voxel hash tables (R174, R175) and the scratchpad tag table (R167-R169). -/

namespace Sys2Proof.Machine

/-! ## QSET, QCLR, SETVT, SETMT -/

/-- Six words of a record from an offset. -/
def sixWords (r : List Byte) (o : Nat) : Vector Word 6 :=
  Vector.ofFn fun d => BitVec.ofNat 64 (field r (o + 8 * d.val) 8)

/-- The dimensions of a record agree with its NDIM (R152). -/
def dimsOk (st b : Vector Word 6) (n : Nat) : Bool :=
  (List.range 6).all fun d =>
    let x := (b.toList.getD d 0).toNat
    if d < n then decide (1 ≤ x) && decide (x ≤ 2 ^ 32) else x == 0 && (st.toList.getD d 0) == 0

/-- The stream that a record binds, if it is valid (R152). -/
def streamOf (r : List Byte) : Option Stream :=
  let kind := field r 0x08 1
  let n := field r 0x09 1
  let q : Stream :=
    { kind := if kind = 2 then .tile else .pattern, base := BitVec.ofNat 64 (field r 0 8), ndim := n,
      cursor := field r 0x0C 4, strides := sixWords r 0x10, bounds := sixWords r 0x40, pos := field r 0x70 8,
      aux := BitVec.ofNat 64 (field r 0x78 8), touched := false, unit := 1, topo := none }
  let ok :=
    (kind == 1 && decide (1 ≤ n) && decide (n ≤ 6)
      || kind == 2 && n == 2 && q.cursor == 0 && q.strides[0] == 0 && q.aux == 0)
    && dimsOk q.strides q.bounds n && field r 0x0A 2 == 0 && decide (q.extent ≤ 2 ^ 56) && decide (q.pos ≤ q.extent)
    && q.aux.toNat % 16 == 0
  if ok then some q else none

/-- QSET (R153). -/
def execQset (d : QReg) (a : SReg) (s : State) : Out :=
  .next (checked (.qset d a) s fun s =>
    s.run (.qset d a) (do
      if (s.rd a).toNat % 16 ≠ 0 then .error (.plain .align 0 (untag (s.rd a)))
      let (r, s1) ← s.capture s.party (s.rd a) 16
      match streamOf r with
      | none => .error (streamStop 4 0 d)
      | some q => .ok (s1.setV (·.setStream d q))))

/-- QCLR (R153). -/
def execQclr (d : QReg) (s : State) : Out := alone (.qclr d) s fun s => s.setV (·.setStream d .unbound)

/-- SETVT (R419, R420). -/
def execSetvt (t : VType) (s : State) : Out := alone (.setvt t) s fun s => s.setV fun v => { v with vt := t }

/-- SETMT (R419, R420). -/
def execSetmt (x : Space) (s : State) : Out := alone (.setmt x) s fun s => s.setV fun v => { v with mt := x }

/-! ## VLD and VST (R445-R447, R155) -/

/-- The place of an element within its position: the offset, and the part of the byte. -/
def placeIn (t : VType) (i : Nat) : Nat × Part :=
  if t = .e4m3x then (i % 128, .whole)
  else if t = .e2m1x then (i % 128 / 2, .nibble (i % 2 == 1))
  else if t = .e2m1 then (0, .nibble (i % 2 == 1))
  else (0, .whole)

/-- The offset of a block's scale byte (R123). -/
def scaleOffset (t : VType) : Nat := if t = .e4m3x then 128 else 64

/-- Element `i` is the first active one of its block. -/
def Vlc.leads (v : Vlc) (m : MReg) (i : Nat) : Bool :=
  (List.range (i % 128)).all fun k => !v.active m (i - i % 128 + k)

/-- ALIGN of a block's address (R155). -/
def blockOk (t : VType) (x : Space) (a : Word) : Except Stop Unit :=
  if t.isX ∧ a.toNat % 8 ≠ 0 then .error (misaligned x a) else .ok ()

/-- The view's 8 bytes of record `j` of a binding (R238, R236). -/
def TopoBind.view8 (b : TopoBind) (j : Nat) : Word :=
  let r := b.recs.getD j (0, 0)
  if b.view = 0 then r.1 else r.2

/-- VLD of element `i` from a topology binding (R238). -/
def State.loadTopo (s : State) (t : VType) (o : Option Scope) (d : VReg) (qn : QReg) (i : Nat) : Except Stop State :=
  let p := (s.v.stream qn).pos + i
  match (s.v.stream qn).topo with
  | none => .error (streamStop 1 0 qn)
  | some b =>
    if (t ≠ .n64 ∧ t ≠ .s64) ∨ o.isSome then .error (streamStop 2 ((s.v.stream qn).pos + i / streamUnit t) qn)
    else if b.recs.length ≤ p then .error (streamStop 3 p qn)
    else .ok (s.writeElem t d i (b.view8 p).toNat)

/-- VLD of element `i` through a pattern or a tile binding. -/
def State.loadStream (s : State) (t : VType) (m : MReg) (o : Option Scope) (d : VReg) (qn : QReg) (i : Nat) :
    Except Stop State := do
  let p ← s.streamAt qn (streamUnit t) (positionBytes t) i
  blockOk t s.v.mt p.addr
  let once := (s.v.stream qn).once t
  let elt (o n : Nat) : Elt :=
    { space := s.v.mt, addr := p.addr + BitVec.ofNat 64 o, bytes := n, elem := i, once := once, late := p.late }
  let at_ := placeIn t i
  let a := elt at_.1 (if t.isX then 1 else bytesIn t)
  let lead := t.isX && s.v.leads m i
  if lead then s.allowed .load [elt (scaleOffset t) 1, a]
  let s1 ← if lead then (s.vload (elt (scaleOffset t) 1)).map fun r => r.2.writeElem .n8 (companion d) (i / 128) r.1 else .ok s
  let (x, s2) ← s1.loadPart a at_.2
  let s3 := if o.isSome then s2.spinAcquire a.space a.addr (BitVec.ofNat 64 x)
    else s2.spinSaw a.space a.addr (BitVec.ofNat 64 x)
  .ok (s3.writeElem t d i x)

/-- A stop at element `i`. -/
def atElem (i : Nat) (x : Except Stop State) : Except (Nat × Stop) State := x.mapError fun e => (i, e)

/-- Block `k` of a block-scaled type has an active element below `e`. -/
def Vlc.blockActive (v : Vlc) (m : MReg) (e k : Nat) : Bool :=
  (List.range 128).any fun j => decide (128 * k + j < e) && v.active m (128 * k + j)

/-- The page of element `i` of a VLD through a pattern in space 0, which the batch translation unit collects (R166, R305, R309). -/
def touchStream (t : VType) (m : MReg) (qn : QReg) (s : State) (i : Nat) : Option (Word × AccKind) :=
  if s.v.mt ≠ .glob ∨ !s.v.active m i ∨ (s.v.stream qn).kind ≠ .pattern then none
  else match s.streamAt qn (streamUnit t) (positionBytes t) i with
  | .ok p => if p.late.isSome then none else some (p.addr + BitVec.ofNat 64 (placeIn t i).1, .load)
  | .error _ => none

/-- VLD. -/
def memVld (t : VType) (m : MReg) (o : Option Scope) (d : VReg) (qn : QReg) : Member :=
  { Member.each (fun v i => v.active m i)
      (fun s i =>
        if s.v.active m i then
          atElem i (if (s.v.stream qn).kind = .topology then s.loadTopo t o d qn i else s.loadStream t m o d qn i)
        else .ok s)
      (fun s e done =>
        let s1 := s.cover t d e (s.v.active m)
        let s2 := if t.isX then s1.cover .n8 (companion d) (ceilDiv e 128) (s.v.blockActive m e) else s1
        if s.took e done then s2.touch qn t else s2)
      (touchStream t m qn) with
    fof := true
    tu := streamUnit t }

/-- VST of element `i`. -/
def State.storeStream (s : State) (t : VType) (m : MReg) (d : VReg) (qn : QReg) (i : Nat) : Except Stop State := do
  let x ← s.readElem t d i
  let lead := t.isX && s.v.leads m i
  let e ← if lead then (s.readRaw 8 (companion d) (i / 128)).mapError fun _ => regStop (companion d) i else .ok 0
  if (s.v.stream qn).kind = .topology then .error (streamStop 2 ((s.v.stream qn).pos + i / streamUnit t) qn)
  let p ← s.streamAt qn (streamUnit t) (positionBytes t) i
  blockOk t s.v.mt p.addr
  let once := (s.v.stream qn).once t
  let elt (o n : Nat) : Elt :=
    { space := s.v.mt, addr := p.addr + BitVec.ofNat 64 o, bytes := n, elem := i, once := once, late := p.late }
  let at_ := placeIn t i
  let a := elt at_.1 (if t.isX then 1 else bytesIn t)
  if lead then s.allowed .store [elt (scaleOffset t) 8, a]
  let s1 ← if lead then s.vstore (elt (scaleOffset t) 8) e else .ok s
  s1.storePart a at_.2 x

/-- VST; one with a scope is a release. -/
def memVst (t : VType) (m : MReg) (o : Option Scope) (d : VReg) (qn : QReg) : Member :=
  { Member.each (fun v i => v.active m i)
      (fun s i => if s.v.active m i then atElem i (s.storeStream t m d qn i) else .ok s)
      (fun s e done => (if s.took e done then s.touch qn t else s).spinReset)
      (fun _ _ => none) with
    release := o.isSome }

/-- VLD (R445). -/
def execVld (t : VType) (m : MReg) (o : Option Scope) (d : VReg) (a : QReg) (c : Bool) (s : State) : Out :=
  vectorAlone (.vld t m o d a c) s (memVld t m o d a)
/-- VST (R445); a release waits as R185 says. -/
def execVst (t : VType) (m : MReg) (o : Option Scope) (d : VReg) (a : QReg) (c : Bool) (s : State) : Out :=
  if o.isSome ∧ s.v.stores ≠ [] then .next (checked (.vst t m o d a c) s fun s => s.drain (.vst t m o d a c))
  else vectorAlone (.vst t m o d a c) s (memVst t m o d a)

/-! ## Gathers, scatters and lane-indexed forms (R163-R165, R448-R450) -/

/-- The bytes of an element of an indexed form: payloads only (R165). -/
def indexBytes (t : VType) : Nat := if t.isX ∨ t = .e2m1 then 1 else bytesIn t

/-- The offset of an index in bytes, and the part of the byte (R163). -/
def indexOffset (t : VType) (x : Int) : Word × Part :=
  if t = .e2m1 ∨ t = .e2m1x then (BitVec.ofInt 64 (x / 2), .nibble (x % 2 == 1))
  else (BitVec.ofInt 64 (x * indexBytes t), .whole)

/-- Element `i`'s access of a gather or scatter (R163). The position that reason 2 names is POS + i (DESIGN CHOICE, log 60). -/
def State.indexed (s : State) (t : VType) (qn : QReg) (vi : VReg) (i : Nat) : Except Stop (Elt × Part) := do
  let x ← s.readIndex vi i
  let q := s.v.stream qn
  match q.kind with
  | .unbound => .error (streamStop 1 0 qn)
  | .topology => .error (streamStop 2 (q.pos + i) qn)
  | .pattern | .tile =>
    let o := indexOffset t (signed (s.v.vreg vi).tagWidth x)
    .ok ({ space := s.v.mt, addr := q.address (indexBytes t) q.pos + o.1, bytes := indexBytes t, elem := i,
           once := false, late := none }, o.2)

/-- The page hint of an indexed form (R305). -/
def touchIndexed (t : VType) (m : MReg) (qn : QReg) (vi : VReg) (k : AccKind) (s : State) (i : Nat) :
    Option (Word × AccKind) :=
  if s.v.mt ≠ .glob ∨ !s.v.active m i then none
  else match s.indexed t qn vi i with
  | .ok (a, _) => some (a.addr, k)
  | .error _ => none

/-- VLDX. -/
def memVldx (t : VType) (m : MReg) (d : VReg) (qn : QReg) (vi : VReg) : Member :=
  { Member.each (fun v i => v.active m i) (fun s _ => .ok s) (fun s e _ => s.cover t d e (s.v.active m))
      (touchIndexed t m qn vi .load) with
    fof := true
    elem := fun s0 s i =>
      if s.v.active m i then
        atElem i (do
          let (a, p) ← s0.indexed t qn vi i
          let (x, s1) ← s.loadPart a p
          .ok ((s1.spinSaw a.space a.addr (BitVec.ofNat 64 x)).writeElem t d i x))
      else .ok s }

/-- VSTX. -/
def memVstx (t : VType) (m : MReg) (d : VReg) (qn : QReg) (vi : VReg) : Member :=
  Member.each (fun v i => v.active m i)
    (fun s i =>
      if s.v.active m i then
        atElem i (do
          let x ← s.readElem t d i
          let (a, p) ← s.indexed t qn vi i
          s.storePart a p x)
      else .ok s)
    (fun s _ _ => s.spinReset)
    (touchIndexed t m qn vi .store)

/-- The sum of VSTXA (R145, R450). -/
def addIn (t : VType) (rm : RMode) (ftz : Bool) (old x : Nat) : Res :=
  if t.isI then .quiet ((old + x) % 2 ^ t.width) else fpAdd t.fmt rm ftz old x

/-- One more contribution to an addition that travels (R145). -/
def moreOp (x : Nat) : RemoteOp → RemoteOp
  | .through l (.addTo t rm ftz xs) => .through l (.addTo t rm ftz (xs ++ [x]))
  | op => op

/-- A request that has been sent is an addition in a type. -/
def State.adding (s : State) (id : Nat) (t : VType) : Bool :=
  s.outbox.any fun p =>
    match p with
    | .request k _ _ (.through _ (.addTo u _ _ _)) => k == id && u == t
    | _ => false

/-- The VLC's last store under way to the bytes of an access, where this instruction made it and it is an addition in a type. -/
def State.addTarget (s : State) (pa n : Nat) (t : VType) : Option Posted :=
  match s.v.stores.reverse.find? fun w => w.meets pa n with
  | some w => if w.fresh && w.pa == pa && w.n == n && s.adding w.id t then some w else none
  | none => none

/-- A contribution sent to another endpoint, whose target now holds `new` as far as this VLC knows: with those of the same
instruction to the same target it is one read-modify-write (R145, R162). -/
def State.postAdd (s : State) (q : Req) (r : Ref) (t : VType) (x new : Nat) : State :=
  match s.addTarget r.pa q.n t with
  | some w =>
    { s with
      outbox := s.outbox.map fun p =>
        match p with
        | .request k ep pa op => if k = w.id then .request k ep pa (moreOp x op) else p
        | p => p
      v := { s.v with stores := s.v.stores.map fun y => if y.id = w.id then { y with val := new } else y } }
  | none =>
    s.post s.party r.pa q.n (2 ^ (8 * q.n) - 1) new false (r.via s.party q (.addTo t s.v.fpc.rm.toNat (s.ftzFor t) [x]))

/-- An element of VSTXA in space 0: the sum `f` of what it finds. At another endpoint it is read first, for its flags, and then added
to there (DEDUCED, log 62). -/
def State.addElem (s : State) (a : Elt) (t : VType) (x : Nat) (f : Nat → Res) : Except Stop State := do
  let q := a.req .rmw
  let r ← s.resolve s.party q
  if epOf r.pa = s.endpoint then
    let (old, s1) ← s.rmwRef s.party q r 0 (.read 0) fun old => (f old).bits
    s1.flagged (f old).flags
  else
    let old ← s.fetchRef s.party q r
    let s1 ← (s.note s.party q r).flagged (f old).flags
    .ok (s1.postAdd q r t x (f old).bits)

/-- VSTXA. -/
def memVstxa (t : VType) (m : MReg) (d : VReg) (qn : QReg) (vi : VReg) : Member :=
  Member.each (fun v i => v.active m i)
    (fun s i =>
      if s.v.active m i then
        atElem i (do
          let x ← s.readElem t d i
          let (a, _) ← s.indexed t qn vi i
          let f (old : Nat) : Res := addIn t s.rm (s.ftzFor t) old x
          a.check s .rmw
          match a.space with
          | .glob => s.addElem a t x f
          | .cmem | .spad | .lane =>
            let r := s.vrmw a fun old => (f old).bits
            r.2.flagged (f r.1).flags)
      else .ok s)
    (fun s _ _ => s.spinReset)
    (touchIndexed t m qn vi .rmw)

/-- Element `i`'s access to its lane table (R164). -/
def State.laneIndexed (s : State) (t : VType) (vi : VReg) (i : Nat) : Except Stop (Elt × Part) := do
  let x ← s.readIndex vi i
  let o := indexOffset t x
  .ok ({ space := .lane, addr := o.1, bytes := indexBytes t, elem := i, once := false, late := none }, o.2)

/-- VLDL. -/
def memVldl (t : VType) (m : MReg) (d vi : VReg) : Member :=
  { Member.each (fun v i => v.active m i) (fun s _ => .ok s) (fun s e _ => s.cover t d e (s.v.active m)) (fun _ _ => none) with
    fof := true
    elem := fun s0 s i =>
      if s.v.active m i then
        atElem i (do
          let (a, p) ← s0.laneIndexed t vi i
          let (x, s1) ← s.loadPart a p
          .ok (s1.writeElem t d i x))
      else .ok s }

/-- VSTL. -/
def memVstl (t : VType) (m : MReg) (d vi : VReg) : Member :=
  Member.each (fun v i => v.active m i)
    (fun s i =>
      if s.v.active m i then
        atElem i (do
          let x ← s.readElem t d i
          let (a, p) ← s.laneIndexed t vi i
          s.storePart a p x)
      else .ok s)
    (fun s _ _ => s.spinReset)
    (fun _ _ => none)

/-- VLDX (R449). -/
def execVldx (t : VType) (m : MReg) (d : VReg) (a : QReg) (b : VReg) (c : Bool) (s : State) : Out :=
  vectorAlone (.vldx t m d a b c) s (memVldx t m d a b)
/-- VSTX (R449). -/
def execVstx (t : VType) (m : MReg) (d : VReg) (a : QReg) (b : VReg) (c : Bool) (s : State) : Out :=
  vectorAlone (.vstx t m d a b c) s (memVstx t m d a b)
/-- VSTXA (R449, R450). -/
def execVstxa (t : VType) (m : MReg) (d : VReg) (a : QReg) (b : VReg) (c : Bool) (s : State) : Out :=
  vectorAlone (.vstxa t m d a b c) s (memVstxa t m d a b)
/-- VLDL (R448). -/
def execVldl (t : VType) (m : MReg) (d a : VReg) (c : Bool) (s : State) : Out :=
  vectorAlone (.vldl t m d a c) s (memVldl t m d a)
/-- VSTL (R448). -/
def execVstl (t : VType) (m : MReg) (d a : VReg) (c : Bool) (s : State) : Out :=
  vectorAlone (.vstl t m d a c) s (memVstl t m d a)

/-! ## BPC128 (R170-R172) -/

/-- The chunk-table entry of element `i` (R170, R155). -/
def State.chunkAt (s : State) (qn : QReg) (i : Nat) : Except Stop At :=
  let q := s.v.stream qn
  match q.kind with
  | .tile => .error (streamStop 2 (q.pos + i / 128) qn)
  | .unbound | .pattern | .topology => s.streamAt qn 128 4 i

/-- An access of `n` bytes of a chunk for element `i`. -/
def chunkElt (s : State) (a : Word) (n i : Nat) (late : Option Stop) : Elt :=
  { space := s.v.mt, addr := a, bytes := n, elem := i, once := false, late := late }

/-- A load that the spin detector sees (R47). -/
def State.vloadSeen (s : State) (a : Elt) : Except Stop (Nat × State) :=
  (s.vload a).map fun r => (r.1, r.2.spinSaw a.space a.addr (BitVec.ofNat 64 r.1))

/-- VLDBPC of element `i` (R171). -/
def State.loadChunk (s : State) (t : VType) (md : MReg) (d : VReg) (qn : QReg) (i : Nat) : Except Stop State := do
  let p ← s.chunkAt qn i
  let (e, s1) ← s.vloadSeen (chunkElt s p.addr 4 i p.late)
  let a := (s.v.stream qn).aux + BitVec.ofNat 64 (16 * e)
  let (b0, s2) ← s1.vloadSeen (chunkElt s a 8 i none)
  let (b1, s3) ← s2.vloadSeen (chunkElt s (a + 8) 8 i none)
  let map := b0 + 2 ^ 64 * b1
  let j := i % 128
  let present := map.testBit j
  let (x, s4) ←
    if present then
      s3.vloadSeen (chunkElt s (a + BitVec.ofNat 64 (16 + ones j map * bytesIn t)) (bytesIn t) i none)
    else .ok (0, s3)
  .ok ((s4.writeElem t d i x).setV (·.setMaskBit md i present))

/-- VLDBPC. -/
def memVldbpc (t : VType) (md : MReg) (d : VReg) (qn : QReg) : Member :=
  { Member.each allActive
      (fun s i => if allActive s.v i then atElem i (s.loadChunk t md d qn i) else .ok s)
      (fun s e done =>
        let s1 := s.cover t d e (allActive s.v)
        let s2 := if done then s1.setV (·.trimMask md) else s1
        if s.took e done then s2.setV fun v => v.setStream qn { v.stream qn with touched := true, unit := 128 } else s2)
      (fun _ _ => none) with
    fof := true
    tu := 128 }

/-- VLDBPC (R171). -/
def execVldbpc (t : VType) (k : MReg) (d : VReg) (a : QReg) (c : Bool) (s : State) : Out :=
  vectorAlone (.vldbpc t k d a c) s (memVldbpc t k d a)

/-- Words of 8 bytes of a chunk stored for element `i`. -/
def State.storeChunk (s : State) (a : Word) (i : Nat) : List Nat → Except Stop State
  | [] => .ok s
  | x :: l => do
    let s1 ← s.vstore (chunkElt s a 8 i none) x
    s1.storeChunk (a + 8) i l

/-- A number cut into `n` words of 8 bytes. -/
def wordsOf (x : Nat) : Nat → List Nat
  | 0 => []
  | n + 1 => x % 2 ^ 64 :: wordsOf (x / 2 ^ 64) n

/-- The bitmap of a group: the active elements, at their places. -/
def bitmapOf (l : List Nat) : Nat := l.foldl (fun b i => b ||| 2 ^ (i % 128)) 0

/-- Values packed at a width, the first lowest. -/
def packed (w : Nat) : List Nat → Nat
  | [] => 0
  | x :: l => x % 2 ^ w + 2 ^ w * packed w l

/-- The values of elements read in a type, or the first that stops. -/
def State.readGroup (s : State) (t : VType) (a : VReg) : List Nat → Except (Nat × Stop) (List Nat)
  | [] => .ok []
  | i :: l =>
    match s.readElem t a i with
    | .error e => .error (i, e)
    | .ok x => (s.readGroup t a l).map fun r => x :: r

/-- A group of VSTBPC written: the chunk and its entry (R172). With MT = 3 both lie in the lane table of the group's first element
(DESIGN CHOICE, log 60). -/
def State.storeGroup (s : State) (t : VType) (qn : QReg) (i : Nat) (act vals : List Nat) : Except Stop State := do
  let p ← s.chunkAt qn i
  let q := s.v.stream qn
  let size := ceilDiv (16 + act.length * bytesIn t) 16 * 16
  if 2 ^ 32 < q.cursor + size / 16 then .error (streamStop 3 p.pos qn)
  let s1 ← s.storeChunk (q.aux + BitVec.ofNat 64 (16 * q.cursor)) i
    (wordsOf (bitmapOf act + 2 ^ 128 * packed t.width vals) (size / 8))
  let s2 ← s1.vstore (chunkElt s p.addr 4 i p.late) q.cursor
  .ok (s2.setV fun v => v.setStream qn { q with cursor := q.cursor + size / 16 })

/-- VSTBPC: each group is written at its first element, the first of the run in the group where it begins (R159). -/
def memVstbpc (t : VType) (m : MReg) (d : VReg) (qn : QReg) : Member :=
  { Member.each (fun v i => v.active m i)
      (fun s i =>
        if i % 128 = 0 ∨ i = s.v.vstart then
          let act := ((List.range (min (128 - i % 128) (s.v.vl - i))).map (i + ·)).filter fun k => s.v.active m k
          match s.readGroup t d act with
          | .error e => .error e
          | .ok vals => atElem i (s.storeGroup t qn i act vals)
        else .ok s)
      (fun s e done =>
        (if s.took e done then s.setV fun v => v.setStream qn { v.stream qn with touched := true, unit := 128 } else s).spinReset)
      (fun _ _ => none) with
    group := true }

/-- VSTBPC (R172). -/
def execVstbpc (t : VType) (m : MReg) (d : VReg) (a : QReg) (c : Bool) (s : State) : Out :=
  vectorAlone (.vstbpc t m d a c) s (memVstbpc t m d a)

/-! ## VBIN (R173) -/

/-- VBIN. -/
def memVbin (t : VType) (m : MReg) (d a : VReg) (b : SReg) : Member :=
  Member.each (fun v i => v.active m i)
    (fun s i =>
      if s.v.active m i then
        atElem i (do
          let c ← s.readElem t a i
          let x : Elt := { space := s.v.mt, addr := s.rd b + BitVec.ofNat 64 (c * bytesIn t), bytes := bytesIn t, elem := i,
                           once := false, late := none }
          x.check s .rmw
          let r := s.vrmw x fun old => (old + 1) % 2 ^ t.width
          .ok (r.2.writeElem t d i r.1))
      else .ok s)
    (fun s e _ => (s.cover t d e (s.v.active m)).spinReset)
    (fun _ _ => none)

/-- A vector instruction of its own with a check of its operands before any element. -/
def operandThen (i : Instr) (s : State) (bad : State → Option Stop) (m : Member) : Out :=
  .next (checked i s fun s =>
    let stop := if s.v.vl ≤ s.v.vstart then none else bad s
    match stop with
    | some e => s.raise i e
    | none =>
      match vectorPhase [m] s with
      | .done s1 => s1.clearVstart.finish i
      | .stopped s1 e => s1.raise i e)

/-- VBIN (R173). -/
def execVbin (t : VType) (m : MReg) (d a : VReg) (b : SReg) (s : State) : Out :=
  operandThen (.vbin t m d a b) s
    (fun s => if s.v.mt = .cmem ∨ s.v.mt = .spad then none else some (.prot 0 (s.rd b)))
    (memVbin t m d a b)

/-! ## Voxel hash tables (R174, R175) -/

/-- A voxel hash table: its offset, the log2 of its capacity and its generation. -/
structure Voxel where
  base : Nat
  k : Nat
  gen : Nat
  deriving DecidableEq, Repr

/-- The table at an offset of the scratchpad, if R174 allows it. -/
def State.voxel (s : State) (a : Word) : Option Voxel :=
  let o := a.toNat
  let k := s.spaceRead .spad o 1
  let g := s.spaceRead .spad (o + 1) 1
  if o % 16 ≠ 0 ∨ 0x40000 < o + 16 then none
  else if k < 4 ∨ 13 < k ∨ g = 0 ∨ 0x40000 < o + 16 + 16 * 2 ^ k then none
  else some { base := o, k := k, gen := g }

/-- The hash of a key (R174). -/
def Voxel.hash (t : Voxel) (key : Nat) : Nat := key * 0x9B1F6A35C4D27E8B % 2 ^ 64 / 2 ^ (64 - t.k)

/-- The offset of slot `i`. -/
def Voxel.at (t : Voxel) (i : Nat) : Nat := t.base + 16 + 16 * i

/-- What a probe finds. -/
inductive Probe where
  | hit (slot : Nat)
  | open_ (slot : Nat)
  | full
  deriving DecidableEq, Repr

/-- Probes from slot `i`, `n` of them (R175). -/
def State.probe (s : State) (t : Voxel) (key i : Nat) : Nat → Probe
  | 0 => .full
  | n + 1 =>
    let slot := i % 2 ^ t.k
    if s.spaceRead .spad (t.at slot + 6) 1 ≠ t.gen then .open_ slot
    else if s.spaceRead .spad (t.at slot) 6 = key then .hit slot
    else s.probe t key (i + 1) n

/-- A word of the scratchpad that a table instruction loads, as the spin detector sees it (R47). -/
def State.sawWord (s : State) (o : Nat) : State :=
  s.spinSaw .spad (BitVec.ofNat 64 o) (BitVec.ofNat 64 (s.spaceRead .spad o 8))

/-- The header of a table loaded. -/
def State.sawHeader (s : State) (t : Voxel) : State := s.sawWord t.base

/-- The slots that probes from slot `i` look at, `n` of them at most: both words of each loaded. -/
def State.sawProbes (s : State) (t : Voxel) (key i : Nat) : Nat → State
  | 0 => s
  | n + 1 =>
    let slot := i % 2 ^ t.k
    let s1 := (s.sawWord (t.at slot)).sawWord (t.at slot + 8)
    match s.probe t key i 1 with
    | .full => s1.sawProbes t key (i + 1) n
    | .hit _ => s1
    | .open_ _ => s1

/-- A key: bits 47:0 of an element (R174). -/
def State.readKey (s : State) (a : VReg) (i : Nat) : Except Stop Nat := (s.readElem .n64 a i).map (· % 2 ^ 48)

/-- VHASH of element `i`. -/
def hashElem (t : Voxel) (d a : VReg) (s : State) (i : Nat) : Except Stop State := do
  let k ← s.readKey a i
  .ok (s.writeElem .n64 d i (t.hash k))

/-- VHLOOK of element `i`. -/
def lookElem (t : Voxel) (d a : VReg) (s : State) (i : Nat) : Except Stop State := do
  let k ← s.readKey a i
  let x := match s.probe t k (t.hash k) 32 with
    | .hit slot => s.spaceRead .spad (t.at slot + 8) 8
    | .open_ _ => 2 ^ 64 - 1
    | .full => 2 ^ 64 - 1
  .ok ((s.sawProbes t k (t.hash k) 32).writeElem .n64 d i x)

/-- VHINS of element `i`. -/
def insElem (t : Voxel) (d a : VReg) (s : State) (i : Nat) : Except Stop State := do
  let k ← s.readKey a i
  match s.probe t k (t.hash k) 32 with
  | .hit slot => .ok (s.writeElem .n64 d i (slot + 2 ^ 62))
  | .full => .ok (s.writeElem .n64 d i (2 ^ 64 - 1))
  | .open_ slot =>
    let x ← s.readElem .n64 d i
    let s1 := (s.spaceWrite .spad (t.at slot) 7 (k + 2 ^ 48 * t.gen)).spaceWrite .spad (t.at slot + 8) 8 x
    .ok (s1.writeElem .n64 d i slot)

/-- A member over a voxel hash table. -/
def memVoxel (m : MReg) (d : VReg) (b : SReg) (stores : Bool) (f : Voxel → State → Nat → Except Stop State) : Member :=
  Member.each (fun v i => v.active m i)
    (fun s i =>
      if s.v.active m i then
        match s.voxel (s.rd b) with
        | none => .error (i, .prot 0 (s.rd b))
        | some t => atElem i (f t (s.sawHeader t) i)
      else .ok s)
    (fun s e _ => let s1 := s.cover .n64 d e (s.v.active m); if stores then s1.spinReset else s1)
    (fun _ _ => none)

/-- The check of the table before any element (R174). -/
def voxelBad (b : SReg) (s : State) : Option Stop :=
  match s.voxel (s.rd b) with
  | none => some (.prot 0 (s.rd b))
  | some _ => none

/-- VHASH (R175). -/
def execVhash (m : MReg) (d a : VReg) (b : SReg) (s : State) : Out :=
  operandThen (.vhash m d a b) s (voxelBad b) (memVoxel m d b false fun t => hashElem t d a)
/-- VHLOOK (R175). -/
def execVhlook (m : MReg) (d a : VReg) (b : SReg) (s : State) : Out :=
  operandThen (.vhlook m d a b) s (voxelBad b) (memVoxel m d b false fun t => lookElem t d a)
/-- VHINS (R175). -/
def execVhins (m : MReg) (d a : VReg) (b : SReg) (s : State) : Out :=
  operandThen (.vhins m d a b) s (voxelBad b) (memVoxel m d b true fun t => insElem t d a)

/-! ## The scratchpad tag table (R167-R169) -/

/-- The set of a tag: the XOR of its six bytes. -/
def tagSet (tag : BitVec 48) : Nat :=
  (tag.extractLsb' 0 8 ^^^ tag.extractLsb' 8 8 ^^^ tag.extractLsb' 16 8 ^^^ tag.extractLsb' 24 8
    ^^^ tag.extractLsb' 32 8 ^^^ tag.extractLsb' 40 8).toNat

/-- An entry of the tag table of the issuing VLC's core. -/
def State.tagEntry (s : State) (slot : Nat) : TagEntry := look TagEntry.invalid slot (s.core s.v.core).tagTable

/-- An entry written. -/
def State.setTagEntry (s : State) (slot : Nat) (e : TagEntry) : State :=
  s.setCore s.v.core fun c => { c with tagTable := put TagEntry.invalid slot e c.tagTable }

/-- The ways of a set, as slots. -/
def waysOf (st : Nat) : List Nat := (List.range 16).map (16 * st + ·)

/-- The age after another way of the set became the newest. -/
def older (a : BitVec 2) : BitVec 2 := if a = 3 then 3 else a + 1

/-- One way made the newest of its set. -/
def State.makeNewest (s : State) (slot : Nat) : State :=
  (waysOf (slot / 16)).foldl (fun s k =>
    let e := s.tagEntry k
    if k = slot then s.setTagEntry k { e with age := 0 }
    else if e.v then s.setTagEntry k { e with age := older e.age } else s) s

/-- The first way whose age is the largest. -/
def State.oldestWay (s : State) (st : Nat) : Nat :=
  (waysOf st).foldl (fun b k => if (s.tagEntry b).age < (s.tagEntry k).age then k else b) (16 * st)

/-- The victim of a set. -/
def State.victim (s : State) (st : Nat) : Nat :=
  match (waysOf st).find? fun k => !(s.tagEntry k).v with
  | some k => k
  | none => s.oldestWay st

/-- The hit word of a slot (R168 Table 5). -/
def hitWord (slot : Nat) (e : TagEntry) : Word :=
  flagAt true 62 ||| flagAt e.d 61 ||| fieldAt e.user.toNat 20 ||| fieldAt slot 0

/-- The miss word of a slot (R168 Table 5). -/
def missWord (slot : Nat) (e : TagEntry) : Word :=
  flagAt true 63 ||| flagAt e.v 62 ||| flagAt e.d 61 ||| (if e.v then fieldAt e.tag.toNat 12 else 0) ||| fieldAt slot 0

/-- SPLOOK (R168). -/
def effSplook (d a : SReg) (s : State) : State :=
  let tag := (s.rd a).extractLsb' 0 48
  let st := tagSet tag
  match (waysOf st).find? fun k => (s.tagEntry k).v && (s.tagEntry k).tag == tag with
  | some k => (s.makeNewest k).wr d (hitWord k (s.tagEntry k))
  | none => s.wr d (missWord (s.victim st) (s.tagEntry (s.victim st)))

/-- SPLOOK (R168). -/
def execSplook (d a : SReg) (s : State) : Out := alone (.splook d a) s (effSplook d a)

/-- The other valid ways of a slot's set that hold a tag lose V (R169). -/
def State.dropTag (s : State) (slot : Nat) (tag : BitVec 48) : State :=
  (waysOf (slot / 16)).foldl (fun s k =>
    let e := s.tagEntry k
    if k ≠ slot ∧ e.v ∧ e.tag = tag then s.setTagEntry k { e with v := false } else s) s

/-- SPTAG (R169). -/
def effSptag (a b : SReg) (s : State) : Except Stop State :=
  let x := s.rd a
  let slot := bitsOf x.toNat 11 0
  let tag := (s.rd b).extractLsb' 0 48
  let v := x.getLsbD 12
  if v ∧ tagSet tag ≠ slot / 16 then .error (.prot 0 (s.rd b))
  else
    let s1 := if v then s.dropTag slot tag else s
    let s2 := s1.setTagEntry slot
      { tag := tag, age := 0, d := x.getLsbD 13, v := v, user := x.extractLsb' 16 8 }
    .ok (if v then s2.makeNewest slot else s2)

/-- SPTAG (R169). -/
def execSptag (a b : SReg) (s : State) : Out :=
  .next (checked (.sptag a b) s fun s => s.run (.sptag a b) (effSptag a b s))

end Sys2Proof.Machine
end

