-- ==== Sys2Proof/Machine/Tile.lean ====
section
/-! DEFINITION. The matrix unit: shapes (R202, R203, R430), operand slots and TLD (R204-R207, R421, R424, R425), accumulator
tiles with TZERO, TEXT and TINJ (R208-R210, R422, R423, R432), and TMMA and TMMAS (R211, R212, R146, R426, R427). -/

namespace Sys2Proof.Machine

/-- The subcodes of TILE (R214 Table 6). -/
inductive TileSub where
  | unclaimed | claimed | empty | slotshape | noshape | cursor | capacity | resume | spartype
  deriving DecidableEq, Repr

/-- R214 Table 6. -/
def TileSub.code : TileSub → Nat
  | .unclaimed => 1 | .claimed => 2 | .empty => 3 | .slotshape => 4 | .noshape => 5 | .cursor => 6 | .capacity => 7
  | .resume => 8 | .spartype => 9

/-- TILE of the instruction or member at an address (R214). -/
def tileStop (e : TileSub) (at_ : Word) : Stop := .plain .tile e.code at_

/-! ## Shapes (R202) -/

/-- A row of R202 Table 3. -/
structure ShapeRow where
  mstep : Nat
  mmax : Nat
  nmax : Nat
  kstep : Nat
  kmax : Nat
  deriving DecidableEq, Repr

/-- The row of a type and a sparsity, if there is one (R202 Table 3). -/
def shapeRow (t : VType) (sparse : Bool) : Option ShapeRow :=
  match t with
  | .f64 => if sparse then none else some { mstep := 4, mmax := 64, nmax := 64, kstep := 1, kmax := 32 }
  | .f32 => if sparse then none else some { mstep := 16, mmax := 128, nmax := 64, kstep := 1, kmax := 32 }
  | .f16 | .bf16 =>
    if sparse then some { mstep := 32, mmax := 128, nmax := 64, kstep := 8, kmax := 128 }
    else some { mstep := 32, mmax := 128, nmax := 64, kstep := 1, kmax := 64 }
  | .e4m3 | .e5m2 =>
    if sparse then some { mstep := 32, mmax := 128, nmax := 64, kstep := 8, kmax := 256 }
    else some { mstep := 32, mmax := 128, nmax := 64, kstep := 1, kmax := 128 }
  | .e2m1 =>
    if sparse then some { mstep := 32, mmax := 128, nmax := 64, kstep := 8, kmax := 512 }
    else some { mstep := 32, mmax := 128, nmax := 64, kstep := 1, kmax := 256 }
  | .e4m3x =>
    if sparse then some { mstep := 32, mmax := 64, nmax := 32, kstep := 256, kmax := 256 }
    else some { mstep := 32, mmax := 64, nmax := 64, kstep := 128, kmax := 128 }
  | .e2m1x =>
    if sparse then some { mstep := 32, mmax := 64, nmax := 64, kstep := 256, kmax := 256 }
    else some { mstep := 32, mmax := 64, nmax := 64, kstep := 128, kmax := 256 }
  | .n8 | .n16 | .n32 | .n64 | .s8 | .s16 | .s32 | .s64 => none

/-- A request of at least 1 rounded up to a step and limited. -/
def granted (step limit x : Nat) : Nat := min limit (ceilDiv (max x 1) step * step)

/-- TSHAPE (R202, R430, R431). -/
def effTshape (t : VType) (sp : Spar) (d a b : SReg) (s : State) : Except Stop State :=
  match shapeRow t (sp != .dense) with
  | none => .error (tileStop .spartype s.v.pc)
  | some e =>
    let n := min (min e.nmax (16 * (clustersOf s.v.lc).length)) (max (s.rd a).toNat 1)
    .ok (s.setV fun v =>
      { v with
        tsmM := BitVec.ofNat 8 (granted e.mstep e.mmax (s.rd d).toNat), tsmType := t.code, tsmSpar := sp.code,
        tsn := BitVec.ofNat 7 n, tskK := BitVec.ofNat 10 (granted e.kstep e.kmax (s.rd b).toNat), acur := 0 })

/-- TSHAPE (R430). -/
def execTshape (t : VType) (sp : Spar) (d a b : SReg) (s : State) : Out :=
  .next (checked (.tshape t sp d a b) s fun s => s.run (.tshape t sp d a b) (effTshape t sp d a b s))

/-! ## Operand slots (R204) -/

/-- A slot of the issuing VLC's core. -/
def State.oslot (s : State) (o : OReg) : OSlot := (s.core s.v.core).slots[o.toNat]

/-- A slot written. -/
def State.setOslot (s : State) (o : OReg) (x : OSlot) : State :=
  s.setCore s.v.core fun c => { c with slots := c.slots.set o.toNat x }

/-- A slot whose contents are undefined, in a state. -/
def State.freshSlot (s : State) (o : OReg) (st : SlotState) : State :=
  (s.setOslot o { OSlot.free with st := st, data := s.free 131072 }).spend

/-- TCLAIM (R421). -/
def effTclaim (o : OReg) (s : State) : Except Stop State :=
  if (s.oslot o).st = .free then .ok (s.freshSlot o .claimed) else .error (tileStop .claimed s.v.pc)

/-- TREL (R421). -/
def effTrel (o : OReg) (s : State) : Except Stop State :=
  if (s.oslot o).st = .free then .error (tileStop .unclaimed s.v.pc) else .ok (s.freshSlot o .free)

/-- TCLAIM (R421). -/
def execTclaim (oa : OReg) (s : State) : Out :=
  .next (checked (.tclaim oa) s fun s => s.run (.tclaim oa) (effTclaim oa s))

/-- TREL (R421). -/
def execTrel (oa : OReg) (s : State) : Out :=
  .next (checked (.trel oa) s fun s => s.run (.trel oa) (effTrel oa s))

/-- `w` bits of a bit vector from bit `lo`. -/
def bitsAt {n : Nat} (x : BitVec n) (lo w : Nat) : Nat := x.toNat >>> lo % 2 ^ w

/-- `w` bits of a bit vector from bit `lo` replaced. -/
def putBits {n : Nat} (x : BitVec n) (lo w y : Nat) : BitVec n :=
  (x &&& ~~~BitVec.ofNat n ((2 ^ w - 1) <<< lo)) ||| BitVec.ofNat n ((y % 2 ^ w) <<< lo)

/-- The poison of the words that `w` bits from bit `lo` cover wholly cleared (R311). -/
def clearWords {n : Nat} (p : BitVec n) (lo w : Nat) : BitVec n :=
  let first := ceilDiv lo 64
  let last := (lo + w) / 64
  if first < last then p &&& ~~~BitVec.ofNat n ((2 ^ (last - first) - 1) <<< first) else p

/-- Bits of a slot written. -/
def OSlot.write (o : OSlot) (lo w y : Nat) : OSlot :=
  { o with data := putBits o.data lo w y, poison := clearWords o.poison lo w }

/-! ## TLD (R205-R207, R425) -/

/-- How TLD reads a binding: the columns it fills, the bits of each and the bytes of a position. -/
structure TldForm where
  cols : Nat
  bits : Nat
  bytes : Nat
  deriving DecidableEq, Repr

/-- R205, R425. -/
def tldForm (t : VType) (sp : Spar) (b0 : Nat) : TldForm :=
  match sp with
  | .s24 => { cols := b0, bits := 8, bytes := 1 }
  | .s48 => { cols := b0, bits := 16, bytes := 2 }
  | .dense =>
    if t = .e4m3x then { cols := 128 * b0, bits := 8, bytes := 136 }
    else if t = .e2m1x then { cols := 128 * b0, bits := 4, bytes := 72 }
    else if t = .e2m1 then { cols := 2 * b0, bits := 4, bytes := 1 }
    else { cols := b0, bits := t.width, bytes := t.width / 8 }

/-- The bytes of a slot that a tile fills: its elements, and its scales after them. -/
def tileBytes (t : VType) (sp : Spar) (rows : Nat) (f : TldForm) : Nat :=
  rows * f.cols * f.bits / 8 + (if t.isX ∧ sp = .dense then rows * f.cols / 128 else 0)

/-- The access of TLD to `n` bytes at an address, for a position. -/
def tldElt (s : State) (a : Word) (n p : Nat) : Elt :=
  { space := s.v.mt, addr := a, bytes := n, elem := p, once := false, late := none }

/-- Words of 8 bytes loaded in ascending order, as one number. -/
def State.loadWords (s : State) (a : Word) (p : Nat) : Nat → Except Stop (Nat × State)
  | 0 => .ok (0, s)
  | n + 1 => do
    let (x, s1) ← s.vloadSeen (tldElt s a 8 p)
    let (y, s2) ← s1.loadWords (a + 8) p n
    .ok (x + 2 ^ 64 * y, s2)

/-- The payload and scale byte of the block at a position (R205). -/
def State.loadBlock (s : State) (t : VType) (a : Word) (p : Nat) : Except Stop (Nat × Nat × State) := do
  blockOk t s.v.mt a
  let n := scaleOffset t / 8
  s.allowed .load (((List.range n).map fun k => tldElt s (a + BitVec.ofNat 64 (8 * k)) 8 p)
    ++ [tldElt s (a + BitVec.ofNat 64 (scaleOffset t)) 1 p])
  let (x, s1) ← s.loadWords a p n
  let (e, s2) ← s1.vloadSeen (tldElt s (a + BitVec.ofNat 64 (scaleOffset t)) 1 p)
  .ok (x, e, s2)

/-- Position `p` read into the slot (R205). -/
def State.fillAt (s : State) (t : VType) (f : TldForm) (o : OReg) (q : Stream) (p : Nat) : Except Stop State :=
  let a := q.address f.bytes p
  if t.isX then do
    let (x, e, s1) ← s.loadBlock t a p
    let k := s1.oslot o
    let k1 := k.write (128 * f.bits * p) (128 * f.bits) x
    .ok (s1.setOslot o (k1.write (k.rows * k.cols * f.bits + 8 * p) 8 e))
  else do
    let (x, s1) ← s.vloadSeen (tldElt s a f.bytes p)
    .ok (s1.setOslot o ((s1.oslot o).write (8 * f.bytes * p) (8 * f.bytes) x))

/-- Positions from `p`, `n` of them, read into the slot, as far as none stops. -/
def State.fillFrom (s : State) (t : VType) (f : TldForm) (o : OReg) (q : Stream) (p : Nat) : Nat → State × Option (Nat × Stop)
  | 0 => (s, none)
  | n + 1 =>
    match s.fillAt t f o q p with
    | .error e => (s, some (p, e))
    | .ok s1 => s1.fillFrom t f o q (p + 1) n

/-- The slot in a state, and TILEPOS. -/
def State.slotAt (s : State) (o : OReg) (st : SlotState) (pos : Nat) : State :=
  (s.setOslot o { s.oslot o with st := st }).setV fun v => { v with tilepos := BitVec.ofNat 32 pos }

/-- The words of the slot that positions `start` to `p` cover wholly lose their poison (R311). -/
def State.healSlot (s : State) (t : VType) (f : TldForm) (o : OReg) (start p : Nat) : State :=
  let k := s.oslot o
  let w := if t.isX then 128 * f.bits else 8 * f.bytes
  let k1 := { k with poison := clearWords k.poison (w * start) (w * (p - start)) }
  s.setOslot o (if t.isX then
    { k1 with poison := clearWords k1.poison (k.rows * k.cols * f.bits + 8 * start) (8 * (p - start)) } else k1)

/-- The position at which a forced pre-emption or a wave stops a TLD of positions `start` to `n` (R206); `n` when none does. -/
def Vlc.tldEnd (v : Vlc) (start n : Nat) : Nat :=
  match v.cut with
  | some e => min n (max start e)
  | none => n

/-- The fill of a slot with values from VSTART.TILEPOS (R206). -/
def tldValues (i : Instr) (t : VType) (f : TldForm) (o : OReg) (q : Stream) (rows : Nat) (s : State) : State :=
  let start := s.v.tilepos.toNat
  let s1 := if start = 0 then
      s.setOslot o { s.oslot o with st := .part 0, type := t.code, spar := 0, rows := rows, cols := f.cols }
    else s
  let stop := s.v.tldEnd start q.extent
  match s1.fillFrom t f o q start (stop - start) with
  | (s2, none) =>
    let s3 := s2.healSlot t f o start stop
    if q.extent ≤ stop then (s3.slotAt o .values 0).clearVstart.finish i else (s3.slotAt o (.part stop) stop).raise i .cut
  | (s2, some (p, e)) =>
    let s3 := s2.healSlot t f o start p
    match e with
    | .trap _ _ _ _ => (s3.slotAt o (.part p) p).raise i e
    | .remote _ _ _ _ => if s.v.halts then (s3.slotAt o (.part p) p).raise i .cut else s.raise i e
    | .drain | .cut => s.raise i e

/-- The positions of a metadata tile from `p`, `n` of them, read in ascending order. -/
def State.readMeta (s : State) (f : TldForm) (q : Stream) (p : Nat) : Nat → Except Stop (List Nat × State)
  | 0 => .ok ([], s)
  | n + 1 => do
    let (x, s1) ← s.vloadSeen (tldElt s (q.address f.bytes p) f.bytes p)
    let (l, s2) ← s1.readMeta f q (p + 1) n
    .ok (x :: l, s2)

/-- Two of a list's entries are equal. -/
def repeats : List Nat → Bool
  | [] => false
  | x :: l => l.contains x || repeats l

/-- The indices of a 2:4 nibble or a 4:8 halfword (R207). -/
def indicesOf (sp : Spar) (x : Nat) : List Nat :=
  match sp with
  | .s24 => [x % 4, x / 4 % 4]
  | .s48 => [x % 8, x / 8 % 8, x / 64 % 8, x / 512 % 8]
  | .dense => []

/-- The first group of a position that fails: its subcode, and whether it is a high nibble (R207). -/
def groupFault (sp : Spar) (x : Nat) : Option (Nat × Bool) :=
  match sp with
  | .s24 =>
    if repeats (indicesOf .s24 (x % 16)) then some (1, false)
    else if repeats (indicesOf .s24 (x / 16)) then some (1, true)
    else none
  | .s48 => if 4096 ≤ x then some (2, false) else if repeats (indicesOf .s48 x) then some (1, false) else none
  | .dense => none

/-- SPARSEMETA at the first group that fails, from position `p` (R207). -/
def metaFault (sp : Spar) (p : Nat) : List Nat → Option Stop
  | [] => none
  | x :: l =>
    match groupFault sp x with
    | some (sub, hi) => some (.plain .sparsemeta sub (fieldAt (p % 2 ^ 32) 0 ||| flagAt hi 32))
    | none => metaFault sp (p + 1) l

/-- The fill of a slot with metadata (R206). -/
def tldMeta (i : Instr) (t : VType) (sp : Spar) (f : TldForm) (o : OReg) (q : Stream) (rows : Nat) (s : State) : State :=
  let stopped (s : State) (e : Stop) : State := (s.setV fun v => { v with tilepos := 0 }).raise i e
  match s.readMeta f q 0 q.extent with
  | .error e =>
    match e with
    | .trap _ _ _ _ => stopped s e
    | .remote _ _ _ _ => if s.v.halts then stopped s .cut else s.raise i e
    | .drain | .cut => s.raise i e
  | .ok (l, s1) =>
    match metaFault sp 0 l with
    | some e => stopped s1 e
    | none =>
      if s.v.tldEnd 0 q.extent < q.extent then stopped s .cut else
      let k := s1.oslot o
      let w := q.extent * f.bits
      let k1 := { k.write 0 w (packed f.bits l) with
        st := .metadata, type := t.code, spar := sp.code, rows := rows, cols := f.cols }
      (s1.setOslot o k1).clearVstart.finish i

/-- TLD (R425, with the order of its checks). -/
def effTld (t : VType) (sp : Spar) (o : OReg) (qn : QReg) (s : State) : State :=
  let i : Instr := .tld t sp o qn
  let k := s.oslot o
  let q := s.v.stream qn
  let rows := (q.bounds[1]).toNat
  let f := tldForm t sp (q.bounds[0]).toNat
  let p := s.v.tilepos.toNat
  if k.st = .free then s.raise i (tileStop .unclaimed s.v.pc)
  else if q.kind = .unbound then s.raise i (streamStop 1 0 qn)
  else if q.kind ≠ .tile ∨ s.v.mt = .lane then s.raise i (streamStop 2 0 qn)
  else if sp = .dense ∧ p ≠ 0 ∧ ¬(k.st = .part p ∧ k.type = t.code ∧ k.rows = rows ∧ k.cols = f.cols) then
    s.raise i (tileStop .resume s.v.pc)
  else if 16384 < tileBytes t sp rows f then s.raise i (tileStop .capacity s.v.pc)
  else if sp = .dense then tldValues i t f o q rows s
  else tldMeta i t sp f o q rows s

/-- TLD (R424, R425). -/
def execTld (t : VType) (sp : Spar) (oa : OReg) (a : QReg) (s : State) : Out :=
  .next (checked (.tld t sp oa a) s (effTld t sp oa a))

/-! ## Accumulator tiles (R208) -/

/-- The bytes of an element of a view. -/
def accBytes (t : VType) : Nat := if t = .f64 then 8 else 4

/-- The first bit of C[m][n] in a view, in the tile's 64 slices. -/
def Vlc.accBit (v : Vlc) (t : VType) (m n : Nat) : Nat :=
  let lane := 16 * (clustersOf v.lc).getD (n / 16) 0 + n % 16
  8 * (512 * lane + accBytes t * m)

/-- An accumulator tile of the issuing VLC's core. -/
def State.acc (s : State) (j : AReg) : Acc := (s.core s.v.core).accs[j.toNat]

/-- An accumulator tile written. -/
def State.setAcc (s : State) (j : AReg) (x : Acc) : State :=
  s.setCore s.v.core fun c => { c with accs := c.accs.set j.toNat x }

/-- An element written. In the FP64 view it clears the poison of its word (R423). -/
def Acc.write (a : Acc) (t : VType) (bit x : Nat) : Acc :=
  { data := putBits a.data bit (8 * accBytes t) x, poison := clearWords a.poison bit (8 * accBytes t) }

/-- The word of an element is poisoned. -/
def Acc.bad (a : Acc) (bit : Nat) : Bool := a.poison.getLsbD (bit / 64)

/-- The word of an element marked poisoned. -/
def Acc.mark (a : Acc) (bit : Nat) : Acc := { a with poison := a.poison ||| 1#4096 <<< (bit / 64) }

/-- TZERO (R432). -/
def effTzero (j : AReg) (s : State) : State := s.setAcc j { data := 0, poison := 0 }

/-! ## TEXT and TINJ (R210, R422, R423) -/

/-- The issue checks of TEXT and TINJ at an address, after the retirement at VL = 0 (R423). -/
def portStop (at_ : Word) (s : State) : Option Stop :=
  if s.v.vl = 0 then none
  else if s.v.tsmM = 0 then some (tileStop .noshape at_)
  else if s.v.tsmM.toNat * s.v.tsn.toNat < s.v.acur + s.v.vl then some (tileStop .cursor at_)
  else none

/-- The bit of the accumulator element that vector element `i` moves. -/
def Vlc.portBit (v : Vlc) (t : VType) (i : Nat) : Nat :=
  let p := v.acur + i
  v.accBit t (p / v.tsn.toNat) (p % v.tsn.toNat)

/-- The conversion of TEXT and TINJ: RNE, without `.sat`, no flag. -/
def portCvt (t u : VType) (x : Nat) : Nat := (cvt t u (.mode .rne) false x).bits

/-- TEXT. -/
def memText (t : VType) (m : MReg) (j : AReg) (u : VType) (d : VReg) : Member :=
  .plain (fun v i => v.active m i)
    (fun s i =>
      let b := s.v.portBit t i
      let a := s.acc j
      if a.bad b then .error (.plain .memerr 2 (flagAt true 24 ||| fieldAt j.toNat 16 ||| fieldAt (i % 2 ^ 14) 0))
      else .ok (s.writeElem u d i (portCvt u t (bitsAt a.data b (8 * accBytes t)))))
    (fun s e done =>
      let s1 := s.cover u d e (s.v.active m)
      if s.took e done then s1.setV fun v => { v with accTouched := true } else s1)

/-- TINJ. -/
def memTinj (t : VType) (m : MReg) (j : AReg) (u : VType) (a : VReg) : Member :=
  .plain (fun v i => v.active m i)
    (fun s i => (s.readElem u a i).map fun x => s.setAcc j ((s.acc j).write t (s.v.portBit t i) (portCvt t u x)))
    (fun s e done => if s.took e done then s.setV fun v => { v with accTouched := true } else s)

/-- An accumulator-port instruction that is a convoy of its own. -/
def portAlone (i : Instr) (s : State) (m : Member) : Out :=
  .next (checked i s fun s =>
    match portStop s.v.pc s with
    | some e => s.raise i e
    | none =>
      match vectorPhase [m] s with
      | .done s1 => s1.clearVstart.finish i
      | .stopped s1 e => s1.raise i e)

/-- TEXT (R422). -/
def execText (t : VType) (m : MReg) (acc : AReg) (u : VType) (d : VReg) (c : Bool) (s : State) : Out :=
  portAlone (.text t m acc u d c) s (memText t m acc u d)

/-- TINJ (R422). -/
def execTinj (t : VType) (m : MReg) (acc : AReg) (u : VType) (a : VReg) (c : Bool) (s : State) : Out :=
  portAlone (.tinj t m acc u a c) s (memTinj t m acc u a)

/-! ## TMMA and TMMAS (R211, R212, R146) -/

/-- A multiplication: its type, its sparsity, its accumulator and its slots. -/
structure Mma where
  t : VType
  sp : Spar
  acc : AReg
  oa : OReg
  ob : OReg
  oc : OReg
  deriving DecidableEq, Repr

/-- The granted M, N and K. -/
def Vlc.shape (v : Vlc) : Nat × Nat × Nat := (v.tsmM.toNat, v.tsn.toNat, v.tskK.toNat)

/-- A slot holds values, or metadata, of a type and shape. -/
def OSlot.fits (o : OSlot) (t : VType) (rows cols : Nat) : Bool := o.type == t.code && o.rows == rows && o.cols == cols

/-- The issue checks of TMMA and TMMAS at an address (R211). -/
def mmaStop (x : Mma) (at_ : Word) (s : State) : Option Stop :=
  let (m, n, k) := s.v.shape
  let sparse := x.sp != .dense
  let a := s.oslot x.oa
  let b := s.oslot x.ob
  let c := s.oslot x.oc
  if m = 0 ∨ s.v.tsmType ≠ x.t.code ∨ s.v.tsmSpar ≠ x.sp.code then some (tileStop .noshape at_)
  else if a.st = .free ∨ b.st = .free ∨ (sparse ∧ c.st = .free) then some (tileStop .unclaimed at_)
  else if a.st ≠ .values ∨ b.st ≠ .values ∨ (sparse ∧ c.st ≠ .metadata) then some (tileStop .empty at_)
  else if !a.fits x.t m (if sparse then k / 2 else k) || !b.fits x.t n k
      || (sparse && (!c.fits x.t m (k / 8) || c.spar != x.sp.code)) then some (tileStop .slotshape at_)
  else none

/-- The bits of an element of a tile in its slot. -/
def slotBits (t : VType) : Nat := if t = .e2m1 ∨ t = .e2m1x then 4 else t.width

/-- The type a slot's elements are read in. -/
def slotType (t : VType) : VType := if t.isX then payloadType t else t

/-- Element [r][c] of a slot. -/
def OSlot.value (o : OSlot) (t : VType) (r c : Nat) : FpVal :=
  (slotType t).value (bitsAt o.data (slotBits t * (r * o.cols + c)) (slotBits t))

/-- Scale [r][c div 128] of a slot (R205). -/
def OSlot.scale (o : OSlot) (t : VType) (r c : Nat) : Nat :=
  bitsAt o.data (o.rows * o.cols * slotBits t + 8 * (r * (o.cols / 128) + c / 128)) 8

/-- A word that row `r` of a slot lies in is poisoned. -/
def OSlot.rowBad (o : OSlot) (bits r : Nat) : Bool :=
  let lo := r * o.cols * bits / 64
  let hi := ceilDiv ((r + 1) * o.cols * bits) 64
  bitsAt o.poison lo (hi - lo) != 0

/-- A scale of row `r` of a block-scaled slot lies in a poisoned word. -/
def OSlot.scaleBad (o : OSlot) (t : VType) (r : Nat) : Bool :=
  t.isX &&
    let lo := (o.rows * o.cols * slotBits t / 8 + r * (o.cols / 128)) / 8
    let hi := ceilDiv (o.rows * o.cols * slotBits t / 8 + (r + 1) * (o.cols / 128)) 8
    bitsAt o.poison lo (hi - lo) != 0

/-- The indices of the metadata group of row `m` that covers `k` (R207): the group's first k and its indices. -/
def OSlot.indices (o : OSlot) (sp : Spar) (m k : Nat) : Nat × List Nat :=
  match sp with
  | .s24 => (k / 4 * 4, indicesOf .s24 (bitsAt o.data (8 * (m * o.cols) + 4 * (k / 4)) 4))
  | .s48 => (k / 8 * 8, indicesOf .s48 (bitsAt o.data (16 * (m * o.cols) + 16 * (k / 8)) 16))
  | .dense => (k, [])

/-- The stored column of A that stands at `k`, for TMMAS; none where the position is empty (R207). -/
def OSlot.storedAt (o : OSlot) (sp : Spar) (m k : Nat) : Option Nat :=
  let (k0, l) := o.indices sp m k
  match (List.range l.length).find? fun j => k0 + l.getD j 0 == k with
  | some j => some (k0 / 2 + j)
  | none => none

/-- The column of OA that holds a_k; none where the position is empty. -/
def Mma.columnOf (x : Mma) (c : OSlot) (m k : Nat) : Option Nat := if x.sp = .dense then some k else c.storedAt x.sp m k

/-- The exact sum of two values (R146). The sign of a sum that is zero is that of round to nearest (DESIGN CHOICE, log 60). -/
def exactPlus (x y : FpVal) : FpVal :=
  match x, y with
  | .num a, .num b => .num (Dy.add .rne a b)
  | .inf a, .inf b => if a == b then .inf a else .nan true
  | .inf a, .num _ => .inf a
  | .num _, .inf b => .inf b
  | .nan s, .nan r => .nan (s || r)
  | .nan s, .inf _ => .nan s
  | .nan s, .num _ => .nan s
  | .inf _, .nan s => .nan s
  | .num _, .nan s => .nan s

/-- An exact zero; its sign is + (DESIGN CHOICE, log 60). -/
def exactZero : FpVal := .num { neg := false, m := 0, e := 0 }

/-- The length of a group along K (R146 Table 6). -/
def groupLen (t : VType) : Nat :=
  match t with
  | .f16 | .bf16 => 2
  | .e4m3 | .e5m2 | .e4m3x => 4
  | .e2m1 | .e2m1x => 8
  | .f64 | .f32 => 1
  | .n8 | .n16 | .n32 | .n64 | .s8 | .s16 | .s32 | .s64 => 1

/-- The product at `k`; an exact zero where A is empty or K ends (R146). -/
def Mma.product (x : Mma) (s : State) (m n kmax k : Nat) : FpVal :=
  if kmax ≤ k then exactZero
  else match x.columnOf (s.oslot x.oc) m k with
  | none => exactZero
  | some c => mulVal ((s.oslot x.oa).value x.t m c) ((s.oslot x.ob).value x.t n k)

/-- The exact sum of the group that begins at `k`, with its scales. -/
def Mma.groupSum (x : Mma) (s : State) (m n kmax k : Nat) : FpVal :=
  let l := (List.range (groupLen x.t)).map fun j => x.product s m n kmax (k + j)
  let sum := match l with
    | [] => exactZero
    | p :: ps => ps.foldl exactPlus p
  if x.t.isX then
    (sum.scaled ((s.oslot x.oa).scale x.t m (if x.sp = .dense then k else k / 2))).scaled
      ((s.oslot x.ob).scale x.t n k)
  else sum

/-- Groups from number `g`, `n` of them, accumulated into `c` (R146). -/
def Mma.sumFrom (x : Mma) (s : State) (f : Fmt) (m n kmax : Nat) (c g : Nat) : Nat → Nat
  | 0 => c
  | r + 1 =>
    let sum := x.groupSum s m n kmax (groupLen x.t * g)
    x.sumFrom s f m n kmax (f.addVal .rne false (f.val c) sum).bits (g + 1) r

/-- The accumulator's type. -/
def accType (t : VType) : VType := if t = .f64 then .f64 else .f32

/-- C[m][n] computed and written (R212); poisoned when a word it comes from is (R427). -/
def Mma.element (x : Mma) (s0 : State) (s : State) (m n : Nat) : State :=
  let t := accType x.t
  let kmax := s0.v.tskK.toNat
  let bit := s0.v.accBit t m n
  let a := s.acc x.acc
  let c := x.sumFrom s0 t.fmt m n kmax (bitsAt a.data bit (8 * accBytes t)) 0 (ceilDiv kmax (groupLen x.t))
  let oa := s0.oslot x.oa
  let ob := s0.oslot x.ob
  let oc := s0.oslot x.oc
  let bad := a.bad bit || oa.rowBad (slotBits x.t) m || oa.scaleBad x.t m || ob.rowBad (slotBits x.t) n
    || ob.scaleBad x.t n || (x.sp != .dense && oc.rowBad (if x.sp = .s24 then 8 else 16) m)
  if bad then (s.setAcc x.acc ((a.write t bit c).mark bit)).setV fun v => { v with fsrPoison := true }
  else s.setAcc x.acc (a.write t bit c)

/-- TMMA and TMMAS in the matrix phase (R212). -/
def effMma (x : Mma) (s : State) : State :=
  let (m, n, _) := s.v.shape
  (List.range m).foldl (fun s1 i => (List.range n).foldl (fun s2 j => x.element s s2 i j) s1) s

/-- A matrix member's issue check at an address. -/
def matrixStop (i : Instr) (at_ : Word) (s : State) : Option Stop :=
  match i with
  | .tmma t acc oa ob _ => mmaStop { t := t, sp := .dense, acc := acc, oa := oa, ob := ob, oc := oa } at_ s
  | .tmmas t sp acc oa ob oc _ => mmaStop { t := t, sp := sp, acc := acc, oa := oa, ob := ob, oc := oc } at_ s
  | _ => none

/-- A matrix member's effect. -/
def matrixEff (i : Instr) (s : State) : State :=
  match i with
  | .tmma t acc oa ob _ => effMma { t := t, sp := .dense, acc := acc, oa := oa, ob := ob, oc := oa } s
  | .tmmas t sp acc oa ob oc _ => effMma { t := t, sp := sp, acc := acc, oa := oa, ob := ob, oc := oc } s
  | .tzero acc _ => effTzero acc s
  | _ => s

/-- A matrix member that is a convoy of its own. -/
def matrixAlone (i : Instr) (s : State) : Out :=
  .next (checked i s fun s =>
    match matrixStop i s.v.pc s with
    | some e => s.raise i e
    | none => (matrixEff i s).clearVstart.finish i)

/-- TMMA (R426). -/
def execTmma (t : VType) (acc : AReg) (oa ob : OReg) (c : Bool) (s : State) : Out :=
  matrixAlone (.tmma t acc oa ob c) s

/-- TMMAS (R426). -/
def execTmmas (t : VType) (sp : Spar) (acc : AReg) (oa ob oc : OReg) (c : Bool) (s : State) : Out :=
  matrixAlone (.tmmas t sp acc oa ob oc c) s

/-- TZERO (R432). -/
def execTzero (acc : AReg) (c : Bool) (s : State) : Out := matrixAlone (.tzero acc c) s

/-- A matrix member finishes its occupancy of the unit (R213). Results are those of program order, and in this model a member
takes effect whole, so the end of its occupancy changes nothing that a program sees. -/
def execMatrixMemberComplete (core slot : Nat) (s : State) : Out := .next (s.setVlcAt core slot id)

end Sys2Proof.Machine
end

