-- ==== Sys2Proof/Machine/Convoy.lean ====
section
/-! DEFINITION. The convoy (R84-R87): the checks of its members, and its issue, vector, matrix and scalar phases. -/

namespace Sys2Proof.Machine

/-! ## Members -/

/-- A member of a convoy as fetched: its address and its bits. -/
structure Fetchee where
  at_ : Word
  bits : Nat
  deriving DecidableEq, Repr

/-- The bytes of a member's encoding. -/
def encodedLen (w : Nat) : Nat := lengthOf (w % 65536)

/-- The members with their addresses, from `a` on. -/
def placed (a : Word) : List (BitVec 64) → List Fetchee
  | [] => []
  | w :: l => { at_ := a, bits := w.toNat } :: placed (a + BitVec.ofNat 64 (encodedLen w.toNat)) l

/-- The address of the instruction after the last member. -/
def after (a : Word) (ws : List (BitVec 64)) : Word :=
  ws.foldl (fun b w => b + BitVec.ofNat 64 (encodedLen w.toNat)) a

/-- A member that passed its checks. -/
structure Joined where
  at_ : Word
  i : Instr
  deriving DecidableEq, Repr

/-- The member's role is one of a list. -/
def hasRole (l : List Joined) (r : Role) : Bool := l.any fun m => m.i.role == r

/-- The members of a role. -/
def countRole (l : List Joined) (p : Role → Bool) : Nat := (l.filter fun m => p m.i.role).length

/-- A role that holds a unit of its own. -/
def isUnit (r : Role) : Bool := r == .ia || r == .im || r == .fm || r == .fx

/-- The conditions of R85 that a member breaks against the members before it, in their order. -/
def joinFault (before : List Joined) (i : Instr) : Option IllSub :=
  let r := i.role
  if r == .scalar && countRole before (· == .scalar) == 4 then some .cvcount
  else if r != .scalar && countRole before (· != .scalar) == 4 then some .cvcount
  else if isUnit r && hasRole before r then some .cvunit
  else if r == .mem && countRole before (· == .mem) == 2 then some .cvmem
  else if (r == .matrix || r == .accPort) && (hasRole before .matrix || hasRole before .accPort) then some .cvmatrix
  else none

/-- A member's own checks, with TVAL as R85 gives it: the member's address for ILL, group misuse too (DESIGN CHOICE, log 60), its
encoding, of bits `w`, for PRIV. -/
def memberStop (m : Joined) (w : Nat) (s : State) : Option Stop :=
  match ownStop m.i s with
  | some (.trap .ill sub _ r) => some (.trap .ill sub m.at_ r)
  | some (.trap cls sub t r) => some (.trap cls sub (if t = m.i.value then BitVec.ofNat 64 w else t) r)
  | some e => some e
  | none => none

/-- Every member's checks in program order (R85): the members, or the first failure. -/
def joinAll (s : State) (before : List Joined) : List Fetchee → Except Stop (List Joined)
  | [] => .ok before
  | f :: l =>
    let checks (i : Instr) : Option Stop :=
      match memberStop { at_ := f.at_, i := i } f.bits s with
      | some e => some e
      | none => (joinFault before i).map fun e => illStop e f.at_
    match decode (bytesOf 8 f.bits) with
    | .ill e => .error (illStop e f.at_)
    | .truncated => .error (illStop .zero f.at_)
    | .joined i => .error ((checks i).getD (illStop .cvjoin f.at_))
    | .instr i =>
      match checks i with
      | some e => .error e
      | none => joinAll s (before ++ [{ at_ := f.at_, i := i }]) l

/-! ## The phases (R86) -/

/-- The vector or accumulator-port member of an instruction. -/
def memberOf (i : Instr) : Option Member :=
  match i with
  | .vadd t m d a b _ => some (memAdd t m d a b)
  | .vsub t m d a b _ => some (memSub t m d a b)
  | .vmul t m d a b _ => some (memMul t m d a b)
  | .vmulh t m d a b _ => some (memMulh t m d a b)
  | .vand t m d a b _ => some (memAnd t m d a b)
  | .vor t m d a b _ => some (memOr t m d a b)
  | .vxor t m d a b _ => some (memXor t m d a b)
  | .vshl t m d a b _ => some (memShl t m d a b)
  | .vshr t m d a b _ => some (memShr t m d a b)
  | .vshra t m d a b _ => some (memShra t m d a b)
  | .vmin t m d a b _ => some (memMin t m d a b)
  | .vmax t m d a b _ => some (memMax t m d a b)
  | .vsadd t m d a b _ => some (memSadd t m d a b)
  | .vssub t m d a b _ => some (memSsub t m d a b)
  | .vfadd t m d a b _ => some (memFadd t m d a b)
  | .vfsub t m d a b _ => some (memFsub t m d a b)
  | .vfmul t m d a b _ => some (memFmul t m d a b)
  | .vfdiv t m d a b _ => some (memFdiv t m d a b)
  | .vfsqrt t m d a _ => some (memFsqrt t m d a)
  | .vfrsq t m d a _ => some (memFrsq t m d a)
  | .vfrcp t m d a _ => some (memFrcp t m d a)
  | .vfma t m d a b _ => some (memFma t m d a b)
  | .vfmin t m d a b _ => some (memFmin t m d a b)
  | .vfmax t m d a b _ => some (memFmax t m d a b)
  | .vfcvt t p u d a _ => some (memFcvt t p u d a)
  | .vfclass t m d a _ => some (memFclass t m d a)
  | .vfexp2 t m d a _ => some (memFexp2 t m d a)
  | .vcmp t p d a b _ => some (memCmp t p d a b)
  | .vsplat t m d a _ => some (memSplat t m d a)
  | .vmerge t m d a b _ => some (memMerge t m d a b)
  | .mlog p d a b _ => some (memLog p d a b)
  | .vidx step first w d _ => some (memIdx step first w d)
  | .vld t m o d a _ => some (memVld t m o d a)
  | .vst t m o d a _ => some (memVst t m o d a)
  | .vldx t m d a b _ => some (memVldx t m d a b)
  | .vstx t m d a b _ => some (memVstx t m d a b)
  | .vstxa t m d a b _ => some (memVstxa t m d a b)
  | .vldl t m d a _ => some (memVldl t m d a)
  | .vstl t m d a _ => some (memVstl t m d a)
  | .vldbpc t m d a _ => some (memVldbpc t m d a)
  | .vstbpc t m d a _ => some (memVstbpc t m d a)
  | .text t m acc u d _ => some (memText t m acc u d)
  | .tinj t m acc u a _ => some (memTinj t m acc u a)
  | _ => none

/-- The vector and accumulator-port members, in program order. -/
def membersOf (l : List Joined) : List Member := l.filterMap fun m => memberOf m.i

/-- The effect of a scalar member at an address (R86 phase 4). -/
def scalarEff (at_ : Word) (i : Instr) (s : State) : State :=
  match i with
  | .add d a b _ => effAdd d a b s
  | .sub d a b _ => effSub d a b s
  | .mul d a b _ => effMul d a b s
  | .mulh u d a b _ => effMulh u d a b s
  | .div u d a b _ => effDiv u d a b s
  | .rem u d a b _ => effRem u d a b s
  | .and d a b _ => effAnd d a b s
  | .or d a b _ => effOr d a b s
  | .xor d a b _ => effXor d a b s
  | .shl d a b _ => effShl d a b s
  | .shr d a b _ => effShr d a b s
  | .shra d a b _ => effShra d a b s
  | .cmp p d a b _ => effCmp p d a b s
  | .min u d a b _ => effMin u d a b s
  | .max u d a b _ => effMax u d a b s
  | .clz d a _ => effClz d a s
  | .ctz d a _ => effCtz d a s
  | .popc d a _ => effPopc d a s
  | .sel d a b _ => effSel d a b s
  | .addImm d a k _ => effAddImm d a k s
  | .andImm d a k _ => effAndImm d a k s
  | .orImm d a k _ => effOrImm d a k s
  | .xorImm d a k _ => effXorImm d a k s
  | .shlImm d a k _ => effShlImm d a k s
  | .shrImm d a k _ => effShrImm d a k s
  | .shraImm d a k _ => effShraImm d a k s
  | .mulImm d a k _ => effMulImm d a k s
  | .cmpS64LtImm d a k _ => effCmpS64LtImm d a k s
  | .cmpN64LtImm d a k _ => effCmpN64LtImm d a k s
  | .lih d k _ => effLih d k s
  | .addpc d k _ => effAddpc at_ d k s
  | .mfs d r _ => effMfs d r s
  | .mts r a _ => effMts r a s
  | _ => s

/-- The conditions of a scalar member that R86 checks at its own turn. -/
def lateStop (at_ : Word) (i : Instr) (s : State) : Option Stop :=
  if badVt i s then some (illStop .type at_)
  else if emptiesLc i s then some (illStop .lcempty at_)
  else if badReads i s then some regfileStop
  else none

/-- The scalar phase: the scalar members in program order, up to the first that R86 stops late. -/
def scalarPhase (s : State) : List Joined → State × Option (Instr × Stop)
  | [] => (s, none)
  | m :: l =>
    if m.i.role = .scalar then
      match lateStop m.at_ m.i s with
      | some e => (s, some (m.i, e))
      | none => scalarPhase (scalarEff m.at_ m.i s) l
    else scalarPhase s l

/-- The issue checks of the matrix or accumulator-port members (R86 phase 1). -/
def issueStop (s : State) : List Joined → Option Stop
  | [] => none
  | m :: l =>
    let e := if m.i.role = .accPort then portStop m.at_ s else matrixStop m.i m.at_ s
    match e with
    | some x => some x
    | none => issueStop s l

/-- The matrix phase. -/
def matrixPhase (s : State) (l : List Joined) : State := l.foldl (fun s m => matrixEff m.i s) s

/-- A trap taken after the convoy, with the pc past its last member (R86). -/
def State.lateTrap (s : State) (next : Word) (i : Instr) (e : Stop) : State :=
  let s1 := (s.clearVstart.setV fun v => { v with pc := next }).unmark i e
  match e with
  | .trap cls sub tval frec =>
    s1.takeTrap { cls := cls, sub := sub, tval := tval, tpc := next, forced := false, frec := frec }
  | .remote .. | .drain | .cut => s1

/-- The end of a convoy whose vector phase completed: the matrix and scalar phases, and VSTART := 0 (R86). -/
def convoyTail (i : Instr) (next : Word) (l : List Joined) (s : State) : State :=
  match scalarPhase (matrixPhase s l) l with
  | (s1, none) => s1.clearVstart.complete i next false
  | (s1, some (m, e)) => s1.lateTrap next m e

/-- The mask register that a member writes. -/
def maskDest : Instr → Option MReg
  | .vcmp _ _ d _ _ _ | .mlog _ d _ _ _ | .vldbpc _ d _ _ _ => some d
  | _ => none

/-- The first member that would read uncorrectable state when the convoy issues (R311): no scalar member, and no mask that an earlier
member of the convoy writes. -/
def badMember (s : State) (written : List MReg) : List Joined → Option Instr
  | [] => none
  | m :: l =>
    if s.v.untouched ∧ m.i.role ≠ .scalar ∧ ((stateReads m.i).any fun x => s.v.bad.contains x && !(written.map RegMark.mask).contains x) then some m.i
    else badMember s (written ++ (maskDest m.i).toList) l

/-- A convoy from its issue on (R86). -/
def convoyRun (i : Instr) (next : Word) (l : List Joined) (s : State) : State :=
  match issueStop s l with
  | some e => s.raise i e
  | none =>
    match badMember s [] l with
    | some m => (s.unmark m regfileStop).raise i regfileStop
    | none =>
      match vectorPhase (membersOf l) s with
      | .done s1 => convoyTail i next l s1
      | .stopped s1 e => s1.raise i e

/-- A VST with a scope is a release (R185). -/
def isRelease (i : Instr) : Bool :=
  match i with
  | .vst _ _ o _ _ _ => o.isSome
  | _ => false

/-- A convoy waits for the stores that its members' order asks for (R183, R185). -/
def convoyWaits (s : State) (l : List Joined) : Bool :=
  l.any fun m => (isRelease m.i && s.v.stores != []) || waitsForOld m.i s

/-- A convoy of two or more members, as fetched from the pc on (R85, R86). -/
def execConvoy (ws : List (BitVec 64)) (s : State) : Out :=
  .next (match joinAll s [] (placed s.v.pc ws) with
    | .error e => s.raise (.convoy ws) e
    | .ok l => if convoyWaits s l then s.drain (.convoy ws) else convoyRun (.convoy ws) (after s.v.pc ws) l s)

end Sys2Proof.Machine
end

