-- ==== Sys2Proof/Machine/Copy.lean ====
section
/-! DEFINITION. Commands of the engines: their accesses, shadows and publication (R192-R195), issue and handles (R241), the copy
engine (R402-R404), PUBL (R194) and CWAIT (R405). -/

namespace Sys2Proof.Machine

/-! ## Frozen jobs (R370) -/

/-- The job of a context is frozen, freezing or single-stepping. -/
def State.frozenCtx (s : State) (ctx : Nat) : Bool :=
  match s.job (s.jobOf ctx) with
  | some j => j.st != .running
  | none => false

/-- An engine step of a context held until its job's release. -/
def State.holdStep (s : State) (ctx : Nat) (e : Instr) : State :=
  let key := s.jobOf ctx
  { s with jobs := s.jobs.map fun j => if j.key == key then { j with held := j.held ++ [e] } else j }

/-! ## Accesses of an engine (R177, R192, R193) -/

/-- Why an engine's access does not complete: a status code with its detail (R244), or data of another endpoint that has not
come yet. -/
inductive EngStop where
  | code (c : Nat) (detail : Nat)
  | remote (owner key ep pa : Nat) (op : RemoteOp)
  deriving DecidableEq, Repr

/-- What stops an access of a party's engine, as the engine reports it, at an address (R244 Table 5). -/
def engStop (p : Party) (a : Word) : Stop → EngStop
  | .remote key ep pa op => .remote p.owner key ep pa op
  | .trap .memerr _ _ _ => .code 9 (untag a).toNat
  | .trap _ _ _ _ => .code 8 (untag a).toNat
  | .drain | .cut => .code 8 (untag a).toNat

/-- The party number of a command or a transfer, by its handle. -/
def handleOwner (h : Nat) : Nat := 2 * h + 2

/-- The party number of another engine step: its kind, below 8, and its own number. -/
def engOwner (kind n : Nat) : Nat := 16 * n + 2 * kind + 1

/-- The party of a command. -/
def Command.party (c : Command) : Party :=
  { ctx := c.ctx, sup := c.sup, die := c.die, core := none, slot := 0, watch := false, owner := handleOwner c.handle }

/-- The memory of a space other than 0 beside a core, by place. -/
def placeOf (core : Nat) (x : Space) (o : Nat) : Place :=
  match x with
  | .cmem => .cmem (clusterOf core) o
  | .spad => .spad core o
  | .glob => .phys o
  | .lane => .phys o

/-- Bytes at a place. -/
def State.readPlace (s : State) (p : Place) (n : Nat) : Nat :=
  match p with
  | .phys pa => s.dram pa n
  | .cmem c o => (s.cluster c).cmem.read o n
  | .spad c o => (s.core c).spad.read o n

/-- The seal of a key slot. -/
def State.slotSeal (s : State) (slot : Option Nat) : Seal :=
  match slot with
  | none => .clear
  | some k =>
    match s.pilot.keys.find? (·.1 == k) with
    | some x => .key x.2
    | none => .lost

/-- Bytes stored at a place of this package. -/
def State.writePlace (s : State) (p : Place) (n x : Nat) (key : Option Nat) : State :=
  match p with
  | .phys pa =>
    if epOf pa = s.endpoint then ((s.count pa).writeSealed (s.slotSeal key) pa n x).wrote p else s
  | .cmem c o => (s.setCluster c fun k => { k with cmem := k.cmem.write o n x }).wrote p
  | .spad c o => (s.setCore c fun k => { k with spad := k.spad.write o n x }).wrote p

/-- An engine's read of `n` bytes (1, 2, 4 or 8) for element `i`. -/
def State.engRead (s : State) (p : Party) (core : Nat) (x : Space) (a : Word) (n i : Nat) : Except EngStop (Nat × State) :=
  if !alignOk a.toNat n then .error (.code 8 (untag a).toNat)
  else match x with
  | .glob => (s.load p (.mem a n .load i)).mapError (engStop p a)
  | .cmem => if inSpace .cmem a.toNat n then .ok (s.readPlace (placeOf core .cmem a.toNat) n, s) else .error (.code 8 (untag a).toNat)
  | .spad => if inSpace .spad a.toNat n then .ok (s.readPlace (placeOf core .spad a.toNat) n, s) else .error (.code 8 (untag a).toNat)
  | .lane => .error (.code 8 (untag a).toNat)

/-- The key slot of a sealed page. -/
def TlbEntry.keySlot (e : TlbEntry) : Option Nat := if e.bit 11 then e.key else none

/-- The place of an engine's write of `n` bytes for element `i`, checked; what another endpoint checks of it, it answers (R193,
R283, R403). -/
def State.engTarget (s : State) (p : Party) (core : Nat) (x : Space) (a : Word) (n i : Nat) :
    Except EngStop ((Place × Option Nat) × State) :=
  if !alignOk a.toNat n then .error (.code 8 (untag a).toNat)
  else match x with
  | .glob =>
    match s.resolve p (.mem a n .store i) with
    | .error e => .error (engStop p a e)
    | .ok r =>
      let done : (Place × Option Nat) × State := ((.phys r.pa, r.e.keySlot), s.note p (.mem a n .store i) r)
      if epOf r.pa = s.endpoint then .ok done
      else ((s.probed p (.mem a n .store i) r).mapError (engStop p a)).map fun _ => done
  | .cmem => if inSpace .cmem a.toNat n then .ok ((placeOf core .cmem a.toNat, none), s) else .error (.code 8 (untag a).toNat)
  | .spad => if inSpace .spad a.toNat n then .ok ((placeOf core .spad a.toNat, none), s) else .error (.code 8 (untag a).toNat)
  | .lane => .error (.code 8 (untag a).toNat)

/-- `n` bytes read for an engine from space 0, 8 at a time, with what is left byte by byte. -/
def State.engBytes (s : State) (p : Party) (a : Word) : Nat → Except EngStop (List Byte × State)
  | 0 => .ok ([], s)
  | n + 1 => do
    let (x, s1) ← s.engRead p 0 .glob a 1 0
    let (l, s2) ← s1.engBytes p (a + 1) n
    .ok (BitVec.ofNat 8 x :: l, s2)

/-- `n` words of 8 bytes read for an engine. -/
def State.engWords (s : State) (p : Party) (a : Word) : Nat → Except EngStop (List Byte × State)
  | 0 => .ok ([], s)
  | n + 1 => do
    let (x, s1) ← s.engRead p 0 .glob a 8 0
    let (l, s2) ← s1.engWords p (a + 8) n
    .ok (bytesOf 8 x ++ l, s2)

/-- The shadow of a list of words written from an address of space 0. -/
def State.shadeWords (s : State) (p : Party) (a : Word) : List Nat → Except EngStop (List Shade × State)
  | [] => .ok ([], s)
  | x :: l => do
    let (t, s1) ← s.engTarget p 0 .glob a 8 0
    let (r, s2) ← s1.shadeWords p (a + 8) l
    .ok ({ place := t.1, n := 8, x := x, key := t.2 } :: r, s2)

/-! ## Publication (R193, R194) -/

/-- The status word of a code and a detail (R244). -/
def statusWord (code detail : Nat) : Word := fieldAt (detail % 2 ^ 57) 7 ||| fieldAt code 0

/-- The unit at a DRAM byte lies wholly in the places a shadow writes. -/
def State.coveredBy (s : State) (l : List Shade) (pa : Nat) : Bool :=
  let u := unitBytes (s.region pa).gr
  (List.range u).all fun k => l.any fun h =>
    match h.place with
    | .phys q => decide (q ≤ pa / u * u + k) && decide (pa / u * u + k < q + h.n)
    | .cmem _ _ => false
    | .spad _ _ => false

/-- The units that a publication covers wholly lose their poison (R281). -/
def State.healUnits (s : State) (l : List Shade) : State :=
  l.foldl (fun s h =>
    match h.place with
    | .phys pa => if epOf pa = s.endpoint ∧ s.poisoned pa ∧ s.coveredBy l pa then s.setPoison pa false else s
    | .cmem _ _ => s
    | .spad _ _ => s) s

/-- The 32-byte blocks of the tag unit that holds a DRAM byte (R290), with a tag. -/
def State.tagUnit (s : State) (pa tag : Nat) : List (Nat × Nat) :=
  if (s.region pa).gr = 0 then [(dramKey pa / 32, tag)]
  else [(dramKey pa / 64 * 2, tag), (dramKey pa / 64 * 2 + 1, tag)]

/-- The memory tag of the unit of a DRAM byte of this package set (R290). -/
def State.setTag (s : State) (pa tag : Nat) : State :=
  { s with mem := { s.mem with tags := (s.tagUnit pa tag).foldl (fun m x => put 0 x.1 x.2 m) s.mem.tags } }

/-- The writes of a shadow that reach another endpoint, each with its endpoint. -/
def State.farShades (s : State) (l : List Shade) : List (Nat × Nat × Nat × Nat × Option Nat) :=
  l.filterMap fun h =>
    match h.place with
    | .phys pa => if epOf pa = s.endpoint then none else some (epOf pa, pa, h.n, h.x, h.key)
    | .cmem _ _ => none
    | .spad _ _ => none

/-- What a publication asks of other endpoints: all its writes to one endpoint in one request, which performs them at one instant
(R194), and its tags. -/
def State.farOps (s : State) (l : List Shade) (tags : List (Nat × Nat)) : List (Nat × RemoteOp) :=
  let far := s.farShades l
  ((far.map (·.1)).eraseDups.map fun ep =>
      let mine := (far.filter (·.1 == ep)).map (·.2)
      ((mine.head?.map (·.1)).getD 0, RemoteOp.batch mine))
    ++ (tags.filter fun x => epOf x.1 != s.endpoint).map fun x => (x.1, RemoteOp.tag x.2)

/-- A store outstanding for each write of a request of a publication. -/
def postedOf (id pa : Nat) : RemoteOp → List Posted
  | .batch l => l.map fun x =>
      { id := id, pa := x.1, n := x.2.1, mask := 2 ^ (8 * x.2.1) - 1, val := x.2.2.1 % 2 ^ (8 * x.2.1), known := true,
        fresh := true, old := false }
  | _ => [{ id := id, pa := pa, n := 0, mask := 0, val := 0, known := true, fresh := true, old := false }]

/-- Requests sent for a VLC, each held among its stores until it is acknowledged. -/
def State.sendOps (s : State) (launch rank : Nat) (l : List (Nat × RemoteOp)) : State :=
  l.foldl (fun (s : State) (x : Nat × RemoteOp) =>
    let s1 := s.mapVlcs fun v =>
      if v.status != .absent && v.launch == launch && v.rank.toNat == rank then
        { v with stores := v.stores ++ postedOf s.nextReq x.1 x.2 }
      else v
    s1.inject (epOf x.1) x.1 x.2) s

/-- Every write of a shadow performed, and every tag set, for a VLC: those of this package at once. -/
def State.publishShades (s : State) (launch rank : Nat) (l : List Shade) (tags : List (Nat × Nat)) : State :=
  let s1 := (l.foldl (fun s h => s.writePlace h.place h.n h.x h.key) s).healUnits l
  let s2 := (tags.filter fun x => epOf x.1 == s.endpoint).foldl (fun s x => s.setTag x.1 x.2) s1
  s2.sendOps launch rank (s.farOps l tags)

/-- The pending topology that a command prepared becomes current on its die (R246). -/
def Mesh.publish (m : Mesh) (die h : Nat) : Mesh :=
  match m.pending with
  | some (k, t) => if m.die = die ∧ k = h then { m with cur := t, pending := none } else m
  | none => m

/-- Commands of a VLC published together: their target bytes take their shadow values, their tags and their pending topologies take
effect. -/
def State.publish (s : State) (launch rank : Nat) (set : List Command) : State :=
  let s1 := s.publishShades launch rank (set.flatMap (·.shadow)) (set.flatMap (·.tags))
  let s2 := { s1 with
    meshes := s1.meshes.map fun m => set.foldl (fun (m : Mesh) (c : Command) => m.publish c.die c.handle) m
    commands := s1.commands.map fun (k : Command) => if set.any fun c => k.die == c.die && k.handle == c.handle then k.dropShadow else k }
  s2.dueTlb

/-! ## Issue and handles (R241, R403) -/

/-- The command of a die and handle. -/
def State.command (s : State) (die h : Nat) : Option Command := s.commands.find? fun c => c.die == die && c.handle == h

/-- A command changed. -/
def State.setCommand (s : State) (die h : Nat) (f : Command → Command) : State :=
  { s with commands := s.commands.map fun c => if c.die == die && c.handle == h then f c else c }

/-- The step that ends a command. -/
def endOf (k : CmdKind) (die h : Nat) : Instr :=
  match k with
  | .cpy => .cpyCommandEnd die h
  | .mlocate => .mlocateEnd die h
  | .mrefine => .mrefineEnd die h []
  | .mcoarsen => .mcoarsenEnd die h []
  | .mremap => .mremapEnd die h
  | .mcolor => .mcolorEnd die h
  | .mcut => .mcutEnd die h []
  | .mmigr => .mmigrEnd die h []
  | .mghost => .mghostEnd die h []

/-- The unfinished commands of a die's copy engine, or of all its engines. -/
def State.unfinished (s : State) (die : Nat) (copyOnly : Bool) : Nat :=
  (s.commands.filter fun c => c.die == die && c.status.isNone && (!copyOnly || c.kind == .cpy)).length

/-- A command as the issuing VLC begins it. -/
def State.newCommand (s : State) (k : CmdKind) (record block : List Byte) (target : Word) : Command where
  die := dieOf s.v.core
  handle := 0
  kind := k
  launch := s.v.launch
  rank := s.v.rank.toNat
  ctx := s.v.ctx
  sup := s.v.sup
  core := s.v.core
  record := record
  block := block
  mesh := none
  others := []
  status := none
  target := target.toNat
  shadow := []
  tags := []
  settled := false
  claimed := false

/-- A captured command issued, its handle written to `d`; it ends in a step of its own. Where its engines are full, the VLC
waits with the command captured. -/
def State.issueCommand (s : State) (i : Instr) (d : SReg) (c : Command) : State :=
  if 64 ≤ s.unfinished c.die (c.kind == .cpy) then (s.setV fun v => { v with queued := some c }).block i
  else
    let h := s.nextHandle
    let s1 := { s with nextHandle := h + 1, commands := s.commands ++ [{ c with handle := h }] }
    ((s1.due (endOf c.kind c.die h)).wr d (BitVec.ofNat 64 h)).finish i

/-- The issue of an instruction whose capture is `x`, once the stores before it are performed: the command reads its sources after
them (R192). -/
def State.issueFrom (s : State) (i : Instr) (d : SReg) (x : State → Except Stop (Command × State)) : State :=
  s.afterStores i fun s =>
    match x s with
    | .error e => s.raise i e
    | .ok (c, s1) => s1.issueCommand i d c

/-- A VLC that waits for room in its engines issues its captured command again. -/
def execCommandIssueResume (core slot : Nat) (s : State) : Out :=
  .next (s.onVlc core slot fun s1 =>
    match s1.v.status, s1.v.queued with
    | .blocked i, some c =>
      match i with
      | .cpy d _ _ | .mlocate d _ _ | .mrefine d _ _ | .mcoarsen d _ _ | .mremap d _ _ | .mcolor d _ _ | .mcut d _ _
      | .mmigr d _ _ | .mghost d _ _ => s1.issueCommand i d c
      | _ => s1
    | _, _ => s1)

/-- The steps that an ended command makes due: CWAITs and PUBLs of its VLC, and issues that wait for room on its die. -/
def State.wakeFor (s : State) (c : Command) : State :=
  { s with events := s.events ++ s.vlcs.flatMap fun v =>
      match v.status with
      | .blocked (.cwait _ _ _) => if v.launch == c.launch && v.rank.toNat == c.rank then [.cwaitWake v.core v.slot] else []
      | .blocked (.publ _ _) => if v.launch == c.launch && v.rank.toNat == c.rank then [.publSwap v.core v.slot] else []
      | .blocked _ =>
        if v.queued.isSome && dieOf v.core == c.die then [.commandIssueResume v.core v.slot] else []
      | _ => [] }

/-- What a command leaves when it ends in code 0. -/
structure Product where
  shadow : List Shade
  tags : List (Nat × Nat)
  detail : Nat
  deriving DecidableEq, Repr

/-- A product of a shadow alone. -/
def Product.ofShades (l : List Shade) : Product := { shadow := l, tags := [], detail := 0 }

/-- A command ended with a status, and its shadow if it may still be published. -/
def State.endCommand (s : State) (c : Command) (status : Word) (p : Product) : State :=
  let s1 := s.setCommand c.die c.handle fun k =>
    { k with status := some status, shadow := if k.settled then [] else p.shadow, tags := if k.settled then [] else p.tags }
  ((s1.wakeFor c).settleLaunch c.launch)

/-- An engine step of a party that waits for data of another endpoint. -/
def State.engWait (s : State) (e : Instr) (owner key ep pa : Nat) (op : RemoteOp) : State :=
  if s.engineWaits.any fun x => x.2.1 == owner && x.2.2.1 == key then s
  else
    { s with engineWaits := s.engineWaits ++ [(s.nextReq, owner, key, e)] }.inject ep pa op

/-- The answers that a party's step has used are forgotten. -/
def State.forgetAnswers (s : State) (owner : Nat) : State :=
  { s with engineData := s.engineData.filter fun x => x.1 != owner }

/-- A mesh lost to an error of its storage is no longer held on its die once a command has reported it (R244). -/
def State.dropMesh (s : State) (c : Command) : State :=
  match c.mesh with
  | some m => { s with meshes := s.meshes.filter fun x => !(x.die == m.die && x.id == m.id) }
  | none => s

/-- The end of a command: what it computes becomes its status and shadow, unless its job is frozen (R370) or it waits for data
of another endpoint. -/
def State.commandEnd (s : State) (die h : Nat) (k : CmdKind) (run : Command → State → Except EngStop (Product × State)) :
    State :=
  match s.command die h with
  | none => s
  | some c =>
    if c.kind ≠ k ∨ c.status.isSome then s
    else if s.frozenCtx c.ctx then s.holdStep c.ctx (endOf k die h)
    else match run c s with
    | .error (.remote owner key ep pa op) => s.engWait (endOf k die h) owner key ep pa op
    | .error (.code code detail) =>
      ((if code = 10 then s.dropMesh c else s).forgetAnswers (handleOwner h)).endCommand c (statusWord code detail) (.ofShades [])
    | .ok (p, s1) => (s1.forgetAnswers (handleOwner h)).endCommand c (statusWord 0 p.detail) p

/-! ## CPY (R402-R404) -/

/-- The descriptor of CPY. -/
structure CopyDesc where
  drec : Word
  srec : Word
  dspace : Nat
  sspace : Nat
  esize : Nat
  mode : Nat
  fill : Nat
  deriving DecidableEq, Repr

/-- A descriptor from its bytes (R402 Table 3). -/
def CopyDesc.of (r : List Byte) : CopyDesc where
  drec := BitVec.ofNat 64 (field r 0 8)
  srec := BitVec.ofNat 64 (field r 8 8)
  dspace := field r 0x10 1
  sspace := field r 0x11 1
  esize := field r 0x12 1
  mode := field r 0x13 1
  fill := field r 0x18 8

/-- Bytes of a record are all 0. -/
def zeroes (r : List Byte) (o n : Nat) : Bool := ((r.drop o).take n).all (· == 0)

/-- A descriptor that R402 allows. -/
def CopyDesc.ok (d : CopyDesc) (r : List Byte) : Bool :=
  decide (d.dspace ≤ 2) && decide (d.sspace ≤ 2) && decide (d.esize ≤ 3) && decide (d.mode ≤ 2) && zeroes r 0x14 4
    && zeroes r 0x20 32 && (d.mode == 0 || (d.srec == 0 && d.sspace == 0))
    && (if d.mode = 0 then d.fill == 0
        else if d.mode = 1 then decide (d.fill < 2 ^ (8 * 2 ^ d.esize))
        else decide (d.fill < 16) && d.esize == 0 && d.dspace == 0)

/-- A stream record captured for CPY: its bytes and its stream. -/
def State.copyRecord (s : State) (a : Word) : Except Stop ((List Byte × Stream) × State) :=
  if a.toNat % 16 ≠ 0 then .error (.plain .align 0 (untag a))
  else do
    let (r, s1) ← s.capture s.party a 16
    match streamOf r with
    | none => .error (.prot 0 (untag a))
    | some q => .ok ((r, q), s1)

/-- A count that the positions left in a record allow. -/
def countFits (n : Nat) (q : Stream) : Bool := decide (n ≤ q.extent - q.pos)

/-- CPY up to the wait for room (R403). -/
def copyCapture (a b : SReg) (s : State) : Except Stop (Command × State) :=
  if (s.rd a).toNat % 64 ≠ 0 then .error (.plain .align 0 (untag (s.rd a)))
  else do
    let (r, s1) ← s.capture s.party (s.rd a) 8
    let d := CopyDesc.of r
    if !d.ok r then .error (.prot 0 (untag (s.rd a)))
    let (dr, s2) ← s1.copyRecord d.drec
    let (sr, s3) ← if d.mode = 0 then s2.copyRecord d.srec else .ok (([], dr.2), s2)
    let n := (s.rd b).toNat
    if n = 0 ∨ 2 ^ 32 < n ∨ !countFits n dr.2 ∨ !countFits n sr.2 then .error (.prot 0 (s.rd b))
    .ok (s3.newCommand .cpy (dr.1 ++ sr.1) (r ++ bytesOf 8 n) (dr.2.address (2 ^ d.esize) dr.2.pos), s3)

/-- CPY (R402, R403). -/
def execCpy (d a b : SReg) (s : State) : Out :=
  .next (checked (.cpy d a b) s fun s => s.issueFrom (.cpy d a b) d (copyCapture a b))

/-- The space of a code of a descriptor. -/
def spaceOfCode (n : Nat) : Space := if n = 1 then .cmem else if n = 2 then .spad else .glob

/-- Elements from number `i`, `n` of them, of a copy command. -/
def copyElems (c : Command) (d : CopyDesc) (dq sq : Stream) (s : State) (i : Nat) : Nat → Except EngStop (Product × State)
  | 0 => .ok (.ofShades [], s)
  | n + 1 => do
    let size := 2 ^ d.esize
    let (x, s1) ←
      if d.mode = 0 then s.engRead c.party c.core (spaceOfCode d.sspace) (sq.address size (sq.pos + i)) size i
      else .ok (d.fill, s)
    let (t, s2) ← s1.engTarget c.party c.core (spaceOfCode d.dspace) (dq.address size (dq.pos + i)) size i
    let (p, s3) ← copyElems c d dq sq s2 (i + 1) n
    if d.mode = 2 then
      match t.1 with
      | .phys pa => .ok ({ p with tags := (pa, d.fill) :: p.tags }, s3)
      | .cmem _ _ => .ok (p, s3)
      | .spad _ _ => .ok (p, s3)
    else .ok ({ p with shadow := { place := t.1, n := size, x := x, key := t.2 } :: p.shadow }, s3)

/-- A copy command runs (R403, R404). -/
def copyRun (c : Command) (s : State) : Except EngStop (Product × State) :=
  let d := CopyDesc.of c.block
  match streamOf (c.record.take 128), streamOf (c.record.drop 128) with
  | some dq, some sq => copyElems c d dq sq s 0 (field c.block 64 8)
  | some dq, none => copyElems c d dq dq s 0 (field c.block 64 8)
  | none, _ => .ok (.ofShades [], s)

/-- A copy command ends (R404). -/
def execCpyCommandEnd (die h : Nat) (s : State) : Out := .next (s.commandEnd die h .cpy copyRun)

/-! ## PUBL (R194) -/

/-- The commands that a PUBL of base `b` publishes. -/
def State.publSet (s : State) (b : Nat) : List Command :=
  s.commands.filter fun c =>
    c.of s.v.launch s.v.rank.toNat && !c.settled && c.target == b && c.kind != .mghost

/-- The commands of a list ended in code 0. -/
def allGood (l : List Command) : Bool := l.all fun c => c.status == some 0

/-- PUBL once its checks of decode are made. -/
def publRun (i : Instr) (a : SReg) (s : State) : State :=
  let set := s.publSet (s.rd a).toNat
  if set.any fun c => c.status.isNone then s.block i
  else if set.any fun c => (c.status.getD 0).toNat % 128 != 0 then
    (s.discardShadows fun c => set.any fun k => k.die == c.die && k.handle == c.handle).raise i (.prot 0 (untag (s.rd a)))
  else if s.v.stores ≠ [] then s.block i
  else (s.publish s.v.launch s.v.rank.toNat set).finish i

/-- PUBL (R194). -/
def execPubl (sc : Scope) (a : SReg) (s : State) : Out :=
  .next (checked (.publ sc a) s (publRun (.publ sc a) a))

/-- A waiting PUBL tries again. -/
def execPublSwap (core slot : Nat) (s : State) : Out :=
  .next (s.onVlc core slot fun s1 =>
    match s1.v.status with
    | .blocked (.publ sc a) => publRun (.publ sc a) a s1
    | _ => s1)

/-! ## CWAIT (R405) -/

/-- What a handle of the issuing VLC names: a command or a transfer whose status is unclaimed, with that status. -/
def State.claimable (s : State) (h : Nat) : Option (Option Word) :=
  match s.commands.find? fun c => c.of s.v.launch s.v.rank.toNat && c.handle == h && !c.claimed with
  | some c => some c.status
  | none =>
    (s.transfers.find? fun t => t.launch == s.v.launch && t.rank == s.v.rank.toNat && t.handle == h && !t.claimed).map
      (·.status)

/-- A handle of the issuing VLC retired. -/
def State.claim (s : State) (h : Nat) : State :=
  { s with
    commands := s.commands.map fun c =>
      if c.of s.v.launch s.v.rank.toNat && c.handle == h then { c with claimed := true } else c
    transfers := s.transfers.map fun t =>
      if t.launch == s.v.launch && t.rank == s.v.rank.toNat && t.handle == h then { t with claimed := true } else t }

/-- CWAIT once its checks of decode are made. -/
def cwaitRun (d a b : SReg) (s : State) : State :=
  let h := (s.rd a).toNat
  match s.claimable h with
  | none => s.raise (.cwait d a b) (.prot 0 (s.rd a))
  | some none =>
    if s.rd b ≠ 0 then (s.wr d (BitVec.allOnes 64)).finish (.cwait d a b) else s.block (.cwait d a b)
  | some (some w) => ((s.claim h).wr d w).finish (.cwait d a b)

/-- CWAIT (R405). -/
def execCwait (d a b : SReg) (s : State) : Out := .next (checked (.cwait d a b) s (cwaitRun d a b))

/-- A command or transfer that a CWAIT waits for has ended. -/
def execCwaitWake (core slot : Nat) (s : State) : Out :=
  .next (s.onVlc core slot fun s1 =>
    match s1.v.status with
    | .blocked (.cwait d a b) => cwaitRun d a b s1
    | _ => s1)

end Sys2Proof.Machine
end

