-- ==== Sys2Proof/Machine/Control.lean ====
section
/-! DEFINITION. The execution-control group: grants (R25-R35), SETVP (R36), BAR (R41, R44), SSYNC (R43, R44, R195), WAITV
(R45), and the steps that end their waits or take a VLC out of them (R27, R315). -/

namespace Sys2Proof.Machine

/-! ## Lane clusters and rows (R25-R27, R69, R334, R339) -/

/-- A set of lane clusters from a list of them. -/
def clusterSet (l : List Nat) : BitVec 4 := l.foldl (fun m c => m ||| BitVec.ofNat 4 (2 ^ c)) 0

/-- The other VLCs resident on the issuing VLC's core. -/
def State.residents (s : State) : List Vlc := s.parked.filter fun v => v.status.resident && v.core == s.v.core

/-- `n` of the available lane clusters: those held by the fewest VLCs first, and then the lowest numbers (R334). -/
def fewestFirst (avail : BitVec 4) (held : Nat → Nat) (n : Nat) : BitVec 4 :=
  clusterSet (((List.range 5).flatMap fun k => (clustersOf avail).filter fun c => held c == k).take n)

/-- The lane clusters of a core that MAXVL does not gate. -/
def Core.avail (c : Core) : BitVec 4 := c.lcen &&& ~~~c.fused

/-- The lane clusters of `l` dropped in turn where the set holds more than `keep` (R339). -/
def dropping (keep : Nat) : List Nat → BitVec 4 → BitVec 4
  | [], lc => lc
  | c :: l, lc => dropping keep l (if keep < (clustersOf lc).length then lc &&& ~~~BitVec.ofNat 4 (2 ^ c) else lc)

/-- LCMAP after lending, reclaim and gating (R29 step 3). -/
def State.nextLc (s : State) : BitVec 4 :=
  let avail := (s.core s.v.core).avail
  let l := s.launch s.v.launch
  if s.v.tileOwner then avail
  else
    let kept := dropping ((l.map (·.minlc)).getD 0 + 1) (clustersOf (s.v.dropLc &&& s.v.lc &&& avail)).reverse
      (s.v.lc &&& avail)
    let lc := kept ||| (s.v.gainLc &&& avail)
    if lc = 0 then
      fewestFirst avail (fun c => (s.residents.filter fun v => v.lc.getLsbD c).length) ((l.map (·.lcw)).getD 0 + 1)
    else lc

/-- D_c for an issuing VLC that holds lane cluster `c` with declaration code `decl` (R25). -/
def State.declSum (s : State) (decl : BitVec 2) (c : Nat) : Nat :=
  8 * (decl.toNat + 1) + ((s.residents.filter fun v => v.lc.getLsbD c).map (·.decl)).foldl (· + ·) 0

/-- The rows that R25 entitles the issuing VLC to. -/
def State.entitled (s : State) (lc : BitVec 4) (decl : BitVec 2) : Vector Nat 4 :=
  Vector.ofFn fun c : Fin 4 => if lc.getLsbD c then 512 / s.declSum decl c else 0

/-- The element positions of a lane that the other VLCs hold on lane cluster `c`. -/
def State.held (s : State) (c : Fin 4) : Nat :=
  (s.residents.map fun v => v.rows[c] * (8 * (v.declHeld.toNat + 1))).foldl (· + ·) 0

/-- The rows of a grant are free on every lane cluster. -/
def State.rowsFree (s : State) (decl : BitVec 2) (want : Vector Nat 4) : Bool :=
  (List.finRange 4).all fun c => want[c] == 0 || decide (want[c] * (8 * (decl.toNat + 1)) + s.held c ≤ 512)

/-! ## A grant (R29) -/

/-- A stream at the end of a strip of `vl` elements (R156). -/
def Stream.advance (q : Stream) (vl : Nat) : Stream :=
  if q.touched then { q with pos := q.pos + ceilDiv vl q.unit, touched := false } else q

/-- The end of a strip: touched streams and the extraction cursor move on (R156, R210). -/
def Vlc.endStrip (v : Vlc) : Vlc :=
  { v with
    streams := v.streams.map (·.advance v.vl)
    acur := if v.accTouched then (v.acur + v.vl) % 2 ^ 14 else v.acur
    accTouched := false }

/-- The four accumulator tiles of a core undefined, each with a value of its own. -/
def State.freshAccs (s : State) (core : Nat) : State :=
  (List.finRange 4).foldl (fun (s : State) (j : Fin 4) =>
    (s.setCore core fun c => { c with accs := c.accs.set j { data := s.free 262144, poison := 0 } }).spend) s

/-- a0 to a3 undefined, and the shape registers 0, as gating takes a lane cluster from the tile owner (R69, R431). -/
def State.loseTiles (s : State) : State :=
  (s.freshAccs s.v.core).setV fun v =>
    { v with tsmM := 0, tsmType := 0, tsmSpar := 0, tsn := 0, tskK := 0, acur := 0 }

/-- The images of every vector register undefined, each with a value of its own: their rows are given up (R27). -/
def State.loseImages (s : State) : State :=
  (List.finRange 32).foldl (fun (s : State) (j : Fin 32) =>
    (s.setV fun v => { v with vregs := v.vregs.set j { v.vregs[j] with img := s.free 262144 } }).spend) s

/-- Step 3 of a grant: lending, reclaim and gating applied to LCMAP, the pending declaration made effective (R29). -/
def State.relocate (s : State) : State :=
  let lc := s.nextLc
  let s1 := s.setV fun v =>
    { v with lc := lc, declEff := v.declPend, dropLc := v.dropLc &&& lc, gainLc := v.gainLc &&& ~~~lc }
  let s2 := if s.v.tileOwner ∧ s.v.lc &&& ~~~lc ≠ 0 then s1.loseTiles else s1
  if lc = s.v.lc ∧ s.v.declEff = s.v.declPend then s2 else ((s2.dueRows s2.v.core).duePlace).gatePower s2.v.core

/-- The grant waits for its rows: the VLC holds none meanwhile (R27). -/
def State.waitRows (s : State) (i : Instr) : State :=
  let s1 :=
    if s.v.rows = Vector.replicate 4 0 then s
    else (s.setV fun v => { v with rows := Vector.replicate 4 0 }).loseImages.dueRows s.v.core
  s1.block i

/-- The least of the rows held on a set of lane clusters. -/
def leastRows (lc : BitVec 4) (rows : Vector Nat 4) : Nat :=
  ((List.finRange 4).map fun c : Fin 4 => if lc.getLsbD c then rows[c] else 512).foldl min 512

/-- MVL for lane clusters, rows and a width code (R26). -/
def maxLength (spread : Bool) (lc : BitVec 4) (rows : Vector Nat 4) (w : Nat) : Nat :=
  let l := if spread then 16 else 16 * (clustersOf lc).length
  min 8192 (min 4096 (l * leastRows lc rows) * 64 / (8 * 2 ^ w))

/-- Steps 5 and 6 of a grant whose rows are free, from the VLC `old` as it came to the grant. -/
def State.grantRows (s : State) (old : Vlc) (spread : Bool) (request : Nat) (want : Vector Nat 4) : State :=
  let mvl := maxLength spread s.v.lc want s.v.vt.wcode
  let s1 := (s.setV fun v =>
    { v.endStrip.mended [.special .vl, .special .mvl] with
      declHeld := v.declEff, rows := want, mvl := mvl, mvl64 := maxLength spread v.lc want 3, vl := min request mvl }).spinReset
  let changed := s.v.lc ≠ old.lc ∨ s.v.declEff ≠ old.declEff ∨ want ≠ old.rows ∨ old.declHeld ≠ s.v.declEff
  if changed then ((s1.freshRegs 0 32).dueRows s1.v.core).duePlace else s1

/-- Step 1 of a grant, or the exit of a loop: it waits until the stores that its closing orders are performed (R183 Table 2). A grant
that ends a spread strip waits for those of the strips before it; any other closing waits for all. -/
def State.closing (s : State) (i : Instr) (spreadStrip : Bool) (k : State → State) : State :=
  if spreadStrip then
    if s.v.stores.any (·.old) then s.drain i
    else k (s.setV fun v => { v with stores := v.stores.map fun (w : Posted) => { w with old := true } })
  else s.afterStores i k

/-- A grant (R29): the closing; a pending pre-emption request; lending, reclaim and gating; then the wait for rows, or the grant and
what follows it. `spreadStrip` says that it ends a strip of a spread loop that continues. -/
def State.grant (s : State) (i : Instr) (request : Nat) (spread spreadStrip : Bool) (k : State → State) : State :=
  s.closing i spreadStrip fun s =>
    if s.v.preempt ∧ !s.v.sup then
      (s.setV fun v => { v with preempt := false, ripe := false }).trapHere .preempt 0 0 none
    else
      let s1 := s.relocate
      let want := s1.entitled s1.v.lc s1.v.declEff
      if s1.rowsFree s1.v.declEff want then k (s1.grantRows s.v spread request want) else s1.waitRows i

/-- The granted VL as a scalar. -/
def State.vlWord (s : State) : Word := BitVec.ofNat 64 s.v.vl

/-- SETVL once decode's checks are made (R30). -/
def setvlRun (d a : SReg) (s : State) : State :=
  s.grant (.setvl d a) (s.rd a).toNat false false fun s1 =>
    ((s1.setV fun v => { v with scnt := 0, mode := .inactive }).wr d s1.vlWord).finish (.setvl d a)

/-- SETVL (R30). -/
def execSetvl (d a : SReg) (s : State) : Out := .next (checked (.setvl d a) s (setvlRun d a))

/-- VREGS (R23): the declaration is effective at the next grant. -/
def execVregs (n : BitVec 2) (s : State) : Out :=
  alone (.vregs n) s fun s => s.setV fun v => { v with declPend := n }

/-- The lowest lane cluster of a set. -/
def lowestOf (lc : BitVec 4) : BitVec 2 := BitVec.ofNat 2 ((clustersOf lc).headD 0)

/-- The next lane cluster of a set above `c`, wrapping (R33). -/
def nextOf (lc : BitVec 4) (c : BitVec 2) : BitVec 2 :=
  match (clustersOf lc).find? fun k => decide (c.toNat < k) with
  | some k => BitVec.ofNat 2 k
  | none => lowestOf lc

/-- VLOOP once decode's checks are made (R32). -/
def vloopRun (spread : Bool) (d a : SReg) (s : State) : State :=
  let n := s.rd a
  s.grant (.vloop spread d a) n.toNat spread false fun s1 =>
    ((s1.setV fun v =>
      { v with scnt := n, mode := if spread then .spread else .plain, slc := if spread then lowestOf v.lc else v.slc }).wr d
        s1.vlWord).finish (.vloop spread d a)

/-- VLOOP (R32). -/
def execVloop (spread : Bool) (d a : SReg) (s : State) : Out :=
  .next (checked (.vloop spread d a) s (vloopRun spread d a))

/-- VNEXT once decode's checks are made (R33). -/
def vnextRun (d : SReg) (k : BitVec 18) (s : State) : State :=
  let i := Instr.vnext d k
  if s.v.mode = .inactive then (s.wr d 0).finish i
  else
    let left := s.v.scnt - s.vlWord
    if left = 0 then
      s.closing i false fun s1 => ((s1.setV fun v => { v.endStrip with scnt := 0, mode := .inactive }).wr d 0).finish i
    else s.grant i left.toNat (s.v.mode == .spread) (s.v.mode == .spread) fun s1 =>
      ((s1.setV fun v =>
        { v with scnt := left, slc := if v.mode = .spread then nextOf v.lc v.slc else v.slc }).wr d s1.vlWord).complete i
          (s1.v.pc + 2 * simm k) true

/-- VNEXT (R33). -/
def execVnext (d : SReg) (k : BitVec 18) (s : State) : Out := .next (checked (.vnext d k) s (vnextRun d k))

/-- A VLC that waits inside a grant executes it again: the rows it needs may be free (R27). -/
def execGrantRowsFree (core slot : Nat) (s : State) : Out :=
  .next (s.onVlc core slot fun s1 =>
    match s1.v.status with
    | .blocked (.setvl d a) => setvlRun d a s1
    | .blocked (.vloop sp d a) => vloopRun sp d a s1
    | .blocked (.vnext d k) => vnextRun d k s1
    | _ => s1)

/-- The residents whose rows on a lane cluster of the waiting VLC's LCMAP are more than R25 entitles them to now. -/
def State.hindering (s : State) : List Vlc :=
  let lc := s.nextLc
  s.residents.filter fun v => (List.finRange 4).any fun c =>
    lc.getLsbD c && v.lc.getLsbD c && decide (512 / s.declSum s.v.declPend c < v.rows[c])

/-- A wait inside a grant has lasted 1 ms (R27): a pre-emption request on each VLC that prevents the grant. -/
def execGrantWaitTimeout (core slot : Nat) (s : State) : Out :=
  .next (s.onVlc core slot fun s1 =>
    if s1.v.inGrant then s1.hindering.foldl (fun s v => s.requestPreempt v.core v.slot) s1 else s1)

/-! ## SETVP (R36) -/

/-- The first unit of rank `k`'s share of `u` units among `p`. -/
def shareLow (u p k : Nat) : Nat := u * k / p

/-- The share of rank `k` of `p` ranks, and its first index (R36). -/
def share (n g p k : Nat) : Nat × Nat :=
  let u := ceilDiv n g
  let first := g * shareLow u p k
  (min n (g * shareLow u p (k + 1)) - first, first)

/-- SETVP (R36). -/
def execSetvp (d a b : SReg) (s : State) : Out :=
  alone (.setvp d a b) s fun s =>
    let g := if s.rd b = 0 then 1 else (s.rd b).toNat
    let p := ((s.launch s.v.launch).map (·.total)).getD 1
    let x := share (s.rd a).toNat g p s.v.rank.toNat
    (s.wr d (BitVec.ofNat 64 x.1)).wr (d + 1) (BitVec.ofNat 64 x.2)

/-! ## BAR (R41, R44) -/

/-- The VLC arrives at the current generation of a group (R41). -/
def State.arrive (s : State) (i : Instr) (g : Nat) : State :=
  let gen := ((s.launch s.v.launch).map (·.genOf g)).getD 0
  let r := s.v.rank.toNat
  let s1 := (s.spinReset.setV fun v => { v with barw := some { ssync := false, gen := gen, group := g } }).setLaunch
    s.v.launch fun l => l.setBar g { group := g, gen := gen, arrived := r :: l.arrivedAt g }
  (s1.block i).settleLaunch s.v.launch

/-- The generation that an arrival joined has completed. -/
def State.passed (s : State) (b : Arrival) : Bool :=
  match s.launch s.v.launch with
  | none => true
  | some l => if b.ssync then decide (b.gen < l.superstep) else decide (b.gen < l.genOf b.group)

/-- A barrier that has completed is left. -/
def State.leaveBar (s : State) (i : Instr) : State := (s.setV fun v => { v with barw := none }).finish i

/-- BAR once decode's checks are made: one that arrived before it was pre-empted does not arrive again (R44). -/
def barRun (g : BitVec 8) (s : State) : State :=
  match s.v.barw with
  | some b =>
    if b.ssync ∨ b.group ≠ g.toNat then s.arrive (.bar g) g.toNat
    else if s.passed b then s.leaveBar (.bar g) else s.block (.bar g)
  | none => s.arrive (.bar g) g.toNat

/-- BAR (R41, R42, R44). -/
def execBar (g : BitVec 8) (s : State) : Out := .next (checked (.bar g) s (barRun g))

/-- The VLCs of a launch that wait in a barrier of the given kind and generation. -/
def State.waitersOf (s : State) (key : Nat) (b : Arrival) : List (Nat × Nat) :=
  (s.vlcs.filter fun v => v.status.resident && v.launch == key && v.barw == some b && !v.frozen
    && (match v.status with
        | .blocked (.bar _) => true
        | .blocked (.ssync _) => true
        | _ => false)).map fun v => (v.core, v.slot)

/-- A generation of a group barrier completes: the members that wait in it leave (R41). -/
def execBarGenerationComplete (launch group gen : Nat) (s : State) : Out :=
  .next (match s.launch launch with
    | none => s
    | some l =>
      if l.genOf group ≠ gen ∨ !s.barReady l group then s
      else
        let who := s.waitersOf launch { ssync := false, gen := gen, group := group }
        let s1 := s.setLaunch launch fun x => x.setBar group { group := group, gen := gen + 1, arrived := [] }
        who.foldl (fun s w => s.onVlc w.1 w.2 fun s1 => s1.leaveBar (.bar (BitVec.ofNat 8 group))) s1)

/-! ## SSYNC (R43, R44, R195) -/

/-- SSYNC once decode's checks are made. -/
def ssyncRun (d : SReg) (s : State) : State :=
  let i := Instr.ssync d
  let key := s.v.launch
  let fresh : State :=
    let gen := ((s.launch key).map (·.superstep)).getD 0
    let s1 := (s.spinReset.setV fun v => { v with barw := some { ssync := true, gen := gen, group := 0 } }).setLaunch key
      fun l => { l with ssync := s.v.rank.toNat :: l.ssync }
    (s1.block i).settleLaunch key
  match s.v.barw with
  | some b =>
    if !b.ssync then fresh
    else if s.passed b then (s.wr d (BitVec.ofNat 64 (b.gen + 1))).leaveBar i
    else s.block i
  | none => fresh

/-- SSYNC (R43, R44). -/
def execSsync (d : SReg) (s : State) : Out := .next (checked (.ssync d) s (ssyncRun d))

/-- The MGHOST shadows of a launch's communication step published (R195). -/
def State.publishGhosts (s : State) (key : Nat) : State :=
  (s.commands.filter fun c => c.launch == key && c.kind == .mghost && !c.settled && c.status == some 0).foldl
    (fun s c => s.publish c.launch c.rank [c]) s

/-- A VLC that waits in SSYNC leaves with the number of the superstep that begins. -/
def State.leaveSsync (s : State) (x : Nat) : State :=
  match s.v.status with
  | .blocked (.ssync d) => (s.wr d (BitVec.ofNat 64 x)).leaveBar (.ssync d)
  | _ => s

/-- The superstep barrier of a launch completes, once every VLC has arrived in every package of a gang and the communication
step is delivered, with the shadows of its MGHOST commands published and performed (R195, R196); `peers` are the endpoints of other
packages whose arrivals this message brings (R43). An arrival that came for the next superstep already is kept. -/
def execSsyncComplete (launch : Nat) (peers : List Nat) (s : State) : Out :=
  let s0 := s.setLaunch launch fun l => { l with peersArrived := l.peersArrived ++ peers }
  .next (match s0.launch launch with
    | none => s0
    | some l =>
      if !s0.ssyncReady l then s0
      else
        let s1 := s0.publishGhosts launch
        if !s1.stepPresent launch then s1
        else
          let who := s1.waitersOf launch { ssync := true, gen := l.superstep, group := 0 }
          let s2 := s1.setLaunch launch fun x =>
            { x with superstep := l.superstep + 1, ssync := [], peersArrived := (s1.gangPeers l).foldl List.erase x.peersArrived }
          who.foldl (fun s w => s.onVlc w.1 w.2 (·.leaveSsync (l.superstep + 1))) s2)

/-! ## WAITV (R45) -/

/-- The conditions of WAITV (R48 Table 4), between the word and the register. -/
def waitHolds (p : WaitCond) (x y : Word) : Bool :=
  match p with
  | .ge => y.ule x
  | .eq => x == y
  | .ne => x != y

/-- The place of an 8-byte word that a load has just read. -/
def State.watchLine (s : State) (x : Space) (a : Word) : Option Place := (s.wordOf x a).map Place.line

/-- WAITV once decode's checks are made: it tests the word, and waits while the condition is false. -/
def waitvRun (cm : Bool) (sc : Scope) (p : WaitCond) (d a b : SReg) (s : State) : State :=
  let i := Instr.waitv cm sc p d a b
  match s.loadAt (atomicSpace cm) (s.rd a) 8 false with
  | .error e => s.raise i e
  | .ok (x, s1) =>
    let x := BitVec.ofNat 64 x
    if waitHolds p x (s.rd b) then (s1.wr d x).finish i
    else (s1.setV fun v => { v with watching := s1.watchLine (atomicSpace cm) (s.rd a), remoteData := [] }).block i

/-- WAITV (R45). -/
def execWaitv (cm : Bool) (sc : Scope) (p : WaitCond) (d a b : SReg) (s : State) : Out :=
  .next (checked (.waitv cm sc p d a b) s (waitvRun cm sc p d a b))

/-- A VLC that waits in WAITV tests its condition again. -/
def State.retest (s : State) (core slot : Nat) : State :=
  s.onVlc core slot fun s1 =>
    match s1.v.status with
    | .blocked (.waitv cm sc p d a b) => if s1.v.awaited = [] then waitvRun cm sc p d a b s1 else s1
    | _ => s1

/-- A write to the watched line has become visible (R45). -/
def execWaitvRetest (core slot : Nat) (s : State) : Out := .next (s.retest core slot)

/-- The word of another endpoint is read again (R354). -/
def execWaitvRemotePoll (core slot : Nat) (s : State) : Out := .next (s.retest core slot)

/-! ## The forced path (R315) -/

/-- A pre-emption request has been pending for 1 ms of residency without a grant (R315): it is taken where the VLC waits, at the
next boundary, or, where an element is named, at that element boundary of the convoy or TLD that runs next (R87, R206). -/
def execPreemptForced (core : Nat) (slot : ForcedAt) (s : State) : Out :=
  .next (s.onVlc core slot.slot fun s1 =>
    if !s1.v.preempt then s1
    else
      let s2 := s1.setV fun v => { v with ripe := true }
      if s2.v.sup then s2
      else match s2.v.status with
      | .blocked i => if stopsForced i then s2.forcePreempt else s2
      | .draining _ => if s2.v.untouched then s2.forcePreempt else s2
      | .runnable => s2.setV fun v => { v with cut := slot.elem }
      | _ => s2)

end Sys2Proof.Machine
end

