-- ==== Sys2Proof/Machine/MeshShape.lean ====
section
/-! DEFINITION. The shape of meshes: cells, children and faces in the coordinates of their tree's reference cell (R219-R222), the
crossing of coarse faces (R224), keys (R228, R229), balance (R226), ownership, ghosts, faces and face records (R230-R237). -/

namespace Sys2Proof.Machine

/-! ## Points and cells (R219-R221) -/

/-- A point of a reference cell, in units of 2^-15 of its edge; z is 0 in two dimensions. -/
abbrev Pt := Int × Int × Int

/-- The sum of two points. -/
def Pt.plus (p q : Pt) : Pt := (p.1 + q.1, p.2.1 + q.2.1, p.2.2 + q.2.2)

/-- The difference of two points. -/
def Pt.minus (p q : Pt) : Pt := (p.1 - q.1, p.2.1 - q.2.1, p.2.2 - q.2.2)

/-- A point scaled. -/
def Pt.times (k : Int) (p : Pt) : Pt := (k * p.1, k * p.2.1, k * p.2.2)

/-- A point divided. -/
def Pt.over (k : Int) (p : Pt) : Pt := (p.1 / k, p.2.1 / k, p.2.2 / k)

/-- The scalar product. -/
def Pt.dot (p q : Pt) : Int := p.1 * q.1 + p.2.1 * q.2.1 + p.2.2 * q.2.2

/-- The midpoint of two points. -/
def Pt.mid (p q : Pt) : Pt := (Pt.plus p q).over 2

/-- The length of a reference cell's edge. -/
def unitEdge : Int := 32768

/-- The vertices of the reference cell of a kind (R219 Table 2, R252). -/
def rootVerts (kind : Nat) : List Pt :=
  (if kind = 0 then [(0, 0, 0), (1, 0, 0), (0, 1, 0), (1, 1, 0), (0, 0, 1), (1, 0, 1), (0, 1, 1), (1, 1, 1)]
   else if kind = 1 then [(0, 0, 0), (1, 0, 0), (0, 1, 0), (0, 0, 1)]
   else if kind = 2 then [(0, 0, 0), (1, 0, 0), (0, 1, 0), (0, 0, 1), (1, 0, 1), (0, 1, 1)]
   else if kind = 3 then [(0, 0, 0), (1, 0, 0), (1, 1, 0), (0, 1, 0), (0, 0, 1)]
   else if kind = 4 then [(0, 0, 0), (1, 0, 0), (0, 1, 0), (1, 1, 0)]
   else [(0, 0, 0), (1, 0, 0), (0, 1, 0)]).map (Pt.times unitEdge)

/-- The vertices of a kind. -/
def vertCount (kind : Nat) : Nat := (rootVerts kind).length

/-- The corners of each face of a kind, in cyclic order (R220 Table 3). -/
def faceCorners (kind : Nat) : List (List Nat) :=
  if kind = 0 then [[0, 2, 6, 4], [1, 3, 7, 5], [0, 1, 5, 4], [2, 3, 7, 6], [0, 1, 3, 2], [4, 5, 7, 6]]
  else if kind = 1 then [[1, 2, 3], [0, 2, 3], [0, 1, 3], [0, 1, 2]]
  else if kind = 2 then [[0, 1, 2], [3, 4, 5], [0, 1, 4, 3], [1, 2, 5, 4], [2, 0, 3, 5]]
  else if kind = 3 then [[0, 1, 2, 3], [0, 1, 4], [1, 2, 4], [2, 3, 4], [3, 0, 4]]
  else if kind = 4 then [[0, 2], [1, 3], [0, 1], [2, 3]]
  else [[1, 2], [0, 2], [0, 1]]

/-- The faces of a kind. -/
def faceCount (kind : Nat) : Nat := (faceCorners kind).length

/-- The children of a kind (R219 Table 2). -/
def childCount (kind : Nat) : Nat := if kind = 3 then 0 else if kind ≤ 2 then 8 else 4

/-- The vertex pairs whose midpoints are the vertices of child `k` of a triangle (R221). -/
def triangleChild (k : Nat) : List (Nat × Nat) :=
  if k = 0 then [(0, 0), (0, 1), (0, 2)]
  else if k = 1 then [(0, 1), (1, 1), (1, 2)]
  else if k = 2 then [(0, 2), (1, 2), (2, 2)]
  else [(1, 2), (0, 2), (0, 1)]

/-- The same for child `k` of a tetrahedron (R221). -/
def tetraChild (k : Nat) : List (Nat × Nat) :=
  if k = 0 then [(0, 0), (0, 1), (0, 2), (0, 3)]
  else if k = 1 then [(0, 1), (1, 1), (1, 2), (1, 3)]
  else if k = 2 then [(0, 2), (1, 2), (2, 2), (2, 3)]
  else if k = 3 then [(0, 3), (1, 3), (2, 3), (3, 3)]
  else if k = 4 then [(0, 1), (0, 2), (0, 3), (1, 3)]
  else if k = 5 then [(0, 1), (0, 2), (1, 2), (1, 3)]
  else if k = 6 then [(0, 2), (0, 3), (1, 3), (2, 3)]
  else [(0, 2), (1, 2), (1, 3), (2, 3)]

/-- A vertex of a list. -/
def vertAt (v : List Pt) (n : Nat) : Pt := v.getD n (0, 0, 0)

/-- The vertices of child `k` of a box: the half of each axis that its bits choose. -/
def boxChild (v : List Pt) (k : Nat) : List Pt :=
  (List.range v.length).map fun j =>
    [(0, 1), (1, 2), (2, 4)].foldl (fun p x =>
      if x.2 < v.length then
        Pt.plus p ((Pt.times ((k / 2 ^ x.1 % 2 + j / 2 ^ x.1 % 2 : Nat) : Int) (Pt.minus (vertAt v x.2) (vertAt v 0))).over 2)
      else p) (vertAt v 0)

/-- The vertices of child `k` of a prism: triangle child k mod 4 of the bottom, over half k div 4 of the height. -/
def prismChild (v : List Pt) (k : Nat) : List Pt :=
  let low := (triangleChild (k % 4)).map fun x => Pt.mid (vertAt v x.1) (vertAt v x.2)
  let rise := (Pt.minus (vertAt v 3) (vertAt v 0)).over 2
  let at_ := fun (h : Nat) => low.map fun p => Pt.plus p (Pt.times (h : Int) rise)
  at_ (k / 4) ++ at_ (k / 4 + 1)

/-- The vertices of child `k` of a cell (R221). -/
def childVerts (kind : Nat) (v : List Pt) (k : Nat) : List Pt :=
  if kind = 0 ∨ kind = 4 then boxChild v k
  else if kind = 1 then (tetraChild k).map fun x => Pt.mid (vertAt v x.1) (vertAt v x.2)
  else if kind = 2 then prismChild v k
  else (triangleChild k).map fun x => Pt.mid (vertAt v x.1) (vertAt v x.2)

/-- The vertices of the cell of a path. -/
def pathVerts (kind : Nat) (path : List Nat) : List Pt := path.foldl (childVerts kind) (rootVerts kind)

/-! ## Faces (R222) -/

/-- The corners of face `f` of a cell. -/
def faceOf (kind : Nat) (v : List Pt) (f : Nat) : List Pt := ((faceCorners kind).getD f []).map (vertAt v)

/-- The sub-faces of a face: sub-face j touches corner j; the last of a triangle is its centre. -/
def subFaces (c : List Pt) : List (List Pt) :=
  let q := c.length
  let next := fun j => vertAt c ((j + 1) % q)
  let back := fun j => vertAt c ((j + q - 1) % q)
  let corner := fun j => vertAt c j
  if q = 2 then [[corner 0, Pt.mid (corner 0) (corner 1)], [Pt.mid (corner 0) (corner 1), corner 1]]
  else if q = 3 then
    ((List.range 3).map fun j => [corner j, Pt.mid (corner j) (next j), Pt.mid (corner j) (back j)])
      ++ [[Pt.mid (corner 0) (corner 1), Pt.mid (corner 1) (corner 2), Pt.mid (corner 2) (corner 0)]]
  else (List.range 4).map fun j =>
    [corner j, Pt.mid (corner j) (next j), Pt.mid (corner 0) (corner 2), Pt.mid (corner j) (back j)]

/-- Two lists of corners name one face. -/
def sameFace (a b : List Pt) : Bool := a.length == b.length && a.all (b.contains ·) && b.all (a.contains ·)

/-- The face of its parent on which face `f` of a cell lies. -/
def parentFace (kind : Nat) (path : List Nat) (f : Nat) : Option Nat :=
  let x := faceOf kind (pathVerts kind path) f
  let p := pathVerts kind path.dropLast
  (List.range (faceCount kind)).find? fun g => (subFaces (faceOf kind p g)).any (sameFace x)

/-- A cell and one of its faces: the cell's tree and path, and the face. -/
structure Side where
  tree : Nat
  path : List Nat
  face : Nat
  deriving DecidableEq, Repr

/-- The cell's ancestors, itself first, as long as the face lies on theirs; `n` is the cell's level. -/
def facesUp (kind : Nat) (tree : Nat) : Nat → List Nat → Nat → List Side
  | 0, p, f => [{ tree := tree, path := p, face := f }]
  | n + 1, p, f =>
    { tree := tree, path := p, face := f } ::
      match parentFace kind p f with
      | some g => facesUp kind tree n p.dropLast g
      | none => []

/-! ## Crossing a coarse face (R223, R224) -/

/-- The kind of a tree. -/
def kindOf (cs : List CoarseCell) (t : Nat) : Nat := (cs.map (·.kind)).getD t 0

/-- The face entry of a tree. -/
def entryOf (cs : List CoarseCell) (t f : Nat) : Word := ((cs.map (·.faces)).getD t []).getD f 0

/-- The neighbouring tree of a face entry; none on the boundary. -/
def entryNbr (e : Word) : Option Nat := if bitsOf e.toNat 31 0 = 0xFFFFFFFF then none else some (bitsOf e.toNat 31 0)

/-- The corner of the neighbour's face at which corner `j` lies. -/
def entryCorner (e : Word) (q j : Nat) : Nat :=
  let rot := bitsOf e.toNat 36 35
  if e.getLsbD 37 then (rot + q - j % q) % q else (rot + j) % q

/-- A point of root face `f` of a tree as a point of the neighbour's reference cell. -/
def crossPoint (cs : List CoarseCell) (t f : Nat) (p : Pt) : Pt :=
  let kind := kindOf cs t
  let e := entryOf cs t f
  let a := faceOf kind (rootVerts kind) f
  let nk := kindOf cs (bitsOf e.toNat 31 0)
  let b := faceOf nk (rootVerts nk) (bitsOf e.toNat 34 32)
  let q := a.length
  let image := fun j => vertAt b (entryCorner e q j)
  let d := Pt.minus p (vertAt a 0)
  let u := Pt.minus (vertAt a 1) (vertAt a 0)
  let w := Pt.minus (vertAt a (q - 1)) (vertAt a 0)
  if q = 2 then Pt.plus (image 0) ((Pt.times (Pt.dot d u) (Pt.minus (image 1) (image 0))).over (Pt.dot u u))
  else
    let det := Pt.dot u u * Pt.dot w w - Pt.dot u w * Pt.dot u w
    let x := Pt.dot d u * Pt.dot w w - Pt.dot d w * Pt.dot u w
    let y := Pt.dot d w * Pt.dot u u - Pt.dot d u * Pt.dot u w
    Pt.plus (image 0) ((Pt.plus (Pt.times x (Pt.minus (image 1) (image 0))) (Pt.times y (Pt.minus (image (q - 1)) (image 0)))).over det)

/-- The corners of a side. -/
def Side.corners (cs : List CoarseCell) (a : Side) : List Pt := faceOf (kindOf cs a.tree) (pathVerts (kindOf cs a.tree) a.path) a.face

/-- The root face on which a side lies. -/
def Side.rootFace (cs : List CoarseCell) (a : Side) : Option Nat :=
  ((facesUp (kindOf cs a.tree) a.tree a.path.length a.path a.face).find? fun x => x.path.isEmpty).map (·.face)

/-- The corners of a side in the coordinates of another tree, when it lies on a coarse face towards that tree. -/
def Side.seenFrom (cs : List CoarseCell) (a : Side) (t : Nat) : Option (List Pt) :=
  if a.tree = t then some (a.corners cs)
  else match a.rootFace cs with
  | none => none
  | some f => if entryNbr (entryOf cs a.tree f) = some t then some ((a.corners cs).map (crossPoint cs a.tree f)) else none

/-- Two sides of cells of one level are one face. -/
def Side.meets (cs : List CoarseCell) (a b : Side) : Bool :=
  (a.tree != b.tree || a.path != b.path) &&
    match a.seenFrom cs b.tree with
    | some x => sameFace x (b.corners cs)
    | none => false

/-- The side of the ancestor at a level on which a side lies. -/
def Side.upTo (cs : List CoarseCell) (a : Side) (level : Nat) : Option Side :=
  (facesUp (kindOf cs a.tree) a.tree a.path.length a.path a.face).find? fun x => x.path.length == level

/-- The two faces share a part of positive measure (R226). -/
def Side.shares (cs : List CoarseCell) (a b : Side) : Bool :=
  if a.path.length ≤ b.path.length then
    match b.upTo cs a.path.length with
    | some x => x.meets cs a
    | none => false
  else
    match a.upTo cs b.path.length with
    | some x => x.meets cs b
    | none => false

/-- The side of a leaf. -/
def Leaf.side (a : Leaf) (f : Nat) : Side := { tree := a.tree, path := a.path, face := f }

/-- The sides of leaves that a side shares a face with. -/
def neighbours (cs : List CoarseCell) (leaves : List Leaf) (a : Leaf) (f : Nat) : List (Leaf × Nat) :=
  leaves.flatMap fun b => ((List.range (faceCount (kindOf cs b.tree))).filter fun g =>
    b != a && (a.side f).shares cs (b.side g)).map fun g => (b, g)

/-- The face neighbours of a leaf (R226). -/
def faceNeighbours (cs : List CoarseCell) (leaves : List Leaf) (a : Leaf) : List Leaf :=
  (List.range (faceCount (kindOf cs a.tree))).flatMap fun f => (neighbours cs leaves a f).map (·.1)

/-! ## Keys (R228, R229) -/

/-- An entry of a list replaced. -/
def putAt (l : List Nat) (i x : Nat) : List Nat := l.set i x

/-- One step of the first loop of R228, for the bit Q and axis i. -/
def hilbertStep (q i : Nat) (x : List Nat) : List Nat :=
  let a := x.getD 0 0
  let b := x.getD i 0
  if b / q % 2 = 1 then putAt x 0 (a ^^^ (q - 1))
  else
    let t := (a ^^^ b) &&& (q - 1)
    let y := putAt x 0 (a ^^^ t)
    putAt y i (y.getD i 0 ^^^ t)

/-- The bits Q of R228, from 2^14 down to 2. -/
def hilbertBits : List Nat := (List.range 14).map fun k => 2 ^ (14 - k)

/-- hilbert(X) of R228. -/
def hilbert (x : List Nat) : Nat :=
  let n := x.length
  let a := hilbertBits.foldl (fun x q => (List.range n).foldl (fun x i => hilbertStep q i x) x) x
  let b := (List.range n).foldl (fun x i => if i = 0 then x else putAt x i (x.getD i 0 ^^^ x.getD (i - 1) 0)) a
  let t := hilbertBits.foldl (fun t q => if b.getD (n - 1) 0 / q % 2 = 1 then t ^^^ (q - 1) else t) 0
  let c := b.map (· ^^^ t)
  (List.range 15).foldl (fun h k => c.foldl (fun h y => 2 * h + y / 2 ^ (14 - k) % 2) h) 0

/-- The coordinate along axis `d` of the cell of a path of child numbers a + 2b + 4c. -/
def axisOf (path : List Nat) (d : Nat) : Nat := path.foldl (fun x k => 2 * x + k / 2 ^ d % 2) 0

/-- Bits per level of a key. -/
def levelBits (dim : Nat) : Nat := if dim = 3 then 3 else 2

/-- The path number p of a cell (R228). -/
def pathNumber (kind dim : Nat) (path : List Nat) : Nat :=
  let n := levelBits dim
  let l := path.length
  if kind = 0 ∨ kind = 4 then hilbert ((List.range n).map fun d => axisOf path d * 2 ^ (15 - l)) / 2 ^ (n * (15 - l))
  else path.foldl (fun p k => p * 2 ^ n + k) 0

/-- The key of a cell (R229). -/
def Mesh.keyOf (m : Mesh) (a : Leaf) : Nat :=
  let p := 48 - m.tbits
  a.tree * 2 ^ p + pathNumber (kindOf m.coarse a.tree) m.dim a.path * 2 ^ (p - levelBits m.dim * a.path.length)

/-- A list in ascending order of a key. -/
def sortBy {α : Type} (key : α → Nat) (l : List α) : List α :=
  l.foldr (fun x r => (r.takeWhile fun y => decide (key y < key x)) ++ x :: r.dropWhile fun y => decide (key y < key x)) []

/-- The children of a cell in ascending key order. -/
def Mesh.children (m : Mesh) (a : Leaf) : List Leaf :=
  sortBy m.keyOf ((List.range (childCount (kindOf m.coarse a.tree))).map fun k => { a with path := a.path ++ [k] })

/-- Leaves in curve order. -/
def Mesh.curve (m : Mesh) (l : List Leaf) : List Leaf := sortBy m.keyOf l

/-! ## Balance (R226, R248) -/

/-- A leaf that cannot be refined: at MAXLEV, or a pyramid. -/
def Mesh.fixed (m : Mesh) (a : Leaf) : Bool := decide (m.maxlev ≤ a.path.length) || kindOf m.coarse a.tree == 3

/-- Leaves with those that satisfy `p` split. -/
def Mesh.split (m : Mesh) (p : Leaf → Bool) (l : List Leaf) : List Leaf :=
  l.flatMap fun a => if p a then m.children a else [a]

/-- A leaf with a face neighbour more than one level finer. -/
def Mesh.coarseBeside (m : Mesh) (l : List Leaf) (a : Leaf) : Bool :=
  (faceNeighbours m.coarse l a).any fun b => decide (a.path.length + 1 < b.path.length)

/-- The balanced closure of a list of leaves, in `n` rounds at most; none where it would refine a leaf that cannot be. -/
def Mesh.balance (m : Mesh) : Nat → List Leaf → Option (List Leaf)
  | 0, l => some l
  | n + 1, l =>
    let bad := l.filter (m.coarseBeside l)
    if bad = [] then some l
    else if bad.any m.fixed then none
    else m.balance n (m.split (bad.contains ·) l)

/-- Rounds that suffice: a leaf is split in at most 15 of them, and a round without a split ends the closure. -/
def Mesh.rounds (l : List Leaf) : Nat := 16 * 8 ^ 15 * (l.length + 1)

/-- The balanced closure (R248), in curve order. -/
def Mesh.closure (m : Mesh) (l : List Leaf) : Option (List Leaf) := (m.balance (Mesh.rounds l) l).map m.curve

/-! ## Ownership, local numbers and ghosts (R230-R232) -/

/-- The partition entry that owns a key. -/
def ownerOf (parts : List PartEntry) (key : Nat) : PartEntry :=
  ((parts.filter fun e => decide (e.first ≤ key)).getLast?).getD { first := 0, die := 0, ep := 0 }

/-- The place (EP, DIE) that owns a leaf. -/
def Mesh.placeOf (m : Mesh) (t : Topo) (a : Leaf) : Nat × Nat :=
  let e := ownerOf t.parts (m.keyOf a)
  (e.ep, e.die)

/-- The leaves a place owns, by local number. -/
def Mesh.owned (m : Mesh) (t : Topo) (at_ : Nat × Nat) : List Leaf := t.leaves.filter fun a => m.placeOf t a == at_

/-- Its ghosts, in curve order: the face neighbours of its leaves that it does not own. -/
def Mesh.ghosts (m : Mesh) (t : Topo) (at_ : Nat × Nat) : List Leaf :=
  let own := m.owned t at_
  t.leaves.filter fun a => !own.contains a && (faceNeighbours m.coarse t.leaves a).any (own.contains ·)

/-- Its local cells. -/
def Mesh.locals (m : Mesh) (t : Topo) (at_ : Nat × Nat) : List Leaf := m.owned t at_ ++ m.ghosts t at_

/-! ## Faces and face records (R233-R237) -/

/-- What a cell sees across one face: a boundary, or a neighbour's side with its relation REL (R236). -/
structure Across where
  nbr : Option (Leaf × Nat)
  rel : Nat
  deriving DecidableEq, Repr

/-- The relation of leaf `a` at face `f` to a neighbour's side. -/
def relOf (cs : List CoarseCell) (a : Leaf) (f : Nat) (b : Leaf) (g : Nat) : Nat :=
  if b.path.length = a.path.length then 0
  else if b.path.length < a.path.length then 1
  else
    let x := ((b.side g).seenFrom cs a.tree).getD []
    2 + (subFaces ((a.side f).corners cs)).findIdx (sameFace x)

/-- What a leaf sees across a face, by ascending sub-face. -/
def Mesh.acrossFace (m : Mesh) (l : List Leaf) (a : Leaf) (f : Nat) : List Across :=
  match neighbours m.coarse l a f with
  | [] => [{ nbr := none, rel := 6 }]
  | ns => sortBy (·.rel) (ns.map fun x => { nbr := some x, rel := relOf m.coarse a f x.1 x.2 })

/-- The face that a cell's side and what lies across it form, by one side of it: the finer, or that of the smaller key. -/
def Mesh.faceId (m : Mesh) (a : Leaf) (f : Nat) (x : Across) : Leaf × Nat :=
  match x.nbr with
  | none => (a, f)
  | some b =>
    if x.rel = 0 then if m.keyOf a < m.keyOf b.1 then (a, f) else b
    else if x.rel = 1 then (a, f)
    else b

/-- A list with the later copies of its entries left out. -/
def firsts {α : Type} [BEq α] (l : List α) : List α := (l.foldl (fun r x => if r.contains x then r else x :: r) []).reverse

/-- One face record (R235) before it is laid out: its cell's local number, its face and what lies across. -/
structure FaceSeen where
  cell : Nat
  leaf : Leaf
  face : Nat
  x : Across
  deriving DecidableEq, Repr

/-- Everything the owned cells of a place see, in record order. -/
def Mesh.seen (m : Mesh) (t : Topo) (at_ : Nat × Nat) : List FaceSeen :=
  let own := m.owned t at_
  (own.zip (List.range own.length)).flatMap fun c =>
    (List.range (faceCount (kindOf m.coarse c.1.tree))).flatMap fun f =>
      (m.acrossFace t.leaves c.1 f).map fun x => { cell := c.2, leaf := c.1, face := f, x := x }

/-- The faces of a place by number (R233). -/
def Mesh.faceIds (m : Mesh) (l : List FaceSeen) : List (Leaf × Nat) := firsts (l.map fun r => m.faceId r.leaf r.face r.x)

/-- A record laid out (R235 Tables 7 and 8), with whether it is primary (R237). -/
structure FaceRec where
  cell : Nat
  nbr : Nat
  boundary : Bool
  pri : Bool
  fidx : Nat
  w0 : Word
  w1 : Word
  deriving DecidableEq, Repr

/-- The record of what a cell sees. Towards a ghost it is primary whatever its relation (log 40). -/
def Mesh.recordOf (m : Mesh) (t : Topo) (at_ : Nat × Nat) (cells : List Leaf) (ids : List (Leaf × Nat)) (r : FaceSeen) :
    FaceRec :=
  let fidx := ids.idxOf (m.faceId r.leaf r.face r.x)
  let w0 := fun (nbr : Nat) => fieldAt r.face 60 ||| fieldAt r.cell 32 ||| fieldAt r.x.rel 28 ||| fieldAt nbr 0
  match r.x.nbr with
  | none =>
    let btag := bitsOf (entryOf m.coarse r.leaf.tree (((r.leaf.side r.face).rootFace m.coarse).getD 0)).toNat 60 48
    { cell := r.cell, nbr := r.cell, boundary := true, pri := true, fidx := fidx, w0 := w0 r.cell,
      w1 := fieldAt r.leaf.path.length 53 ||| fieldAt btag 40 ||| flagAt true 39 ||| fieldAt fidx 0 }
  | some (b, g) =>
    let o := m.placeOf t b
    let ghost := o != at_
    let pri := r.x.rel == 1 || ghost || (r.x.rel == 0 && decide (m.keyOf r.leaf < m.keyOf b))
    { cell := r.cell, nbr := cells.idxOf b, boundary := false, pri := pri, fidx := fidx, w0 := w0 (cells.idxOf b),
      w1 := fieldAt b.path.length 53 ||| fieldAt o.1 40 ||| flagAt pri 39 ||| fieldAt o.2 36 ||| flagAt ghost 35
        ||| fieldAt g 32 ||| fieldAt fidx 0 }

/-- The face records of a place, in record order. -/
def Mesh.records (m : Mesh) (t : Topo) (at_ : Nat × Nat) : List FaceRec :=
  let l := m.seen t at_
  l.map (m.recordOf t at_ (m.locals t at_) (m.faceIds l))

end Sys2Proof.Machine
end

