-- ==== Sys2Proof/Machine/MeshRecord.lean ====
section
/-! DEFINITION. What the mesh engines read: the mesh record and its tables (R217, R218, R223, R224, R227, R230), the command block
(R242), mark arrays, field lists and party lists; and the report header, remap records and their shadows (R243, R249). -/

namespace Sys2Proof.Machine

/-! ## The mesh record (R217, R218) -/

/-- A mesh record (R217 Table 1). -/
structure MeshRec where
  dim : Nat
  maxlev : Nat
  tbits : Nat
  id : Nat
  ncoarse : Nat
  ctab : Word
  vtab : Word
  nvert : Nat
  tstream : Word
  partab : Word
  npart : Nat
  deriving DecidableEq, Repr

/-- A mesh record from its bytes. -/
def MeshRec.of (r : List Byte) : MeshRec where
  dim := field r 6 1
  maxlev := field r 7 1
  tbits := field r 8 1
  id := field r 0x10 8
  ncoarse := field r 0x18 8
  ctab := BitVec.ofNat 64 (field r 0x20 8)
  vtab := BitVec.ofNat 64 (field r 0x28 8)
  nvert := field r 0x30 8
  tstream := BitVec.ofNat 64 (field r 0x38 8)
  partab := BitVec.ofNat 64 (field r 0x40 8)
  npart := field r 0x48 4

/-- The first offset of a list of conditions that does not hold. -/
def firstBad (l : List (Nat × Bool)) : Option Nat := (l.find? fun x => !x.2).map (·.1)

/-- The reserved bytes of a mesh record. -/
def reservedBytes : List Nat := (List.range 7).map (· + 9) ++ (List.range 180).map (· + 0x4C)

/-- The first two passes of R218: the first bad field. -/
def recordBad (b : List Byte) : Option Nat :=
  let r := MeshRec.of b
  firstBad
    ([(0x00, field b 0 4 == 0x4853454D), (0x04, field b 4 2 == 1), (0x06, r.dim == 2 || r.dim == 3),
      (0x07, decide (r.maxlev ≤ 15)), (0x08, decide (r.tbits ≤ 47))]
     ++ reservedBytes.map (fun o => (o, field b o 1 == 0))
     ++ [(0x10, r.id != 0), (0x18, decide (1 ≤ r.ncoarse) && decide (r.ncoarse < 2 ^ 32)), (0x20, r.ctab.toNat % 128 == 0),
         (0x28, r.vtab.toNat % 8 == 0), (0x30, decide (1 ≤ r.nvert) && decide (r.nvert < 2 ^ 32)),
         (0x40, r.partab.toNat % 8 == 0), (0x48, decide (1 ≤ r.npart) && decide (r.npart ≤ 65536)),
         (0x07, decide (r.maxlev * levelBits r.dim ≤ 48 - r.tbits)), (0x18, decide (r.ncoarse ≤ 2 ^ r.tbits))])

/-! ## The coarse-cell table (R223, R224) -/

/-- Coarse records from number `i`, `n` of them. -/
def State.coarseRecs (s : State) (p : Party) (tab : Word) (i : Nat) : Nat → Except EngStop (List (List Byte) × State)
  | 0 => .ok ([], s)
  | n + 1 => do
    let (b, s1) ← s.engWords p (tab + BitVec.ofNat 64 (128 * i)) 16
    let (l, s2) ← s1.coarseRecs p tab (i + 1) n
    .ok (b :: l, s2)

/-- A coarse cell from its record. -/
def CoarseCell.of (b : List Byte) : CoarseCell where
  kind := field b 0 1
  faces := (List.range 6).map fun f => BitVec.ofNat 64 (field b (8 + 8 * f) 8)
  verts := (List.range 8).map fun j => field b (0x40 + 4 * j) 4

/-- The kinds of a DIM. -/
def kindOk (dim kind : Nat) : Bool := if dim = 3 then decide (kind ≤ 3) else kind == 4 || kind == 5

/-- The corners of a face of a kind. -/
def cornersOf (kind f : Nat) : Nat := ((faceCorners kind).getD f []).length

/-- A face entry is one that R224 allows. -/
def entryOk (cs : List CoarseCell) (c f : Nat) : Bool :=
  let e := entryOf cs c f
  let q := cornersOf (kindOf cs c) f
  let nf := bitsOf e.toNat 34 32
  bitsOf e.toNat 63 61 == 0 && bitsOf e.toNat 47 38 == 0 &&
    match entryNbr e with
    | none => nf == 0 && bitsOf e.toNat 37 35 == 0
    | some n =>
      let back := entryOf cs n nf
      decide (n < cs.length) && n != c && cornersOf (kindOf cs n) nf == q && bitsOf e.toNat 60 48 == 0
        && decide (bitsOf e.toNat 36 35 < q) && (q != 2 || !e.getLsbD 37)
        && entryNbr back == some c && bitsOf back.toNat 34 32 == f
        && (List.range q).all fun j => entryCorner back q (entryCorner e q j) == j

/-- A coarse record is one that R224 allows. -/
def coarseOk (r : MeshRec) (cs : List CoarseCell) (c : Nat) (b : List Byte) : Bool :=
  let x := CoarseCell.of b
  let n := vertCount x.kind
  kindOk r.dim x.kind && zeroes b 1 7 && zeroes b 0x38 8 && zeroes b 0x60 32
    && (x.verts.take n).all (fun v => decide (v < r.nvert)) && (x.verts.drop n).all (· == 0xFFFFFFFF)
    && (x.faces.drop (faceCount x.kind)).all (· == 0)
    && (List.range (faceCount x.kind)).all (entryOk cs c)

/-- The coarse-cell table is valid. -/
def coarseTableOk (r : MeshRec) (l : List (List Byte)) : Bool :=
  let cs := l.map CoarseCell.of
  (l.zip (List.range l.length)).all fun x => coarseOk r cs x.2 x.1

/-! ## The tree stream (R227) -/

/-- The stream as far as it is read: its next bit, its current byte and the state. -/
structure TreeRead where
  k : Nat
  byte : Nat
  s : State

/-- The next bit of a stream at `a`. -/
def TreeRead.next (p : Party) (a : Word) (t : TreeRead) : Except EngStop (Bool × TreeRead) :=
  if t.k % 8 = 0 then do
    let (x, s1) ← t.s.engRead p 0 .glob (a + BitVec.ofNat 64 (t.k / 8)) 1 0
    .ok (x % 2 == 1, { k := t.k + 1, byte := x, s := s1 })
  else .ok (t.byte / 2 ^ (t.k % 8) % 2 == 1, { t with k := t.k + 1 })

/-- The leaves below a cell, in the stream's order; the fuel exceeds the levels below MAXLEV. -/
def Mesh.readCell (m : Mesh) (p : Party) (a : Word) : Nat → Leaf → TreeRead → Except EngStop (List Leaf × TreeRead)
  | 0, c, t => .ok ([c], t)
  | n + 1, c, t => do
    let (refined, t1) ← t.next p a
    if !refined then .ok ([c], t1)
    else if m.fixed c then .error (.code 1 0x38)
    else (m.children c).foldlM (fun x d => (m.readCell p a n d x.2).map fun y => (x.1 ++ y.1, y.2)) ([], t1)

/-- The leaves of the tree stream of a build, in stream order. -/
def Mesh.readTrees (m : Mesh) (s : State) (p : Party) (a : Word) : Except EngStop (List Leaf × State) :=
  let roots := (List.range m.coarse.length).map fun t => ({ tree := t, path := [] } : Leaf)
  if a = 0 then .ok (roots, s)
  else (roots.foldlM (fun (x : List Leaf × TreeRead) d => (m.readCell p a (m.maxlev + 1) d x.2).map fun y => (x.1 ++ y.1, y.2))
    (([], { k := 0, byte := 0, s := s }) : List Leaf × TreeRead)).map fun x => (x.1, x.2.s)

/-! ## The partition table (R230) -/

/-- A partition entry from its word. -/
def PartEntry.of (x : Nat) : PartEntry := { first := bitsOf x 47 0, die := bitsOf x 50 48, ep := bitsOf x 63 51 }

/-- A partition entry as a word. -/
def PartEntry.word (e : PartEntry) : Nat := e.ep * 2 ^ 51 + e.die * 2 ^ 48 + e.first

/-- Entries of 8 bytes from a list of bytes. -/
def partsOf (b : List Byte) : List PartEntry :=
  (List.range (b.length / 8)).map fun i => PartEntry.of (field b (8 * i) 8)

/-- Keys strictly rise. -/
def firstsRise : List PartEntry → Bool
  | [] => true
  | [_] => true
  | a :: b :: l => decide (a.first < b.first) && firstsRise (b :: l)

/-- No pair (EP, DIE) appears twice. -/
def placesDiffer (l : List PartEntry) : Bool :=
  let places := l.map fun e => (e.ep, e.die)
  (firsts places).length == places.length

/-- The endpoints of the packages of a launch (R230). -/
def State.launchEps (s : State) (launch : Nat) : List Nat :=
  s.endpoint ::
    match s.launch launch with
    | some l => if l.npkg ≤ 1 then [] else s.gangPeers l
    | none => []

/-- A partition table is valid (R230). -/
def partsOk (eps : List Nat) (l : List PartEntry) : Bool :=
  (l.head?.map (·.first)) == some 0 && firstsRise l && placesDiffer l && l.all fun e => eps.contains e.ep

/-! ## A record read whole -/

/-- A mesh record with the tables it names: the leaves of its tree stream, for a build, and its partition. -/
structure Parsed where
  r : MeshRec
  coarse : List CoarseCell
  leaves : List Leaf
  parts : List PartEntry
  deriving DecidableEq, Repr

/-- A mesh of a record, for its keys. -/
def meshOf (r : MeshRec) (cs : List CoarseCell) (die ctx launch : Nat) : Mesh where
  die := die
  ctx := ctx
  id := r.id
  launch := launch
  dim := r.dim
  maxlev := r.maxlev
  tbits := r.tbits
  coarse := cs
  cur := { gen := 0, leaves := [], parts := [] }
  pending := none
  lost := false

/-- A condition of R218, charged to an offset. -/
def need (ok : Bool) (o : Nat) : Except EngStop Unit := if ok then .ok () else .error (.code 1 o)

/-- A mesh record checked (R218), with the leaves of its tree stream for a build. -/
def State.parseMesh (s : State) (p : Party) (launch : Nat) (b : List Byte) (build : Bool) :
    Except EngStop (Parsed × State) := do
  let r := MeshRec.of b
  match recordBad b with
  | some o => .error (.code 1 o)
  | none =>
    let (l, s1) ← s.coarseRecs p r.ctab 0 r.ncoarse
    need (coarseTableOk r l) 0x20
    let cs := l.map CoarseCell.of
    let (leaves, s2) ← if build then (meshOf r cs 0 0 0).readTrees s1 p r.tstream else .ok ([], s1)
    let (pt, s3) ← s2.engWords p r.partab r.npart
    let parts := partsOf pt
    need (partsOk (s.launchEps launch) parts) 0x40
    .ok ({ r := r, coarse := cs, leaves := leaves, parts := parts }, s3)

/-! ## The command block (R242) -/

/-- A command block (R242 Table 2). -/
structure Block where
  out : Word
  size : Nat
  in0 : Word
  in1 : Word
  in2 : Word
  count : Nat
  seq : Nat
  tmo : Nat
  param : Nat
  deriving DecidableEq, Repr

/-- A command block from its bytes. -/
def Block.of (b : List Byte) : Block where
  out := BitVec.ofNat 64 (field b 0 8)
  size := field b 8 8
  in0 := BitVec.ofNat 64 (field b 0x10 8)
  in1 := BitVec.ofNat 64 (field b 0x18 8)
  in2 := BitVec.ofNat 64 (field b 0x20 8)
  count := field b 0x28 8
  seq := field b 0x30 4
  tmo := field b 0x34 4
  param := field b 0x38 8

/-- A collective command (R240 Table 1). -/
def CmdKind.collective : CmdKind → Bool
  | .mrefine | .mcoarsen | .mcut | .mmigr | .mghost => true
  | .cpy | .mlocate | .mremap | .mcolor => false

/-- A command that prepares a topology (R246). -/
def CmdKind.topology : CmdKind → Bool
  | .mrefine | .mcoarsen | .mmigr => true
  | .cpy | .mlocate | .mremap | .mcolor | .mcut | .mghost => false

/-- MREFINE with BUILD. -/
def Block.build (k : CmdKind) (b : Block) : Bool := k == .mrefine && b.param % 2 == 1

/-- COUNT is as Table 3 asks, where the die holds `nown` owned cells of the mesh, if it holds it. -/
def Block.countOk (k : CmdKind) (b : Block) (nown : Option Nat) : Bool :=
  match k with
  | .mlocate => decide (1 ≤ b.count) && decide (b.count ≤ 2 ^ 24)
  | .mrefine => if b.build k then b.count == 0 else nown == none || nown == some b.count
  | .mcoarsen => nown == none || nown == some b.count
  | .mremap => decide (1 ≤ b.count) && decide (b.count ≤ 64)
  | .mcut => decide (1 ≤ b.count) && decide (b.count ≤ 65536)
  | .mmigr => true
  | .mcolor => b.count == 0
  | .mghost => b.count == 0
  | .cpy => true

/-- PARAM is as Tables 3 and 8 ask. -/
def Block.paramOk (k : CmdKind) (b : Block) : Bool :=
  match k with
  | .mrefine => decide (b.param ≤ 1)
  | .mremap => (b.param % 16 == 8 || b.param % 16 == 9) && bitsOf b.param 5 4 != 3 && bitsOf b.param 7 6 != 3
      && decide (b.param < 256)
  | .mmigr => decide (b.param ≤ 16)
  | .mghost => decide (1 ≤ b.param) && decide (b.param ≤ 16)
  | .mlocate => b.param == 0
  | .mcoarsen => b.param == 0
  | .mcolor => b.param == 0
  | .mcut => b.param == 0
  | .cpy => true

/-- IN0, IN1 and IN2 are used, or 0 (R242 Table 3); MREMAP's linear split needs a gradient array (R250). -/
def Block.insOk (k : CmdKind) (b : Block) : List (Nat × Bool) :=
  let in0 := match k with
    | .mcolor => b.in0 == 0
    | .mghost => b.in0 == 0
    | .mrefine => !b.build k || b.in0 == 0
    | .cpy | .mlocate | .mcoarsen | .mremap | .mcut | .mmigr => true
  let in1 := match k with
    | .mremap | .mcut | .mmigr | .mghost | .cpy => true
    | .mlocate | .mrefine | .mcoarsen | .mcolor => b.in1 == 0
  let in2 := match k with
    | .mremap => bitsOf b.param 5 4 != 1 || b.in2 != 0
    | .cpy => true
    | .mlocate | .mrefine | .mcoarsen | .mcolor | .mcut | .mmigr | .mghost => b.in2 == 0
  [(0x10, in0), (0x18, in1), (0x20, in2)]

/-- The first bad field of a command block. MGHOST, whose target is no bytes at OUT, uses neither OUT nor OUTSIZE (DEDUCED, log 64). -/
def Block.bad (k : CmdKind) (b : Block) (nown : Option Nat) : Option Nat :=
  firstBad ([(0x00, if k = .mghost then b.out == 0 else b.out.toNat % 64 == 0), (0x08, k != .mghost || b.size == 0)] ++ b.insOk k ++
    [(0x28, b.countOk k nown), (0x30, k.collective || b.seq == 0),
     (0x34, if k.collective then decide (b.tmo ≤ 1000000) else b.tmo == 0), (0x38, b.paramOk k)])

/-! ## Field lists and party lists (R242) -/

/-- An entry of a field list. -/
structure FieldEntry where
  src : Word
  dst : Word
  bytes : Nat
  deriving DecidableEq, Repr

/-- The entries of a field list, of 32 bytes each. -/
def fieldsOf (b : List Byte) : List FieldEntry :=
  (List.range (b.length / 32)).map fun i =>
    { src := BitVec.ofNat 64 (field b (32 * i) 8), dst := BitVec.ofNat 64 (field b (32 * i + 8) 8),
      bytes := field b (32 * i + 16) 4 }

/-- A field list is valid (R242). -/
def fieldsOk (k : CmdKind) (b : List Byte) : Bool :=
  ((fieldsOf b).all fun f => f.bytes % 8 == 0 && decide (8 ≤ f.bytes) && decide (f.bytes ≤ 4096)
    && (k != .mghost || f.dst == f.src))
    && (List.range (b.length / 32)).all fun i => zeroes b (32 * i + 20) 4

/-- A party list is valid (R242). -/
def partyListOk (eps : List Nat) (l : List PartEntry) : Bool :=
  l.all (fun e => e.first == 0 && eps.contains e.ep) && placesDiffer l

/-! ## Reports (R243, R249) -/

/-- A count of cells, where a topology has one: the global number of a place's first owned leaf. -/
def Mesh.gfirst (m : Mesh) (t : Topo) (at_ : Nat × Nat) : Option Nat := t.leaves.findIdx? fun a => m.placeOf t a == at_

/-- The report header's words (R243 Table 4). A place with no owned leaf has no local cell 0: GFIRST is then free (R7). -/
def State.header (s : State) (m : Mesh) (t : Topo) (at_ : Nat × Nat) (nrec aux : Nat) : List Nat × State :=
  let g := match m.gfirst t at_ with
    | some n => (n, s)
    | none => ((s.free 64).toNat, s.spend)
  ([t.gen, (m.owned t at_).length, (m.ghosts t at_).length, g.1, (m.faceIds (m.seen t at_)).length, nrec, aux,
    t.leaves.length], g.2)

/-- OUTSIZE suffices for `n` bytes (R465). -/
def sizeOk (b : Block) (n : Nat) : Except EngStop Unit := if b.size < n then .error (.code 13 n) else .ok ()

/-- A shadow of words at OUT, once OUTSIZE suffices. -/
def State.report (s : State) (p : Party) (b : Block) (l : List Nat) : Except EngStop (List Shade × State) := do
  sizeOk b (8 * l.length)
  s.shadeWords p b.out l

/-- A remap record (R249): OP, DST, SRC, CPOS, KIND, NCH and COUNT. -/
structure Remap where
  op : Nat
  dst : Nat
  src : Nat
  cpos : List Nat
  kind : Nat
  count : Nat
  deriving DecidableEq, Repr

/-- CPOS as a number: 3 bits a child. -/
def cposBits : List Nat → Nat
  | [] => 0
  | c :: l => c + 8 * cposBits l

/-- A remap record's two words (R249 Tables 6 and 7). -/
def Remap.words (r : Remap) : List Nat :=
  [r.op * 2 ^ 62 + r.dst * 2 ^ 28 + r.src,
   cposBits r.cpos * 2 ^ 40 + r.kind * 2 ^ 36 + r.cpos.length * 2 ^ 32 + r.count]

/-- A remap record from its two words. -/
def Remap.of (w0 w1 : Nat) : Remap where
  op := bitsOf w0 63 62
  dst := bitsOf w0 55 28
  src := bitsOf w0 27 0
  cpos := (List.range (bitsOf w1 35 32)).map fun j => bitsOf w1 63 40 / 8 ^ j % 8
  kind := bitsOf w1 39 36
  count := bitsOf w1 31 0

/-- A record put before others: a copy joins the run that follows it. -/
def Remap.join (r : Remap) (l : List Remap) : List Remap :=
  match l with
  | [] => [r]
  | x :: rest =>
    if r.op = 0 ∧ x.op = 0 ∧ x.dst = r.dst + r.count ∧ x.src = r.src + r.count then
      { r with count := r.count + x.count } :: rest
    else r :: l

/-- Copies joined into runs. -/
def joinRuns (l : List Remap) : List Remap := l.foldr Remap.join []

/-- A copy of one cell. -/
def Remap.copy (dst src : Nat) : Remap := { op := 0, dst := dst, src := src, cpos := [], kind := 0, count := 1 }

/-- The local cells that a die's engine region holds. -/
def State.heldCells (s : State) (die : Nat) : Nat :=
  ((s.meshes.filter (·.die == die)).map fun m => (m.locals m.cur (s.endpoint, die)).length).sum

/-- Limits on a topology at a place (R229, R231, R234; R244 CAPACITY). -/
def State.capacity (s : State) (m : Mesh) (t : Topo) (at_ : Nat × Nat) : Except EngStop Unit :=
  let n := (m.locals t at_).length
  if 2 ^ 40 < t.leaves.length ∨ 2 ^ 28 < n ∨ Config.engineFull at_.2 (s.heldCells at_.2 + n) then .error (.code 7 0)
  else .ok ()

end Sys2Proof.Machine
end

