-- ==== Sys2Proof/Machine/Save.lean ====
section
/-! DEFINITION. The save area of a VLC (R317 Table 10): VSAVE (R318) and VRESTORE (R319). -/

namespace Sys2Proof.Machine

/-! ## Words in memory -/

/-- Words one after another as a little-endian number. -/
def wordsNat : List Word → Nat
  | [] => 0
  | x :: l => x.toNat + 2 ^ 64 * wordsNat l

/-- Word `n` of a number. -/
def wordAt (x n : Nat) : Nat := x / 2 ^ (64 * n) % 2 ^ 64

/-- The first `n` words of a number stored from an address, as far as no store stops. -/
def State.storeSpan (s : State) (p : Party) (a : Word) (x : Nat) : Nat → State × Option Stop
  | 0 => (s, none)
  | n + 1 =>
    match s.store p (.mem a 8 .store 0) (x % 2 ^ 64) with
    | .error e => (s, some e)
    | .ok s1 => s1.storeSpan p (a + 8) (x / 2 ^ 64) n

/-- `n` words from an address as one number. -/
def State.loadSpan (s : State) (p : Party) (a : Word) : Nat → Except Stop (Nat × State)
  | 0 => .ok (0, s)
  | n + 1 =>
    match s.load p (.mem a 8 .load 0) with
    | .error e => .error e
    | .ok (x, s1) =>
      match s1.loadSpan p (a + 8) n with
      | .error e => .error e
      | .ok (y, s2) => .ok (x + 2 ^ 64 * y, s2)

/-- A part of the save area: its offset, its words, and its value. -/
structure AreaPart where
  off : Nat
  words : Nat
  x : Nat
  deriving DecidableEq, Repr

/-- Parts stored at an area, as far as no store stops. -/
def State.storeParts (s : State) (p : Party) (b : Word) : List AreaPart → State × Option Stop
  | [] => (s, none)
  | a :: l =>
    match s.storeSpan p (b + BitVec.ofNat 64 a.off) a.x a.words with
    | (s1, some e) => (s1, some e)
    | (s1, none) => s1.storeParts p b l

/-! ## The parts of the area (R317 Table 10) -/

/-- PREEMPT at a grant, which a save area records as GRANT (R318). -/
def Vlc.atGrant (v : Vlc) : Bool := v.tcause.cls == 12 && !v.tcause.forced

/-- BARW. -/
def barWord (b : Option Arrival) : Word :=
  match b with
  | none => 0
  | some x => flagAt true 63 ||| flagAt x.ssync 62 ||| fieldAt (x.gen % 2 ^ 40) 8 ||| fieldAt (x.group % 256) 0

/-- BARW read back. -/
def barOf (x : Nat) : Option Arrival :=
  if bitsOf x 63 63 = 0 then none
  else some { ssync := bitsOf x 62 62 == 1, gen := bitsOf x 47 8, group := bitsOf x 7 0 }

/-- The kind code of a stream. -/
def StreamKind.code : StreamKind → Nat
  | .unbound => 0 | .pattern => 1 | .tile => 2 | .topology => 3

/-- The number a binding has among those that have been saved; the next free one for a new binding. -/
def bindingNo (b : TopoBind) (l : List TopoBind) : Nat := l.findIdx (· == b)

/-- The 15 words of bytes 136 to 255. -/
def State.bindingWords (s : State) (q : Stream) : Nat :=
  match q.topo with
  | some b => (Config.bindingImage (bindingNo b s.bindings)).toNat
  | none => 0

/-- The 32 words of a stream. -/
def State.streamImage (s : State) (q : Stream) : Nat :=
  let kind := if q.kind = .topology then 0 else q.kind.code
  wordsNat ([q.base, fieldAt kind 0 ||| fieldAt q.ndim 8 ||| fieldAt q.cursor 32] ++ q.strides.toList ++ q.bounds.toList
      ++ [BitVec.ofNat 64 q.pos, q.aux, fieldAt q.kind.code 0 ||| flagAt q.touched 2 ||| fieldAt (Nat.log2 q.unit) 8])
    + 2 ^ (64 * 17) * s.bindingWords q

/-- The state code of a slot. -/
def SlotState.code : SlotState → Nat
  | .free => 0 | .claimed => 1 | .part _ => 2 | .values => 3 | .metadata => 4

/-- The mark of a slot. -/
def SlotState.mark : SlotState → Nat
  | .part m => m
  | _ => 0

/-- A slot word. -/
def OSlot.word (o : OSlot) : Word :=
  fieldAt o.st.code 0 ||| fieldAt o.type.toNat 3 ||| fieldAt o.spar.toNat 8 ||| fieldAt (o.rows % 2 ^ 15) 10
    ||| fieldAt (o.cols % 2 ^ 16) 25 ||| fieldAt (o.st.mark % 2 ^ 15) 41

/-- The bytes a register takes in the area. -/
def VecReg.span (r : VecReg) : Nat := 64 * ceilDiv r.hwm 64

/-- The vector registers of a list, from offset `off` of their region, and their poison bits. -/
def Vlc.vectorParts (v : Vlc) : List Nat → Nat → List AreaPart × Nat
  | [], _ => ([], 0)
  | r :: l, off =>
    let x := v.vreg (BitVec.ofNat 5 r)
    let rest := v.vectorParts l (off + x.span)
    ({ off := 0x8000 + off, words := x.span / 8, x := x.img.toNat } :: rest.1,
     x.poison.toNat % 2 ^ (x.span / 8) * 2 ^ (off / 8) ||| rest.2)

/-- The poison bits of the accumulator tiles and of the slots, in the bits of the poison region. -/
def Core.tilePoison (c : Core) (slots : Bool) : Nat :=
  let a := (List.finRange 4).foldl (fun m j => m + c.accs[j].poison.toNat * 2 ^ (32768 + 4096 * j.val)) 0
  if slots then (List.finRange 16).foldl (fun m j => m + c.slots[j].poison.toNat * 2 ^ (49152 + 2048 * j.val)) a else a

/-- The parts of the area but for the header; `g` is GRANT and `sr` holds s0 to s31. -/
def State.areaParts (s : State) (g : Bool) (sr : Nat) : List AreaPart :=
  let c := s.core s.v.core
  let tile := s.v.tileOwner
  let vs : List AreaPart × Nat := if g then ([], 0) else s.v.vectorParts (List.range s.v.decl) 0
  let poison := vs.2 + (if tile then c.tilePoison !g else 0)
  [{ off := 0x100, words := 20, x := wordsNat (savedSprs.map s.sprRead) },
   { off := 0x200, words := 32,
     x := if g then 0 else wordsNat ((List.range 32).map fun r => s.sprRead (.vhwm (BitVec.ofNat 5 r))) },
   { off := 0x300, words := 32, x := sr },
   { off := 0x400, words := 512,
     x := s.v.streams.toList.foldr (fun q m => s.streamImage q + 2 ^ 2048 * m) 0 },
   { off := 0x1400, words := 896, x := (s.v.masks.toList.drop 1).foldr (fun k m => k.toNat + 2 ^ 8192 * m) 0 },
   { off := 0x3000, words := 16, x := if tile then wordsNat (c.slots.toList.map OSlot.word) else 0 },
   { off := 0x3080, words := 16, x := wordsNat s.v.wickTags.toList }]
    ++ (if tile || !g then [{ off := 0x4000, words := 1280, x := poison }] else []) ++ vs.1
    ++ (if tile then [{ off := 0x48000, words := 16384,
                        x := c.accs.toList.foldr (fun a m => a.data.toNat + 2 ^ 262144 * m) 0 }] else [])
    ++ (if tile && !g then [{ off := 0x68000, words := 32768,
                              x := c.slots.toList.foldr (fun o m => o.data.toNat + 2 ^ 131072 * m) 0 }] else [])

/-- The end of the last part. -/
def endOfParts (l : List AreaPart) : Nat := (l.map fun a => a.off + 8 * a.words).foldl max 0

/-- The header. -/
def State.areaHeader (s : State) (g : Bool) (size : Nat) : AreaPart :=
  { off := 0, words := 32,
    x := wordsNat [fieldAt 0x56415356 0 ||| fieldAt 1 32 ||| flagAt g 48 ||| flagAt (!g) 49 ||| flagAt s.v.tileOwner 50,
      fieldAt s.v.core 0 ||| fieldAt s.v.lc.toNat 16 ||| fieldAt (s.v.vdeclWord.toNat % 256) 24, BitVec.ofNat 64 size,
      barWord s.v.barw] }

/-- The bindings of the VLC's streams noted as saved. -/
def State.noteBindings (s : State) : State :=
  { s with bindings := s.v.streams.toList.foldl (fun l q =>
      match q.topo with
      | some b => if l.contains b then l else l ++ [b]
      | none => l) s.bindings }

/-- The writes of R318 at `b`. -/
def State.saveArea (s : State) (p : Party) (g : Bool) (sr : Nat) (b : Word) : State × Option Stop :=
  let s := s.noteBindings
  let l := s.areaParts g sr
  s.storeParts p b (s.areaHeader g (endOfParts l) :: l)

/-- VSAVE (R317, R318). -/
def execVsave (a : SReg) (s : State) : Out :=
  .next (checked (.vsave a) s fun s =>
    let b := s.rd a
    if b.toNat % 4096 ≠ 0 then s.raise (.vsave a) (.plain .align 0 (untag b))
    else match s.loadSpan s.party (s.v.block + 0x100) 32 with
    | .error e => s.raise (.vsave a) e
    | .ok (sr, s1) =>
      match s1.saveArea s1.party s1.v.atGrant sr b with
      | (s2, some e) => s2.raise (.vsave a) e
      | (s2, none) => (s2.setV fun v => { v with savedTo := some b.toNat }).finish (.vsave a))

/-! ## Reading an area (R319) -/

/-- What an area holds. -/
structure Area where
  header : Nat
  sprs : Nat
  hwm : Nat
  sregs : Nat
  streams : Nat
  masks : Nat
  slotWords : Nat
  wick : Nat
  poison : Nat
  /-- The vector registers in turn, each with its offset in their region. -/
  vecs : List (Nat × Nat)
  accs : Nat
  slots : Nat
  deriving DecidableEq, Repr

/-- The flags of a header. -/
def Area.flag (a : Area) (n : Nat) : Bool := bitsOf a.header (48 + n) (48 + n) == 1

/-- HWMB of a register, at most its 32768 bytes. -/
def Area.bytes (a : Area) (r : Nat) : Nat := min 32768 (bitsOf (wordAt a.hwm r) 47 32)

/-- A special register of the area. -/
def Area.spr (a : Area) (n : Nat) : Nat := wordAt a.sprs n

/-- The type VT names. -/
def Area.vt (a : Area) : Option VType := VType.ofCode (BitVec.ofNat 5 (a.spr 2))

/-- The checks of R319 that need no placement (R321). -/
def Area.wrong (a : Area) (tile : Bool) : Bool :=
  bitsOf a.header 31 0 != 0x56415356 || bitsOf a.header 47 32 != 1 || bitsOf a.header 63 51 != 0
    || bitsOf a.header 127 96 != 0 || bitsOf a.header (64 * 3 + 61) (64 * 3 + 48) != 0 || a.header / 2 ^ 256 != 0
    || a.flag 2 != tile

/-- MVL for the rows a VLC holds and the type and loop mode of an area (R26). -/
def Area.mvl (a : Area) (v : Vlc) (t : VType) : Nat :=
  maxLength (LoopMode.ofCode (bitsOf (a.spr 7) 13 12) == .spread) v.lc v.rows t.wcode

/-- The checks of R319; a VT of no type is taken as a wrong field. -/
def Area.bad (a : Area) (v : Vlc) : Bool :=
  a.wrong v.tileOwner ||
    match a.vt with
    | none => true
    | some t =>
      a.flag 1 && (bitsOf a.header 79 64 != v.core || bitsOf a.header 87 80 != v.lc.toNat
        || bitsOf a.header 89 88 != v.declEff.toNat || decide (a.mvl v t < bitsOf (a.spr 0) 13 0))

/-- The header and the special registers, with nothing else read. -/
def State.readHeader (s : State) (p : Party) (b : Word) : Except Stop (Area × State) := do
  let (h, s1) ← s.loadSpan p b 32
  let (sp, s2) ← s1.loadSpan p (b + 0x100) 20
  .ok ({ header := h, sprs := sp, hwm := 0, sregs := 0, streams := 0, masks := 0, slotWords := 0, wick := 0, poison := 0,
         vecs := [], accs := 0, slots := 0 }, s2)

/-- The vector registers of a list from offset `off` of their region. -/
def State.readVecs (s : State) (p : Party) (b : Word) (a : Area) : List Nat → Nat → Except Stop (List (Nat × Nat) × State)
  | [], _ => .ok ([], s)
  | r :: l, off => do
    let n := 64 * ceilDiv (a.bytes r) 64
    let (x, s1) ← s.loadSpan p (b + BitVec.ofNat 64 (0x8000 + off)) (n / 8)
    let (rest, s2) ← s1.readVecs p b a l (off + n)
    .ok ((off, x) :: rest, s2)

/-- The rest of an area whose header has passed. -/
def State.readArea (s : State) (p : Party) (b : Word) (a : Area) : Except Stop (Area × State) := do
  let tile := a.flag 2
  let g := a.flag 0
  let (hwm, s) ← s.loadSpan p (b + 0x200) 32
  let (sr, s) ← s.loadSpan p (b + 0x300) 32
  let (qs, s) ← s.loadSpan p (b + 0x400) 512
  let (ms, s) ← s.loadSpan p (b + 0x1400) 896
  let (sw, s) ← s.loadSpan p (b + 0x3000) 16
  let (wk, s) ← s.loadSpan p (b + 0x3080) 16
  let (pz, s) ← s.loadSpan p (b + 0x4000) (if tile || !g then 1280 else 0)
  let a := { a with hwm := hwm, sregs := sr, streams := qs, masks := ms, slotWords := sw, wick := wk, poison := pz }
  let (vs, s) ← s.readVecs p b a (List.range 32) 0
  let (ac, s) ← s.loadSpan p (b + 0x48000) (if tile then 16384 else 0)
  let (sl, s) ← s.loadSpan p (b + 0x68000) (if tile && !g then 32768 else 0)
  .ok ({ a with vecs := vs, accs := ac, slots := sl }, s)

/-! ## Restoring (R319) -/

/-- The binding an image of 15 words names, if it passes the device's check: saved by this die in this context, of a mesh that
the die still holds in the topology it names. -/
def State.bindingOf (s : State) (x : Nat) : Option TopoBind :=
  match ((List.range s.bindings.length).zip s.bindings).find? fun y => (Config.bindingImage y.1).toNat == x with
  | none => none
  | some (_, b) =>
    if b.die = dieOf s.v.core ∧ b.ctx = s.v.ctx
        ∧ s.meshes.any (fun m => m.die == b.die && m.ctx == b.ctx && m.id == b.mesh && m.cur.gen == b.gen) then some b
    else none

/-- Six words from word `n` of a number. -/
def sixFrom (x n : Nat) : Vector Word 6 := Vector.ofFn fun k : Fin 6 => BitVec.ofNat 64 (wordAt x (n + k))

/-- A stream from its 32 words. -/
def State.streamFrom (s : State) (x : Nat) : Stream :=
  let k := wordAt x 16
  let q : Stream :=
    { kind := .pattern, base := BitVec.ofNat 64 (wordAt x 0), ndim := bitsOf (wordAt x 1) 15 8,
      cursor := bitsOf (wordAt x 1) 63 32, strides := sixFrom x 2, bounds := sixFrom x 8, pos := wordAt x 14,
      aux := BitVec.ofNat 64 (wordAt x 15), touched := bitsOf k 2 2 == 1, unit := 2 ^ bitsOf k 15 8, topo := none }
  if k % 4 = 0 then .unbound
  else if k % 4 = 1 then q
  else if k % 4 = 2 then { q with kind := .tile }
  else match s.bindingOf (x / 2 ^ (64 * 17) % 2 ^ 960) with
  | some b => { Stream.unbound with kind := .topology, pos := q.pos, touched := q.touched, unit := q.unit, topo := some b }
  | none => .unbound

/-- The mark is on a scalar register. -/
def RegMark.isScalar : RegMark → Bool
  | .scalar _ => true
  | .mask _ | .stream _ | .special _ => false

/-- The restored special registers, masks, wick tags and arrival; what is restored holds no error. -/
def Area.specials (a : Area) (v : Vlc) (t : VType) : Vlc :=
  let lcmap := a.spr 7
  { v with
    vl := bitsOf (a.spr 0) 13 0, mvl := a.mvl v t, mvl64 := a.mvl v .f64, vt := t, mt := Space.ofBits (BitVec.ofNat 2 (a.spr 3)),
    vstart := bitsOf (a.spr 4) 13 0, tilepos := BitVec.ofNat 32 (bitsOf (a.spr 4) 63 32),
    peer := BitVec.ofNat 13 (bitsOf (a.spr 5) 63 51), fsrPoison := bitsOf (a.spr 5) 1 1 == 1,
    fsrTrim := bitsOf (a.spr 5) 0 0 == 1, scnt := BitVec.ofNat 64 (a.spr 6),
    mode := LoopMode.ofCode (bitsOf lcmap 13 12), slc := BitVec.ofNat 2 (bitsOf lcmap 9 8),
    tsmM := BitVec.ofNat 8 (a.spr 8), tsmType := BitVec.ofNat 5 (bitsOf (a.spr 8) 12 8),
    tsmSpar := BitVec.ofNat 2 (bitsOf (a.spr 8) 14 13), tsn := BitVec.ofNat 7 (a.spr 9),
    tskK := BitVec.ofNat 10 (a.spr 10), acur := bitsOf (a.spr 10) 29 16, fpc := Fpc.ofWord (BitVec.ofNat 64 (a.spr 11)),
    srseed := BitVec.ofNat 64 (a.spr 12), declPend := BitVec.ofNat 2 (bitsOf (a.spr 15) 5 4),
    declEff := if a.flag 1 then BitVec.ofNat 2 (a.spr 15) else v.declEff,
    tcause := Tcause.ofWord (BitVec.ofNat 64 (a.spr 16)), tpc := BitVec.ofNat 64 (a.spr 17),
    tval := BitVec.ofNat 64 (a.spr 18), tvec := BitVec.ofNat 55 (bitsOf (a.spr 19) 63 9),
    masks := Vector.ofFn fun k : Fin 8 => if k.val = 0 then 0 else BitVec.ofNat 8192 (a.masks / 2 ^ (8192 * (k.val - 1))),
    wickTags := Vector.ofFn fun k : Fin 16 => BitVec.ofNat 64 (wordAt a.wick k.val),
    barw := barOf (wordAt a.header 3)
    bad := v.bad.filter RegMark.isScalar }

/-- A vector register restored over an undefined one: exactly HWMB bytes. -/
def Area.vec (a : Area) (r : Nat) (old : VecReg) : VecReg :=
  let n := a.bytes r
  if n = 0 then old
  else
    let x := a.vecs.getD r (0, 0)
    { img := BitVec.ofNat 262144 (x.2 % 2 ^ (8 * n)) ||| (old.img >>> (8 * n)) <<< (8 * n),
      tag := BitVec.ofNat 2 (bitsOf (wordAt a.hwm r) 17 16), hwm := n,
      poison := BitVec.ofNat 4096 (a.poison / 2 ^ (x.1 / 8) % 2 ^ ceilDiv n 8) }

/-- The state of a slot with a code and a mark; an unknown code is that of a claimed slot. -/
def slotStateOf (k m : Nat) : SlotState :=
  if k = 0 then .free else if k = 2 then .part m else if k = 3 then .values else if k = 4 then .metadata else .claimed

/-- A slot restored; `x` is an undefined one's contents. -/
def Area.slot (a : Area) (j : Nat) (x : BitVec 131072) : OSlot :=
  let w := wordAt a.slotWords j
  if w % 8 = 0 then .free
  else if a.flag 0 then { OSlot.free with st := .claimed, data := x }
  else
    { st := slotStateOf (w % 8) (bitsOf w 55 41), type := BitVec.ofNat 5 (bitsOf w 7 3), spar := BitVec.ofNat 2 (bitsOf w 9 8),
      rows := bitsOf w 24 10, cols := bitsOf w 40 25, data := BitVec.ofNat 131072 (a.slots / 2 ^ (131072 * j)),
      poison := BitVec.ofNat 2048 (a.poison / 2 ^ (49152 + 2048 * j)) }

/-- An accumulator tile restored. -/
def Area.acc (a : Area) (j : Nat) : Acc :=
  { data := BitVec.ofNat 262144 (a.accs / 2 ^ (262144 * j)), poison := BitVec.ofNat 4096 (a.poison / 2 ^ (32768 + 4096 * j)) }

/-- The tile state restored, for a tile owner. -/
def State.restoreTiles (s : State) (a : Area) : State :=
  let s1 := s.setCore s.v.core fun c => { c with accs := Vector.ofFn fun j : Fin 4 => a.acc j }
  (List.finRange 16).foldl (fun (s : State) (j : Fin 16) =>
    (s.setCore s.v.core fun c => { c with slots := c.slots.set j (a.slot j (s.free 131072)) }).spend) s1

/-- Everything an area holds but SREG. -/
def State.applyArea (s : State) (a : Area) (t : VType) : State :=
  let s1 := s.freshRegs 0 32
  let s2 := s1.setV fun v =>
    { a.specials v t with
      vregs := Vector.ofFn fun r : Fin 32 => a.vec r v.vregs[r]
      streams := Vector.ofFn fun k : Fin 16 => s1.streamFrom (a.streams / 2 ^ (2048 * k.val) % 2 ^ 2048)
      savedTo := none }
  if s2.v.tileOwner then s2.restoreTiles a else s2

/-- The saved s0 to s31 as SREG holds them: s0 as 0. -/
def Area.sregWords (a : Area) : Nat := a.sregs / 2 ^ 64 * 2 ^ 64

/-- R319 in full: the checks, the reads, SREG and the rest; PROT with detail OPERAND where a check fails. -/
def State.restoreArea (s : State) (p : Party) (b : Word) : Except Stop (Area × State) := do
  let (h, s1) ← s.readHeader p b
  if h.bad s.v then .error (.prot 0 (untag b))
  let (a, s2) ← s1.readArea p b h
  let sreg := BitVec.ofNat 64 (a.spr 19 / 512 * 512) + 0x100
  match s2.storeSpan p sreg a.sregWords 32 with
  | (_, some e) => .error e
  | (s3, none) => .ok (a, s3.applyArea a (a.vt.getD .f64))

/-- VRESTORE (R317, R319). -/
def execVrestore (a : SReg) (s : State) : Out :=
  .next (checked (.vrestore a) s fun s =>
    let b := s.rd a
    if b.toNat % 4096 ≠ 0 then s.raise (.vrestore a) (.plain .align 0 (untag b))
    else s.run (.vrestore a) ((s.restoreArea s.party b).map (·.2)))

end Sys2Proof.Machine
end

