-- ==== Sys2Proof/Machine/Launching.lean ====
section
/-! DEFINITION. Queues and launch records (R323-R328, R342), the dispatcher's checks (R99-R102, R327, R337), dependences (R329),
completion (R330) and gangs (R343, R344). -/

namespace Sys2Proof.Machine

/-! ## Records (R326) -/

/-- A launch record as its queue's oldest, before its header is read; `ctx` is the context of the VLC that enqueued it (R336). -/
def State.launchOf (s : State) (q : Nat) (r : List Byte) (ctx : Option Nat) : Launch where
  key := s.nextLaunch
  queue := q
  prio := min (field r 0x1D 1 % 8) (s.queue q).maxprio.toNat
  ctx := ctx.getD (s.queue q).ctx.toNat
  entry := 0
  args := BitVec.ofNat 64 (field r 0x08 8)
  regs := BitVec.ofNat 2 (field r 0x1C 1)
  tile := false
  nvlc := field r 0x18 4
  lcw := bitsOf (field r 0x1E 1) 3 2
  minlc := bitsOf (field r 0x1E 1) 5 4
  lendable := bitsOf (field r 0x1E 1) 0 0 == 1
  borrow := bitsOf (field r 0x1E 1) 1 1 == 1
  waits := ((List.range 4).take (field r 0x1F 1 % 8)).map fun k =>
    (BitVec.ofNat 64 (field r (0x20 + 16 * k) 8), BitVec.ofNat 64 (field r (0x28 + 16 * k) 8))
  sig := if field r 0x1F 1 / 128 = 1 then some (BitVec.ofNat 64 (field r 0x60 8)) else none
  gang := field r 0x68 4
  npkg := if field r 0x68 8 = 0 then 1 else bitsOf (field r 0x68 8) 45 32
  start := BitVec.ofNat 64 (field r 0x70 8)
  rank0 := field r 0x78 4
  total := field r 0x7C 4
  qtrap := (s.queue q).qtrap
  groups := []
  phase := .waiting
  ended := []
  failed := none
  bars := []
  superstep := 0
  told := 0
  ssync := []
  peersArrived := []
  peersDone := []
  toldDone := false

/-- Wait entry `k` of a record is as R326 allows: aligned below NWAIT, 0 at and above it. -/
def waitOk (r : List Byte) (k : Nat) : Bool :=
  if k < field r 0x1F 1 % 8 then field r (0x20 + 16 * k) 8 % 8 == 0 else zeroes r (0x20 + 16 * k) 16

/-- BADREC (R327). -/
def badRecord (r : List Byte) : Bool :=
  let ctl := field r 0x1F 1
  let lend := field r 0x1E 1
  let regs := field r 0x1C 1
  let n := field r 0x18 4
  let gang := field r 0x68 8
  let sig := field r 0x60 8
  decide (8 ≤ field r 0x1D 1) || decide (64 ≤ lend) || bitsOf ctl 6 3 != 0 || decide (2 ^ 46 ≤ gang)
    || n == 0 || decide (4096 < n) || !(decide (regs ≤ 3) || regs == 0xFF) || decide (4 < ctl % 8)
    || !((List.range 4).all fun k => waitOk r k) || (ctl / 128 == 0 && sig != 0)
    || field r 0x10 8 % 8 != 0 || sig % 8 != 0 || decide (bitsOf lend 3 2 < bitsOf lend 5 4)
    || (if gang = 0 then field r 0x70 8 != 0 || field r 0x78 4 != 0 || field r 0x7C 4 != n
        else decide (bitsOf gang 45 32 < 2) || decide (field r 0x7C 4 < field r 0x78 4 + n))

/-! ## Failures and the signal word (R328, R330) -/

/-- A failure counted in QSTAT. -/
def State.countFail (s : State) (q code : Nat) : State :=
  s.setQueue q fun x => { x with lasterr := code, fails := sat 0xFFFF (x.fails + 1) }

/-- A launch that has failed before it started; its signal is written in a step of its own. -/
def State.failLaunch (s : State) (l : Launch) (code : Nat) : State :=
  let l1 := { l with phase := .done, failed := some code }
  let s1 := s.countFail l.queue code
  let s2 :=
    if s1.launches.any (·.key == l.key) then s1.setLaunch l.key fun _ => l1
    else { s1 with launches := s1.launches ++ [l1], nextLaunch := s1.nextLaunch + 1 }
  s2.due (.launchComplete l.key [])

/-- The oldest record of a queue taken out; the next one is checked. -/
def State.popRecord (s : State) (q : Nat) : State :=
  let rest := (s.queue q).recs.drop 1
  let s1 := s.setQueue q fun x => { x with recs := rest, head := none }
  if rest = [] then s1 else s1.due (.launchRecordCheck q)

/-- The dispatcher's accesses for a context: at user level, through die 0 (R326). -/
def dispatchParty (ctx owner : Nat) : Party :=
  { ctx := ctx, sup := false, die := 0, core := none, slot := 0, watch := false, owner := owner }

/-- The party number of the dispatcher's steps for a launch. -/
def Launch.owner (l : Launch) : Nat := engOwner 0 l.key

/-- The party of the dispatcher's steps for a launch. -/
def Launch.party (l : Launch) : Party := dispatchParty l.ctx l.owner

/-- The failure code of an access of the dispatcher that does not complete (R327 Table 5). -/
def failCode (c : Nat) : Nat := if c = 9 then 9 else 2

/-- What the signal word receives: 1, or 2^63 + 1 for a failure. -/
def Launch.addend (l : Launch) : Nat := if l.failed.isSome then 2 ^ 63 + 1 else 1

/-- The address of the signal word, for the package that adds to it: of a gang's, the one whose RANK0 is 0 (R330). -/
def Launch.signalAt (l : Launch) : Option Word :=
  match l.sig with
  | some a => if (l.rank0 = 0 ∨ (l.gang = 0 ∧ l.npkg = 1)) ∧ a.toNat % 8 = 0 then some a else none
  | none => none

/-- The launch forgotten, with the reports of its gang and the meshes it built (R246) and the rings it formed (R360). -/
def State.forgetLaunch (s : State) (l : Launch) : State :=
  { s with
    launches := s.launches.filter fun x => x.key != l.key
    meshes := s.meshes.filter fun m => m.launch != l.key
    rings := s.rings.filter fun r => r.launch != l.key
    gangReports := if l.npkg ≤ 1 then s.gangReports else s.gangReports.filter fun r => r.gang != l.gang }

/-- The add to the signal word, and the end of the launch. -/
def State.signal (s : State) (l : Launch) : State :=
  match l.signalAt with
  | none => s.forgetLaunch l
  | some a =>
    match s.rmw l.party (.mem a 8 .rmw 0) (atomicKey 0 0) (.amo .add 8 l.addend) (fun o => (o + l.addend) % 2 ^ 64) with
    | .ok (_, s1) => (s1.forgetAnswers l.owner).forgetLaunch l
    | .error (.remote key ep pa op) => s.engWait (.launchComplete l.key []) l.owner key ep pa op
    | .error (.trap .memerr _ _ _) => ((s.forgetAnswers l.owner).countFail l.queue 9).forgetLaunch l
    | .error _ => ((s.forgetAnswers l.owner).countFail l.queue 2).forgetLaunch l

/-- The other packages of a gang told that the launch has ended here, once. -/
def State.tellDone (s : State) (l : Launch) : State :=
  if l.npkg ≤ 1 ∨ l.toldDone then s
  else (s.setLaunch l.key fun x => { x with toldDone := true }).send (.launchDone l.gang l.failed.isSome)

/-- A launch completes in its package once every VLC of it has ended, and a gang once it has in every package (R330);
`peers` are other packages whose completion this step brings, with whether they failed. A launch that failed before it
started only signals. -/
def execLaunchComplete (launch : Nat) (peers : List (Nat × Bool)) (s : State) : Out :=
  let s0 := s.setLaunch launch fun l =>
    { l with peersDone := l.peersDone ++ peers.map (·.1), failed := if peers.any (·.2) then some 8 else l.failed }
  .next (match s0.launch launch with
    | none => s0
    | some l =>
      if l.phase = .done then s0.signal l
      else if !l.allEnded ∨ s0.orphans.any (·.2.1 == launch) then (if peers.isEmpty then s0 else s0.dueSsync launch)
      else
        let s1 := s0.tellDone l
        if 1 < l.npkg ∧ !((s1.gangPeers l).all fun e => l.peersDone.contains e) then s1
        else
          let s2 := s1.setLaunch launch fun x => { x with phase := .done }
          (if l.failed.isSome then s2.countFail l.queue 8 else s2).signal { l with phase := .done })

/-! ## The dispatcher's reads (R99-R102, R337) -/

/-- A kernel header that R102 allows, but for its relocations. -/
def headerOk (h : List Byte) : Bool :=
  let f := fun o => field h o 8
  field h 0 4 == 0x494B4854 && field h 4 2 == 1 && decide (field h 6 2 < 2) && decide (field h 0x0A 1 ≤ 3)
    && field h 0x0B 1 == 0 && f 0x58 == 0 && f 0x10 % 2 == 0 && decide (f 0x18 ≤ f 0x10)
    && decide (f 0x10 < f 0x18 + f 0x20) && decide (f 0x18 + f 0x20 ≤ f 0x50) && decide (f 0x28 + f 0x30 ≤ f 0x50)
    && decide (f 0x40 + 16 * f 0x48 ≤ f 0x50) && (f 0x38 == 0 || decide (f 0x38 + 2048 ≤ f 0x50))

/-- The TYPE of each of `n` relocation records from an address is 1. -/
def State.relocsOk (s : State) (p : Party) (a : Word) : Nat → Except EngStop (Bool × State)
  | 0 => .ok (true, s)
  | n + 1 => do
    let (x, s1) ← s.engBytes p (a + 8) 4
    let (ok, s2) ← s1.relocsOk p (a + 16) n
    .ok (ok && field x 0 4 == 1, s2)

/-- The ranges of a record list. -/
def rangesOf (r : List Byte) (n : Nat) : List (Nat × Nat) :=
  (List.range n).map fun j => (field r (8 * j) 4, field r (8 * j + 4) 4)

/-- The non-empty entries of a group table from entry `g`, `n` of them, with whether their descriptors are as R100 says. -/
def State.readGroups (s : State) (p : Party) (a : Word) (table : List Byte) (g : Nat) :
    Nat → Except EngStop ((Bool × List (Nat × List (Nat × Nat))) × State)
  | 0 => .ok ((true, []), s)
  | n + 1 => do
    let d := field table (8 * g) 8
    let k := bitsOf d 47 32
    let (r, s1) ← s.engBytes p (a + BitVec.ofNat 64 (bitsOf d 31 0)) (8 * k)
    let (rest, s2) ← s1.readGroups p a table (g + 1) n
    let l := if k = 0 then rest.2 else (g, rangesOf r k) :: rest.2
    .ok ((rest.1 && bitsOf d 63 48 == 0, l), s2)

/-- Ranges ascend without overlap, from `lo`, below `total`. -/
def rangesAscend (total lo : Nat) : List (Nat × Nat) → Bool
  | [] => true
  | x :: l => decide (lo ≤ x.1) && decide (x.1 ≤ x.2) && decide (x.2 < total) && rangesAscend total (x.2 + 1) l

/-- The number of groups that hold a rank. -/
def groupsWith (l : List (Nat × List (Nat × Nat))) (r : Nat) : Nat := (l.filter fun g => inRanges r g.2).length

/-- A group table that R100, R40 and R337 allow. -/
def groupsOk (total : Nat) (l : List (Nat × List (Nat × Nat))) : Bool :=
  l.all fun g => rangesAscend total 0 g.2 && g.2.all fun x => decide (groupsWith l x.1 ≤ 4)

/-- The ranges of a table that lie in a package, cut to it. -/
def keepRanks (lo hi : Nat) (l : List (Nat × List (Nat × Nat))) : List (Nat × List (Nat × Nat)) :=
  (l.map fun g => (g.1, (g.2.filter fun x => decide (x.1 < hi) && decide (lo ≤ x.2)).map fun x =>
    (max lo x.1, min (hi - 1) x.2))).filter fun g => !g.2.isEmpty

/-- The cores that can ever hold a VLC: those with a lane cluster that is not fused. -/
def State.usableCores (s : State) : Nat := 1024 - (s.cores.filter fun c => decide (c.1 < 1024) && c.2.fused == 15).length

/-- TOOBIG (R334). -/
def State.tooBig (s : State) (tile : Bool) (n : Nat) : Bool :=
  decide ((if tile then s.usableCores else 4 * s.usableCores) < n)

/-- What the checks of a record find: a failure code, or the launch. -/
inductive Checked where
  | fail (code : Nat)
  | good (l : Launch)
  deriving DecidableEq, Repr

/-- The group table at an address, read whole. -/
def State.groupTable (s : State) (p : Party) (a : Word) :
    Except EngStop ((Bool × List (Nat × List (Nat × Nat))) × State) := do
  let (t, s1) ← s.engBytes p a 2048
  s1.readGroups p a t 0 256

/-- The checks of R327 after BADREC, in its order. -/
def State.checkLaunch (s : State) (r : List Byte) (l : Launch) : Except EngStop (Checked × State) := do
  let p := dispatchParty l.ctx (engOwner 1 l.queue)
  let kimg := BitVec.ofNat 64 (field r 0 8)
  let gtab := BitVec.ofNat 64 (field r 0x10 8)
  let (h, s1) ← s.engBytes p kimg 128
  let (g0, s2) ← if gtab = 0 then .ok ((true, []), s1) else s1.groupTable p gtab
  let base := kimg - BitVec.ofNat 64 (field h 0x0C 4)
  if !headerOk h then .ok (.fail 3, s2)
  else
    let (ok, s3) ← s2.relocsOk p (base + BitVec.ofNat 64 (field h 0x40 8)) (field h 0x48 8)
    let gt := field h 0x38 8
    let (g, s4) ← if gtab = 0 ∧ gt ≠ 0 then s3.groupTable p (base + BitVec.ofNat 64 gt) else .ok (g0, s3)
    if !ok then .ok (.fail 3, s4)
    else
      let tile := field h 6 2 == 1
      let regs := if field r 0x1C 1 = 0xFF then BitVec.ofNat 2 (field h 0x0A 1) else l.regs
      if !g.1 ∨ !groupsOk l.total g.2 then .ok (.fail 4, s4)
      else if s4.tooBig tile l.nvlc then .ok (.fail 6, s4)
      else if 1 < l.npkg ∧ l.start.toNat < s4.beacon.toNat + 10000 then .ok (.fail 7, s4)
      else .ok (.good { l with
        entry := base + BitVec.ofNat 64 (field h 0x10 8), tile := tile, regs := regs,
        groups := keepRanks l.rank0 (l.rank0 + l.nvlc) g.2 }, s4)

/-- The check of the oldest record of a queue. -/
def State.checkRecord (s : State) (q : Nat) : State :=
  match (s.queue q).recs, (s.queue q).head with
  | (r, ctx) :: _, none =>
    let l := s.launchOf q r ctx
    let me := engOwner 1 q
    if badRecord r then (s.popRecord q).failLaunch l 1
    else match s.checkLaunch r l with
    | .error (.remote owner key ep pa op) => s.engWait (.launchRecordCheck q) owner key ep pa op
    | .error (.code c _) => ((s.forgetAnswers me).popRecord q).failLaunch l (failCode c)
    | .ok (.fail code, s1) => ((s1.forgetAnswers me).popRecord q).failLaunch l code
    | .ok (.good l1, s1) =>
      let s2 := (s1.forgetAnswers me).setQueue q fun x => { x with head := some l1.key }
      ({ s2 with launches := s2.launches ++ [l1], nextLaunch := s2.nextLaunch + 1 }).due (.waitWordReread l1.key)
  | _, _ => s

/-- A record that has become the oldest of its queue is checked (R327). -/
def execLaunchRecordCheck (q : Nat) (s : State) : Out := .next (s.checkRecord q)

/-! ## Dependences (R329) -/

/-- The wait words of a launch read: `none` when bit 63 of one is set, else whether every one satisfies its entry. -/
def State.readWaits (s : State) (p : Party) : List (Word × Word) → Except EngStop (Option Bool × State)
  | [] => .ok (some true, s)
  | w :: l => do
    let (x, s1) ← s.engRead p 0 .glob w.1 8 0
    let (r, s2) ← s1.readWaits p l
    .ok (if 2 ^ 63 ≤ x then none else r.map fun b => b && decide (w.2.toNat % 2 ^ 63 ≤ x), s2)

/-- A launch whose dependences or reads fail leaves its queue. -/
def State.dropLaunch (s : State) (l : Launch) (code : Nat) : State := (s.popRecord l.queue).failLaunch l code

/-- The wait words of a launch that is not placed are read again, and it becomes ready or waits. -/
def State.rereadWaits (s : State) (key : Nat) : State :=
  match s.launch key with
  | none => s
  | some l =>
    if l.phase ≠ .waiting ∧ l.phase ≠ .ready then s
    else match s.readWaits l.party l.waits with
    | .error (.remote owner k ep pa op) => s.engWait (.waitWordReread key) owner k ep pa op
    | .error (.code c _) => (s.forgetAnswers l.owner).dropLaunch l (failCode c)
    | .ok (none, s1) => (s1.forgetAnswers l.owner).dropLaunch l 5
    | .ok (some b, s1) =>
      let s2 := (s1.forgetAnswers l.owner).setLaunch key fun x => { x with phase := if b then .ready else .waiting }
      if b then s2.due .launchPlace else s2

/-- The wait words of a launch are read (R329). -/
def execWaitWordReread (launch : Nat) (s : State) : Out := .next (s.rereadWaits launch)

/-! ## Enqueueing (R324, R325, R342) -/

/-- A record enqueued, by LAUNCH with the context of its VLC. -/
def State.enqueue (s : State) (q : Nat) (r : List Byte) (ctx : Option Nat) : State :=
  let first := (s.queue q).recs = []
  let s1 := s.setQueue q fun x => { x with recs := x.recs ++ [(r, ctx)] }
  if first then s1.due (.launchRecordCheck q) else s1

/-- A posted write to the queue BAR (R323, R324): 128 bytes at LREC enqueue a record; any other is dropped and counted. The BAR is not
live in recovery (R385). -/
def execLrecWrite (off : Nat) (data : List Byte) (s : State) : Out :=
  let q := off / 4096 % 65536
  .next (if s.pilot.boot = 4 then s
    else if off % 4096 = 0 ∧ data.length = 128 ∧ (s.queue q).en ∧ (s.queue q).recs.length < 8 then s.enqueue q data none
    else s.setQueue q fun x => { x with drop := sat 0xFFFF (x.drop + 1) })

/-- The placed VLCs of a gang that fails leave their cores; none has issued. -/
def State.freeHeld (s : State) (key : Nat) : State :=
  let gone := s.vlcs.filter fun v => v.launch == key && v.status == .held
  let s1 := gone.foldl (fun s v =>
    match s.bring (·.isAt v.core v.slot) with
    | none => s
    | some s1 => let s2 := s1.vacate; ({ s2 with v := Vlc.absent }).gatePower v.core) s
  s1.dueDispatch

/-- The records of a queue discarded, the oldest first: each fails with ENDED, and a gang that is placed leaves its cores (R325). -/
def State.discardRecords (s : State) (q : Nat) : List (List Byte × Option Nat) → State
  | [] => s
  | (r, ctx) :: l =>
    let x := match (s.queue q).head with
      | some k => (s.launch k).getD (s.launchOf q r ctx)
      | none => s.launchOf q r ctx
    (((if x.phase = .held then s.freeHeld x.key else s).failLaunch x 8).setQueue q fun y => { y with recs := l, head := none }).discardRecords q l

/-- A write to QCFG (R325). -/
def State.writeQcfg (s : State) (q : Nat) (x : Word) : State :=
  let en := x.getLsbD 63
  let s1 := if (s.queue q).en ∧ !en then s.discardRecords q (s.queue q).recs else s
  s1.setQueue q fun y =>
    { y with
      en := en, maxprio := x.extractLsb' 56 3, ctx := x.extractLsb' 0 12, drop := if en then 0 else y.drop,
      fails := if en then 0 else y.fails }

/-- A write to QCFG (R325). -/
def execQcfgWrite (q : Nat) (x : BitVec 64) (s : State) : Out := .next (s.writeQcfg q x)

/-- LAUNCH once decode's checks are made (R342). -/
def launchRun (d a b : SReg) (s : State) : State :=
  let i := Instr.launch d a b
  if (s.rd a).toNat % 128 ≠ 0 then s.raise i (.plain .align 0 (untag (s.rd a)))
  else match s.capture s.party (s.rd a) 16 with
  | .error e => s.raise i e
  | .ok (r, s1) =>
    if s1.v.stores ≠ [] then s1.drain i
    else
      let q := (s1.rd b).toNat
      if 65535 < q ∨ !(s1.queue q).en ∨ (s1.queue q).ctx.toNat ≠ s1.v.ctx then (s1.wr d 2).finish i
      else if 8 ≤ (s1.queue q).recs.length then (s1.wr d 1).finish i
      else ((s1.enqueue q r (some s1.v.ctx)).wr d 0).finish i

/-- LAUNCH (R342). It waits for its release until no store to another endpoint is outstanding, and then executes again. -/
def execLaunch (d a b : SReg) (s : State) : Out := .next (checked (.launch d a b) s (launchRun d a b))

/-! ## Gangs (R343, R344) -/

/-- The reports of a gang. -/
def State.reportsOf (s : State) (gang : Nat) : List GangReport := s.gangReports.filter (·.gang == gang)

/-- Every package of the gang has reported, their values agree, and their ranges tile the launch. -/
def State.gangWhole (s : State) (l : Launch) : Bool :=
  let rs := s.reportsOf l.gang
  rs.length == l.npkg && decide (rs.map (·.rank0)).Nodup && (rs.map (·.nvlc)).foldl (· + ·) 0 == l.total
    && rs.all fun r => r.npkg == l.npkg && r.start == l.start && r.total == l.total
      && (r.rank0 == 0 || rs.any fun y => y.rank0 + y.nvlc == r.rank0 && decide (y.ep < r.ep))

/-- The gang's start falls due once it is placed here and every report has come. -/
def State.dueGang (s : State) (l : Launch) : State :=
  if l.phase = .held ∧ s.gangWhole l then s.due (.gangStart l.key) else s

/-- The launch placed here, told to the other packages of its gang. -/
def State.reportGang (s : State) (l : Launch) : State :=
  let r : GangReport :=
    { ep := s.endpoint, gang := l.gang, npkg := l.npkg, start := l.start, rank0 := l.rank0, nvlc := l.nvlc, total := l.total }
  (({ s with gangReports := s.gangReports ++ [r] }).send (.gangReport r)).dueGang l

/-- A report of another package arrives, before Beacon tick START - 5000. -/
def execGangReport (ep gang npkg : Nat) (start : BitVec 64) (rank0 nvlc total : Nat) (s : State) : Out :=
  let r : GangReport :=
    { ep := ep, gang := gang, npkg := npkg, start := start, rank0 := rank0, nvlc := nvlc, total := total }
  .next (if start.toNat ≤ s.beacon.toNat + 5000 then s
    else
      let s1 := { s with gangReports := s.gangReports ++ [r] }
      match s1.launches.find? fun l => l.gang == gang && decide (1 < l.npkg) with
      | none => s1
      | some l => s1.dueGang l)

/-- Beacon tick START - 5000 (R344): a gang that is not whole by then fails. -/
def execGangReportDeadline (launch : Nat) (s : State) : Out :=
  .next (match s.launch launch with
    | none => s
    | some l =>
      if l.npkg ≤ 1 ∨ l.phase = .running ∨ l.phase = .done then s
      else if l.phase = .held then if s.gangWhole l then s else (s.freeHeld launch).dropLaunch l 7
      else s.dropLaunch l 7)

/-- The Beacon reads START (R344): every VLC of the gang issues; a frozen job's gang starts at its release (R370). -/
def execGangStart (launch : Nat) (s : State) : Out :=
  .next (match s.launch launch with
    | none => s
    | some l =>
      if l.phase ≠ .held ∨ !s.gangWhole l then s
      else if s.frozenCtx l.ctx then s.holdStep l.ctx (.gangStart launch)
      else
        let s1 := { s with beacon := if s.beacon.ult l.start then l.start else s.beacon }
        let s2 := s1.mapVlcs fun v => if v.launch = launch ∧ v.status = .held then { v with status := .runnable } else v
        ((s2.popRecord l.queue).setLaunch launch fun x => { x with phase := .running }).dueComplete launch)

end Sys2Proof.Machine
end

