-- ==== Sys2Proof/Machine/Placement.lean ====
section
/-! DEFINITION. The dispatcher's choice and placement (R331-R339), RESUME (R321, R338) and VEND (R341). -/

namespace Sys2Proof.Machine

/-! ## What a core can take (R334, R338) -/

/-- A VLC that RESUME made placeable. -/
def Vlc.resuming (v : Vlc) : Bool :=
  match v.status with
  | .placeable _ _ => true
  | _ => false

/-- Where a resuming VLC that was saved inside a strip goes back to. -/
def Vlc.seat (v : Vlc) : Option Seat :=
  match v.status with
  | .placeable _ st => st
  | _ => none

/-- The lane clusters of a core that resuming VLCs saved and no new VLC is placed on (R338). -/
def State.savedClusters (s : State) (core : Nat) : BitVec 4 :=
  ((s.vlcs.filterMap (·.seat)).filter (·.core == core)).foldl (fun m x => m ||| x.lc) 0

/-- VLCs, by core and slot, that a reservation counts as gone. -/
abbrev Gone := List (Nat × Nat)

/-- The VLCs resident on a core but for those that count as gone. -/
def State.onCore (s : State) (gone : Gone) (core : Nat) : List Vlc :=
  s.vlcs.filter fun v => v.status.resident && v.core == core && !gone.contains (v.core, v.slot)

/-- Every VLC on a cluster belongs to the context. -/
def State.clusterFree (s : State) (gone : Gone) (cluster ctx : Nat) : Bool :=
  s.vlcs.all fun v => !(v.status.resident && clusterOf v.core == cluster && !gone.contains (v.core, v.slot)) || v.ctx == ctx

/-- A core can take a VLC beside `n` others. -/
def State.canTake (s : State) (gone : Gone) (ctx : Nat) (tile : Bool) (core n : Nat) : Bool :=
  let here := s.onCore gone core
  let kept := s.savedClusters core
  (s.core core).avail &&& ~~~kept != 0 && s.clusterFree gone (clusterOf core) ctx
    && if tile then here.length == n && kept == 0 && here.all fun v => !v.tileOwner
       else decide (here.length ≤ n)

/-- The places of a die for VLCs of a context, in the order in which they are filled: the cores with the fewest VLCs first,
and then the lowest numbers. -/
def State.placesOn (s : State) (gone : Gone) (ctx : Nat) (tile : Bool) (die : Nat) : List Nat :=
  (List.range 4).flatMap fun n => ((List.range 128).map (128 * die + ·)).filter fun c => s.canTake gone ctx tile c n

/-- The cores of a launch's VLCs in rank order, if all fit: die after die (R37). -/
def State.plan (s : State) (gone : Gone) (l : Launch) : Option (List Nat) :=
  let all := (List.range 8).flatMap fun d => s.placesOn gone l.ctx l.tile d
  if l.nvlc ≤ all.length then some (all.take l.nvlc) else none

/-! ## Placing a VLC (R334-R336, R339) -/

/-- A VLC that may lend lane clusters to a launch (R339). -/
def State.lends (s : State) (l : Launch) (v : Vlc) : Bool :=
  match s.launch v.launch with
  | none => false
  | some o => decide (o.prio < l.prio) && o.lendable && !v.tileOwner && v.ctx == l.ctx

/-- It can lend one more and keep MINLC + 1. -/
def State.spare (s : State) (v : Vlc) : Bool :=
  match s.launch v.launch with
  | none => false
  | some o => decide (o.minlc + 1 < (clustersOf (v.lc &&& ~~~v.dropLc)).length)

/-- The number of VLCs that count as holders of a lane cluster for a launch. -/
def State.holders (s : State) (l : Launch) (core c : Nat) : Nat :=
  let hs := (s.onCore [] core).filter fun v => v.lc.getLsbD c
  if l.borrow ∧ hs.all fun v => s.lends l v && s.spare v then 0 else hs.length

/-- The lane clusters a VLC of a launch receives on a core. -/
def State.lanesFor (s : State) (l : Launch) (core : Nat) : BitVec 4 :=
  let avail := (s.core core).avail &&& ~~~s.savedClusters core
  if l.tile then avail else fewestFirst avail (s.holders l core) (l.lcw + 1)

/-- The lowest free residency slot of a core. -/
def State.freeSlot (s : State) (core : Nat) : Nat :=
  ((List.range 4).find? fun k => !(s.vlcs.any (·.isAt core k))).getD 0

/-- A cluster zeroed for a context other than the one it last held (R335). -/
def State.zeroCluster (s : State) (cluster ctx : Nat) : State :=
  if (s.cluster cluster).lastCtx = some ctx then s
  else
    let s1 := s.setCluster cluster fun _ => { cmem := Memory.empty, lastCtx := some ctx }
    (List.range 16).foldl (fun s k => s.setCore (16 * cluster + k) fun c =>
      { c with
        spad := Memory.empty, lanes := Memory.empty, tagTable := [], slots := Vector.replicate 16 OSlot.free,
        accs := Vector.replicate 4 { data := 0, poison := 0 } }) s1

/-- GMEMB of a rank (R63 Table 8, R337). -/
def Launch.membership (l : Launch) (rank : Nat) : Word :=
  let gs := ((l.groups.filter fun g => inRanges rank g.2).map (·.1)).take 4
  (gs.zip [0, 16, 32, 48]).foldl (fun m x => m ||| flagAt true (x.2 + 15) ||| fieldAt (x.1 % 256) x.2) 0

/-- Lending requests on the lenders of a core for a borrower's lane clusters (R339). -/
def State.borrow (s : State) (l : Launch) (core slot : Nat) (lc : BitVec 4) : State :=
  if !l.borrow then s
  else s.mapVlcs fun v =>
    let both := v.lc &&& lc
    if v.status.resident ∧ v.core = core ∧ v.slot ≠ slot ∧ s.lends l v ∧ both ≠ 0 then
      { v with dropLc := v.dropLc ||| both, lent := v.lent ++ (clustersOf both).map fun c => (c, slot) }
    else v

/-- The tile state of a core as a tile-owning VLC starts (R204, R208): every slot free, the tiles undefined. -/
def State.startTiles (s : State) (core : Nat) : State :=
  (s.setCore core fun c => { c with slots := Vector.replicate 16 OSlot.free }).freshAccs core

/-- A VLC of a launch as its kernel begins (R105, R336), SRSEED at its rank + 1 (R137). -/
def State.startVlc (s : State) (l : Launch) (rank core slot : Nat) (lc : BitVec 4) : Vlc :=
  { Vlc.absent with
    status := if l.npkg ≤ 1 then .runnable else .held
    core := core, slot := slot, launch := l.key, rank := BitVec.ofNat 32 rank, ctx := l.ctx, pc := l.entry
    sregs := ((Vector.replicate 32 0).set 3 l.args).set 4 (BitVec.ofNat 64 rank)
    vregs := Vector.ofFn fun r : Fin 32 => { VecReg.clear with img := Config.freeValue 262144 (s.freeCtr + r.val) }
    lc := lc, declEff := l.regs, declPend := l.regs, declHeld := l.regs, gmemb := l.membership rank
    tvec := ((l.qtrap ++ 0#9) + BitVec.ofNat 64 (512 * (rank - l.rank0))).extractLsb' 9 55
    tileOwner := l.tile, srseed := (BitVec.ofNat 32 rank).setWidth 64 + 1 }

/-- The VLC of a rank placed on a core. -/
def State.placeRank (s : State) (l : Launch) (rank core : Nat) : State :=
  let s1 := s.zeroCluster (clusterOf core) l.ctx
  let s2 := if l.tile then s1.startTiles core else s1
  let slot := s2.freeSlot core
  let lc := s2.lanesFor l core
  let v := s2.startVlc l rank core slot lc
  let s3 := s2.borrow l core slot lc
  { s3 with parked := s3.parked ++ [v], freeCtr := s3.freeCtr + 32 }

/-- A launch placed on the cores of a plan. It leaves its queue as it starts, a gang at its START (R323, R344). -/
def State.placeLaunch (s : State) (l : Launch) (cores : List Nat) : State :=
  let s1 := (cores.zip (List.range cores.length)).foldl (fun s x => s.placeRank l (l.rank0 + x.2) x.1) s
  let s2 := (if l.npkg ≤ 1 then s1.popRecord l.queue else s1).setQueue l.queue fun q => { q with deficit := q.deficit - l.nvlc }
  let l1 := { l with phase := if l.npkg ≤ 1 then .running else .held }
  let s3 := s2.setLaunch l.key fun _ => l1
  if l.npkg ≤ 1 then s3 else s3.reportGang l1

/-! ## Reservations (R332) -/

/-- The VLCs of launches below a level, in ascending priority. -/
def State.below (s : State) (p : Nat) : Gone :=
  (List.range p).flatMap fun k => (s.vlcs.filter fun v =>
    v.status.resident && ((s.launch v.launch).map (·.prio)) == some k).map fun v => (v.core, v.slot)

/-- VLCs added one by one until the launch fits. -/
def State.addUntil (s : State) (l : Launch) (gone : Gone) : Gone → Gone
  | [] => []
  | x :: rest => if (s.plan gone l).isSome then [] else x :: s.addUntil l (gone ++ [x]) rest

/-- Those of them that the fit does not need left out, the last taken first. -/
def State.prune (s : State) (l : Launch) (kept : Gone) : Gone → Gone
  | [] => []
  | x :: rest => if (s.plan (kept ++ rest) l).isSome then s.prune l kept rest else x :: s.prune l (kept ++ [x]) rest

/-- The pre-emption requests of a reservation: none while the launch would not fit even with every one of those VLCs gone. -/
def State.askFor (s : State) (l : Launch) : State :=
  let all := s.below l.prio
  let asked := all.filter fun x => s.vlcs.any fun v => v.isAt x.1 x.2 && v.preempt
  let more := s.addUntil l asked (all.filter fun x => !asked.contains x)
  let need := if (s.plan (asked ++ more) l).isSome then s.prune l asked more.reverse else []
  need.foldl (fun s x => s.requestPreempt x.1 x.2) s

/-! ## Choosing (R331, R332) -/

/-- The ready candidates: for each queue, in ascending number, its oldest record's launch. -/
def State.ready (s : State) : List Launch :=
  s.queues.filterMap fun q =>
    match q.2.head.bind s.launch with
    | some l => if l.phase = .ready ∧ !s.frozenCtx l.ctx then some l else none
    | none => none

/-- The least level at which a new launch may start, for the resuming VLCs that wait (R338). -/
def State.resumeFloor (s : State) : Nat :=
  ((s.vlcs.filter fun v => v.resuming && !s.frozenCtx v.ctx).map fun v =>
    ((s.launch v.launch).map (·.prio + 1)).getD 0).foldl max 0

/-- The highest reservation whose launch is still ready: its level and launch. -/
def State.reservation (s : State) : Option (Nat × Launch) :=
  (List.finRange 8).reverse.findSome? fun p =>
    match s.reserved[p].bind s.launch with
    | some l => if l.phase = .ready ∧ !s.frozenCtx l.ctx then some (p.val, l) else none
    | none => none

/-- The reservation of a level set. -/
def State.setReserved (s : State) (p : Nat) (x : Option Nat) : State :=
  { s with reserved := s.reserved.set (p % 8) x (Nat.mod_lt _ (by decide)) }

/-- A queue without a ready candidate loses its deficit as the loop of R331 comes to it, on the way to level `p` and past the queues
`passed` of that level; the loop meets a queue that holds no checked record at every level (DESIGN CHOICE, log 63). -/
def State.dropDeficits (s : State) (p : Nat) (passed : Nat → Bool) : State :=
  let keep := s.ready.map (·.queue)
  let met (n : Nat) (q : Queue) : Bool :=
    match (q.head.bind s.launch).map (·.prio) with
    | none => true
    | some k => decide (p < k) || (k == p && passed n)
  { s with queues := s.queues.map fun q =>
      if keep.contains q.1 || !met q.1 q.2 then q else (q.1, { q.2 with deficit := 0 }) }

/-- Queue `n` lies between the last queue visited and the one visited now. -/
def between (last x n : Nat) : Bool :=
  if last < x then decide (last < n) && decide (n < x) else decide (last < n) || decide (n < x)

/-- The queue to visit at a level: the next after the last one visited. -/
def nextVisit (last : Nat) (l : List Launch) : Option Launch :=
  match l.find? fun x => decide (last < x.queue) with
  | some x => some x
  | none => l.head?

/-- A launch placed, and the record that its queue holds then looked at. -/
def State.placeNext (s : State) (l : Launch) (cores : List Nat) : State :=
  let s1 := (s.placeLaunch l cores).checkRecord l.queue
  match (s1.queue l.queue).head with
  | some k => s1.rereadWaits k
  | none => s1

/-- Candidates of a visited queue placed while its deficit allows; at most the 8 records of the queue. -/
def State.serve (s : State) (q p : Nat) : Nat → State
  | 0 => s
  | n + 1 =>
    match (s.ready).find? fun l => l.queue == q && l.prio == p with
    | none => s
    | some l =>
      if (s.queue q).deficit < l.nvlc then s
      else match s.plan [] l with
      | none => (s.setReserved p (some l.key)).askFor l
      | some cores => (s.placeNext l cores).serve q p n

/-- One visit of the dispatcher at the highest level that has a ready candidate and may start. -/
def State.visit (s : State) (floor : Nat) : State :=
  let l := s.ready.filter fun x => decide (floor ≤ x.prio)
  if l = [] then s.dropDeficits 0 fun _ => true
  else
    let p := (l.map (·.prio)).foldl max 0
    match nextVisit s.visited[p % 8] (l.filter (·.prio == p)) with
    | none => s
    | some x =>
      let s1 := (s.dropDeficits p (between s.visited[p % 8] x.queue)).setQueue x.queue fun q => { q with deficit := q.deficit + 256 }
      let s2 := { s1 with visited := s1.visited.set (p % 8) x.queue (Nat.mod_lt _ (by decide)) }
      (s2.serve x.queue p 8).due .launchPlace

/-- The dispatcher's turn: a ready candidate of a level above the highest reservation first (R331); then the reservation, after which
the visit of its queue goes on; without one, a visit. -/
def State.dispatch (s : State) : State :=
  match s.reservation with
  | none => s.visit s.resumeFloor
  | some (p, l) =>
    let floor := max s.resumeFloor (p + 1)
    if s.ready.any fun x => decide (floor ≤ x.prio) then s.visit floor
    else if p < s.resumeFloor then s
    else match s.plan [] l with
    | some cores => (((s.placeNext l cores).setReserved p none).serve l.queue p 8).due .launchPlace
    | none => s.askFor l

/-- The dispatcher chooses a ready launch and places its VLCs (R331, R332, R334). -/
def execLaunchPlace (s : State) : Out := .next s.dispatch

/-! ## RESUME (R321, R338) -/

/-- The party number of the steps that read or write a VLC's save area. -/
def Vlc.areaOwner (v : Vlc) : Nat := engOwner 3 (v.launch * 2 ^ 32 + v.rank.toNat)

/-- The party that reads the save area of a released VLC. -/
def Vlc.areaParty (v : Vlc) : Party :=
  { ctx := v.ctx, sup := true, die := dieOf v.core, core := none, slot := 0, watch := false, owner := v.areaOwner }

/-- ERR of RESUME. -/
def State.setResumeErr (s : State) (die : Nat) (b : Bool) : State := s.setDie die fun d => { d with resumeErr := b }

/-- The VLC of a die released to an address. -/
def State.releasedAt (s : State) (die b : Nat) : Option Vlc :=
  s.parked.find? fun v => v.status == .released b && dieOf v.core == die

/-- The seat that an area with STRIP = 1 names on a die (R338). An area whose special registers cannot be read, or whose VT is of no
type, asks for no length: R319 in full turns it away where it is placed. -/
def Area.seat (a : Area) (die : Nat) (readable : Bool) : Option Seat :=
  if !a.flag 1 then none
  else
    let w := (a.vt.map (·.wcode)).getD 3
    some
      { core := 128 * die + bitsOf a.header 79 64 % 128, lc := BitVec.ofNat 4 (bitsOf a.header 87 80),
        vl := if readable && a.vt.isSome then bitsOf (a.spr 0) 13 0 else 0, w := w,
        spread := LoopMode.ofCode (bitsOf (a.spr 7) 13 12) == .spread }

/-- The area of a header alone. -/
def Area.ofHeader (h : Nat) : Area :=
  { header := h, sprs := 0, hwm := 0, sregs := 0, streams := 0, masks := 0, slotWords := 0, wick := 0, poison := 0, vecs := [],
    accs := 0, slots := 0 }

/-- A write to RESUME (R321). -/
def State.writeResume (s : State) (die : Nat) (x : Word) : State :=
  let b := x.toNat / 4096 * 4096
  let s1 := if x.getLsbD 0 then s.setResumeErr die false else s
  if b = 0 then s1
    else match s1.releasedAt die b with
    | none => s1.setResumeErr die true
    | some v =>
      let me := v.areaOwner
      let passed (s : State) (st : Option Seat) : State :=
        let s1 := s.forgetAnswers me
        ({ s1 with parked := replaceFirst (· == v) { v with status := .placeable b st } s1.parked }).due .vlcResumePlace
      match s1.loadSpan v.areaParty (BitVec.ofNat 64 b) 32 with
      | .error (.remote key ep pa op) => s.engWait (.resumeWrite die x) me key ep pa op
      | .error _ => (s1.forgetAnswers me).setResumeErr die true
      | .ok (h, s2) =>
        let a := Area.ofHeader h
        if a.wrong v.tileOwner then (s2.forgetAnswers me).setResumeErr die true
        else if !a.flag 1 then passed s2 none
        else match s2.loadSpan v.areaParty (BitVec.ofNat 64 b + 0x100) 20 with
        | .error (.remote key ep pa op) => s.engWait (.resumeWrite die x) me key ep pa op
        | .error _ => passed s2 (a.seat die false)
        | .ok (sp, s3) => passed s3 (({ a with sprs := sp } : Area).seat die true)

/-- A write to RESUME (R321). -/
def execResumeWrite (die : Nat) (x : BitVec 64) (s : State) : Out := .next (s.writeResume die x)

/-- The rows that R25 gives a VLC beside those resident on its core. -/
def State.rowsBeside (s : State) (v : Vlc) : Vector Nat 4 :=
  let others := s.onCore [] v.core
  Vector.ofFn fun c : Fin 4 =>
    if v.lc.getLsbD c then
      512 / (v.decl + ((others.filter fun w => w.lc.getLsbD c).map (·.decl)).foldl (· + ·) 0)
    else 0

/-- A VLC saved inside a strip fits back on its core (R338). -/
def State.stripFits (s : State) (v : Vlc) (st : Seat) : Bool :=
  let here := s.onCore [] st.core
  decide (here.length < 4) && s.clusterFree [] (clusterOf st.core) v.ctx && !(v.tileOwner && here.any (·.tileOwner))
    && st.lc &&& ~~~(s.core st.core).avail == 0
    && decide (st.vl ≤ maxLength st.spread st.lc (s.rowsBeside { v with core := st.core, lc := st.lc }) st.w)

/-- Where a resuming VLC goes now: its core and lane clusters. -/
def State.seatFor (s : State) (v : Vlc) : Option (Nat × BitVec 4) :=
  match v.seat with
  | some st => if s.stripFits v st then some (st.core, st.lc) else none
  | none => match (s.placesOn [] v.ctx v.tileOwner (dieOf v.core)).head?, s.launch v.launch with
  | some c, some l => some (c, s.lanesFor l c)
  | _, _ => none

/-- The resuming VLC, made the issuing one, restored from its area and returned from its trap (R319, R307). -/
def State.resumeHere (s : State) (b : Nat) : Except Stop State :=
  match s.restoreArea s.v.areaParty (BitVec.ofNat 64 b) with
  | .error e => .error e
  | .ok (a, s1) =>
    .ok (if s1.v.tpc.getLsbD 0 then
        s1.takeTrap { cls := .align, sub := 0, tval := s1.v.tpc, tpc := s1.v.pc, forced := false, frec := none }
      else s1.setV fun v =>
        { v with
          sregs := Vector.ofFn fun k : Fin 32 => if k.val = 0 then 0 else BitVec.ofNat 64 (wordAt a.sregs k.val)
          level := levelOf v.tcause.ppl, pc := v.tpc, entered := true, prevRole := none })

/-- A resuming VLC placed. One that was saved at a grant takes lane clusters anew, lenders' ones with the requests of R339. -/
def State.placeResumed (s : State) (v : Vlc) (b core : Nat) (lc : BitVec 4) : State :=
  let s0 : State := { s with parked := s.parked.erase v }
  let s0 := s0.zeroCluster (clusterOf core) v.ctx
  let slot := s0.freeSlot core
  let s1 := match v.seat, s.launch v.launch with
    | none, some l => s0.borrow l core slot lc
    | _, _ => s0
  let v1 := if v.seat.isSome then v else { v with dropLc := 0, gainLc := 0, lent := [] }
  let w0 := { v1 with core := core, slot := slot, lc := lc }
  let w := { w0 with
    status := .runnable, rows := s1.rowsBeside w0, declHeld := w0.declEff, savedTo := none, level := .supervisor,
    spin := { addr := none, value := 0, count := 0, demoted := false, due := false }, yielded := false }
  let s2 := { s1 with v := w, parked := (if s1.v.status = VlcStatus.absent then [] else [s1.v]) ++ s1.parked }
  match s2.resumeHere b with
  | .ok s3 => s3.forgetAnswers v.areaOwner
  | .error (.remote key ep pa op) => s.engWait .vlcResumePlace v.areaOwner key ep pa op
  | .error (.trap cls sub tval frec) => (s2.forgetAnswers v.areaOwner).trapHere cls sub tval frec
  | .error _ => s

/-- The first resuming VLC that can be placed now; the reservation of a higher level goes first (R332). -/
def State.nextResume (s : State) : Option (Vlc × Nat × Nat × BitVec 4) :=
  let floor := (s.reservation.map (·.1)).getD 0
  s.parked.findSome? fun v =>
    match v.status with
    | .placeable b _ =>
      if s.frozenCtx v.ctx ∨ ((s.launch v.launch).map (·.prio)).getD 0 < floor then none
      else (s.seatFor v).map fun x => (v, b, x.1, x.2)
    | _ => none

/-- Resuming VLCs are placed before any new launch of their level (R338). -/
def execVlcResumePlace (s : State) : Out :=
  .next (match s.nextResume with
    | none => s
    | some (v, b, core, lc) => (s.placeResumed v b core lc).dueDispatch)

/-! ## VEND (R341) -/

/-- A VLC that VEND can end only at its next boundary: it is about to run, or inside an instruction that goes on. -/
def Vlc.running (v : Vlc) : Bool :=
  !v.frozen && match v.status with
  | .runnable | .entering _ => true
  | .again i => !stopsForced i
  | .draining _ => !v.untouched
  | .blocked i => !stopsForced i && v.awaited != []
  | _ => false

/-- A write to VEND with REL = 0: the VLC ends at its next boundary, or where it waits. -/
def State.endResident (s : State) (die : Nat) (x : Word) : State :=
  let core := 128 * die + bitsOf x.toNat 8 2
  let slot := bitsOf x.toNat 1 0
  if s.vlcs.any fun v => v.isAt core slot && v.running then s.setVlcAt core slot fun v => { v with vend := true }
  else match s.bring (·.isAt core slot) with
  | none => s
  | some s1 => s1.endVlc true

/-- The VLC is off its core, saved to the address. -/
def Vlc.savedAt (v : Vlc) (b : Nat) : Bool :=
  match v.status with
  | .released a | .placeable a _ => a == b
  | _ => false

/-- A write to VEND with REL = 1: the released VLC saved to the address ends. -/
def State.endReleased (s : State) (die : Nat) (x : Word) : State :=
  let b := x.toNat / 4096 * 4096
  match s.bring fun v => v.savedAt b && dieOf v.core == die with
  | none => s
  | some s1 => s1.endVlc true

/-- A write to VEND (R341). -/
def State.writeVend (s : State) (die : Nat) (x : Word) : State :=
  if x.getLsbD 9 then s.endReleased die x else s.endResident die x

/-- A write to VEND with REL = 0 (R341). -/
def execVendResident (die : Nat) (x : BitVec 64) (s : State) : Out :=
  .next (if x.getLsbD 9 then s else s.writeVend die x)

/-- A write to VEND with REL = 1 (R341). -/
def execVendReleased (die : Nat) (x : BitVec 64) (s : State) : Out :=
  .next (if x.getLsbD 9 then s.writeVend die x else s)

end Sys2Proof.Machine
end

