-- ==== Sys2Proof/Machine/Fabric.lean ====
section
/-! DEFINITION. FPUT and FGET (R356), the accesses that other endpoints make and the answers to this package's own (R354), fabric
time-outs (R355), planes (R351) and the Beacon's synchronisation (R358). -/

namespace Sys2Proof.Machine

/-! ## FPUT and FGET (R356) -/

/-- A transfer descriptor that R356 allows. -/
def transferOk (r : List Byte) : Bool :=
  let n := field r 16 8
  field r 0 8 % 8 == 0 && field r 8 8 % 8 == 0 && n % 8 == 0 && decide (8 ≤ n) && decide (n ≤ 2 ^ 32) && field r 24 8 == 0

/-- A transfer as the issuing VLC begins it. -/
def State.newTransfer (s : State) (put : Bool) (r : List Byte) : Transfer where
  die := dieOf s.v.core
  handle := 0
  put := put
  launch := s.v.launch
  rank := s.v.rank.toNat
  ctx := s.v.ctx
  sup := s.v.sup
  dst := BitVec.ofNat 64 (field r 0 8)
  src := BitVec.ofNat 64 (field r 8 8)
  bytes := field r 16 8
  status := none
  claimed := false

/-- FPUT and FGET up to the wait for room. -/
def transferCapture (put : Bool) (a : SReg) (s : State) : Except Stop (Transfer × State) :=
  if (s.rd a).toNat % 32 ≠ 0 then .error (.plain .align 0 (untag (s.rd a)))
  else do
    let (r, s1) ← s.capture s.party (s.rd a) 4
    if transferOk r then .ok (s1.newTransfer put r, s1) else .error (.prot 0 (untag (s.rd a)))

/-- The unfinished transfers of a die. -/
def State.unfinishedTransfers (s : State) (die : Nat) : Nat :=
  (s.transfers.filter fun t => t.die == die && t.status.isNone).length

/-- A captured transfer issued, its handle written to `d`; it ends in a step of its own. Where its die holds 64 unfinished ones,
the VLC waits with the transfer captured. -/
def State.issueTransfer (s : State) (i : Instr) (d : SReg) (t : Transfer) : State :=
  if 64 ≤ s.unfinishedTransfers t.die then (s.setV fun v => { v with queuedT := some t }).block i
  else
    let h := s.nextHandle
    let s1 := { s with nextHandle := h + 1, transfers := s.transfers ++ [{ t with handle := h }] }
    ((s1.due (.transferEnd t.die h)).wr d (BitVec.ofNat 64 h)).finish i

/-- The issue of FPUT or FGET whose capture is `x`, once the stores before it are performed: the transfer reads its source after
them (R192). -/
def State.issueTransferFrom (s : State) (i : Instr) (d : SReg) (x : State → Except Stop (Transfer × State)) : State :=
  s.afterStores i fun s =>
    match x s with
    | .error e => s.raise i e
    | .ok (t, s1) => s1.issueTransfer i d t

/-- FPUT (R356). -/
def execFput (d a : SReg) (s : State) : Out :=
  .next (checked (.fput d a) s fun s => s.issueTransferFrom (.fput d a) d (transferCapture true a))

/-- FGET (R356). -/
def execFget (d a : SReg) (s : State) : Out :=
  .next (checked (.fget d a) s fun s => s.issueTransferFrom (.fget d a) d (transferCapture false a))

/-- A VLC that waits for room issues its captured transfer again. -/
def execTransferIssueResume (core slot : Nat) (s : State) : Out :=
  .next (s.onVlc core slot fun s1 =>
    match s1.v.status, s1.v.queuedT with
    | .blocked i, some t =>
      match i with
      | .fput d _ | .fget d _ => s1.issueTransfer i d t
      | _ => s1
    | _, _ => s1)

/-- The party of a transfer. -/
def Transfer.party (t : Transfer) : Party :=
  { ctx := t.ctx, sup := t.sup, die := t.die, core := none, slot := 0, watch := false, owner := handleOwner t.handle }

/-- A trap condition as a transfer reports it, at an address (R356). -/
def transferStop (p : Party) (a : Word) : Stop → EngStop
  | .trap .fabric _ t _ => .code 15 t.toNat
  | e => engStop p a e

/-- The key under which the answer to the write of unit `i` of a transfer is kept. -/
def transferKey (i : Nat) : Nat := 2 * (2 ^ 90 + i) + 1

/-- One unit of 8 bytes stored at a place that a transfer has translated. -/
def State.putUnit (s : State) (t : Transfer) (q : Req) (r : Ref) (i x : Nat) : Except Stop State :=
  if epOf r.pa = s.endpoint then s.storeRef t.party q r x
  else (s.ask t.party r (transferKey i) (r.via t.party q (.write 8 x))).map fun _ => s.note t.party q r

/-- Unit `i` of a transfer moved (R356): one that another endpoint has stored is not moved again. -/
def State.moveUnit (s : State) (t : Transfer) (i : Nat) : Except EngStop State :=
  match s.answer t.party (transferKey i) with
  | some (.data _) => .ok s
  | _ => do
    let a := t.src + BitVec.ofNat 64 (8 * i)
    let b := t.dst + BitVec.ofNat 64 (8 * i)
    let rq := Req.mem a 8 .load i
    let wq := Req.mem b 8 .store i
    let r ← (s.resolve t.party rq).mapError (transferStop t.party a)
    if t.put ∧ epOf r.pa ≠ s.endpoint then .error (.code 16 (untag a).toNat)
    let (x, s1) ← (s.loadRef t.party rq r).mapError (transferStop t.party a)
    let w ← (s1.resolve t.party wq).mapError (transferStop t.party b)
    if !t.put ∧ epOf w.pa ≠ s1.endpoint then .error (.code 16 (untag b).toNat)
    (s1.putUnit t wq w i x).mapError (transferStop t.party b)

/-- Units from number `i`, `n` of them: the state with every unit moved before the first that stops. -/
def State.moveUnits (s : State) (t : Transfer) (i : Nat) : Nat → State × Option EngStop
  | 0 => (s, none)
  | n + 1 =>
    match s.moveUnit t i with
    | .error e => (s, some e)
    | .ok s1 => s1.moveUnits t (i + 1) n

/-- The steps that an ended transfer makes due: CWAITs of its VLC, and issues that wait for room on its die. -/
def State.wakeForTransfer (s : State) (t : Transfer) : State :=
  { s with events := s.events ++ s.vlcs.flatMap fun v =>
      match v.status with
      | .blocked (.cwait _ _ _) => if v.launch == t.launch && v.rank.toNat == t.rank then [.cwaitWake v.core v.slot] else []
      | .blocked _ => if v.queuedT.isSome && dieOf v.core == t.die then [.transferIssueResume v.core v.slot] else []
      | _ => [] }

/-- A transfer ended with its status word. -/
def State.endTransfer (s : State) (t : Transfer) (w : Word) : State :=
  let s1 := { s with transfers := s.transfers.map fun (k : Transfer) =>
    if k.die == t.die && k.handle == t.handle then { k with status := some w } else k }
  (s1.wakeForTransfer t).settleLaunch t.launch

/-- A transfer runs and ends (R356), unless its job is frozen (R370) or it waits for another endpoint. -/
def execTransferEnd (die h : Nat) (s : State) : Out :=
  .next (match s.transfers.find? fun t => t.die == die && t.handle == h && t.status.isNone with
    | none => s
    | some t =>
      if s.frozenCtx t.ctx then s.holdStep t.ctx (.transferEnd die h)
      else match s.moveUnits t 0 (t.bytes / 8) with
      | (_, some (.remote owner key ep pa op)) => s.engWait (.transferEnd die h) owner key ep pa op
      | (s1, some (.code c d)) => (s1.forgetAnswers (handleOwner h)).endTransfer t (statusWord c d)
      | (s1, none) => (s1.forgetAnswers (handleOwner h)).endTransfer t 0)

/-! ## Accesses of other endpoints (R354) -/

/-- What an operation of another endpoint leaves in its bytes. -/
def remoteNew (op : RemoteOp) (old : Nat) : Nat :=
  match op with
  | .write _ x => x
  | .nibble hi x => putNibble hi x old
  | .amo k n x => amoNew k n old x
  | .cas _ c x => if old = c then x else old
  | .addTo t rm ftz l => l.foldl (fun o x => (addIn t (RMode.ofRm (BitVec.ofNat 2 rm)) ftz o x).bits) old
  | .read _ | .bits .. | .tag _ | .probe | .batch _ | .debug .. | .through .. => old

/-- The bytes an operation touches. -/
def remoteBytes : RemoteOp → Nat
  | .read n | .write n _ | .amo _ n _ | .cas n _ _ => n
  | .addTo t _ _ _ => indexBytes t
  | .nibble .. | .bits .. | .tag _ | .probe | .batch _ | .debug .. | .through .. => 1

/-- An operation that reads what it finds. -/
def remoteReads : RemoteOp → Bool
  | .read _ | .amo .. | .cas .. | .addTo .. => true
  | .write .. | .nibble .. | .bits .. | .tag _ | .probe | .batch _ | .debug .. | .through .. => false

/-- An operation that writes. -/
def remoteWrites : RemoteOp → Bool
  | .write .. | .nibble .. | .amo .. | .cas .. | .addTo .. => true
  | .read _ | .bits .. | .tag _ | .probe | .batch _ | .debug .. | .through .. => false

/-- An operation on the bytes of DRAM performed, through a key slot; the old value is its answer. More than 8 bytes are written as
whole units are. -/
def State.performAt (s : State) (pa : Nat) (key : Option Nat) (op : RemoteOp) : RemoteAns × State :=
  let n := remoteBytes op
  let k := s.slotSeal key
  if remoteReads op ∧ s.poisonedUnder k pa then (.poisoned, s.count pa)
  else
    let (old, s1) := s.readSealed k pa n
    let new := remoteNew op old
    if !remoteWrites op then (.data old, s1.count pa)
    else if 8 < n then (.data 0, (s.setDramBytes pa (bytesOf n new)).wrote (.phys pa))
    else (.data old, ((s1.count pa).writeSealed k pa n new).wrote (.phys pa))

/-- The writes of a publication performed at one instant (R194). -/
def State.performBatch (s : State) (l : List (Nat × Nat × Nat × Option Nat)) : State :=
  let shades := l.map fun x => { place := .phys x.1, n := x.2.1, x := x.2.2.1, key := x.2.2.2 : Shade }
  (shades.foldl (fun (s : State) (h : Shade) => s.writePlace h.place h.n h.x h.key) s).healUnits shades

/-- An operation on DRAM, or the memory's part of one that came through a leaf. -/
def State.performDram (s : State) (pa : Nat) (key : Option Nat) (op : RemoteOp) : RemoteAns × State :=
  match op with
  | .bits set clear => (.data 0, s.markLeaf pa set clear)
  | .tag x => (.data 0, s.setTag pa x)
  | .batch l => (.data 0, s.performBatch l)
  | .probe => (.data 0, s)
  | .read .. | .write .. | .nibble .. | .amo .. | .cas .. | .addTo .. | .debug .. | .through .. => s.performAt pa key op

/-- An operation through a leaf: the granule and the wick bit are checked against the region (R283), then the tag (R290). -/
def State.performThrough (s : State) (pa : Nat) (l : LeafUse) (op : RemoteOp) : RemoteAns × State :=
  if !s.granuleOk l.gr l.wick pa then (.prot 3, s)
  else if !(l.tag.all fun k => s.tagged pa (remoteBytes op) k) then (.prot 4, s)
  else s.performDram pa l.key op

/-- An operation on a register performed (R292): a load or a store of 4 or 8 bytes. -/
def State.performReg (s : State) (g : Reg) (pa : Nat) (op : RemoteOp) : RemoteAns × State :=
  match op with
  | .read n => (.data (regLoad s g pa n), s)
  | .write n x => (.data 0, s.due (regStore pa n x))
  | .nibble .. | .amo .. | .cas .. | .addTo .. | .bits .. | .tag _ | .probe | .batch _ | .debug .. | .through .. => (.prot 6, s)

/-- What a request from another endpoint does and answers. -/
def State.perform (s : State) (pa : Nat) (leaf : Option LeafUse) (op : RemoteOp) : RemoteAns × State :=
  if windowOf pa = 0 then
    match leaf with
    | some l => s.performThrough pa l op
    | none => s.performDram pa none op
  else match regAt pa with
  | some g => s.performReg g pa op
  | none => (.prot 6, s)

/-! ## Answers to this package's own accesses (R354) -/

/-- The VLC awaits the answer to a request. -/
def Vlc.awaits (v : Vlc) (id : Nat) : Bool := v.awaited.any fun x => x.1 == id

/-- A VLC whose instruction has every answer it asked for: the instruction goes on, and a fetch is made again. -/
def VlcStatus.ready : VlcStatus → VlcStatus
  | .blocked i => if i = fetching then .runnable else .again i
  | st => st

/-- An answer noted by the VLC that awaits it. -/
def Vlc.answered (v : Vlc) (id : Nat) (ans : RemoteAns) : Vlc :=
  let keys := (v.awaited.filter fun x => x.1 == id).map (·.2)
  let rest := v.awaited.filter fun x => x.1 != id
  { v with
    remoteData := v.remoteData ++ keys.map fun k => (k, ans)
    awaited := rest
    status := if rest = [] then v.status.ready else v.status }

/-- An answer for the VLC that awaits it. -/
def State.answerVlc (s : State) (id : Nat) (ans : RemoteAns) : State :=
  match s.bring (·.awaits id) with
  | none => s
  | some s1 => (s1.setV (·.answered id ans)).goOn

/-- A store is one of the VLC's outstanding ones. -/
def Vlc.posted (v : Vlc) (id : Nat) : Bool := v.stores.any fun w => w.id == id

/-- A store of the VLC acknowledged, or given up after its time-out. -/
def Vlc.acked (v : Vlc) (id : Nat) (late : Option Nat) : Vlc :=
  { v with stores := v.stores.filter fun w => w.id != id, lateFabric := if v.lateFabric.isSome then v.lateFabric else late }

/-- What an acknowledgement lets a VLC go on with: what waits for its stores, or a FENCE or PUBL that waits for the last of them. -/
def Vlc.ackSteps (v : Vlc) : List Instr :=
  match v.status with
  | .draining _ | .entering _ => [.fenceDone v.core v.slot]
  | .blocked (.fence _ _) => if v.stores = [] then [.fenceDone v.core v.slot] else []
  | .blocked (.publ _ _) => if v.stores = [] then [.publSwap v.core v.slot] else []
  | _ => []

/-- A debugger STEP whose last store is acknowledged has ended (R373). -/
def State.ackStep (s : State) (w : Vlc) : State :=
  if w.stepOnce ∧ w.frozen ∧ w.stores = [] then
    match s.bring (·.isAt w.core w.slot) with
    | some s1 => s1.stepEnded
    | none => s
  else s

/-- A store no longer outstanding: what waits for the stores of its VLC, or for its communication step, falls due. -/
def State.storeDone (s : State) (id : Nat) (late : Option Nat) : State :=
  match s.vlcs.find? (·.posted id) with
  | none => s
  | some v =>
    let w := v.acked id late
    let s1 := s.mapVlcs fun v => if v.posted id then v.acked id late else v
    (({ s1 with events := s1.events ++ w.ackSteps }).ackStep w).settleLaunch w.launch

/-- An answer for the engine steps that wait for it. -/
def State.answerEngine (s : State) (id : Nat) (ans : RemoteAns) : State :=
  let mine := s.engineWaits.filter fun x => x.1 == id
  { s with
    engineWaits := s.engineWaits.filter fun x => x.1 != id
    engineData := s.engineData ++ mine.map fun x => (x.2.1, x.2.2.1, ans)
    events := s.events ++ mine.map fun x => x.2.2.2 }

/-- An access of a VLC that has ended is performed: its launch may go on (R340). -/
def State.orphanDone (s : State) (id : Nat) : State :=
  let mine := (s.orphans.filter fun x => x.1 == id).map (·.2.1)
  mine.foldl (fun (s : State) k => (s.settleLaunch k).dueComplete k) { s with orphans := s.orphans.filter fun x => x.1 != id }

/-- The line of a request that a failed plane carried is answered: what waits for it is sent (R351). -/
def State.lineDone (s : State) (id : Nat) : State :=
  let kept := s.heldLines.filter fun x => x.1 != id
  let waits (p : Packet) : Bool :=
    match p with
    | .request _ _ pa _ => kept.any fun x => x.2 == lineOf pa
    | _ => false
  { s with heldLines := kept, outbox := s.outbox ++ s.withheld.filter fun p => !waits p, withheld := s.withheld.filter waits }

/-- An answer applied. -/
def State.applyAnswer (s : State) (id : Nat) (ans : RemoteAns) : State :=
  ((((s.lineDone id).answerVlc id ans).storeDone id none).answerEngine id ans |>.orphanDone id).dueTlb.dueFrozen

/-- A response arrives (R354). -/
def execRemoteResponse (id : Nat) (ans : RemoteAns) (s : State) : Out := .next (s.applyAnswer id ans)

/-! ## Time-outs (R355) -/

/-- The endpoint that a request was sent to. -/
def State.sentTo (s : State) (id : Nat) : Option Nat :=
  s.outbox.findSome? fun p =>
    match p with
    | .request k ep _ _ => if k = id then some ep else none
    | _ => none

/-- The store of a VLC that is released has timed out: it takes no FABRIC. -/
def State.tellReleased (s : State) : State :=
  match s.bring fun v => v.lateFabric.isSome && !v.status.resident with
  | none => s
  | some s1 => s1.tellLate

/-- An access of a VLC that has ended has timed out: its die posts the notice, at the time of the time-out (R389). -/
def State.tellOrphan (s : State) (id ep : Nat) : State :=
  match s.orphans.find? fun x => x.1 == id with
  | none => s
  | some x => s.postNotice x.2.2.1 { x.2.2.2 with tval := BitVec.ofNat 64 (ep % 8192), time := s.beacon }

/-- No response 50 µs after injection (R355): a load or atomic takes FABRIC where it waits; a store's FABRIC waits for its VLC's
boundary, or becomes a notice. -/
def execFabricTimeout (id : Nat) (s : State) : Out :=
  .next (match s.sentTo id with
    | none => s
    | some ep =>
      let s1 := (s.tellOrphan id ep).storeDone id (some ep)
      s1.tellReleased.applyAnswer id (.silent ep))

/-! ## Planes and the Beacon (R351, R358) -/

/-- The plane that carries the packets of this package to a line: of the planes that are up, the one that the fixed hash puts first. -/
def State.planeOf (s : State) (line : Nat) : Option Nat :=
  ((List.range 18).map (fun k => (Config.plane s.endpoint line k).val) ++ List.range 18).find? fun p => s.planes.getLsbD p

/-- The requests sent and not yet answered. -/
def State.outstanding (s : State) : List Nat :=
  s.vlcs.flatMap (fun v => v.awaited.map (·.1) ++ v.stores.map (·.id)) ++ s.engineWaits.map (·.1) ++ s.orphans.map (·.1)

/-- The unanswered requests whose lines a plane carries, each with its line. -/
def State.onPlane (s : State) (p : Nat) : List (Nat × Nat) :=
  s.outbox.filterMap fun k =>
    match k with
    | .request id _ pa _ =>
      if s.outstanding.contains id && s.planeOf (lineOf pa) == some p then some (id, lineOf pa) else none
    | _ => none

/-- A plane fails: it carries no packet any more, and its lines wait for what it carried (R351). -/
def execPlaneFailure (p : Nat) (s : State) : Out :=
  .next { s with planes := s.planes &&& ~~~BitVec.ofNat 18 (2 ^ p), heldLines := s.heldLines ++ s.onPlane p }

/-- The Beacon never decreases (R358). -/
def State.beaconTo (s : State) (t : Word) : State := if s.beacon.ult t then { s with beacon := t } else s

/-- A synchronisation message slews the Beacon (R358). -/
def execBeaconSync (t : BitVec 64) (s : State) : Out := .next (s.beaconTo t)

end Sys2Proof.Machine
end

