-- ==== Sys2Proof/Machine/Wick.lean ====
section
/-! DEFINITION. Wick: WQPOST, WQRECV, WKVAPP and WCOMB (R262-R275), the scan of a bank and the triples of banks and stacks
(R266, R267, R269, R270). -/

namespace Sys2Proof.Machine

/-! ## Run records (R260, R261) -/

/-- A KV run record (R260 Table 1). -/
structure RunRec where
  btab : Word
  nblk : Nat
  d : Nat
  rowt : BitVec 5
  deriving DecidableEq, Repr

/-- A run record from its bytes. -/
def RunRec.of (r : List Byte) : RunRec where
  btab := BitVec.ofNat 64 (field r 0 8)
  nblk := field r 8 4
  d := field r 12 2
  rowt := BitVec.ofNat 5 (field r 14 1)

/-- Bytes of a record are all 0. -/
def allZero (r : List Byte) (o n : Nat) : Bool := ((r.drop o).take n).all (· == 0)

/-- A run record is valid (R260). -/
def runOk (b : List Byte) : Bool :=
  let r := RunRec.of b
  r.btab.toNat % 8 == 0 && decide (1 ≤ r.nblk) && decide (r.nblk ≤ 16384) && r.d % 16 == 0 && decide (16 ≤ r.d)
    && decide (r.d ≤ 256) && [0x0B, 0x0C, 0x0D].contains (field b 14 1) && allZero b 15 1 && allZero b 0x18 40

/-- The type of a run's rows. -/
def rowType (t : BitVec 5) : VType := if t = 0x0B then .bf16 else if t = 0x0C then .e4m3 else .e5m2

/-- The bytes of a row's element. -/
def rowBytes (t : BitVec 5) : Nat := if t = 0x0B then 2 else 1

/-- The pair stride PS (R261). -/
def pairBytes (d : Nat) (t : BitVec 5) : Nat := 32 * ceilDiv (2 * d * rowBytes t + if rowBytes t = 1 then 2 else 0) 32

/-! ## Traps (R263, R275) -/

/-- WICK with a subcode (R275 Table 5). -/
def wickStop (sub : Nat) (tval : Word) : Stop := .plain .wick sub tval

/-- The grant holds an FP32 accumulator of VL elements (R263). -/
def Vlc.wickFits (v : Vlc) : Bool := decide (4 * v.vl ≤ 8 * maxLength (v.mode == .spread) v.lc v.rows 3)

/-- A run record read and checked (R264, R271). -/
def State.readRun (s : State) (a : Word) : Except Stop (RunRec × State) :=
  if a.toNat % 64 ≠ 0 then .error (.plain .align 0 (untag a))
  else do
    let (b, s1) ← s.capture s.party a 8
    if runOk b then .ok (RunRec.of b, s1) else .error (wickStop 1 a)

/-- The page of a block is a wick page that R259 allows, as far as this package holds its region. -/
def State.wickPage (s : State) (e : TlbEntry) (pa : Nat) : Bool :=
  e.bit 10 && e.size == 21 && e.gr == 1 && !e.bit 11 && !e.bit 12 && (epOf pa != s.endpoint || (s.region pa).wick)

/-- What a walk meets, where a watch pair matches too: WATCH comes before MEMERR and FABRIC (R302). -/
def watchFirst (hit : Bool) (a : Word) : Stop → Stop
  | .trap .memerr sub t r => if hit then .plain .watch 0 a else .trap .memerr sub t r
  | .trap .fabric sub t r => if hit then .plain .watch 0 a else .trap .fabric sub t r
  | e => e

/-- The region of a block at another endpoint, as that endpoint's controller checks it (R259): one outside a wick row group raises
PAGEATTR. A block that is only named is not reached. -/
def State.wickFar (s : State) (q : Req) (r : Ref) : Except Stop Unit :=
  if epOf r.pa = s.endpoint then .ok ()
  else match s.probed s.party q r with
  | .error (.trap .prot _ _ _) => .error (wickStop 6 q.va)
  | .error (.trap .fabric sub t f) => if q.kind = .store then .error (.trap .fabric sub t f) else .ok ()
  | x => x

/-- The checks of `n` bytes at `a` in the block at `block` (R264, R271): PAGE and PROT, then PAGEATTR, then WATCH for an access
the VLC makes itself. -/
def State.wickRef (s : State) (q : Req) (block : Word) : Except Stop Ref :=
  let p := s.party
  if tagKey q.va = 0 ∧ !canonical q.va then .error (pageStop q 3 q.va)
  else
    let a := untag q.va
    let hit := decide (q.kind = .store) && s.watched p q.kind a.toNat q.n
    match s.translate p q a with
    | .error e => .error (watchFirst hit a e)
    | .ok (e, walk) =>
      let pa := e.phys a
      if windowOf pa ≠ 0 then .error (.prot 6 a)
      else if !e.permits p q.kind then .error (.prot 1 a)
      else if block.toNat % 65536 ≠ 0 ∨ !s.wickPage e pa then .error (wickStop 6 q.va)
      else
        let r : Ref := { e := e, a := a, va := q.va, pa := pa, walk := walk }
        match s.wickFar q r with
        | .error e => .error (watchFirst hit a e)
        | .ok () =>
          if hit then .error (.plain .watch 0 a)
          else match s.leafReady p q e a with
          | .error e => .error e
          | .ok () => .ok r

/-! ## The values of triples (R266, R269) -/

/-- The format of scores and accumulators. -/
def wickFmt : Fmt := VType.f32.fmt

/-- A value rounded once to FP32, to nearest even; a NaN is the canonical one (R263). -/
def rneVal (x : FpVal) : Nat :=
  match x with
  | .nan _ => wickFmt.nan
  | .inf a => wickFmt.inf a
  | .num d => (wickFmt.roundDy .rne false false d).bits

/-- The exact sum of two values; opposite infinities and NaNs give a NaN. -/
def sumVal (x y : FpVal) : FpVal :=
  match x, y with
  | .nan a, _ => .nan a
  | .inf _, .nan b => .nan b
  | .num _, .nan b => .nan b
  | .inf a, .inf b => if a == b then .inf a else .nan false
  | .inf a, .num _ => .inf a
  | .num _, .inf b => .inf b
  | .num a, .num b => .num (Dy.add .rne a b)

/-- A value scaled by an E8M0 byte (R122, R261). -/
def scaleVal (e : Nat) (x : FpVal) : FpVal :=
  if e = 255 then .nan false
  else match x with
  | .nan a => .nan a
  | .inf a => .inf a
  | .num d => .num { d with e := d.e + (e : Int) - 127 }

/-- rne(x + y) of FP32 encodings. -/
def wickAdd (x y : Nat) : Nat := rneVal (sumVal (wickFmt.val x) (wickFmt.val y))

/-- rne(x - y) of FP32 encodings. -/
def wickSub (x y : Nat) : Nat := rneVal (sumVal (wickFmt.val x) (wickFmt.val y).negate)

/-- rne(x·a + y·b) of FP32 encodings, both products and the sum exact. -/
def wickMix (x a y b : Nat) : Nat :=
  rneVal (sumVal (mulVal (wickFmt.val x) (wickFmt.val a)) (mulVal (wickFmt.val y) (wickFmt.val b)))

/-- An FP32 encoding is a NaN. -/
def isNanF32 (x : Nat) : Bool := (wickFmt.val x).isNan

/-- An FP32 encoding is finite. -/
def isFinF32 (x : Nat) : Bool :=
  match wickFmt.val x with
  | .num _ => true
  | .nan _ => false
  | .inf _ => false

/-- The greater of two FP32 encodings. -/
def maxF32 (x y : Nat) : Nat := (fpMinMax wickFmt true false x y).bits

/-- A number as 32 bits. -/
def bits32 (x : Nat) : BitVec 32 := BitVec.ofNat 32 x

/-- Bits of a triple's status word (R268 Table 3). -/
def stEmpty (w : Word) : Bool := w.getLsbD 62

/-- POISON. -/
def stPoison (w : Word) : Bool := w.getLsbD 61

/-- NAN. -/
def stNan (w : Word) : Bool := w.getLsbD 60

/-- The status word of a combination (R269). -/
def mixStatus (st1 st2 : Word) (nan : Bool) : Word :=
  let place := if stPoison st1 then st1 else st2
  flagAt (stEmpty st1 && stEmpty st2) 62 ||| flagAt (stPoison st1 || stPoison st2) 61 ||| flagAt nan 60
    ||| fieldAt (bitsOf st1.toNat 59 56) 56 ||| fieldAt (bitsOf place.toNat 55 30) 30
    ||| fieldAt ((bitsOf st1.toNat 20 0 + bitsOf st2.toNat 20 0) % 2 ^ 21) 0

/-- Any of the four scalars or flags makes a combination a NaN (R269). -/
def mixNan (m1 l1 m2 l2 : Nat) (st1 st2 : Word) : Bool := stNan st1 || stNan st2 || [m1, l1, m2, l2].any isNanF32

/-- One accumulator element of a combination (R269), given the two maxima. -/
def mixAcc (nan : Bool) (m1 m2 : Nat) (st1 st2 : Word) (x y : Nat) : Nat :=
  if nan then wickFmt.nan
  else if stEmpty st1 then y
  else if stEmpty st2 then x
  else
    let m := maxF32 m1 m2
    wickMix x (exp2t (wickSub m1 m)).bits y (exp2t (wickSub m2 m)).bits

/-- The maximum of a combination (R269). -/
def mixMax (nan : Bool) (m1 m2 : Nat) (st1 st2 : Word) : Nat :=
  if nan then wickFmt.nan else if stEmpty st1 then m2 else if stEmpty st2 then m1 else maxF32 m1 m2

/-- Two triples combined (R269). -/
def Triple.mix (a b : Triple) : Triple :=
  let nan := mixNan a.m.toNat a.l.toNat b.m.toNat b.l.toNat a.status b.status
  let acc := fun (x y : Nat) => mixAcc nan a.m.toNat b.m.toNat a.status b.status x y
  { m := bits32 (mixMax nan a.m.toNat b.m.toNat a.status b.status)
    l := bits32 (acc a.l.toNat b.l.toNat)
    acc := (a.acc.zip b.acc).map fun x => bits32 (acc x.1.toNat x.2.toNat)
    status := mixStatus a.status b.status nan }

/-! ## The scan of a bank (R258, R266, R270) -/

/-- The bank of a stack that holds a byte of a wick region (R258, R278). -/
def wickBank (pa : Nat) : Nat := 32 * (regionNo pa % 64) + pa % 2 ^ 21 / 65536

/-- The DRAM row of a byte of a wick region within its bank (R278). -/
def wickRow (pa : Nat) : Nat := 64 * (regionNo pa / 64) + pa % 65536 / 1024

/-- The tokens below n of a bank, ascending, with where their pairs lie: T_k. -/
def SubQuery.tokens (q : SubQuery) (k : Nat) : List (Nat × Nat) :=
  (q.blocks.filter fun b => wickBank b.2 == k).flatMap fun b =>
    (List.range (min 64 (q.n - 64 * b.1))).map fun i => (64 * b.1 + i, b.2 + i * pairBytes q.d q.rowt)

/-- What the unit read of a token: its pair, and the address of the first error met in it. -/
def SubQuery.pair (q : SubQuery) (t : Nat) : Option (List Byte × Option Nat) := (q.got.find? fun x => x.1 == t).map (·.2)

/-- A token's pair met an error. -/
def SubQuery.erred (q : SubQuery) (t : Nat) : Option Nat := (q.pair t).bind (·.2)

/-- The tokens of a bank still to read; none once an error stopped the scan, or the triple is there. -/
def SubQuery.unread (q : SubQuery) (k : Nat) : List (Nat × Nat) :=
  let l := q.tokens k
  if q.triple.isSome ∨ l.any fun x => (q.erred x.1).isSome then [] else l.filter fun x => (q.pair x.1).isNone

/-- The banks of a sub-query, ascending. -/
def SubQuery.banks (q : SubQuery) : List Nat :=
  (List.range 2048).filter fun k => q.blocks.any fun b => wickBank b.2 == k

/-- Every bank has scanned. -/
def SubQuery.scanned (q : SubQuery) : Bool := q.banks.all fun k => (q.unread k).isEmpty

/-- The first 32 bytes of a pair that are poisoned or fail their carry check (R270). -/
def State.pairBad (s : State) (pa n : Nat) : Option Nat := ((List.range (n / 32)).map (pa + 32 * ·)).find? fun a => s.poisoned a

/-- The pairs of one row of a bank, in order, up to the first that meets an error. A pair that spans two rows is read whole
with its first (R272). -/
def State.readRow (s : State) (n : Nat) : List (Nat × Nat) → List (Nat × List Byte × Option Nat)
  | [] => []
  | (t, pa) :: l =>
    match s.pairBad pa n with
    | some a => [(t, s.mem.bytes (dramKey pa) n, some a)]
    | none => (t, s.mem.bytes (dramKey pa) n, none) :: s.readRow n l

/-- The tokens that begin in the row of the first of a list. -/
def sameRow (l : List (Nat × Nat)) : List (Nat × Nat) :=
  match l with
  | [] => []
  | x :: _ => l.filter fun y => y.2 / 1024 == x.2 / 1024

/-- One element of a row of a pair: its value, with its scale. -/
def rowVal (t : BitVec 5) (pair : List Byte) (d i : Nat) (value : Bool) : FpVal :=
  let w := rowBytes t
  let x := (rowType t).fmt.val (field pair ((if value then d + i else i) * w) w)
  if value && w == 1 then scaleVal (field pair (2 * d + 1) 1) x else x

/-- r[g] of R266. -/
def groupDot (q : SubQuery) (pair : List Byte) (g : Nat) : Nat :=
  let terms := (List.range 16).map fun i =>
    mulVal (VType.bf16.fmt.val (q.query.getD (16 * g + i) 0).toNat) (rowVal q.rowt pair q.d (16 * g + i) false)
  let sum := (terms.drop 1).foldl sumVal (terms.headD (.nan false))
  rneVal (if rowBytes q.rowt = 1 then scaleVal (field pair (2 * q.d) 1) sum else sum)

/-- s[t] of R266. -/
def tokenScore (q : SubQuery) (pair : List Byte) : Nat :=
  ((List.range (q.d / 16)).drop 1).foldl (fun s g => wickAdd s (groupDot q pair g)) (groupDot q pair 0)

/-- A token's weight added to l and acc (R266). -/
def addToken (q : SubQuery) (m : Nat) (x : Nat × List Nat) (t : Nat × List Byte) : Nat × List Nat :=
  let p := (exp2t (wickSub t.1 m)).bits
  (wickAdd x.1 p,
   (x.2.zip (List.range q.d)).map fun a =>
     rneVal (sumVal (wickFmt.val a.1) (mulVal (wickFmt.val p) (rowVal q.rowt t.2 q.d a.2 true))))

/-- The triple of tokens without error (R266): their scores and pairs. -/
def cleanTriple (q : SubQuery) (l : List (Nat × List Byte)) : Triple :=
  let st := fieldAt q.stack 56 ||| fieldAt l.length 0
  if l.any fun x => !isFinF32 x.1 then
    { m := bits32 wickFmt.nan, l := bits32 wickFmt.nan, acc := List.replicate q.d (bits32 wickFmt.nan),
      status := st ||| flagAt true 60 }
  else
    let m := ((l.drop 1).map (·.1)).foldl maxF32 ((l.map (·.1)).headD 0)
    let x := l.foldl (addToken q m) (0, List.replicate q.d 0)
    { m := bits32 m, l := bits32 x.1, acc := x.2.map bits32, status := st }

/-- `n` free values of 32 bits. -/
def State.freeList (s : State) : Nat → List (BitVec 32) × State
  | 0 => ([], s)
  | n + 1 => (s.free 32 :: (s.spend.freeList n).1, (s.spend.freeList n).2)

/-- The triple of a bank that met an error at an address (R270): m, l and acc are free. -/
def State.poisonTriple (s : State) (q : SubQuery) (pa before : Nat) : Triple × State :=
  let (acc, s1) := s.spend.spend.freeList q.d
  ({ m := s.free 32, l := s.spend.free 32, acc := acc,
     status := fieldAt q.stack 56 ||| flagAt true 61 ||| fieldAt (wickBank pa / 32) 50 ||| fieldAt (wickBank pa % 32) 45
       ||| fieldAt (wickRow pa) 30 ||| fieldAt before 0 }, s1)

/-- The triple of a bank that has scanned. -/
def State.bankTriple (s : State) (q : SubQuery) (k : Nat) : Triple × State :=
  let l := q.tokens k
  match l.findIdx? fun x => (q.erred x.1).isSome with
  | some i => s.poisonTriple q ((q.erred ((l.map (·.1)).getD i 0)).getD 0) i
  | none => (cleanTriple q (l.map fun x => let p := ((q.pair x.1).map (·.1)).getD []; (tokenScore q p, p)), s)

/-- A bank's triple combined into what a stack's lower banks gave (R267). -/
def State.addBank (q : SubQuery) (x : Option Triple × State) (k : Nat) : Option Triple × State :=
  let (t, s) := x.2.bankTriple q k
  (some (match x.1 with | some a => a.mix t | none => t), s)

/-- The triple of a stack (R267). -/
def State.stackTriple (s : State) (q : SubQuery) : Option Triple × State := q.banks.foldl (State.addBank q) (none, s)

/-- The bank is refreshed at the moment. -/
def State.bankBusy (s : State) (stack bank : Nat) : Bool :=
  (look { postponed := 0, busy := false } (2048 * stack + bank) s.refresh).busy

/-- A sub-query's name. -/
def SubQuery.same (q r : SubQuery) : Bool :=
  q.launch == r.launch && q.rank == r.rank && q.slot == r.slot && q.seq == r.seq && q.stack == r.stack

/-- The unit of a bank reads its next row of a sub-query (R272). -/
def State.scanRow (s : State) (q : SubQuery) (stack bank : Nat) : State :=
  let q1 := { q with got := q.got ++ s.readRow (pairBytes q.d q.rowt) (sameRow (q.unread bank)) }
  let s1 := { s with subqueries := s.subqueries.map fun (x : SubQuery) => if x.same q then q1 else x }
  let s2 := if q1.scanned then s1.due (.wickSubqueryEnd stack q.launch q.rank q.slot q.seq) else s1
  if s2.subqueries.any fun x => x.stack == stack && !(x.unread bank).isEmpty then s2.due (.wickScanRow stack bank) else s2

/-- A bank under refresh reads nothing until it is complete (R273); otherwise its unit reads the next row of the sub-query that
reached it first (R274). -/
def execWickScanRow (stack bank : Nat) (s : State) : Out :=
  .next (if s.bankBusy stack bank then s
    else match s.subqueries.find? fun q => q.stack == stack && !(q.unread bank).isEmpty with
    | some q => s.scanRow q stack bank
    | none => s)

/-- The VLC waits in WQRECV. -/
def Vlc.inRecv (v : Vlc) : Bool :=
  match v.status with
  | .blocked (.wqrecv _ _ _) => true
  | _ => false

/-- The VLC that a triple wakes, if it waits for one. -/
def State.wakeRecv (s : State) (q : SubQuery) : State :=
  let l := s.vlcs.filter fun v => v.launch == q.launch && v.rank.toNat == q.rank && v.inRecv
  { s with events := s.events ++ l.map fun v => .wqrecvTripleReady v.core v.slot }

/-- The stack's triple is ready (R267): WQRECV may deliver it, and a waiting WQPOST may have room. -/
def execWickSubqueryEnd (stack launch rank slot seq : Nat) (s : State) : Out :=
  .next (match s.subqueries.find? fun q =>
      q.stack == stack && q.launch == launch && q.rank == rank && q.slot == slot && q.seq == seq with
    | none => s
    | some q =>
      if q.triple.isSome ∨ !q.scanned then s
      else
        let (t, s1) := s.stackTriple q
        let s2 := { s1 with subqueries := s1.subqueries.map fun (x : SubQuery) => if x.same q then { x with triple := t, got := [] } else x }
        (s2.wakeRecv q).duePosts.dueTlb)

/-! ## WQPOST (R264, R265) -/

/-- A captured block: its number, the address of its block-table entry's block, and where it lies. -/
structure PostBlock where
  b : Nat
  va : Word
  pa : Nat
  deriving DecidableEq, Repr

/-- Blocks from number `b`, `n` of them, captured and translated. -/
def State.postBlocks (s : State) (btab : Word) (b : Nat) : Nat → Except Stop (List PostBlock × State)
  | 0 => .ok ([], s)
  | n + 1 => do
    let (x, s1) ← s.load s.party (.mem (btab + BitVec.ofNat 64 (8 * b)) 8 .load 0)
    let a := BitVec.ofNat 64 x
    let q := Req.mem a 1 .load 0
    let r ← s1.wickRef q a
    if epOf r.pa ≠ s.endpoint then .error (wickStop 7 a)
    else
      let (l, s2) ← (s1.note s1.party q r).postBlocks btab (b + 1) n
      .ok ({ b := b, va := a, pa := r.pa } :: l, s2)

/-- The query's elements (R264). -/
def State.queryElems (s : State) (a : VReg) (i : Nat) : Nat → Except Stop (List (BitVec 16))
  | 0 => .ok []
  | n + 1 => do
    let x ← s.readElem .bf16 a i
    let l ← s.queryElems a (i + 1) n
    .ok (BitVec.ofNat 16 x :: l)

/-- The triple of a query over no token (R268). -/
def emptyTriple (d : Nat) : Triple where
  m := 0xFF800000
  l := 0
  acc := List.replicate d 0
  status := flagAt true 62

/-- A sub-query of a post before it has a tag. -/
def State.subQuery (s : State) (r : RunRec) (n : Nat) (query : List (BitVec 16)) (blocks : List PostBlock) (stack : Nat)
    (last : Bool) : SubQuery where
  launch := s.v.launch
  rank := s.v.rank.toNat
  slot := 0
  seq := 0
  stack := stack
  die := dieOf s.v.core
  ctx := s.v.ctx
  d := r.d
  rowt := r.rowt
  n := n
  query := query
  blocks := (blocks.filter fun b => stackOf b.pa == stack).map fun b => (b.b, b.pa)
  vas := (blocks.filter fun b => stackOf b.pa == stack).map (·.va)
  got := []
  last := last
  triple := if blocks.isEmpty then some (emptyTriple r.d) else none

/-- The stacks of a list of blocks, ascending. -/
def stacksOf (l : List PostBlock) : List Nat := (List.range 16).filter fun k => l.any fun b => stackOf b.pa == k

/-- The sub-queries of a post, one per stack that holds a block; one that is complete when there is no block. -/
def State.subQueries (s : State) (r : RunRec) (n : Nat) (query : List (BitVec 16)) (blocks : List PostBlock) :
    List SubQuery :=
  let l := stacksOf blocks
  if blocks.isEmpty then [s.subQuery r n query [] 0 true]
  else l.map fun k => s.subQuery r n query blocks k (l.getLast? == some k)

/-- The unfinished sub-queries of a stack. -/
def State.stackLoad (s : State) (stack : Nat) : Nat :=
  (s.subqueries.filter fun q => q.stack == stack && q.triple.isNone).length

/-- A free slot for a tag (R265). -/
def Vlc.freeTag (v : Vlc) : Option Nat := v.wickTags.toList.findIdx? (· == 0)

/-- The sub-queries given to their controllers under a new tag, the lowest free slot's; a full controller makes the VLC wait
(R274). -/
def State.post_ (s : State) (i : Instr) (d : SReg) (l : List SubQuery) : State :=
  if l.any fun q => q.triple.isNone && decide (1024 ≤ s.stackLoad q.stack) then (s.setV fun v => { v with queuedQ := l }).block i
  else
    let slot := s.v.freeTag.getD 0
    let seq := s.v.wickSeq
    let tag := flagAt true 63 ||| fieldAt (seq % 2 ^ 44) 4 ||| fieldAt slot 0
    let l1 := l.map fun q => { q with slot := slot, seq := seq }
    let s1 := { s with
      subqueries := s.subqueries ++ l1
      events := s.events ++ l1.flatMap fun (q : SubQuery) => q.banks.map fun k => Instr.wickScanRow q.stack k }
    let s2 := s1.setV fun v => { v with wickSeq := (seq + 1) % 2 ^ 44, wickTags := v.wickTags.setIfInBounds slot tag }
    (s2.wr d tag).clearVstart.finish i

/-- WQPOST up to the wait for room. -/
def postCapture (a : VReg) (b : SReg) (s : State) : Except Stop (List SubQuery × State) := do
  let at_ := s.rd b
  let n := (s.rd (b + 1)).toNat
  let (r, s1) ← s.readRun at_
  if s.v.vl ≠ r.d ∨ !s.v.wickFits then .error (wickStop 3 at_)
  else if 64 * r.nblk < n then .error (wickStop 2 at_)
  else if s.v.freeTag = none then .error (wickStop 4 0)
  else
    let (l, s2) ← s1.postBlocks r.btab 0 (ceilDiv n 64)
    let q ← s2.queryElems a 0 r.d
    .ok (s2.subQueries r n q l, s2)

/-- WQPOST (R264). -/
def execWqpost (d : SReg) (a : VReg) (b : SReg) (s : State) : Out :=
  .next (checked (.wqpost d a b) s fun s =>
    if s.v.vl = 0 then s.clearVstart.finish (.wqpost d a b)
    else match postCapture a b s with
    | .error e => s.raise (.wqpost d a b) e
    | .ok (l, s1) => s1.post_ (.wqpost d a b) d l)

/-- A waiting WQPOST tries its captured query again. -/
def execWqpostResume (core slot : Nat) (s : State) : Out :=
  .next (s.onVlc core slot fun s1 =>
    match s1.v.status with
    | .blocked (.wqpost d a b) => if s1.v.queuedQ = [] then s1 else s1.post_ (.wqpost d a b) d s1.v.queuedQ
    | _ => s1)

/-! ## WQRECV (R268, R270) -/

/-- Every element below `n` of an FP32 register poisoned (R58). -/
def VecReg.spoil (r : VecReg) (n : Nat) : VecReg :=
  { r with poison := r.poison ||| BitVec.ofNat 4096 (2 ^ ceilDiv n 2 - 1) }

/-- A register wholly poisoned over its FP32 elements below VL, with FSR.POISON. -/
def State.spoil (s : State) (d : VReg) : State :=
  s.setV fun v => { v.setVreg d ((v.vreg d).spoil v.vl) with fsrPoison := true }

/-- A triple delivered. -/
def State.deliver (s : State) (i : Instr) (d : VReg) (a b : SReg) (q : SubQuery) (t : Triple) : State :=
  let s1 := s.writeElems .f32 d ((List.range s.v.vl).zip (t.acc.map (·.toNat)))
  let s2 := s1.cover .f32 d s.v.vl fun _ => true
  let s3 := if stPoison t.status then s2.spoil d else s2
  let s4 := ((s3.wr b (t.m.setWidth 64)).wr (b + 1) (t.l.setWidth 64)).wr (b + 2) (t.status ||| flagAt q.last 63)
  let tag := s.rd a
  let s5 := if q.last then s4.setV fun v => { v with wickTags := v.wickTags.map fun x => if x = tag then 0 else x } else s4
  ({ s5 with subqueries := s5.subqueries.filter fun x => !x.same q }).clearVstart.finish i

/-- The next sub-query of a tag of the issuing VLC: that of the lowest stack still to deliver. -/
def State.nextTriple (s : State) (tag : Word) : Option SubQuery :=
  (sortedByStack (s.subqueries.filter fun q =>
    q.launch == s.v.launch && q.rank == s.v.rank.toNat && q.slot == bitsOf tag.toNat 3 0 && q.seq == bitsOf tag.toNat 47 4)).head?
where
  /-- Sub-queries in ascending stack number. -/
  sortedByStack (l : List SubQuery) : List SubQuery := (List.range 16).flatMap fun k => l.filter fun q => q.stack == k

/-- WQRECV once its checks of decode are made. -/
def recvRun (d : VReg) (a b : SReg) (s : State) : State :=
  let i := Instr.wqrecv d a b
  let tag := s.rd a
  if s.v.vl = 0 then s.clearVstart.finish i
  else if tag = 0 ∨ !s.v.wickTags.toList.contains tag then s.raise i (wickStop 5 tag)
  else match s.nextTriple tag with
  | none => s.raise i (wickStop 5 tag)
  | some q =>
    if s.v.vl ≠ q.d ∨ !s.v.wickFits then s.raise i (wickStop 3 tag)
    else match q.triple with
    | some t => s.deliver i d a b q t
    | none => s.block i

/-- WQRECV (R268). -/
def execWqrecv (d : VReg) (a b : SReg) (s : State) : Out := .next (checked (.wqrecv d a b) s (recvRun d a b))

/-- A waiting WQRECV executes again. -/
def execWqrecvTripleReady (core slot : Nat) (s : State) : Out :=
  .next (s.onVlc core slot fun s1 =>
    match s1.v.status with
    | .blocked (.wqrecv d a b) => recvRun d a b s1
    | _ => s1)

/-! ## WKVAPP (R271) -/

/-- A row register's elements as bytes: `n` elements from number `i`. -/
def State.rowElems (s : State) (t : VType) (a : VReg) (w i : Nat) : Nat → Except Stop (List Byte)
  | 0 => .ok []
  | n + 1 => do
    let x ← s.readElem t a i
    let l ← s.rowElems t a w (i + 1) n
    .ok (bytesOf w x ++ l)

/-- The bytes of a token's pair (R261): key row, value row, the scales of FP8 rows, zeros. -/
def State.pairOf (s : State) (r : RunRec) (k v : VReg) : Except Stop (List Byte) := do
  let w := rowBytes r.rowt
  let t := rowType r.rowt
  let key ← s.rowElems t k w 0 r.d
  let val ← s.rowElems t v w 0 r.d
  let ks ← if w = 1 then s.rowElems t k 1 r.d 1 else .ok []
  let vs ← if w = 1 then s.rowElems t v 1 r.d 1 else .ok []
  let l := key ++ val ++ ks ++ vs
  .ok (l ++ List.replicate (pairBytes r.d r.rowt - l.length) 0)

/-- The lines of `n` bytes from a DRAM address, as written (R45, R47). -/
def State.wroteLines (s : State) (pa : Nat) : Nat → State
  | 0 => s
  | n + 1 => (s.wrote (.phys (pa + 64 * n))).wroteLines pa n

/-- The pair of an append written at the place its token takes, whole: a plain store of the VLC (R199). -/
def State.storePair (s : State) (h : Append) : State :=
  let n := h.pair.length
  let q := Req.mem h.va n .store 0
  let s1 := match s.wickRef q h.block with
    | .ok r => s.used s.party q r
    | .error _ => s
  let x := bytesNat (h.pair.map (·.toNat))
  if epOf h.pa = s.endpoint then (s1.setDramBytes h.pa h.pair).wroteLines h.pa (n / 64 + 1)
  else s1.post s.party h.pa n (2 ^ (8 * n) - 1) x true (.write n x)

/-- The append of WKVAPP at the token that LEN names, every check of it made. -/
def appendOf (rec : Word) (r : RunRec) (k v : VReg) (s : State) : Except Stop (Append × State) := do
  let (t, s1) ← s.load s.party (.mem (rec + 0x10) 8 .load 0)
  if 64 * r.nblk ≤ t then .error (wickStop 8 rec)
  else
    let (b, s2) ← s1.load s.party (.mem (r.btab + BitVec.ofNat 64 (8 * (t / 64))) 8 .load 0)
    let block := BitVec.ofNat 64 b
    let a := block + BitVec.ofNat 64 (t % 64 * pairBytes r.d r.rowt)
    let ref ← s2.wickRef (.mem a (pairBytes r.d r.rowt) .store 0) block
    let l ← s2.pairOf r k v
    .ok ({ token := t, va := a, block := block, pa := ref.pa, pair := l }, s2)

/-- WKVAPP once its run record is read: LEN advanced, by another endpoint where it lies there, and the pair written. -/
def appendRun (i : Instr) (rec : Word) (r : RunRec) (k v : VReg) (s : State) : State :=
  match appendOf rec r k v s with
  | .error e => s.raise i e
  | .ok (h, s1) =>
    match s1.rmw s.party (.mem (rec + 0x10) 8 .rmw 0) (atomicKey 0 0) (.cas 8 h.token (h.token + 1))
      (fun x => if x = h.token then h.token + 1 else x) with
    | .error e => (s.setV fun v => { v with append := some h }).raise i e
    | .ok (_, s2) => (s2.storePair h).clearVstart.finish i

/-- WKVAPP once another endpoint has answered its CAS: the pair is written, through the translation held since; where another agent
advanced LEN in between, it starts again. -/
def appendHeld (i : Instr) (h : Append) (old : Nat) (s : State) : State :=
  if old = h.token then ((s.storePair h).clearVstart.finish i).dueTlb
  else s.setV fun v => { v with remoteData := [], append := none, status := .runnable }

/-- WKVAPP (R271). -/
def execWkvapp (k : VReg) (a : SReg) (v : VReg) (s : State) : Out :=
  .next (checked (.wkvapp k a v) s fun s =>
    if s.v.vl = 0 then s.clearVstart.finish (.wkvapp k a v)
    else match s.v.append, s.answer s.party (atomicKey 0 0) with
    | some h, some (.data old) => appendHeld (.wkvapp k a v) h old s
    | _, _ =>
      match s.readRun (s.rd a) with
      | .error e => s.raise (.wkvapp k a v) e
      | .ok (r, s1) =>
        if s.v.vl ≠ r.d + (if rowBytes r.rowt = 1 then 1 else 0) then s1.raise (.wkvapp k a v) (wickStop 3 (s.rd a))
        else appendRun (.wkvapp k a v) (s.rd a) r k v s1)

/-! ## WCOMB (R269) -/

/-- A scalar operand of WCOMB as an FP32 encoding (R133). -/
def State.wickScalar (s : State) (r : SReg) : Nat := (s.rd r).toNat % 2 ^ 32

/-- WCOMB's elements from `i`, `n` of them. A poisoned word is read as it stands. -/
def combElems (d a : VReg) (f : Nat → Nat → Nat) (s : State) (i : Nat) : Nat → State
  | 0 => s
  | n + 1 =>
    combElems d a f (s.writeElem .f32 d i (f ((s.v.vreg d).elem 32 i) ((s.v.vreg a).elem 32 i))) (i + 1) n

/-- WCOMB once its checks are made. -/
def combRun (d a : VReg) (b : SReg) (s : State) : State :=
  let m1 := s.wickScalar b
  let l1 := s.wickScalar (b + 1)
  let st1 := s.rd (b + 2)
  let m2 := s.wickScalar (b + 3)
  let l2 := s.wickScalar (b + 4)
  let st2 := s.rd (b + 5)
  let nan := mixNan m1 l1 m2 l2 st1 st2
  let s1 := combElems d a (mixAcc nan m1 m2 st1 st2) s s.v.vstart (s.v.vl - s.v.vstart)
  let s2 := s1.cover .f32 d s.v.vl fun i => decide (s.v.vstart ≤ i)
  let s3 := if stPoison st1 || stPoison st2 then s2.spoil d else s2
  let s4 := s3.wr b (BitVec.ofNat 64 (mixMax nan m1 m2 st1 st2))
  let s5 := s4.wr (b + 1) (BitVec.ofNat 64 (mixAcc nan m1 m2 st1 st2 l1 l2))
  (s5.wr (b + 2) (mixStatus st1 st2 nan)).clearVstart.finish (.wcomb d a b)

/-- WCOMB (R269). -/
def execWcomb (d a : VReg) (b : SReg) (s : State) : Out :=
  .next (checked (.wcomb d a b) s fun s =>
    if s.v.vl = 0 then s.clearVstart.finish (.wcomb d a b)
    else if !s.v.wickFits then s.raise (.wcomb d a b) (wickStop 3 0)
    else combRun d a b s)

end Sys2Proof.Machine
end

