-- ==== Sys2Proof/Machine/Dram.lean ====
section
/-! DEFINITION. The stacks: formats (R282), refresh (R285, R273), region swaps (R287), the rebuilding of the region table (R288) and
errors found outside any instruction (R312). -/

namespace Sys2Proof.Machine

/-! ## Whole regions -/

/-- The key of the first byte of a region of a stack. -/
def regionBase (stack r : Nat) : Nat := stack / 2 * 2 ^ 40 + stack % 2 * 2 ^ 36 + r % 32768 * 2 ^ 21

/-- The entries of a list outside `n` keys from `k`. -/
def clearSpan {α : Type} (k n : Nat) (l : List (Nat × α)) : List (Nat × α) :=
  clearKeys (fun j => decide (k ≤ j) && decide (j < k + n)) l

/-- `n` keys from `k` holding true, the others as they were. -/
def markSpan (k n : Nat) (l : List (Nat × Bool)) : List (Nat × Bool) :=
  clearKeys (fun j => decide (k ≤ j)) l ++ (List.range n).map (fun i => (k + i, true)) ++ clearKeys (fun j => decide (j < k + n)) l

/-- `n` bytes from `base` zeroed, with tag 0, no poison and the carry check of zeros (R282). -/
def Memory.zero (m : Memory) (base n : Nat) : Memory where
  cells := clearSpan base n m.cells
  poison := clearSpan (base / 32) (n / 32) m.poison
  tags := clearSpan (base / 32) (n / 32) m.tags
  checks := clearSpan (base / 32) (n / 32) m.checks

/-- The steps that a change to many DRAM bytes makes due. -/
def State.wroteSpan (s : State) (base n : Nat) : State :=
  let inside (p : Option Place) : Bool :=
    match p with
    | some (.phys pa) => decide (base ≤ dramKey pa) && decide (dramKey pa < base + n)
    | _ => false
  { s with events := s.events
      ++ (s.vlcs.flatMap fun v => (if inside v.watching then [Instr.waitvRetest v.core v.slot] else [])
          ++ (if v.spin.demoted && inside v.spin.addr then [Instr.spinDemotionEnd v.core v.slot] else []))
      ++ s.rereads (.phys 0) }

/-- The region table's entry of a region. -/
def State.regionAt (s : State) (stack r : Nat) : Region := look Region.reset (regionKey stack r) s.regions

/-- Both copies of the region table's entry of a region changed (R288). -/
def State.setRegion (s : State) (stack r : Nat) (g : Region) : State :=
  { s with regions := put Region.reset (regionKey stack r) g s.regions
           regions2 := put Region.reset (regionKey stack r) g s.regions2 }

/-- The persistent copy of a region's entry. -/
def State.keptRegion (s : State) (stack r : Nat) : Region := look Region.reset (regionKey stack r) s.regionsKept

/-- The persistent copy of a region's entry written. -/
def State.keepRegion (s : State) (stack r : Nat) (g : Region) : State :=
  { s with regionsKept := put Region.reset (regionKey stack r) g s.regionsKept }

/-- Every copy of a region's entry changed. -/
def State.setRegionAll (s : State) (stack r : Nat) (g : Region) : State := (s.setRegion stack r g).keepRegion stack r g

/-! ## Formats (R282) -/

/-- The distance of a slot from a region's own number. -/
def movedTo (r slot : Nat) : Nat := (slot + 32768 - r % 32768) % 32768

/-- The region of a stack that a slot holds. -/
def State.holderOf (s : State) (stack slot : Nat) : Nat :=
  match s.regions.find? fun g => g.1 / 32768 == stack && slotOf (g.1 % 32768) g.2 == slot && g.2.moved != 0 with
  | some g => g.1 % 32768
  | none => slot

/-- A region swapped back to its own slot. -/
def State.swapBack (s : State) (stack r : Nat) : State :=
  let g := s.regionAt stack r
  if g.moved = 0 then s
  else
    let h := s.holderOf stack r
    let x := s.regionAt stack h
    (s.setRegionAll stack h { x with moved := movedTo h (slotOf r g) }).setRegionAll stack r { g with moved := 0 }

/-- The regions of a row group. -/
def groupRegions (r : Nat) : List Nat := (List.range 64).map (r / 64 * 64 + ·)

/-- A swap under way that involves a region of a list ends without effect, its regions' persistent entries as they were. -/
def State.stopSwap (s : State) (stack : Nat) (l : List Nat) : State :=
  match s.swap with
  | none => s
  | some x =>
    if x.stack = stack ∧ (l.contains x.r0 ∨ l.contains x.r1) then
      (({ s with swap := none }).keepRegion stack x.r0 (s.regionAt stack x.r0)).keepRegion stack x.r1 (s.regionAt stack x.r1)
    else s

/-- One region formatted. -/
def State.formatRegion (s : State) (stack r : Nat) (wick : Bool) (gr : BitVec 2) : State :=
  let base := regionBase stack r
  let g := s.regionAt stack r
  let s1 := s.setRegionAll stack r { g with wick := wick, gr := gr }
  ({ s1 with mem := s1.mem.zero base (2 ^ 21) }).wroteSpan base (2 ^ 21)

/-- A row group formatted: its regions first return to their own slots. -/
def State.formatGroup (s : State) (stack r : Nat) (wick : Bool) (gr : BitVec 2) : State :=
  let l := groupRegions r
  let s1 := l.foldl (fun s k => s.swapBack stack k) (s.stopSwap stack l)
  l.foldl (fun s k => s.formatRegion stack k wick gr) s1

/-- A format: one spread region, or the whole row group. -/
def State.format (s : State) (stack r : Nat) (wick : Bool) (gr : BitVec 2) : State :=
  if !wick ∧ !(s.regionAt stack r).wick then (s.stopSwap stack [r]).formatRegion stack r false gr
  else s.formatGroup stack r wick gr

/-- The format that DRFMT's fields name is refused. -/
def Die.refused (d : Die) : Bool := d.drfmtGr == 3 || (d.drfmtWick && d.drfmtGr != 1)

/-- A write to DRFMT (R282). -/
def State.writeDrfmt (s : State) (die : Nat) (x : Word) : State :=
  if (s.die die).drfmtBusy then s
  else
    let s1 := s.setDie die fun d =>
      { d with
        drfmtErr := d.drfmtErr && !x.getLsbD 62, drfmtGr := x.extractLsb' 22 2, drfmtWick := x.getLsbD 21,
        drfmtStack := x.getLsbD 15, drfmtRegion := x.extractLsb' 0 15 }
    let d := s1.die die
    if !x.getLsbD 61 then s1
    else if d.refused then s1.setDie die fun d => { d with drfmtErr := true }
    else
      let s2 := s1.format (2 * die + (if d.drfmtStack then 1 else 0)) d.drfmtRegion.toNat d.drfmtWick d.drfmtGr
      (s2.setDie die fun d => { d with drfmtBusy := true, drfmtErr := false }).due (.drfmtDone die)

/-- A write to DRFMT with WICKGRP = 0 (R282). -/
def execDrfmtSpread (die : Nat) (x : BitVec 64) (s : State) : Out :=
  .next (if x.getLsbD 21 then s else s.writeDrfmt die x)

/-- A write to DRFMT with WICKGRP = 1 (R282). -/
def execDrfmtWick (die : Nat) (x : BitVec 64) (s : State) : Out :=
  .next (if x.getLsbD 21 then s.writeDrfmt die x else s)

/-- A format finishes (R282). -/
def execDrfmtDone (die : Nat) (s : State) : Out := .next (s.setDie die fun d => { d with drfmtBusy := false })

/-! ## Refresh (R285, R273) -/

/-- The refresh state of a bank of which nothing is noted. -/
def Refresh.none : Refresh := { postponed := 0, busy := false }

/-- The refresh state of a bank changed. -/
def State.setRefresh (s : State) (stack bank : Nat) (r : Refresh) : State :=
  { s with refresh := put Refresh.none (2048 * stack + bank) r s.refresh }

/-- The refresh state of a bank. -/
def State.refreshOf (s : State) (stack bank : Nat) : Refresh := look Refresh.none (2048 * stack + bank) s.refresh

/-- A refresh falls due: it is postponed, up to 8, or issued; at the ninth the oldest is issued. One that is issued in time
brings the postponed ones with it. -/
def execRefreshDue (stack bank : Nat) (postpone : Bool) (s : State) : Out :=
  let r := s.refreshOf stack bank
  .next (if postpone ∧ r.postponed < 8 then s.setRefresh stack bank { r with postponed := r.postponed + 1 }
    else s.setRefresh stack bank { postponed := if postpone then 8 else 0, busy := true })

/-- A refresh finishes: a scan of the bank goes on at its next unread row (R273). -/
def execRefreshComplete (stack bank : Nat) (s : State) : Out :=
  let r := s.refreshOf stack bank
  .next (if !r.busy then s
    else
      let s1 := s.setRefresh stack bank { r with busy := false }
      if s1.subqueries.any fun q => q.stack == stack && !(q.unread bank).isEmpty then s1.due (.wickScanRow stack bank) else s1)

/-! ## Region swaps (R287) -/

/-- The counts of a stack's pseudo-channels in the window. -/
def State.windowCounts (s : State) (stack : Nat) : List Nat := (List.range 64).map fun p => look 0 (64 * stack + p) s.accesses

/-- The busiest pseudo-channel carried more than 1.5 × the mean. -/
def uneven (l : List Nat) : Bool := decide (3 * l.foldl (· + ·) 0 < 2 * 64 * l.foldl max 0)

/-- A region that a swap may take: a spread one. -/
def State.swappable (s : State) (stack r : Nat) : Bool := decide (r < 32768) && !(s.regionAt stack r).wick

/-- A window ends (R287): where its counts are uneven, the controller may begin to swap two spread regions of its choice. -/
def execRemapWindowEnd (stack r0 r1 : Nat) (s : State) : Out :=
  let begins := uneven (s.windowCounts stack) && s.swap.isNone && r0 != r1 && s.swappable stack r0 && s.swappable stack r1
  let s1 := { s with accesses := clearKeys (fun k => k / 64 == stack) s.accesses }
  .next (if begins then
      { s1 with swap := some { stack := stack, r0 := r0, r1 := r1, pieces := 0 }, events := s1.events ++ [.regionSwapPiece] }
    else s1)

/-- The entries that two regions have once each has taken the other's slot. -/
def State.swapped (s : State) (stack r0 r1 : Nat) : Region × Region :=
  let a := s.regionAt stack r0
  let b := s.regionAt stack r1
  ({ a with moved := movedTo r0 (slotOf r1 b) }, { b with moved := movedTo r1 (slotOf r0 a) })

/-- The persistent copy written for a swap that has one piece left (R288). -/
def State.keepSwap (s : State) (x : Swap) : State :=
  let g := s.swapped x.stack x.r0 x.r1
  (s.keepRegion x.stack x.r0 g.1).keepRegion x.stack x.r1 g.2

/-- Each of two regions has the slot that the persistent copy gives it. -/
def State.swapRegions (s : State) (stack r0 r1 : Nat) : State :=
  (s.setRegion stack r0 (s.keptRegion stack r0)).setRegion stack r1 (s.keptRegion stack r1)

/-- A piece of a swap has moved: before the last the persistent copy is written, and with the last of 32 the regions have changed
slots (R287, R288). -/
def execRegionSwapPiece (s : State) : Out :=
  .next (match s.swap with
    | none => s
    | some x =>
      if x.pieces + 1 < 32 then
        let s1 := { s with swap := some { x with pieces := x.pieces + 1 }, events := s.events ++ [.regionSwapPiece] }
        if x.pieces + 2 < 32 then s1 else s1.keepSwap x
      else ({ s with swap := none }).swapRegions x.stack x.r0 x.r1)

/-! ## Errors outside any instruction (R288, R312) -/

/-- A MEMERR notice at a location (R389 Table 9). -/
def State.memerrNotice (s : State) (loc : Word) : Notice where
  kind := 2
  core := 0xFF
  slot := 0xFF
  rank := 0xFFFFFFFF
  tcause := 0x106
  tpc := 0
  tval := 0
  loc := loc
  time := s.beacon

/-- Every unit of a region poisoned. -/
def State.poisonRegion (s : State) (stack r : Nat) : State :=
  let k := regionBase stack r / 32
  { s with mem := { s.mem with poison := markSpan k 65536 s.mem.poison, checks := clearSpan k 65536 s.mem.checks } }

/-- The location of a region-table entry. -/
def tableLoc (stack r : Nat) : Word := flagAt true 63 ||| fieldAt (stack % 16) 56 ||| fieldAt (r % 32768) 0

/-- Both copies of a region's entry have failed: the notice; the entry rebuilt from the persistent copy; and every unit of the region,
and of its partner in a swap under way, poisoned (R288). -/
def execRegionTableRebuild (stack r : Nat) (s : State) : Out :=
  .next (if 16 ≤ stack ∨ 32768 ≤ r then s
    else
      let s0 := s.setRegion stack r (s.keptRegion stack r)
      let s1 := (s0.postNotice (stack / 2) (s.memerrNotice (tableLoc stack r))).poisonRegion stack r
      match s.swap with
      | some x =>
        if x.stack ≠ stack then s1
        else if x.r0 = r then s1.poisonRegion stack x.r1
        else if x.r1 = r then s1.poisonRegion stack x.r0
        else s1
      | none => s1)

/-- The bank of a DRAM byte within its pseudo-channel (R278, R279). -/
def State.bankOf (s : State) (pa : Nat) : Nat :=
  let g := s.region pa
  let o := pa % 2 ^ 21
  if g.wick then o / 65536
  else if g.gr = 0 then o / 32 / 64 % 32
  else if g.gr = 1 then o / 64 / 64 % 32
  else o / 256 / 16 % 32

/-- The row of a DRAM byte within its bank. -/
def State.rowOf (s : State) (pa : Nat) : Nat :=
  let g := s.region pa
  if g.wick then wickRow pa else slotOf (regionNo pa) g

/-- The location of a DRAM unit. -/
def State.unitLoc (s : State) (pa : Nat) : Word :=
  fieldAt (stackOf pa) 56 ||| fieldAt (s.pseudoChannel pa) 50 ||| fieldAt (s.bankOf pa) 45 ||| fieldAt (s.rowOf pa) 30

/-- The corrected (0) or uncorrectable (1) count of the pseudo-channel of a DRAM byte, one more (R284). -/
def State.countError (s : State) (pa kind : Nat) : State :=
  let k := 2 * (64 * (stackOf pa % 2) + s.pseudoChannel pa) + kind
  s.setDie (stackOf pa / 2) fun d => { d with counters := put 0 k ((look 0 k d.counters + 1) % 2 ^ 64) d.counters }

/-! ## Stored metadata (R280) -/

/-- The carry checks of the two 32-byte halves of 64 bytes (R280 Table 4). -/
def State.carryPair (s : State) (pa : Nat) : Nat := (s.carryAt pa).toNat + 256 * (s.carryAt (pa + 32)).toNat

/-- The metadata stored with the unit at a DRAM byte, from share 0 up (R280 Table 4). -/
def State.unitMeta (s : State) (pa : Nat) : List Word :=
  let gr := (s.region pa).gr
  let u := unitBytes gr
  let base := pa / u * u
  let bytes := s.mem.bytes (dramKey base) u
  let bad := look false (dramKey base / 32) s.mem.poison
  if gr = 0 then
    [flagAt bad 30 ||| fieldAt (s.tagAt base) 26 ||| fieldAt (Config.checkBits 18 0 bytes bad).toNat 8
      ||| fieldAt (s.carryAt base).toNat 0]
  else if gr = 1 then
    [flagAt bad 60 ||| fieldAt (s.tagAt base) 56 ||| fieldAt (Config.checkBits 40 0 bytes bad).toNat 16
      ||| fieldAt (s.carryPair base) 0]
  else (List.range 4).map fun k =>
    fieldAt (Config.checkBits 44 k bytes bad).toNat 20 ||| fieldAt (s.tagAt (base + 64 * k)) 16
      ||| fieldAt (s.carryPair (base + 64 * k)) 0

/-! ## Errors found -/

/-- The outcome of a read of the unit at `pa` (R284 Table 6): what the layer's severity and the controller's decode say is counted,
and a unit beyond correction is rewritten poisoned. -/
def State.readOutcome (s : State) (pa sev : Nat) (beyond : Bool) : State :=
  if beyond then (s.setPoison pa true).countError pa 1
  else if sev = 3 then s.countError pa 1
  else s.countError pa 0

/-- The stored carry check of 32 bytes and the check of these bytes have come to differ in the bits `x` (R286). -/
def State.upset (s : State) (pa : Nat) (x : Byte) : State :=
  let k := dramKey pa / 32
  { s with mem := { s.mem with checks := put 0 k (look 0 k s.mem.checks ^^^ x) s.mem.checks } }

/-- One copy of a region's entry fails its ECC: it is rewritten from the other (R288). -/
def State.rewriteCopy (s : State) (stack r : Nat) (second : Bool) : State :=
  let k := regionKey stack r
  if second then { s with regions2 := put Region.reset k (s.regionAt stack r) s.regions2 }
  else { s with regions := put Region.reset k (look Region.reset k s.regions2) s.regions }

/-- The VLC that owns the tile unit of a core learns of poison (R311). -/
def State.tileFsr (s : State) (core : Nat) : State :=
  s.mapVlcs fun v => if v.status.resident && v.core == core && v.tileOwner then { v with fsrPoison := true } else v

/-- A word of a vector register poisoned (R311). -/
def VecReg.poisonWord (r : VecReg) (word : Nat) : VecReg := { r with poison := r.poison ||| BitVec.ofNat 4096 (2 ^ word) }

/-- An error at a DRAM unit of the die. -/
def State.onUnit (s : State) (die pa : Nat) (k : State → State) : State :=
  if stackOf pa / 2 ≠ die ∨ windowOf pa ≠ 0 then s else k s

/-- An error is found (R284, R286, R288, R311, R312): of the DRAM of a die, by scrubbing, which posts a notice, or by a read; of the
engine storage of a mesh, which is lost (R244); or of registers. -/
def execScrubError (die place : Nat) (flaw : Flaw) (s : State) : Out :=
  .next (match flaw with
    | .unit => s.onUnit die place fun s => ((s.setPoison place true).countError place 1).postNotice die (s.memerrNotice (s.unitLoc place))
    | .read sev beyond => s.onUnit die place (·.readOutcome place sev beyond)
    | .carry x => s.onUnit die place (·.upset place x)
    | .write => s.onUnit die place (·.setPoison place true)
    | .mesh => { s with meshes := s.meshes.map fun (m : Mesh) => if m.die = die ∧ m.id = place then { m with lost := true } else m }
    | .copy r second => if 16 ≤ place ∨ 32768 ≤ r then s else s.rewriteCopy place r second
    | .vreg core slot r => s.setVlcAt core slot fun v => { v.setVreg r ((v.vreg r).poisonWord place) with fsrPoison := true }
    | .acc core j =>
      (s.setCore core fun c => { c with accs := c.accs.set j.toNat { c.accs[j.toNat] with
        poison := c.accs[j.toNat].poison ||| BitVec.ofNat 4096 (2 ^ place) } }).tileFsr core
    | .oslot core o =>
      (s.setCore core fun c => { c with slots := c.slots.set o.toNat { c.slots[o.toNat] with
        poison := c.slots[o.toNat].poison ||| BitVec.ofNat 2048 (2 ^ place) } }).tileFsr core
    | .state core slot m => s.setVlcAt core slot fun v => { v with bad := if v.bad.contains m then v.bad else v.bad ++ [m] })

end Sys2Proof.Machine
end

