-- ==== Sys2Proof/Machine/MeshEngine.lean ====
section
/-! DEFINITION. The mesh instructions of one die: MNBR (R247), and the commands MLOCATE (R252), MREMAP (R250, R251) and MCOLOR
(R253), with the issue of every mesh command (R241). -/

namespace Sys2Proof.Machine

/-! ## The meshes of a die (R234, R246) -/

/-- The mesh of a die by its MESHID, once a build of it is published. -/
def State.mesh (s : State) (die id : Nat) : Option Mesh := s.meshes.find? fun m => m.die == die && m.id == id && m.cur.gen != 0

/-! ## Issue (R241) -/

/-- The record and the block of a mesh command captured, with the mesh as its die holds it. -/
def meshCapture (k : CmdKind) (a b : SReg) (s : State) : Except Stop (Command × State) :=
  if (s.rd a).toNat % 256 ≠ 0 then .error (.plain .align 0 (untag (s.rd a)))
  else if (s.rd b).toNat % 64 ≠ 0 then .error (.plain .align 0 (untag (s.rd b)))
  else do
    let (r, s1) ← s.capture s.party (s.rd a) 32
    let (blk, s2) ← s1.capture s1.party (s.rd b) 8
    .ok ({ s2.newCommand k r blk (Block.of blk).out with mesh := s.mesh (dieOf s.v.core) (MeshRec.of r).id }, s2)

/-- The issue of a mesh command. -/
def State.issueMesh (s : State) (i : Instr) (k : CmdKind) (d a b : SReg) : State := s.issueFrom i d (meshCapture k a b)

/-- MLOCATE issued (R241). -/
def execMlocate (d a b : SReg) (s : State) : Out :=
  .next (checked (.mlocate d a b) s fun s => s.issueMesh (.mlocate d a b) .mlocate d a b)

/-- MREFINE issued (R241). -/
def execMrefine (d a b : SReg) (s : State) : Out :=
  .next (checked (.mrefine d a b) s fun s => s.issueMesh (.mrefine d a b) .mrefine d a b)

/-- MCOARSEN issued (R241). -/
def execMcoarsen (d a b : SReg) (s : State) : Out :=
  .next (checked (.mcoarsen d a b) s fun s => s.issueMesh (.mcoarsen d a b) .mcoarsen d a b)

/-- MREMAP issued (R241). -/
def execMremap (d a b : SReg) (s : State) : Out :=
  .next (checked (.mremap d a b) s fun s => s.issueMesh (.mremap d a b) .mremap d a b)

/-- MCOLOR issued (R241). -/
def execMcolor (d a b : SReg) (s : State) : Out :=
  .next (checked (.mcolor d a b) s fun s => s.issueMesh (.mcolor d a b) .mcolor d a b)

/-- MCUT issued (R241). -/
def execMcut (d a b : SReg) (s : State) : Out :=
  .next (checked (.mcut d a b) s fun s => s.issueMesh (.mcut d a b) .mcut d a b)

/-- MMIGR issued (R241). -/
def execMmigr (d a b : SReg) (s : State) : Out :=
  .next (checked (.mmigr d a b) s fun s => s.issueMesh (.mmigr d a b) .mmigr d a b)

/-- MGHOST issued (R241). -/
def execMghost (d a b : SReg) (s : State) : Out :=
  .next (checked (.mghost d a b) s fun s => s.issueMesh (.mghost d a b) .mghost d a b)

/-! ## The checks at the start of a command (R465) -/

/-- The bad field of a command's block. -/
def Command.blockBad (c : Command) (own : Nat × Nat) : Option Nat :=
  (Block.of c.block).bad c.kind (c.mesh.map fun m => (m.owned m.cur own).length)

/-- The other topology command that makes a second one BUSY (R246): unpublished, on the same mesh and die, and issued
before it. -/
def State.busyWith (s : State) (c : Command) : Option Nat :=
  (s.commands.find? fun k => k.die == c.die && decide (k.handle < c.handle) && k.kind.topology && !k.settled
    && (MeshRec.of k.record).id == (MeshRec.of c.record).id && (k.status == none || k.status == some 0)).map (·.handle)

/-- A status code as a condition that fails. -/
def failWith (code detail : Nat) : Except EngStop Unit := .error (.code code detail)

/-- The record and the block of a mesh command checked (R465): BADREC, then BADBLOCK. -/
def State.startRecord (s : State) (c : Command) : Except EngStop (Parsed × State) := do
  let (r, s1) ← s.parseMesh c.party c.launch c.record ((Block.of c.block).build c.kind)
  match c.blockBad (s.endpoint, c.die) with
  | some o => .error (.code 2 o)
  | none => .ok (r, s1)

/-- The checks that follow (R465): NOMESH or EXISTS, then BUSY. `arrives` says that MMIGR brings the mesh to this die. -/
def State.standing (s : State) (c : Command) (arrives : Bool) : Except EngStop Unit :=
  let build := (Block.of c.block).build c.kind
  if build ∧ c.mesh.isSome then failWith 4 0
  else if !build ∧ !arrives ∧ c.mesh = none then failWith 3 0
  else match s.busyWith c with
  | some h => if c.kind.topology then failWith 5 h else .ok ()
  | none => .ok ()

/-- The checks at the start of a mesh command of one die: its parsed record. -/
def State.startMesh (s : State) (c : Command) : Except EngStop (Parsed × State) := do
  let (r, s1) ← s.startRecord c
  s.standing c false
  .ok (r, s1)

/-- The mesh of a command has been lost to an error of its storage (R244). -/
def State.lostMesh (s : State) (m : Mesh) : Bool := m.lost || s.meshes.any fun x => x.die == m.die && x.id == m.id && x.lost

/-- The mesh of a command whose start checks passed; one lost to an error of its storage ends it (R244). -/
def State.heldMesh (s : State) (c : Command) : Except EngStop Mesh :=
  match c.mesh with
  | none => .error (.code 3 0)
  | some m => if s.lostMesh m then .error (.code 10 0) else .ok m

/-! ## MNBR (R247) -/

/-- The bytes of MNBR's query block that must be 0, VIEW and PRIONLY in range. -/
def queryOk (q : List Byte) : Bool :=
  zeroes q 0x1A 38 && decide (field q 0x18 1 ≤ 1) && decide (field q 0x19 1 ≤ 1)

/-- The first failing condition of R247, given the record's validity and the mesh held under its MESHID. -/
def queryFail (q : List Byte) (valid : Bool) (m : Option Mesh) (own : Nat × Nat) : Nat :=
  if !valid then 1
  else if !queryOk q then 2
  else match m with
  | none => 3
  | some m =>
    if (m.owned m.cur own).length < field q 8 8 + field q 16 8 then 2
    else if m.lost then 10
    else 0

/-- The records of a query. -/
def Mesh.query (m : Mesh) (own : Nat × Nat) (q : List Byte) : List (Word × Word) :=
  ((m.records m.cur own).filter fun r =>
    decide (field q 8 8 ≤ r.cell) && decide (r.cell < field q 8 8 + field q 16 8) && (field q 0x19 1 == 0 || r.pri)).map
      fun r => (r.w0, r.w1)

/-- The binding of a query. -/
def Mesh.bind (m : Mesh) (own : Nat × Nat) (q : List Byte) : TopoBind where
  die := m.die
  ctx := m.ctx
  mesh := m.id
  gen := m.cur.gen
  view := field q 0x18 1
  recs := m.query own q

/-- MNBR's query block and mesh record. -/
def nbrCapture (a : SReg) (s : State) : Except Stop ((List Byte × List Byte) × State) :=
  if (s.rd a).toNat % 64 ≠ 0 then .error (.plain .align 0 (untag (s.rd a)))
  else do
    let (q, s1) ← s.capture s.party (s.rd a) 8
    let at_ := BitVec.ofNat 64 (field q 0 8)
    if at_.toNat % 256 ≠ 0 then .error (.plain .align 0 (untag at_))
    else do
      let (r, s2) ← s1.capture s1.party at_ 32
      .ok ((q, r), s2)

/-- The trap of the engine's read at an address, as the VLC would meet it (R241); the table's rule otherwise. -/
def nbrTrap (a : SReg) (at_ : Nat) (s : State) : Stop :=
  match s.load s.party (.mem (BitVec.ofNat 64 at_) 8 .load 0) with
  | .error e => e
  | .ok _ => .prot 0 (untag (s.rd a + 1))

/-- The party number of a VLC's MNBR. -/
def State.nbrOwner (s : State) : Nat := engOwner 2 (4 * s.v.core + s.v.slot)

/-- MNBR with its query and its record captured, and the mesh as its die held it at issue (R246): the binding, the record count, or
the trap. -/
def nbrBind (d : QReg) (a b : SReg) (i : Instr) (c : Command) (s : State) : State :=
  let own := (s.endpoint, dieOf s.v.core)
  let q := c.block
  let p : Party := { s.party with core := none, watch := false, owner := s.nbrOwner }
  let m := c.mesh.map fun (m : Mesh) => { m with lost := s.lostMesh m }
  match s.parseMesh p s.v.launch c.record false with
  | .error (.remote owner key ep pa op) => s.engWait (.mnbrBindingMade s.v.core s.v.slot) owner key ep pa op
  | .error (.code k x) =>
    if k = 1 then (s.forgetAnswers s.nbrOwner).raise i (.prot 0 (untag (s.rd a + 1)))
    else (s.forgetAnswers s.nbrOwner).raise i (nbrTrap a x s)
  | .ok (_, s1) =>
    let s2 := s1.forgetAnswers s1.nbrOwner
    match queryFail q true m own, m with
    | 0, some m =>
      let t := m.bind own q
      ((s2.setV fun v => v.setStream d { Stream.unbound with kind := .topology, topo := some t }).wr b
        (BitVec.ofNat 64 t.recs.length)).finish i
    | k, _ => (if k = 10 then s2.dropMesh c else s2).raise i (.prot 0 (untag (s.rd a + BitVec.ofNat 64 k)))

/-- What MNBR captures at its issue: its query as a block, its record, and the mesh as its die holds it. -/
def State.nbrCommand (s : State) (q r : List Byte) : Command :=
  { s.newCommand .mlocate r q 0 with mesh := s.mesh (dieOf s.v.core) (MeshRec.of r).id }

/-- MNBR: its accesses are made, and the VLC is blocked until the binding is made. -/
def execMnbr (d : QReg) (a b : SReg) (s : State) : Out :=
  .next (checked (.mnbr d a b) s fun s =>
    match nbrCapture a s with
    | .error e => s.raise (.mnbr d a b) e
    | .ok (x, s1) =>
      ((s1.setV fun v => { v with queued := some (s1.nbrCommand x.1 x.2) }).block (.mnbr d a b)).due
        (.mnbrBindingMade s.v.core s.v.slot))

/-- The topology engine makes the binding, or the VLC takes the trap. -/
def execMnbrBindingMade (core slot : Nat) (s : State) : Out :=
  .next (s.onVlc core slot fun s1 =>
    match s1.v.status, s1.v.queued with
    | .blocked (.mnbr d a b), some c => nbrBind d a b (.mnbr d a b) c s1
    | _, _ => s1)

/-! ## MLOCATE (R252) -/

/-- A binary64 as an integer number of 2^-1074; none for NaNs and infinities. -/
def exactF64 (x : Nat) : Option Int :=
  match VType.f64.fmt.val x with
  | .num d => some (d.at (-1074))
  | .nan _ => none
  | .inf _ => none

/-- Three exact coordinates. -/
def exactPt (x y z : Nat) : Option Pt :=
  match exactF64 x, exactF64 y, exactF64 z with
  | some a, some b, some c => some (a, b, c)
  | none, _, _ => none
  | some _, none, _ => none
  | some _, some _, none => none

/-- A determinant by columns. -/
def det3 (a b c : Pt) : Int :=
  a.1 * (b.2.1 * c.2.2 - b.2.2 * c.2.1) - b.1 * (a.2.1 * c.2.2 - a.2.2 * c.2.1) + c.1 * (a.2.1 * b.2.2 - a.2.2 * b.2.1)

/-- The axis vertices of a kind (R252). -/
def axisVerts (kind : Nat) : List Nat :=
  if kind = 0 then [1, 2, 4] else if kind = 3 then [1, 3, 4] else if kind ≤ 2 then [1, 2, 3] else [1, 2]

/-- A point's reference coordinates, as numerators over a positive denominator; none for a degenerate map. -/
def refCoords (o : Pt) (axes : List Pt) (p : Pt) : Option (Pt × Int) :=
  let a := Pt.minus (vertAt axes 0) o
  let b := Pt.minus (vertAt axes 1) o
  let c := if axes.length = 3 then Pt.minus (vertAt axes 2) o else (0, 0, 1)
  let d := Pt.minus p o
  let det := det3 a b c
  let n := (det3 d b c, det3 a d c, if axes.length = 3 then det3 a b d else 0)
  if det = 0 then none else if det < 0 then some (Pt.times (-1) n, -det) else some (n, det)

/-- The normal of a face. -/
def normalOf (c : List Pt) : Pt :=
  let u := Pt.minus (vertAt c 1) (vertAt c 0)
  if c.length = 2 then (-u.2.1, u.1, 0)
  else
    let w := Pt.minus (vertAt c 2) (vertAt c 0)
    (u.2.1 * w.2.2 - u.2.2 * w.2.1, u.2.2 * w.1 - u.1 * w.2.2, u.1 * w.2.1 - u.2.1 * w.1)

/-- A closed cell contains the point n / den: the point is on the inner side of every face. -/
def cellContains (kind : Nat) (v : List Pt) (n : Pt) (den : Int) : Bool :=
  let mid := v.foldl Pt.plus (0, 0, 0)
  (List.range (faceCount kind)).all fun f =>
    let c := faceOf kind v f
    let w := normalOf c
    let inside := Pt.dot w (Pt.minus mid (Pt.times v.length (vertAt c 0)))
    let here := Pt.dot w (Pt.minus (Pt.times unitEdge n) (Pt.times den (vertAt c 0)))
    decide (0 ≤ inside * here)

/-- Where a descent stops: STAT and the path of the node. -/
def Mesh.descend (m : Mesh) (t : Topo) (own : Nat × Nat) (tree : Nat) (n : Pt) (den : Int) : Nat → List Nat → Nat × List Nat
  | 0, path => (2, path)
  | k + 1, path =>
    let x : Leaf := { tree := tree, path := path }
    if (m.owned t own).contains x then (0, path)
    else if (m.ghosts t own).contains x then (1, path)
    else if !(m.locals t own).any fun a => a.tree == tree && path.isPrefixOf a.path then (2, path)
    else
      let kind := kindOf m.coarse tree
      match (List.range (childCount kind)).find? fun c => cellContains kind (pathVerts kind (path ++ [c])) n den with
      | some c => m.descend t own tree n den k (path ++ [c])
      | none => (2, path)

/-- The result words of a node (R252). -/
def Mesh.foundWords (m : Mesh) (t : Topo) (own : Nat × Nat) (stat : Nat) (a : Leaf) : Nat × Nat :=
  let key := m.keyOf a
  let o := ownerOf t.parts key
  (stat * 2 ^ 60 + a.path.length * 2 ^ 48 + key,
   o.ep * 2 ^ 51 + o.die * 2 ^ 48 + if 2 ≤ stat then 0xFFFFFFF else (m.locals t own).idxOf a)

/-- A point outside its coarse cell: STAT 3, its level, key and owner free (R7). -/
def State.outsideWords (s : State) : (Nat × Nat) × State :=
  ((3 * 2 ^ 60 + (s.free 52).toNat, (s.spend.free 16).toNat * 2 ^ 48 + 0xFFFFFFF), s.spend.spend)

/-- A point whose coarse cell does not exist, or has no affine map: R252 gives it no result, two free words (R7). -/
def State.unlocated (s : State) : (Nat × Nat) × State := (((s.free 64).toNat, (s.spend.free 64).toNat), s.spend.spend)

/-- The result of a point, once its coarse cell's corner and axis vertices are read. A point with a coordinate that is infinite or a
NaN lies outside. -/
def State.locate (s : State) (m : Mesh) (own : Nat × Nat) (tree : Nat) (verts : List (Option Pt)) (p : Option Pt) :
    (Nat × Nat) × State :=
  match p, verts.mapM id with
  | some p, some (o :: axes) =>
    match refCoords o axes p with
    | none => s.unlocated
    | some (n, den) =>
      let kind := kindOf m.coarse tree
      if cellContains kind (rootVerts kind) n den then
        let x := m.descend m.cur own tree n den (m.maxlev + 1) []
        (m.foundWords m.cur own x.1 { tree := tree, path := x.2 }, s)
      else s.outsideWords
  | none, some (_ :: _) => s.outsideWords
  | _, some [] => s.unlocated
  | _, none => s.unlocated

/-- The vertices of a list of indices; z is not read in two dimensions (R218). -/
def State.readVerts (s : State) (p : Party) (tab : Word) (dim : Nat) : List Nat → Except EngStop (List (Option Pt) × State)
  | [] => .ok ([], s)
  | i :: l => do
    let (b, s1) ← s.engWords p (tab + BitVec.ofNat 64 (24 * i)) (if dim = 3 then 3 else 2)
    let (r, s2) ← s1.readVerts p tab dim l
    .ok (exactPt (field b 0 8) (field b 8 8) (if dim = 3 then field b 16 8 else 0) :: r, s2)

/-- The results of `n` points from number `i`. -/
def locatePoints (c : Command) (r : MeshRec) (m : Mesh) (s : State) (i : Nat) : Nat → Except EngStop (List (Nat × Nat) × State)
  | 0 => .ok ([], s)
  | n + 1 => do
    let b := Block.of c.block
    let (p, s1) ← s.engWords c.party (b.in0 + BitVec.ofNat 64 (32 * i)) 4
    let tree := field p 24 4
    let pt := exactPt (field p 0 8) (field p 8 8) (if m.dim = 3 then field p 16 8 else 0)
    let kind := kindOf m.coarse tree
    let idx := (0 :: axisVerts kind).map fun v => ((m.coarse.map (·.verts)).getD tree []).getD v 0
    let (vs, s2) ← if tree < m.coarse.length then s1.readVerts c.party r.vtab m.dim idx else .ok ([none], s1)
    let (w, s3) := s2.locate m (s.endpoint, c.die) tree vs pt
    let (l, s4) ← locatePoints c r m s3 (i + 1) n
    .ok (w :: l, s4)

/-- MLOCATE runs (R252). -/
def locateRun (c : Command) (s : State) : Except EngStop (Product × State) := do
  let (r, s1) ← s.startMesh c
  let m ← s.heldMesh c
  let b := Block.of c.block
  sizeOk b (64 + 16 * b.count)
  let (l, s2) ← locatePoints c r.r m s1 0 b.count
  let missed := (l.filter fun x => decide (2 ≤ x.1 / 2 ^ 60) && decide (x.1 / 2 ^ 60 ≤ 3)).length
  let (h, s3) := s2.header m m.cur (s.endpoint, c.die) b.count missed
  let (w, s4) ← s3.report c.party b (h ++ l.flatMap fun x => [x.1, x.2])
  .ok (.ofShades w, s4)

/-- A point-location command ends (R252). -/
def execMlocateEnd (die h : Nat) (s : State) : Out := .next (s.commandEnd die h .mlocate locateRun)

/-! ## MREMAP (R250, R251) -/

/-- The exact sum of two values; opposite infinities and NaNs give a NaN. -/
def valPlus (x y : FpVal) : FpVal :=
  match x, y with
  | .nan a, _ => .nan a
  | .inf _, .nan b => .nan b
  | .num _, .nan b => .nan b
  | .inf a, .inf b => if a == b then .inf a else .nan false
  | .inf a, .num _ => .inf a
  | .num _, .inf b => .inf b
  | .num a, .num b => .num (Dy.add .rne a b)

/-- A value times an integer. -/
def valScale (k : Int) (x : FpVal) : FpVal :=
  match x with
  | .nan a => .nan a
  | .inf a => if k = 0 then .nan false else .inf (a != decide (k < 0))
  | .num d => .num (d.mul (Dy.ofInt k))

/-- A value divided by a positive number and rounded once to nearest even (R251). -/
def overNat (f : Fmt) (n : Nat) (x : FpVal) : Nat :=
  match x with
  | .nan _ => f.nan
  | .inf a => f.inf a
  | .num d =>
    if d.m = 0 then f.signOf d.neg
    else
      let q := quotMag d.m d.e n 0
      (f.round .rne false false d.neg q.1 q.2).bits

/-- Linear prolongation (R251): (p·n + Σ G_d·k_d) / n, where δ_d is k_d / n. -/
def linearSplit (f : Fmt) (p : Nat) (g : List Nat) (kind j dim : Nat) : Nat :=
  let v := rootVerts kind
  let n : Int := v.length * unitEdge
  let d := Pt.minus ((childVerts kind v j).foldl Pt.plus (0, 0, 0)) (v.foldl Pt.plus (0, 0, 0))
  let terms := (g.zip ([d.1, d.2.1, d.2.2].take dim)).map fun x => valScale x.2 (f.val x.1)
  overNat f n.toNat (terms.foldl valPlus (valScale n (f.val p)))

/-- Restriction (R251): the child whose CPOS is 0, or the mean. -/
def restrictTo (f : Fmt) (mop : Nat) (cpos : List Nat) (l : List Nat) : Nat :=
  if mop = 0 then l.getD (cpos.idxOf 0) 0
  else overNat f l.length ((l.drop 1).foldl (fun x y => valPlus x (f.val y)) (f.val (l.headD 0)))

/-- `n` values of a field of `c` components: component `k` of the cells from `i`. -/
def State.readCells (s : State) (p : Party) (base : Word) (c k size i : Nat) : Nat → Except EngStop (List Nat × State)
  | 0 => .ok ([], s)
  | n + 1 => do
    let (x, s1) ← s.engRead p 0 .glob (base + BitVec.ofNat 64 ((i * c + k) * size)) size 0
    let (l, s2) ← s1.readCells p base c k size (i + 1) n
    .ok (x :: l, s2)

/-- What a command of MREMAP fixes: its party, its block, the format and size of an element, DIM and NOWN. -/
structure RemapJob where
  p : Party
  b : Block
  f : Fmt
  size : Nat
  dim : Nat
  nown : Nat

/-- Component `k` of new cells from `dst` written with values, as far as they are owned (R250). -/
def RemapJob.put (j : RemapJob) (s : State) (k dst : Nat) : List Nat → Except EngStop (List Shade × State)
  | [] => .ok ([], s)
  | x :: l =>
    if j.nown ≤ dst then j.put s k (dst + 1) l
    else do
      let (t, s1) ← s.engTarget j.p 0 .glob (j.b.out + BitVec.ofNat 64 ((dst * j.b.count + k) * j.size)) j.size 0
      let (r, s2) ← j.put s1 k (dst + 1) l
      .ok ({ place := t.1, n := j.size, x := x, key := t.2 } :: r, s2)

/-- Component `k` of one record (R250). A word that is no record of R249 writes nothing (log 41). -/
def RemapJob.one (j : RemapJob) (s : State) (r : Remap) (k : Nat) : Except EngStop (List Shade × State) := do
  let c := j.b.count
  if r.op = 0 then
    let (l, s1) ← s.readCells j.p j.b.in0 c k j.size r.src r.count
    j.put s1 k r.dst l
  else if r.op = 1 then
    let (l, s1) ← s.readCells j.p j.b.in0 c k j.size r.src 1
    let p := l.headD 0
    if bitsOf j.b.param 5 4 = 1 then
      let (g, s2) ← s1.readCells j.p j.b.in2 1 0 j.size ((r.src * c + k) * j.dim) j.dim
      j.put s2 k r.dst (r.cpos.map fun x => linearSplit j.f p g r.kind x j.dim)
    else j.put s1 k r.dst (r.cpos.map fun _ => if (j.f.val p).isNan then j.f.nan else p)
  else if r.op = 2 ∧ r.cpos.contains 0 then
    let (l, s1) ← s.readCells j.p j.b.in0 c k j.size r.src r.cpos.length
    let x := restrictTo j.f (bitsOf j.b.param 7 6) r.cpos l
    j.put s1 k r.dst [if (j.f.val x).isNan then j.f.nan else x]
  else .ok ([], s)

/-- Every component from `k` of one record. -/
def RemapJob.comps (j : RemapJob) (s : State) (r : Remap) (k : Nat) : Nat → Except EngStop (List Shade × State)
  | 0 => .ok ([], s)
  | n + 1 => do
    let (a, s1) ← j.one s r k
    let (b, s2) ← j.comps s1 r (k + 1) n
    .ok (a ++ b, s2)

/-- `n` records of IN1 from number `i`. -/
def RemapJob.records (j : RemapJob) (s : State) (i : Nat) : Nat → Except EngStop (List Shade × State)
  | 0 => .ok ([], s)
  | n + 1 => do
    let (w, s1) ← s.engWords j.p (j.b.in1 + BitVec.ofNat 64 (64 + 16 * i)) 2
    let (a, s2) ← j.comps s1 (Remap.of (field w 0 8) (field w 8 8)) 0 j.b.count
    let (b, s3) ← j.records s2 (i + 1) n
    .ok (a ++ b, s3)

/-- MREMAP runs (R250). -/
def remapRun (c : Command) (s : State) : Except EngStop (Product × State) := do
  let (_, s1) ← s.startMesh c
  let b := Block.of c.block
  let (h, s2) ← s1.engWords c.party b.in1 8
  if c.mesh.any fun m => field h 0 8 != m.cur.gen then failWith 6 (field h 0 8) else .ok ()
  let m ← s.heldMesh c
  let t : VType := if b.param % 16 = 8 then .f64 else .f32
  let j : RemapJob :=
    { p := c.party, b := b, f := t.fmt, size := if b.param % 16 = 8 then 8 else 4, dim := m.dim, nown := field h 8 8 }
  sizeOk b (j.nown * b.count * j.size)
  let (l, s3) ← j.records s2 0 (field h 0x28 8)
  .ok (.ofShades l, s3)

/-- A field remap ends (R250). -/
def execMremapEnd (die h : Nat) (s : State) : Out := .next (s.commandEnd die h .mremap remapRun)

/-! ## MCOLOR (R253) -/

/-- The cells a face touches. -/
def FaceRec.touches (r : FaceRec) : List Nat := if r.boundary then [r.cell] else [r.cell, r.nbr]

/-- The colours of a list of records, each given the lowest that no earlier one uses at a cell it touches. -/
def colourAll (l : List FaceRec) : List (FaceRec × Nat) :=
  (l.foldl (fun done r =>
    let used := (done.filter fun x => x.1.touches.any (r.touches.contains ·)).map (·.2)
    (r, ((List.range (used.length + 1)).find? fun c => !used.contains c).getD 0) :: done) []).reverse

/-- The records of a colour. -/
def ofColour (l : List (FaceRec × Nat)) (c : Nat) : List FaceRec := (l.filter fun x => x.2 == c).map (·.1)

/-- The entries of the colour table, from colour `c` and record `i`. -/
def colourTable (l : List (FaceRec × Nat)) (i c : Nat) : Nat → List Nat
  | 0 => []
  | n + 1 =>
    let k := (ofColour l c).length
    (if k = 0 then [0, 0] else [i, k]) ++ colourTable l (i + k) (c + 1) n

/-- MCOLOR runs (R253). -/
def colourRun (c : Command) (s : State) : Except EngStop (Product × State) := do
  let (_, s1) ← s.startMesh c
  let m ← s.heldMesh c
  let own := (s.endpoint, c.die)
  let l := colourAll (sortBy (·.fidx) ((m.records m.cur own).filter (·.pri)))
  let n := (l.map (·.2 + 1)).foldl max 0
  let (h, s2) := s1.header m m.cur own l.length n
  let recs := (List.range n).flatMap fun k => (ofColour l k).flatMap fun r => [r.w0.toNat, r.w1.toNat]
  let (w, s3) ← s2.report c.party (Block.of c.block) (h ++ colourTable l 0 0 64 ++ recs)
  .ok (.ofShades w, s3)

/-- A colouring ends (R253). -/
def execMcolorEnd (die h : Nat) (s : State) : Out := .next (s.commandEnd die h .mcolor colourRun)

end Sys2Proof.Machine
end

