-- ==== Sys2Proof/Machine/MeshCollective.lean ====
section
/-! DEFINITION. The collective mesh commands (R245): what each party brings to its round, how a round ends, and what MREFINE and
MCOARSEN (R248), MCUT (R254), MMIGR (R255) and MGHOST (R256) leave on a die. -/

namespace Sys2Proof.Machine

/-! ## What a party brings -/

/-- A leaf as a party's message carries it. -/
def Leaf.carried (a : Leaf) : Nat × List Nat := (a.tree, a.path)

/-- A leaf of a message. -/
def leafOf (x : Nat × List Nat) : Leaf := { tree := x.1, path := x.2 }

/-- A partition entry as a message carries it. -/
def PartEntry.carried (e : PartEntry) : Nat × Nat × Nat := (e.first, e.ep, e.die)

/-- A partition entry of a message. -/
def partOf (x : Nat × Nat × Nat) : PartEntry := { first := x.1, ep := x.2.1, die := x.2.2 }

/-- The place of a message's party. -/
def msgPlace (m : PartyMsg) : Nat × Nat := (m.ep, m.die)

/-- The leaves and the partition of a message. -/
def msgTopo (m : PartyMsg) : Topo := { gen := m.gen, leaves := m.leaves.map leafOf, parts := m.parts.map partOf }

/-- What the checks at the start find: the leaves of a build, its partition, the bytes that R245 compares, and the field
list. -/
structure Brought where
  leaves : List Leaf
  parts : List PartEntry
  same : List Byte
  fields : List FieldEntry

/-- The table at IN0 or the party list at IN1 that R245 compares, checked. -/
def State.readCompared (s : State) (c : Command) : Except EngStop (List Byte × State) := do
  let b := Block.of c.block
  if c.kind = .mmigr then
    let (l, s1) ← s.engWords c.party b.in0 b.count
    if partsOk (s.launchEps c.launch) (partsOf l) then .ok (l, s1) else .error (.code 2 0x10)
  else if c.kind = .mcut then
    let (l, s1) ← s.engWords c.party b.in1 b.count
    if partyListOk (s.launchEps c.launch) (partsOf l) then .ok (l, s1) else .error (.code 2 0x18)
  else .ok ([], s)

/-- The field list, checked. -/
def State.readFields (s : State) (c : Command) : Except EngStop (List FieldEntry × State) := do
  let b := Block.of c.block
  if c.kind = .mmigr ∨ c.kind = .mghost then
    let (l, s1) ← s.engWords c.party b.in1 (4 * b.param)
    if fieldsOk c.kind l then .ok (fieldsOf l, s1) else .error (.code 2 0x18)
  else .ok ([], s)

/-- A place is one of a list of partition entries. -/
def hasPlace (l : List PartEntry) (at_ : Nat × Nat) : Bool := l.any fun e => (e.ep, e.die) == at_

/-- The checks at the start of a collective command (R465). -/
def State.startParty (s : State) (c : Command) : Except EngStop (Brought × State) := do
  let (r, s1) ← s.startRecord c
  let (same, s2) ← s1.readCompared c
  let (fields, s3) ← s2.readFields c
  s.standing c (c.kind == .mmigr && hasPlace (partsOf same) (s.endpoint, c.die))
  .ok ({ leaves := r.leaves, parts := r.parts, same := same, fields := fields }, s3)

/-- The owned cells of a command's mesh on its die. -/
def Command.owned (c : Command) (own : Nat × Nat) : Nat :=
  match c.mesh with
  | some m => (m.owned m.cur own).length
  | none => 0

/-- The marks of a list are at most 2 (R248); BADMARK names the first that is not. -/
def marksOk (l : List Byte) : Except EngStop Unit :=
  match l.findIdx? fun x => decide (2 < x.toNat) with
  | some i => .error (.code 14 i)
  | none => .ok ()

/-- The owned part of every field's SRC. -/
def State.readSources (s : State) (p : Party) (n : Nat) : List FieldEntry → Except EngStop (List (List Byte) × State)
  | [] => .ok ([], s)
  | f :: l => do
    let (x, s1) ← s.engWords p f.src (n * f.bytes / 8)
    let (r, s2) ← s1.readSources p n l
    .ok (x :: r, s2)

/-- The inputs a party reads: its marks, its weights or its fields (R248, R254, R255, R256). -/
def State.readInputs (s : State) (c : Command) (fields : List FieldEntry) : Except EngStop (List (List Byte) × State) := do
  let b := Block.of c.block
  let n := c.owned (s.endpoint, c.die)
  if c.mesh.any s.lostMesh then .error (.code 10 0)
  else if c.kind = .mcut then
    let (l, s1) ← s.readCells c.party b.in0 1 0 4 0 n
    .ok (l.map (bytesOf 4), s1)
  else if c.kind = .mmigr ∨ c.kind = .mghost then s.readSources c.party n fields
  else if b.build c.kind then .ok ([], s)
  else
    let (l, s1) ← s.engBytes c.party b.in0 n
    marksOk l
    .ok ([l], s1)

/-- COUNT where it means the same on every die (R245). -/
def Command.shared (c : Command) : Nat := if c.kind = .mrefine ∨ c.kind = .mcoarsen then 0 else (Block.of c.block).count

/-- The message of a party before anything is read: its place and the topology it holds. -/
def State.bareMsg (s : State) (c : Command) : PartyMsg :=
  let t : Topo := match c.mesh with
    | some m => m.cur
    | none => { gen := 0, leaves := [], parts := [] }
  { ep := s.endpoint, die := c.die, gen := t.gen, leaves := t.leaves.map Leaf.carried,
    parts := t.parts.map PartEntry.carried, code := 0, detail := 0, rcode := 0, rdetail := 0, count := c.shared,
    param := (Block.of c.block).param, same := [], data := [], ran := false }

/-- A message with the topology of a build. -/
def withBuild (m : PartyMsg) (x : Brought) : PartyMsg :=
  { m with leaves := x.leaves.map Leaf.carried, parts := x.parts.map PartEntry.carried }

/-- A failure as a message carries it; an access that waits for another endpoint goes on waiting. -/
def carry (s : State) (put : Nat → Nat → PartyMsg) : EngStop → Except EngStop (PartyMsg × State)
  | .code c d => .ok (put c d, s)
  | .remote owner key ep pa op => .error (.remote owner key ep pa op)

/-- The partition of a build whose start checks fail, where its record tells it: its parties wait for one another all the same
(R245). -/
def State.tableParts (s : State) (c : Command) : List PartEntry :=
  if !(Block.of c.block).build c.kind ∨ (recordBad c.record).isSome then []
  else
    let r := MeshRec.of c.record
    match s.engWords c.party r.partab r.npart with
    | .ok (l, _) => if partsOk (s.launchEps c.launch) (partsOf l) then partsOf l else []
    | .error _ => []

/-- What a party brings to its round. -/
def State.partyMsg (s : State) (c : Command) : Except EngStop (PartyMsg × State) :=
  let m := s.bareMsg c
  match s.startParty c with
  | .error e =>
    let m := if m.parts = [] then { m with parts := (s.tableParts c).map PartEntry.carried } else m
    carry s (fun k d => { m with code := k, detail := d }) e
  | .ok (x, s1) =>
    let m := { (if (Block.of c.block).build c.kind then withBuild m x else m) with same := x.same }
    match s1.readInputs c x.fields with
    | .error e => carry s1 (fun k d => { m with rcode := k, rdetail := d }) e
    | .ok (data, s2) => .ok ({ m with data := data }, s2)

/-! ## Rounds (R245) -/

/-- Two commands belong to one round. -/
def Command.sameRound (c k : Command) : Bool :=
  k.launch == c.launch && k.kind == c.kind && (MeshRec.of k.record).id == (MeshRec.of c.record).id
    && (Block.of k.block).seq == (Block.of c.block).seq

/-- The message a command's own party brought, once it has. -/
def Command.own (c : Command) (ep : Nat) : Option PartyMsg :=
  c.others.find? fun m => m.ep == ep && m.die == c.die && !m.ran

/-- How a command's own party has run, once it has. -/
def Command.ownRun (c : Command) (ep : Nat) : Option PartyMsg :=
  c.others.find? fun m => m.ep == ep && m.die == c.die && m.ran

/-- The unfinished commands of this package in the round of `c`, the earliest of each die. -/
def State.members (s : State) (c : Command) : List Command :=
  let l := s.commands.filter fun k => k.status.isNone && c.sameRound k
  (l.filter fun k => (k.own s.endpoint).isSome && !l.any fun j => j.die == k.die && decide (j.handle < k.handle))

/-- A place before another: ascending (EP, DIE). -/
def placeNum (at_ : Nat × Nat) : Nat := at_.1 * 8 + at_.2

/-- Messages in ascending (EP, DIE), the first of each place. -/
def inOrder (l : List PartyMsg) : List PartyMsg :=
  sortBy (fun m => placeNum (msgPlace m))
    (l.foldl (fun r m => if r.any fun x => msgPlace x == msgPlace m then r else r ++ [m]) [])

/-- The messages of a round, in ascending (EP, DIE). -/
def State.messages (s : State) (l : List Command) : List PartyMsg :=
  inOrder (l.filterMap (·.own s.endpoint) ++ (l.flatMap (·.others)).filter fun m => m.ep != s.endpoint && !m.ran)

/-- How the parties of a round have run, in ascending (EP, DIE). -/
def State.runs (s : State) (l : List Command) : List PartyMsg :=
  inOrder (l.filterMap (·.ownRun s.endpoint) ++ (l.flatMap (·.others)).filter fun m => m.ep != s.endpoint && m.ran)

/-- A list of entries as places. -/
def placesOf (l : List PartEntry) : List (Nat × Nat) := l.map fun e => (e.ep, e.die)

/-- The partition some message of a round knows. -/
def knownParts (l : List PartyMsg) : Option (List PartEntry) :=
  (l.find? fun m => m.parts != []).map fun m => m.parts.map partOf

/-- The new partition of an MMIGR round. -/
def newParts (k : CmdKind) (l : List PartyMsg) : List PartEntry :=
  if k = .mmigr then partsOf (((l.find? fun m => m.same != []).map (·.same)).getD []) else []

/-- The parties of a round (R245), as far as its messages tell. -/
def partiesOf (k : CmdKind) (l : List PartyMsg) : List (Nat × Nat) :=
  sortBy placeNum (firsts (placesOf ((knownParts l).getD []) ++ placesOf (newParts k l)))

/-- The parties that have not arrived. -/
def missing (k : CmdKind) (l : List PartyMsg) : List (Nat × Nat) :=
  (partiesOf k l).filter fun x => !l.any fun m => msgPlace m == x

/-- The round can end: its partition is known and every party has arrived. -/
def roundFull (k : CmdKind) (l : List PartyMsg) : Bool := (knownParts l).isSome && missing k l == []

/-- A party as DETAIL names it (R244). -/
def partyDetail (m : PartyMsg) : Nat := placeNum (msgPlace m)

/-- The generation of a party that holds the mesh in another generation than the lowest holder. -/
def staleAmong (l : List PartyMsg) : Option Nat :=
  let held := l.filter fun m => m.gen != 0 && m.code == 0
  (held.find? fun m => (held.head?.map (·.gen)) != some m.gen).map (·.gen)

/-- The lowest party that disagrees with the lowest (R245), among those that pass their checks at the start. -/
def mismatchAmong (l : List PartyMsg) : Option PartyMsg :=
  match l.filter (·.code == 0) with
  | [] => none
  | x :: rest => rest.find? fun m => m.count != x.count || m.param != x.param || m.same != x.same

/-- The status of a party of a full round before its result is computed (R465): the checks at its start, STALE, MISMATCH, and then
what it met as it read its inputs; code 0 when it has succeeded so far. -/
def partyStatus (l : List PartyMsg) (m : PartyMsg) : Nat × Nat :=
  if m.code ≠ 0 then (m.code, m.detail)
  else match staleAmong l with
  | some g => (6, g)
  | none =>
    match mismatchAmong l with
    | some x => (12, partyDetail x)
    | none => (m.rcode, m.rdetail)

/-- The status that ends a full round before its result is computed: that of the lowest party whose own is not OK (R245); none when
every party succeeds so far. -/
def roundStatus (l : List PartyMsg) : Option (Nat × Nat) := (l.map (partyStatus l)).find? fun x => x.1 != 0

/-! ## MREFINE and MCOARSEN (R248, R249) -/

/-- The mark of a leaf, as its owner brought it. -/
def markOf (m : Mesh) (l : List PartyMsg) (a : Leaf) : Nat :=
  let own := m.placeOf m.cur a
  match l.find? fun x => msgPlace x == own with
  | some x => ((x.data.headD []).getD ((m.owned m.cur own).idxOf a) 0).toNat
  | none => 0

/-- A mark that MREFINE keeps: neither its leaf nor a leaf that its balanced closure refines is fixed. -/
def Mesh.keeps (m : Mesh) (a : Leaf) : Bool := !m.fixed a && (m.closure (m.split (· == a) m.cur.leaves)).isSome

/-- The leaves a refine makes. -/
def Mesh.refined (m : Mesh) (l : List PartyMsg) : List Leaf :=
  let marked := m.cur.leaves.filter fun a => markOf m l a == 1 && m.keeps a
  (m.closure (m.split (marked.contains ·) m.cur.leaves)).getD m.cur.leaves

/-- The marks of a place that a refine drops. -/
def Mesh.dropped (m : Mesh) (l : List PartyMsg) (own : Nat × Nat) : Nat :=
  ((m.owned m.cur own).filter fun a => markOf m l a == 1 && !m.keeps a).length

/-- The parent of a leaf below a root. -/
def Leaf.parent (a : Leaf) : Option Leaf := if a.path = [] then none else some { a with path := a.path.dropLast }

/-- MCOARSEN merges the family below a cell (R248). -/
def Mesh.merges (m : Mesh) (l : List PartyMsg) (p : Leaf) : Bool :=
  let kids := m.children p
  kids.all (fun a => m.cur.leaves.contains a && markOf m l a == 2 && m.placeOf m.cur a == m.placeOf m.cur (kids.headD p))
    && kids.all fun a => (faceNeighbours m.coarse m.cur.leaves a).all fun b => decide (b.path.length ≤ a.path.length)

/-- The leaves a coarsening makes. -/
def Mesh.coarsened (m : Mesh) (l : List PartyMsg) : List Leaf :=
  let parents := firsts (m.cur.leaves.filterMap fun a =>
    match a.parent with
    | some p => if m.merges l p then some p else none
    | none => none)
  m.curve (parents ++ m.cur.leaves.filter fun a =>
    match a.parent with
    | some p => !parents.contains p
    | none => true)

/-- The child numbers of a family, in key order. -/
def Mesh.codes (m : Mesh) (p : Leaf) : List Nat := (m.children p).map fun a => a.path.getLastD 0

/-- The number of an old cell on a place; one it does not hold has none, and takes a free number (R7). -/
def oldNumber (s : State) (cells : List Leaf) (a : Leaf) : Nat :=
  if cells.contains a then cells.idxOf a else (s.free 28).toNat

/-- The remap record that begins at new owned cell number `dst`, if one does: a copy, the first child of a split that the place
owns whole, or a merge. A child of a family split between places is a copy of its parent. -/
def Mesh.remapAt (m : Mesh) (s : State) (cells : List Leaf) (now : List Leaf) (dst : Nat) (a : Leaf) : Option Remap :=
  let kind := kindOf m.coarse a.tree
  if m.cur.leaves.contains a then some (.copy dst (oldNumber s cells a))
  else match (m.children a).head? with
  | some c =>
    if m.cur.leaves.contains c then
      some { op := 2, dst := dst, src := oldNumber s cells c, cpos := m.codes a, kind := kind, count := 1 }
    else match a.parent with
    | none => none
    | some p =>
      if !(m.children p).all (now.contains ·) then some (.copy dst (oldNumber s cells p))
      else if (m.children p).head? = some a then
        some { op := 1, dst := dst, src := oldNumber s cells p, cpos := m.codes p, kind := kind, count := 1 }
      else none
  | none => none

/-- The remap records of a place (R249). -/
def Mesh.remaps (m : Mesh) (s : State) (t : Topo) (own : Nat × Nat) : List Remap :=
  let now := m.owned t own
  joinRuns ((now.zip (List.range now.length)).filterMap fun x => m.remapAt s (m.locals m.cur own) now x.2 x.1)

/-- What a party's command leaves: its product, and the mesh and topology it prepares. -/
structure PartyEnd where
  product : Product
  topo : Option (Mesh × Topo)

/-- A topology prepared, with its header and remap records reported. -/
def prepareTopo (c : Command) (m : Mesh) (t : Topo) (recs : List Remap) (aux : Nat) (s : State) :
    Except EngStop (PartyEnd × State) := do
  let own := (s.endpoint, c.die)
  s.capacity m t own
  let (h, s1) := s.header m t own recs.length aux
  let (w, s2) ← s1.report c.party (Block.of c.block) (h ++ recs.flatMap Remap.words)
  .ok ({ product := .ofShades w, topo := some (m, t) }, s2)

/-- A refine, a coarsening or a build ends on one die. -/
def refineEnd (c : Command) (l : List PartyMsg) (s : State) : Except EngStop (PartyEnd × State) := do
  let own := (s.endpoint, c.die)
  if (Block.of c.block).build c.kind then
    let (r, s1) ← s.parseMesh c.party c.launch c.record true
    let m := meshOf r.r r.coarse c.die c.ctx c.launch
    match m.closure (m.curve r.leaves) with
    | none => .error (.code 1 0x38)
    | some leaves => prepareTopo c m { gen := 1, leaves := leaves, parts := r.parts } [] 0 s1
  else
    let m ← s.heldMesh c
    let t : Topo :=
      { gen := m.cur.gen + 1, leaves := if c.kind = .mcoarsen then m.coarsened l else m.refined l, parts := m.cur.parts }
    prepareTopo c m t (m.remaps s t own) (if c.kind = .mcoarsen then 0 else m.dropped l own) s.spend

/-! ## MCUT (R254) -/

/-- The weight of a leaf, as its owner brought it. -/
def weightOf (m : Mesh) (l : List PartyMsg) (a : Leaf) : Nat :=
  let own := m.placeOf m.cur a
  match l.find? fun x => msgPlace x == own with
  | some x => field (x.data.getD ((m.owned m.cur own).idxOf a) []) 0 4
  | none => 0

/-- The part of each leaf: `sum` is the weight of the leaves before it. -/
def cutParts (k w : Nat) (sum : Nat) : List (Leaf × Nat) → List (Leaf × Nat)
  | [] => []
  | (a, x) :: l => (a, min (k - 1) (sum * k / w)) :: cutParts k w (sum + x) l

/-- The partition entries of the parts that receive a leaf (R254). -/
def Mesh.cutTable (m : Mesh) (list : List PartEntry) (l : List (Leaf × Nat)) : List PartEntry :=
  (list.zip (List.range list.length)).filterMap fun x =>
    (l.find? fun a => a.2 == x.2).map fun a => { x.1 with first := m.keyOf a.1 }

/-- MCUT ends on one die. -/
def cutEnd (c : Command) (l : List PartyMsg) (s : State) : Except EngStop (PartyEnd × State) := do
  let m ← s.heldMesh c
  let own := (s.endpoint, c.die)
  let b := Block.of c.block
  let ws := m.cur.leaves.map (weightOf m l)
  let w := ws.sum
  let parts := if w = 0 then cutParts b.count m.cur.leaves.length 0 (m.cur.leaves.map fun a => (a, 1))
    else cutParts b.count w 0 (m.cur.leaves.zip ws)
  let table := m.cutTable (partsOf ((l.head?.map (·.same)).getD [])) parts
  let (h, s1) := s.header m m.cur own table.length (w % 2 ^ 64)
  let (x, s2) ← s1.report c.party b (h ++ table.map PartEntry.word)
  .ok ({ product := .ofShades x, topo := none }, s2)

/-! ## MMIGR and MGHOST (R255, R256) -/

/-- The words of a cell of a field, as the cell's owner in topology `t` brought them. -/
def cellWords (m : Mesh) (t : Topo) (l : List PartyMsg) (k bytes : Nat) (a : Leaf) : List Nat :=
  let own := m.placeOf t a
  let i := (m.owned t own).idxOf a
  let data := match l.find? fun x => msgPlace x == own with
    | some x => x.data.getD k []
    | none => []
  (List.range (bytes / 8)).map fun j => field data (i * bytes + 8 * j) 8

/-- Fields from number `k`: the words of a list of cells, written from cell number `first` of the address `base` gives. -/
def moveFields (c : Command) (m : Mesh) (t : Topo) (l : List PartyMsg) (cells : List Leaf) (first : Nat)
    (base : FieldEntry → Word) (s : State) (k : Nat) : List FieldEntry → Except EngStop (List Shade × State)
  | [] => .ok ([], s)
  | f :: rest => do
    let (x, s1) ← s.shadeWords c.party (base f + BitVec.ofNat 64 (first * f.bytes)) (cells.flatMap (cellWords m t l k f.bytes))
    let (y, s2) ← moveFields c m t l cells first base s1 (k + 1) rest
    .ok (x ++ y, s2)

/-- The launch that built a mesh, as far as a die of this package holds it; else that of the command (R246; log 64). -/
def State.builder (s : State) (c : Command) (id : Nat) : Nat :=
  ((s.meshes.find? fun m => m.id == id && m.cur.gen != 0).map (·.launch)).getD c.launch

/-- The mesh of an MMIGR party: as its die holds it, or as its record and a holder's message give it. -/
def migrMesh (c : Command) (l : List PartyMsg) (s : State) : Except EngStop (Mesh × State) :=
  match c.mesh with
  | some m => .ok (m, s)
  | none => do
    let (r, s1) ← s.parseMesh c.party c.launch c.record false
    let t := ((l.find? fun x => x.gen != 0).map msgTopo).getD { gen := 0, leaves := [], parts := [] }
    .ok ({ meshOf r.r r.coarse c.die c.ctx (s.builder c r.r.id) with cur := t }, s1)

/-- MMIGR ends on one die. -/
def migrEnd (c : Command) (l : List PartyMsg) (s : State) : Except EngStop (PartyEnd × State) := do
  let own := (s.endpoint, c.die)
  let (m, s1) ← migrMesh c l s
  let t : Topo := { gen := m.cur.gen + 1, leaves := m.cur.leaves, parts := newParts .mmigr l }
  let cells := m.owned t own
  let recs := if cells = [] then [] else [{ Remap.copy 0 0 with count := cells.length }]
  let (fs, s2) ← s1.readFields c
  let (x, s3) ← moveFields c m m.cur l cells 0 (·.dst) s2 0 fs
  let (y, s4) ← prepareTopo c m t recs 0 s3
  .ok ({ y with product := .ofShades (y.product.shadow ++ x) }, s4)

/-- MGHOST ends on one die. -/
def ghostEnd (c : Command) (l : List PartyMsg) (s : State) : Except EngStop (PartyEnd × State) := do
  let own := (s.endpoint, c.die)
  let m ← s.heldMesh c
  let (fs, s1) ← s.readFields c
  let (x, s2) ← moveFields c m m.cur l (m.ghosts m.cur own) (m.owned m.cur own).length (·.src) s1 0 fs
  .ok ({ product := .ofShades x, topo := none }, s2)

/-! ## The end of a round -/

/-- What one die's command of a successful round leaves. -/
def partyEnd (c : Command) (l : List PartyMsg) (s : State) : Except EngStop (PartyEnd × State) :=
  match c.kind with
  | .mcut => cutEnd c l s
  | .mmigr => migrEnd c l s
  | .mghost => ghostEnd c l s
  | .mrefine => refineEnd c l s
  | .mcoarsen => refineEnd c l s
  | .cpy => .error (.code 0 0)
  | .mlocate => .error (.code 0 0)
  | .mremap => .error (.code 0 0)
  | .mcolor => .error (.code 0 0)

/-- A pending topology kept on a die (R246); an issuer that has ended keeps none, nor does a die that has lost the mesh. -/
def State.setPending (s : State) (c : Command) (m : Mesh) (t : Topo) : State :=
  if c.settled ∨ (c.mesh.isSome ∧ !s.meshes.any fun x => x.die == c.die && x.id == m.id) then s
  else if s.meshes.any fun x => x.die == c.die && x.id == m.id && x.cur.gen != 0 then
    { s with meshes := s.meshes.map fun x =>
        if x.die == c.die && x.id == m.id && x.cur.gen != 0 then { x with pending := some (c.handle, t) } else x }
  else
    let x := { m with die := c.die, cur := { gen := 0, leaves := [], parts := [] }, pending := some (c.handle, t) }
    { s with meshes := (s.meshes.filter fun y => !(y.die == c.die && y.id == m.id)) ++ [x] }

/-- Messages added to what a command holds: the first of each party, and the first of how it has run. -/
def Command.hear (c : Command) (l : List PartyMsg) : Command :=
  { c with others := c.others ++ l.filter fun m => !c.others.any fun x => msgPlace x == msgPlace m && x.ran == m.ran }

/-- How a command of a round has run, with its code and detail. -/
def State.ranMsg (s : State) (c : Command) (code detail : Nat) : PartyMsg :=
  { s.bareMsg c with leaves := [], parts := [], rcode := code, rdetail := detail, ran := true }

/-- A command of a round that has run keeps its product and its pending topology until the round ends. -/
def State.ranParty (s : State) (c : Command) (x : PartyEnd) : State :=
  let s1 := match x.topo with
    | some (m, t) => s.setPending c m t
    | none => s
  s1.setCommand c.die c.handle fun k =>
    { k.hear [s.ranMsg c 0 0] with
      shadow := if k.settled then [] else x.product.shadow, tags := if k.settled then [] else x.product.tags }

/-- Every command of a round runs, in ascending DIE; one that fails keeps its failure. -/
def runParties (l : List PartyMsg) (s : State) : List Command → Except EngStop State
  | [] => .ok s
  | c :: rest =>
    match partyEnd c l s with
    | .error (.remote owner key ep pa op) => .error (.remote owner key ep pa op)
    | .error (.code code detail) =>
      runParties l (s.setCommand c.die c.handle fun k => k.hear [s.ranMsg c code detail]) rest
    | .ok (x, s1) => runParties l (s1.ranParty c x) rest

/-- One command of a successful round ended. -/
def State.endParty (s : State) (c : Command) : State :=
  match s.command c.die c.handle with
  | some k => s.endCommand c 0 { shadow := k.shadow, tags := k.tags, detail := 0 }
  | none => s

/-- The topology that a command prepared discarded. -/
def State.dropPending (s : State) (c : Command) : State :=
  { s with meshes := s.meshes.map fun m =>
      match m.pending with
      | some (h, _) => if m.die == c.die && h == c.handle then { m with pending := none } else m
      | none => m }

/-- The commands of a round ended in one status; a mesh that one of them found lost is held no more (R244). -/
def State.endAll (s : State) (l : List Command) (code detail : Nat) : State :=
  l.foldl (fun s c =>
    let lost := c.others.any fun m => m.ep == s.endpoint && m.die == c.die && m.rcode == 10
    ((if lost then s.dropMesh c else s).dropPending c).endCommand c (statusWord code detail) (.ofShades [])) s

/-- The answers that the commands of a round have used are forgotten. -/
def State.forgetRound (s : State) (l : List Command) : State := l.foldl (fun s c => s.forgetAnswers (handleOwner c.handle)) s

/-- A later command of the same round key begins the next round. -/
def State.nextRound (s : State) (c : Command) : State :=
  { s with events := s.events ++ (s.commands.filter fun k => k.status.isNone && c.sameRound k).map fun k =>
      endOf k.kind k.die k.handle }

/-- The other packages of a round told a message of one of its parties here; a party that cannot tell its parties tells every package
of its launch. -/
def State.tellParties (s : State) (c : Command) (l : List PartyMsg) (m : PartyMsg) : State :=
  let far := if (knownParts l).isSome then (partiesOf c.kind l).any (·.1 != s.endpoint) else 1 < (s.launchEps c.launch).length
  if far then s.send (.meshParty c.kind (MeshRec.of c.record).id (Block.of c.block).seq m) else s

/-- A round whose parties have all run ends: OK, or with the status of the lowest party that failed (R245). -/
def State.finishRound (s : State) (c : Command) (l : List Command) (ms : List PartyMsg) : State :=
  let rs := s.runs l
  if !(partiesOf c.kind ms).all fun x => rs.any fun m => msgPlace m == x then s
  else match rs.find? fun m => m.rcode != 0 with
  | some m => (s.endAll l m.rcode m.rdetail).nextRound c
  | none => (l.foldl State.endParty s).nextRound c

/-- A full round: its parties here run, tell the others how, and the round ends once every party has run. -/
def State.endRound (s : State) (e : Instr) (c : Command) (l : List Command) (ms : List PartyMsg) : State :=
  match roundStatus ms with
  | some (code, detail) => (s.endAll l code detail).nextRound c
  | none =>
    if l.all fun k => (k.ownRun s.endpoint).isSome then s.finishRound c l ms
    else match runParties ms s (sortBy (·.die) l) with
    | .error (.remote owner key ep pa op) => s.engWait e owner key ep pa op
    | .error (.code _ _) => s
    | .ok s1 =>
      let l1 := s1.members c
      let s2 := (l1.filterMap (·.ownRun s.endpoint)).foldl (fun s m => s.tellParties c ms m) (s1.forgetRound l)
      s2.finishRound c l1 ms

/-- No party but those that have issued can belong to the round of a command: every VLC of its launch is on its die. -/
def State.lonely (s : State) (c : Command) : Bool :=
  (s.launchEps c.launch).length == 1
    && s.vlcs.all fun v => v.launch != c.launch || v.status == .absent || dieOf v.core == c.die

/-- A round looked at again: it ends when it is full. A failed command whose parties no message tells ends alone where no other party
can come, and else waits for one that tells them (log 64); a command whose die is none of the parties ends alone. -/
def State.tryRound (s : State) (e : Instr) (c : Command) : State :=
  let l := s.members c
  let ms := s.messages l
  if !l.any fun k => k.die == c.die && k.handle == c.handle then s
  else match c.own s.endpoint with
  | none => s
  | some m =>
    if knownParts ms = none ∧ m.code ≠ 0 ∧ s.lonely c then (s.endCommand c (statusWord m.code m.detail) (.ofShades [])).nextRound c
    else if (knownParts ms).isSome ∧ !(partiesOf c.kind ms).contains (s.endpoint, c.die) then
      (s.endCommand c (if m.code = 0 then 3 else statusWord m.code m.detail) (.ofShades [])).nextRound c
    else if roundFull c.kind ms then s.endRound e c l ms
    else s

/-- The party of a command arrives in its round, and the round ends if it is now full. -/
def State.collective (s : State) (die h : Nat) (k : CmdKind) (others : List PartyMsg) : State :=
  match s.command die h with
  | none => s
  | some c =>
    if c.kind ≠ k ∨ c.status.isSome then s
    else
      let s1 := s.setCommand die h (·.hear (others.filter fun m => m.ep != s.endpoint))
      if s.frozenCtx c.ctx then s1.holdStep c.ctx (endOf k die h)
      else if (c.own s.endpoint).isSome then s1.tryRound (endOf k die h) (c.hear others)
      else match s1.partyMsg c with
      | .error (.remote owner key ep pa op) => s1.engWait (endOf k die h) owner key ep pa op
      | .error (.code _ _) => s1
      | .ok (m, s2) =>
        let s3 := (s2.forgetAnswers (handleOwner h)).setCommand die h (·.hear [m])
        let c3 := (c.hear (others.filter fun m => m.ep != s.endpoint)).hear [m]
        (s3.tellParties c3 (s3.messages (s3.members c3)) m).tryRound (endOf k die h) c3

/-- A refine or a build ends (R248). -/
def execMrefineEnd (die h : Nat) (others : List PartyMsg) (s : State) : Out := .next (s.collective die h .mrefine others)

/-- A coarsening ends (R248). -/
def execMcoarsenEnd (die h : Nat) (others : List PartyMsg) (s : State) : Out := .next (s.collective die h .mcoarsen others)

/-- A cut ends (R254). -/
def execMcutEnd (die h : Nat) (others : List PartyMsg) (s : State) : Out := .next (s.collective die h .mcut others)

/-- A migration ends (R255). -/
def execMmigrEnd (die h : Nat) (others : List PartyMsg) (s : State) : Out := .next (s.collective die h .mmigr others)

/-- A ghost exchange ends (R256). -/
def execMghostEnd (die h : Nat) (others : List PartyMsg) (s : State) : Out := .next (s.collective die h .mghost others)

/-- A party has not arrived TMO after the first one's issue: every party that has ends with TIMEOUT, naming the lowest missing
party (R245). Where no message tells the parties, a party that failed its checks ends with that failure, and another names a party
that the package does not know: a free value (R7; log 64). -/
def execMeshCollectiveTimeout (die h : Nat) (s : State) : Out :=
  .next (match s.command die h with
    | none => s
    | some c =>
      let l := s.members c
      let ms := s.messages l
      if c.status.isSome ∨ !c.kind.collective ∨ s.frozenCtx c.ctx ∨ roundFull c.kind ms then s
      else match missing c.kind ms with
      | x :: _ => (s.endAll l 11 (placeNum x)).nextRound c
      | [] =>
        match ms.find? fun m => m.code != 0 with
        | some m => (s.endAll l m.code m.detail).nextRound c
        | none => (s.spend.endAll l 11 (s.free 16).toNat).nextRound c)

end Sys2Proof.Machine
end

