-- ==== Sys2Proof/Machine/Translation.lean ====
section
/-! DEFINITION. TLBINV: invalidating translations (R297, R298). -/

namespace Sys2Proof.Machine

/-- TLBINV's VA as an address. -/
def Die.invVa (d : Die) : Word := (d.tlbinvVa ++ 0#16).signExtend 64

/-- log2 of the page size of a KIND. -/
def kindSize (k : BitVec 3) : Nat := if k = 1 then 16 else if k = 2 then 21 else 30

/-- An address lies in the page of log2 size `size` that holds `va`. -/
def samePage (size : Nat) (va a : Word) : Bool := va.toNat / 2 ^ size == a.toNat / 2 ^ size

/-- A cached translation that the invalidation of a die's fields removes: of the context, and for a page one that overlaps it. -/
def Die.removes (d : Die) (e : TlbEntry) : Bool :=
  if d.tlbinvKind = 4 then true
  else if 5 ≤ d.tlbinvKind then false
  else e.ctx == d.tlbinvCtx.toNat &&
    (d.tlbinvKind == 0 ||
      let size := max e.size (kindSize d.tlbinvKind)
      e.vpn / 2 ^ (size - e.size) == d.invVa.toNat / 2 ^ size)

/-- The translations removed from the die's TLB and from those of its cores. -/
def State.invalidate (s : State) (die : Nat) : State :=
  let d := s.die die
  let s1 := s.setDie die fun x => { x with tlb := x.tlb.filter fun e => !d.removes e }
  (List.range 128).foldl (fun s k => s.setCore (128 * die + k) fun c => { c with tlb := c.tlb.filter fun e => !d.removes e }) s1

/-- A write to TLBINV (R297). -/
def State.writeTlbinv (s : State) (die : Nat) (x : Word) : State :=
  if (s.die die).tlbinvBusy then s
  else
    let s1 := s.setDie die fun d =>
      { d with
        tlbinvBusy := true, tlbinvKind := x.extractLsb' 60 3, tlbinvVa := x.extractLsb' 16 41,
        tlbinvCtx := x.extractLsb' 0 12 }
    (s1.invalidate die).due (.tlbinvDone die)

/-- The KIND that a write to TLBINV carries. -/
def invKind (x : Word) : BitVec 3 := x.extractLsb' 60 3

/-- A write to TLBINV of KIND 0 (R298). -/
def execTlbinvContext (die : Nat) (x : BitVec 64) (s : State) : Out :=
  .next (if invKind x = 0 then s.writeTlbinv die x else s)

/-- A write to TLBINV of KIND 1 to 3 (R298). -/
def execTlbinvPage (die : Nat) (x : BitVec 64) (s : State) : Out :=
  .next (if 1 ≤ invKind x ∧ invKind x ≤ 3 then s.writeTlbinv die x else s)

/-- A write to TLBINV of KIND 4 (R298). -/
def execTlbinvAll (die : Nat) (x : BitVec 64) (s : State) : Out :=
  .next (if invKind x = 4 then s.writeTlbinv die x else s)

/-- The invalidation concerns a context. -/
def Die.concerns (d : Die) (ctx : Nat) : Bool :=
  d.tlbinvKind == 4 || (decide (d.tlbinvKind < 4) && d.tlbinvCtx.toNat == ctx)

/-- The translations of a VLC are ones that the invalidation may have removed. -/
def State.affects (s : State) (die core ctx : Nat) : Bool := dieOf core == die && (s.die die).concerns ctx

/-- A VLC of the die has an access under way at another endpoint, or an append whose LEN has advanced, under a translation that may have
been removed. -/
def State.holdsAccess (s : State) (die : Nat) (v : Vlc) : Bool :=
  v.status != .absent && s.affects die v.core v.ctx && (v.stores != [] || v.awaited != [] || v.append.isSome)

/-- An engine step that waits for another endpoint holds a translation: the command or transfer that its party number names, or any
other engine, which may. -/
def State.holdsEngine (s : State) (die owner : Nat) : Bool :=
  owner % 2 == 1
    || (s.commands.any fun c => handleOwner c.handle == owner && c.die == die && (s.die die).concerns c.ctx)
    || s.transfers.any fun t => handleOwner t.handle == owner && t.die == die && (s.die die).concerns t.ctx

/-- A command has translated its target and not yet published or discarded its shadow. -/
def State.holdsShadow (s : State) (die : Nat) (c : Command) : Bool :=
  c.die == die && (s.die die).concerns c.ctx && (c.shadow != [] || c.tags != [])

/-- A COLL round has translated its DST and not yet published it. -/
def State.holdsRound (s : State) (die : Nat) (x : Round) : Bool :=
  x.targets != [] && s.vlcs.any fun v =>
    v.status != .absent && v.launch == x.launch && v.rank.toNat == x.rank && s.affects die v.core v.ctx

/-- A sub-query that holds a removed translation has not completed (R265). -/
def State.holdsQuery (s : State) (die : Nat) (q : SubQuery) : Bool :=
  let d := s.die die
  q.die == die && q.triple.isNone && d.concerns q.ctx
    && (d.tlbinvKind == 0 || d.tlbinvKind == 4 || q.vas.any fun a => samePage (max 21 (kindSize d.tlbinvKind)) d.invVa (untag a))

/-- Something still uses a translation that the die's invalidation may have removed (R298). -/
def State.holdsAny (s : State) (die : Nat) : Bool :=
  s.vlcs.any (s.holdsAccess die) || s.subqueries.any (s.holdsQuery die)
    || (s.vlcs.any fun v => v.queuedQ.any (s.holdsQuery die))
    || (s.engineWaits.any fun x => s.holdsEngine die x.2.1)
    || (s.orphans.any fun x => x.2.2.1 == die)
    || s.commands.any (s.holdsShadow die)
    || s.rings.any fun g => g.round.any (s.holdsRound die)

/-- BUSY clears once the affected accesses, sub-queries and appends have finished (R298). -/
def execTlbinvDone (die : Nat) (s : State) : Out :=
  .next (if s.holdsAny die then s else s.setDie die fun d => { d with tlbinvBusy := false })

end Sys2Proof.Machine
end

