-- ==== Sys2Proof/Machine/Pilot.lean ====
section
/-! DEFINITION. The Pilot's commands (R383-R385, R390, R391), reset and bring-up (R381, R385, R388), islands and capping (R386, R387),
and the host's accesses (R375, R376). -/

namespace Sys2Proof.Machine

/-! ## The Pilot's accesses to DRAM -/

/-- `n` bytes from a physical address lie in this package's DRAM. -/
def State.ownDram (s : State) (pa n : Nat) : Bool :=
  epOf pa == s.endpoint && windowOf pa == 0 && decide (pa % 2 ^ 37 + n ≤ 2 ^ 37) && decide (pa < 2 ^ 56)

/-- The units that `n` bytes from `pa` touch, counted as accesses (R287); `k` bounds them. -/
def State.countUnits (s : State) (pa n : Nat) : Nat → State
  | 0 => s
  | k + 1 =>
    let u := unitBytes (s.region pa).gr
    let step := pa / u * u + u - pa
    if n = 0 then s else (s.count pa).countUnits (pa + step) (n - step) k

/-- Bytes of this package's DRAM as the Pilot reads them. -/
def State.pilotRead (s : State) (pa n : Nat) : List Byte × State := (s.mem.bytes (dramKey pa) n, s.countUnits pa n (n / 32 + 2))

/-- Bytes written by the Pilot, and what follows the write. -/
def State.pilotWrite (s : State) (pa : Nat) (l : List Byte) : State :=
  (s.setDramBytes pa l).wroteLines (pa / 64 * 64) (l.length / 64 + 2)

/-- The Pilot's state changed. -/
def State.setPilot (s : State) (f : Pilot → Pilot) : State := { s with pilot := f s.pilot }

/-- The ERR bit of PMSTAT set. -/
def State.pilotErr (s : State) : State := s.setPilot fun p => { p with pmerr := true }

/-- The bytes of a bit vector, the lowest first. -/
def bytesOfBits {w : Nat} (n : Nat) (x : BitVec w) : List Byte := bytesOf n x.toNat

/-! ## Commands (R383) -/

/-- IDKEY (R380). -/
def State.idKey (s : State) (pa : Nat) : State :=
  if s.ownDram pa 1952 then s.pilotWrite pa (bytesOfBits 1952 Config.publicKey) else s.pilotErr

/-- A firewall range as a report carries it (R391 Table 12). -/
def FwRange.word (r : FwRange) : Word :=
  flagAt r.w 49 ||| flagAt r.r 48 ||| fieldAt (r.limit / 65536 % 2 ^ 24) 24 ||| fieldAt (r.base / 65536 % 2 ^ 24) 0

/-- The bitmap of loaded key slots. -/
def keyMap (l : List (Nat × Nat)) : Nat := (List.range 256).foldl (fun m k => m + if l.any (·.1 == k) then 2 ^ k else 0) 0

/-- The measurement of the boot image (R384). -/
def Pilot.measurement (p : Pilot) : BitVec 512 :=
  match p.image with
  | none => Config.factoryMeasurement
  | some l => Config.shake256 l

/-- Bytes 0x000 to 0x1FF of a report (R391 Table 12). -/
def State.reportHead (s : State) (nonce : List Byte) : List Byte :=
  bytesOf 4 0x54544150 ++ bytesOf 2 1 ++ bytesOf 2 0 ++ bytesOf 8 mgmtid.toNat ++ bytesOfBits 16 Config.deviceNumber ++ nonce
    ++ bytesOfBits 64 s.pilot.measurement ++ s.pilot.ranges.toList.flatMap (fun r => bytesOf 8 r.word.toNat)
    ++ bytesOf 32 (keyMap s.pilot.keys) ++ bytesOf 224 0

/-- ATTEST (R384, R391). -/
def State.attest (s : State) (pa : Nat) : State :=
  if s.ownDram pa (64 + 4096) then
    let (nonce, s1) := s.pilotRead pa 32
    let h := s.reportHead nonce
    s1.pilotWrite (pa + 64) (h ++ bytesOfBits 3309 (Config.sign h) ++ bytesOf 275 0)
  else s.pilotErr

/-- KEYSET: a fresh key in a slot, on every die. -/
def State.keySet (s : State) (slot : Nat) : State :=
  if 255 < slot then s.pilotErr
  else s.setPilot fun p => { p with keys := (slot, p.nextKey) :: p.keys.filter (·.1 != slot), nextKey := p.nextKey + 1 }

/-- KEYCLR. -/
def State.keyClear (s : State) (slot : Nat) : State :=
  if 255 < slot then s.pilotErr else s.setPilot fun p => { p with keys := p.keys.filter (·.1 != slot) }

/-- A range record that R390 allows. -/
def rangeOk (r : List Byte) : Bool :=
  let base := field r 8 8
  let limit := field r 16 8
  decide (field r 0 1 < 16) && decide (field r 1 1 < 4) && allZero r 2 6 && allZero r 0x18 8 && base % 65536 == 0
    && limit % 65536 == 0 && decide (base ≤ limit) && decide (limit < 2 ^ 40)
    && (decide (limit + 65536 ≤ Config.pilotBase) || decide (Config.pilotBase + Config.pilotSize.val ≤ base))

/-- FWSET (R390). -/
def State.fwSet (s : State) (pa : Nat) : State :=
  if !s.ownDram pa 32 then s.pilotErr
  else
    let (r, s1) := s.pilotRead pa 32
    if rangeOk r then
      let x : FwRange := { r := field r 1 1 % 2 == 1, w := field r 1 1 / 2 == 1, base := field r 8 8, limit := field r 16 8 }
      s1.setPilot fun p => { p with ranges := p.ranges.setIfInBounds (field r 0 1) x }
    else s1.pilotErr

/-- UPDATE up to the write of the slot (R385). -/
def State.update (s : State) (pa : Nat) : State :=
  let n := min Config.imageBytes (2 ^ 26)
  if !s.ownDram pa n then s.pilotErr
  else
    let (l, s1) := s.pilotRead pa n
    if Config.verify l then s1.setPilot fun p => { p with staged := some l } else s1.pilotErr

/-- The effect of a command; an unknown code sets ERR. -/
def State.pilotDo (s : State) (code : Nat) (x : Word) : State :=
  if code = 1 then s.idKey x.toNat
  else if code = 2 then s.attest x.toNat
  else if code = 3 then s.keySet x.toNat
  else if code = 4 then s.keyClear x.toNat
  else if code = 5 then s.fwSet x.toNat
  else if code = 6 then s.update x.toNat
  else s.pilotErr

/-- A write to PMCMD (R383). In recovery mode only IDKEY, ATTEST and UPDATE are accepted (R385). -/
def State.pilotStart (s : State) (code : Nat) : State :=
  if s.pilot.pmbusy then s
  else
    let s1 := s.setPilot fun p => { p with pmcmd := code, pmbusy := true }
    let allowed := s1.pilot.boot ≠ 4 ∨ code = 1 ∨ code = 2 ∨ code = 6
    (if allowed then s1.pilotDo code s1.pilot.pmarg else s1.pilotErr).due .pmcmdDone

/-- PMARG written, and then PMCMD. -/
def State.pilotRun (s : State) (code : Nat) (x : Word) : State := (s.setPilot fun p => { p with pmarg := x }).pilotStart code

/-- Pilot command IDKEY. -/
def execIdkey (x : BitVec 64) (s : State) : Out := .next (s.pilotRun 1 x)

/-- Pilot command ATTEST. -/
def execAttest (x : BitVec 64) (s : State) : Out := .next (s.pilotRun 2 x)

/-- Pilot command KEYSET. -/
def execKeyset (x : BitVec 64) (s : State) : Out := .next (s.pilotRun 3 x)

/-- Pilot command KEYCLR. -/
def execKeyclr (x : BitVec 64) (s : State) : Out := .next (s.pilotRun 4 x)

/-- Pilot command FWSET. -/
def execFwset (x : BitVec 64) (s : State) : Out := .next (s.pilotRun 5 x)

/-- Pilot command UPDATE. -/
def execUpdate (x : BitVec 64) (s : State) : Out := .next (s.pilotRun 6 x)

/-- A command ends (R383); an UPDATE has then written its slot, and the package resets (R385). -/
def execPmcmdDone (s : State) : Out :=
  let s1 := s.setPilot fun p => { p with pmbusy := false }
  .next (match s1.pilot.staged with
    | none => s1
    | some l => (s1.setPilot fun p => { p with image := some l, staged := none, flashValid := true }).due .packageReset)

/-- A write to PBOOT (R385). -/
def State.writePboot (s : State) (x : Word) : State :=
  s.setPilot fun p => { p with rreq := p.rreq || x.getLsbD 63 }

/-- PBOOT.RREQ. -/
def execPbootRreq (x : BitVec 64) (s : State) : Out := .next (s.writePboot x)

/-! ## Reset and bring-up (R385, R388) -/

/-- A core after reset: its fuses stay, and LCEN is NOT FUSED (R63). -/
def Core.restart (c : Core) : Core := { Core.reset with fused := c.fused, lcen := ~~~c.fused, lremap := c.lremap }

/-- What outlives a reset: the package's place in its pod, the Beacon, the fuses and the flash. -/
def State.restart (s : State) : State :=
  { State.reset with
    freeCtr := s.freeCtr
    endpoint := s.endpoint
    cores := s.cores.foldl (fun l c => put Core.reset c.1 c.2.restart l) []
    planes := s.planes
    peers := s.peers
    nextReq := s.nextReq
    outbox := s.outbox
    beacon := s.beacon
    pilot := { Pilot.reset with
      rreq := s.pilot.rreq, nextKey := s.pilot.nextKey, flashValid := s.pilot.flashValid, image := s.pilot.image } }

/-- Bring-up after one of its first steps (R388 Table 8): the step, PBOOT.STATE, and the next step falls due. -/
def State.bringUp (s : State) (step boot : Nat) : State :=
  (s.setPilot fun p => { p with step := step, boot := boot }).due .packageReset

/-- Reset is released, and the steps of bring-up follow in turn (R388 Table 8): 1 the ROM; 2 the fuses are read; 3 all DRAM is formatted,
STATE 1; 4 the image is read and its verification begins, STATE 2. A package that has come further starts afresh; a reset during the
first steps is one with them (DESIGN CHOICE, log 52). -/
def execPackageReset (s : State) : Out :=
  .next (match s.pilot.step with
    | 1 => s.bringUp 2 0
    | 2 => s.bringUp 3 1
    | 3 => s.setPilot fun p => { p with step := 4, boot := 2 }
    | _ => s.restart.bringUp 1 0)

/-- The image of the flash slot passes verification (R381). -/
def Pilot.verifies (p : Pilot) : Bool :=
  p.flashValid && match p.image with
    | none => Config.factoryVerifies
    | some l => Config.verify l

/-- The physical address of a BAR 4 offset (R390: the offsets of firewall ranges and of the reserved DRAM too). -/
def State.barAddr (s : State) (off : Nat) : Nat := s.endpoint * 2 ^ 43 + off / 2 ^ 37 % 8 * 2 ^ 40 + off % 2 ^ 37

/-- The supervisor and the firmware load into reserved DRAM (R388 Table 8, step 5). -/
def State.loadFirmware (s : State) : State :=
  s.pilotWrite (s.barAddr Config.pilotBase) ((Config.firmware s.pilot.image).take Config.pilotSize.val)

/-- Verification ends (R381, R388): the supervisor loads and the package runs, or it enters recovery mode. -/
def execBootImageVerified (s : State) : Out :=
  .next (if s.pilot.boot ≠ 2 then s
    else if s.pilot.rreq ∨ !s.pilot.verifies then s.setPilot fun p => { p with boot := 4, rreq := false }
    else s.loadFirmware.setPilot fun p => { p with step := 6, boot := 3 })

/-- The supply is lost: all but the fuses and the flash is lost, and a slot that was being written is invalid (R385). -/
def execPowerLoss (s : State) : Out :=
  let valid := s.pilot.flashValid && s.pilot.staged.isNone
  .next (s.restart.setPilot fun p => { p with rreq := false, flashValid := valid })

/-! ## Islands (R386, R387) -/

/-- Island `k` of a die. -/
def State.island (s : State) (die k : Nat) : Island :=
  if k % 2 = 0 then (s.die die).islands[0] else (s.die die).islands[1]

/-- Island `k` of a die changed. -/
def State.setIsland (s : State) (die k : Nat) (f : Island → Island) : State :=
  s.setDie die fun d => { d with islands := d.islands.setIfInBounds (k % 2) (f (s.island die k)) }

/-- A core belongs to island `k` of a die. -/
def inIsland (die k core : Nat) : Bool := dieOf core == die && core % 128 / 64 == k % 2

/-- The island holds a resident VLC or an unfinished command. -/
def State.islandBusy (s : State) (die k : Nat) : Bool :=
  (s.vlcs.any fun v => v.status.resident && inIsland die k v.core)
    || s.commands.any fun c => c.status.isNone && inIsland die k c.core

/-- The step a request acts as. -/
def effectiveStep (req : Nat) : Nat := if req = 0 then 0 else if req < 6 then 6 else min req 21

/-- A write to ISLCTL (R386). -/
def State.writeIslctl (s : State) (die k : Nat) (x : Word) : State :=
  let req := bitsOf x.toNat 7 0
  if req = 0 ∧ (k % 2 = 0 ∨ s.islandBusy die k) then s
  else (s.setIsland die k fun i => { i with req := req, busy := true }).due (.islandChangeDone die k)

/-- A request of an island's clock step. -/
def execIslctlWrite (die k : Nat) (x : BitVec 64) (s : State) : Out := .next (s.writeIslctl die k x)

/-- The lower limits that answer an overcurrent have taken effect: no island's clock is still changing (R387). -/
def State.limitsHold (s : State) : Bool :=
  s.pilot.lowered && [0, 1, 2, 3, 4, 5, 6, 7].all fun d => !(s.island d 0).busy && !(s.island d 1).busy

/-- A clock change completes: CUR is the lesser of the request and the Pilot's limit. -/
def execIslandChangeDone (die k : Nat) (s : State) : Out :=
  let s1 := s.setIsland die k fun i => { i with cur := min (effectiveStep i.req) i.lim, busy := false }
  .next (if s1.limitsHold then s1.setPilot fun p => { p with overcurrent := false, lowered := false } else s1)

/-- The average of a list of samples, rounded down (DESIGN CHOICE, log 60). -/
def average (l : List (BitVec 16)) : BitVec 16 := BitVec.ofNat 16 ((l.map (·.toNat)).foldl (· + ·) 0 / l.length)

/-- A sample of the package's power: PWR is the average of the ten of the last 100 µs (R387). -/
def execPowerSample (w : BitVec 16) (s : State) : Out :=
  .next (s.setPilot fun p =>
    let l := (w :: p.samples).take 10
    { p with samples := l, pwr := average l })

/-- Every island's limit changed. -/
def State.moveLimits (s : State) (f : Nat → Nat) : State :=
  [0, 1, 2, 3, 4, 5, 6, 7].foldl (fun s d => [0, 1].foldl (fun s k =>
    (s.setIsland d k fun i => { i with lim := f i.lim, busy := true }).due (.islandChangeDone d k)) s) s

/-- While PWR exceeds LIMIT every limit drops one step (R387), to 6 at the least. -/
def execLimStepDown (s : State) : Out :=
  .next (if s.pilot.limit.toNat < s.pilot.pwr.toNat then
      (s.setPilot fun p => { p with lowered := p.overcurrent }).moveLimits fun n => max 6 (n - 1)
    else s)

/-- Once PWR has stayed below 95 % of LIMIT for 1 ms every limit rises one step (R387). -/
def execLimStepUp (s : State) : Out :=
  .next (if 100 * s.pilot.pwr.toNat < 95 * s.pilot.limit.toNat then s.moveLimits fun n => min 21 (n + 1) else s)

/-- A core-rail current above 7500 A halves every island's clock until the Pilot's lower limits take effect (R387). -/
def execRailOvercurrent (s : State) : Out := .next (s.setPilot fun p => { p with overcurrent := true, lowered := false })

/-! ## The host (R375, R376, R388) -/

/-- A BAR 4 offset lies in the Pilot's reserved DRAM (R376). -/
def inReserved (off : Nat) : Bool := decide (Config.pilotBase ≤ off) && decide (off < Config.pilotBase + Config.pilotSize.val)

/-- The firewall lets a host access through at a BAR 4 offset; in recovery mode, only in the first 64 MiB of die 0 (R385). -/
def State.passes (s : State) (write : Bool) (off : Nat) : Bool :=
  !inReserved off &&
    if s.pilot.boot = 4 then decide (off < 2 ^ 26)
    else s.pilot.boot == 3 && decide (off < 2 ^ 40) && s.pilot.ranges.toList.any fun r =>
      (if write then r.w else r.r) && decide (r.base ≤ off) && decide (off < r.limit + 65536)

/-- What a host reads of a byte: all ones outside the firewall, a free value in a poisoned unit; with whether it meets poison. -/
def State.hostByte (s : State) (off : Nat) : (Byte × Bool) × State :=
  if !s.passes false off then ((0xFF, false), s)
  else
    let pa := s.barAddr off
    if s.poisoned pa then ((s.free 8, true), s.spend) else ((s.mem.byte (dramKey pa), false), s)

/-- `n` bytes from a BAR 4 offset, each with whether it meets poison. -/
def State.hostBytes (s : State) (off : Nat) : Nat → List (Byte × Bool) × State
  | 0 => ([], s)
  | n + 1 =>
    let (x, s1) := s.hostByte off
    let (l, s2) := s1.hostBytes (off + 1) n
    (x :: l, s2)

/-- The bytes of a read with the mark of their completion; completions end at multiples of 64. -/
def completions (off : Nat) (l : List (Byte × Bool)) : List (Byte × Bool) :=
  let at_ := l.zip ((List.range l.length).map (off + ·))
  at_.map fun x => (x.1.1, at_.any fun y => y.2 / 64 == x.2 / 64 && y.1.2)

/-- An answer for the host. -/
def State.reply (s : State) (r : HostReply) : State := { s with replies := s.replies ++ [r] }

/-- The units that a host reads, counted (R287); `k` bounds them. -/
def State.countHost (s : State) (off n : Nat) : Nat → State
  | 0 => s
  | k + 1 =>
    let pa := s.barAddr off
    let u := unitBytes (s.region pa).gr
    let step := pa / u * u + u - pa
    if n = 0 then s else (if s.passes false off then s.count pa else s).countHost (off + step) (n - step) k

/-- A BAR 4 read (R376). -/
def execHostDramRead (off n : Nat) (s : State) : Out :=
  let (l, s1) := s.hostBytes off n
  .next ((s1.countHost off n (n / 32 + 2)).reply (.data (completions off l)))

/-- How far a BAR 4 access goes before a multiple of 64 KiB or an end of the reserved DRAM. -/
def runLength (off : Nat) : Nat :=
  let k := 65536 - off % 65536
  if off < Config.pilotBase then min k (Config.pilotBase - off)
  else if off < Config.pilotBase + Config.pilotSize.val then min k (Config.pilotBase + Config.pilotSize.val - off)
  else k

/-- The bytes of a BAR 4 write, in runs that the firewall lets through or drops. -/
def State.hostWrite (s : State) (off : Nat) (l : List Byte) : Nat → State
  | 0 => s
  | n + 1 =>
    let k := runLength off
    let s1 := if s.passes true off then s.pilotWrite (s.barAddr off) (l.take k) else s
    if l.length ≤ k then s1 else s1.hostWrite (off + k) (l.drop k) n

/-- A BAR 4 write (R376). -/
def execHostDramWrite (off : Nat) (data : List Byte) (s : State) : Out :=
  .next (s.hostWrite off data (data.length / 65536 + 4))

/-- A configuration request: retried until bring-up step 6 (R388). -/
def execHostConfigurationRequest (s : State) : Out := .next (s.reply (.config (decide (s.pilot.boot < 3))))

end Sys2Proof.Machine
end

