-- ==== Sys2Proof/Machine/Snuff.lean ====
section
/-! DEFINITION. The Snuff wave: its arrival, the frozen state and the cause blocks (R367-R371), the debugger's commands and the release
(R372, R373). -/

namespace Sys2Proof.Machine

/-! ## Jobs (R367, R371) -/

/-- The contexts of a job in this package. -/
def State.contextsOf (s : State) (key : Nat) : List Nat :=
  if 65536 ≤ key then [key - 65536] else (s.dbg.filter fun d => d.2.job.toNat == key).map (·.1)

/-- A job changed. -/
def State.setJob (s : State) (key : Nat) (f : Job → Job) : State :=
  { s with jobs := s.jobs.map fun j => if j.key == key then f j else j }

/-- The VLC belongs to the job. -/
def State.inJob (s : State) (key : Nat) (v : Vlc) : Bool := v.status != .absent && s.jobOf v.ctx == key

/-- The 32 bytes of a cause record (R371). -/
def Cause.bytes (c : Cause) : List Byte :=
  bytesOf 8 c.time.toNat ++ bytesOf 2 c.ep ++ bytesOf 1 c.die ++ bytesOf 1 c.cls ++ bytesOf 4 c.rank ++ bytesOf 8 c.pc.toNat
    ++ bytesOf 8 c.detail.toNat

/-- The order of cause records: (TIME, EP, DIE, VLCID). -/
def Cause.order (c : Cause) : Nat := ((c.time.toNat * 2 ^ 16 + c.ep) * 2 ^ 8 + c.die) * 2 ^ 32 + c.rank

/-- A cause block (R371): its header, and its records up to 8190. -/
def Job.block (j : Job) : List Byte :=
  bytesOf 4 j.causes.length ++ bytesOf 4 0 ++ bytesOf 8 j.origin.toNat ++ bytesOf 8 j.release.toNat ++ bytesOf 40 0
    ++ ((sortBy Cause.order j.causes).take 8190).flatMap Cause.bytes

/-- The party number of the writes of a job's cause blocks. -/
def causeOwner (key : Nat) : Nat := engOwner 4 key

/-- A job's cause block written for each of its contexts in this package that names one, in the memory of another endpoint by request. -/
def State.writeCauses (s : State) (j : Job) : State :=
  (s.contextsOf j.key).foldl (fun s c =>
    let pa := (s.dbgOf c).cb.toNat * 2 ^ 18
    let n := j.block.length
    if pa = 0 ∨ windowOf pa ≠ 0 then s
    else if epOf pa = s.endpoint then s.pilotWrite pa j.block
    else
      s.engWait (.frozenReport j.key (decide (65536 ≤ j.key))) (causeOwner j.key) s.nextReq (epOf pa) pa
        (.write n (bytesNat (j.block.map (·.toNat))))) s

/-- A job's cause blocks brought up to date. -/
def State.updateCauses (s : State) (key : Nat) : State :=
  match s.job key with
  | some j => s.writeCauses j
  | none => s

/-- A cause record of a job noted: each record once, and of this package its first, but for one met in a single step. -/
def Job.note (j : Job) (own : Nat) (c : Cause) : Job :=
  let known := j.causes.contains c || (c.ep == own && j.st != .stepping && j.causes.any fun x => x.ep == own)
  if known then j
  else { j with causes := j.causes ++ [c], origin := if j.causes = [] ∨ c.time.ult j.origin then c.time else j.origin }

/-- A job that freezes now. -/
def Job.fresh (key : Nat) : Job :=
  { key := key, st := .freezing, origin := 0, release := 0, causes := [], held := [], asker := none }

/-! ## The wave (R368-R370) -/

/-- What the wave does to a VLC of its job (R370). At a boundary it freezes, or inside the convoy that runs next where `cut` names an
element; blocked, it freezes where it waits; inside an instruction or a trap entry that has begun, it goes on to a stopping point. -/
def Vlc.caught (v : Vlc) (cut : Option Nat) : Vlc :=
  if v.frozen then { v with stepOnce := false }
  else match v.status with
  | .runnable =>
    match cut with
    | some e => { v with freezing := true, cut := some e, stepOnce := false }
    | none => { v with frozen := true, stepOnce := false }
  | .blocked _ => if v.awaited = [] then { v with frozen := true, stepOnce := false } else { v with freezing := true, stepOnce := false }
  | .draining _ =>
    if v.untouched then { v with frozen := true, status := .runnable, stepOnce := false } else { v with freezing := true, stepOnce := false }
  | .again _ | .entering _ => { v with freezing := true, stepOnce := false }
  | .absent | .stopped | .released _ | .placeable _ _ | .held => { v with frozen := true, stepOnce := false }

/-- The element that a wave's cuts give a VLC. -/
def Vlc.cutOf (v : Vlc) (cuts : List (Nat × Nat × Nat)) : Option Nat :=
  (cuts.find? fun x => x.1 == v.core && x.2.1 == v.slot).map (·.2.2)

/-- A cause of this package's that the job's freeze does not know yet. -/
def State.newCause (s : State) (key : Nat) (c : Cause) : Bool :=
  c.ep == s.endpoint && !(s.job key).any fun j => j.st != .running && j.st != .stepping && j.causes.any fun x => x.ep == s.endpoint

/-- The wave reaches this endpoint (R369): the job's VLCs stop, its cause is recorded, and the package's own record goes to the
other endpoints. -/
def State.waveArrives (s : State) (key : Nat) (c : Cause) (cuts : List (Nat × Nat × Nat)) : State :=
  let s0 := if s.newCause key c ∧ key < 65536 then s.send (.cause key c) else s
  let s1 := match s0.job key with
    | none => { s0 with jobs := s0.jobs ++ [Job.fresh key] }
    | some j => if j.st = JobState.running then s0.setJob key fun (x : Job) => { Job.fresh key with held := x.held } else s0
  let s2 := (s1.setJob key (·.note s1.endpoint c)).endStep key .freezing
  let s3 := s2.setJob key fun (j : Job) => { j with st := if j.st = JobState.frozen then JobState.frozen else JobState.freezing }
  let s4 := s3.mapVlcs fun v => if s3.inJob key v then v.caught (v.cutOf cuts) else v
  (s4.updateCauses key).due (.frozenReport key (decide (65536 ≤ key)))

/-- A cause record of a message. -/
def causeFrom (time : Word) (ep die cls rank : Nat) (pc detail : Word) : Cause :=
  { time := time, ep := ep, die := die, cls := cls, rank := rank, pc := pc, detail := detail }

/-- The wave of a job reaches this endpoint. -/
def execSnuffWaveArrival (wave : Wave) (time : BitVec 64) (ep die cls rank : Nat) (pc detail : BitVec 64) (s : State) : Out :=
  .next (s.waveArrives wave.job (causeFrom time ep die cls rank pc detail) wave.cuts)

/-- A cause record of another package arrives (R371). -/
def execCauseRecord (job : Nat) (time : BitVec 64) (ep die cls rank : Nat) (pc detail : BitVec 64) (s : State) : Out :=
  let s1 := s.setJob job (·.note s.endpoint (causeFrom time ep die cls rank pc detail))
  .next (s1.updateCauses job)

/-- An engine step of the job waits for another endpoint: one of a command or a transfer, or the writing of its cause blocks. -/
def State.jobWaits (s : State) (key owner : Nat) : Bool :=
  owner == causeOwner key
    || (s.commands.any fun c => handleOwner c.handle == owner && s.jobOf c.ctx == key)
    || s.transfers.any fun t => handleOwner t.handle == owner && s.jobOf t.ctx == key

/-- Everything the job injected is answered and applied, and every VLC of it has stopped (R370). -/
def State.absorbed (s : State) (key : Nat) : Bool :=
  (s.vlcs.all fun v => !s.inJob key v || (v.frozen && v.awaited == [] && v.stores == []))
    && (s.engineWaits.all fun x => !s.jobWaits key x.2.1)
    && s.orphans.all fun x => (s.launch x.2.1).all fun l => s.jobOf l.ctx != key

/-- The endpoint reports frozen once its responses are absorbed and its cause blocks written; `peers` says that every other
endpoint of the job has reported (R370). -/
def execFrozenReport (job : Nat) (peers : Bool) (s : State) : Out :=
  .next (match s.job job with
    | none => s
    | some j =>
      if j.st ≠ .freezing ∨ !s.absorbed job then s
      else
        let s1 := s.forgetAnswers (causeOwner job)
        if peers then s1.setJob job fun x => { x with st := .frozen } else s1)

/-! ## The release (R373) -/

/-- The issuing VLC goes on at the release: a pending trap entry is taken, and an instruction it waits in executes again. -/
def State.thaw (s : State) : State :=
  let s1 := s.setV fun v => { v with frozen := false, freezing := false, stepOnce := false }
  if !s.v.frozen then s1
  else match s1.v.pending with
  | some t => (s1.setV fun v => { v with pending := none }).enterTrap t
  | none =>
    match s1.v.status with
    | .blocked _ => s1.setV fun v => { v with status := .runnable }
    | _ => s1

/-- The VLCs of a job, by core and slot. -/
def State.placesIn (s : State) (key : Nat) : List (Nat × Nat) :=
  (s.vlcs.filter fun v => s.inJob key v && v.status.resident).map fun v => (v.core, v.slot)

/-- A job's release in this package: its VLCs, engines and transfers go on. -/
def State.releaseJob (s : State) (key : Nat) : State :=
  let held := ((s.job key).map (·.held)).getD []
  let s1 := (s.endStep key .frozen).setJob key fun j => { j with st := .running, held := [] }
  let s2 := (s1.placesIn key).foldl (fun s w =>
    match s.bring (·.isAt w.1 w.2) with
    | none => s
    | some s1 => s1.thaw) s1
  let s3 := s2.mapVlcs fun v => if s2.inJob key v ∧ !v.status.resident then { v with frozen := false } else v
  ({ s3 with events := s3.events ++ held }).dueDispatch

/-- The job is frozen at every endpoint. -/
def State.isFrozen (s : State) (key : Nat) : Bool := (s.job key).any fun j => j.st == .frozen

/-- The resume reaches this endpoint (R373): it sets the release tick; after that tick it releases at once and sets LATE. -/
def execSnuffResumeArrival (job : Nat) (tick : BitVec 64) (s : State) : Out :=
  .next (match s.job job with
    | none => s
    | some j =>
      if j.st = .running then s
      else
        let s1 := (s.setJob job fun x => { x with release := tick }).updateCauses job
        if tick.ult s.beacon then ({ s1 with sn := { s1.sn with late := true } }).releaseJob job else s1)

/-- The Beacon reads the release tick (R373). -/
def execSnuffReleaseTick (job : Nat) (s : State) : Out :=
  .next (match s.job job with
    | none => s
    | some j => if j.st = .running ∨ j.release = 0 then s else (s.beaconTo j.release).releaseJob job)

/-! ## Commands (R372, R373) -/

/-- A command refused. -/
def State.snErr (s : State) : State := { s with sn := { s.sn with err := true } }

/-- The job of the last command noted. -/
def State.snJob (s : State) (job : Nat) : State := { s with sn := { s.sn with job := BitVec.ofNat 16 job } }

/-- A command that needs a frozen job of a JOBID that names one. -/
def State.onFrozen (s : State) (job : Nat) (k : State → State) : State :=
  let s1 := s.snJob job
  if job = 0 ∨ 65536 ≤ job ∨ !s1.isFrozen job then s1.snErr else k s1

/-- FREEZE. -/
def State.freeze (s : State) (job : Nat) : State :=
  let s1 := s.snJob job
  if job = 0 ∨ 65536 ≤ job then s1.snErr
  else if (s1.job job).any fun j => j.st != .running then s1
  else s1.startWave job (causeFrom s1.beacon s1.endpoint 0 0x21 0xFFFFFFFF 0 0)

/-- RESUME. -/
def State.resume (s : State) (job : Nat) : State :=
  s.onFrozen job fun s =>
    if s.sn.arg.toNat < s.beacon.toNat + 10000 then s.snErr
    else (s.send (.resume job s.sn.arg)).due (.snuffResumeArrival job s.sn.arg)

/-- A command about one VLC (R372): its operation, job, argument and address, and the endpoint and request that it came with, where
another package sent it. -/
structure Debug where
  op : Nat
  job : Nat
  arg : Word
  addr : Word
  ask : Option (Nat × Nat)
  deriving DecidableEq, Repr

/-- The endpoint that an argument names. -/
def argEp (arg : Word) : Nat := bitsOf arg.toNat 28 16

/-- The core that ARG names. -/
def Debug.core (c : Debug) : Nat := 128 * bitsOf c.arg.toNat 15 13 + bitsOf c.arg.toNat 12 6

/-- The slot that ARG names. -/
def Debug.slot (c : Debug) : Nat := bitsOf c.arg.toNat 5 4

/-- The step in which a command goes on. -/
def State.debugStep (s : State) (c : Debug) : Instr :=
  let from_ := c.ask.getD (s.endpoint, 0)
  .remoteRequest from_.1 from_.2 (s.endpoint * 2 ^ 43) none (.debug c.op c.job c.arg c.addr)

/-- A command ended: refused, it sets ERR where it was written. -/
def State.debugEnd (s : State) (c : Debug) (ok : Bool) : State :=
  match c.ask with
  | none => if ok then s else s.snErr
  | some (ep, id) => s.send (.response ep id (if ok then .data 0 else .prot 0))

/-- STEP of the issuing VLC: its pending trap entry, or one convoy or solo instruction; what it waits in executes again. -/
def State.stepVlc (s : State) (c : Debug) : State :=
  let go := (s.setV fun v => { v with frozen := false, stepOnce := true, pending := none, status := .runnable }).setJob c.job fun j =>
    { j with st := .stepping, asker := c.ask }
  match s.v.pending, s.v.status with
  | some t, _ => (go.enterTrap t).refreeze
  | none, .runnable => go
  | none, .blocked _ => go
  | none, _ => s.debugEnd c false

/-- SNADDR, where it is a multiple of 4096. -/
def Debug.area (c : Debug) : Option Word := if c.addr.toNat % 4096 = 0 then some c.addr else none

/-- s0 to s31 of the VLC as 32 words. -/
def Vlc.sregNat (v : Vlc) : Nat := wordsNat ((0 : Word) :: v.sregs.toList.drop 1)

/-- DUMP of the issuing VLC. -/
def State.dump (s : State) (c : Debug) : State :=
  match c.area with
  | none => s.debugEnd c false
  | some b =>
    let me := s.v.areaOwner
    match s.saveArea s.v.areaParty false s.v.sregNat b with
    | (s1, none) => (s1.forgetAnswers me).debugEnd c true
    | (_, some (.remote key ep pa op)) => s.engWait (s.debugStep c) me key ep pa op
    | (s1, some (.trap _ _ _ _)) | (s1, some .drain) | (s1, some .cut) => (s1.forgetAnswers me).debugEnd c false

/-- An area read whole under R319 with STRIP checks. -/
def State.readStrip (s : State) (p : Party) (b : Word) : Except Stop (Area × State) := do
  let (h, s1) ← s.readHeader p b
  let h1 := { h with header := h.header ||| 2 ^ 49 }
  if h1.bad s.v then .error (.prot 0 (untag b)) else s1.readArea p b h1

/-- What LOAD restores: the area, s1 to s31, and no pending trap entry where the loaded TCAUSE names no class. -/
def State.loadArea (s : State) (a : Area) : State :=
  (s.applyArea a (a.vt.getD .f64)).setV fun v =>
    { v with
      sregs := Vector.ofFn fun k : Fin 32 => if k.val = 0 then 0 else BitVec.ofNat 64 (wordAt a.sregs k.val)
      pending := if a.spr 16 % 32 = 0 then none else v.pending }

/-- LOAD of the issuing VLC. -/
def State.loadVlc (s : State) (c : Debug) : State :=
  match c.area with
  | none => s.debugEnd c false
  | some b =>
    let me := s.v.areaOwner
    match s.readStrip s.v.areaParty b with
    | .ok (a, s1) => ((s1.forgetAnswers me).loadArea a).debugEnd c true
    | .error (.remote key ep pa op) => s.engWait (s.debugStep c) me key ep pa op
    | .error (.trap _ _ _ _) | .error .drain | .error .cut => (s.forgetAnswers me).debugEnd c false

/-- A command about a VLC of this package, whose job must be frozen; the VLC is made the issuing one. -/
def State.debugHere (s : State) (c : Debug) : State :=
  if !s.isFrozen c.job then s.debugEnd c false
  else match s.bring fun v => v.isAt c.core c.slot && s.inJob c.job v with
  | none => s.debugEnd c false
  | some s1 => if c.op = 3 then s1.stepVlc c else if c.op = 4 then s1.dump c else s1.loadVlc c

/-- The party number of the commands that this package forwards for a job. -/
def forwardOwner (job : Nat) : Nat := engOwner 5 job

/-- The answer to a forwarded command has come: its STEP is over, and a refusal sets ERR. -/
def State.forwarded (s : State) (job : Nat) (ans : RemoteAns) : State :=
  let s1 := (s.forgetAnswers (forwardOwner job)).endStep job .frozen
  match ans with
  | .data _ => s1
  | .poisoned | .prot _ | .silent _ => s1.snErr

/-- A command about a VLC of another endpoint goes there, and its job is stepping until a STEP is answered. -/
def State.forward (s : State) (c : Debug) : State :=
  let ep := argEp c.arg
  if !s.answers ep then s.snErr
  else
    let s1 := if c.op = 3 then s.setJob c.job fun j => { j with st := .stepping } else s
    s1.engWait (s.debugStep c) (forwardOwner c.job) (2 * c.op) ep (ep * 2 ^ 43) (.debug c.op c.job c.arg c.addr)

/-- STEP, DUMP or LOAD of the VLC that ARG names, as the command registers hold it. -/
def State.debug (s : State) (op job : Nat) : State :=
  s.onFrozen job fun s =>
    let c : Debug := { op := op, job := job, arg := s.sn.arg, addr := s.sn.addr, ask := none }
    if argEp c.arg = s.endpoint then s.debugHere c else s.forward c

/-- A command that came as a request: one of another endpoint's about a VLC of this package, or this package's own that goes on here or
has been answered. -/
def State.debugAsked (s : State) (ep id : Nat) (op job : Nat) (arg addr : Word) : State :=
  let c : Debug := { op := op, job := job, arg := arg, addr := addr, ask := if ep = s.endpoint then none else some (ep, id) }
  if argEp arg = s.endpoint then s.debugHere c
  else match s.engineData.find? fun x => x.1 == forwardOwner job && x.2.1 == 2 * op with
  | some x => s.forwarded job x.2.2
  | none => s.debugEnd c false

/-- Command FREEZE (R373). -/
def execSncmdFreeze (job : Nat) (s : State) : Out := .next (s.freeze job)

/-- Command RESUME (R373). -/
def execSncmdResume (job : Nat) (s : State) : Out := .next (s.resume job)

/-- Command STEP (R373). -/
def execSncmdStep (job : Nat) (s : State) : Out := .next (s.debug 3 job)

/-- Command DUMP (R373). -/
def execSncmdDump (job : Nat) (s : State) : Out := .next (s.debug 4 job)

/-- Command LOAD (R373). -/
def execSncmdLoad (job : Nat) (s : State) : Out := .next (s.debug 5 job)

/-- A write to SNCMD (R372). -/
def State.writeSncmd (s : State) (x : Word) : State :=
  let op := bitsOf x.toNat 63 60
  let job := bitsOf x.toNat 59 44
  if op = 1 then s.freeze job
  else if op = 2 then s.resume job
  else if op = 3 ∨ op = 4 ∨ op = 5 then s.debug op job
  else (s.snJob job).snErr

/-! ## Requests of other endpoints (R354, R372) -/

/-- A request or atomic of endpoint `ep` arrives; it is performed and answered (R354). A debugger command that goes on in this package
comes from its own endpoint. -/
def execRemoteRequest (ep id pa : Nat) (leaf : Option LeafUse) (op : RemoteOp) (s : State) : Out :=
  .next (if epOf pa ≠ s.endpoint then s
    else match op with
    | .debug op job arg addr => s.debugAsked ep id op job arg addr
    | .read .. | .write .. | .nibble .. | .amo .. | .cas .. | .addTo .. | .bits .. | .tag _ | .probe | .batch _ | .through .. =>
      let (ans, s1) := s.perform pa leaf op
      s1.send (.response ep id ans))

end Sys2Proof.Machine
end

