-- ==== Sys2Proof/Machine/Registers.lean ====
section
/-! DEFINITION. Writes to the registers of the I/O die's window and of the housekeeping blocks (R292, R378): each register's fields, and
the effects that a write brings about. -/

namespace Sys2Proof.Machine

/-- The held stop notices of a die written while its ring has room, at most `n` of them (R389). -/
def State.writeHeld (s : State) (die : Nat) : Nat → State
  | 0 => s
  | n + 1 =>
    match (s.die die).held with
    | [] => s
    | x :: l =>
      if (s.die die).hasRoom then ((s.setDie die fun d => { d with held := l }).writeNotice die x).writeHeld die n else s

/-- Every held notice of a die that has room written. -/
def State.flushNotices (s : State) (die : Nat) : State := s.writeHeld die (s.die die).held.length

/-- A write to NOTTAIL (R389). -/
def State.writeNottail (s : State) (die : Nat) (x : Word) : State :=
  (s.setDie die fun d => { d with nottail := x }).flushNotices die

/-- The supervisor consumes notices. -/
def execNottailWrite (die : Nat) (x : BitVec 64) (s : State) : Out := .next (s.writeNottail die x)

/-- A write to NOTBASE (R389). -/
def State.writeNotbase (s : State) (die : Nat) (x : Word) : State :=
  (s.setDie die fun d => { d with notbase := x }).flushNotices die

/-- A write to PCAP (R387): LIMIT, clamped. -/
def capOf (x : Word) : BitVec 16 := BitVec.ofNat 16 (max 1000 (min 3600 (bitsOf x.toNat 15 0)))

/-- WPCFGn from a word (R374 Table 9). -/
def Watch.configure (w : Watch) (x : Word) : Watch :=
  { w with en := x.getLsbD 63, kind := x.extractLsb' 60 3, slots := x.extractLsb' 56 4, size := x.extractLsb' 0 6 }

/-- A watch pair of a core changed. -/
def State.setWatch (s : State) (core n : Nat) (f : Watch → Watch) : State :=
  s.setCore core fun c => { c with watch := Vector.ofFn fun k : Fin 4 => if k.val = n % 4 then f c.watch[k] else c.watch[k] }

/-- SNSTAT's bits cleared by writing 1 (R372). -/
def SnRegs.clear (r : SnRegs) (x : Word) : SnRegs := { r with err := r.err && !x.getLsbD 61, late := r.late && !x.getLsbD 60 }

/-- The effect of a write to a register. -/
def State.writeReg (s : State) (g : Reg) (x : Word) : State :=
  match g with
  | .mgmtid => s
  | .pboot => s.writePboot x
  | .pmcmd => s.pilotStart (bitsOf x.toNat 7 0)
  | .pmarg => s.setPilot fun p => { p with pmarg := x }
  | .pmstat => s.setPilot fun p => { p with pmerr := p.pmerr && !x.getLsbD 62 }
  | .pcap => s.setPilot fun p => { p with limit := capOf x }
  | .qcfg q => s.writeQcfg q x
  | .qtrap q => s.setQueue q fun y => { y with qtrap := x.extractLsb' 9 55 }
  | .dbgctx c => s.setDbg c fun d => { d with halt := x.extractLsb' 33 17, job := x.extractLsb' 0 16 }
  | .dbgcb c => s.setDbg c fun d => { d with cb := x.extractLsb' 18 38 }
  | .sncmd => s.writeSncmd x
  | .snarg => { s with sn := { s.sn with arg := x } }
  | .snaddr => { s with sn := { s.sn with addr := x } }
  | .snstat => { s with sn := s.sn.clear x }
  | .drfmt d => s.writeDrfmt d x
  | .ctxbase d => s.setDie d fun y => { y with ctxbase := x }
  | .tlbinv d => s.writeTlbinv d x
  | .resume d => s.writeResume d x
  | .vend d => s.writeVend d x
  | .islctl d k => s.writeIslctl d k x
  | .notbase d => s.writeNotbase d x
  | .nottail d => s.writeNottail d x
  | .notstat _ => s
  | .counter _ _ _ => s
  | .wpaddr c n => s.setWatch c n fun w => { w with addr := x }
  | .wpcfg c n => s.setWatch c n (·.configure x)
  | .stepctl c => s.setCore c fun y => { y with stepctl := x.extractLsb' 0 4 }

/-- A write of 4 or 8 bytes to the register of this package at a physical address, by a store or by the host: the register takes
one 8-byte write, in which one of 4 bytes carries the other half's RW fields (R292). -/
def execRegisterWrite (pa : Nat) (x : RegData) (s : State) : Out :=
  .next (if (x.n ≠ 4 ∧ x.n ≠ 8) ∨ pa % x.n ≠ 0 then s
    else match regAt pa with
    | none => s
    | some g => s.writeReg g (regWord s g pa x.n x.x))

end Sys2Proof.Machine
end

