-- ==== Sys2Proof/Machine/Rings.lean ====
section
/-! DEFINITION. Rings and collective rounds: CRING (R360, R361), COLL (R362-R365) and CABORT (R366), and the steps by which other
members take part in them. -/

namespace Sys2Proof.Machine

/-! ## Rings (R360, R361) -/

/-- The handle of a ring at this member (R361). -/
def Ring.handle (r : Ring) : Word :=
  flagAt true 63 ||| fieldAt (r.slot % 16) 56 ||| fieldAt (r.pos % 2 ^ 13) 32 ||| fieldAt ((r.eps.length - 1) % 2 ^ 13) 16
    ||| fieldAt (r.id % 2 ^ 16) 0

/-- The live ring of the issuing VLC's launch that a handle names. -/
def State.ringOf (s : State) (h : Word) : Option Ring :=
  s.rings.find? fun r => r.handle == h && r.launch == s.v.launch

/-- A ring changed. -/
def State.setRing (s : State) (slot : Nat) (f : Ring → Ring) : State :=
  { s with rings := s.rings.map fun r => if r.slot == slot then f r else r }

/-- The ring at a slot. -/
def State.ringAt (s : State) (slot : Nat) : Option Ring := s.rings.find? (·.slot == slot)

/-- The endpoints a ring record lists. -/
def recordEps (r : List Byte) : List Nat := (List.range (field r 2 2)).map fun p => field r (0x10 + 2 * p) 2

/-- The first 16 bytes of a ring record are as Table 3 says. -/
def ringHeadOk (r : List Byte) : Bool :=
  field r 0 2 != 0 && decide (2 ≤ field r 2 2) && decide (field r 2 2 ≤ 8192) && decide (field r 4 4 ≤ 1000000)
    && field r 8 8 == 0

/-- A ring record captured: its bytes, up to the last endpoint. -/
def State.ringRecord (s : State) (a : Word) : Except Stop (List Byte × State) :=
  if a.toNat % 64 ≠ 0 then .error (.plain .align 0 (untag a))
  else do
    let (h, s1) ← s.capture s.party a 2
    if !ringHeadOk h then .error (.prot 0 (untag a))
    let k := field h 2 2
    let (l, s2) ← s1.capture s.party (a + 0x10) (ceilDiv k 4)
    let r := (h ++ l).take (0x10 + 2 * k)
    if (recordEps r).all fun e => decide (e < 8192) then .ok (r, s2) else .error (.prot 0 (untag a))

/-- The formation that the issuing VLC's CRING of an id arrived at. -/
def State.ownWait (s : State) (id : Nat) : Option RingWait :=
  s.ringWaits.find? fun w => w.id == id && w.launch == s.v.launch && w.rank == s.v.rank.toNat

/-- The codes 3, 5 and 4 of R361, in its order; 0 when none applies. -/
def State.ringCode (s : State) (id : Nat) (eps : List Nat) (old : Option Nat) : Nat :=
  let here := s.launchEps s.v.launch
  if (eps.filter (· == s.endpoint)).length ≠ 1 ∨ !(eps.all fun e => here.contains e) then 3
  else if (s.rings.any fun r => r.id == id) || s.ringWaits.any fun w => w.id == id && w.outcome.isNone then 5
  else if 16 ≤ s.rings.length ∧ old.isNone then 4
  else 0

/-- The VLC's latest CRING noted. -/
def State.markWait (s : State) (id : Nat) : State :=
  { s with ringWaits := s.ringWaits.map fun (w : RingWait) =>
      if w.launch == s.v.launch && w.rank == s.v.rank.toNat then { w with waiting := w.id == id } else w }

/-- The formation of an id forgotten by the issuing VLC. -/
def State.dropWait (s : State) (id : Nat) : State :=
  { s with ringWaits := s.ringWaits.filter fun w =>
      !(w.id == id && w.launch == s.v.launch && w.rank == s.v.rank.toNat) }

/-- CRING once its record is captured and its old ring checked. -/
def State.joinRing (s : State) (i : Instr) (d : SReg) (r : List Byte) (old : Option Nat) : State :=
  let id := field r 0 2
  match s.ownWait id with
  | some w =>
    match w.outcome with
    | some x => ((s.dropWait id).wr d x).finish i
    | none => (s.markWait id).block i
  | none =>
    let code := s.ringCode id (recordEps r) old
    if code ≠ 0 then (s.wr d (BitVec.ofNat 64 code)).finish i
    else
      let w : RingWait :=
        { id := id, launch := s.v.launch, rank := s.v.rank.toNat, waiting := true, record := r, eps := recordEps r,
          old := old, outcome := none }
      (({ s with ringWaits := s.ringWaits ++ [w] }.send (.ringIssue id r)).markWait id).block i

/-- CRING (R361). One that executes again in full finds its arrival standing. -/
def execCring (d a b : SReg) (s : State) : Out :=
  .next (checked (.cring d a b) s fun s =>
    let i := Instr.cring d a b
    match s.ringRecord (s.rd a) with
    | .error e => s.raise i e
    | .ok (r, s1) =>
      if s.rd b = 0 ∨ ((s1.ownWait (field r 0 2)).any (·.outcome.isSome)) then s1.joinRing i d r none
      else match s1.ringOf (s.rd b) with
      | none => s1.raise i (.prot 0 (s.rd b))
      | some x => s1.joinRing i d r (some x.id))

/-- The VLC of a launch and rank, resident and not frozen, made the issuing one. -/
def State.bringRank (s : State) (launch rank : Nat) : Option State :=
  s.bring fun v => v.status.resident && !v.frozen && v.launch == launch && v.rank.toNat == rank

/-- A formation ended: its VLC receives `x` where it waits, or when it executes CRING again. -/
def State.endWait (s : State) (w : RingWait) (x : Word) : State :=
  let s1 := { s with ringWaits := s.ringWaits.map fun (y : RingWait) =>
    if y.id == w.id && y.outcome.isNone then { y with outcome := some x } else y }
  match s1.bringRank w.launch w.rank with
  | none => s1
  | some s2 =>
    match s2.v.status with
    | .blocked (.cring d a b) =>
      if w.waiting then ((s2.dropWait w.id).wr d x).finish (.cring d a b) else s2
    | _ => s2

/-- A code with the endpoint of a position (R361). -/
def namedCode (code : Nat) (w : RingWait) (p : Nat) : Word := BitVec.ofNat 64 (code + 256 * w.eps.getD p 0)

/-- The live ring of an id. -/
def State.ringNamed (s : State) (id : Nat) : Option Ring := s.rings.find? (·.id == id)

/-- The lowest slot free once the old ring, where it is still live, is released. -/
def State.freeRing (s : State) (old : Option Nat) : Option Nat :=
  let gone := (old.bind s.ringNamed).map (·.slot)
  (List.range 16).find? fun k => gone == some k || !(s.rings.any (·.slot == k))

/-- A ring released; a COLL that waits in a round of it executes again, and finds no ring. -/
def State.releaseRing (s : State) (old : Option Nat) : State :=
  match old.bind s.ringNamed with
  | none => s
  | some r =>
    let s1 := { s with rings := s.rings.filter (·.slot != r.slot) }
    match r.round with
    | none => s1
    | some x => (s1.mapVlcs fun v =>
        match v.status with
        | .blocked (.coll d a b) =>
          if v.launch = x.launch ∧ v.rank.toNat = x.rank then { v with status := .again (.coll d a b) } else v
        | _ => v).dueTlb

/-- A ring formed in the lowest free slot (R361). -/
def State.formRing (s : State) (w : RingWait) : State :=
  match s.freeRing w.old with
  | none => s.endWait w 4
  | some k =>
    let r : Ring :=
      { slot := k, id := w.id, launch := w.launch, pos := w.eps.findIdx (· == s.endpoint), eps := w.eps, broken := false,
        flags := 0, peer := 0, round := none }
    let s1 := s.releaseRing w.old
    ({ s1 with rings := s1.rings ++ [r] }).endWait w r.handle

/-- The formation of an id in progress in this package. -/
def State.forming (s : State) (id : Nat) : Option RingWait := s.ringWaits.find? fun w => w.id == id && w.outcome.isNone

/-- The context of a launch. -/
def State.ctxOf (s : State) (launch : Nat) : Nat := ((s.launch launch).map (·.ctx)).getD 0

/-- Every member has issued CRING (R361): `recs` are the records of the others, by endpoint. -/
def execRingFormed (id : Nat) (recs : List (Nat × List Byte)) (s : State) : Out :=
  .next (match s.forming id with
    | none => s
    | some w =>
      if s.frozenCtx (s.ctxOf w.launch) then s.holdStep (s.ctxOf w.launch) (.ringFormed id recs)
      else
        let all := w.eps.map fun e => if e = s.endpoint then some w.record else (recs.find? fun x => x.1 == e).map (·.2)
        if all.any (·.isNone) then s
        else match all.findIdx? fun r => r != some w.record with
        | some p => s.endWait w (namedCode 2 w p)
        | none => s.formRing w)

/-- The formation time-out (R361): `arrived` are the endpoints whose CRING has come. A time-out does not run in a frozen job
(R370). -/
def execRingFormationTimeout (id : Nat) (arrived : List Nat) (s : State) : Out :=
  .next (match s.forming id with
    | none => s
    | some w =>
      if s.frozenCtx (s.ctxOf w.launch) then s
      else match w.eps.findIdx? fun e => e != s.endpoint && !arrived.contains e with
      | none => s
      | some p => s.endWait w (namedCode 1 w p))

/-! ## Rounds (R362-R364) -/

/-- The type of a collective (R362 Table 4). -/
def collType (x : Nat) : Option VType :=
  match VType.ofCode (BitVec.ofNat 5 x) with
  | some .f64 => some .f64
  | some .f32 => some .f32
  | some .bf16 => some .bf16
  | some .s64 => some .s64
  | some .s32 => some .s32
  | some .n64 => some .n64
  | some .n32 => some .n32
  | _ => none

/-- The elements of a member's result (R363 Table 5). -/
def resultCount (op k n : Nat) : Nat := if op = 1 then n / k else if op = 2 then k * n else n

/-- A descriptor that R362 allows on a ring of `k` members, in a type. -/
def collOk (r : List Byte) (k : Nat) (t : VType) : Bool :=
  let n := field r 0x10 8
  let op := field r 0x20 1
  let red := field r 0x21 1
  let root := field r 0x24 2
  decide (1 ≤ n) && decide (n ≤ 2 ^ 28) && decide (field r 0x1C 4 ≤ 1000000) && decide (op ≤ 3)
    && (if op ≤ 1 then red == 0 || red == 2 || red == 3 else red == 0) && decide (field r 0x22 1 < 32)
    && field r 0x23 1 == 0 && (if op = 3 then decide (root < k) else root == 0) && zeroes r 0x26 26
    && (op != 1 || n % k == 0) && field r 0 8 % bytesIn t == 0 && field r 8 8 % bytesIn t == 0

/-- The accesses of COLL: an engine's, whose answers its VLC awaits. They check no tag (R290) and match no watch. -/
def State.collParty (s : State) : Party := { s.party with core := none, watch := false }

/-- The pages of `n` elements translated in ascending address (R363). -/
def State.collPages (s : State) (k : AccKind) (a : Word) (w i : Nat) : Nat → Except Stop Unit
  | 0 => .ok ()
  | n + 1 =>
    match s.resolve s.collParty (.mem a w k i) with
    | .error e => .error e
    | .ok r => if epOf r.pa ≠ s.endpoint then .error (.prot 6 r.a) else s.collPages k (a + BitVec.ofNat 64 w) w (i + 1) n

/-- `n` elements of SRC. -/
def State.collRead (s : State) (a : Word) (w i : Nat) : Nat → Except Stop (List Byte × State)
  | 0 => .ok ([], s)
  | n + 1 => do
    let (x, s1) ← s.load s.collParty (.mem a w .load i)
    let (l, s2) ← s1.collRead (a + BitVec.ofNat 64 w) w (i + 1) n
    .ok (bytesOf w x ++ l, s2)

/-- The places of `n` elements of DST. -/
def State.collTargets (s : State) (a : Word) (w i : Nat) : Nat → Except Stop (List (Place × Option Nat) × State)
  | 0 => .ok ([], s)
  | n + 1 => do
    let q := Req.mem a w .store i
    let r ← s.resolve s.collParty q
    let (l, s1) ← (s.note s.collParty q r).collTargets (a + BitVec.ofNat 64 w) w (i + 1) n
    .ok ((.phys r.pa, r.e.keySlot) :: l, s1)

/-- What R365 compares among members. -/
def Round.params (x : Round) : List Nat := [x.op, x.red, x.type.toNat, x.count, x.root, x.seq]

/-- The round handle (R363). -/
def roundHandle (slot seq : Nat) : Word := flagAt true 63 ||| fieldAt slot 56 ||| fieldAt (seq % 2 ^ 32) 0

/-- TVAL's flags of a round that failed (R365): bit 62 a cancel, bit 61 a mismatch. -/
def failFlags (flags : Nat) : Word := fieldAt (flags % 4) 61

/-- TIMEOUT of COLL, with FSR.PEER (R365). -/
def State.collTimeout (s : State) (i : Instr) (h : Word) (flags peer : Nat) : State :=
  (s.setV fun v => { v with peer := BitVec.ofNat 13 peer }).raise i (.plain .timeout 0 (h ||| failFlags flags))

/-- A round of the issuing VLC that has ended is left. -/
def State.leaveRound (s : State) (i : Instr) (d : SReg) (slot : Nat) (x : Round) (e : RoundEnd) : State :=
  let s1 := s.setRing slot fun r => { r with round := none }
  let h := roundHandle slot x.seq
  match e with
  | .complete => (s1.wr d h).finish i
  | .failed flags peer => s1.collTimeout i h flags peer

/-- COLL's part in a new round: what it captures, and what it sends. -/
def State.openRound (s : State) (r : Ring) (b : List Byte) (t : VType) : Except Stop State := do
  let w := bytesIn t
  let k := r.eps.length
  let n := field b 0x10 8
  let op := field b 0x20 1
  let src := BitVec.ofNat 64 (field b 0 8)
  let dst := BitVec.ofNat 64 (field b 8 8)
  let (l, s1) ← s.collRead src w 0 n
  let (at_, s2) ← s1.collTargets dst w 0 (resultCount op k n)
  let x : Round :=
    { launch := s.v.launch, rank := s.v.rank.toNat, seq := field b 0x18 4, op := op, red := field b 0x21 1,
      type := BitVec.ofNat 5 (field b 0x22 1), count := n, root := field b 0x24 2, src := l, targets := at_, done := none }
  .ok ((s2.setRing r.slot fun y => { y with round := some x }).send (.roundData r.id r.pos x.params l))

/-- COLL on a live ring with a valid descriptor and no round of this package in progress; it reads SRC after the stores before it
(R192). -/
def State.startRound (s : State) (i : Instr) (r : Ring) (b : List Byte) (t : VType) : State :=
  let w := bytesIn t
  let n := field b 0x10 8
  match s.collPages .load (BitVec.ofNat 64 (field b 0 8)) w 0 n with
  | .error e => s.raise i e
  | .ok _ =>
    match s.collPages .store (BitVec.ofNat 64 (field b 8 8)) w 0 (resultCount (field b 0x20 1) r.eps.length n) with
    | .error e => s.raise i e
    | .ok _ =>
      if r.broken then s.collTimeout i (roundHandle r.slot (field b 0x18 4)) r.flags r.peer
      else match s.openRound r b t with
      | .error e => s.raise i e
      | .ok s1 => s1.block i

/-- COLL once its descriptor is captured (R363). A COLL that took part before it was pre-empted waits on the same round. -/
def State.collOn (s : State) (i : Instr) (d a b : SReg) (l : List Byte) : State :=
  match s.ringOf (s.rd b) with
  | none => s.raise i (.prot 0 (s.rd b))
  | some r =>
    match collType (field l 0x22 1) with
    | none => s.raise i (.prot 0 (untag (s.rd a)))
    | some t =>
      if !collOk l r.eps.length t then s.raise i (.prot 0 (untag (s.rd a)))
      else match r.round with
      | none => s.afterStores i (·.startRound i r l t)
      | some x =>
        if x.launch ≠ s.v.launch ∨ x.rank ≠ s.v.rank.toNat then s.raise i (.prot 0 (s.rd b))
        else match x.done with
        | none => s.block i
        | some e => s.leaveRound i d r.slot x e

/-- COLL (R363). -/
def execColl (d a b : SReg) (s : State) : Out :=
  .next (checked (.coll d a b) s fun s =>
    let i := Instr.coll d a b
    if (s.rd a).toNat % 64 ≠ 0 then s.raise i (.plain .align 0 (untag (s.rd a)))
    else match s.capture s.party (s.rd a) 8 with
    | .error e => s.raise i e
    | .ok (l, s1) => s1.collOn i d a b l)

/-- One step of a reduction (R364): the sum rounded by RNE, integers wrapping; min and max as R129. -/
def reduceStep (t : VType) (red x y : Nat) : Nat :=
  if t.isI then
    if red = 0 then (x + y) % 2 ^ t.width
    else if red = 2 then if t.int x ≤ t.int y then x else y
    else if t.int x ≤ t.int y then y else x
  else if red = 0 then (fpAdd t.fmt .rne false x y).bits
  else (fpMinMax t.fmt (red == 3) false x y).bits

/-- Element `i` of a member's contribution. -/
def contribution (t : VType) (l : List Byte) (i : Nat) : Nat := field l (i * bytesIn t) (bytesIn t)

/-- reduce(i) over the contributions in ascending position (R364). -/
def reduceAt (t : VType) (red : Nat) (xs : List (List Byte)) (i : Nat) : Nat :=
  match xs with
  | [] => 0
  | x :: l => l.foldl (fun m y => reduceStep t red m (contribution t y i)) (contribution t x i)

/-- Element `j` of the result at a position (R363 Table 5). -/
def resultAt (x : Round) (t : VType) (k pos : Nat) (xs : List (List Byte)) (j : Nat) : Nat :=
  if x.op = 0 then reduceAt t x.red xs j
  else if x.op = 1 then reduceAt t x.red xs (pos * (x.count / k) + j)
  else if x.op = 2 then contribution t (xs.getD (j / x.count) []) (j % x.count)
  else contribution t (xs.getD x.root []) j

/-- The shadow of a completed round. -/
def roundShades (x : Round) (t : VType) (k pos : Nat) (xs : List (List Byte)) : List Shade :=
  (x.targets.zip (List.range x.targets.length)).map fun p =>
    { place := p.1.1, n := bytesIn t, x := resultAt x t k pos xs p.2, key := p.1.2 }

/-- A round ended at this member: its VLC leaves where it waits, or when it executes COLL again; nothing is left of the round of a VLC
that has ended. -/
def State.closeRound (s : State) (slot : Nat) (x : Round) (e : RoundEnd) : State :=
  let lives := s.vlcs.any fun v => v.status != .absent && v.launch == x.launch && v.rank.toNat == x.rank
  let left : Option Round := if lives then some { x with done := some e, targets := [] } else none
  let s1 := ((s.setRing slot fun r => { r with round := left }).settleLaunch x.launch).dueTlb
  match s1.bringRank x.launch x.rank with
  | none => s1
  | some s2 =>
    match s2.v.status with
    | .blocked (.coll d a b) => s2.leaveRound (.coll d a b) d slot x e
    | _ => s2

/-- A ring broken, with what a later COLL reports; the first notice counts (R365). -/
def Ring.break (r : Ring) (flags peer : Nat) : Ring :=
  if r.broken then r else { r with broken := true, flags := flags, peer := peer }

/-- A ring broken, and the round in progress on it ended (R365). -/
def State.breakRing (s : State) (r : Ring) (flags peer : Nat) : State :=
  let s1 := s.setRing r.slot (·.break flags peer)
  match r.round with
  | none => s1
  | some x => if x.done.isSome then s1 else s1.closeRound r.slot x (.failed flags peer)

/-- What is known of each position: its parameters and contribution. -/
def roundParts (r : Ring) (x : Round) (parts : List (Nat × List Nat × List Byte)) : List (Option (List Nat × List Byte)) :=
  (List.range r.eps.length).map fun p =>
    if p = r.pos then some (x.params, x.src) else (parts.find? fun y => y.1 == p).map (·.2)

/-- The lowest position known to differ from position 0 (R365). -/
def roundMismatch (l : List (Option (List Nat × List Byte))) : Option Nat :=
  match l.head?.join with
  | none => none
  | some z => l.findIdx? fun y => match y with
      | some w => w.1 != z.1
      | none => false

/-- Contributions of other members arrive (R363): `parts` are (position, OP RED TYPE COUNT ROOT SEQ, bytes). With those of every
member the round completes and DST is published (R195); a mismatch ends it (R365). -/
def execCollRoundComplete (slot : Nat) (parts : List (Nat × List Nat × List Byte)) (s : State) : Out :=
  .next (match s.ringAt slot with
    | none => s
    | some r =>
      match r.round with
      | none => s
      | some x =>
        if x.done.isSome then s
        else if s.frozenCtx (s.ctxOf r.launch) then s.holdStep (s.ctxOf r.launch) (.collRoundComplete slot parts)
        else
          let l := roundParts r x parts
          match roundMismatch l with
          | some p =>
            let ep := r.eps.getD p 0
            (s.send (.abort r.id x.seq 1 ep)).breakRing r 1 ep
          | none =>
            if l.any (·.isNone) then s
            else match collType x.type.toNat with
            | none => s
            | some t =>
              (s.publishShades x.launch x.rank (roundShades x t r.eps.length r.pos (l.filterMap fun y => y.map (·.2))) []).closeRound slot x
                .complete)

/-- A member in a round sends its successor a heartbeat (R365); a frozen job sends nothing new (R370). -/
def execCollHeartbeat (slot : Nat) (s : State) : Out :=
  .next (match s.ringAt slot with
    | none => s
    | some r =>
      if (r.round.all (·.done.isSome)) ∨ s.frozenCtx (s.ctxOf r.launch) then s
      else s.send (.heartbeat r.id (r.eps.getD ((r.pos + 1) % r.eps.length) 0)))

/-- The predecessor has been silent for TMO µs (R365); a time-out does not run in a frozen job (R370). -/
def execCollSilenceTimeout (slot : Nat) (s : State) : Out :=
  .next (match s.ringAt slot with
    | none => s
    | some r =>
      match r.round with
      | none => s
      | some x =>
        if x.done.isSome ∨ s.frozenCtx (s.ctxOf r.launch) then s
        else
          let ep := r.eps.getD ((r.pos + r.eps.length - 1) % r.eps.length) 0
          (s.send (.abort r.id x.seq 0 ep)).breakRing r 0 ep)

/-- An abort or cancel notice for the ring of an id arrives (R365, R366). -/
def execCollAbortNotice (id flags peer : Nat) (s : State) : Out :=
  .next (match s.rings.find? fun r => r.id == id with
    | none => s
    | some r =>
      if s.frozenCtx (s.ctxOf r.launch) then s.holdStep (s.ctxOf r.launch) (.collAbortNotice id flags peer)
      else s.breakRing r flags peer)

/-! ## CABORT (R366) -/

/-- A COLL of this package waits in a round of the ring. -/
def Ring.inRound (r : Ring) : Bool := r.round.any (·.done.isNone)

/-- CABORT (R366). -/
def execCabort (d a : SReg) (s : State) : Out :=
  .next (checked (.cabort d a) s fun s =>
    match s.ringOf (s.rd a) with
    | none => s.raise (.cabort d a) (.prot 0 (s.rd a))
    | some r =>
      let me := s.v
      let seq := (r.round.map (·.seq)).getD 0
      let s1 := (s.send (.abort r.id seq 2 s.endpoint)).breakRing r 2 s.endpoint
      match s1.bring fun v => v.isAt me.core me.slot with
      | none => s1
      | some s2 => (s2.wr d (if r.inRound then 1 else 0)).finish (.cabort d a))

end Sys2Proof.Machine
end

