-- ==== Sys2Proof/Machine/Transfer.lean ====
section
/-! DEFINITION. Control transfers (R398, R400) with their compressed forms (R116), and the system group: TRAP (R428), BRK
(R299, R399), ERET (R307), IDLE (R320), FENCE and FENCEI (R188, R189), RDTIME (R359), SNUFF (R368) and YIELD (R46). -/

namespace Sys2Proof.Machine

/-! ## Transfers -/

/-- A branch: to `k` halfwords from its own address when the condition holds, else past it. -/
def branch {w : Nat} (i : Instr) (s : State) (holds : Bool) (k : BitVec w) : Out :=
  .next (checked i s fun s => if holds then s.complete i (s.v.pc + 2 * simm k) true else s.finish i)

/-- A transfer to a target, with the return address for a call: an odd target raises ALIGN (R74), a target of 0 at user
level ends the VLC (R340). -/
def State.transfer (s : State) (i : Instr) (target : Word) (link : Option Word) : State :=
  if target.getLsbD 0 then s.raise i (.plain .align 0 (untag target))
  else if target = 0 ∧ !s.v.sup then s.endVlc false
  else
    let s1 := match link with
      | some x => s.wr 1 x
      | none => s
    s1.complete i target true

/-- A jump. -/
def jump (i : Instr) (s : State) (target : Word) : Out := .next (checked i s fun s => s.transfer i target none)

/-- A call: s1 receives the address after it. -/
def callTo (i : Instr) (s : State) (target : Word) : Out :=
  .next (checked i s fun s => s.transfer i target (some (s.v.pc + BitVec.ofNat 64 i.len)))

/-- BR_EQZ (R398): branches if the register is zero. -/
def execBrEqz (a : SReg) (k : BitVec 18) (s : State) : Out := branch (.brEqz a k) s (s.rd a == 0) k
/-- BR_NEZ (R398): branches if the register is non-zero. -/
def execBrNez (a : SReg) (k : BitVec 18) (s : State) : Out := branch (.brNez a k) s (s.rd a != 0) k
/-- BR_LTZ (R398): branches if the register is negative. -/
def execBrLtz (a : SReg) (k : BitVec 18) (s : State) : Out := branch (.brLtz a k) s ((s.rd a).slt 0) k
/-- BR_GEZ (R398): branches if the register is not negative. -/
def execBrGez (a : SReg) (k : BitVec 18) (s : State) : Out := branch (.brGez a k) s (!(s.rd a).slt 0) k
/-- BR_EQ (R398): branches if the two registers are equal. -/
def execBrEq (a b : SReg) (k : BitVec 13) (s : State) : Out := branch (.brEq a b k) s (s.rd a == s.rd b) k
/-- BR_NE (R398): branches if the two registers differ. -/
def execBrNe (a b : SReg) (k : BitVec 13) (s : State) : Out := branch (.brNe a b k) s (s.rd a != s.rd b) k
/-- BR_LT (R398): branches if the first register is less than the second, compared signed. -/
def execBrLt (a b : SReg) (k : BitVec 13) (s : State) : Out := branch (.brLt a b k) s ((s.rd a).slt (s.rd b)) k
/-- BR_GE (R398): branches if the first register is greater than or equal to the second, compared signed. -/
def execBrGe (a b : SReg) (k : BitVec 13) (s : State) : Out := branch (.brGe a b k) s (!(s.rd a).slt (s.rd b)) k
/-- BR_LTU (R398): branches if the first register is less than the second, compared unsigned. -/
def execBrLtu (a b : SReg) (k : BitVec 13) (s : State) : Out := branch (.brLtu a b k) s ((s.rd a).ult (s.rd b)) k
/-- BR_GEU (R398): branches if the first register is greater than or equal to the second, compared unsigned. -/
def execBrGeu (a b : SReg) (k : BitVec 13) (s : State) : Out := branch (.brGeu a b k) s (!(s.rd a).ult (s.rd b)) k
/-- JMP (R400): jumps to a PC-relative target. -/
def execJmp (k : BitVec 18) (s : State) : Out := jump (.jmp k) s (s.v.pc + 2 * simm k)
/-- CALL (R400): jumps to a PC-relative target and writes the return address to s1. -/
def execCall (k : BitVec 18) (s : State) : Out := callTo (.call k) s (s.v.pc + 2 * simm k)
/-- JMP_REG (R400): jumps to ra plus a byte offset; a target of 0 at user level ends the VLC. -/
def execJmpReg (a : SReg) (k : BitVec 13) (s : State) : Out := jump (.jmpReg a k) s (s.rd a + simm k)
/-- CALL_REG (R400): calls ra plus a byte offset and writes s1. -/
def execCallReg (a : SReg) (k : BitVec 13) (s : State) : Out := callTo (.callReg a k) s (s.rd a + simm k)
/-- RET (R400): jumps to s1. -/
def execRet (s : State) : Out := jump .ret s (s.rd 1)
/-- C_JMP (R116): compressed PC-relative jump. -/
def execCJmp (k : BitVec 10) (s : State) : Out := jump (.cJmp k) s (s.v.pc + 2 * simm k)
/-- C_CALL (R116): compressed PC-relative call; s1 receives the address plus 2. -/
def execCCall (k : BitVec 10) (s : State) : Out := callTo (.cCall k) s (s.v.pc + 2 * simm k)
/-- C_RET (R116): compressed return. -/
def execCRet (s : State) : Out := jump .cRet s (s.rd 1)
/-- C_JMP_REG (R116): compressed jump to rA. -/
def execCJmpReg (a : SReg) (s : State) : Out := jump (.cJmpReg a) s (s.rd a)

/-! ## The system group -/

/-- TRAP #n: SYS with TPC at the next instruction and TVAL := n (R428). -/
def execTrap (n : BitVec 12) (s : State) : Out :=
  .next (checked (.trap n) s fun s =>
    s.takeTrap { cls := .sys, sub := 0, tval := n.setWidth 64, tpc := s.v.pc + BitVec.ofNat 64 (Instr.trap n).len,
                 forced := false, frec := none })

/-- BRK: the BRK class at the BRK itself, TVAL 0. -/
def execBrk (s : State) : Out := .next (checked .brk s fun s => s.trapHere .brk 0 0 none)

/-- ERET (R307). -/
def execEret (s : State) : Out := .next (checked .eret s fun s => s.returnFrom .eret)

/-- The issuing VLC leaves its core for a RESUME that names `b` (R320). -/
def State.release (s : State) (b : Nat) : State :=
  let s := s.refreeze.tellLate.vacate
  let v := { s.v with
    status := .released b, preempt := false, ripe := false, rows := Vector.replicate 4 0, remoteData := [], awaited := [],
    watching := none, freezing := false, cut := none }
  (({ s with v := Vlc.absent, parked := v :: s.parked }).gatePower v.core).dueDispatch

/-- The second case of IDLE: it completes once a pre-emption request is pending. -/
def State.idleWait (s : State) : State := if s.v.preempt then s.finish .idle else s.block .idle

/-- IDLE (R320); a release waits until the VLC's stores are performed (R184). -/
def execIdle (s : State) : Out :=
  .next (checked .idle s fun s =>
    match s.v.savedTo with
    | some b => if b = 0 then s.idleWait else s.afterStores .idle (·.release b)
    | none => s.idleWait)

/-- FENCE (R188): every access of this model is performed as its instruction completes, but for a store to another endpoint
that is not yet acknowledged; a load fence orders no store. -/
def execFence (k : FenceClass) (sc : Scope) (s : State) : Out :=
  .next (checked (.fence k sc) s fun s =>
    if k = .ld ∨ s.v.stores = [] then s.finish (.fence k sc) else s.block (.fence k sc))

/-- FENCEI (R189): fetches of this model see every write at once. -/
def execFencei (s : State) : Out := .next (checked .fencei s fun s => s.finish .fencei)

/-- A time of at most 1 µs, free within it (R359). -/
def State.roundTrip (s : State) : Word := BitVec.ofNat 64 ((s.free 64).toNat % 1001)

/-- RDTIME asks its I/O die and waits for the reply, which reads a Beacon a free time later (log 6). -/
def execRdtime (d : SReg) (s : State) : Out :=
  .next (checked (.rdtime d) s fun s =>
    let t := s.beacon + s.roundTrip
    (s.spend.block (.rdtime d)).due (.rdtimeReply s.v.core s.v.slot t))

/-- SNUFF (R368): it completes, a wave starts for its VLC's job, and the VLC freezes at the next instruction. -/
def execSnuff (s : State) : Out :=
  .next (checked .snuff s fun s =>
    let pc := s.v.pc
    let s1 := s.finish .snuff
    (s1.setV fun v => { v with frozen := true }).startWave (s.jobOf s.v.ctx) (s.causeOf 0x20 pc 0))

/-- YIELD (R46). -/
def execYield (s : State) : Out :=
  .next (checked .yield s fun s => (s.setV fun v => { v with yielded := true }).finish .yield)

/-! ## The steps that end a wait of this group -/

/-- A store of the VLC has been acknowledged. One that waits in FENCE completes once every store is; one that waits for its stores
inside another instruction, or in a trap entry, goes on. -/
def execFenceDone (core slot : Nat) (s : State) : Out :=
  .next (s.onVlc core slot fun s1 =>
    match s1.v.status with
    | .blocked (.fence k sc) => if s1.v.stores = [] then s1.finish (.fence k sc) else s1
    | .draining i => s1.setV fun v => { v with status := .again i }
    | _ => s1.goOn)

/-- The Beacon reply: the Beacon never decreases (R358), and RDTIME writes what it read. -/
def execRdtimeReply (core slot : Nat) (t : BitVec 64) (s : State) : Out :=
  .next (s.onVlc core slot fun s1 =>
    match s1.v.status with
    | .blocked (.rdtime d) =>
      let b := if s1.beacon.ult t then t else s1.beacon
      ({ s1 with beacon := b }.wr d b).finish (.rdtime d)
    | _ => s1)

/-- A pre-emption request has become pending on a VLC, or is made by the supervisor (R313); one that waits in IDLE completes (R320). -/
def execIdleWake (core : Nat) (slot : AskedOf) (s : State) : Out :=
  let s := if slot.ask then s.setVlcAt core slot.slot fun v => { v with preempt := true } else s
  .next (s.onVlc core slot.slot fun s1 =>
    if s1.v.status = .blocked .idle ∧ s1.v.preempt then s1.finish .idle else s1)

end Sys2Proof.Machine
end

