-- ==== Sys2Proof/Machine/Dispatch.lean ====
section
/-! DEFINITION. What each instruction does: one direct call for each constructor of `Instr`. -/

namespace Sys2Proof.Machine

/-- The meaning of an instruction or event. -/
def exec (i : Instr) (s : State) : Host.Outcome State Fault Refusal :=
  match i with
  | .add d a b c => Sys2Proof.Machine.execAdd d a b c s
  | .sub d a b c => Sys2Proof.Machine.execSub d a b c s
  | .mul d a b c => Sys2Proof.Machine.execMul d a b c s
  | .mulh u d a b c => Sys2Proof.Machine.execMulh u d a b c s
  | .div u d a b c => Sys2Proof.Machine.execDiv u d a b c s
  | .rem u d a b c => Sys2Proof.Machine.execRem u d a b c s
  | .and d a b c => Sys2Proof.Machine.execAnd d a b c s
  | .or d a b c => Sys2Proof.Machine.execOr d a b c s
  | .xor d a b c => Sys2Proof.Machine.execXor d a b c s
  | .shl d a b c => Sys2Proof.Machine.execShl d a b c s
  | .shr d a b c => Sys2Proof.Machine.execShr d a b c s
  | .shra d a b c => Sys2Proof.Machine.execShra d a b c s
  | .cmp p d a b c => Sys2Proof.Machine.execCmp p d a b c s
  | .min u d a b c => Sys2Proof.Machine.execMin u d a b c s
  | .max u d a b c => Sys2Proof.Machine.execMax u d a b c s
  | .clz d a c => Sys2Proof.Machine.execClz d a c s
  | .ctz d a c => Sys2Proof.Machine.execCtz d a c s
  | .popc d a c => Sys2Proof.Machine.execPopc d a c s
  | .sel d a b c => Sys2Proof.Machine.execSel d a b c s
  | .addImm d a k c => Sys2Proof.Machine.execAddImm d a k c s
  | .andImm d a k c => Sys2Proof.Machine.execAndImm d a k c s
  | .orImm d a k c => Sys2Proof.Machine.execOrImm d a k c s
  | .xorImm d a k c => Sys2Proof.Machine.execXorImm d a k c s
  | .shlImm d a k c => Sys2Proof.Machine.execShlImm d a k c s
  | .shrImm d a k c => Sys2Proof.Machine.execShrImm d a k c s
  | .shraImm d a k c => Sys2Proof.Machine.execShraImm d a k c s
  | .mulImm d a k c => Sys2Proof.Machine.execMulImm d a k c s
  | .cmpS64LtImm d a k c => Sys2Proof.Machine.execCmpS64LtImm d a k c s
  | .cmpN64LtImm d a k c => Sys2Proof.Machine.execCmpN64LtImm d a k c s
  | .lih d k c => Sys2Proof.Machine.execLih d k c s
  | .addpc d k c => Sys2Proof.Machine.execAddpc d k c s
  | .mfs d r c => Sys2Proof.Machine.execMfs d r c s
  | .mts r a c => Sys2Proof.Machine.execMts r a c s
  | .trap n => Sys2Proof.Machine.execTrap n s
  | .brEqz a k => Sys2Proof.Machine.execBrEqz a k s
  | .brNez a k => Sys2Proof.Machine.execBrNez a k s
  | .brLtz a k => Sys2Proof.Machine.execBrLtz a k s
  | .brGez a k => Sys2Proof.Machine.execBrGez a k s
  | .brEq a b k => Sys2Proof.Machine.execBrEq a b k s
  | .brNe a b k => Sys2Proof.Machine.execBrNe a b k s
  | .brLt a b k => Sys2Proof.Machine.execBrLt a b k s
  | .brGe a b k => Sys2Proof.Machine.execBrGe a b k s
  | .brLtu a b k => Sys2Proof.Machine.execBrLtu a b k s
  | .brGeu a b k => Sys2Proof.Machine.execBrGeu a b k s
  | .jmp k => Sys2Proof.Machine.execJmp k s
  | .call k => Sys2Proof.Machine.execCall k s
  | .jmpReg a k => Sys2Proof.Machine.execJmpReg a k s
  | .callReg a k => Sys2Proof.Machine.execCallReg a k s
  | .ret => Sys2Proof.Machine.execRet s
  | .eret => Sys2Proof.Machine.execEret s
  | .idle => Sys2Proof.Machine.execIdle s
  | .brk => Sys2Proof.Machine.execBrk s
  | .fencei => Sys2Proof.Machine.execFencei s
  | .rdtime d => Sys2Proof.Machine.execRdtime d s
  | .snuff => Sys2Proof.Machine.execSnuff s
  | .fence k sc => Sys2Proof.Machine.execFence k sc s
  | .ldN8 d a k => Sys2Proof.Machine.execLdN8 d a k s
  | .ldN16 d a k => Sys2Proof.Machine.execLdN16 d a k s
  | .ldN32 d a k => Sys2Proof.Machine.execLdN32 d a k s
  | .ldN64 d a k => Sys2Proof.Machine.execLdN64 d a k s
  | .ldS8 d a k => Sys2Proof.Machine.execLdS8 d a k s
  | .ldS16 d a k => Sys2Proof.Machine.execLdS16 d a k s
  | .ldS32 d a k => Sys2Proof.Machine.execLdS32 d a k s
  | .stN8 d a k => Sys2Proof.Machine.execStN8 d a k s
  | .stN16 d a k => Sys2Proof.Machine.execStN16 d a k s
  | .stN32 d a k => Sys2Proof.Machine.execStN32 d a k s
  | .stN64 d a k => Sys2Proof.Machine.execStN64 d a k s
  | .ldSpace t x d a => Sys2Proof.Machine.execLdSpace t x d a s
  | .stSpace t x d a => Sys2Proof.Machine.execStSpace t x d a s
  | .lda t sc x d a => Sys2Proof.Machine.execLda t sc x d a s
  | .strel t sc x d a => Sys2Proof.Machine.execStrel t sc x d a s
  | .cas o cm w32 sc d a b => Sys2Proof.Machine.execCas o cm w32 sc d a b s
  | .amo o cm w32 k sc d a b => Sys2Proof.Machine.execAmo o cm w32 k sc d a b s
  | .fadd t p d a b => Sys2Proof.Machine.execFadd t p d a b s
  | .fsub t p d a b => Sys2Proof.Machine.execFsub t p d a b s
  | .fmul t p d a b => Sys2Proof.Machine.execFmul t p d a b s
  | .fdiv t p d a b => Sys2Proof.Machine.execFdiv t p d a b s
  | .fsqrt t p d a => Sys2Proof.Machine.execFsqrt t p d a s
  | .fma t p d a b => Sys2Proof.Machine.execFma t p d a b s
  | .fcmp t p d a b => Sys2Proof.Machine.execFcmp t p d a b s
  | .fminmax t mx d a b => Sys2Proof.Machine.execFminmax t mx d a b s
  | .fcvt t p u d a => Sys2Proof.Machine.execFcvt t p u d a s
  | .cAdd a b => Sys2Proof.Machine.execCAdd a b s
  | .cSub a b => Sys2Proof.Machine.execCSub a b s
  | .cAnd a b => Sys2Proof.Machine.execCAnd a b s
  | .cOr a b => Sys2Proof.Machine.execCOr a b s
  | .cXor a b => Sys2Proof.Machine.execCXor a b s
  | .cAddImm a k => Sys2Proof.Machine.execCAddImm a k s
  | .cShl a k => Sys2Proof.Machine.execCShl a k s
  | .cShr a k => Sys2Proof.Machine.execCShr a k s
  | .cShra a k => Sys2Proof.Machine.execCShra a k s
  | .cLd a k => Sys2Proof.Machine.execCLd a k s
  | .cSt a k => Sys2Proof.Machine.execCSt a k s
  | .cJmp k => Sys2Proof.Machine.execCJmp k s
  | .cCall k => Sys2Proof.Machine.execCCall k s
  | .cRet => Sys2Proof.Machine.execCRet s
  | .cJmpReg a => Sys2Proof.Machine.execCJmpReg a s
  | .vadd t m d a b c => Sys2Proof.Machine.execVadd t m d a b c s
  | .vsub t m d a b c => Sys2Proof.Machine.execVsub t m d a b c s
  | .vmul t m d a b c => Sys2Proof.Machine.execVmul t m d a b c s
  | .vmulh t m d a b c => Sys2Proof.Machine.execVmulh t m d a b c s
  | .vand t m d a b c => Sys2Proof.Machine.execVand t m d a b c s
  | .vor t m d a b c => Sys2Proof.Machine.execVor t m d a b c s
  | .vxor t m d a b c => Sys2Proof.Machine.execVxor t m d a b c s
  | .vshl t m d a b c => Sys2Proof.Machine.execVshl t m d a b c s
  | .vshr t m d a b c => Sys2Proof.Machine.execVshr t m d a b c s
  | .vshra t m d a b c => Sys2Proof.Machine.execVshra t m d a b c s
  | .vmin t m d a b c => Sys2Proof.Machine.execVmin t m d a b c s
  | .vmax t m d a b c => Sys2Proof.Machine.execVmax t m d a b c s
  | .vsadd t m d a b c => Sys2Proof.Machine.execVsadd t m d a b c s
  | .vssub t m d a b c => Sys2Proof.Machine.execVssub t m d a b c s
  | .vfadd t m d a b c => Sys2Proof.Machine.execVfadd t m d a b c s
  | .vfsub t m d a b c => Sys2Proof.Machine.execVfsub t m d a b c s
  | .vfmul t m d a b c => Sys2Proof.Machine.execVfmul t m d a b c s
  | .vfdiv t m d a b c => Sys2Proof.Machine.execVfdiv t m d a b c s
  | .vfsqrt t m d a c => Sys2Proof.Machine.execVfsqrt t m d a c s
  | .vfrsq t m d a c => Sys2Proof.Machine.execVfrsq t m d a c s
  | .vfrcp t m d a c => Sys2Proof.Machine.execVfrcp t m d a c s
  | .vfma t m d a b c => Sys2Proof.Machine.execVfma t m d a b c s
  | .vfmin t m d a b c => Sys2Proof.Machine.execVfmin t m d a b c s
  | .vfmax t m d a b c => Sys2Proof.Machine.execVfmax t m d a b c s
  | .vfcvt t p u d a c => Sys2Proof.Machine.execVfcvt t p u d a c s
  | .vfclass t m d a c => Sys2Proof.Machine.execVfclass t m d a c s
  | .vfexp2 t m d a c => Sys2Proof.Machine.execVfexp2 t m d a c s
  | .vcmp t p d a b c => Sys2Proof.Machine.execVcmp t p d a b c s
  | .vsplat t m d a c => Sys2Proof.Machine.execVsplat t m d a c s
  | .vext t d a b => Sys2Proof.Machine.execVext t d a b s
  | .vins t d a b => Sys2Proof.Machine.execVins t d a b s
  | .vmerge t m d a b c => Sys2Proof.Machine.execVmerge t m d a b c s
  | .vperm t m d a b => Sys2Proof.Machine.execVperm t m d a b s
  | .vslideup t m d a b => Sys2Proof.Machine.execVslideup t m d a b s
  | .vslidedn t m d a b => Sys2Proof.Machine.execVslidedn t m d a b s
  | .vcompress t m d a => Sys2Proof.Machine.execVcompress t m d a s
  | .vexpand t m d a => Sys2Proof.Machine.execVexpand t m d a s
  | .vred t m k d a => Sys2Proof.Machine.execVred t m k d a s
  | .vscan t m k d a => Sys2Proof.Machine.execVscan t m k d a s
  | .mlog p d a b c => Sys2Proof.Machine.execMlog p d a b c s
  | .mpopc d a => Sys2Proof.Machine.execMpopc d a s
  | .mfirst d a => Sys2Proof.Machine.execMfirst d a s
  | .msbf d a => Sys2Proof.Machine.execMsbf d a s
  | .vld t m o d a c => Sys2Proof.Machine.execVld t m o d a c s
  | .vst t m o d a c => Sys2Proof.Machine.execVst t m o d a c s
  | .vldx t m d a b c => Sys2Proof.Machine.execVldx t m d a b c s
  | .vstx t m d a b c => Sys2Proof.Machine.execVstx t m d a b c s
  | .vstxa t m d a b c => Sys2Proof.Machine.execVstxa t m d a b c s
  | .vldl t m d a c => Sys2Proof.Machine.execVldl t m d a c s
  | .vstl t m d a c => Sys2Proof.Machine.execVstl t m d a c s
  | .vldbpc t k d a c => Sys2Proof.Machine.execVldbpc t k d a c s
  | .setvl d a => Sys2Proof.Machine.execSetvl d a s
  | .vregs n => Sys2Proof.Machine.execVregs n s
  | .setvp d a b => Sys2Proof.Machine.execSetvp d a b s
  | .vloop spread d a => Sys2Proof.Machine.execVloop spread d a s
  | .vnext d k => Sys2Proof.Machine.execVnext d k s
  | .bar g => Sys2Proof.Machine.execBar g s
  | .ssync d => Sys2Proof.Machine.execSsync d s
  | .yield => Sys2Proof.Machine.execYield s
  | .waitv cm sc p d a b => Sys2Proof.Machine.execWaitv cm sc p d a b s
  | .vidx step first w d c => Sys2Proof.Machine.execVidx step first w d c s
  | .vstbpc t m d a c => Sys2Proof.Machine.execVstbpc t m d a c s
  | .vbin t m d a b => Sys2Proof.Machine.execVbin t m d a b s
  | .vhash m d a b => Sys2Proof.Machine.execVhash m d a b s
  | .vhlook m d a b => Sys2Proof.Machine.execVhlook m d a b s
  | .vhins m d a b => Sys2Proof.Machine.execVhins m d a b s
  | .qset d a => Sys2Proof.Machine.execQset d a s
  | .qclr d => Sys2Proof.Machine.execQclr d s
  | .setvt t => Sys2Proof.Machine.execSetvt t s
  | .setmt x => Sys2Proof.Machine.execSetmt x s
  | .splook d a => Sys2Proof.Machine.execSplook d a s
  | .sptag a b => Sys2Proof.Machine.execSptag a b s
  | .cpy d a b => Sys2Proof.Machine.execCpy d a b s
  | .publ sc a => Sys2Proof.Machine.execPubl sc a s
  | .cwait d a b => Sys2Proof.Machine.execCwait d a b s
  | .mnbr d a b => Sys2Proof.Machine.execMnbr d a b s
  | .mlocate d a b => Sys2Proof.Machine.execMlocate d a b s
  | .mrefine d a b => Sys2Proof.Machine.execMrefine d a b s
  | .mcoarsen d a b => Sys2Proof.Machine.execMcoarsen d a b s
  | .mremap d a b => Sys2Proof.Machine.execMremap d a b s
  | .mcolor d a b => Sys2Proof.Machine.execMcolor d a b s
  | .mcut d a b => Sys2Proof.Machine.execMcut d a b s
  | .mmigr d a b => Sys2Proof.Machine.execMmigr d a b s
  | .mghost d a b => Sys2Proof.Machine.execMghost d a b s
  | .wqpost d a b => Sys2Proof.Machine.execWqpost d a b s
  | .wqrecv d a b => Sys2Proof.Machine.execWqrecv d a b s
  | .wkvapp d a b => Sys2Proof.Machine.execWkvapp d a b s
  | .wcomb d a b => Sys2Proof.Machine.execWcomb d a b s
  | .fput d a => Sys2Proof.Machine.execFput d a s
  | .fget d a => Sys2Proof.Machine.execFget d a s
  | .cring d a b => Sys2Proof.Machine.execCring d a b s
  | .coll d a b => Sys2Proof.Machine.execColl d a b s
  | .cabort d a => Sys2Proof.Machine.execCabort d a s
  | .launch d a b => Sys2Proof.Machine.execLaunch d a b s
  | .vsave a => Sys2Proof.Machine.execVsave a s
  | .vrestore a => Sys2Proof.Machine.execVrestore a s
  | .tshape t sp d a b => Sys2Proof.Machine.execTshape t sp d a b s
  | .tclaim oa => Sys2Proof.Machine.execTclaim oa s
  | .trel oa => Sys2Proof.Machine.execTrel oa s
  | .tld t sp oa a => Sys2Proof.Machine.execTld t sp oa a s
  | .tmma t acc oa ob c => Sys2Proof.Machine.execTmma t acc oa ob c s
  | .tmmas t sp acc oa ob oc c => Sys2Proof.Machine.execTmmas t sp acc oa ob oc c s
  | .text t m acc u d c => Sys2Proof.Machine.execText t m acc u d c s
  | .tinj t m acc u a c => Sys2Proof.Machine.execTinj t m acc u a c s
  | .tzero acc c => Sys2Proof.Machine.execTzero acc c s
  | .convoy ws => Sys2Proof.Machine.execConvoy ws s
  | .grantWaitTimeout core slot => Sys2Proof.Machine.execGrantWaitTimeout core slot s
  | .grantRowsFree core slot => Sys2Proof.Machine.execGrantRowsFree core slot s
  | .preemptForced core slot => Sys2Proof.Machine.execPreemptForced core slot s
  | .demotedIssueDue core slot => Sys2Proof.Machine.execDemotedIssueDue core slot s
  | .spinDemotionEnd core slot => Sys2Proof.Machine.execSpinDemotionEnd core slot s
  | .barGenerationComplete launch group gen => Sys2Proof.Machine.execBarGenerationComplete launch group gen s
  | .ssyncComplete launch peers => Sys2Proof.Machine.execSsyncComplete launch peers s
  | .waitvRetest core slot => Sys2Proof.Machine.execWaitvRetest core slot s
  | .waitvRemotePoll core slot => Sys2Proof.Machine.execWaitvRemotePoll core slot s
  | .fenceDone core slot => Sys2Proof.Machine.execFenceDone core slot s
  | .publSwap core slot => Sys2Proof.Machine.execPublSwap core slot s
  | .commandIssueResume core slot => Sys2Proof.Machine.execCommandIssueResume core slot s
  | .transferIssueResume core slot => Sys2Proof.Machine.execTransferIssueResume core slot s
  | .wqpostResume core slot => Sys2Proof.Machine.execWqpostResume core slot s
  | .wqrecvTripleReady core slot => Sys2Proof.Machine.execWqrecvTripleReady core slot s
  | .cwaitWake core slot => Sys2Proof.Machine.execCwaitWake core slot s
  | .mnbrBindingMade core slot => Sys2Proof.Machine.execMnbrBindingMade core slot s
  | .rdtimeReply core slot t => Sys2Proof.Machine.execRdtimeReply core slot t s
  | .idleWake core slot => Sys2Proof.Machine.execIdleWake core slot s
  | .cpyCommandEnd die h => Sys2Proof.Machine.execCpyCommandEnd die h s
  | .mlocateEnd die h => Sys2Proof.Machine.execMlocateEnd die h s
  | .mrefineEnd die h others => Sys2Proof.Machine.execMrefineEnd die h others s
  | .mcoarsenEnd die h others => Sys2Proof.Machine.execMcoarsenEnd die h others s
  | .mremapEnd die h => Sys2Proof.Machine.execMremapEnd die h s
  | .mcolorEnd die h => Sys2Proof.Machine.execMcolorEnd die h s
  | .mcutEnd die h others => Sys2Proof.Machine.execMcutEnd die h others s
  | .mmigrEnd die h others => Sys2Proof.Machine.execMmigrEnd die h others s
  | .mghostEnd die h others => Sys2Proof.Machine.execMghostEnd die h others s
  | .meshCollectiveTimeout die h => Sys2Proof.Machine.execMeshCollectiveTimeout die h s
  | .transferEnd die h => Sys2Proof.Machine.execTransferEnd die h s
  | .ringFormed id recs => Sys2Proof.Machine.execRingFormed id recs s
  | .ringFormationTimeout id arrived => Sys2Proof.Machine.execRingFormationTimeout id arrived s
  | .collRoundComplete slot parts => Sys2Proof.Machine.execCollRoundComplete slot parts s
  | .collHeartbeat slot => Sys2Proof.Machine.execCollHeartbeat slot s
  | .collSilenceTimeout slot => Sys2Proof.Machine.execCollSilenceTimeout slot s
  | .collAbortNotice id flags peer => Sys2Proof.Machine.execCollAbortNotice id flags peer s
  | .wickScanRow stack bank => Sys2Proof.Machine.execWickScanRow stack bank s
  | .wickSubqueryEnd stack launch rank slot seq => Sys2Proof.Machine.execWickSubqueryEnd stack launch rank slot seq s
  | .refreshDue stack bank postpone => Sys2Proof.Machine.execRefreshDue stack bank postpone s
  | .remapWindowEnd stack r0 r1 => Sys2Proof.Machine.execRemapWindowEnd stack r0 r1 s
  | .regionSwapPiece => Sys2Proof.Machine.execRegionSwapPiece s
  | .regionTableRebuild stack r => Sys2Proof.Machine.execRegionTableRebuild stack r s
  | .scrubError die place flaw => Sys2Proof.Machine.execScrubError die place flaw s
  | .nottailWrite die x => Sys2Proof.Machine.execNottailWrite die x s
  | .lrecWrite off data => Sys2Proof.Machine.execLrecWrite off data s
  | .qcfgWrite q x => Sys2Proof.Machine.execQcfgWrite q x s
  | .launchRecordCheck q => Sys2Proof.Machine.execLaunchRecordCheck q s
  | .waitWordReread launch => Sys2Proof.Machine.execWaitWordReread launch s
  | .launchPlace => Sys2Proof.Machine.execLaunchPlace s
  | .vlcResumePlace => Sys2Proof.Machine.execVlcResumePlace s
  | .launchComplete launch peers => Sys2Proof.Machine.execLaunchComplete launch peers s
  | .gangReport ep gang npkg start rank0 nvlc total => Sys2Proof.Machine.execGangReport ep gang npkg start rank0 nvlc total s
  | .gangReportDeadline launch => Sys2Proof.Machine.execGangReportDeadline launch s
  | .gangStart launch => Sys2Proof.Machine.execGangStart launch s
  | .resumeWrite die x => Sys2Proof.Machine.execResumeWrite die x s
  | .vendResident die x => Sys2Proof.Machine.execVendResident die x s
  | .vendReleased die x => Sys2Proof.Machine.execVendReleased die x s
  | .tlbinvContext die x => Sys2Proof.Machine.execTlbinvContext die x s
  | .tlbinvPage die x => Sys2Proof.Machine.execTlbinvPage die x s
  | .tlbinvAll die x => Sys2Proof.Machine.execTlbinvAll die x s
  | .tlbinvDone die => Sys2Proof.Machine.execTlbinvDone die s
  | .drfmtSpread die x => Sys2Proof.Machine.execDrfmtSpread die x s
  | .drfmtWick die x => Sys2Proof.Machine.execDrfmtWick die x s
  | .drfmtDone die => Sys2Proof.Machine.execDrfmtDone die s
  | .islctlWrite die k x => Sys2Proof.Machine.execIslctlWrite die k x s
  | .islandChangeDone die k => Sys2Proof.Machine.execIslandChangeDone die k s
  | .powerSample w => Sys2Proof.Machine.execPowerSample w s
  | .limStepDown => Sys2Proof.Machine.execLimStepDown s
  | .limStepUp => Sys2Proof.Machine.execLimStepUp s
  | .railOvercurrent => Sys2Proof.Machine.execRailOvercurrent s
  | .idkey x => Sys2Proof.Machine.execIdkey x s
  | .attest x => Sys2Proof.Machine.execAttest x s
  | .keyset x => Sys2Proof.Machine.execKeyset x s
  | .keyclr x => Sys2Proof.Machine.execKeyclr x s
  | .fwset x => Sys2Proof.Machine.execFwset x s
  | .update x => Sys2Proof.Machine.execUpdate x s
  | .pmcmdDone => Sys2Proof.Machine.execPmcmdDone s
  | .pbootRreq x => Sys2Proof.Machine.execPbootRreq x s
  | .packageReset => Sys2Proof.Machine.execPackageReset s
  | .bootImageVerified => Sys2Proof.Machine.execBootImageVerified s
  | .hostDramRead off n => Sys2Proof.Machine.execHostDramRead off n s
  | .hostDramWrite off data => Sys2Proof.Machine.execHostDramWrite off data s
  | .registerWrite pa x => Sys2Proof.Machine.execRegisterWrite pa x s
  | .remoteRequest ep id pa leaf op => Sys2Proof.Machine.execRemoteRequest ep id pa leaf op s
  | .remoteResponse id ans => Sys2Proof.Machine.execRemoteResponse id ans s
  | .fabricTimeout id => Sys2Proof.Machine.execFabricTimeout id s
  | .planeFailure p => Sys2Proof.Machine.execPlaneFailure p s
  | .beaconSync t => Sys2Proof.Machine.execBeaconSync t s
  | .sncmdFreeze job => Sys2Proof.Machine.execSncmdFreeze job s
  | .sncmdResume job => Sys2Proof.Machine.execSncmdResume job s
  | .sncmdStep job => Sys2Proof.Machine.execSncmdStep job s
  | .sncmdDump job => Sys2Proof.Machine.execSncmdDump job s
  | .sncmdLoad job => Sys2Proof.Machine.execSncmdLoad job s
  | .snuffWaveArrival wave time ep die cls rank pc detail => Sys2Proof.Machine.execSnuffWaveArrival wave time ep die cls rank pc detail s
  | .frozenReport job peers => Sys2Proof.Machine.execFrozenReport job peers s
  | .causeRecord job time ep die cls rank pc detail => Sys2Proof.Machine.execCauseRecord job time ep die cls rank pc detail s
  | .snuffResumeArrival job tick => Sys2Proof.Machine.execSnuffResumeArrival job tick s
  | .snuffReleaseTick job => Sys2Proof.Machine.execSnuffReleaseTick job s
  | .powerLoss => Sys2Proof.Machine.execPowerLoss s
  | .hostConfigurationRequest => Sys2Proof.Machine.execHostConfigurationRequest s
  | .refreshComplete stack bank => Sys2Proof.Machine.execRefreshComplete stack bank s
  | .matrixMemberComplete core slot => Sys2Proof.Machine.execMatrixMemberComplete core slot s

end Sys2Proof.Machine
end

