-- ==== Sys2Proof/Machine/Place.lean ====
section
/-! DEFINITION. The placement of one instruction for the next step: what the host, the supervisor and the dispatcher do before
a launched program's first instruction runs (log 1). -/

namespace Sys2Proof.Machine

/-- The address the placed instruction lies at, virtual and physical. -/
def placeAt : Nat := 0x10000

/-- The page tables of the placed context: a context table at 0x4000 whose entry 0 names the root at 0x1000, two pointer
entries, and one 1 GiB leaf that maps the first GiB to itself with every right, granule G64 and A and D set. -/
def placeTables (m : Memory) : Memory :=
  ((((m.write 0x1000 8 0x2001).write 0x2000 8 0x3001).write 0x3000 8 0x17F).write 0x4000 8 0x1000).write 0x4008 8 0

/-- The launch of the placed VLC: one VLC of 32 registers on every lane cluster, with the TILE flag, in context 0. -/
def placeLaunch : Launch where
  key := 0
  queue := 0
  prio := 0
  ctx := 0
  entry := BitVec.ofNat 64 placeAt
  args := 0
  regs := 3
  tile := true
  nvlc := 1
  lcw := 3
  minlc := 0
  lendable := false
  borrow := false
  waits := []
  sig := none
  gang := 0
  npkg := 1
  start := 0
  rank0 := 0
  total := 1
  qtrap := 0
  groups := []
  phase := .running
  ended := []
  failed := none
  bars := []
  superstep := 0
  told := 0
  ssync := []
  peersArrived := []
  peersDone := []
  toldDone := false

/-- The placed VLC, at its kernel's entry (R105). -/
def placeVlc : Vlc :=
  { Vlc.absent with
    status := .runnable, pc := BitVec.ofNat 64 placeAt, lc := 15, rows := Vector.replicate 4 16, declEff := 3, declPend := 3, declHeld := 3,
    tileOwner := true }

/-- The other VLCs: those on other cores. -/
def placeOthers (s : State) : List Vlc :=
  (if s.v.status = .absent ∨ s.v.core = 0 then [] else [s.v]) ++ s.parked.filter fun v => v.core != 0

/-- A state whose next step executes the instruction with the given bytes. -/
def placeBytes (s : State) (l : List Byte) : State :=
  let s := (s.setCore 0 fun c => { c with tlb := [], watch := Core.reset.watch, stepctl := 0, lastSlot := 3 }).setDie 0
    fun d => { d with tlb := [], ctxbase := 0x4000, islands := Vector.replicate 2 Island.reset }
  { s with
    v := placeVlc
    parked := placeOthers s
    events := []
    lastCore := 1023
    launches := placeLaunch :: s.launches.filter fun l => l.key != 0
    regions := put Region.reset 0 Region.reset s.regions
    mem := { (placeTables s.mem).setBytes placeAt l with
      poison := put false (placeAt / 32) false (putRange false 0x80 false 0x181 s.mem.poison)
      checks := clearKeys (fun k => k == placeAt / 32 || (decide (0x80 ≤ k) && decide (k < 0x201))) s.mem.checks }
    pilot := { s.pilot with boot := 3 } }

end Sys2Proof.Machine
end

