-- ==== Sys2Proof/Machine/Step.lean ====
section
/-! DEFINITION. One step of the package: the oldest input or due engine step; else one instruction or convoy of the VLC that
the sequencers choose; else nothing. -/

namespace Sys2Proof.Machine

/-- An instruction or convoy of the issuing VLC: the one it goes on with, which no boundary precedes (R354), or the one at its pc. -/
def State.issue (s : State) : Host.Outcome State Fault Refusal :=
  match s.v.status with
  | .again i => exec i (s.setV fun v => { v with status := .runnable })
  | _ =>
    match s.boundary with
    | some s1 => .next s1
    | none =>
      match s.fetch with
      | .error e => .next (s.raise fetching e)
      | .ok (.stop e, s1) => .next (s1.raise fetching e)
      | .ok (.run i, s1) => exec i s1

/-- One step. -/
def step (s : State) : Host.Outcome State Fault Refusal :=
  match s.events with
  | e :: l => exec e { s with events := l }
  | [] =>
    match s.pick with
    | none => .next s
    | some s1 => s1.issue

/-- The state with the instruction of `nbits` bits `w` placed where the next step fetches (log 1). -/
def State.withFetchWord (s : State) (nbits w : Nat) : State := placeBytes s (bytesOf 8 (w % 2 ^ nbits))

end Sys2Proof.Machine
end

