-- ==== Sys2Proof/Safety.lean ====
section
/-! DEFINITION. What the claims are stated in: the values of the scalar instructions as their tables give them, where an
instruction leaves its VLC, and what a step may rely on. -/

namespace Sys2Proof.Machine

/-! ## Going on -/

/-- Nothing from outside its program comes between the issuing VLC's instruction and its next: no STEP trap (R374), no debugger STEP
(R373), no Snuff wave (R370), no forced pre-emption (R315), no uncorrectable error in its registers (R311), and no store of an
earlier strip of a spread loop still on its way (R183). -/
def State.smooth (s : State) : Bool :=
  (s.v.level == .supervisor || !(s.core s.v.core).stepctl.getLsbD s.v.slot) && !s.v.stepOnce && !s.v.freezing && !s.v.due
    && s.v.cut == none && s.v.bad == [] && !s.v.stores.any (·.old)

/-- The issuing VLC runs on at `pc`, its instruction `i` complete: nothing of `i` is awaited or queued any more. `by_transfer`
says that a transfer of control led there (R88). -/
def State.goesOn (s : State) (i : Instr) (pc : Word) (by_transfer : Bool) : State :=
  { s with v := { s.v with
      pc := pc, status := .runnable, entered := by_transfer, prevRole := if by_transfer then none else some i.role,
      remoteData := [], awaited := [], watching := none, queued := none, queuedT := none, queuedQ := [], append := none, early := false,
      cut := none } }

/-- The issuing VLC past its instruction: the pc advanced by the instruction's length. -/
def State.past (s : State) (i : Instr) : State := s.goesOn i (s.v.pc + BitVec.ofNat 64 i.len) false

/-! ## The scalar group, as R393 to R395 and R116 state it -/

/-- The destination and the value of an instruction of the scalar integer group. -/
def scalarResult (i : Instr) (s : State) : Option (SReg × Word) :=
  match i with
  | .add d a b _ => some (d, s.rd a + s.rd b)
  | .sub d a b _ => some (d, s.rd a - s.rd b)
  | .mul d a b _ => some (d, s.rd a * s.rd b)
  | .mulh false d a b _ => some (d, BitVec.ofInt 64 ((s.rd a).toInt * (s.rd b).toInt / 2 ^ 64))
  | .mulh true d a b _ => some (d, BitVec.ofNat 64 ((s.rd a).toNat * (s.rd b).toNat / 2 ^ 64))
  | .div false d a b _ => some (d, if s.rd b = 0 then -1 else BitVec.ofInt 64 ((s.rd a).toInt.tdiv (s.rd b).toInt))
  | .div true d a b _ => some (d, if s.rd b = 0 then -1 else s.rd a / s.rd b)
  | .rem false d a b _ => some (d, if s.rd b = 0 then s.rd a else BitVec.ofInt 64 ((s.rd a).toInt.tmod (s.rd b).toInt))
  | .rem true d a b _ => some (d, if s.rd b = 0 then s.rd a else s.rd a % s.rd b)
  | .and d a b _ => some (d, s.rd a &&& s.rd b)
  | .or d a b _ => some (d, s.rd a ||| s.rd b)
  | .xor d a b _ => some (d, s.rd a ^^^ s.rd b)
  | .shl d a b _ => some (d, s.rd a <<< ((s.rd b).toNat % 64))
  | .shr d a b _ => some (d, s.rd a >>> ((s.rd b).toNat % 64))
  | .shra d a b _ => some (d, (s.rd a).sshiftRight ((s.rd b).toNat % 64))
  | .cmp .eq d a b _ => some (d, if s.rd a = s.rd b then 1 else 0)
  | .cmp .ne d a b _ => some (d, if s.rd a = s.rd b then 0 else 1)
  | .cmp .ltS d a b _ => some (d, if (s.rd a).toInt < (s.rd b).toInt then 1 else 0)
  | .cmp .geS d a b _ => some (d, if (s.rd a).toInt < (s.rd b).toInt then 0 else 1)
  | .cmp .ltU d a b _ => some (d, if (s.rd a).toNat < (s.rd b).toNat then 1 else 0)
  | .cmp .geU d a b _ => some (d, if (s.rd a).toNat < (s.rd b).toNat then 0 else 1)
  | .min false d a b _ => some (d, BitVec.ofInt 64 (Min.min (s.rd a).toInt (s.rd b).toInt))
  | .min true d a b _ => some (d, BitVec.ofNat 64 (Min.min (s.rd a).toNat (s.rd b).toNat))
  | .max false d a b _ => some (d, BitVec.ofInt 64 (Max.max (s.rd a).toInt (s.rd b).toInt))
  | .max true d a b _ => some (d, BitVec.ofNat 64 (Max.max (s.rd a).toNat (s.rd b).toNat))
  | .clz d a _ => some (d, (s.rd a).clz)
  | .ctz d a _ => some (d, (s.rd a).ctz)
  | .popc d a _ => some (d, BitVec.ofNat 64 ((List.range 64).countP fun k => (s.rd a).getLsbD k))
  | .sel d a b _ => some (d, if s.rd d ≠ 0 then s.rd a else s.rd b)
  | .addImm d a k _ => some (d, s.rd a + k.signExtend 64)
  | .andImm d a k _ => some (d, s.rd a &&& k.signExtend 64)
  | .orImm d a k _ => some (d, s.rd a ||| k.signExtend 64)
  | .xorImm d a k _ => some (d, s.rd a ^^^ k.signExtend 64)
  | .shlImm d a k _ => some (d, s.rd a <<< k.toNat)
  | .shrImm d a k _ => some (d, s.rd a >>> k.toNat)
  | .shraImm d a k _ => some (d, (s.rd a).sshiftRight k.toNat)
  | .mulImm d a k _ => some (d, s.rd a * k.signExtend 64)
  | .cmpS64LtImm d a k _ => some (d, if (s.rd a).toInt < k.toInt then 1 else 0)
  | .cmpN64LtImm d a k _ => some (d, if (s.rd a).toNat < (k.signExtend 64).toNat then 1 else 0)
  | .lih d k _ => some (d, BitVec.ofNat 64 ((s.rd d).toNat * 2 ^ 18 + k.toNat))
  | .addpc d k _ => some (d, BitVec.ofInt 64 (s.v.pc.toNat + 2 * k.toInt))
  | .cAdd a b => some (a, s.rd a + s.rd b)
  | .cSub a b => some (a, s.rd a - s.rd b)
  | .cAnd a b => some (a, s.rd a &&& s.rd b)
  | .cOr a b => some (a, s.rd a ||| s.rd b)
  | .cXor a b => some (a, s.rd a ^^^ s.rd b)
  | .cAddImm a k => some (a, BitVec.ofInt 64 ((s.rd a).toInt + k.toInt))
  | .cShl a k => some (a, s.rd a <<< k.toNat)
  | .cShr a k => some (a, s.rd a >>> k.toNat)
  | .cShra a k => some (a, (s.rd a).sshiftRight k.toNat)
  | _ => none

/-! ## Transfers, as R398, R400 and R116 state them -/

/-- Whether a branch is taken, and its target. -/
def branchTarget (i : Instr) (s : State) : Option (Bool × Word) :=
  let at18 (k : BitVec 18) : Word := BitVec.ofInt 64 (s.v.pc.toNat + 2 * k.toInt)
  let at13 (k : BitVec 13) : Word := BitVec.ofInt 64 (s.v.pc.toNat + 2 * k.toInt)
  match i with
  | .brEqz a k => some (decide (s.rd a = 0), at18 k)
  | .brNez a k => some (decide (s.rd a ≠ 0), at18 k)
  | .brLtz a k => some (decide ((s.rd a).toInt < 0), at18 k)
  | .brGez a k => some (decide (0 ≤ (s.rd a).toInt), at18 k)
  | .brEq a b k => some (decide (s.rd a = s.rd b), at13 k)
  | .brNe a b k => some (decide (s.rd a ≠ s.rd b), at13 k)
  | .brLt a b k => some (decide ((s.rd a).toInt < (s.rd b).toInt), at13 k)
  | .brGe a b k => some (decide ((s.rd b).toInt ≤ (s.rd a).toInt), at13 k)
  | .brLtu a b k => some (decide ((s.rd a).toNat < (s.rd b).toNat), at13 k)
  | .brGeu a b k => some (decide ((s.rd b).toNat ≤ (s.rd a).toNat), at13 k)
  | _ => none

/-- The target of a jump, call or return, and whether it is a call. -/
def jumpTarget (i : Instr) (s : State) : Option (Word × Bool) :=
  let from_ (x : Int) : Word := BitVec.ofInt 64 (s.v.pc.toNat + 2 * x)
  match i with
  | .jmp k => some (from_ k.toInt, false)
  | .call k => some (from_ k.toInt, true)
  | .cJmp k => some (from_ k.toInt, false)
  | .cCall k => some (from_ k.toInt, true)
  | .jmpReg a k => some (s.rd a + k.signExtend 64, false)
  | .callReg a k => some (s.rd a + k.signExtend 64, true)
  | .cJmpReg a => some (s.rd a, false)
  | .ret => some (s.rd 1, false)
  | .cRet => some (s.rd 1, false)
  | _ => none

/-! ## Scalar accesses to memory, as R410 to R412 and R116 state them -/

/-- A scalar load: the type it reads, its space, its destination and its address. -/
def scalarLoad (i : Instr) (s : State) : Option (VType × Space × SReg × Word) :=
  match i with
  | .ldN8 d a k => some (.n8, .glob, d, s.rd a + k.signExtend 64)
  | .ldN16 d a k => some (.n16, .glob, d, s.rd a + k.signExtend 64)
  | .ldN32 d a k => some (.n32, .glob, d, s.rd a + k.signExtend 64)
  | .ldN64 d a k => some (.n64, .glob, d, s.rd a + k.signExtend 64)
  | .ldS8 d a k => some (.s8, .glob, d, s.rd a + k.signExtend 64)
  | .ldS16 d a k => some (.s16, .glob, d, s.rd a + k.signExtend 64)
  | .ldS32 d a k => some (.s32, .glob, d, s.rd a + k.signExtend 64)
  | .ldSpace t x d a => some (t, x, d, s.rd a)
  | .lda t _ x d a => some (t, x, d, s.rd a)
  | .cLd a k => some (.n64, .glob, a, s.rd 2 + BitVec.ofNat 64 (8 * k.toNat))
  | _ => none

/-- A scalar store: the type it writes, its space, the register it stores and its address. -/
def scalarStore (i : Instr) (s : State) : Option (VType × Space × SReg × Word) :=
  match i with
  | .stN8 d a k => some (.n8, .glob, d, s.rd a + k.signExtend 64)
  | .stN16 d a k => some (.n16, .glob, d, s.rd a + k.signExtend 64)
  | .stN32 d a k => some (.n32, .glob, d, s.rd a + k.signExtend 64)
  | .stN64 d a k => some (.n64, .glob, d, s.rd a + k.signExtend 64)
  | .stSpace t x d a => some (t, x, d, s.rd a)
  | .strel t _ x d a => some (t, x, d, s.rd a)
  | .cSt a k => some (.n64, .glob, a, s.rd 2 + BitVec.ofNat 64 (8 * k.toNat))
  | _ => none

/-! ## Accesses that are permitted and at once complete (R148, R302) -/

/-- The translation of an address that a party holds: in its die's TLB and, for a core, in the core's own (R296). -/
def State.cached (s : State) (p : Party) (a : Word) : Option TlbEntry :=
  let first := if (tlbFind p.ctx a (s.tlb1 p)).isSome then tlbFind p.ctx a (s.tlb1 p) else tlbFind p.ctx a (s.die p.die).tlb
  first.filter fun e => (s.die p.die).tlb.contains e && (p.core.isNone || (s.tlb1 p).contains e)

/-- Where in the package's own DRAM an access of space 0 lies, that every check of R302 permits by a translation that the party
holds, of a page stored in the clear without tags, whose leaf the access leaves as it is: the page has the right, and U at user
level, the granule agrees with the region, and no watch pair matches. -/
def State.direct (s : State) (p : Party) (q : Req) : Option Nat :=
  (s.cached p q.va).bind fun e =>
    let pa := e.phys q.va
    if tagKey q.va = 0 ∧ canonical q.va = true ∧ windowOf pa = 0 ∧ epOf pa = s.endpoint ∧ e.permits p q.kind = true ∧
      s.granuleOk e.gr (e.bit 10) pa = true ∧ e.bit 11 = false ∧ e.bit 12 = false ∧ usedPte e q = e.pte ∧
      s.watched p q.kind q.va.toNat q.n = false then some pa else none

/-- Where the bytes of an aligned access lie in the memory of its space, when nothing stops it: in space 0 by a translation held,
where a read meets no poison (R281); elsewhere within the space (R149). -/
def State.spot (s : State) (x : Space) (q : Req) : Option Nat :=
  if q.va.toNat % q.n ≠ 0 then none
  else match x with
  | .glob => (s.direct s.party q).bind fun pa => if q.kind ≠ .store ∧ s.poisoned pa = true then none else some (dramKey pa)
  | .cmem => if q.va.toNat + q.n ≤ 0x400000 then some q.va.toNat else none
  | .spad => if q.va.toNat + q.n ≤ 0x40000 then some q.va.toNat else none
  | .lane => if q.va.toNat + q.n ≤ 0x1000 then some q.va.toNat else none

/-- The 8-byte word of space 0 that a party reads, when nothing stops it. -/
def State.openWord (s : State) (p : Party) (a : Word) : Option Nat :=
  (s.direct p (.mem a 8 .load 0)).bind fun pa => if s.poisoned pa = true then none else some (s.mem.read (dramKey pa) 8)

/-- The bytes of `n` such words, one after another. -/
def State.openWords (s : State) (p : Party) (a : Word) : Nat → Option (List Byte)
  | 0 => some []
  | n + 1 => (s.openWord p a).bind fun x => (s.openWords p (a + 8) n).map fun l => bytesOf 8 x ++ l

/-- `n` words of 8 bytes that a party may write. -/
def State.writable (s : State) (p : Party) (a : Word) (n : Nat) : Prop :=
  ∀ k, k < n → (s.direct p (.mem (a + BitVec.ofNat 64 (8 * k)) 8 .store 0)).isSome = true

/-- An aligned access of `w` bytes that nothing stops, of bytes that hold no poison where it reads them. -/
def State.opens (s : State) (p : Party) (k : AccKind) (a : Word) (w : Nat) : Prop :=
  a.toNat % w = 0 ∧ ∃ pa, s.direct p (.mem a w k 0) = some pa ∧ (k ≠ .store → s.poisoned pa = false)

/-- The byte of space 0 that a party reads, when nothing stops it. -/
def State.openByte (s : State) (p : Party) (a : Word) : Option Byte :=
  (s.direct p (.mem a 1 .load 0)).bind fun pa => if s.poisoned pa = true then none else some (BitVec.ofNat 8 (s.mem.read (dramKey pa) 1))

/-- `n` such bytes. -/
def State.openBytes (s : State) (p : Party) (a : Word) : Nat → Option (List Byte)
  | 0 => some []
  | n + 1 => (s.openByte p a).bind fun x => (s.openBytes p (a + 1) n).map fun l => x :: l

/-- A state that differs in its counts of accesses only (R287). -/
def State.counted (s u : State) : Prop := u = { s with accesses := u.accesses }

/-- No memory of a space but one differs. -/
def State.elsewhere (s u : State) (x : Space) : Prop := ∀ y, y ≠ x → u.spaceMem y = s.spaceMem y

/-- The value of `x`, the bytes of a load of type `t`, in a scalar register: sign-extended for a signed type and
zero-extended for any other (R133, R411). -/
def loaded (t : VType) (x : Nat) : Word :=
  if t.isSigned ∧ 2 ^ (t.width - 1) ≤ x then BitVec.ofInt 64 ((x : Int) - 2 ^ t.width) else BitVec.ofNat 64 x

/-- The result that a scalar floating-point instruction computes, and its destination (R406 to R408): the low bits of its
registers are its operands. -/
def scalarFp (i : Instr) (s : State) : Option (SReg × Res) :=
  let f (t : VType) (r : SReg) : Nat := (s.rd r).toNat % 2 ^ t.width
  let rm (p : Rnd) : RMode := match p with
    | .fpc => RMode.ofRm s.v.fpc.rm
    | .rne => .rne
    | .rtz => .rtz
    | .rup => .rup
    | .rdn => .rdn
  match i with
  | .fadd t p d a b => some (d, fpAdd t.fmt (rm p) false (f t a) (f t b))
  | .fsub t p d a b => some (d, fpSub t.fmt (rm p) false (f t a) (f t b))
  | .fmul t p d a b => some (d, fpMul t.fmt (rm p) false (f t a) (f t b))
  | .fdiv t p d a b => some (d, fpDiv t.fmt (rm p) false (f t a) (f t b))
  | .fsqrt t p d a => some (d, fpSqrt t.fmt (rm p) false (f t a))
  | .fma t p d a b => some (d, fpFma t.fmt (rm p) false (f t a) (f t b) (f t d))
  | .fcmp t .eq d a b => some (d, truthRes (fpCompare t.fmt false .eq (f t a) (f t b)))
  | .fcmp t .lt d a b => some (d, truthRes (fpCompare t.fmt false .lt (f t a) (f t b)))
  | .fcmp t .le d a b => some (d, truthRes (fpCompare t.fmt false .le (f t a) (f t b)))
  | .fcmp t .un d a b => some (d, truthRes (fpCompare t.fmt false .un (f t a) (f t b)))
  | .fminmax t mx d a b => some (d, fpMinMax t.fmt mx false (f t a) (f t b))
  | .fcvt t p u d a =>
    let c : CvtMode := match p with
      | .fpc | .sat => .mode (RMode.ofRm s.v.fpc.rm)
      | .rne => .mode .rne
      | .rtz => .mode .rtz
      | .rup => .mode .rup
      | .rdn => .mode .rdn
      | .sr | .srSat => .draw ((srStep s.v.srseed).toNat % 65536)
    let r := cvt t u c (p == .sat || p == .srSat) (f u a)
    some (d, { r with bits := (if t.isI then loaded t r.bits else BitVec.ofNat 64 r.bits).toNat })
  | _ => none
where
  /-- A truth value and its flags as a result. -/
  truthRes (x : Bool × Flags) : Res := { bits := if x.1 then 1 else 0, flags := x.2 }

/-- The draw of SRSEED that a stochastic conversion uses up (R136, R138). -/
def State.afterDraw (s : State) (i : Instr) : State :=
  match i with
  | .fcvt _ .sr _ _ _ | .fcvt _ .srSat _ _ _ => s.setV fun v => { v with srseed := srStep v.srseed }
  | _ => s

/-! ## Special registers -/

/-- The bits that MTS writes and MFS reads back, of a special register that has only such fields (R417 Table 5). -/
def sprMask : Spr → Option Word
  | .mt => some 0x3
  | .vstart => some 0xFFFFFFFF00003FFF
  | .scnt | .srseed | .tpc | .tval => some 0xFFFFFFFFFFFFFFFF
  | .tsm => some 0x7FFF
  | .tsn => some 0x7F
  | .tsk => some 0x3FFF03FF
  | .fpc => some 0x131F1F
  | .vdecl => some 0x33
  | .tcause => some 0x1DFF1F
  | .tvec => some 0xFFFFFFFFFFFFFE00
  | .vl | .mvl | .vt | .fsr | .lcmap | .vlcid | .gmemb | .vhwm _ | .maxvl | .lremap _ => none

/-- The issuing VLC with a special register written, where the write changes that register alone (R417 Table 5). -/
def sprAlone (r : Spr) (x : Word) (v : Vlc) : Option Vlc :=
  match r with
  | .vt => (VType.ofCode (x.extractLsb' 0 5)).map fun t => { v with vt := t }
  | .mt => (Space.ofCode (0#3 ++ x.extractLsb' 0 2)).map fun m => { v with mt := m }
  | .vstart => some { v with vstart := x.toNat % 16384, tilepos := x.extractLsb' 32 32 }
  | .fsr => some { v with fsrPoison := v.fsrPoison && !x.getLsbD 1, fsrTrim := v.fsrTrim && !x.getLsbD 0 }
  | .scnt => some { v with scnt := x }
  | .tsm => some { v with tsmSpar := x.extractLsb' 13 2, tsmType := x.extractLsb' 8 5, tsmM := x.extractLsb' 0 8 }
  | .tsn => some { v with tsn := x.extractLsb' 0 7 }
  | .tsk => some { v with acur := x.toNat / 65536 % 16384, tskK := x.extractLsb' 0 10 }
  | .fpc => some { v with fpc := { ftz := x.getLsbD 20, rm := x.extractLsb' 16 2, en := x.extractLsb' 8 5,
                                   flags := x.extractLsb' 0 5 } }
  | .srseed => some { v with srseed := x }
  | .tcause => some { v with tcause := { recd := x.getLsbD 20, nest := x.getLsbD 19, ppl := x.getLsbD 18,
                                         forced := x.getLsbD 16, sub := x.extractLsb' 8 8, cls := x.extractLsb' 0 5 } }
  | .tpc => some { v with tpc := x }
  | .tval => some { v with tval := x }
  | .tvec => some { v with tvec := x.extractLsb' 9 55 }
  | .vl | .mvl | .lcmap | .vlcid | .gmemb | .vdecl | .vhwm _ | .maxvl | .lremap _ => none

/-! ## Element-wise vector instructions (R437, R441, R442, R451, R456, R83) -/

/-- What an element-wise instruction does: its type, its mask field, its destination, the registers whose element `k` it
reads, and the value and flags of element `k`. -/
structure VecOp where
  t : VType
  mask : MReg
  d : VReg
  reads : Nat → List VReg
  val : Nat → Res

/-- Element `k` of a vector register, of a type's width, at bit `width × k` of its image (R54); an E2M1 value lies in bits
3:0 (R64). -/
def Vlc.element (v : Vlc) (t : VType) (r : VReg) (k : Nat) : Nat :=
  let x := ((v.vregs[r.toNat]).img.extractLsb' (t.width * k) t.width).toNat
  if t = .e2m1 ∨ t = .e2m1x then x % 16 else x

/-- Element `k` is active: from VSTART.ELEM, below VL and allowed by the mask field (R76, R433). -/
def Vlc.live (v : Vlc) (m : MReg) (k : Nat) : Prop :=
  v.vstart ≤ k ∧ k < v.vl ∧ (m = 0 ∨ (v.masks[m.toNat]).getLsbD k = true)

/-! ## Elements of vector memory accesses (R150, R154, R155, R163, R164, R171) -/

/-- Where the bytes of an element's access lie in the memory of its space, when nothing stops it; a lane table's follow those of the
tables below it. -/
def State.eltSpot (s : State) (k : AccKind) (a : Elt) : Option Nat :=
  if a.late.isSome then none
  else (s.spot a.space (a.req k)).map fun o => if a.space = .lane then 4096 * s.v.laneTable a.elem + o else o

/-- What an element's load reads, when nothing stops it. -/
def State.eltLoad (s : State) (a : Elt) : Option Nat := (s.eltSpot .load a).map fun o => (s.spaceMem a.space).read o a.bytes

/-- The address of element `k` of a stream access of a type: that of its position, which must lie within the stream. -/
def State.streamAddr (s : State) (t : VType) (qn : QReg) (k : Nat) : Option Word :=
  let q := s.v.streams[qn.toNat]
  let u := if t.isX then 128 else if t = .e2m1 then 2 else 1
  let size := if t = .e4m3x then 136 else if t = .e2m1x then 72 else t.width / 8
  if (q.kind = .pattern ∨ q.kind = .tile) ∧ q.pos + k / u < q.extent then some (q.address size (q.pos + k / u)) else none

/-- The access of element `k` of a stream to `n` bytes at an offset from its position. -/
def State.streamElt (s : State) (t : VType) (qn : QReg) (k : Nat) (a : Word) (o n : Nat) : Elt :=
  { space := s.v.mt, addr := a + BitVec.ofNat 64 o, bytes := n, elem := k, once := (s.v.streams[qn.toNat]).once t, late := none }

/-- The offset of element `k`'s byte in its position, and its bytes: payloads of a block lie before its scale (R123). -/
def inPosition (t : VType) (k : Nat) : Nat × Nat :=
  if t = .e4m3x then (k % 128, 1) else if t = .e2m1x then (k % 128 / 2, 1) else (0, t.width / 8)

/-- The accesses of element `k` of a stream access: its payload's, and before it that of its block's scale. -/
def State.streamElts (s : State) (t : VType) (qn : QReg) (k : Nat) : Option (List Elt) :=
  (s.streamAddr t qn k).map fun a =>
    (if t.isX then [s.streamElt t qn k a (if t = .e4m3x then 128 else 64) 8] else [])
      ++ [s.streamElt t qn k a (inPosition t k).1 (inPosition t k).2]

/-- An element among the bytes of its access: E2M1 values are nibbles, the even ones low (R149). -/
def nibbleOf (t : VType) (odd : Bool) (x : Nat) : Nat := if t = .e2m1 ∨ t = .e2m1x then (if odd then x / 16 else x) % 16 else x

/-- The index that element `k` of an indexed form reads, at the width of its register's tag. -/
def Vlc.index (v : Vlc) (b : VReg) (k : Nat) : Option (BitVec 64) :=
  let w := 8 * 2 ^ (v.vregs[b.toNat]).tag.toNat
  if w * (k + 1) ≤ 64 * v.mvl64 ∧ (v.vregs[b.toNat]).poison.getLsbD (w * k / 64) = false
  then some (((v.vregs[b.toNat]).img.extractLsb' (w * k) w).signExtend 64) else none

/-- The bytes of an element of an indexed form: payloads only (R165). -/
def gatherBytes (t : VType) : Nat := if t.isX ∨ t = .e2m1 then 1 else t.width / 8

/-- An index in bytes: two E2M1 values share a byte (R163). -/
def gatherOffset (t : VType) (x : Int) : Word :=
  BitVec.ofInt 64 (if t = .e2m1 ∨ t = .e2m1x then x / 2 else x * gatherBytes t)

/-- The access of element `k` of a gather or scatter, and whether its index is odd (R163). -/
def State.gatherElt (s : State) (t : VType) (qn : QReg) (b : VReg) (k : Nat) : Option (Elt × Bool) :=
  let q := s.v.streams[qn.toNat]
  if q.kind = .pattern ∨ q.kind = .tile then
    (s.v.index b k).map fun x =>
      ({ space := s.v.mt, addr := q.address (gatherBytes t) q.pos + gatherOffset t x.toInt, bytes := gatherBytes t, elem := k,
         once := false, late := none }, x.getLsbD 0)
  else none

/-- The access of element `k` to its lane table, and whether its index is odd (R164): the index counts from 0. -/
def State.laneElt (s : State) (t : VType) (b : VReg) (k : Nat) : Option (Elt × Bool) :=
  (s.v.index b k).map fun x =>
    ({ space := .lane, addr := gatherOffset t (x.toNat % 2 ^ (8 * 2 ^ (s.v.vregs[b.toNat]).tag.toNat) : Nat), bytes := gatherBytes t,
       elem := k, once := false, late := none }, x.getLsbD 0)

/-- The view that element `k` of a VLD of a topology binding reads (R238). -/
def State.topoLoad (s : State) (t : VType) (o : Option Scope) (qn : QReg) (k : Nat) : Option Nat :=
  let q := s.v.streams[qn.toNat]
  q.topo.bind fun b =>
    if (t = .n64 ∨ t = .s64) ∧ o = none then (b.recs[q.pos + k]?).map fun r => (if b.view = 0 then r.1 else r.2).toNat else none

/-- The vector loads: type, mask, destination, and the value that element `k` reads when nothing stops it. -/
def vecLoad (i : Instr) (s : State) : Option (VType × MReg × VReg × (Nat → Option Nat)) :=
  let one (t : VType) (x : Option (Elt × Bool)) : Option Nat := x.bind fun x => (s.eltLoad x.1).map (nibbleOf t x.2)
  match i with
  | .vld t m o d qn _ => some (t, m, d, fun k =>
      if (s.v.streams[qn.toNat]).kind = .topology then s.topoLoad t o qn k
      else (s.streamElts t qn k).bind fun l =>
        if l.all fun a => (s.eltLoad a).isSome then (l.getLast?.bind s.eltLoad).map (nibbleOf t (k % 2 == 1)) else none)
  | .vldx t m d qn b _ => some (t, m, d, fun k => one t (s.gatherElt t qn b k))
  | .vldl t m d b _ => some (t, m, d, fun k => one t (s.laneElt t b k))
  | _ => none

/-- The vector stores: type, mask, source, and the accesses of element `k`, its own last. -/
def vecStore (i : Instr) (s : State) : Option (VType × MReg × VReg × (Nat → Option (List Elt))) :=
  match i with
  | .vst t m _ d qn _ => some (t, m, d, s.streamElts t qn)
  | .vstx t m d qn b _ => some (t, m, d, fun k => (s.gatherElt t qn b k).map fun x => [x.1])
  | .vstl t m d b _ => some (t, m, d, fun k => (s.laneElt t b k).map fun x => [x.1])
  | _ => none

/-- What VLDBPC reads for element `k` of a pattern of chunk entries (R171): whether it is present, and its value. -/
def State.chunkLoad (s : State) (t : VType) (qn : QReg) (k : Nat) : Option (Bool × Nat) :=
  let q := s.v.streams[qn.toNat]
  let at_ (a : Word) (n : Nat) : Option Nat :=
    s.eltLoad { space := s.v.mt, addr := a, bytes := n, elem := k, once := false, late := none }
  if q.kind = .pattern ∧ q.pos + k / 128 < q.extent then
    (at_ (q.address 4 (q.pos + k / 128)) 4).bind fun e =>
      let a := q.aux + BitVec.ofNat 64 (16 * e)
      (at_ a 8).bind fun b0 => (at_ (a + 8) 8).bind fun b1 =>
        let map := b0 + 2 ^ 64 * b1
        if map.testBit (k % 128) then
          (at_ (a + BitVec.ofNat 64 (16 + (List.range (k % 128)).countP map.testBit * (t.width / 8))) (t.width / 8)).map fun x => (true, x)
        else some (false, 0)
  else none

/-- The active elements of the group of 128 that a VSTBPC writes at element `k` (R172). -/
def Vlc.groupSize (v : Vlc) (m : MReg) (k : Nat) : Nat :=
  (List.range (128 - k % 128)).countP fun j =>
    decide (v.vstart ≤ k + j) && decide (k + j < v.vl) && (m == 0 || (v.masks[m.toNat]).getLsbD (k + j))

/-- The chunk of a group in units of 16 bytes (R170). -/
def chunkUnits (t : VType) (n : Nat) : Nat := (16 + n * (t.width / 8) + 15) / 16

/-- The elements at which a VSTBPC writes a group: its first active run's start, and each multiple of 128 (R159). -/
def Vlc.groupStarts (v : Vlc) : List Nat := (List.range v.vl).filter fun k => decide (v.vstart ≤ k) && (k % 128 == 0 || k == v.vstart)

/-- CURSOR as a VSTBPC finds it at its element `k`. -/
def Vlc.cursorAt (v : Vlc) (t : VType) (m : MReg) (qn : QReg) (k : Nat) : Nat :=
  (v.streams[qn.toNat]).cursor + ((v.groupStarts.filter fun j => decide (j < k)).map fun j => chunkUnits t (v.groupSize m j)).sum

/-- The accesses of a VSTBPC for the group that it writes at element `k`: the words of the chunk, and the entry (R170, R172). -/
def State.chunkElts (s : State) (t : VType) (m : MReg) (qn : QReg) (k : Nat) : List Elt :=
  let q := s.v.streams[qn.toNat]
  let elt (a : Word) (n : Nat) : Elt := { space := s.v.mt, addr := a, bytes := n, elem := k, once := false, late := none }
  let c := q.aux + BitVec.ofNat 64 (16 * s.v.cursorAt t m qn k)
  (List.range (2 * chunkUnits t (s.v.groupSize m k))).map (fun j => elt (c + BitVec.ofNat 64 (8 * j)) 8)
    ++ [elt (q.address 4 (q.pos + k / 128)) 4]

/-- No byte but those of some accesses differs, in the memory of their space, and none of another space. -/
def State.within (s u : State) (k : AccKind) (l : Elt → Prop) : Prop :=
  ∀ (x : Space) (b : Nat), (∀ a, l a → a.space = x → ∀ o, s.eltSpot k a = some o → b < o ∨ o + a.bytes ≤ b) →
    (u.spaceMem x).byte b = (s.spaceMem x).byte b

/-- The accesses of a TLD for position `p` of its binding (R205, R425): the words of a block and its scale, or the bytes of a
position. -/
def State.tileElts (s : State) (t : VType) (sp : Spar) (q : Stream) (p : Nat) : List Elt :=
  let f := tldForm t sp (q.bounds[0]).toNat
  let a := q.address f.bytes p
  let elt (o n : Nat) : Elt := { space := s.v.mt, addr := a + BitVec.ofNat 64 o, bytes := n, elem := p, once := false, late := none }
  if t.isX ∧ sp = .dense then
    let n := if t = .e4m3x then 128 else 64
    (List.range (n / 8)).map (fun k => elt (8 * k) 8) ++ [elt n 1]
  else [elt 0 f.bytes]

/-- The groups of a position of metadata keep R207: their indices differ, and the bits above those of 4:8 are 0. -/
def metaOk (sp : Spar) (x : Nat) : Prop :=
  match sp with
  | .dense => True
  | .s24 => x % 4 ≠ x / 4 % 4 ∧ x / 16 % 4 ≠ x / 64 % 4
  | .s48 => x < 4096 ∧ [x % 8, x / 8 % 8, x / 64 % 8, x / 512 % 8].Nodup

/-- The element-wise instructions, from their tables. -/
def vecOp (i : Instr) (s : State) : Option VecOp :=
  let x := s.v.element
  let ftz (t : VType) : Bool := s.v.fpc.ftz && (t == .f32 || t == .f16)
  let rm : RMode := RMode.ofRm s.v.fpc.rm
  let int (t : VType) (m : MReg) (d a b : VReg) (f : Int → Int → Int) : Option VecOp :=
    some { t := t, mask := m, d := d, reads := fun _ => [a, b],
           val := fun k => .quiet (low t.width (f (t.int (x t a k)) (t.int (x t b k)))) }
  let raw (t : VType) (m : MReg) (d a b : VReg) (f : Nat → Nat → Nat) : Option VecOp :=
    some { t := t, mask := m, d := d, reads := fun _ => [a, b], val := fun k => .quiet (f (x t a k) (x t b k) % 2 ^ t.width) }
  let fp2 (t : VType) (m : MReg) (d a b : VReg) (f : Nat → Nat → Res) : Option VecOp :=
    some { t := t, mask := m, d := d, reads := fun _ => [a, b], val := fun k => f (x t a k) (x t b k) }
  let fp1 (t : VType) (m : MReg) (d a : VReg) (f : Nat → Res) : Option VecOp :=
    some { t := t, mask := m, d := d, reads := fun _ => [a], val := fun k => f (x t a k) }
  match i with
  | .vadd t m d a b _ => int t m d a b fun p q => p + q
  | .vsub t m d a b _ => int t m d a b fun p q => p - q
  | .vmul t m d a b _ => int t m d a b fun p q => p * q
  | .vmulh t m d a b _ => int t m d a b fun p q => p * q / (2 ^ t.width : Nat)
  | .vand t m d a b _ => raw t m d a b (· &&& ·)
  | .vor t m d a b _ => raw t m d a b (· ||| ·)
  | .vxor t m d a b _ => raw t m d a b (· ^^^ ·)
  | .vshl t m d a b _ => raw t m d a b fun p q => p * 2 ^ (q % t.width)
  | .vshr t m d a b _ => raw t m d a b fun p q => p / 2 ^ (q % t.width)
  | .vshra t m d a b _ => raw t m d a b fun p q => low t.width (signed t.width p / (2 ^ (q % t.width) : Nat))
  | .vmin t m d a b _ => int t m d a b Min.min
  | .vmax t m d a b _ => int t m d a b Max.max
  | .vsadd t m d a b _ => int t m d a b fun p q => Max.max t.minInt (Min.min t.maxInt (p + q))
  | .vssub t m d a b _ => int t m d a b fun p q => Max.max t.minInt (Min.min t.maxInt (p - q))
  | .vfadd t m d a b _ => fp2 t m d a b (fpAdd t.fmt rm (ftz t))
  | .vfsub t m d a b _ => fp2 t m d a b (fpSub t.fmt rm (ftz t))
  | .vfmul t m d a b _ => fp2 t m d a b (fpMul t.fmt rm (ftz t))
  | .vfdiv t m d a b _ => fp2 t m d a b (fpDiv t.fmt rm (ftz t))
  | .vfmin t m d a b _ => fp2 t m d a b (fpMinMax t.fmt false (ftz t))
  | .vfmax t m d a b _ => fp2 t m d a b (fpMinMax t.fmt true (ftz t))
  | .vfma t m d a b _ =>
    some { t := t, mask := m, d := d, reads := fun _ => [a, b, d],
           val := fun k => fpFma t.fmt rm (ftz t) (x t a k) (x t b k) (x t d k) }
  | .vfsqrt t m d a _ => fp1 t m d a (fpSqrt t.fmt rm (ftz t))
  | .vfrsq t m d a _ => fp1 t m d a (fpRsq t.fmt (ftz t))
  | .vfrcp t m d a _ => fp1 t m d a (fpRcp t.fmt (ftz t))
  | .vfexp2 t m d a _ => fp1 t m d a (fpExp2 t.fmt (ftz t))
  | .vfclass t m d a _ => fp1 t m d a fun p => .quiet (2 ^ fpClass t.fmt p)
  | .vsplat t m d a _ =>
    some { t := t, mask := m, d := d, reads := fun _ => [], val := fun _ => .quiet ((s.rd a).toNat % 2 ^ t.width) }
  | .vmerge t m d a b _ =>
    let pick (k : Nat) : VReg := if m ≠ 0 ∧ (s.v.masks[m.toNat]).getLsbD k then a else b
    some { t := t, mask := 0, d := d, reads := fun k => [pick k], val := fun k => .quiet (x t (pick k) k) }
  | .vidx step first w d _ =>
    let t : VType := if w = 0 then .n8 else if w = 1 then .n16 else if w = 2 then .n32 else .n64
    some { t := t, mask := 0, d := d, reads := fun _ => [],
           val := fun k => .quiet (low t.width (first.toInt + k * step.toInt)) }
  | _ => none

/-- The member of a vector or accumulator-port instruction that is a convoy of its own, with those that never join one. -/
def loneMember (i : Instr) : Option Member :=
  match i with
  | .vscan t m k d a => some (memScan t m k d a)
  | .vbin t m d a b => some (memVbin t m d a b)
  | .vhash m d a b => some (memVoxel m d b false fun t => hashElem t d a)
  | .vhlook m d a b => some (memVoxel m d b false fun t => lookElem t d a)
  | .vhins m d a b => some (memVoxel m d b true fun t => insElem t d a)
  | i => memberOf i

/-- The checks that a member's instruction makes before its first element: the ports' (R423), VBIN's space (R173) and the
voxel table's (R174); a VST with a scope waits for the VLC's stores (R185). -/
def loneOk (i : Instr) (s : State) : Prop :=
  match i with
  | .text .. | .tinj .. => portStop s.v.pc s = none
  | .vbin .. => s.v.mt = .cmem ∨ s.v.mt = .spad
  | .vhash _ _ _ b | .vhlook _ _ _ b | .vhins _ _ _ b => s.voxel (s.rd b) ≠ none
  | .vst _ _ o _ _ _ => o = none ∨ s.v.stores = []
  | _ => True

/-! ## Masks and whole-vector instructions (R414 to R416, R436 to R440, R451 to R455) -/

/-- A bit of a mask register; every bit of m0 reads 1 (R76). -/
def Vlc.bit (v : Vlc) (m : MReg) (k : Nat) : Bool := m == 0 || (v.masks[m.toNat]).getLsbD k

/-- An instruction that writes a bit of a mask register per element: its destination, the vector registers it reads with the
type it reads them in, and the bit and flags of element `k`. -/
structure MaskOp where
  d : MReg
  reads : List VReg
  t : VType
  val : Nat → Bool × Flags

/-- VCMP and MLOG, from their tables (R438, R414). -/
def maskOp (i : Instr) (s : State) : Option MaskOp :=
  let x := s.v.element
  match i with
  | .vcmp t p d a b _ =>
    let rel (p : VcmpCond) (u w : Int) : Bool := match p with
      | .eq => decide (u = w)
      | .ne => decide (u ≠ w)
      | .lt => decide (u < w)
      | .le => decide (u ≤ w)
      | .gt => decide (w < u)
      | .ge => decide (w ≤ u)
      | .un => false
    some { d := d, reads := [a, b], t := t,
           val := fun k => if t.isI then (rel p (t.int (x t a k)) (t.int (x t b k)), 0)
             else fpCompare t.fmt (s.v.fpc.ftz && (t == .f32 || t == .f16)) p (x t a k) (x t b k) }
  | .mlog p d a b _ =>
    let f (p : LogOp) (u w : Bool) : Bool := match p with
      | .and => u && w
      | .or => u || w
      | .xor => xor u w
      | .andn => u && !w
      | .orn => u || !w
      | .nand => !(u && w)
      | .nor => !(u || w)
      | .xnor => !(xor u w)
    some { d := d, reads := [], t := .n8, val := fun k => (f p (s.v.bit a k) (s.v.bit b k), 0) }
  | _ => none

/-- A whole-vector instruction that moves elements: its type, its destination, the registers it reads, and the new value of
element `k`, none where it keeps its value. -/
structure MoveOp where
  t : VType
  d : VReg
  reads : List VReg
  val : Nat → Option Nat

/-- Element `k` of a whole-vector instruction is active. -/
def Vlc.allowed (v : Vlc) (m : MReg) (k : Nat) : Bool := decide (k < v.vl) && v.bit m k

/-- The whole-vector instructions that move elements, from their tables (R439, R440, R452, R455). -/
def moveOp (i : Instr) (s : State) : Option MoveOp :=
  let x := s.v.element
  match i with
  | .vins t d a b =>
    some { t := t, d := d, reads := [],
           val := fun k => if k = (s.rd b).toNat ∧ k < s.v.vl then some ((s.rd a).toNat % 2 ^ t.width) else none }
  | .vperm t m d a b =>
    let w := 8 * 2 ^ (s.v.vregs[b.toNat]).tag.toNat
    let at_ (k : Nat) : Nat := ((s.v.vregs[b.toNat]).img.extractLsb' (w * k) w).toNat
    some { t := t, d := d, reads := [a, b],
           val := fun k => if s.v.allowed m k then some (if at_ k < s.v.vl then x t a (at_ k) else 0) else none }
  | .vslideup t m d a b =>
    let n := (s.rd b).toNat
    some { t := t, d := d, reads := [a],
           val := fun k => if s.v.allowed m k ∧ n ≤ k then some (x t a (k - n)) else none }
  | .vslidedn t m d a b =>
    let n := (s.rd b).toNat
    some { t := t, d := d, reads := [a],
           val := fun k => if s.v.allowed m k then some (if k + n < s.v.vl then x t a (k + n) else 0) else none }
  | .vcompress t m d a =>
    some { t := t, d := d, reads := [a],
           val := fun k => (((List.range s.v.vl).filter (s.v.allowed m))[k]?).map (x t a) }
  | .vexpand t m d a =>
    some { t := t, d := d, reads := [a],
           val := fun k => if s.v.allowed m k then some (x t a ((List.range k).countP (s.v.allowed m))) else none }
  | _ => none

/-- The result of an integer reduction (R453 Table 8): over the values of the active elements, and the unit where there is
none. -/
def reduced (t : VType) (k : RedOp) (l : List Nat) : Nat :=
  match k with
  | .sum | .seq => l.sum % 2 ^ t.width
  | .min => low t.width (l.foldl (fun x y => Min.min x (t.int y)) t.maxInt)
  | .max => low t.width (l.foldl (fun x y => Max.max x (t.int y)) t.minInt)
  | .and => l.foldl (· &&& ·) (2 ^ t.width - 1)
  | .or => l.foldl (· ||| ·) 0
  | .xor => l.foldl (· ^^^ ·) 0

/-! ## Exact values -/

/-- The rational number that an exact dyadic number is. -/
def ratOf (d : Dy) : ℚ := (if d.neg then -1 else 1) * d.m * 2 ^ d.e

/-! ## Convoys (R86) -/

/-- The scalar members of a convoy in program order, each with the value its table gives it at its own address. -/
def scalarsInTurn (s : State) : List Joined → State
  | [] => s
  | m :: l =>
    match scalarResult m.i (s.setV fun v => { v with pc := m.at_ }) with
    | some (d, x) => scalarsInTurn (s.wr d x) l
    | none => scalarsInTurn s l

/-! ## Waits -/

/-- An engine step that makes a VLC waiting in an instruction execute it again: the core and slot it names. -/
def wakes (e i : Instr) : Option (Nat × Nat) :=
  match e, i with
  | .grantRowsFree c k, .setvl .. | .grantRowsFree c k, .vloop .. | .grantRowsFree c k, .vnext .. => some (c, k)
  | .waitvRetest c k, .waitv .. | .waitvRemotePoll c k, .waitv .. => some (c, k)
  | .publSwap c k, .publ .. => some (c, k)
  | .cwaitWake c k, .cwait .. => some (c, k)
  | .wqrecvTripleReady c k, .wqrecv .. => some (c, k)
  | _, _ => none

/-- The VLC that an engine step is about, by core and slot. -/
def aboutVlc (e : Instr) : Option (Nat × Nat) :=
  match e with
  | .grantRowsFree c k | .grantWaitTimeout c k | .waitvRetest c k | .waitvRemotePoll c k | .preemptForced c ⟨k, _⟩ | .publSwap c k
  | .cwaitWake c k | .commandIssueResume c k | .transferIssueResume c k | .wqpostResume c k | .wqrecvTripleReady c k
  | .mnbrBindingMade c k | .fenceDone c k | .rdtimeReply c k _ | .idleWake c ⟨k, false⟩ => some (c, k)
  | _ => none

/-! ## Commands and transfers (R241, R356, R402) -/

/-- The destination of an instruction that issues a command, and what it captures. -/
def issues (i : Instr) : Option (SReg × (State → Except Stop (Command × State))) :=
  match i with
  | .cpy d a b => some (d, copyCapture a b)
  | .mlocate d a b => some (d, meshCapture .mlocate a b)
  | .mrefine d a b => some (d, meshCapture .mrefine a b)
  | .mcoarsen d a b => some (d, meshCapture .mcoarsen a b)
  | .mremap d a b => some (d, meshCapture .mremap a b)
  | .mcolor d a b => some (d, meshCapture .mcolor a b)
  | .mcut d a b => some (d, meshCapture .mcut a b)
  | .mmigr d a b => some (d, meshCapture .mmigr a b)
  | .mghost d a b => some (d, meshCapture .mghost a b)
  | _ => none

/-- What a command of one die computes when it ends. -/
def runsAlone (k : CmdKind) : Option (Command → State → Except EngStop (Product × State)) :=
  match k with
  | .cpy => some copyRun
  | .mlocate => some locateRun
  | .mremap => some remapRun
  | .mcolor => some colourRun
  | .mrefine | .mcoarsen | .mcut | .mmigr | .mghost => none

/-- Two byte ranges of the scratchpads and cluster memories have no byte in common. -/
def Place.apart (p : Place) (n : Nat) (q : Place) (m : Nat) : Prop :=
  match p, q with
  | .cmem c o, .cmem d r => c ≠ d ∨ o + n ≤ r ∨ r + m ≤ o
  | .spad c o, .spad d r => c ≠ d ∨ o + n ≤ r ∨ r + m ≤ o
  | .phys o, .phys r => o + n ≤ r ∨ r + m ≤ o
  | _, _ => True

/-- A place in a scratchpad or a cluster's memory. -/
def Place.onChip (p : Place) : Prop :=
  match p with
  | .phys _ => False
  | .cmem _ _ => True
  | .spad _ _ => True

/-! ## Engines (R218, R244, R250, R252, R259, R404) -/

/-- An aligned access of a copy in the space of a code, when nothing stops it (R404). -/
def State.copyOpens (s : State) (c : Command) (k : AccKind) (x : Space) (a : Word) (w : Nat) : Prop :=
  match x with
  | .glob => s.opens c.party k a w
  | .cmem => a.toNat % w = 0 ∧ a.toNat + w ≤ 0x400000
  | .spad => a.toNat % w = 0 ∧ a.toNat + w ≤ 0x40000
  | .lane => False

/-- A mesh record that R218 allows, whose coarse-cell table and partition table may be read and are as R224 and R230 ask. -/
def State.recordOpens (s : State) (p : Party) (launch : Nat) (b : List Byte) : Prop :=
  let r := MeshRec.of b
  recordBad b = none ∧ ∃ (cs : List (List Byte)) (pt : List Byte), cs.length = r.ncoarse ∧
    (∀ k x, cs[k]? = some x → s.openWords p (r.ctab + BitVec.ofNat 64 (128 * k)) 16 = some x) ∧ coarseTableOk r cs = true ∧
    s.openWords p r.partab r.npart = some pt ∧ partsOk (s.launchEps launch) (partsOf pt) = true

/-- The start checks of a mesh command of one die pass, with `m` the mesh it acts on (R465). -/
def State.meshStarts (s : State) (c : Command) (m : Mesh) : Prop :=
  s.recordOpens c.party c.launch c.record ∧ c.blockBad (s.endpoint, c.die) = none ∧ c.mesh = some m ∧ s.lostMesh m = false

/-- The words of a report may be written where the block asks for it, which has room for them (R242, R243). -/
def State.reportOpens (s : State) (c : Command) (n : Nat) : Prop :=
  let b := Block.of c.block
  8 * n ≤ b.size ∧ ∀ j, j < n → s.opens c.party .store (b.out + BitVec.ofNat 64 (8 * j)) 8

/-- The values that component `k` of a remap record reads (R250). -/
def remapReads (b : Block) (dim size : Nat) (r : Remap) (k : Nat) : List Word :=
  let cell (i : Nat) : Word := b.in0 + BitVec.ofNat 64 ((i * b.count + k) * size)
  if r.op = 0 then (List.range r.count).map fun i => cell (r.src + i)
  else if r.op = 1 then
    cell r.src :: (if bitsOf b.param 5 4 = 1 then
      (List.range dim).map fun g => b.in2 + BitVec.ofNat 64 (((r.src * b.count + k) * dim + g) * size) else [])
  else if r.op = 2 ∧ r.cpos.contains 0 then (List.range r.cpos.length).map fun i => cell (r.src + i)
  else []

/-- The values that component `k` of a remap record writes: those of owned cells (R250). -/
def remapWrites (b : Block) (nown size : Nat) (r : Remap) (k : Nat) : List Word :=
  let n := if r.op = 0 then r.count else if r.op = 1 then r.cpos.length else if r.op = 2 ∧ r.cpos.contains 0 then 1 else 0
  ((List.range n).filter fun i => decide (r.dst + i < nown)).map fun i =>
    b.out + BitVec.ofNat 64 (((r.dst + i) * b.count + k) * size)

/-- Where in the package's own DRAM bytes of a wick block lie, that the issuing VLC may use (R259, R264, R271). -/
def State.wickSpot (s : State) (q : Req) (block : Word) : Option Nat :=
  (s.cached s.party q.va).bind fun e =>
    let pa := e.phys q.va
    if tagKey q.va = 0 ∧ canonical q.va = true ∧ windowOf pa = 0 ∧ epOf pa = s.endpoint ∧ e.permits s.party q.kind = true ∧
      block.toNat % 65536 = 0 ∧ s.wickPage e pa = true ∧ usedPte e q = e.pte ∧
      s.watched s.party q.kind q.va.toNat q.n = false then some pa else none

/-! ## Save areas (R317) -/

/-- The words of an area from number `o`, `n` of them, as one number. -/
def areaWords (x : Nat → Nat) (o n : Nat) : Nat := wordsNat ((List.range n).map fun k => BitVec.ofNat 64 (x (o + k)))

/-- The words of the longest area (R317 Table 10). -/
def areaLength : Nat := 0x108000 / 8

/-- Every word of a save area may be read, word `k` holding `x k`. -/
def State.areaOpens (s : State) (p : Party) (b : Word) (x : Nat → Nat) : Prop :=
  b.toNat % 4096 = 0 ∧ ∀ k, k < areaLength → s.openWord p (b + BitVec.ofNat 64 (8 * k)) = some (x k)

/-- The parts of an area that the issuing VLC's state takes. -/
def State.areaOf (s : State) (g : Bool) (sr : Nat) : List AreaPart :=
  let l := s.noteBindings.areaParts g sr
  s.noteBindings.areaHeader g (endOfParts l) :: l

/-- Every word of an area may be written. -/
def State.areaWritable (s : State) (p : Party) (b : Word) (l : List AreaPart) : Prop :=
  b.toNat % 4096 = 0 ∧ ∀ a ∈ l, s.writable p (b + BitVec.ofNat 64 a.off) a.words

end Sys2Proof.Machine
end

