-- ==== Sys2Proof/Certificates/Slice0/Obligations.lean ====
section
/-! DEFINITION. What is claimed of the model of Griolo, each claim a statement for the provers. -/

open Sys2Proof Sys2Proof.Machine

/-! ## Encodings -/

/-- Table 11 of file 05 (after R119), line by line, as far as the encoding alone decides: what decodes, and what is refused
under which name. -/
def Obligations.WorkedEncodingsDecode : Prop :=
  decode (bytesOf 4 0x0020CA00) = .instr (.add 5 3 4 false) ∧
  decode (bytesOf 4 0x9820CA00) = .ill .func5 ∧
  decode (bytesOf 4 0x32188201) = .instr (.vadd .s32 2 1 2 3 false) ∧
  decode (bytesOf 4 0x62188201) = .ill .typeop ∧
  decode (bytesOf 4 0x8A188201) = .ill .type ∧
  decode (bytesOf 4 0x000001F9) = .ill .major ∧
  decode (bytesOf 4 0x12340000) = .ill .zero ∧
  decode (bytesOf 4 0x080029C1) = .ill .regclass ∧
  decode (bytesOf 4 0x480029C1) = .ill .func5 ∧
  decode (bytesOf 2 0xE956) = .instr (.cAddImm 5 (-3)) ∧
  decode (bytesOf 4 0xFFE94A08) = .instr (.addImm 5 5 (-3) false) ∧
  decode (bytesOf 2 0xE95A) = .ill .imm ∧
  decode (bytesOf 2 0x003E) = .ill .crsv ∧
  decode (bytesOf 8 0x200001F100032463) = .instr (.tmma .e4m3 1 2 3 false) ∧
  decode (bytesOf 8 0x200001F100032563) = .ill .spar

/-- Decoding what the encoder writes for a well-formed instruction of any family gives the instruction back, with every
operand, whatever bytes follow it. -/
def Obligations.DecodeOfEncode : Prop :=
  ∀ (i : Instr) (rest : List Byte), i.wf = true → i.enc ≠ .none → decode (encode i ++ rest) = .instr i

/-- An instruction that decode answers is well formed and is the one whose encoding the bytes are: no two encodings are one
instruction, and decode ignores no bit. -/
def Obligations.DecodedIsEncoded : Prop :=
  ∀ (l : List Byte) (i : Instr), decode l = .instr i → i.wf = true ∧ ∃ rest, l = encode i ++ rest

/-- R119: MFS and MTS take the register numbers it lists, and every other number raises SPR. -/
def Obligations.SpecialRegisterNumbers : Prop :=
  ∀ (k : BitVec 13) (r : SReg) (c : Bool),
    let listed := k.toNat ≤ 0x13 ∨ (0x100 ≤ k.toNat ∧ k.toNat ≤ 0x11F) ∨ k.toNat = 0x200
      ∨ (0x210 ≤ k.toNat ∧ k.toNat ≤ 0x213)
    let mfs := decode32 { f5 := k.extractLsb' 8 5, p := k.extractLsb' 5 3, b := k.extractLsb' 0 5, a := 0, d := r,
                          maj := 0x0D, c := c, bank := 0 }
    let mts := decode32 { f5 := k.extractLsb' 8 5, p := k.extractLsb' 5 3, b := k.extractLsb' 0 5, a := r, d := 0,
                          maj := 0x0E, c := c, bank := 0 }
    (listed → ∃ x : Spr, x.code = k ∧ mfs = .ok (.mfs r x c) ∧ mts = .ok (.mts x r c)) ∧
    (¬listed → mfs = .error .spr ∧ mts = .error .spr)

/-- Encodings that stand for no instruction are refused by name, whatever their other bits are: the zero halfword (R74), the
major and the compressed opcode that are reserved (R107), a prefix whose second word is no tile operation or has bit 2 set
(R82), an unassigned type code (R77), a scope code above 4 (R78), and a register field used as no register (R76). -/
def Obligations.ReservedEncodingsRefused : Prop :=
  (∀ l, decode (0 :: 0 :: l) = .ill .zero) ∧
  (∀ f : F32, f.bank = 1 → f.maj = 0x3F → decode32 f = .error .major) ∧
  (∀ f : F32, f.bank = 1 → f.maj = 0x3E → decode32 f = .error .pfxop) ∧
  (∀ f : F16, f.cop = 15 → decode16 f = .error .crsv) ∧
  (∀ g f, ¬(f.bank = 1 ∧ f.maj = 0x3E) → decode64 g f = .error .pfxop) ∧
  (∀ g f, f.bank = 1 → f.maj = 0x3E → f.c = true → decode64 g f = .error .pfxc) ∧
  (∀ f : F32, f.bank = 0 → f.maj = 0 → 18 < f.f5.toNat → decode32 f = .error .func5) ∧
  (∀ f : F32, f.bank = 1 → f.maj.toNat ≤ 0x19 → f.maj ≠ 0x18 → 0x10 < f.f5.toNat → decode32 f = .error .type) ∧
  (∀ f : F32, f.bank = 0 → f.maj = 0x2D → VType.ofCode f.f5 = some .n64 → 4 < f.p.toNat → decode32 f = .error .scope) ∧
  (∀ f : F32, f.bank = 0 → f.maj = 0 → f.f5 = 15 → f.p = 0 → f.b ≠ 0 → decode32 f = .error .nonzero) ∧
  (∀ f : F32, f.bank = 1 → f.maj = 0x38 → f.f5 = 0 → f.p = 0 → f.b = 0 → 15 < f.d.toNat → decode32 f = .error .regclass)

/-! ## A step -/

/-- When no input or engine step is due, the VLC the sequencers choose has nothing to take before its next instruction, and
the bytes at its pc decode to an instruction that begins no convoy, the step is that instruction's meaning, in the state its
fetch left. The issuing VLC and its pc are those of the fetch. A VLC that goes on with an instruction whose data came from another
endpoint (R354) executes that instruction, with no fetch and no boundary before it. -/
def Obligations.StepRunsDecodedInstruction : Prop :=
  (∀ (s s1 s2 : State) (w n : Nat) (i : Instr), s.events = [] → s.pick = some s1 → (∀ j, s1.v.status ≠ .again j) →
    s1.boundary = none → s1.fetchAt s1.v.pc = .ok (w, n, s2) → decode (bytesOf 8 w) = .instr i →
    (i.role.heads = false ∨ i.joins = true) → step s = exec i s2) ∧
  (∀ (s s1 : State) (i : Instr), s.events = [] → s.pick = some s1 → s1.v.status = .again i →
    step s = exec i (s1.setV fun v => { v with status := .runnable }))

/-- The same for an instruction that may begin a convoy (R85): when the instruction after it does not join, it runs alone;
else the convoy of the words that join runs as one. -/
def Claim.StepRunsConvoy : Prop :=
  ∀ (s s1 s2 s3 : State) (w n : Nat) (i : Instr) (ws : List (BitVec 64)), s.events = [] → s.pick = some s1 →
    (∀ j, s1.v.status ≠ .again j) → s1.boundary = none → s1.fetchAt s1.v.pc = .ok (w, n, s2) →
    decode (bytesOf 8 w) = .instr i → i.role.heads = true → i.joins = false →
    s2.followers (s1.v.pc + BitVec.ofNat 64 n) convoyBound = .ok (ws, s3) →
    step s = if ws = [] then exec i s3 else exec (.convoy (BitVec.ofNat 64 w :: ws)) s3

/-- Inputs and due engine steps are taken first, the oldest first; with none and no VLC to run, the package stays as it is;
an encoding that decode refuses raises ILL with the refusal's subcode, and TVAL holds the encoding (R106), or, where it would head
a convoy of two or more, its address (R85). -/
def Claim.StepOrder : Prop :=
  (∀ s e l, s.events = e :: l → step s = exec e { s with events := l }) ∧
  (∀ s, s.events = [] → s.pick = none → step s = .next s) ∧
  (∀ (s s1 s2 : State) (w n : Nat) (e : IllSub), s.events = [] → s.pick = some s1 → (∀ j, s1.v.status ≠ .again j) →
    s1.boundary = none → s1.fetchAt s1.v.pc = .ok (w, n, s2) → decode (bytesOf 8 w) = .ill e → e ≠ .zero →
    (carriesC w = false ∨ s1.v.entered = false) →
    let heads := wouldHead w && !carriesC w && s2.joinedAt (s2.v.pc + BitVec.ofNat 64 n)
    step s = .next (s2.trapHere .ill e.code (if heads then s2.v.pc else BitVec.ofNat 64 w) none))

/-! ## The scalar group, special registers and transfers -/

/-- Every instruction of the scalar integer group, alone, writes the value its table gives to its destination, moves the pc
past itself, and changes nothing else: no other register, no flag, no special register, no byte of memory. -/
def Obligations.ScalarGroupResults : Prop :=
  ∀ (i : Instr) (s : State) (d : SReg) (x : Word), scalarResult i s = some (d, x) → i.joins = false → s.smooth = true →
    exec i s = .next ((s.wr d x).past i)

/-- s0 reads 0 and discards writes; another scalar register reads what was last written to it, and a write changes no other
(R55). -/
def Obligations.ScalarRegisters : Prop :=
  (∀ s : State, s.rd 0 = 0) ∧ (∀ (s : State) (x : Word), s.wr 0 x = s) ∧
  (∀ (s : State) (d r : SReg) (x : Word), d ≠ 0 → (s.wr d x).rd r = if r = d then x else s.rd r)

/-- MFS, at a level that may read the register, writes its value to rd and changes nothing else. MTS, at a level that may
write it, writes the fields Table 5 of R417 names and changes nothing else. -/
def Claim.SpecialRegisterMoves : Prop :=
  (∀ (s : State) (d : SReg) (r : Spr), sprUse r s.v.sup ≠ .none → s.smooth = true →
    exec (.mfs d r false) s = .next ((s.wr d (s.sprRead r)).past (.mfs d r false))) ∧
  (∀ (s : State) (r : Spr) (a : SReg) (v : Vlc), sprUse r s.v.sup = .rw → s.smooth = true →
    sprAlone r (s.rd a) s.v = some v →
    exec (.mts r a false) s = .next (State.past { s with v := v } (.mts r a false)))

/-- What MTS writes, MFS reads back: the bits of the register's fields, and 0 in every reserved bit. MT, FSR and VT read as
their own tables say (FSR's two bits are cleared by a 1; VT's width field follows its type); a MAXVL write changes the
enables of lane clusters that are not fused off. -/
def Claim.SpecialRegisterReadBack : Prop :=
  ∀ (s : State) (r : Spr) (a : SReg), sprUse r s.v.sup = .rw → s.smooth = true →
    badVt (.mts r a false) s = false → emptiesLc (.mts r a false) s = false →
    ∃ t, exec (.mts r a false) s = .next t ∧ t.v.pc = s.v.pc + 4 ∧
      (∀ m, sprMask r = some m → t.sprRead r = s.rd a &&& m) ∧
      (r = .vt → ∃ ty : VType, ty.code = (s.rd a).extractLsb' 0 5 ∧ t.sprRead .vt = BitVec.ofNat 64 (256 * ty.wcode + ty.code.toNat)) ∧
      (r = .fsr → t.sprRead .fsr = s.sprRead .fsr &&& ~~~(s.rd a &&& 3)) ∧
      (r = .maxvl → ∀ k, k < 4 → (t.sprRead .maxvl).getLsbD k =
        if (s.core s.v.core).fused.getLsbD k then (s.core s.v.core).lcen.getLsbD k else (s.rd a).getLsbD k)

/-- A branch goes to its target when its condition holds and past itself when not, and changes nothing else (R398). -/
def Claim.BranchesGoToTheirTargets : Prop :=
  ∀ (i : Instr) (s : State) (taken : Bool) (target : Word), branchTarget i s = some (taken, target) → s.smooth = true →
    exec i s = .next (if taken then s.goesOn i target true else s.past i)

/-- A jump, call or return goes to its target, and a call writes the address after it to s1 (R400); an odd target raises ALIGN
at the instruction with TVAL at the target, and changes nothing (R74); a target of 0 at user level ends the VLC (R340). -/
def Claim.JumpsAndCalls : Prop :=
  ∀ (i : Instr) (s : State) (target : Word) (call : Bool), jumpTarget i s = some (target, call) →
    (target.getLsbD 0 = false → ¬(target = 0 ∧ s.v.level = .user) → s.smooth = true →
      exec i s = .next ((if call then s.wr 1 (s.v.pc + BitVec.ofNat 64 i.len) else s).goesOn i target true)) ∧
    (target.getLsbD 0 = true → s.v.bad = [] → exec i s = .next (s.trapHere .align 0 (untag target) none)) ∧
    (target = 0 → s.v.level = .user → s.v.bad = [] → exec i s = .next (s.endVlc false))

/-! ## Traps, the return from one, and the system group -/

/-- An instruction that decode turns away (R108) takes exactly that trap, at its own pc, and has no other effect. One that would
read scalar, mask, stream or special state with an uncorrectable error takes MEMERR REGFILE with TVAL 0, once (R311); one that
stores waits for the stores of earlier strips of a spread loop (R183). -/
def Claim.TurnedAwayTakesItsTrap : Prop :=
  ∀ (i : Instr) (s : State), i.enc ≠ .none →
    (∀ (cls : TrapClass) (sub : Nat) (tval : Word) (r : Option FaultRec), (cls, sub) ≠ (.memerr, 3) →
      decodeStop i s = some (.trap cls sub tval r) → exec i s = .next (s.trapHere cls sub tval r)) ∧
    (decodeStop i s = some (.trap .memerr 3 0 none) →
      exec i s = .next ((s.setV (·.mended (stateReads i))).trapHere .memerr 3 0 none)) ∧
    (decodeStop i s = some .drain → exec i s = .next (s.setV fun v => { v with status := .draining i }))

/-- The checks of decode that depend on state, for an instruction that does not join a convoy, in the order of R108: PRIV at a
level that may not run it (R118), a vector register beyond the declaration (R24), a destination that is a moved source
(R115), a tile operation in spread mode (R35) or in a VLC that owns no tiles (R60), a read-only special register (R62), a
group the VLC is no member of (R41), a MAXVL that leaves no lane cluster (R69). TVAL is the encoding, or the group. -/
def Claim.ChecksThatDependOnState : Prop :=
  ∀ (i : Instr) (s : State), i.joins = false → badVt i s = false →
    let ill (e : IllSub) (x : Word) := some (Stop.trap .ill e.code x none)
    let inReach := ∀ r ∈ vnames i, r < 8 * (s.v.declEff.toNat + 1)
    (privileged i s.v.sup = true → decodeStop i s = some (.trap .priv 0 i.value none)) ∧
    (privileged i s.v.sup = false →
      (¬inReach → decodeStop i s = ill .vdecl i.value) ∧
      (inReach →
        (overlaps i = true → decodeStop i s = ill .overlap i.value) ∧
        (isTile i = true → s.v.mode = .spread → decodeStop i s = ill .spreadtile i.value) ∧
        (isTile i = true → s.v.mode ≠ .spread → s.v.tileOwner = false → decodeStop i s = ill .tileown i.value) ∧
        (∀ r a c, i = .mts r a c → sprUse r s.v.sup = .ro → decodeStop i s = ill .sprro i.value) ∧
        (∀ g, i = .bar g → g.toNat ∉ groupsOf s.v.gmemb → decodeStop i s = ill .group (BitVec.ofNat 64 g.toNat)) ∧
        (emptiesLc i s = true → decodeStop i s = ill .lcempty i.value)))

/-- An instruction that passes those checks, in a VLC with no uncorrectable state and no store of an earlier strip outstanding, is not
turned away (R108). -/
def Claim.PassedChecksLetRun : Prop :=
  ∀ (i : Instr) (s : State), i.joins = false → badVt i s = false → privileged i s.v.sup = false →
    (∀ r ∈ vnames i, r < 8 * (s.v.declEff.toNat + 1)) → overlaps i = false →
    (isTile i = true → s.v.mode ≠ .spread ∧ s.v.tileOwner = true) → (∀ r a c, i = .mts r a c → sprUse r s.v.sup ≠ .ro) →
    (∀ g, i = .bar g → g.toNat ∈ groupsOf s.v.gmemb) → emptiesLc i s = false → s.v.bad = [] →
    (∀ w ∈ s.v.stores, w.old = false) → decodeStop i s = none

/-- The levels of R62 Table 2 and R118: at user level ERET, IDLE, VSAVE, VRESTORE and the moves of TCAUSE, TPC, TVAL, TVEC,
MAXVL and LREMAP raise PRIV; no instruction does at supervisor level. -/
def Claim.PrivilegedInstructions : Prop :=
  (∀ (s : State) (i : Instr), s.v.level = .user →
    (i = .eret ∨ i = .idle ∨ (∃ a, i = .vsave a) ∨ (∃ a, i = .vrestore a) ∨
      (∃ r a, (i = .mfs a r false ∨ i = .mts r a false) ∧
        (r = .tcause ∨ r = .tpc ∨ r = .tval ∨ r = .tvec ∨ r = .maxvl ∨ ∃ n, r = .lremap n))) →
    exec i s = .next (s.trapHere .priv 0 i.value none)) ∧
  (∀ (s : State) (i : Instr), s.v.level = .supervisor → privileged i s.v.sup = false)

/-- Taking a trap at user level with a handler (R305): TCAUSE, TPC and TVAL are written, s1 to s31 are stored at TVEC + 0x100,
the level becomes supervisor, the pc the handler, s2 the word beside it and s3 TVEC; REC is set when a fault record is
stored. Every other register of the VLC keeps its value. -/
def Claim.TrapEntersItsHandler : Prop :=
  ∀ (s s1 s2 s3 s4 : State) (t : Trap) (handler stack : Nat),
    s.halting t.cls = false → s.v.level = .user → s.v.tvec ≠ 0 → s.v.stepOnce = false →
    (s.setV (·.record t)).load s.trapParty (.mem s.v.block 8 .load 0) = .ok (handler, s1) →
    s1.load s.trapParty (.mem (s.v.block + 8) 8 .load 0) = .ok (stack, s2) →
    s2.storeWords s.trapParty (s.v.block + 0x100) (0 :: s.v.sregs.toList.drop 1) = (s3, none) →
    s3.storeRec t = (s4, none) → handler % 2 = 0 →
    ∃ u : State, s.takeTrap t = u ∧ u.v.level = .supervisor ∧ u.v.status = .runnable ∧ u.v.pc = BitVec.ofNat 64 handler ∧
      u.rd 2 = BitVec.ofNat 64 stack ∧ u.rd 3 = s.v.tvec ++ 0#9 ∧ (∀ r, r ≠ 2 → r ≠ 3 → u.rd r = s.rd r) ∧
      u.v.tcause = { recd := t.frec.isSome, nest := false, ppl := false, forced := t.forced,
                     sub := BitVec.ofNat 8 t.sub, cls := BitVec.ofNat 5 t.cls.code } ∧
      u.v.tpc = t.tpc ∧ u.v.tval = t.tval ∧ u.v.tvec = s.v.tvec ∧
      u.v.vregs = s.v.vregs ∧ u.v.masks = s.v.masks ∧ u.v.streams = s.v.streams ∧ u.v.vl = s.v.vl ∧
      u.v.vstart = s.v.vstart ∧ u.v.fpc = s.v.fpc ∧ u.mem = s4.mem ∧ u.parked = s.parked

/-- A trap at supervisor level, or with TVEC 0, stops its VLC with NEST set and its registers kept (R305, R306). A halting class
freezes the VLC before its trap entry and starts a wave instead (R299, R368). -/
def Claim.TrapsThatStop : Prop :=
  ∀ (s : State) (t : Trap), s.v.stepOnce = false →
    (s.halting t.cls = false → (s.v.level = .supervisor ∨ s.v.tvec = 0) →
      let u := s.takeTrap t
      u.v.status = .stopped ∧ u.v.pc = s.v.pc ∧ u.v.level = s.v.level ∧ u.v.sregs = s.v.sregs ∧ u.v.tpc = t.tpc ∧
        u.v.tval = t.tval ∧
        u.v.tcause = { recd := false, nest := true, ppl := s.v.level == .supervisor, forced := t.forced,
                       sub := BitVec.ofNat 8 t.sub, cls := BitVec.ofNat 5 t.cls.code }) ∧
    (s.halting t.cls = true →
      let u := s.takeTrap t
      u.v = { s.v with frozen := true, pending := some t, status := .runnable, remoteData := [], cut := none } ∧ u.mem = s.mem ∧
        ∃ (c : Cause) (cuts : List (Nat × Nat × Nat)),
          u.events = s.events ++ [.snuffWaveArrival ⟨s.jobOf s.v.ctx, cuts⟩ c.time c.ep c.die c.cls c.rank c.pc c.detail] ∧
          c.cls = t.cls.code ∧ c.pc = t.tpc ∧ c.detail = t.tval ∧ c.rank = s.v.rank.toNat)

/-- The codes of the trap classes (R299 Table 4). -/
def Claim.TrapClassCodes : Prop :=
  [TrapClass.ill, .priv, .align, .page, .prot, .memerr, .fabric, .arith, .brk, .step, .watch, .preempt, .timeout, .sparsemeta,
    .tile, .wick, .sys].map TrapClass.code = [1, 2, 3, 4, 5, 6, 7, 8, 9, 10, 11, 12, 13, 14, 15, 16, 17]

/-- TRAP #n takes SYS with TVAL n and TPC at the next instruction (R428), and BRK takes BRK at itself with TVAL 0: each is the
trap entry and nothing besides. -/
def Claim.TrapAndBreakpoint : Prop :=
  (∀ (s : State) (n : BitVec 12), exec (.trap n) s = .next
    (s.takeTrap { cls := .sys, sub := 0, tval := n.setWidth 64, tpc := s.v.pc + 4, forced := false, frec := none })) ∧
  (∀ s : State, exec .brk s = .next
    (s.takeTrap { cls := .brk, sub := 0, tval := 0, tpc := s.v.pc, forced := false, frec := none }))

/-- TRAP and BRK at user level, with a trap block that may be read and written, complete in their handler (R305): TCAUSE, TPC and TVAL
hold the trap, s2 and s3 the block's words for the handler, the block s1 to s31, and every other register keeps its value. -/
def Claim.TrapsEnterTheirHandlers : Prop :=
  ∀ (i : Instr) (s : State) (cls : TrapClass) (tval tpc : Word) (handler stack : Nat),
    (∃ n, i = .trap n ∧ cls = .sys ∧ tval = n.setWidth 64 ∧ tpc = s.v.pc + 4) ∨
      (i = .brk ∧ cls = .brk ∧ tval = 0 ∧ tpc = s.v.pc) →
    s.halting cls = false → s.v.level = .user → s.v.tvec ≠ 0 → s.v.stepOnce = false → handler % 2 = 0 →
    s.openWord s.trapParty s.v.block = some handler → s.openWord s.trapParty (s.v.block + 8) = some stack →
    s.writable s.trapParty (s.v.block + 0x100) 32 →
    ∃ u : State, exec i s = .next u ∧ u.v.level = .supervisor ∧ u.v.status = .runnable ∧ u.v.pc = BitVec.ofNat 64 handler ∧
      u.rd 2 = BitVec.ofNat 64 stack ∧ u.rd 3 = s.v.block ∧ (∀ r, r ≠ 2 → r ≠ 3 → u.rd r = s.rd r) ∧
      u.v.tcause = { recd := false, nest := false, ppl := false, forced := false, sub := 0, cls := BitVec.ofNat 5 cls.code } ∧
      u.v.tpc = tpc ∧ u.v.tval = tval ∧ u.v.tvec = s.v.tvec ∧ u.v.vregs = s.v.vregs ∧ u.v.masks = s.v.masks ∧
      u.v.streams = s.v.streams ∧ u.v.vl = s.v.vl ∧ u.v.vstart = s.v.vstart ∧ u.v.fpc = s.v.fpc ∧
      u.mem = (s.storeWords s.trapParty (s.v.block + 0x100) (0 :: s.v.sregs.toList.drop 1)).1.mem ∧ u.parked = s.parked

/-- ERET at supervisor level, once the 31 words at TVEC + 0x108 have been read: s1 to s31 hold them, the level is PPL's, the
pc TPC, and nothing else of the VLC's registers changes (R307). An odd TPC raises ALIGN and changes nothing (R74). -/
def Claim.ReturnFromTrap : Prop :=
  (∀ (s s1 : State), s.v.level = .supervisor → s.v.tpc.getLsbD 0 = false → s.v.bad = [] → s.v.stepOnce = false →
    s.reload (s.v.block + 0x108) 1 31 = .ok s1 →
    ∃ u : State, exec .eret s = .next u ∧ u.v.pc = s.v.tpc ∧ u.v.level = levelOf s.v.tcause.ppl ∧ u.v.sregs = s1.v.sregs ∧
      u.v.tcause = s.v.tcause ∧ u.v.tpc = s.v.tpc ∧ u.v.tval = s.v.tval ∧ u.v.vregs = s.v.vregs ∧ u.v.fpc = s.v.fpc ∧
      u.v.status = .runnable ∧ u.mem = s1.mem) ∧
  (∀ s : State, s.v.level = .supervisor → s.v.tpc.getLsbD 0 = true → s.v.bad = [] →
    exec .eret s = .next (s.trapHere .align 0 (untag s.v.tpc) none))

/-- ERET whose saved registers may be read completes (R307): s1 to s31 hold the words at TVEC + 0x108, the level is PPL's, the pc TPC,
and no other register and no byte of memory changes. -/
def Claim.ReturnsReachTheirProgram : Prop :=
  ∀ (s : State) (x : Nat → Nat), s.v.level = .supervisor → s.v.tpc.getLsbD 0 = false → s.v.bad = [] → s.v.stepOnce = false →
    (∀ k, k < 31 → s.openWord s.trapParty (s.v.block + 0x108 + BitVec.ofNat 64 (8 * k)) = some (x k)) →
    ∃ u : State, exec .eret s = .next u ∧ u.v.pc = s.v.tpc ∧ u.v.level = levelOf s.v.tcause.ppl ∧ u.v.status = .runnable ∧
      (∀ k, k < 31 → u.rd (BitVec.ofNat 5 (k + 1)) = BitVec.ofNat 64 (x k)) ∧ u.v.tcause = s.v.tcause ∧ u.v.tpc = s.v.tpc ∧
      u.v.tval = s.v.tval ∧ u.v.vregs = s.v.vregs ∧ u.v.masks = s.v.masks ∧ u.v.fpc = s.v.fpc ∧ u.mem = s.mem

/-- The 31 words ERET reads are those a trap entry stored: one register after another from s1, eight bytes apart. -/
def Claim.ReloadReadsEachRegister : Prop :=
  ∀ (s u : State) (a : Word) (r n : Nat), 1 ≤ r → r + n ≤ 32 → s.reload a r n = .ok u →
    (∀ k, k < n → ∃ (m m' : State) (x : Nat), m.load m.trapParty (.mem (a + BitVec.ofNat 64 (8 * k)) 8 .load 0) = .ok (x, m') ∧
      u.rd (BitVec.ofNat 5 (r + k)) = BitVec.ofNat 64 x) ∧
    (∀ q : SReg, q.toNat < r ∨ r + n ≤ q.toNat → u.rd q = s.rd q)

/-- FENCE completes once no store to another endpoint is outstanding, a load fence at once; FENCEI at once (R188, R189); YIELD
gives up its turn and completes (R46); each leaves every register and every byte as it was. A FENCE that must wait does so
at its pc. -/
def Claim.FencesAndYield : Prop :=
  ∀ (s : State), s.smooth = true →
    (∀ k sc, k = .ld ∨ s.v.stores = [] → exec (.fence k sc) s = .next (s.past (.fence k sc))) ∧
    (∀ k sc, k ≠ .ld → s.v.stores ≠ [] →
      exec (.fence k sc) s = .next (s.setV fun v => { v with status := .blocked (.fence k sc) })) ∧
    exec .fencei s = .next (s.past .fencei) ∧
    exec .yield s = .next ((s.setV fun v => { v with yielded := true }).past .yield)

/-- RDTIME waits for its I/O die and then holds a Beacon at most 1 µs later than the one at its issue (R359): its step makes
the reply due, and the next step, with nothing due before it, writes rd and moves the pc past it. -/
def Claim.ReadTimeRoundTrip : Prop :=
  ∀ (s : State) (d : SReg), s.smooth = true → s.events = [] → s.v.frozen = false →
    s.beacon.toNat + 1000 < 2 ^ 64 →
    ∃ (t u : State) (b : Word), exec (.rdtime d) s = .next t ∧ step t = .next u ∧ s.beacon.toNat ≤ b.toNat ∧ b.toNat ≤ s.beacon.toNat + 1000 ∧
      u.beacon = b ∧ (d ≠ 0 → u.rd d = b) ∧ (∀ r, r ≠ d → u.rd r = s.rd r) ∧ u.v.pc = s.v.pc + 4 ∧
      u.v.status = .runnable ∧ u.mem = s.mem

/-- SNUFF completes, its VLC freezes at the next instruction, and a wave with cause class 0x20 starts for its job (R368): the other
packages of the job hear of this one's first cause (R371). -/
def Claim.SnuffStartsWave : Prop :=
  ∀ (s : State), s.smooth = true → ∃ (t : State) (c : Cause) (cuts : List (Nat × Nat × Nat)), exec .snuff s = .next t ∧
    t.v.pc = s.v.pc + 4 ∧ t.v.frozen = true ∧ t.v.sregs = s.v.sregs ∧ t.mem = s.mem ∧
    t.events = s.events ++ [.snuffWaveArrival ⟨s.jobOf s.v.ctx, cuts⟩ c.time c.ep c.die c.cls c.rank c.pc c.detail] ∧
    c = { time := s.beacon, ep := s.endpoint, die := s.v.core / 128, cls := 0x20, rank := s.v.rank.toNat, pc := s.v.pc,
          detail := 0 } ∧
    (s.jobOf s.v.ctx < 65536 → s.causeKnown (s.jobOf s.v.ctx) = false → t.outbox = s.outbox ++ [.wave (s.jobOf s.v.ctx) c]) ∧
    (s.causeKnown (s.jobOf s.v.ctx) = true → t.outbox = s.outbox)

/-- IDLE at supervisor level (R320): after a VSAVE it releases its core, once the VLC's stores are performed (R184), its VLC waiting
off the core for the address saved to, its registers kept; else it completes when a pre-emption request is pending, and waits for
one otherwise. -/
def Claim.IdleReleasesOrWaits : Prop :=
  ∀ (s : State), s.v.level = .supervisor → s.smooth = true →
    (∀ b, s.v.savedTo = some b → b ≠ 0 → s.v.stores = [] → ∃ t : State, exec .idle s = .next t ∧ t.v = Vlc.absent ∧
      ∃ v ∈ t.parked, v.status = .released b ∧ v.launch = s.v.launch ∧ v.rank = s.v.rank ∧ v.pc = s.v.pc ∧
        v.sregs = s.v.sregs ∧ v.preempt = false) ∧
    (∀ b, s.v.savedTo = some b → b ≠ 0 → s.v.stores ≠ [] →
      exec .idle s = .next (s.setV fun v => { v with status := .draining .idle })) ∧
    ((s.v.savedTo = none ∨ s.v.savedTo = some 0) → s.v.preempt = true → exec .idle s = .next (s.past .idle)) ∧
    ((s.v.savedTo = none ∨ s.v.savedTo = some 0) → s.v.preempt = false →
      exec .idle s = .next (s.setV fun v => { v with status := .blocked .idle }))

/-! ## Scalar memory accesses -/

/-- A scalar load whose access gives `x` writes it, sign- or zero-extended by its type, to its destination and moves the pc past
itself; besides, only the spin detector (R47) may change. An access that stops takes its trap. -/
def Claim.ScalarLoadsComplete : Prop :=
  ∀ (i : Instr) (s : State) (t : VType) (x : Space) (d : SReg) (a : Word), scalarLoad i s = some (t, x, d, a) →
    (∀ (s1 : State) (y : Nat), s.loadAt x a (t.width / 8) true = .ok (y, s1) → y < 2 ^ t.width → s.smooth = true →
      ∃ p, exec i s = .next (((s1.setV fun v => { v with spin := p }).wr d (loaded t y)).past i)) ∧
    (∀ e, s.loadAt x a (t.width / 8) true = .error e → s.smooth = true → exec i s = .next (s.raise i e))

/-- Every scalar load whose access nothing stops completes (R302, R410, R411): its destination holds the bytes there, extended by
its type; nothing else changes but the pc, the spin detector and the counts of accesses. -/
def Claim.ScalarLoadsFinish : Prop :=
  ∀ (i : Instr) (s : State) (t : VType) (x : Space) (d : SReg) (a : Word) (o : Nat), scalarLoad i s = some (t, x, d, a) →
    s.smooth = true → s.spot x (.scalar a (t.width / 8) .load) = some o →
    ∃ (u : State) (p : Spin), s.counted u ∧
      exec i s = .next (((u.setV fun v => { v with spin := p }).wr d (loaded t ((s.spaceMem x).read o (t.width / 8)))).past i)

/-- A scalar store whose access is permitted stores the low bits of its register and moves the pc past itself; the spin
detector starts again (R47). A releasing store waits until no store to another endpoint is outstanding (R185). An access that
stops takes its trap and stores nothing. -/
def Claim.ScalarStoresComplete : Prop :=
  ∀ (i : Instr) (s : State) (t : VType) (x : Space) (d : SReg) (a : Word), scalarStore i s = some (t, x, d, a) →
    s.v.stores = [] → s.smooth = true →
    (∀ s1 : State, s.storeAt x a (t.width / 8) ((s.rd d).toNat % 2 ^ t.width) = .ok s1 →
      exec i s = .next ((s1.setV fun v => { v with spin := Spin.idle }).past i)) ∧
    (∀ e, s.storeAt x a (t.width / 8) ((s.rd d).toNat % 2 ^ t.width) = .error e → exec i s = .next (s.raise i e))

/-- Every scalar store whose access nothing stops completes (R302, R410, R412), a releasing one once no store of its VLC to another
endpoint is outstanding: its bytes hold the low bits of its register, and no other byte of any memory and no register changes. -/
def Claim.ScalarStoresFinish : Prop :=
  ∀ (i : Instr) (s : State) (t : VType) (x : Space) (d : SReg) (a : Word) (o : Nat), scalarStore i s = some (t, x, d, a) →
    s.v.stores = [] → s.smooth = true → s.spot x (.scalar a (t.width / 8) .store) = some o → (s.spaceMem x).wf = true →
    ∃ u : State, exec i s = .next u ∧ u.v = (State.past (s.setV fun v => { v with spin := Spin.idle }) i).v ∧ s.elsewhere u x ∧
      (u.spaceMem x).read o (t.width / 8) = (s.rd d).toNat % 2 ^ t.width ∧
      ∀ b, b < o ∨ o + t.width / 8 ≤ b → (u.spaceMem x).byte b = (s.spaceMem x).byte b

/-- What a scalar access of cluster memory or a scratchpad does: within the space it reads or writes its little-endian bytes
and no other byte of the state's memories; beyond it it raises PROT 5; an address that is no multiple of its size raises
ALIGN first (R148, R149). -/
def Claim.LocalSpaceAccesses : Prop :=
  ∀ (s : State) (x : Space) (a : Word) (n y : Nat), x = .cmem ∨ x = .spad → n = 1 ∨ n = 2 ∨ n = 4 ∨ n = 8 →
    (a.toNat % n ≠ 0 → s.loadAt x a n true = .error (.plain .align 0 a) ∧ s.storeAt x a n y = .error (.plain .align 0 a)) ∧
    (a.toNat % n = 0 → spaceExtent x < a.toNat + n →
      s.loadAt x a n true = .error (.prot 5 a) ∧ s.storeAt x a n y = .error (.prot 5 a)) ∧
    (a.toNat % n = 0 → a.toNat + n ≤ spaceExtent x →
      s.loadAt x a n true = .ok ((s.spaceMem x).read a.toNat n, s) ∧
      ∃ u, s.storeAt x a n y = .ok u ∧ u.v = s.v ∧ u.mem = s.mem ∧
        ((s.spaceMem x).wf = true → (u.spaceMem x).read a.toNat n = y % 256 ^ n) ∧
        (∀ b, b < a.toNat ∨ a.toNat + n ≤ b → (u.spaceMem x).byte b = (s.spaceMem x).byte b))

/-- A permitted scalar load of DRAM of this package, of a page stored in the clear, reads its bytes there and leaves them;
the access itself changes no byte of DRAM but the one of its leaf that holds A and D (R296). A poisoned unit raises
MEMERR 1 (R281). -/
def Claim.DramLoads : Prop :=
  ∀ (s : State) (a : Word) (n : Nat) (r : Ref), a.toNat % n = 0 → n = 1 ∨ n = 2 ∨ n = 4 ∨ n = 8 →
    s.resolve s.party (.scalar a n .load) = .ok r → epOf r.pa = s.endpoint → windowOf r.pa = 0 →
    (s.poisoned r.pa = true → s.loadAt .glob a n true = .error (.plain .memerr 1 r.a)) ∧
    (s.poisoned r.pa = false → r.e.bit 11 = false →
      ∃ u, s.loadAt .glob a n true = .ok (s.mem.read (r.pa % 2 ^ 43) n, u) ∧ u.v = s.v ∧
        (usedPte r.e (.scalar a n .load) = r.e.pte → u.events = s.events) ∧
        ∀ b, b ≠ r.e.addr % 2 ^ 43 → u.mem.byte b = s.mem.byte b)

/-- A permitted scalar store of DRAM of this package, of a page stored in the clear: reading the bytes back gives what was
stored, every other byte but the leaf's A and D byte is unchanged, and so are the registers of the VLC. -/
def Claim.DramStores : Prop :=
  ∀ (s : State) (a : Word) (n y : Nat) (r : Ref), a.toNat % n = 0 → n = 1 ∨ n = 2 ∨ n = 4 ∨ n = 8 →
    s.resolve s.party (.scalar a n .store) = .ok r → epOf r.pa = s.endpoint → windowOf r.pa = 0 → r.e.bit 11 = false →
    s.mem.wf = true →
    ∃ u, s.storeAt .glob a n y = .ok u ∧ u.v = s.v ∧ u.mem.wf = true ∧ u.mem.read (r.pa % 2 ^ 43) n = y % 256 ^ n ∧
      ∀ b, b ≠ r.e.addr % 2 ^ 43 → (b < r.pa % 2 ^ 43 ∨ r.pa % 2 ^ 43 + n ≤ b) → u.mem.byte b = s.mem.byte b

/-- Accesses that are permitted are permitted by every check of R302: the address is canonical or carries a tag key, the page
has the right the access needs and U at user level, the granule agrees with the region (R283), a wick page lies in a wick
region, a page with tags agrees with the key (R290), a sealed page has a key slot, no watch pair matches (R374), and an
access outside DRAM is one of 4 or 8 bytes of a register by a page of the device policy (R292). -/
def Claim.PermittedAccesses : Prop :=
  ∀ (s : State) (p : Party) (q : Req) (r : Ref), s.resolve p q = .ok r →
    (tagKey q.va ≠ 0 ∨ canonical q.va = true) ∧ r.a = untag q.va ∧ s.translate p q r.a = .ok (r.e, r.walk) ∧ r.pa = r.e.phys r.a ∧
      (p.sup = false → r.e.bit 4 = true) ∧
      (q.kind = .load → r.e.bit 1 = true) ∧ (q.kind = .store → r.e.bit 2 = true) ∧ (q.kind = .fetch → r.e.bit 3 = true) ∧
      (q.kind = .rmw → r.e.bit 1 = true ∧ r.e.bit 2 = true) ∧
      (windowOf r.pa = 0 → epOf r.pa = s.endpoint →
        r.e.gr = (s.region r.pa).gr.toNat ∧ (r.e.bit 10 = true → (s.region r.pa).wick = true)) ∧
      (windowOf r.pa ≠ 0 → q.reg = true ∧ r.e.cp = 2 ∧ (q.n = 4 ∨ q.n = 8) ∧ (regAt r.pa).isSome = true) ∧
      (p.core.isSome = true → r.e.bit 12 = false → tagKey q.va = 0) ∧
      (p.core.isSome = true → r.e.bit 12 = true → windowOf r.pa = 0 → epOf r.pa = s.endpoint →
        s.tagAt r.pa = tagKey q.va ∧ s.tagAt (r.pa + q.n - 1) = tagKey q.va) ∧
      (r.e.bit 11 = true → r.e.key.isSome = true ∧ r.e.bit 10 = false) ∧ s.watched p q.kind r.a.toNat q.n = false

/-- A translation that the walk finds is a leaf R294 allows at its size, of a level that may hold leaves (R293), and it maps
the address: its number is the address's, and the physical address lies in its frame at the address's offset. -/
def Claim.WalksFindLeaves : Prop :=
  ∀ (s : State) (p : Party) (q : Req) (a : Word) (e : TlbEntry) (read : List Nat), tlbFind p.ctx a (s.tlb1 p) = none →
    tlbFind p.ctx a (s.die p.die).tlb = none → s.translate p q a = .ok (e, read) →
    e.ctx = p.ctx ∧ e.vpn = a.toNat / 2 ^ e.size ∧ (e.size = 16 ∨ e.size = 21 ∨ e.size = 30) ∧
      leafOk e.pte.toNat e.size = true ∧ e.bit 0 = true ∧ (e.bit 1 = true ∨ e.bit 2 = true ∨ e.bit 3 = true) ∧
      e.phys a % 2 ^ e.size = a.toNat % 2 ^ e.size

/-- A scalar atomic whose access gives the old value returns it and stores the new one (R396, R397): AMO's operation on the two
values, or CAS's new value where the old one is the one compared. The old value is sign-extended for the signed minimum and
maximum. A releasing order waits for the VLC's stores (R185). -/
def Claim.AtomicsComplete : Prop :=
  ∀ (s : State) (o : MemOrder) (cm w32 : Bool) (sc : Scope) (d a b : SReg) (k : AmoOp), s.v.stores = [] →
    s.smooth = true →
    let n := if w32 then 4 else 8
    let x := if cm then Space.cmem else Space.glob
    let y := (s.rd b).toNat % 2 ^ (8 * n)
    let w := (s.rd d).toNat % 2 ^ (8 * n)
    (∀ (s1 : State) (old : Nat), s.rmwAt x (s.rd a) n (.amo k n y) (fun z => amoNew k n z y) = .ok (old, s1) →
      exec (.amo o cm w32 k sc d a b) s =
        .next (((s1.wr d (amoOld k n old)).setV fun v => { v with spin := Spin.idle }).past (.amo o cm w32 k sc d a b))) ∧
    (∀ (s1 : State) (old : Nat), s.rmwAt x (s.rd a) n (.cas n w y) (fun z => if z = w then y else z) = .ok (old, s1) →
      exec (.cas o cm w32 sc d a b) s =
        .next (((s1.wr d (BitVec.ofNat 64 old)).setV fun v => { v with spin := Spin.idle }).past (.cas o cm w32 sc d a b)))

/-- Every scalar atomic whose access nothing stops completes (R302, R396, R397): the destination holds the old value, its bytes the
new one, and no other byte and no other register changes. -/
def Claim.AtomicsFinish : Prop :=
  ∀ (s : State) (o : MemOrder) (cm w32 : Bool) (sc : Scope) (d a b : SReg) (k : AmoOp) (at_ : Nat), s.v.stores = [] →
    s.v.remoteData = [] → s.smooth = true →
    let n := if w32 then 4 else 8
    let x := if cm then Space.cmem else Space.glob
    let y := (s.rd b).toNat % 2 ^ (8 * n)
    let w := (s.rd d).toNat % 2 ^ (8 * n)
    let old := (s.spaceMem x).read at_ n
    let done (i : Instr) (r : Word) (new : Nat) := ∃ u : State, exec i s = .next u ∧
      u.v = (((s.wr d r).setV fun v => { v with spin := Spin.idle }).past i).v ∧ s.elsewhere u x ∧
      (u.spaceMem x).read at_ n = new ∧ ∀ c, c < at_ ∨ at_ + n ≤ c → (u.spaceMem x).byte c = (s.spaceMem x).byte c
    s.spot x (.mem (s.rd a) n .rmw 0) = some at_ → (s.spaceMem x).wf = true →
    done (.amo o cm w32 k sc d a b) (amoOld k n old) (amoNew k n old y) ∧
    done (.cas o cm w32 sc d a b) (BitVec.ofNat 64 old) (if old = w then y else old)

/-- What a read-modify-write does to memory: in cluster memory, and in DRAM of this package stored in the clear, it returns the
bytes there and replaces them by the new value; every byte outside them, but the leaf's A and D byte, is unchanged. -/
def Claim.AtomicsReplaceMemory : Prop :=
  ∀ (s : State) (a : Word) (n : Nat) (op : RemoteOp) (f : Nat → Nat), n = 4 ∨ n = 8 → a.toNat % n = 0 →
    (a.toNat + n ≤ spaceExtent .cmem → (s.spaceMem .cmem).wf = true →
      ∃ u, s.rmwAt .cmem a n op f = .ok ((s.spaceMem .cmem).read a.toNat n, u) ∧ u.v = s.v ∧ u.mem = s.mem ∧
        (u.spaceMem .cmem).read a.toNat n = f ((s.spaceMem .cmem).read a.toNat n) % 256 ^ n ∧
        ∀ b, b < a.toNat ∨ a.toNat + n ≤ b → (u.spaceMem .cmem).byte b = (s.spaceMem .cmem).byte b) ∧
    (∀ r, s.resolve s.party (.mem a n .rmw 0) = .ok r → epOf r.pa = s.endpoint → s.poisoned r.pa = false →
      r.e.bit 11 = false → s.mem.wf = true → s.v.remoteData = [] →
      ∃ u, s.rmwAt .glob a n op f = .ok (s.mem.read (r.pa % 2 ^ 43) n, u) ∧ u.v = s.v ∧ u.mem.wf = true ∧
        u.mem.read (r.pa % 2 ^ 43) n = f (s.mem.read (r.pa % 2 ^ 43) n) % 256 ^ n ∧
        ∀ b, b ≠ r.e.addr % 2 ^ 43 → (b < r.pa % 2 ^ 43 ∨ r.pa % 2 ^ 43 + n ≤ b) → u.mem.byte b = s.mem.byte b)

/-- The value an AMO stores, by its operation (R397): sum, and, or, exclusive or, lesser and greater signed or unsigned, swap. -/
def Claim.AmoOperations : Prop :=
  ∀ (n : Nat) (x y : BitVec 64), n = 4 ∨ n = 8 →
    let w := 8 * n
    let p := x.toNat % 2 ^ w
    let q := y.toNat % 2 ^ w
    let sx := (x.setWidth w).toInt
    let sy := (y.setWidth w).toInt
    amoNew .add n p q = (x + y).toNat % 2 ^ w ∧ amoNew .and n p q = (x &&& y).toNat % 2 ^ w ∧
      amoNew .or n p q = (x ||| y).toNat % 2 ^ w ∧ amoNew .xor n p q = (x ^^^ y).toNat % 2 ^ w ∧
      amoNew .swap n p q = q ∧ amoNew .minU n p q = min p q ∧ amoNew .maxU n p q = max p q ∧
      BitVec.ofNat w (amoNew .minS n p q) = BitVec.ofInt w (min sx sy) ∧
      BitVec.ofNat w (amoNew .maxS n p q) = BitVec.ofInt w (max sx sy) ∧ amoOld .add n p = BitVec.ofNat 64 p ∧
      amoOld .minS n p = BitVec.ofInt 64 sx ∧ amoOld .maxS n p = BitVec.ofInt 64 sx

/-! ## Scalar floating point -/

/-- A scalar floating-point instruction whose result raises no enabled flag ORs its flags into FPC, writes its result and moves
the pc past itself; a stochastic conversion also draws from SRSEED. One whose result raises an enabled flag ORs its flags in,
leaves rd and SRSEED as they were, and takes ARITH with the flags in TVAL (R131, R407). -/
def Obligations.ScalarFloatsComplete : Prop :=
  ∀ (i : Instr) (s : State) (d : SReg) (r : Res), scalarFp i s = some (d, r) → i.wf = true → s.smooth = true →
    let s1 := s.setV fun v => { v with fpc := { v.fpc with flags := v.fpc.flags ||| r.flags } }
    (s.v.fpc.en &&& r.flags = 0 → exec i s = .next (((s1.afterDraw i).wr d (BitVec.ofNat 64 r.bits)).past i)) ∧
    (s.v.fpc.en &&& r.flags ≠ 0 → exec i s = .next (s1.trapHere .arith 0 (r.flags.setWidth 64) none))

/-- The one rounding (R128): the multiple of 2^q that a mode gives for the exact value ±m × 2^e lies next to it: below it in
magnitude for RTZ, on its side for RUP and RDN, nearest with ties to even for RNE; and it says whether it is exact. -/
def Claim.RoundingIsDirected : Prop :=
  ∀ (rm : RMode) (neg : Bool) (m : Nat) (e q : Int),
    let x : ℚ := m * 2 ^ (e - q)
    let k : ℚ := (roundAt rm neg m e q).1
    ((roundAt rm neg m e q).2 = true ↔ ∀ j : Nat, (j : ℚ) ≠ x) ∧
    (rm = .rtz → k ≤ x ∧ x < k + 1) ∧
    (rm = .rup → if neg then k ≤ x ∧ x < k + 1 else x ≤ k ∧ k < x + 1) ∧
    (rm = .rdn → if neg then x ≤ k ∧ k < x + 1 else k ≤ x ∧ x < k + 1) ∧
    (rm = .rne → |k - x| ≤ 1 / 2 ∧ (|k - x| = 1 / 2 → (roundAt rm neg m e q).1 % 2 = 0))

/-- A result in FP64, FP32, FP16 or BF16 that does not overflow is the value nearest to the exact one: no value of the format
lies nearer, and of two equally near its encoding is the even one (R128). -/
def Obligations.ResultsAreNearest : Prop :=
  ∀ (t : VType) (neg : Bool) (m : Nat) (e : Int), t.isF = true → m ≠ 0 →
    let r := t.fmt.round .rne false false neg m e
    let x : ℚ := (if neg then -1 else 1) * m * 2 ^ e
    r.flags &&& flagOF = 0 →
    ∃ d, t.fmt.val r.bits = .num d ∧ ((r.flags &&& flagNX = 0) ↔ ratOf d = x) ∧
      ∀ (w : Nat) (d' : Dy), t.fmt.val w = .num d' →
        |ratOf d - x| ≤ |ratOf d' - x| ∧ (|ratOf d - x| = |ratOf d' - x| → ratOf d = ratOf d' ∨ r.bits % 2 = 0)

/-- The sums, differences and products that are rounded are exact (R129), and so is the sum a fused multiply-add rounds. -/
def Claim.ExactSumsAndProducts : Prop :=
  ∀ (rm : RMode) (x y z : Dy),
    ratOf (Dy.add rm x y) = ratOf x + ratOf y ∧ ratOf (Dy.mul x y) = ratOf x * ratOf y ∧
      ratOf (Dy.add rm (Dy.mul x y) z) = ratOf x * ratOf y + ratOf z ∧
      (Dy.lt x y = true ↔ ratOf x < ratOf y) ∧ (Dy.eqv x y = true ↔ ratOf x = ratOf y)

/-! ## Vector instructions -/

/-- An element-wise vector instruction whose active source elements are not poisoned and whose results raise no enabled flag:
element k of its destination becomes its table's value where k is active and keeps its value elsewhere, the flags of the
active elements are ORed into FPC, the destination's width tag and high-water mark follow the type and VL (R56), VSTART
becomes 0 (R86), the pc moves past it, and nothing else changes. -/
def Claim.VectorElementValues : Prop :=
  ∀ (i : Instr) (s : State) (o : VecOp), vecOp i s = some o → decodeStop i s = none → s.smooth = true →
    s.v.vl ≤ 8192 → s.v.vl * o.t.width ≤ 64 * s.v.mvl64 → s.v.mvl64 ≤ 4096 → o.d.toNat < 8 * (s.v.declHeld.toNat + 1) →
    (∀ k r, s.v.live o.mask k → r ∈ o.reads k → (s.v.vregs[r.toNat]).poison.getLsbD (o.t.width * k / 64) = false) →
    (∀ k, s.v.live o.mask k → s.v.fpc.en &&& (o.val k).flags = 0) →
    ∃ (r : VecReg) (fl : Flags),
      exec i s = .next ((s.setV fun v => { v with
        vregs := v.vregs.set o.d.toNat r, fpc := { v.fpc with flags := v.fpc.flags ||| fl }, vstart := 0, tilepos := 0 }).past i) ∧
      (∀ k, s.v.live o.mask k → r.img.extractLsb' (o.t.width * k) o.t.width =
        BitVec.ofNat o.t.width (payload o.t ((o.val k).bits % 2 ^ o.t.width))) ∧
      (∀ k, ¬s.v.live o.mask k → r.img.extractLsb' (o.t.width * k) o.t.width =
        (s.v.vregs[o.d.toNat]).img.extractLsb' (o.t.width * k) o.t.width) ∧
      (∀ b, fl.getLsbD b = true ↔ ∃ k, s.v.live o.mask k ∧ (o.val k).flags.getLsbD b = true) ∧
      (if s.v.vl = 0 then r = s.v.vregs[o.d.toNat]
        else r.tag = BitVec.ofNat 2 o.t.wcode ∧ r.hwm = max (s.v.vregs[o.d.toNat]).hwm (s.v.vl * o.t.width / 8))

/-- Every vector and accumulator-port instruction that is a convoy of its own performs its elements from VSTART.ELEM to VL − 1
in ascending order; when none stops it completes with VSTART 0. With VSTART at or above VL it performs none and completes, its
tag, mark and mask bits as after its last element; with VL 0 it changes nothing (R56, R59, R86, R87). -/
def Claim.VectorInstructionsRunTheirElements : Prop :=
  ∀ (i : Instr) (s : State) (m : Member), loneMember i = some m → decodeStop i s = none → loneOk i s → s.smooth = true →
    s.v.early = false → (m.block = true → s.v.vstart % 128 = 0) →
    (s.v.vl = 0 → exec i s = .next ((s.setV fun v => { v with vstart := 0, tilepos := 0 }).past i)) ∧
    (0 < s.v.vl → s.v.vl ≤ s.v.vstart → (m.close s s.v.vl true).smooth = true →
      exec i s = .next (((m.close s s.v.vl true).setV fun v => { v with vstart := 0, tilepos := 0 }).past i)) ∧
    (∀ s1 : State, s.v.vstart < s.v.vl →
      runElems (m.elem s) s s.v.vstart (s.v.vl - s.v.vstart) = (s1, none) → (m.close s1 s.v.vl true).smooth = true →
      exec i s = .next (((m.close s1 s.v.vl true).setV fun v => { v with vstart := 0, tilepos := 0 }).past i))

/-- A vector instruction that is not fault-only-first and whose element e is the first to stop, by a trap that is not ARITH:
the elements below e are performed, VSTART.ELEM is e, and the trap is taken at the instruction (R86, R303). -/
def Claim.VectorStopsAtItsElement : Prop :=
  ∀ (i : Instr) (s s1 s2 : State) (m : Member) (e : Nat) (cls : TrapClass) (sub : Nat) (tval : Word) (r : Option FaultRec),
    loneMember i = some m → decodeStop i s = none → loneOk i s → m.fof = false → m.block = false → m.group = false →
    cls ≠ .arith → cls ≠ .page → s.v.cut = none → s.v.early = false → s.v.vstart ≤ e → e < s.v.vl →
    runElems (m.elem s) s s.v.vstart (e - s.v.vstart) = (s1, none) → m.elem s s1 e = .error (e, .trap cls sub tval r) →
    s2 = m.close s1 e false →
    exec i s = .next ((s2.setV fun v => { v with vstart := e }).trapHere cls sub tval r)

/-- VFCVT of elements that are not poisoned, where no flag is enabled, completes (R443): between types that are not block-scaled each
element takes its source's conversion under the mode its field names; no register but the destination's and no memory changes. -/
def Claim.ConversionsFinish : Prop :=
  ∀ (s : State) (t u : VType) (p : Conv) (d a : VReg) (c : Bool),
    let i := Instr.vfcvt t p u d a c
    i.wf = true → decodeStop i s = none → s.smooth = true → s.v.vl ≤ 8192 → s.v.vl * t.width ≤ 64 * s.v.mvl64 →
    s.v.vl * u.width ≤ 64 * s.v.mvl64 → s.v.mvl64 ≤ 4096 → (∀ r ∈ vnames i, r < 8 * (s.v.declHeld.toNat + 1)) → s.v.fpc.en = 0 →
    (s.v.vregs[a.toNat]).poison = 0 → (u.isX = true → (s.v.vregs[(a + 1).toNat]).poison = 0) →
    ∃ w : State, exec i s = .next w ∧ w.v.pc = s.v.pc + 4 ∧ w.v.vstart = 0 ∧ w.v.sregs = s.v.sregs ∧ w.v.masks = s.v.masks ∧
      w.mem = s.mem ∧ (∀ r : VReg, r ≠ d → (t.isX = true → r ≠ d + 1) → w.v.vregs[r.toNat] = s.v.vregs[r.toNat]) ∧
      ∀ mode : RMode, (p = .rne ∧ mode = .rne) ∨ (p = .rtz ∧ mode = .rtz) ∨ (p = .rup ∧ mode = .rup) ∨ (p = .rdn ∧ mode = .rdn) ∨
          ((p = .fpc ∨ p = .sat) ∧ mode = RMode.ofRm s.v.fpc.rm) →
        t.notX = true → u.notX = true → ∀ k, s.v.vstart ≤ k → k < s.v.vl →
        w.v.element t d k = payload t ((cvt t u (.mode mode) (p == .sat) (s.v.element u a k)).bits % 2 ^ t.width)

/-- VCMP and MLOG: from VSTART.ELEM to VL − 1 each bit of the destination is the comparison's or the operation's, bits below keep
their value, bits at and above VL become 0 (R59), and nothing else changes but the flags of the comparisons. -/
def Claim.MaskResults : Prop :=
  ∀ (i : Instr) (s : State) (o : MaskOp), maskOp i s = some o → i.wf = true → decodeStop i s = none → s.smooth = true →
    s.v.vl ≤ 8192 → s.v.vl * o.t.width ≤ 64 * s.v.mvl64 → s.v.mvl64 ≤ 4096 → 0 < s.v.vl →
    (∀ r ∈ o.reads, (s.v.vregs[r.toNat]).poison = 0) →
    (∀ k, s.v.vstart ≤ k → k < s.v.vl → s.v.fpc.en &&& (o.val k).2 = 0) →
    ∃ (x : BitVec 8192) (fl : Flags),
      exec i s = .next ((s.setV fun v => { v with
        masks := v.masks.set o.d.toNat x, fpc := { v.fpc with flags := v.fpc.flags ||| fl }, vstart := 0, tilepos := 0 }).past i) ∧
      (∀ k, x.getLsbD k = if s.v.vl ≤ k then false else if k < s.v.vstart then (s.v.masks[o.d.toNat]).getLsbD k else (o.val k).1) ∧
      (∀ b, fl.getLsbD b = true ↔ ∃ k, s.v.vstart ≤ k ∧ k < s.v.vl ∧ (o.val k).2.getLsbD b = true)

/-- MPOPC counts the bits of a mask below VL, MFIRST gives the number of the lowest one or −1, and MSBF sets every bit below the
lowest one, or every bit below VL when there is none (R415, R416). -/
def Claim.MaskCounts : Prop :=
  ∀ (s : State) (d : SReg) (a e : MReg), s.smooth = true → 0 < s.v.vl → s.v.vl ≤ 8192 → a ≠ 0 → e ≠ 0 →
    let set := (List.range s.v.vl).filter fun k => (s.v.masks[a.toNat]).getLsbD k
    let ready := s.setV fun v => { v with vstart := 0, tilepos := 0 }
    exec (.mpopc d a) s = .next ((ready.wr d (BitVec.ofNat 64 set.length)).past (.mpopc d a)) ∧
    exec (.mfirst d a) s = .next ((ready.wr d (match set with | [] => -1 | k :: _ => BitVec.ofNat 64 k)).past (.mfirst d a)) ∧
    ∃ x : BitVec 8192, exec (.msbf e a) s = .next ((ready.setV fun v => { v with masks := v.masks.set e.toNat x }).past (.msbf e a)) ∧
      ∀ k, x.getLsbD k = decide (k < set.headD s.v.vl)

/-- The whole-vector instructions that move elements write to each element of their destination the value their table gives it,
in terms of the sources before, and keep the others; tag and mark follow the type and VL; nothing else changes (R436). -/
def Claim.WholeVectorMoves : Prop :=
  ∀ (i : Instr) (s : State) (o : MoveOp), moveOp i s = some o → decodeStop i s = none → s.smooth = true →
    s.v.vl ≤ 8192 → s.v.vl * o.t.width ≤ 64 * s.v.mvl64 → s.v.mvl64 ≤ 4096 → o.d.toNat < 8 * (s.v.declHeld.toNat + 1) →
    0 < s.v.vl → (∀ r ∈ o.reads, (s.v.vregs[r.toNat]).poison = 0) →
    (∀ t m d a b, i = .vperm t m d a b → s.v.vl * (8 * 2 ^ (s.v.vregs[b.toNat]).tag.toNat) ≤ 262144) →
    ∃ r : VecReg, exec i s = .next ((s.setV fun v => { v with vregs := v.vregs.set o.d.toNat r, vstart := 0, tilepos := 0 }).past i) ∧
      r.tag = BitVec.ofNat 2 o.t.wcode ∧ r.hwm = max (s.v.vregs[o.d.toNat]).hwm (s.v.vl * o.t.width / 8) ∧
      ∀ k, r.img.extractLsb' (o.t.width * k) o.t.width = match (if s.v.vl ≤ s.v.vstart then none else o.val k) with
        | some x => BitVec.ofNat o.t.width (payload o.t x)
        | none => (s.v.vregs[o.d.toNat]).img.extractLsb' (o.t.width * k) o.t.width

/-- VEXT writes an element, extended by its type, to a scalar register, or 0 for an element at or above VL (R439). -/
def Claim.ElementToScalar : Prop :=
  ∀ (s : State) (t : VType) (d b : SReg) (a : VReg), decodeStop (.vext t d a b) s = none → s.smooth = true →
    s.v.vstart < s.v.vl → s.v.vl * t.width ≤ 64 * s.v.mvl64 → s.v.mvl64 ≤ 4096 → (s.v.vregs[a.toNat]).poison = 0 →
    exec (.vext t d a b) s = .next (((s.setV fun v => { v with vstart := 0, tilepos := 0 }).wr d
      (if (s.rd b).toNat < s.v.vl then loaded t (s.v.element t a (s.rd b).toNat) else 0)).past (.vext t d a b))

/-- VRED of an integer type writes the reduction of the active elements to element 0; VSCAN of an integer type writes to each
active element the reduction of the active elements up to it (R143, R144, R453, R454). Inactive elements keep their values. -/
def Claim.IntegerReductions : Prop :=
  ∀ (s : State) (t : VType) (m : MReg) (k : RedOp) (d a : VReg), t.isI = true → s.smooth = true → s.v.vl ≤ 8192 →
    s.v.vl * t.width ≤ 64 * s.v.mvl64 → s.v.mvl64 ≤ 4096 → d.toNat < 8 * (s.v.declHeld.toNat + 1) →
    (s.v.vregs[a.toNat]).poison = 0 →
    let upTo (n : Nat) := ((List.range n).filter (s.v.allowed m)).map (s.v.element t a)
    let done (r : VecReg) (i : Instr) :=
      exec i s = .next ((s.setV fun v => { v with vregs := v.vregs.set d.toNat r, vstart := 0, tilepos := 0 }).past i)
    (decodeStop (.vred t m k d a) s = none → s.v.vstart < s.v.vl →
      ∃ r : VecReg, done r (.vred t m k d a) ∧
        r.img.extractLsb' 0 t.width = BitVec.ofNat t.width (reduced t k (upTo s.v.vl)) ∧
        ∀ j, 0 < j → r.img.extractLsb' (t.width * j) t.width = (s.v.vregs[d.toNat]).img.extractLsb' (t.width * j) t.width) ∧
    (decodeStop (.vscan t m k d a) s = none → s.v.vstart = 0 → 0 < s.v.vl → k ≠ .seq → (s.v.vregs[d.toNat]).poison = 0 →
      ∃ r : VecReg, done r (.vscan t m k d a) ∧
        ∀ j, r.img.extractLsb' (t.width * j) t.width =
          if s.v.allowed m j then BitVec.ofNat t.width (reduced t k (upTo (j + 1)))
          else (s.v.vregs[d.toNat]).img.extractLsb' (t.width * j) t.width)

/-- VRED of a floating type writes the tree sum, the ordered sum, or the least or greatest number of its active elements to
element 0 and ORs the flags of every step into FPC; an enabled one raises ARITH and writes no element (R143, R131). -/
def Claim.FloatingReductions : Prop :=
  ∀ (s : State) (t : VType) (m : MReg) (k : RedOp) (d a : VReg), t.isF = true → k.fits t = true → s.smooth = true →
    s.v.vl ≤ 8192 → s.v.vl * t.width ≤ 64 * s.v.mvl64 → s.v.mvl64 ≤ 4096 → d.toNat < 8 * (s.v.declHeld.toNat + 1) →
    (s.v.vregs[a.toNat]).poison = 0 → decodeStop (.vred t m k d a) s = none → s.v.vstart < s.v.vl →
    let f := t.fmt
    let ftz := s.v.fpc.ftz && (t == .f32 || t == .f16)
    let rm := RMode.ofRm s.v.fpc.rm
    let act := ((List.range s.v.vl).filter (s.v.allowed m)).map (s.v.element t a)
    let all := (List.range s.v.vl).map fun j => if s.v.allowed m j then s.v.element t a j else 0
    let fold (op : Nat → Nat → Res) (unit : Nat) : Res := match act with
      | [] => .quiet unit
      | [x] => fpPass f ftz x
      | x :: l => l.foldl (fun r y => { bits := (op r.bits y).bits, flags := r.flags ||| (op r.bits y).flags }) (.quiet x)
    let r : Res := match k with
      | .min => fold (fpMinMax f false ftz) (f.inf false)
      | .max => fold (fpMinMax f true ftz) (f.inf true)
      | .seq => fold (fpAdd f rm ftz) 0
      | _ => if s.v.vl = 1 then fpPass f ftz (all.headD 0)
        else { bits := (treeSum (fpAdd f rm ftz) all 0 14).1.headD 0, flags := (treeSum (fpAdd f rm ftz) all 0 14).2 }
    (s.v.fpc.en &&& r.flags = 0 →
      ∃ x : VecReg, exec (.vred t m k d a) s = .next ((s.setV fun v => { v with
          vregs := v.vregs.set d.toNat x, fpc := { v.fpc with flags := v.fpc.flags ||| r.flags }, vstart := 0,
          tilepos := 0 }).past (.vred t m k d a)) ∧
        x.img.extractLsb' 0 t.width = BitVec.ofNat t.width r.bits ∧
        ∀ j, 0 < j → x.img.extractLsb' (t.width * j) t.width = (s.v.vregs[d.toNat]).img.extractLsb' (t.width * j) t.width) ∧
    (s.v.fpc.en &&& r.flags ≠ 0 → exec (.vred t m k d a) s = .next ((s.setV fun v => { v with
      vstart := 0, fpc := { v.fpc with flags := v.fpc.flags ||| r.flags } }).trapHere .arith 0 (r.flags.setWidth 64) none))

/-- VSCAN whose elements are not poisoned, begun at element 0 where no flag is enabled, completes (R454): the first active element
takes its own value, and each other active element the operation of the active element before it, as written, with its own. -/
def Claim.ScansFinish : Prop :=
  ∀ (s : State) (t : VType) (m : MReg) (k : RedOp) (d a : VReg),
    let i := Instr.vscan t m k d a
    i.wf = true → t.isF = true → decodeStop i s = none → s.smooth = true → s.v.vl ≤ 8192 → s.v.vl * t.width ≤ 64 * s.v.mvl64 →
    s.v.mvl64 ≤ 4096 → d.toNat < 8 * (s.v.declHeld.toNat + 1) → s.v.vstart = 0 → s.v.fpc.en = 0 →
    (s.v.vregs[a.toNat]).poison = 0 →
    let ftz := s.v.fpc.ftz && (t == .f32 || t == .f16)
    let op (x y : Nat) : Res := match k with
      | .min => fpMinMax t.fmt false ftz x y
      | .max => fpMinMax t.fmt true ftz x y
      | _ => fpAdd t.fmt (RMode.ofRm s.v.fpc.rm) ftz x y
    ∃ u : State, exec i s = .next u ∧ u.v.pc = s.v.pc + 4 ∧ u.v.sregs = s.v.sregs ∧ u.mem = s.mem ∧ u.v.masks = s.v.masks ∧
      (∀ j, s.v.allowed m j = false → u.v.element t d j = s.v.element t d j) ∧
      (∀ j, s.v.allowed m j = true → (∀ h, h < j → s.v.allowed m h = false) →
        u.v.element t d j = (fpPass t.fmt ftz (s.v.element t a j)).bits) ∧
      (∀ h j, h < j → s.v.allowed m h = true → s.v.allowed m j = true → (∀ g, h < g → g < j → s.v.allowed m g = false) →
        u.v.element t d j = (op (u.v.element t d h) (s.v.element t a j)).bits) ∧
      ∀ r : VReg, r ≠ d → u.v.vregs[r.toNat] = s.v.vregs[r.toNat]

/-- The tree of R143: each level adds neighbours in pairs, from element 0 up, and passes an element without a partner on; a
level halves the number of elements, and fourteen levels leave one of any list of at most 8192. -/
def Claim.TreeSumHalves : Prop :=
  ∀ (add : Nat → Nat → Res) (l : List Nat), l ≠ [] →
    (∀ k, (treeLevel add l).1[k]? =
      match l[2 * k]?, l[2 * k + 1]? with
      | some x, some y => some (add x y).bits
      | some x, none => some x
      | none, _ => none) ∧
    (l.length ≤ 8192 → ∀ f, (treeSum add l f 14).1.length = 1)

/-! ## Streams and vector memory accesses -/

/-- QCLR unbinds its stream, SETVT sets VT and SETMT sets MT (R153, R419, R420), and nothing else changes. QSET binds its stream
to the 128-byte record it reads when the record is one R152 allows, raises PROT STREAM reason 4 when it is not, and ALIGN for
an address that is no multiple of 16. -/
def Claim.StreamSetup : Prop :=
  ∀ (s : State), s.smooth = true →
    (∀ q, exec (.qclr q) s = .next ((s.setV fun v => { v with streams := v.streams.set q.toNat Stream.unbound }).past (.qclr q))) ∧
    (∀ t, exec (.setvt t) s = .next ((s.setV fun v => { v with vt := t }).past (.setvt t))) ∧
    (∀ x, exec (.setmt x) s = .next ((s.setV fun v => { v with mt := x }).past (.setmt x))) ∧
    (∀ (q : QReg) (a : SReg), (s.rd a).toNat % 16 ≠ 0 →
      exec (.qset q a) s = .next (s.trapHere .align 0 (untag (s.rd a)) none)) ∧
    (∀ (q : QReg) (a : SReg) (r : List Byte) (s1 : State), (s.rd a).toNat % 16 = 0 →
      s.capture s.party (s.rd a) 16 = .ok (r, s1) →
      (∀ x, streamOf r = some x →
        exec (.qset q a) s = .next ((s1.setV fun v => { v with streams := v.streams.set q.toNat x }).past (.qset q a))) ∧
      (streamOf r = none →
        exec (.qset q a) s = .next (s.trapHere .prot 2 (fieldAt 4 60 ||| fieldAt q.toNat 0) none)))

/-- QSET of a record whose 128 bytes may be read, and which R152 allows, completes: the stream is bound to it, and nothing else changes
(R153). -/
def Claim.StreamsAreBound : Prop :=
  ∀ (s : State) (q : QReg) (a : SReg) (r : List Byte) (x : Stream), s.smooth = true → s.v.spin.demoted = false →
    (s.rd a).toNat % 16 = 0 → s.openWords s.party (s.rd a) 16 = some r → streamOf r = some x →
    ∃ u : State, s.counted u ∧
      exec (.qset q a) s = .next ((u.setV fun v => { v with streams := v.streams.set q.toNat x }).past (.qset q a))

/-- A stream that a record binds (R152): a pattern of 1 to 6 dimensions, or a tile of two with row length in bound 0; every
bound in use is 1 to 2^32, unused dimensions are 0, it holds at most 2^56 positions, POS is at most their number, and AUX is a
multiple of 16. BASE, POS and AUX are the record's. -/
def Claim.BoundStreamsAreValid : Prop :=
  ∀ (r : List Byte) (q : Stream), streamOf r = some q →
    (q.kind = .pattern ∨ q.kind = .tile ∧ q.ndim = 2 ∧ q.strides[0] = 0 ∧ q.aux = 0) ∧ 1 ≤ q.ndim ∧ q.ndim ≤ 6 ∧
      (∀ (d : Nat) (h : d < 6), if d < q.ndim then 1 ≤ (q.bounds[d]).toNat ∧ (q.bounds[d]).toNat ≤ 2 ^ 32
        else (q.bounds[d]) = 0 ∧ (q.strides[d]) = 0) ∧
      q.extent ≤ 2 ^ 56 ∧ q.pos ≤ q.extent ∧ q.aux.toNat % 16 = 0 ∧ q.touched = false ∧
      q.base = BitVec.ofNat 64 (field r 0x00 8) ∧ q.pos = field r 0x70 8 ∧ q.aux = BitVec.ofNat 64 (field r 0x78 8)

/-- The address of a position (R154): in a pattern, BASE plus each dimension's index times its stride, dimension 0 fastest; in a
tile, BASE plus the row times its stride plus the column times the element's size. -/
def Claim.StreamAddresses : Prop :=
  ∀ (q : Stream) (size p : Nat), p < q.extent →
    (q.kind = .pattern → ∀ ix : Nat → Nat, (∀ (d : Nat) (h : d < 6), d < q.ndim → ix d < (q.bounds[d]).toNat) → q.ndim ≤ 6 →
      p = (List.range q.ndim).foldr (fun d x => ix d + (q.bounds.toList.getD d 0).toNat * x) 0 →
      q.address size p = q.base + ((List.range q.ndim).map fun d => BitVec.ofNat 64 (ix d) * q.strides.toList.getD d 0).sum) ∧
    (q.kind = .tile → ∀ row col, col < (q.bounds[0]).toNat → p = row * (q.bounds[0]).toNat + col →
      q.address size p = q.base + BitVec.ofNat 64 row * q.strides[1] + BitVec.ofNat 64 (col * size))

/-- Element k of VLD and VST through a pattern or a tile, of a type that is neither block-scaled nor E2M1: it moves the bytes of
the type between the destination's or source's element k and the address of position POS + k in the space MT names; a
position past the end raises PROT STREAM reason 3 in place of an access (R155, R157, R445). -/
def Claim.StreamElements : Prop :=
  ∀ (s : State) (t : VType) (m : MReg) (o : Option Scope) (d : VReg) (qn : QReg) (k : Nat), t.notX = true → t ≠ .e2m1 →
    s.v.active m k = true → t.width * (k + 1) ≤ 64 * s.v.mvl64 → s.v.mvl64 ≤ 4096 →
    let q := s.v.streams[qn.toNat]
    (q.kind = .pattern ∨ q.kind = .tile) →
    let p := q.pos + k
    let e : Elt := { space := s.v.mt, addr := q.address (t.width / 8) p, bytes := t.width / 8, elem := k,
                     once := q.once t, late := none }
    (p < q.extent → ∀ (x : Nat) (s1 : State), s.vload e = .ok (x, s1) →
      ∃ sp, (memVld t m o d qn).elem s s k = .ok ((s1.setV fun v => { v with spin := sp }).writeElem t d k x)) ∧
    (p < q.extent → (s.v.vregs[d.toNat]).poison.getLsbD (t.width * k / 64) = false →
      ∀ s1 : State, s.vstore e (s.v.element t d k) = .ok s1 → (memVst t m o d qn).elem s s k = .ok s1) ∧
    (q.extent ≤ p → s.v.mt = .cmem ∨ s.v.mt = .spad → e.addr.toNat % e.bytes = 0 →
      e.addr.toNat + e.bytes ≤ spaceExtent s.v.mt →
      (memVld t m o d qn).elem s s k = .error (k, .prot 2 (fieldAt 3 60 ||| fieldAt (p % 2 ^ 56) 4 ||| fieldAt qn.toNat 0)))

/-- Every vector load whose active elements' accesses nothing stops completes (R302, R445, R448, R449): each active element takes the
value its access reads, the others keep theirs; no byte of memory, no other vector register, no scalar and no mask changes. -/
def Claim.VectorLoadsFinish : Prop :=
  ∀ (i : Instr) (s : State) (t : VType) (m : MReg) (d : VReg) (f : Nat → Option Nat), vecLoad i s = some (t, m, d, f) →
    decodeStop i s = none → s.smooth = true → s.v.vl ≤ 8192 → s.v.vl * t.width ≤ 64 * s.v.mvl64 → s.v.mvl64 ≤ 4096 →
    (∀ r ∈ vnames i, r < 8 * (s.v.declHeld.toNat + 1)) → (∀ k, s.v.live m k → (f k).isSome = true) →
    ∃ u : State, exec i s = .next u ∧ u.v.pc = s.v.pc + 4 ∧ u.v.vstart = 0 ∧ u.v.vl = s.v.vl ∧ u.v.sregs = s.v.sregs ∧
      u.v.masks = s.v.masks ∧ (∀ x, u.spaceMem x = s.spaceMem x) ∧
      (∀ k, s.v.live m k → f k = some (u.v.element t d k)) ∧ (∀ k, ¬s.v.live m k → u.v.element t d k = s.v.element t d k) ∧
      ∀ r : VReg, r ≠ d → (t.isX = true → r ≠ d + 1) → u.v.vregs[r.toNat] = s.v.vregs[r.toNat]

/-- Every vector store whose active elements are not poisoned and whose accesses nothing stops completes (R302, R445, R448, R449): no
byte but those of its accesses changes, and an element's bytes hold it where no later element's access meets them. A releasing one
waits for its VLC's stores first (R185). -/
def Claim.VectorStoresFinish : Prop :=
  ∀ (i : Instr) (s : State) (t : VType) (m : MReg) (d : VReg) (f : Nat → Option (List Elt)), vecStore i s = some (t, m, d, f) →
    decodeStop i s = none → s.smooth = true → s.v.stores = [] → s.v.early = false → s.v.vl ≤ 8192 →
    s.v.vl * t.width ≤ 64 * s.v.mvl64 → s.v.mvl64 ≤ 4096 → (∀ x, (s.spaceMem x).wf = true) →
    (∀ k, s.v.live m k → (s.v.vregs[d.toNat]).poison.getLsbD (t.width * k / 64) = false ∧
      (t.isX = true → (s.v.vregs[(d + 1).toNat]).poison.getLsbD (k / 128 / 8) = false) ∧
      ∃ l, f k = some l ∧ ∀ a ∈ l, (s.eltSpot .store a).isSome = true) →
    ∃ u : State, exec i s = .next u ∧ u.v.pc = s.v.pc + 4 ∧ u.v.vstart = 0 ∧ u.v.sregs = s.v.sregs ∧ u.v.vregs = s.v.vregs ∧
      u.v.masks = s.v.masks ∧ s.within u .store (fun a => ∃ k l, s.v.live m k ∧ f k = some l ∧ a ∈ l) ∧
      ∀ (k o : Nat) (a : Elt), s.v.live m k → t.notX = true → t ≠ .e2m1 → f k = some [a] → s.eltSpot .store a = some o →
        (∀ (j q : Nat) (b : Elt), k < j → s.v.live m j → f j = some [b] → s.eltSpot .store b = some q →
          q + b.bytes ≤ o ∨ o + a.bytes ≤ q) →
        (u.spaceMem a.space).read o a.bytes = s.v.element t d k

/-- What an element's load or store does: in space 0 it is the access of that space, by the issuing VLC; in cluster memory and
the scratchpad the bytes at its address; in a lane table those of the table of element k, which the mode, the strip and the
lane clusters held choose (R150). -/
def Claim.VectorElementSpaces : Prop :=
  ∀ (s : State) (e : Elt) (x : Nat), e.late = none → e.bytes = 1 ∨ e.bytes = 2 ∨ e.bytes = 4 ∨ e.bytes = 8 →
    e.addr.toNat % e.bytes = 0 →
    (e.space = .glob → s.vload e = s.load s.party (e.req .load) ∧ s.vstore e x = s.store s.party (e.req .store) x) ∧
    (e.space = .cmem ∨ e.space = .spad ∨ e.space = .lane → e.addr.toNat + e.bytes ≤ spaceExtent e.space →
      let at_ := if e.space = .lane then 4096 * s.v.laneTable e.elem + e.addr.toNat else e.addr.toNat
      s.vload e = .ok ((s.spaceMem e.space).read at_ e.bytes, s) ∧
      ∃ u, s.vstore e x = .ok u ∧ u.v = s.v ∧ u.mem = s.mem ∧
        ((s.spaceMem e.space).wf = true → (u.spaceMem e.space).read at_ e.bytes = x % 256 ^ e.bytes) ∧
        ∀ b, b < at_ ∨ at_ + e.bytes ≤ b → (u.spaceMem e.space).byte b = (s.spaceMem e.space).byte b) ∧
    (e.space ≠ .glob → spaceExtent e.space < e.addr.toNat + e.bytes →
      s.vload e = .error (.prot 5 e.addr) ∧ s.vstore e x = .error (.prot 5 e.addr))

/-- Element k of the indexed forms (R163, R164, R449, R448), of a type that is neither block-scaled nor E2M1: its address is the
stream's at POS plus the signed index, or the lane table's offset is the unsigned index, times the type's size; a load puts
the bytes there into element k, a store puts element k there. -/
def Claim.IndexedElements : Prop :=
  ∀ (s : State) (t : VType) (m : MReg) (d b : VReg) (qn : QReg) (k : Nat), t.notX = true → t ≠ .e2m1 →
    s.v.active m k = true → t.width * (k + 1) ≤ 64 * s.v.mvl64 → s.v.mvl64 ≤ 4096 →
    let q := s.v.streams[qn.toNat]
    let w := 8 * 2 ^ (s.v.vregs[b.toNat]).tag.toNat
    let ix := (s.v.vregs[b.toNat]).img.extractLsb' (w * k) w
    w * (k + 1) ≤ 64 * s.v.mvl64 → (s.v.vregs[b.toNat]).poison.getLsbD (w * k / 64) = false →
    let e : Elt := { space := s.v.mt, addr := q.address (t.width / 8) q.pos + BitVec.ofInt 64 (ix.toInt * (t.width / 8 : Nat)),
                     bytes := t.width / 8, elem := k, once := false, late := none }
    let l : Elt := { space := .lane, addr := BitVec.ofNat 64 (ix.toNat * (t.width / 8)), bytes := t.width / 8, elem := k,
                     once := false, late := none }
    let clean := (s.v.vregs[d.toNat]).poison.getLsbD (t.width * k / 64) = false
    ((q.kind = .pattern ∨ q.kind = .tile) → ∀ (x : Nat) (s1 : State), s.vload e = .ok (x, s1) →
      ∃ sp, (memVldx t m d qn b).elem s s k = .ok ((s1.setV fun v => { v with spin := sp }).writeElem t d k x)) ∧
    ((q.kind = .pattern ∨ q.kind = .tile) → clean → ∀ s1 : State, s.vstore e (s.v.element t d k) = .ok s1 →
      (memVstx t m d qn b).elem s s k = .ok s1) ∧
    (∀ (x : Nat) (s1 : State), s.vload l = .ok (x, s1) → (memVldl t m d b).elem s s k = .ok (s1.writeElem t d k x)) ∧
    (clean → ∀ s1 : State, s.vstore l (s.v.element t d k) = .ok s1 → (memVstl t m d b).elem s s k = .ok s1)

/-- Element k of VSTXA and VBIN of an integer type in cluster memory or the scratchpad: VSTXA adds element k of its source to the
word its index names (R450); VBIN adds one to the counter its rank names and keeps the count before in its destination
(R173); both wrap at the type, and no other byte changes. -/
def Claim.AccumulatingElements : Prop :=
  ∀ (s : State) (t : VType) (m : MReg) (d b : VReg) (qn : QReg) (a : SReg) (k : Nat), t.isI = true →
    s.v.active m k = true → t.width * (k + 1) ≤ 64 * s.v.mvl64 → s.v.mvl64 ≤ 4096 → s.v.mt = .cmem ∨ s.v.mt = .spad →
    (s.spaceMem s.v.mt).wf = true →
    let n := t.width / 8
    let q := s.v.streams[qn.toNat]
    let w := 8 * 2 ^ (s.v.vregs[b.toNat]).tag.toNat
    let ix := (s.v.vregs[b.toNat]).img.extractLsb' (w * k) w
    let at_ := (q.address n q.pos + BitVec.ofInt 64 (ix.toInt * (n : Nat))).toNat
    let bin := (s.rd a + BitVec.ofNat 64 (s.v.element t b k * n)).toNat
    let sum (u : State) (p x : Nat) := (u.spaceMem s.v.mt).read p n = ((s.spaceMem s.v.mt).read p n + x) % 2 ^ t.width ∧
      ∀ c, c < p ∨ p + n ≤ c → (u.spaceMem s.v.mt).byte c = (s.spaceMem s.v.mt).byte c
    (w * (k + 1) ≤ 64 * s.v.mvl64 → (s.v.vregs[b.toNat]).poison = 0 → (s.v.vregs[d.toNat]).poison = 0 →
      (q.kind = .pattern ∨ q.kind = .tile) → at_ % n = 0 → at_ + n ≤ spaceExtent s.v.mt →
      ∃ u, (memVstxa t m d qn b).elem s s k = .ok u ∧ u.v = s.v ∧ sum u at_ (s.v.element t d k)) ∧
    ((s.v.vregs[b.toNat]).poison = 0 → bin % n = 0 → bin + n ≤ spaceExtent s.v.mt → d.toNat < 8 * (s.v.declHeld.toNat + 1) →
      ∃ u, (memVbin t m d b a).elem s s k = .ok u ∧ sum u bin 1 ∧
        u.v.element t d k = (s.spaceMem s.v.mt).read bin n ∧ ∀ j, j ≠ k → u.v.element t d j = s.v.element t d j)

/-- VSTXA whose active elements are not poisoned and whose accesses nothing stops completes (R302, R450), a floating one where no flag
is enabled: no byte but those of its targets changes, and no register. In space 0 no carry check may be pending (R286). -/
def Claim.VectorSumsFinish : Prop :=
  ∀ (s : State) (t : VType) (m : MReg) (d b : VReg) (qn : QReg) (c : Bool),
    let i := Instr.vstxa t m d qn b c
    i.wf = true → decodeStop i s = none → s.smooth = true → s.v.vl ≤ 8192 → s.v.vl * t.width ≤ 64 * s.v.mvl64 →
    s.v.mvl64 ≤ 4096 → t.isI = true ∨ s.v.fpc.en = 0 → s.v.mt ≠ .glob ∨ s.mem.checks = [] →
    (∀ k, s.v.live m k → (s.v.vregs[d.toNat]).poison.getLsbD (t.width * k / 64) = false ∧
      ∃ x, s.gatherElt t qn b k = some x ∧ (s.eltSpot .rmw x.1).isSome = true) →
    ∃ u : State, exec i s = .next u ∧ u.v.pc = s.v.pc + 4 ∧ u.v.vstart = 0 ∧ u.v.sregs = s.v.sregs ∧ u.v.vregs = s.v.vregs ∧
      u.v.masks = s.v.masks ∧ s.within u .rmw fun a => ∃ k x, s.v.live m k ∧ s.gatherElt t qn b k = some x ∧ a = x.1

/-- VBIN whose counters lie in the space of MT and whose ranks are not poisoned completes (R173): no byte but those of the counters
and no register but its destination changes. -/
def Claim.CountersAreBinned : Prop :=
  ∀ (s : State) (t : VType) (m : MReg) (d a : VReg) (b : SReg),
    let i := Instr.vbin t m d a b
    let bin (k : Nat) : Elt := { space := s.v.mt, addr := s.rd b + BitVec.ofNat 64 (s.v.element t a k * (t.width / 8)),
                                 bytes := t.width / 8, elem := k, once := false, late := none }
    i.wf = true → decodeStop i s = none → s.smooth = true → s.v.vl ≤ 8192 → s.v.vl * t.width ≤ 64 * s.v.mvl64 →
    s.v.mvl64 ≤ 4096 → s.v.mt = .cmem ∨ s.v.mt = .spad → d.toNat < 8 * (s.v.declHeld.toNat + 1) →
    (∀ k, s.v.live m k → (s.v.vregs[a.toNat]).poison.getLsbD (t.width * k / 64) = false ∧ (s.eltSpot .rmw (bin k)).isSome = true) →
    ∃ u : State, exec i s = .next u ∧ u.v.pc = s.v.pc + 4 ∧ u.v.vstart = 0 ∧ u.v.sregs = s.v.sregs ∧ u.v.masks = s.v.masks ∧
      (∀ k, ¬s.v.live m k → u.v.element t d k = s.v.element t d k) ∧ (∀ r : VReg, r ≠ d → u.v.vregs[r.toNat] = s.v.vregs[r.toNat]) ∧
      s.within u .rmw fun e => ∃ k, s.v.live m k ∧ e = bin k

/-- VLDBPC of groups whose entries, bitmaps and values nothing stops completes (R171): bit k of its mask says that element k is present
in its chunk, and the element holds the value there, or 0; bits at and above VL are 0, and what lies below VSTART.ELEM stays. -/
def Claim.ChunkLoadsFinish : Prop :=
  ∀ (s : State) (t : VType) (md : MReg) (d : VReg) (qn : QReg) (c : Bool),
    let i := Instr.vldbpc t md d qn c
    i.wf = true → decodeStop i s = none → s.smooth = true → 0 < s.v.vl → s.v.vl ≤ 8192 → s.v.vl * t.width ≤ 64 * s.v.mvl64 →
    s.v.mvl64 ≤ 4096 → d.toNat < 8 * (s.v.declHeld.toNat + 1) →
    (∀ k, s.v.vstart ≤ k → k < s.v.vl → (s.chunkLoad t qn k).isSome = true) →
    ∃ u : State, exec i s = .next u ∧ u.v.pc = s.v.pc + 4 ∧ u.v.vstart = 0 ∧ u.v.sregs = s.v.sregs ∧
      (∀ x, u.spaceMem x = s.spaceMem x) ∧
      (∀ k, s.v.vstart ≤ k → k < s.v.vl → s.chunkLoad t qn k = some ((u.v.masks[md.toNat]).getLsbD k, u.v.element t d k)) ∧
      (∀ k, s.v.vl ≤ k → (u.v.masks[md.toNat]).getLsbD k = false) ∧
      (∀ k, ¬(s.v.vstart ≤ k ∧ k < s.v.vl) → u.v.element t d k = s.v.element t d k) ∧
      (∀ r : VReg, r ≠ d → u.v.vregs[r.toNat] = s.v.vregs[r.toNat]) ∧
      ∀ r : MReg, r ≠ md → u.v.masks[r.toNat] = s.v.masks[r.toNat]

/-- VSTBPC of groups of unpoisoned elements whose chunks and entries nothing stops, and which fit below 2^32 units, completes (R172):
CURSOR moves on by the chunks' units, and no byte but those of the chunks and their entries changes. -/
def Claim.ChunkStoresFinish : Prop :=
  ∀ (s : State) (t : VType) (m : MReg) (d : VReg) (qn : QReg) (c : Bool),
    let i := Instr.vstbpc t m d qn c
    let q := s.v.streams[qn.toNat]
    i.wf = true → decodeStop i s = none → s.smooth = true → s.v.vl ≤ 8192 → s.v.vl * t.width ≤ 64 * s.v.mvl64 →
    s.v.mvl64 ≤ 4096 → q.kind = .pattern →
    (∀ k, s.v.live m k → (s.v.vregs[d.toNat]).poison.getLsbD (t.width * k / 64) = false) →
    (∀ k ∈ s.v.groupStarts, q.pos + k / 128 < q.extent ∧
      s.v.cursorAt t m qn k + chunkUnits t (s.v.groupSize m k) ≤ 2 ^ 32 ∧
      ∀ a ∈ s.chunkElts t m qn k, (s.eltSpot .store a).isSome = true) →
    ∃ u : State, exec i s = .next u ∧ u.v.pc = s.v.pc + 4 ∧ u.v.vstart = 0 ∧ u.v.sregs = s.v.sregs ∧ u.v.vregs = s.v.vregs ∧
      u.v.masks = s.v.masks ∧ (u.v.streams[qn.toNat]).cursor = s.v.cursorAt t m qn s.v.vl ∧
      s.within u .store fun a => ∃ k ∈ s.v.groupStarts, a ∈ s.chunkElts t m qn k

/-- VHASH hashes bits 47:0 of the key by R174's multiplier; and a key that VHINS enters into a slot of the table is found there
by VHLOOK afterwards, with the value that was inserted (R174, R175). -/
def Claim.VoxelTables : Prop :=
  ∀ (s : State) (a : Word) (t : Voxel), s.voxel a = some t →
    (a.toNat % 16 = 0 ∧ 4 ≤ t.k ∧ t.k ≤ 13 ∧ t.gen ≠ 0 ∧ a.toNat + 16 + 16 * 2 ^ t.k ≤ 0x40000) ∧
    (∀ (d r : VReg) (k : Nat), 64 * (k + 1) ≤ 64 * s.v.mvl64 → s.v.mvl64 ≤ 4096 → (s.v.vregs[r.toNat]).poison.getLsbD k = false →
      hashElem t d r s k = .ok (s.writeElem .n64 d k
        (s.v.element .n64 r k % 2 ^ 48 * 0x9B1F6A35C4D27E8B % 2 ^ 64 / 2 ^ (64 - t.k)))) ∧
    (∀ (key i slot x : Nat), (s.spaceMem .spad).wf = true → key < 2 ^ 48 → x < 2 ^ 64 → i < 2 ^ t.k →
      s.probe t key i 32 = .open_ slot →
      let u := (s.spaceWrite .spad (t.at slot) 7 (key + 2 ^ 48 * t.gen)).spaceWrite .spad (t.at slot + 8) 8 x
      u.probe t key i 32 = .hit slot ∧ u.spaceRead .spad (t.at slot + 8) 8 = x ∧ u.voxel a = some t)

/-- VHASH, VHLOOK and VHINS over a table R174 allows, with keys that are not poisoned, complete (R175): VHASH writes each active
key's hash; VHLOOK the value of the slot that 32 probes from there hit, or all ones; VHINS changes no byte outside its table. -/
def Claim.VoxelInstructionsFinish : Prop :=
  ∀ (s : State) (m : MReg) (d a : VReg) (b : SReg) (t : Voxel) (i : Instr),
    (i = .vhash m d a b ∨ i = .vhlook m d a b ∨ i = .vhins m d a b) → s.voxel (s.rd b) = some t → decodeStop i s = none →
    s.smooth = true → s.v.vl ≤ 8192 → s.v.vl ≤ s.v.mvl64 → s.v.mvl64 ≤ 4096 → d.toNat < 8 * (s.v.declHeld.toNat + 1) →
    (∀ k, s.v.live m k → (s.v.vregs[a.toNat]).poison.getLsbD k = false) →
    (i = .vhins m d a b → ∀ k, s.v.live m k → (s.v.vregs[d.toNat]).poison.getLsbD k = false) →
    let key (k : Nat) := s.v.element .n64 a k % 2 ^ 48
    let hash (k : Nat) := key k * 0x9B1F6A35C4D27E8B % 2 ^ 64 / 2 ^ (64 - t.k)
    ∃ u : State, exec i s = .next u ∧ u.v.pc = s.v.pc + 4 ∧ u.v.vstart = 0 ∧ u.v.sregs = s.v.sregs ∧ u.v.masks = s.v.masks ∧
      u.mem = s.mem ∧ (∀ k, ¬s.v.live m k → u.v.element .n64 d k = s.v.element .n64 d k) ∧
      (∀ r : VReg, r ≠ d → u.v.vregs[r.toNat] = s.v.vregs[r.toNat]) ∧
      (i = .vhash m d a b → u.spaceMem .spad = s.spaceMem .spad ∧ ∀ k, s.v.live m k → u.v.element .n64 d k = hash k) ∧
      (i = .vhlook m d a b → u.spaceMem .spad = s.spaceMem .spad ∧ ∀ k, s.v.live m k → u.v.element .n64 d k =
        match s.probe t (key k) (hash k) 32 with
        | .hit slot => (s.spaceMem .spad).read (t.at slot + 8) 8
        | _ => 2 ^ 64 - 1) ∧
      (i = .vhins m d a b → ∀ o, o < t.base + 16 ∨ t.base + 16 + 16 * 2 ^ t.k ≤ o →
        (u.spaceMem .spad).byte o = (s.spaceMem .spad).byte o)

/-- SPTAG enters a tag into a slot of its set, and SPLOOK of that tag then hits that slot and no other, with the entry's D and
USER (R168, R169). A tag that belongs to another set raises PROT 0 and changes nothing. -/
def Claim.TagTable : Prop :=
  ∀ (s : State) (a b : SReg), s.smooth = true →
    let slot := (s.rd a).toNat % 4096
    let tag := (s.rd b).extractLsb' 0 48
    (∀ k, k < 8 → (tagSet tag).testBit k = xor (tag.getLsbD k) (xor (tag.getLsbD (8 + k)) (xor (tag.getLsbD (16 + k))
      (xor (tag.getLsbD (24 + k)) (xor (tag.getLsbD (32 + k)) (tag.getLsbD (40 + k))))))) ∧
    ((s.rd a).getLsbD 12 = true → tagSet tag ≠ slot / 16 →
      exec (.sptag a b) s = .next (s.trapHere .prot 0 (s.rd b) none)) ∧
    ((s.rd a).getLsbD 12 = true → tagSet tag = slot / 16 →
      ∃ t, exec (.sptag a b) s = .next t ∧ t.v.pc = s.v.pc + 4 ∧ t.v.sregs = s.v.sregs ∧ t.mem = s.mem ∧
        ∀ (d r : SReg), d ≠ 0 → (t.rd r).extractLsb' 0 48 = tag →
          ∃ u, exec (.splook d r) t = .next u ∧ u.v.pc = t.v.pc + 4 ∧ (∀ q, q ≠ d → u.rd q = t.rd q) ∧ u.mem = t.mem ∧
            u.rd d = BitVec.ofNat 64 (2 ^ 62 + (if (s.rd a).getLsbD 13 then 2 ^ 61 else 0) +
              (s.rd a).toNat / 2 ^ 16 % 256 * 2 ^ 20 + slot)) ∧
    ((s.rd a).getLsbD 12 = false →
      ∃ t, exec (.sptag a b) s = .next t ∧ t.v.pc = s.v.pc + 4 ∧ (t.tagEntry slot).v = false ∧
        ∀ k, k ≠ slot → t.tagEntry k = s.tagEntry k)

/-! ## Tiles -/

/-- TSHAPE grants the shape R202 computes from the requests, the type's row of Table 3 and the lane clusters held; a type and
sparsity without a row raise TILE SPARTYPE and change nothing. -/
def Claim.ShapesAreGranted : Prop :=
  ∀ (s : State) (t : VType) (sp : Spar) (d a b : SReg), decodeStop (.tshape t sp d a b) s = none → s.smooth = true →
    (shapeRow t (sp != .dense) = none →
      exec (.tshape t sp d a b) s = .next (s.trapHere .tile 9 s.v.pc none)) ∧
    (∀ e, shapeRow t (sp != .dense) = some e →
      let up (x step : Nat) := (max x 1 + step - 1) / step * step
      exec (.tshape t sp d a b) s = .next ((s.setV fun v => { v with
        tsmM := BitVec.ofNat 8 (min e.mmax (up (s.rd d).toNat e.mstep)), tsmType := t.code, tsmSpar := sp.code,
        tsn := BitVec.ofNat 7 (min (min e.nmax (16 * ((List.range 4).countP fun c => s.v.lc.getLsbD c))) (max (s.rd a).toNat 1)),
        tskK := BitVec.ofNat 10 (min e.kmax (up (s.rd b).toNat e.kstep)), acur := 0 }).past (.tshape t sp d a b)))

/-- TCLAIM takes a free slot and TREL gives up one that is not free, its contents free values; otherwise they raise TILE CLAIMED
and UNCLAIMED (R204 Table 5). TZERO clears its accumulator and its poison (R432). Each changes that slot or tile alone. -/
def Claim.SlotsAndZero : Prop :=
  ∀ (s : State) (o : OReg) (j : AReg), s.smooth = true → s.v.tileOwner = true → s.v.mode ≠ .spread →
    ((s.oslot o).st = .free → ∃ x, exec (.tclaim o) s = .next
      (((s.setOslot o { OSlot.free with st := .claimed, data := x }).spend).past (.tclaim o))) ∧
    ((s.oslot o).st ≠ .free → exec (.tclaim o) s = .next (s.trapHere .tile 2 s.v.pc none)) ∧
    ((s.oslot o).st ≠ .free → ∃ x, exec (.trel o) s = .next
      (((s.setOslot o { OSlot.free with st := .free, data := x }).spend).past (.trel o))) ∧
    ((s.oslot o).st = .free → exec (.trel o) s = .next (s.trapHere .tile 1 s.v.pc none)) ∧
    exec (.tzero j false) s = .next (((s.setAcc j { data := 0, poison := 0 }).setV fun v => { v with vstart := 0, tilepos := 0 }).past
      (.tzero j false))

/-- TLD of a dense tile into a claimed slot, from the first position: when every position is read it completes, the slot holds
values of the tile's type, rows and columns, and TILEPOS is 0; when position p stops, the slot is partial at p, TILEPOS is p,
and the trap is taken, so that the TLD resumes there (R205, R206). -/
def Claim.TileLoads : Prop :=
  ∀ (s : State) (t : VType) (o : OReg) (qn : QReg), decodeStop (.tld t .dense o qn) s = none → s.v.tilepos = 0 →
    (s.oslot o).st ≠ .free → (s.v.streams[qn.toNat]).kind = .tile → s.v.mt ≠ .lane → s.v.cut = none →
    let q := s.v.streams[qn.toNat]
    let rows := (q.bounds[1]).toNat
    let f := tldForm t .dense (q.bounds[0]).toNat
    tileBytes t .dense rows f ≤ 16384 →
    let s0 := s.setOslot o { s.oslot o with st := .part 0, type := t.code, spar := 0, rows := rows, cols := f.cols }
    (∀ s1 : State, s0.fillFrom t f o q 0 q.extent = (s1, none) → s1.smooth = true →
      ∃ u, exec (.tld t .dense o qn) s = .next u ∧ u.v.pc = s.v.pc + 8 ∧ u.v.tilepos = 0 ∧ u.v.vstart = 0 ∧
        (u.oslot o).st = .values ∧ (u.oslot o).type = t.code ∧ (u.oslot o).rows = rows ∧ (u.oslot o).cols = f.cols ∧
        (u.oslot o).data = (s1.oslot o).data ∧ (∀ o', o' ≠ o → u.oslot o' = s.oslot o') ∧ u.v.sregs = s.v.sregs ∧
        u.v.vregs = s.v.vregs) ∧
    (∀ (s1 : State) (p : Nat) (cls : TrapClass) (sub : Nat) (tval : Word) (r : Option FaultRec), p < 2 ^ 32 →
      s0.fillFrom t f o q 0 q.extent = (s1, some (p, .trap cls sub tval r)) →
      ∃ u : State, exec (.tld t .dense o qn) s = .next (u.trapHere cls sub tval r) ∧ u.v.tilepos.toNat = p ∧
        (u.oslot o).st = .part p ∧ u.v.pc = s.v.pc ∧ u.v.vregs = s.v.vregs)

/-- Every TLD into a slot that is not free, begun at position 0 of a tile binding that fits the slot, whose accesses nothing stops and
whose metadata keep R207, completes (R204 to R207, R425): the slot holds values, or metadata, of its type and shape; each position
that is no block and no scale lies in it as read; nothing else changes but TILEPOS and VSTART. -/
def Claim.TileLoadsFinish : Prop :=
  ∀ (s : State) (t : VType) (sp : Spar) (o : OReg) (qn : QReg),
    let i := Instr.tld t sp o qn
    let q := s.v.streams[qn.toNat]
    let rows := (q.bounds[1]).toNat
    let f := tldForm t sp (q.bounds[0]).toNat
    decodeStop i s = none → s.smooth = true → s.v.tilepos = 0 → (s.oslot o).st ≠ .free → q.kind = .tile → s.v.mt ≠ .lane →
    q.ndim = 2 → tileBytes t sp rows f ≤ 16384 →
    (∀ p, p < q.extent → ∀ a ∈ s.tileElts t sp q p, ∃ x, s.eltLoad a = some x ∧ metaOk sp x) →
    ∃ u : State, exec i s = .next u ∧ u.v.pc = s.v.pc + 8 ∧ u.v.tilepos = 0 ∧ u.v.vstart = 0 ∧
      (u.oslot o).st = (if sp = .dense then .values else .metadata) ∧ (u.oslot o).type = t.code ∧ (u.oslot o).rows = rows ∧
      (u.oslot o).cols = f.cols ∧ (∀ o', o' ≠ o → u.oslot o' = s.oslot o') ∧ (∀ x, u.spaceMem x = s.spaceMem x) ∧
      u.v.sregs = s.v.sregs ∧ u.v.vregs = s.v.vregs ∧ u.v.masks = s.v.masks ∧
      (t.isX = false ∨ sp ≠ .dense → ∀ p, p < q.extent → ∀ a ∈ s.tileElts t sp q p,
        s.eltLoad a = some (bitsAt (u.oslot o).data (8 * f.bytes * p) (8 * f.bytes)))

/-- TEXT and TINJ of a strip that the granted shape holds (R210, R423), TEXT of accumulator words and TINJ of elements that are not
poisoned, complete (R422): element k goes between its register and C[p div N][p mod N], p = ACUR + k, converted with RNE; the other
elements of both keep their values, and no byte of memory and no scalar changes. -/
def Claim.PortsFinish : Prop :=
  ∀ (s : State) (t u : VType) (m : MReg) (j : AReg) (d : VReg) (c : Bool),
    let w := 8 * accBytes t
    let place (k : Nat) := s.v.accBit t ((s.v.acur + k) / s.v.tsn.toNat) ((s.v.acur + k) % s.v.tsn.toNat)
    s.smooth = true → s.v.vl ≤ 8192 → s.v.vl * u.width ≤ 64 * s.v.mvl64 → s.v.mvl64 ≤ 4096 → s.v.tsmM ≠ 0 →
    s.v.acur + s.v.vl ≤ s.v.tsmM.toNat * s.v.tsn.toNat → s.v.tsn.toNat ≤ 16 * (clustersOf s.v.lc).length →
    s.v.tsmM.toNat ≤ 512 / accBytes t →
    let out (i : Instr) (x : State) := exec i s = .next x ∧ x.v.pc = s.v.pc + 4 ∧ x.v.vstart = 0 ∧ x.v.sregs = s.v.sregs ∧
      x.v.masks = s.v.masks ∧ x.mem = s.mem ∧ (∀ o, x.oslot o = s.oslot o) ∧ ∀ a, a ≠ j → x.acc a = s.acc a
    (Instr.wf (.text t m j u d c) = true → decodeStop (.text t m j u d c) s = none → d.toNat < 8 * (s.v.declHeld.toNat + 1) →
      (∀ k, s.v.live m k → (s.acc j).poison.getLsbD (place k / 64) = false) →
      ∃ x : State, out (.text t m j u d c) x ∧ x.acc j = s.acc j ∧
        (∀ k, s.v.live m k →
          x.v.element u d k = payload u ((cvt u t (.mode .rne) false (bitsAt (s.acc j).data (place k) w)).bits % 2 ^ u.width)) ∧
        (∀ k, ¬s.v.live m k → x.v.element u d k = s.v.element u d k) ∧
        ∀ r : VReg, r ≠ d → x.v.vregs[r.toNat] = s.v.vregs[r.toNat]) ∧
    (Instr.wf (.tinj t m j u d c) = true → decodeStop (.tinj t m j u d c) s = none →
      (∀ k, s.v.live m k → (s.v.vregs[d.toNat]).poison.getLsbD (u.width * k / 64) = false) →
      ∃ x : State, out (.tinj t m j u d c) x ∧ x.v.vregs = s.v.vregs ∧
        (∀ k, s.v.live m k →
          bitsAt (x.acc j).data (place k) w = (cvt t u (.mode .rne) false (s.v.element u d k)).bits % 2 ^ w) ∧
        ∀ b, (∀ k, s.v.live m k → b < place k ∨ place k + w ≤ b) → (x.acc j).data.getLsbD b = (s.acc j).data.getLsbD b)

/-- Position p of a tile whose type is not block-scaled fills bits p × w and up of the slot, w the bits of a position, and no
other bit of it (R205). -/
def Claim.TilePositions : Prop :=
  ∀ (s s1 : State) (t : VType) (f : TldForm) (o : OReg) (q : Stream) (p x : Nat), t.notX = true →
    s.vload (tldElt s (q.address f.bytes p) f.bytes p) = .ok (x, s1) → 8 * f.bytes * (p + 1) ≤ 131072 →
    ∃ u, s.fillAt t f o q p = .ok u ∧ (∀ o', o' ≠ o → u.oslot o' = s.oslot o') ∧
      ∀ k, (u.oslot o).data.getLsbD k = if 8 * f.bytes * p ≤ k ∧ k < 8 * f.bytes * (p + 1)
        then x.testBit (k - 8 * f.bytes * p) else (s.oslot o).data.getLsbD k

/-- TMMA and TMMAS whose operand slots hold what R211 asks for complete, computing every element of C from the slots and the
tile as they were; one that does not hold it raises TILE at the instruction with R211's subcode and changes nothing. No register
but VSTART changes, and no byte of memory. -/
def Obligations.MultiplicationsComplete : Prop :=
  ∀ (s : State) (i : Instr) (x : Mma),
    (∃ t acc oa ob, i = .tmma t acc oa ob false ∧ x = { t := t, sp := .dense, acc := acc, oa := oa, ob := ob, oc := oa }) ∨
    (∃ t sp acc oa ob oc, i = .tmmas t sp acc oa ob oc false ∧
      x = { t := t, sp := sp, acc := acc, oa := oa, ob := ob, oc := oc }) →
    decodeStop i s = none → s.smooth = true →
    (∀ e, mmaStop x s.v.pc s = some e → exec i s = .next (s.raise i e)) ∧
    (mmaStop x s.v.pc s = none → ∃ u, exec i s = .next u ∧ u.v.pc = s.v.pc + 8 ∧ u.mem = s.mem ∧ u.v.sregs = s.v.sregs ∧
      u.v.vregs = s.v.vregs ∧ u.v.vstart = 0 ∧ (∀ j, j ≠ x.acc → u.acc j = s.acc j) ∧ (∀ o, u.oslot o = s.oslot o) ∧
      ∀ m n, m < s.v.tsmM.toNat → n < s.v.tsn.toNat → s.v.tsn.toNat ≤ 16 * (clustersOf s.v.lc).length →
        s.v.tsmM.toNat ≤ 512 / accBytes (accType x.t) →
        let b := s.v.accBit (accType x.t) m n
        let w := 8 * accBytes (accType x.t)
        bitsAt (u.acc x.acc).data b w = x.sumFrom s (accType x.t).fmt m n s.v.tskK.toNat (bitsAt (s.acc x.acc).data b w) 0
          (ceilDiv s.v.tskK.toNat (groupLen x.t)) % 2 ^ w)

/-! ## Execution control -/

/-- A grant of SETVL, VLOOP or VNEXT whose rows are free (R25, R26, R29): every lane cluster c of the new LCMAP gives 512 divided
by the declarations of the VLCs on it, rounded down, MVL follows VT's width, VL is the lesser of the request and MVL, the pending
declaration is effective, and touched streams move on by the strip that ends. No scalar register but rd, no mask and no byte of
memory changes. -/
def Obligations.GrantsGiveTheirLength : Prop :=
  ∀ (s : State) (i : Instr) (request : Nat) (spread : Bool) (d : SReg),
    (∃ a, i = .setvl d a ∧ request = (s.rd a).toNat ∧ spread = false) ∨
    (∃ a, i = .vloop spread d a ∧ request = (s.rd a).toNat) ∨
    (∃ k, i = .vnext d k ∧ s.v.mode ≠ .inactive ∧ request = (s.v.scnt - BitVec.ofNat 64 s.v.vl).toNat ∧ request ≠ 0 ∧
      spread = (s.v.mode == .spread)) →
    (s.v.preempt = false ∨ s.v.level = .supervisor) → s.smooth = true →
    (s.v.stores = [] ∨ ∃ k, i = .vnext d k ∧ s.v.mode = .spread) →
    let lc := s.nextLc
    let rows (c : Nat) : Nat := if lc.getLsbD c then 512 / s.declSum s.v.declPend c else 0
    s.rowsFree s.v.declPend (s.entitled lc s.v.declPend) = true →
    ∃ t, exec i s = .next t ∧ t.v.lc = lc ∧ (∀ (c : Nat) (h : c < 4), t.v.rows[c] = rows c) ∧
      t.v.declEff = s.v.declPend ∧ t.v.declPend = s.v.declPend ∧
      (let l := if spread then 16 else 16 * ((List.range 4).countP fun c => lc.getLsbD c);
        t.v.mvl = min 8192 (min 4096 (l * (((List.range 4).filter fun c => lc.getLsbD c).map rows).foldl min 512) * 64
          / s.v.vt.width)) ∧
      t.v.vl = min request t.v.mvl ∧ (d ≠ 0 → t.rd d = BitVec.ofNat 64 t.v.vl) ∧ (∀ r, r ≠ d → t.rd r = s.rd r) ∧
      (∀ (q : Nat) (h : q < 16), (t.v.streams[q]).pos = if (s.v.streams[q]).touched
        then (s.v.streams[q]).pos + ceilDiv s.v.vl (s.v.streams[q]).unit else (s.v.streams[q]).pos) ∧
      t.v.masks = s.v.masks ∧ t.mem = s.mem ∧ t.v.status = .runnable ∧
      match i with
      | .setvl _ _ => t.v.scnt = 0 ∧ t.v.mode = .inactive ∧ t.v.pc = s.v.pc + 4
      | .vloop sp _ a => t.v.scnt = s.rd a ∧ t.v.mode = (if sp then .spread else .plain) ∧ t.v.pc = s.v.pc + 4
      | .vnext _ k => t.v.scnt = s.v.scnt - BitVec.ofNat 64 s.v.vl ∧ t.v.mode = s.v.mode ∧
          t.v.pc = s.v.pc + 2 * k.signExtend 64
      | _ => True

/-- A grant waits first for the stores that its closing orders (R29 step 1, R183). With a pre-emption request pending, below
supervisor level, it raises PREEMPT and has no other effect than to take the request (step 2); one whose rows are not free waits
holding no rows, on the lane clusters and under the declaration that step 3 gives (R27). -/
def Claim.GrantsThatWait : Prop :=
  ∀ (s : State) (d a : SReg) (i : Instr), (i = .setvl d a ∨ ∃ sp, i = .vloop sp d a) → s.v.bad = [] →
    (s.v.stores ≠ [] → exec i s = .next (s.setV fun v => { v with status := .draining i })) ∧
    (s.v.stores = [] → s.v.preempt = true → s.v.level = .user → exec i s =
      .next ((s.setV fun v => { v with preempt := false, ripe := false }).trapHere .preempt 0 0 none)) ∧
    (s.v.stores = [] → s.v.preempt = false → s.smooth = true →
      s.rowsFree s.v.declPend (s.entitled s.nextLc s.v.declPend) = false →
      ∃ t, exec i s = .next t ∧ t.v.status = .blocked i ∧ t.v.rows = Vector.replicate 4 0 ∧
        t.v.pc = s.v.pc ∧ t.v.vl = s.v.vl ∧ t.v.mvl = s.v.mvl ∧ t.v.sregs = s.v.sregs ∧ t.v.lc = s.nextLc ∧
        t.v.declEff = s.v.declPend)

/-- VREGS sets the pending declaration (R23). VNEXT outside a loop, and at the end of one, writes 0 to rd and goes on; at the end
it also ends the loop, once the VLC's stores are performed (R33, R183). Nothing else changes. -/
def Claim.DeclarationsAndLoopEnds : Prop :=
  ∀ (s : State) (d : SReg) (k : BitVec 18) (n : BitVec 2), s.smooth = true →
    exec (.vregs n) s = .next ((s.setV fun v => { v with declPend := n }).past (.vregs n)) ∧
    (s.v.mode = .inactive → exec (.vnext d k) s = .next ((s.wr d 0).past (.vnext d k))) ∧
    (s.v.mode ≠ .inactive → s.v.scnt = BitVec.ofNat 64 s.v.vl → s.v.stores ≠ [] →
      exec (.vnext d k) s = .next (s.setV fun v => { v with status := .draining (.vnext d k) })) ∧
    (s.v.mode ≠ .inactive → s.v.scnt = BitVec.ofNat 64 s.v.vl → s.v.stores = [] →
      ∃ t, exec (.vnext d k) s = .next t ∧ t.v.scnt = 0 ∧ t.v.mode = .inactive ∧ (∀ r, r ≠ d → t.rd r = s.rd r) ∧ t.rd d = 0 ∧
        t.v.pc = s.v.pc + 4 ∧ t.v.vl = s.v.vl ∧ t.v.vregs = s.v.vregs ∧ t.v.masks = s.v.masks ∧ t.mem = s.mem)

/-- SETVP gives each rank a run of whole units of rb elements, one after another, that together are the application's length
(R36): its share and its first index. -/
def Obligations.SharesPartition : Prop :=
  (∀ (s : State) (d a b : SReg) (l : Launch), s.smooth = true → s.launch s.v.launch = some l → d ≠ 0 → d ≠ 31 →
    let g := max (s.rd b).toNat 1
    let u := ((s.rd a).toNat + g - 1) / g
    let at_ (k : Nat) := g * (u * k / l.total)
    exec (.setvp d a b) s = .next (((s.wr d (BitVec.ofNat 64 (min (s.rd a).toNat (at_ (s.v.rank.toNat + 1))
      - at_ s.v.rank.toNat))).wr (d + 1) (BitVec.ofNat 64 (at_ s.v.rank.toNat))).past (.setvp d a b))) ∧
  (∀ n g p : Nat, 0 < g → 0 < p →
    (share n g p 0).2 = 0 ∧ (∀ k, k + 1 < p → min n (share n g p (k + 1)).2 = min n (share n g p k).2 + (share n g p k).1) ∧
      min n (share n g p (p - 1)).2 + (share n g p (p - 1)).1 = n ∧ ∀ k, (share n g p k).2 % g = 0) ∧
  ∀ (l : List Byte) (d a b : SReg), decode l = .instr (.setvp d a b) → d ≠ 0 ∧ d ≠ 31

/-! ## Convoys -/

/-- A convoy whose members pass their checks (R85) runs in the phases of R86: it waits for the stores its members' order asks for
(R183, R185); a failing issue check of a matrix or port member, and then uncorrectable state that a member would read (R311), stops
it at its head; the vector phase, the matrix members and the scalar members follow in that order, and it completes past its last
member with VSTART 0; a stop of the vector phase stops the convoy there. A member that fails a check stops it before anything
happens. The scalar phase does what its members do one after another, in program order. -/
def Claim.ConvoysRunTheirPhases : Prop :=
  ∀ (ws : List (BitVec 64)) (s : State),
    let i := Instr.convoy ws
    (∀ e, joinAll s [] (placed s.v.pc ws) = .error e → exec i s = .next (s.raise i e)) ∧
    (∀ l, joinAll s [] (placed s.v.pc ws) = .ok l → convoyWaits s l = true →
      exec i s = .next (s.setV fun v => { v with status := .draining i })) ∧
    (∀ l, joinAll s [] (placed s.v.pc ws) = .ok l → convoyWaits s l = false →
      (∀ e, issueStop s l = some e → exec i s = .next (s.raise i e)) ∧
      (∀ m, issueStop s l = none → badMember s [] l = some m →
        exec i s = .next ((s.setV (·.mended (stateReads m))).trapHere .memerr 3 0 none)) ∧
      (∀ s1 s2 : State, issueStop s l = none → badMember s [] l = none → vectorPhase (membersOf l) s = .done s1 →
        scalarPhase (matrixPhase s1 l) l = (s2, none) → s2.smooth = true →
        exec i s = .next (State.goesOn (s2.setV fun v => { v with vstart := 0, tilepos := 0 }) i (after s.v.pc ws) false)) ∧
      (∀ (s1 : State) (e : Stop), issueStop s l = none → badMember s [] l = none →
        vectorPhase (membersOf l) s = .stopped s1 e → exec i s = .next (s1.raise i e))) ∧
    ∀ l : List Joined, s.v.bad = [] → (∀ m ∈ l, m.i.role = .scalar → ∀ t, (scalarResult m.i t).isSome = true) →
      scalarPhase s l = (scalarsInTurn s (l.filter fun m => m.i.role == .scalar), none)

/-- A convoy whose members pass their checks and whose scalar members are all of the integer group completes (R86): of such members alone,
each does what it does at its own address, one after another; with one element-wise vector member, whose sources are not poisoned and
whose results raise no enabled flag, its active elements take their values from the state at issue, and then the scalars follow. -/
def Claim.ConvoysFinish : Prop :=
  ∀ (ws : List (BitVec 64)) (s : State) (l : List Joined), joinAll s [] (placed s.v.pc ws) = .ok l → s.smooth = true →
    (∀ m ∈ l, m.i.role = .scalar → (scalarResult m.i s).isSome = true) →
    let i := Instr.convoy ws
    let scalars := scalarsInTurn s (l.filter fun m => m.i.role == .scalar)
    ((∀ m ∈ l, m.i.role = .scalar) →
      exec i s = .next (State.goesOn (scalars.setV fun v => { v with vstart := 0, tilepos := 0 }) i (after s.v.pc ws) false)) ∧
    ∀ (m : Joined) (o : VecOp), m ∈ l → (∀ n ∈ l, n.i.role = .scalar ∨ n = m) → vecOp m.i s = some o →
      s.v.vl ≤ 8192 → s.v.vl * o.t.width ≤ 64 * s.v.mvl64 → s.v.mvl64 ≤ 4096 → o.d.toNat < 8 * (s.v.declHeld.toNat + 1) →
      (∀ k r, s.v.live o.mask k → r ∈ o.reads k → (s.v.vregs[r.toNat]).poison.getLsbD (o.t.width * k / 64) = false) →
      (∀ k, s.v.live o.mask k → s.v.fpc.en &&& (o.val k).flags = 0) →
      ∃ u, exec i s = .next u ∧ u.v.pc = after s.v.pc ws ∧ u.v.status = .runnable ∧ u.v.vstart = 0 ∧ u.v.sregs = scalars.v.sregs ∧
        u.v.masks = s.v.masks ∧ u.mem = s.mem ∧ (∀ r : VReg, r ≠ o.d → u.v.vregs[r.toNat] = s.v.vregs[r.toNat]) ∧
        ∀ k, u.v.element o.t o.d k =
          if s.v.vstart ≤ k ∧ k < s.v.vl ∧ s.v.bit o.mask k = true then payload o.t ((o.val k).bits % 2 ^ o.t.width)
          else s.v.element o.t o.d k

/-- The members of a convoy that passes its checks are those it was fetched with, each passing its own checks, and within the
limits of R85: four scalar members, four others, each unit once, two memory members, one matrix or accumulator-port
member. -/
def Claim.ConvoyLimits : Prop :=
  ∀ (ws : List (BitVec 64)) (s : State) (a : Word) (l : List Joined), joinAll s [] (placed a ws) = .ok l →
    l.map (·.at_) = (placed a ws).map (·.at_) ∧ (∀ m ∈ l, ownStop m.i s = none) ∧
      (∀ m ∈ l, ∃ w ∈ ws, decode (bytesOf 8 w.toNat) = .instr m.i) ∧
      countRole l (· == .scalar) ≤ 4 ∧ countRole l (· != .scalar) ≤ 4 ∧ (∀ r, isUnit r = true → countRole l (· == r) ≤ 1) ∧
      countRole l (· == .mem) ≤ 2 ∧ countRole l (fun r => r == .matrix || r == .accPort) ≤ 1

/-! ## Steps about a VLC -/

/-- A step about a VLC finds it by core and slot and makes it the issuing one; no VLC is lost and nothing else changes. Where no
such VLC is, or it is frozen (R370), the step changes no register of any VLC. -/
def Claim.EventsFindTheirVlc : Prop :=
  ∀ (e : Instr) (core slot : Nat) (s : State), aboutVlc e = some (core, slot) →
    (s.bring (·.isAt core slot) = none → exec e s = .next s) ∧
    (∀ s1, s.bring (·.isAt core slot) = some s1 →
      s1.v.isAt core slot = true ∧ s1 = { s with v := s1.v, parked := s1.parked } ∧
      (s.v.status ≠ .absent → s1.vlcs.Perm s.vlcs) ∧
      (s1.v.frozen = true → exec e s = .next s) ∧ (s1.v.frozen = false → exec e s = exec e s1))

/-- A VLC that waits executes its instruction again when what it waits for may have come: rows for a grant (R27), a write to the
word of WAITV (R45), the end of a command for PUBL or CWAIT (R194, R405), a triple for WQRECV (R268). -/
def Claim.WakesRunTheInstructionAgain : Prop :=
  ∀ (e i : Instr) (s : State), wakes e i = some (s.v.core, s.v.slot) → s.v.status = .blocked i → s.v.frozen = false →
    s.v.awaited = [] → decodeStop i s = none → exec e s = exec i s

/-- The steps that end the other waits: FENCE's and a release's, which then goes on (R185, R188), RDTIME's reply, which never moves
the Beacon back (R358, R359), IDLE's, by the supervisor's request too (R313, R320); and the steps of the spin detector (R47, R345). A matrix member's completion changes
nothing. -/
def Claim.WaitsEnd : Prop :=
  ∀ (s : State), s.v.status.resident = true → s.v.frozen = false → s.smooth = true →
    let c := s.v.core
    let k := s.v.slot
    (∀ f sc, s.v.status = .blocked (.fence f sc) → s.v.stores = [] → exec (.fenceDone c k) s = .next (s.past (.fence f sc))) ∧
    (∀ i, s.v.status = .draining i → exec (.fenceDone c k) s = .next (s.setV fun v => { v with status := .again i })) ∧
    (∀ d t, s.v.status = .blocked (.rdtime d) →
      let b := if s.beacon.toNat < t.toNat then t else s.beacon
      exec (.rdtimeReply c k t) s = .next ((State.wr { s with beacon := b } d b).past (.rdtime d))) ∧
    (s.v.status = .blocked .idle → s.v.preempt = true → exec (.idleWake c ⟨k, false⟩) s = .next (s.past .idle)) ∧
    (∀ core slot, exec (.idleWake core ⟨slot, true⟩) s =
      exec (.idleWake core ⟨slot, false⟩) (s.mapVlcs fun v => if v.isAt core slot then { v with preempt := true } else v)) ∧
    (∀ core slot, exec (.spinDemotionEnd core slot) s =
      .next (s.mapVlcs fun v => if v.isAt core slot ∧ v.spin.demoted = true then { v with spin := Spin.idle } else v)) ∧
    (∀ core slot, exec (.demotedIssueDue core slot) s =
      .next (s.mapVlcs fun v => if v.isAt core slot ∧ v.spin.demoted = true then { v with spin := { v.spin with due := true } } else v)) ∧
    ∀ core slot, exec (.matrixMemberComplete core slot) s = .next s

/-- A grant that has waited for 1 ms asks each VLC that prevents it to give up its rows (R27). A request pending for 1 ms is
forced where the VLC waits in an instruction that a forced pre-emption stops, or for its own stores, and else at its next boundary or
at an element of the convoy that runs next (R87, R315); a VLC at supervisor level meets it once it has left that level (R316). -/
def Claim.PreemptionRequests : Prop :=
  ∀ (s : State), s.v.status.resident = true → s.v.frozen = false →
    let c := s.v.core
    let k := s.v.slot
    let forced := State.dueTlb ((s.setV fun v => { v with preempt := false, ripe := false }).takeTrap
      { cls := .preempt, sub := 0, tval := 0, tpc := s.v.pc, forced := true, frec := none })
    (s.v.inGrant = true → ∃ t, exec (.grantWaitTimeout c k) s = .next t ∧ t.v.sregs = s.v.sregs ∧ t.mem = s.mem ∧
      ∀ w ∈ s.hindering, ∀ v ∈ t.vlcs, v.isAt w.core w.slot = true → v.preempt = true) ∧
    (∀ i n, s.v.status = .blocked i → stopsForced i = true → s.v.preempt = true → s.v.level = .user →
      exec (.preemptForced c ⟨k, n⟩) s = .next forced) ∧
    (∀ i n, s.v.status = .draining i → s.v.untouched = true → s.v.preempt = true → s.v.level = .user →
      exec (.preemptForced c ⟨k, n⟩) s = .next forced) ∧
    (∀ n, s.v.status = .runnable → s.v.preempt = true → s.v.level = .user →
      exec (.preemptForced c ⟨k, n⟩) s = .next (s.setV fun v => { v with ripe := true, cut := n })) ∧
    (∀ n, s.v.preempt = true → s.v.level = .supervisor →
      exec (.preemptForced c ⟨k, n⟩) s = .next (s.setV fun v => { v with ripe := true })) ∧
    (s.v.preempt = true → s.v.ripe = true → s.v.level = .user → s.v.vend = false → s.v.lateFabric = none →
      s.v.cut = none → s.v.freezing = false → s.boundary = some forced)

/-! ## Barriers, supersteps and WAITV -/

/-- BAR arrives at its group's current generation and waits (R41); the last arrival, once every member's stores are performed
(R42), makes the generation complete. One that arrived before it was pre-empted does not arrive again, and completes when its
generation has (R44). -/
def Claim.BarriersArrive : Prop :=
  ∀ (s : State) (g : BitVec 8) (l : Launch), decodeStop (.bar g) s = none → s.launch s.v.launch = some l → s.smooth = true →
    (s.v.barw = none →
      ∃ t, exec (.bar g) s = .next t ∧ t.v.status = .blocked (.bar g) ∧ t.v.pc = s.v.pc ∧ t.v.sregs = s.v.sregs ∧
        t.v.vregs = s.v.vregs ∧ t.mem = s.mem ∧
        t.v.barw = some { ssync := false, gen := l.genOf g.toNat, group := g.toNat } ∧
        (t.launch s.v.launch).map (·.arrivedAt g.toNat) = some (s.v.rank.toNat :: l.arrivedAt g.toNat) ∧
        ((∀ r ∈ l.ranks, inRanges r (l.group g.toNat) = true →
            r = s.v.rank.toNat ∨ r ∈ l.arrivedAt g.toNat ∨ r ∈ l.ended) →
          t.groupQuiet l g.toNat = true →
          Instr.barGenerationComplete l.key g.toNat (l.genOf g.toNat) ∈ t.events)) ∧
    (∀ n, s.v.barw = some { ssync := false, gen := n, group := g.toNat } →
      (n < l.genOf g.toNat → exec (.bar g) s = .next ((s.setV fun v => { v with barw := none }).past (.bar g))) ∧
      (l.genOf g.toNat ≤ n → exec (.bar g) s = .next (s.setV fun v => { v with status := .blocked (.bar g) })))

/-- A generation completes once every member of its group has arrived or ended and every member's stores are performed, those of its
ended members too (R41, R42, R340): the next generation begins with no arrival, and the members that wait leave, one after another, each past its
BAR. -/
def Claim.BarriersComplete : Prop :=
  ∀ (s : State) (key g n : Nat) (l : Launch), s.launch key = some l →
    let e := Instr.barGenerationComplete key g n
    let next := s.setLaunch key fun x => x.setBar g { group := g, gen := n + 1, arrived := [] }
    (l.genOf g ≠ n ∨ s.barReady l g = false → exec e s = .next s) ∧
    (l.genOf g = n → s.barReady l g = true →
      (next.launch key).map (fun x => (x.genOf g, x.arrivedAt g)) = some (n + 1, []) ∧
      exec e s = .next ((s.waitersOf key { ssync := false, gen := n, group := g }).foldl
        (fun u w => u.onVlc w.1 w.2 fun u => u.leaveBar (.bar (BitVec.ofNat 8 g))) next) ∧
      (s.waitersOf key { ssync := false, gen := n, group := g } = [(s.v.core, s.v.slot)] → s.v.status.resident = true →
        s.v.frozen = false → s.smooth = true →
        exec e s = .next ((next.setV fun v => { v with barw := none }).past (.bar (BitVec.ofNat 8 g))))) ∧
    (s.barReady l g = true ↔ l.arrivedAt g ≠ [] ∧
      (∀ r ∈ l.ranks, inRanges r (l.group g) = true → r ∈ l.arrivedAt g ∨ r ∈ l.ended) ∧
      (∀ v ∈ s.vlcs, v.launch = l.key → inRanges v.rank.toNat (l.group g) = true → v.status ≠ .absent → v.stores = []) ∧
      ∀ o ∈ s.orphans, o.2.1 = l.key → inRanges o.2.2.2.rank (l.group g) = false)

/-- SSYNC arrives and waits; once every VLC of the launch has arrived, in every package of a gang, and the communication step is
delivered, the next superstep begins, and each VLC that waits leaves with its number in rd (R43, R196). One that arrived
before it was pre-empted leaves with the number of the superstep that followed its own (R44). -/
def Claim.SuperstepsAdvance : Prop :=
  ∀ (s : State) (d : SReg) (l : Launch), s.launch s.v.launch = some l → s.smooth = true →
    (s.v.barw = none →
      ∃ t, exec (.ssync d) s = .next t ∧ t.v.status = .blocked (.ssync d) ∧ t.v.pc = s.v.pc ∧ t.v.sregs = s.v.sregs ∧
        t.mem = s.mem ∧ t.v.barw = some { ssync := true, gen := l.superstep, group := 0 } ∧
        (t.launch s.v.launch).map (·.ssync) = some (s.v.rank.toNat :: l.ssync)) ∧
    (∀ n, s.v.barw = some { ssync := true, gen := n, group := 0 } → n < l.superstep →
      exec (.ssync d) s = .next (((s.wr d (BitVec.ofNat 64 (n + 1))).setV fun v => { v with barw := none }).past (.ssync d))) ∧
    (s.ssyncReady l = true → s.v.status = .blocked (.ssync d) → s.v.frozen = false →
      s.waitersOf s.v.launch { ssync := true, gen := l.superstep, group := 0 } = [(s.v.core, s.v.slot)] →
      (∀ c ∈ s.commands, c.launch = s.v.launch → c.kind ≠ .mghost) →
      ∃ t, exec (.ssyncComplete s.v.launch []) s = .next t ∧ t.v.pc = s.v.pc + 4 ∧ t.v.status = .runnable ∧ t.v.barw = none ∧
        (d ≠ 0 → t.rd d = BitVec.ofNat 64 (l.superstep + 1)) ∧ (∀ r, r ≠ d → t.rd r = s.rd r) ∧ t.mem = s.mem ∧
        (t.launch s.v.launch).map (fun x => (x.superstep, x.ssync)) = some (l.superstep + 1, []))

/-- WAITV reads its word; when the condition of Table 4 of R48 holds between it and rs2 it returns the word and completes, else
it waits, watching the word's line (R45). -/
def Claim.WaitsForValues : Prop :=
  ∀ (s : State) (cm : Bool) (sc : Scope) (p : WaitCond) (d a b : SReg), s.smooth = true →
    let i := Instr.waitv cm sc p d a b
    (∀ (s1 : State) (x : Nat), s.loadAt (if cm then .cmem else .glob) (s.rd a) 8 false = .ok (x, s1) → x < 2 ^ 64 →
      let holds := match p with
        | .ge => (s.rd b).toNat ≤ x
        | .eq => x = (s.rd b).toNat
        | .ne => x ≠ (s.rd b).toNat
      (holds → s1.smooth = true → exec i s = .next ((s1.wr d (BitVec.ofNat 64 x)).past i)) ∧
      (¬holds → s1.smooth = true →
        ∃ t, exec i s = .next t ∧ t.v.status = .blocked i ∧ t.v.pc = s1.v.pc ∧ t.v.sregs = s1.v.sregs ∧ t.mem = s1.mem ∧
          (cm = true → t.v.watching = some (.cmem (s1.v.core / 16) ((s.rd a).toNat / 64 * 64))))) ∧
    (∀ e, s.loadAt (if cm then .cmem else .glob) (s.rd a) 8 false = .error e → exec i s = .next (s.raise i e))

/-- WAITV whose word nothing stops, and whose condition holds of it, returns the word and completes (R45, R48); and so does one that waits,
when its word is tested again after a write or a poll. Nothing else changes but counts of accesses. -/
def Claim.WaitsForValuesFinish : Prop :=
  ∀ (s : State) (cm : Bool) (sc : Scope) (p : WaitCond) (d a b : SReg) (o : Nat),
    let i := Instr.waitv cm sc p d a b
    let space := if cm then Space.cmem else .glob
    let x := (s.spaceMem space).read o 8
    s.smooth = true → s.spot space (.mem (s.rd a) 8 .load 0) = some o →
    (match p with
      | .ge => (s.rd b).toNat ≤ x
      | .eq => x = (s.rd b).toNat
      | .ne => x ≠ (s.rd b).toNat) →
    let done (e : Instr) := ∃ u : State, s.counted u ∧ exec e s = .next ((u.wr d (BitVec.ofNat 64 x)).past i)
    done i ∧ (s.v.status = .blocked i → s.v.frozen = false → s.v.awaited = [] →
      done (.waitvRetest s.v.core s.v.slot) ∧ done (.waitvRemotePoll s.v.core s.v.slot))

/-- A VLC that waits for rows, for the end of commands or for a triple completes its instruction at the step that brings it (R27, R194,
R268, R405). -/
def Claim.WakesComplete : Prop :=
  ∀ (s : State) (i : Instr), s.v.status = .blocked i → s.v.frozen = false → s.v.awaited = [] → s.smooth = true →
    (∀ d a, i = .setvl d a ∨ (∃ sp, i = .vloop sp d a) → s.v.preempt = false ∨ s.v.level = .supervisor → s.v.stores = [] →
      s.rowsFree s.v.declPend (s.entitled s.nextLc s.v.declPend) = true →
      ∃ t, exec (.grantRowsFree s.v.core s.v.slot) s = .next t ∧ t.v.status = .runnable ∧ t.v.pc = s.v.pc + 4 ∧ t.v.lc = s.nextLc ∧
        t.v.declEff = s.v.declPend ∧ t.v.vl = min (s.rd a).toNat t.v.mvl ∧ (d ≠ 0 → t.rd d = BitVec.ofNat 64 t.v.vl) ∧
        (∀ r, r ≠ d → t.rd r = s.rd r) ∧ t.mem = s.mem) ∧
    (∀ sc a, i = .publ sc a → s.v.stores = [] →
      let set := s.commands.filter fun c => c.launch == s.v.launch && c.rank == s.v.rank.toNat && !c.settled
        && c.target == (s.rd a).toNat && c.kind != .mghost
      (∀ c ∈ set, (∃ w, c.status = some w ∧ w.toNat % 128 = 0) ∧ c.tags = [] ∧ ∀ h ∈ c.shadow, h.place.onChip) →
      exec (.publSwap s.v.core s.v.slot) s = .next ((s.publish s.v.launch s.v.rank.toNat set).past i)) ∧
    (∀ d a b w, i = .cwait d a b → s.claimable (s.rd a).toNat = some (some w) →
      exec (.cwaitWake s.v.core s.v.slot) s = .next (((s.claim (s.rd a).toNat).wr d w).past i)) ∧
    (∀ d a b q t, i = .wqrecv d a b → i.wf = true → s.rd a ≠ 0 → s.rd a ∈ s.v.wickTags.toList → s.nextTriple (s.rd a) = some q →
      q.triple = some t → t.acc.length = q.d → s.v.vl = q.d → 0 < q.d → q.d ≤ 256 → s.v.wickFits = true →
      s.v.vl * 32 ≤ 64 * s.v.mvl64 → s.v.mvl64 ≤ 4096 → d.toNat < 8 * (s.v.declHeld.toNat + 1) →
      ∃ u, exec (.wqrecvTripleReady s.v.core s.v.slot) s = .next u ∧ u.v.status = .runnable ∧ u.v.pc = s.v.pc + 4 ∧ u.mem = s.mem ∧
        (∀ k, k < q.d → u.v.element .f32 d k = (t.acc.getD k 0).toNat) ∧ u.subqueries = s.subqueries.filter fun x => !x.same q)

/-! ## Commands -/

/-- CPY and the mesh commands capture what their operands name, take a handle, join their engine's commands and complete; the
command ends in a step of its own (R241, R403). They wait first for the VLC's stores, which the command's reads follow (R192). With
64 unfinished commands ahead the VLC waits with its command captured, and issues it when there is room. A capture that stops takes
its trap. -/
def Claim.CommandsAreIssued : Prop :=
  ∀ (i : Instr) (s : State) (d : SReg) (cap : State → Except Stop (Command × State)), issues i = some (d, cap) →
    s.smooth = true →
    let issued (u : State) (c : Command) := exec i s = .next ((State.wr { u with
      nextHandle := u.nextHandle + 1, commands := u.commands ++ [{ c with handle := u.nextHandle }],
      events := u.events ++ [endOf c.kind c.die u.nextHandle] } d (BitVec.ofNat 64 u.nextHandle)).past i)
    (s.v.stores ≠ [] → exec i s = .next (s.setV fun v => { v with status := .draining i })) ∧
    (∀ (c : Command) (u : State), s.v.stores = [] → cap s = .ok (c, u) →
      u.v = { s.v with spin := u.v.spin } ∧ c.die = s.v.core / 128 ∧ c.launch = s.v.launch ∧ c.rank = s.v.rank.toNat ∧ c.ctx = s.v.ctx ∧
      c.status = none ∧ c.shadow = [] ∧ c.settled = false ∧ c.claimed = false ∧
      (u.unfinished c.die (c.kind == .cpy) < 64 → u.smooth = true → issued u c) ∧
      (64 ≤ u.unfinished c.die (c.kind == .cpy) → u.smooth = true →
        exec i s = .next (u.setV fun v => { v with queued := some c, status := .blocked i }))) ∧
    (∀ e, s.v.stores = [] → cap s = .error e → exec i s = .next (s.raise i e)) ∧
    (∀ c : Command, s.v.status = .blocked i → s.v.queued = some c → s.v.frozen = false →
      s.unfinished c.die (c.kind == .cpy) < 64 →
      exec (.commandIssueResume s.v.core s.v.slot) s = .next ((State.wr { s with
        nextHandle := s.nextHandle + 1, commands := s.commands ++ [{ c with handle := s.nextHandle }],
        events := s.events ++ [endOf c.kind c.die s.nextHandle] } d (BitVec.ofNat 64 s.nextHandle)).past i))

/-- CPY of a descriptor and stream records that may be read and that R402 and R152 allow, and whose count they hold, and every mesh command
whose record and block may be read, complete where their engine has room (R192, R241, R403): the command joins its die's, its handle
goes to rd, and nothing else changes but counts of accesses. -/
def Claim.IssuesFinish : Prop :=
  ∀ (s : State) (d a b : SReg), s.smooth = true → s.v.stores = [] → s.v.spin.demoted = false →
    let die := s.v.core / 128
    let issued (i : Instr) (c : Command) := ∃ u : State, s.counted u ∧ exec i s = .next ((State.wr { u with
      nextHandle := s.nextHandle + 1, commands := s.commands ++ [{ c with handle := s.nextHandle }],
      events := s.events ++ [endOf c.kind die s.nextHandle] } d (BitVec.ofNat 64 s.nextHandle)).past i)
    (∀ (r dr sr : List Byte) (dq sq : Stream),
      let x := CopyDesc.of r
      let n := (s.rd b).toNat
      (s.rd a).toNat % 64 = 0 → s.openWords s.party (s.rd a) 8 = some r → x.ok r = true → x.drec.toNat % 16 = 0 →
      s.openWords s.party x.drec 16 = some dr → streamOf dr = some dq →
      (if x.mode = 0 then x.srec.toNat % 16 = 0 ∧ s.openWords s.party x.srec 16 = some sr ∧ streamOf sr = some sq
        else sr = [] ∧ sq = dq) →
      1 ≤ n → n ≤ 2 ^ 32 → n ≤ dq.extent - dq.pos → n ≤ sq.extent - sq.pos → s.unfinished die true < 64 →
      issued (.cpy d a b) (s.newCommand .cpy (dr ++ sr) (r ++ bytesOf 8 n) (dq.address (2 ^ x.esize) dq.pos))) ∧
    ∀ (k : CmdKind) (i : Instr) (r blk : List Byte),
      (k, i) ∈ [(CmdKind.mlocate, Instr.mlocate d a b), (.mrefine, .mrefine d a b), (.mcoarsen, .mcoarsen d a b),
        (.mremap, .mremap d a b), (.mcolor, .mcolor d a b), (.mcut, .mcut d a b), (.mmigr, .mmigr d a b), (.mghost, .mghost d a b)] →
      (s.rd a).toNat % 256 = 0 → (s.rd b).toNat % 64 = 0 → s.openWords s.party (s.rd a) 32 = some r →
      s.openWords s.party (s.rd b) 8 = some blk → s.unfinished die false < 64 →
      issued i { s.newCommand k r blk (BitVec.ofNat 64 (field blk 0 8)) with mesh := s.mesh die (field r 0x10 8) }

/-- A command of one die ends with the status word of what it computed (R244) and, in code 0, with its shadow; its end changes no
byte of memory and no register (R193). A frozen job's commands wait (R370). -/
def Claim.CommandsEnd : Prop :=
  ∀ (s : State) (die h : Nat) (k : CmdKind) (c : Command) (run : Command → State → Except EngStop (Product × State)),
    runsAlone k = some run → s.command die h = some c → c.kind = k → c.status = none →
    let e := endOf k die h
    (s.frozenCtx c.ctx = true → exec e s = .next (s.holdStep c.ctx e)) ∧
    (s.frozenCtx c.ctx = false →
      (∀ (p : Product) (u : State), run c s = .ok (p, u) → u.command die h = some c →
        ∃ t, exec e s = .next t ∧ t.v = u.v ∧ t.mem = u.mem ∧
          t.command die h = some { c with status := some (BitVec.ofNat 64 (p.detail % 2 ^ 57 * 128)),
                                          shadow := if c.settled then [] else p.shadow,
                                          tags := if c.settled then [] else p.tags }) ∧
      (∀ code detail, run c s = .error (.code code detail) →
        ∃ t, exec e s = .next t ∧ t.v = s.v ∧ t.mem = s.mem ∧
          t.command die h = some { c with status := some (BitVec.ofNat 64 (detail % 2 ^ 57 * 128) ||| BitVec.ofNat 64 code),
                                          shadow := [], tags := [] }))

/-- CPY, MLOCATE, MREMAP and MCOLOR, of which nothing stops an access and every check passes, end with status 0 (R244, R250, R252, R253,
R404, R465); no register and no byte of memory changes before they are published (R193). -/
def Claim.CommandsFinish : Prop :=
  ∀ (s : State) (die h : Nat) (c : Command), s.command die h = some c → c.status = none → s.frozenCtx c.ctx = false →
    let b := Block.of c.block
    let ends := ∃ t, exec (endOf c.kind die h) s = .next t ∧ (t.command die h).map (·.status) = some (some 0) ∧ t.v = s.v ∧
      t.mem = s.mem
    (c.kind = .cpy →
      let d := CopyDesc.of c.block
      let size := 2 ^ d.esize
      ∀ dq, streamOf (c.record.take 128) = some dq →
        let sq := (streamOf (c.record.drop 128)).getD dq
        (∀ i, i < field c.block 64 8 →
          (d.mode = 0 → s.copyOpens c .load (spaceOfCode d.sspace) (sq.address size (sq.pos + i)) size) ∧
          s.copyOpens c .store (spaceOfCode d.dspace) (dq.address size (dq.pos + i)) size) → ends) ∧
    ∀ m, s.meshStarts c m →
      (c.kind = .mlocate → b.in0.toNat % 8 = 0 → s.reportOpens c (8 + 2 * b.count) →
        (∀ i, i < b.count → ∃ p, s.openWords c.party (b.in0 + BitVec.ofNat 64 (32 * i)) 4 = some p ∧
          ∀ v, field p 24 4 < m.coarse.length → v ∈ 0 :: axisVerts (kindOf m.coarse (field p 24 4)) →
            (s.openWords c.party ((MeshRec.of c.record).vtab +
              BitVec.ofNat 64 (24 * ((m.coarse.map (·.verts)).getD (field p 24 4) []).getD v 0)) (if m.dim = 3 then 3 else 2)).isSome = true) →
        ends) ∧
      (c.kind = .mcolor →
        s.reportOpens c (136 + 2 * ((m.records m.cur (s.endpoint, die)).filter (·.pri)).length) → ends) ∧
      (c.kind = .mremap → b.in1.toNat % 8 = 0 → ∀ l, s.openWords c.party b.in1 8 = some l → field l 0 8 = m.cur.gen →
        let size := if b.param % 16 = 8 then 8 else 4
        let nown := field l 8 8
        nown * b.count * size ≤ b.size →
        (∀ i, i < field l 0x28 8 → ∃ w, s.openWords c.party (b.in1 + BitVec.ofNat 64 (64 + 16 * i)) 2 = some w ∧
          let r := Remap.of (field w 0 8) (field w 8 8)
          ∀ k, k < b.count → (∀ x ∈ remapReads b m.dim size r k, s.opens c.party .load x size) ∧
            ∀ x ∈ remapWrites b nown size r k, s.opens c.party .store x size) →
        ends)

/-- A copy between scratchpads and cluster memories reads every element as it stood and gives it, or the fill value, to the
element of the destination at the same position of its stream (R402, R404). -/
def Claim.CopiesMoveElements : Prop :=
  ∀ (c : Command) (d : CopyDesc) (dq sq : Stream) (s u : State) (i n : Nat) (p : Product), d.mode ≠ 2 →
    d.dspace = 1 ∨ d.dspace = 2 → (d.mode = 0 → d.sspace = 1 ∨ d.sspace = 2) → d.esize ≤ 3 →
    copyElems c d dq sq s i n = .ok (p, u) →
    let size := 2 ^ d.esize
    let spot (space : Nat) (a : Word) : Place := if space = 1 then .cmem (c.core / 16) a.toNat else .spad c.core a.toNat
    u = s ∧ p.tags = [] ∧ p.detail = 0 ∧ p.shadow = (List.range n).map fun k =>
      { place := spot d.dspace (dq.address size (dq.pos + (i + k))), n := size, key := none,
        x := if d.mode = 0 then s.readPlace (spot d.sspace (sq.address size (sq.pos + (i + k)))) size else d.fill }

/-- PUBL publishes every unpublished command of its VLC at its address, once all have ended in code 0 and the VLC's stores are
performed; while one has not ended it waits; one that failed raises PROT 0, and nothing is published (R194, R244). -/
def Claim.PublicationIsWhole : Prop :=
  ∀ (s : State) (sc : Scope) (a : SReg), s.smooth = true →
    let i := Instr.publ sc a
    let after (l : List Command) := s.publish s.v.launch s.v.rank.toNat l
    let set := s.commands.filter fun c => c.launch == s.v.launch && c.rank == s.v.rank.toNat && !c.settled
      && c.target == (s.rd a).toNat && c.kind != .mghost
    ((∀ c ∈ set, ∃ w, c.status = some w ∧ w.toNat % 128 = 0) → s.v.stores = [] → (after set).smooth = true →
      exec i s = .next ((after set).past i)) ∧
    ((∀ c ∈ set, (∃ w, c.status = some w ∧ w.toNat % 128 = 0) ∧ c.tags = [] ∧ ∀ h ∈ c.shadow, h.place.onChip) → s.v.stores = [] →
      exec i s = .next ((after set).past i)) ∧
    ((∀ c ∈ set, ∃ w, c.status = some w ∧ w.toNat % 128 = 0) → s.v.stores ≠ [] →
      exec i s = .next (s.setV fun v => { v with status := .blocked i })) ∧
    ((∃ c ∈ set, c.status = none) →
      exec i s = .next (s.setV fun v => { v with status := .blocked i })) ∧
    ((∀ c ∈ set, c.status ≠ none) → (∃ c ∈ set, ∃ w, c.status = some w ∧ w.toNat % 128 ≠ 0) →
      ∃ u : State, exec i s = .next (u.trapHere .prot 0 (untag (s.rd a)) none) ∧ u.mem = s.mem ∧ u.v = s.v)

/-- Publishing a command whose shadow lies in scratchpads and cluster memories gives each of its places its shadow value and
changes no byte outside them (R193). -/
def Claim.PublishedBytes : Prop :=
  ∀ (s : State) (c : Command), (∀ h ∈ c.shadow, h.place.onChip) → (∀ x ∈ c.tags, epOf x.1 = s.endpoint) →
    c.shadow.Pairwise (fun h g => h.place.apart h.n g.place g.n) →
    (∀ k, (s.cluster k).cmem.wf = true) → (∀ k, (s.core k).spad.wf = true) →
    let t := s.publish c.launch c.rank [c]
    (∀ h ∈ c.shadow, t.readPlace h.place h.n = h.x % 256 ^ h.n) ∧
    (∀ q : Place, q.onChip → (∀ h ∈ c.shadow, h.place.apart h.n q 1) → t.readPlace q 1 = s.readPlace q 1) ∧
    t.v = s.v ∧ ∀ b, t.mem.byte b = s.mem.byte b

/-- CWAIT returns the status of an ended command or transfer of its VLC and retires its handle; of one that has not ended it
returns −1 when rs2 is not 0, and else waits; a handle that names none raises PROT 0 (R405). -/
def Claim.StatusesAreClaimedOnce : Prop :=
  ∀ (s : State) (d a b : SReg), s.smooth = true →
    let i := Instr.cwait d a b
    let h := (s.rd a).toNat
    (s.claimable h = none → exec i s = .next (s.trapHere .prot 0 (s.rd a) none)) ∧
    (∀ w, s.claimable h = some (some w) → exec i s = .next (((s.claim h).wr d w).past i)) ∧
    (s.claimable h = some none → s.rd b ≠ 0 → exec i s = .next ((s.wr d (-1)).past i)) ∧
    (s.claimable h = some none → s.rd b = 0 → exec i s = .next (s.setV fun v => { v with status := .blocked i })) ∧
    (s.claim h).claimable h = none

/-- MNBR captures its query block, its mesh record and the mesh as its die holds it, and waits; its binding is then made from that
mesh, with the number of its face records in rs2's register, or the VLC takes the trap R247 names (R239, R246, R247). -/
def Claim.NeighbourBindings : Prop :=
  ∀ (s : State) (d : QReg) (a b : SReg),
    let i := Instr.mnbr d a b
    let own := (s.endpoint, s.v.core / 128)
    (∀ q r s1, s.smooth = true → nbrCapture a s = .ok ((q, r), s1) → s1.smooth = true →
      ∃ t, exec i s = .next t ∧ t.v.status = .blocked i ∧ t.v.pc = s1.v.pc ∧
      t.v.sregs = s1.v.sregs ∧ t.mem = s1.mem ∧ t.events = s1.events ++ [.mnbrBindingMade s.v.core s.v.slot] ∧
      t.v.queued = some (s1.nbrCommand q r) ∧ (s1.nbrCommand q r).mesh = s1.mesh (s1.v.core / 128) (MeshRec.of r).id) ∧
    (∀ e, s.smooth = true → nbrCapture a s = .error e → exec i s = .next (s.raise i e)) ∧
    (∀ (c : Command) (s2 : State) (y : Parsed) (held : Mesh), s.v.status = .blocked i → s.v.frozen = false →
      s.v.queued = some c → c.mesh = some held →
      s.parseMesh { s.party with core := none, watch := false, owner := s.nbrOwner } s.v.launch c.record false = .ok (y, s2) →
      let q := c.block
      let m := { held with lost := s.lostMesh held }
      queryFail q true (some m) own = 0 → s2.smooth = true →
      ∃ t, exec (.mnbrBindingMade s.v.core s.v.slot) s = .next (t.past i) ∧
        t = (((s2.forgetAnswers s2.nbrOwner).setV fun v =>
          v.setStream d { Stream.unbound with kind := .topology, topo := some (m.bind own q) }).wr
          b (BitVec.ofNat 64 (m.bind own q).recs.length)) ∧
        (m.bind own q).gen = m.cur.gen ∧ (m.bind own q).view = field q 0x18 1 ∧
        ∀ w ∈ (m.bind own q).recs, ∃ f ∈ m.records m.cur own, w = (f.w0, f.w1) ∧ field q 8 8 ≤ f.cell ∧
          f.cell < field q 8 8 + field q 16 8)

/-- MNBR whose query block and mesh record may be read begins to wait with what it captured; and its binding, when the record's tables may be
read, is made from the mesh as captured: the stream holds it, rs2's register the number of its records, and the VLC goes on (R239,
R246, R247). -/
def Claim.BindingsFinish : Prop :=
  ∀ (s : State) (d : QReg) (a b : SReg), s.smooth = true →
    let i := Instr.mnbr d a b
    (∀ q r : List Byte, s.v.spin.demoted = false → (s.rd a).toNat % 64 = 0 → s.openWords s.party (s.rd a) 8 = some q →
      field q 0 8 % 256 = 0 → s.openWords s.party (BitVec.ofNat 64 (field q 0 8)) 32 = some r →
      ∃ t, exec i s = .next t ∧ t.v.status = .blocked i ∧ t.v.queued = some (s.nbrCommand q r) ∧ t.v.pc = s.v.pc ∧
        t.v.sregs = s.v.sregs ∧ t.mem = s.mem ∧ t.events = s.events ++ [.mnbrBindingMade s.v.core s.v.slot]) ∧
    (∀ (c : Command) (m : Mesh), s.v.status = .blocked i → s.v.frozen = false → s.v.awaited = [] → s.v.queued = some c → c.mesh = some m →
      let own := (s.endpoint, s.v.core / 128)
      s.recordOpens { s.party with core := none, watch := false, owner := s.nbrOwner } s.v.launch c.record →
      queryFail c.block true (some { m with lost := s.lostMesh m }) own = 0 →
      ∃ t, exec (.mnbrBindingMade s.v.core s.v.slot) s = .next t ∧ t.v.status = .runnable ∧ t.v.pc = s.v.pc + 4 ∧
        t.v.streams[d.toNat] = { Stream.unbound with kind := .topology, topo := some (m.bind own c.block) } ∧
        (b ≠ 0 → t.rd b = BitVec.ofNat 64 (m.bind own c.block).recs.length) ∧ (∀ r, r ≠ b → t.rd r = s.rd r) ∧ t.mem = s.mem)

/-- A round of a collective mesh command that every party has reached ends for all its commands in this package: with one status
when some party failed or the parties disagree (R245); else its parties run, and once every one has, it ends with the status of the
lowest that failed, or each with status 0 and its own shadow. A party that is still missing when TMO has passed ends the round with
TIMEOUT, naming the lowest. -/
def Claim.CollectiveRoundsEnd : Prop :=
  ∀ (s : State) (die h : Nat) (k : CmdKind) (c : Command), k.collective = true → s.command die h = some c → c.kind = k →
    c.status = none → s.frozenCtx c.ctx = false → s.commands.Pairwise (fun x y => ¬(x.die = y.die ∧ x.handle = y.handle)) →
    let e := endOf k die h
    let s0 := s.setCommand die h (·.hear [])
    let l := s0.members (c.hear [])
    let ms := s0.messages l
    let ended (t : State) (x : Command) (w : Word) := (t.command x.die x.handle).map (·.status) = some (some w)
    ((∃ x ∈ l, x.die = die ∧ x.handle = h) → (∃ m, c.own s.endpoint = some m) → knownParts ms ≠ none →
      (partiesOf k ms).contains (s.endpoint, die) = true →
      (roundFull k ms = false → exec e s = .next s0) ∧
      (roundFull k ms = true →
        (∀ code detail, roundStatus ms = some (code, detail) →
          ∃ t, exec e s = .next t ∧ t.v = s.v ∧ t.mem = s.mem ∧ ∀ x ∈ l, ended t x (statusWord code detail)) ∧
        (∀ u : State, roundStatus ms = none → (∃ x ∈ l, x.ownRun s.endpoint = none) →
          runParties ms s0 (sortBy (·.die) l) = .ok u → ∃ t, exec e s = .next t ∧ t.v = u.v ∧ t.mem = u.mem) ∧
        (roundStatus ms = none → (∀ x ∈ l, ∃ y, x.ownRun s.endpoint = some y) →
          let rs := s0.runs l
          let ran := ∀ p ∈ partiesOf k ms, ∃ y ∈ rs, msgPlace y = p
          (¬ran → exec e s = .next s0) ∧
          (ran → ∀ y, rs.find? (fun y => y.rcode != 0) = some y →
            ∃ t, exec e s = .next t ∧ t.v = s.v ∧ t.mem = s.mem ∧ ∀ x ∈ l, ended t x (statusWord y.rcode y.rdetail)) ∧
          (ran → (∀ y ∈ rs, y.rcode = 0) →
            ∃ t, exec e s = .next t ∧ t.v = s.v ∧ t.mem = s.mem ∧ ∀ x ∈ l, ended t x 0 ∧
              (x.settled = false → (t.command x.die x.handle).map (·.shadow) = some x.shadow))))) ∧
    (∀ x rest, missing k (s.messages (s.members c)) = x :: rest →
      ∃ t, exec (.meshCollectiveTimeout die h) s = .next t ∧ t.v = s.v ∧ t.mem = s.mem ∧
        ∀ y ∈ s.members c, ended t y (statusWord 11 (x.1 * 8 + x.2)))

/-- What the mesh engines compute: a refined or built topology is balanced (R248), with no face neighbours more than a level
apart; a colouring gives every record a colour, and no two records of one colour touch a cell (R253); a cut gives each leaf a
part of its list, parts following the curve (R254). -/
def Claim.MeshResults : Prop :=
  (∀ (m : Mesh) (l t : List Leaf), m.maxlev ≤ 15 → (∀ a ∈ l, a.path.length ≤ 15) → m.closure l = some t →
    ∀ a ∈ t, ∀ b ∈ faceNeighbours m.coarse t a, b.path.length ≤ a.path.length + 1) ∧
  (∀ l : List FaceRec, (colourAll l).map (·.1) = l ∧
    (colourAll l).Pairwise fun x y => x.2 = y.2 → ∀ c ∈ x.1.touches, c ∉ y.1.touches) ∧
  (∀ (k w : Nat) (l : List (Leaf × Nat)), 0 < k →
    (cutParts k w 0 l).map (·.1) = l.map (·.1) ∧ (∀ x ∈ cutParts k w 0 l, x.2 < k) ∧
      (cutParts k w 0 l).Pairwise fun x y => x.2 ≤ y.2)

/-! ## Wick -/

/-- WQPOST with VL 0 only completes. Otherwise, its query captured, it takes the lowest free slot and a fresh sequence number for a
tag (bit 63, the sequence number in bits 47:4, the slot in bits 3:0), gives its sub-queries to their stacks and completes
(R264, R265); it waits while a stack holds 1024 unfinished sub-queries (R274), and goes on as WQPOST when there is room. -/
def Claim.QueriesArePosted : Prop :=
  ∀ (s : State) (d : SReg) (a : VReg) (b : SReg), decodeStop (.wqpost d a b) s = none → s.smooth = true →
    let i := Instr.wqpost d a b
    let full (l : List SubQuery) (u : State) := ∃ q ∈ l, q.triple = none ∧ 1024 ≤ u.stackLoad q.stack
    let posted (l : List SubQuery) (u t : State) (slot : Nat) :=
      let tag := BitVec.ofNat 64 (2 ^ 63 + u.v.wickSeq % 2 ^ 44 * 16 + slot)
      t.v.wickTags = u.v.wickTags.setIfInBounds slot tag ∧ t.v.wickSeq = (u.v.wickSeq + 1) % 2 ^ 44 ∧
        (d ≠ 0 → t.rd d = tag) ∧ (∀ r, r ≠ d → t.rd r = u.rd r) ∧ t.v.vregs = u.v.vregs ∧ t.mem = u.mem ∧
        t.v.pc = u.v.pc + 4 ∧ t.v.status = .runnable ∧ t.v.vstart = 0 ∧
        t.subqueries = u.subqueries ++ l.map fun q => { q with slot := slot, seq := u.v.wickSeq }
    (s.v.vl = 0 → exec i s = .next ((s.setV fun v => { v with vstart := 0, tilepos := 0 }).past i)) ∧
    (∀ e, s.v.vl ≠ 0 → postCapture a b s = .error e → exec i s = .next (s.raise i e)) ∧
    (∀ l u, s.v.vl ≠ 0 → postCapture a b s = .ok (l, u) →
      u.v = { s.v with spin := u.v.spin } ∧ (∃ slot, s.v.freeTag = some slot) ∧
      (full l u → u.smooth = true → exec i s = .next (u.setV fun v => { v with queuedQ := l, status := .blocked i })) ∧
      (¬full l u → u.smooth = true → ∀ slot, s.v.freeTag = some slot → ∃ t, exec i s = .next t ∧ posted l u t slot)) ∧
    (s.v.status = .blocked i → s.v.frozen = false → s.v.queuedQ ≠ [] → ¬full s.v.queuedQ s →
      ∀ slot, s.v.freeTag = some slot → ∃ t, exec (.wqpostResume s.v.core s.v.slot) s = .next t ∧ posted s.v.queuedQ s t slot) ∧
    (∀ slot, s.v.freeTag = some slot → slot < 16 ∧ s.v.wickTags.toList.getD slot 1 = 0 ∧
      ∀ k, k < slot → s.v.wickTags.toList.getD k 0 ≠ 0)

/-- A tag's sub-queries go to the stacks that hold its blocks, each with the blocks of its own stack; each block of a run is
translated, wick, and of this package (R264). A query over no token has the one triple of R268. -/
def Claim.SubQueriesFollowTheirStacks : Prop :=
  (∀ (s : State) (r : RunRec) (n : Nat) (query : List (BitVec 16)) (l : List PostBlock), l ≠ [] →
    (∀ b ∈ l, stackOf b.pa < 16) →
    (∀ b ∈ l, ∃ q ∈ s.subQueries r n query l, q.stack = stackOf b.pa ∧ (b.b, b.pa) ∈ q.blocks) ∧
    (∀ q ∈ s.subQueries r n query l, q.blocks = (l.filter fun b => stackOf b.pa == q.stack).map (fun b => (b.b, b.pa)) ∧
      q.blocks ≠ [] ∧ q.n = n ∧ q.query = query ∧ q.triple = none ∧
      (q.last = true ↔ ∀ p ∈ s.subQueries r n query l, p.stack ≤ q.stack))) ∧
  (∀ (s : State) (r : RunRec) (n : Nat) (query : List (BitVec 16)), ∃ q, s.subQueries r n query [] = [q] ∧ q.last = true ∧
    ∃ t, q.triple = some t ∧ t.m = 0xFF800000 ∧ t.l = 0 ∧ t.acc = List.replicate r.d 0 ∧ t.status = 0x4000000000000000) ∧
  ∀ (s u : State) (btab : Word) (b n : Nat) (l : List PostBlock), s.postBlocks btab b n = .ok (l, u) →
    l.map (·.b) = (List.range n).map (b + ·) ∧ u.v = s.v ∧ ∀ x ∈ l, epOf x.pa = s.endpoint ∧ windowOf x.pa = 0

/-- A bank under refresh scans nothing (R273). Otherwise its unit reads the pairs of the next row of the first sub-query that has
tokens unread there (R266, R274), leaves memory and the VLC's registers alone, and, when that was the last row of the last
bank, makes the stack's triple due, which is the combination of its banks' triples in ascending order (R267). -/
def Claim.BanksScanTheirRows : Prop :=
  ∀ (s : State) (stack bank : Nat),
    (s.bankBusy stack bank = true → exec (.wickScanRow stack bank) s = .next s) ∧
    (∀ q, s.bankBusy stack bank = false →
      s.subqueries.find? (fun q => q.stack == stack && !(q.unread bank).isEmpty) = some q →
      ∃ t, exec (.wickScanRow stack bank) s = .next t ∧ t.v = s.v ∧ t.mem = s.mem ∧
        t.subqueries = s.subqueries.map (fun x => if x.same q then
          { q with got := q.got ++ s.readRow (pairBytes q.d q.rowt) (sameRow (q.unread bank)) } else x)) ∧
    (∀ (n : Nat) (l : List (Nat × Nat)), ∀ x ∈ s.readRow n l, ∃ pa, (x.1, pa) ∈ l ∧ x.2.1 = s.mem.bytes (pa % 2 ^ 43) n ∧
      x.2.2 = s.pairBad pa n) ∧
    (∀ (q : SubQuery) (launch rank slot seq : Nat),
      s.subqueries.find? (fun q => q.stack == stack && q.launch == launch && q.rank == rank && q.slot == slot && q.seq == seq)
        = some q →
      q.triple = none → q.scanned = true →
      ∃ t, exec (.wickSubqueryEnd stack launch rank slot seq) s = .next t ∧ t.v = s.v ∧ t.mem = s.mem ∧
        t.subqueries = s.subqueries.map fun x => if x.same q then { x with triple := (s.stackTriple q).1, got := [] } else x) ∧
    ∀ (q : SubQuery) (k : Nat) (rest : List Nat), q.banks = k :: rest →
      (s.stackTriple q).1.isSome = true ∧ q.banks.Pairwise (· < ·) ∧ ∀ b ∈ q.blocks, wickBank b.2 ∈ q.banks

/-- Combining a triple with an empty one gives the triple itself, and the count of tokens of a combination is the sum of the
counts (R269). -/
def Claim.EmptyTriplesAreNeutral : Prop :=
  ∀ (a b : Triple), a.acc.length = b.acc.length →
    let nan := mixNan a.m.toNat a.l.toNat b.m.toNat b.l.toNat a.status b.status
    (nan = false → stEmpty b.status = true → stEmpty a.status = false →
      (a.mix b).m = a.m ∧ (a.mix b).l = a.l ∧ (a.mix b).acc = a.acc) ∧
    (nan = false → stEmpty a.status = true →
      (a.mix b).m = b.m ∧ (a.mix b).l = b.l ∧ (a.mix b).acc = b.acc) ∧
    (nan = true → (a.mix b).m = 0x7FC00000 ∧ (a.mix b).l = 0x7FC00000 ∧ (a.mix b).acc = List.replicate a.acc.length 0x7FC00000) ∧
    ((a.mix b).status.extractLsb' 0 21 = a.status.extractLsb' 0 21 + b.status.extractLsb' 0 21) ∧
    (stEmpty (a.mix b).status = (stEmpty a.status && stEmpty b.status)) ∧
    (stPoison (a.mix b).status = (stPoison a.status || stPoison b.status)) ∧ stNan (a.mix b).status = nan

/-- WQRECV of a tag the VLC holds delivers the triple of its lowest stack still undelivered: the maximum, the sum and the status
to three scalars, bit 63 of the status saying that it is the last, the accumulator to its vector register; the last one frees
the tag. It waits for a triple that is not ready; a tag the VLC does not hold raises WICK 5 (R268, R275). -/
def Claim.TriplesAreReceived : Prop :=
  ∀ (s : State) (d : VReg) (a b : SReg), Instr.wf (.wqrecv d a b) = true → decodeStop (.wqrecv d a b) s = none → s.smooth = true →
    let i := Instr.wqrecv d a b
    (s.v.vl = 0 → exec i s = .next ((s.setV fun v => { v with vstart := 0, tilepos := 0 }).past i)) ∧
    (s.v.vl ≠ 0 → (s.rd a = 0 ∨ s.rd a ∉ s.v.wickTags.toList) → exec i s = .next (s.trapHere .wick 5 (s.rd a) none)) ∧
    (∀ q, s.v.vl ≠ 0 → s.rd a ≠ 0 → s.rd a ∈ s.v.wickTags.toList → s.nextTriple (s.rd a) = some q →
      ((s.v.vl ≠ q.d ∨ s.v.wickFits = false) → exec i s = .next (s.trapHere .wick 3 (s.rd a) none)) ∧
      (s.v.vl = q.d → s.v.wickFits = true → q.triple = none →
        exec i s = .next (s.setV fun v => { v with status := .blocked i })) ∧
      (∀ t, s.v.vl = q.d → s.v.wickFits = true → q.triple = some t → t.acc.length = q.d → q.d ≤ 256 →
        s.v.vl * 32 ≤ 64 * s.v.mvl64 → s.v.mvl64 ≤ 4096 → d.toNat < 8 * (s.v.declHeld.toNat + 1) →
        ∃ u, exec i s = .next u ∧ u.v.pc = s.v.pc + 4 ∧ u.v.vstart = 0 ∧ u.mem = s.mem ∧
          (b ≠ 0 → u.rd b = t.m.setWidth 64) ∧ u.rd (b + 1) = t.l.setWidth 64 ∧
          u.rd (b + 2) = t.status ||| (if q.last then 0x8000000000000000 else 0) ∧
          (∀ r, r ≠ b → r ≠ b + 1 → r ≠ b + 2 → u.rd r = s.rd r) ∧
          (∀ k, k < q.d → u.v.element .f32 d k = (t.acc.getD k 0).toNat) ∧
          (stPoison t.status = true → u.v.fsrPoison = true ∧ ∀ k, k < q.d → (u.v.vregs[d.toNat]).poison.getLsbD (k / 2) = true) ∧
          (q.last = true → s.rd a ∉ u.v.wickTags.toList) ∧ (q.last = false → u.v.wickTags = s.v.wickTags) ∧
          u.subqueries = s.subqueries.filter fun x => !x.same q))

/-- WKVAPP with VL 0 only completes; with a run record whose LEN is t, t below its capacity, it writes the pair of R261 at token
t's place and LEN becomes t + 1 (R271). The pair holds the key row, the value row and, for FP8 rows, their scales. -/
def Claim.PairsAreAppended : Prop :=
  ∀ (s : State) (k : VReg) (a : SReg) (v : VReg), decodeStop (.wkvapp k a v) s = none →
    let i := Instr.wkvapp k a v
    (s.v.vl = 0 → s.smooth = true → exec i s = .next ((s.setV fun v => { v with vstart := 0, tilepos := 0 }).past i)) ∧
    (∀ (r : RunRec) (h : Append) (s1 s2 s3 : State) (x : Nat), s.v.vl ≠ 0 → s.v.append = none →
      s.readRun (s.rd a) = .ok (r, s1) → s.v.vl = r.d + (if rowBytes r.rowt = 1 then 1 else 0) →
      appendOf (s.rd a) r k v s1 = .ok (h, s2) →
      s2.rmw s1.party (.mem (s.rd a + 0x10) 8 .rmw 0) (atomicKey 0 0) (.cas 8 h.token (h.token + 1))
        (fun x => if x = h.token then h.token + 1 else x) = .ok (x, s3) → (s3.storePair h).smooth = true →
      exec i s = .next (((s3.storePair h).setV fun v => { v with vstart := 0, tilepos := 0 }).past i)) ∧
    (∀ (r : RunRec) (l : List Byte), s.pairOf r k v = .ok l → 16 ≤ r.d → r.d ≤ 256 →
      (s.v.vregs[k.toNat]).poison = 0 → (s.v.vregs[v.toNat]).poison = 0 →
      let w := rowBytes r.rowt
      8 * w * (r.d + 1) ≤ 64 * s.v.mvl64 → s.v.mvl64 ≤ 4096 →
      l.length = pairBytes r.d r.rowt ∧ 2 * r.d * w ≤ l.length ∧
        (∀ j, j < r.d → field l (j * w) w = s.v.element (rowType r.rowt) k j ∧
          field l ((r.d + j) * w) w = s.v.element (rowType r.rowt) v j) ∧
        (w = 1 → field l (2 * r.d) 1 = s.v.element (rowType r.rowt) k r.d ∧
          field l (2 * r.d + 1) 1 = s.v.element (rowType r.rowt) v r.d))

/-- WQPOST of a run whose record, block table and blocks nothing stops, with a query that is not poisoned, a free slot and room in every
stack, completes with its tag in rd (R264, R265, R274). WKVAPP of a run with room, whose record, table and block nothing stops, of rows
that are not poisoned, completes (R271): its pair lies in the token's place, LEN is one more, and no other byte of DRAM changes. -/
def Claim.WickInstructionsFinish : Prop :=
  ∀ (s : State) (at_ : Word) (b : List Byte), s.smooth = true → s.v.spin.demoted = false → at_.toNat % 64 = 0 →
    s.openWords s.party at_ 8 = some b → runOk b = true →
    let r := RunRec.of b
    let bytes := if r.rowt = 0x0B then 2 else 1
    let n := 32 * ((2 * r.d * bytes + (if bytes = 1 then 2 else 0) + 31) / 32)
    (∀ (d : SReg) (a : VReg) (c : SReg) (slot : Nat),
      let i := Instr.wqpost d a c
      let tokens := (s.rd (c + 1)).toNat
      s.rd c = at_ → decodeStop i s = none → s.v.vl = r.d → s.v.wickFits = true → tokens ≤ 64 * r.nblk → s.v.freeTag = some slot →
      (∀ k, k < (tokens + 63) / 64 → ∃ x, s.openWord s.party (r.btab + BitVec.ofNat 64 (8 * k)) = some x ∧
        (s.wickSpot (.mem (BitVec.ofNat 64 x) 1 .load 0) (BitVec.ofNat 64 x)).isSome = true) →
      s.v.vl * 16 ≤ 64 * s.v.mvl64 → s.v.mvl64 ≤ 4096 → (s.v.vregs[a.toNat]).poison = 0 → (∀ k, s.stackLoad k < 1024) →
      let tag := BitVec.ofNat 64 (2 ^ 63 + s.v.wickSeq % 2 ^ 44 * 16 + slot)
      ∃ t, exec i s = .next t ∧ t.v.pc = s.v.pc + 4 ∧ t.v.status = .runnable ∧ (d ≠ 0 → t.rd d = tag) ∧
        (∀ q, q ≠ d → t.rd q = s.rd q) ∧ t.v.wickTags = s.v.wickTags.setIfInBounds slot tag ∧ t.v.vregs = s.v.vregs ∧ t.mem = s.mem ∧
        s.subqueries <+: t.subqueries ∧ (∃ q ∈ t.subqueries.drop s.subqueries.length, q.last = true) ∧
        ∀ q ∈ t.subqueries.drop s.subqueries.length, q.slot = slot ∧ q.seq = s.v.wickSeq ∧ q.n = tokens) ∧
    ∀ (k : VReg) (a : SReg) (v : VReg) (len block at8 pa : Nat) (l : List Byte),
      let i := Instr.wkvapp k a v
      s.rd a = at_ → decodeStop i s = none → s.v.append = none → s.v.remoteData = [] → s.v.vl = r.d + (if bytes = 1 then 1 else 0) →
      s.openWord s.party (at_ + 0x10) = some len → len < 64 * r.nblk →
      s.openWord s.party (r.btab + BitVec.ofNat 64 (8 * (len / 64))) = some block →
      s.wickSpot (.mem (BitVec.ofNat 64 block + BitVec.ofNat 64 (len % 64 * n)) n .store 0) (BitVec.ofNat 64 block) = some pa →
      s.pairOf r k v = .ok l → s.direct s.party (.mem (at_ + 0x10) 8 .rmw 0) = some at8 → s.poisoned at8 = false → s.mem.wf = true →
      ∃ t, exec i s = .next t ∧ t.v.pc = s.v.pc + 4 ∧ t.v.status = .runnable ∧ t.v.sregs = s.v.sregs ∧ t.v.vregs = s.v.vregs ∧
        (dramKey at8 + 8 ≤ dramKey pa ∨ dramKey pa + n ≤ dramKey at8 →
          t.mem.read (dramKey at8) 8 = len + 1 ∧ t.mem.bytes (dramKey pa) n = l) ∧
        ∀ c, c < dramKey at8 ∨ dramKey at8 + 8 ≤ c → c < dramKey pa ∨ dramKey pa + n ≤ c → t.mem.byte c = s.mem.byte c

/-- WCOMB combines two triples as R269 does: the maxima, sums and status words of its six scalars, and the accumulators of its two
registers element by element; each result replaces the first operand's. With VL 0 it only completes. -/
def Claim.TriplesAreCombined : Prop :=
  ∀ (s : State) (d a : VReg) (b : SReg), Instr.wf (.wcomb d a b) = true → decodeStop (.wcomb d a b) s = none → s.smooth = true →
    let i := Instr.wcomb d a b
    let m1 := (s.rd b).toNat % 2 ^ 32
    let l1 := (s.rd (b + 1)).toNat % 2 ^ 32
    let st1 := s.rd (b + 2)
    let m2 := (s.rd (b + 3)).toNat % 2 ^ 32
    let l2 := (s.rd (b + 4)).toNat % 2 ^ 32
    let st2 := s.rd (b + 5)
    let x : Triple := { m := BitVec.ofNat 32 m1, l := BitVec.ofNat 32 l1, status := st1,
                        acc := (List.range s.v.vl).map fun k => BitVec.ofNat 32 (s.v.element .f32 d k) }
    let y : Triple := { m := BitVec.ofNat 32 m2, l := BitVec.ofNat 32 l2, status := st2,
                        acc := (List.range s.v.vl).map fun k => BitVec.ofNat 32 (s.v.element .f32 a k) }
    (s.v.vl = 0 → exec i s = .next ((s.setV fun v => { v with vstart := 0, tilepos := 0 }).past i)) ∧
    (s.v.vl ≠ 0 → s.v.wickFits = false → exec i s = .next (s.trapHere .wick 3 0 none)) ∧
    (s.v.vl ≠ 0 → s.v.wickFits = true → s.v.vstart = 0 → s.v.vl ≤ 8192 → s.v.vl * 32 ≤ 64 * s.v.mvl64 → s.v.mvl64 ≤ 4096 →
      d.toNat < 8 * (s.v.declHeld.toNat + 1) →
      ∃ u, exec i s = .next u ∧ u.v.pc = s.v.pc + 4 ∧ u.v.vstart = 0 ∧ u.mem = s.mem ∧
        (b ≠ 0 → u.rd b = (x.mix y).m.setWidth 64) ∧ u.rd (b + 1) = (x.mix y).l.setWidth 64 ∧ u.rd (b + 2) = (x.mix y).status ∧
        (∀ r, r ≠ b → r ≠ b + 1 → r ≠ b + 2 → u.rd r = s.rd r) ∧
        ∀ k, k < s.v.vl → u.v.element .f32 d k = ((x.mix y).acc.getD k 0).toNat)

/-! ## The fabric -/

/-- FPUT and FGET capture their descriptor, take a handle, join their die's transfers and complete; the transfer runs in a step of
its own (R356), and reads its source after the stores before it, which the issue waits for (R192). With 64 unfinished transfers on
its die the VLC waits with its transfer captured, and issues it when there is room. -/
def Claim.TransfersAreIssued : Prop :=
  ∀ (s : State) (d a : SReg) (put : Bool), s.smooth = true →
    let i := if put then Instr.fput d a else Instr.fget d a
    let after_ (u : State) (t : Transfer) := (State.wr { u with
      nextHandle := u.nextHandle + 1, transfers := u.transfers ++ [{ t with handle := u.nextHandle }],
      events := u.events ++ [.transferEnd t.die u.nextHandle] } d (BitVec.ofNat 64 u.nextHandle)).past i
    (s.v.stores ≠ [] → exec i s = .next (s.setV fun v => { v with status := .draining i })) ∧
    (s.v.stores = [] →
      ((s.rd a).toNat % 32 ≠ 0 → exec i s = .next (s.trapHere .align 0 (untag (s.rd a)) none)) ∧
      (∀ e, transferCapture put a s = .error e → exec i s = .next (s.raise i e)) ∧
      (∀ (t : Transfer) (u : State), transferCapture put a s = .ok (t, u) →
        u.v = { s.v with spin := u.v.spin } ∧ t.die = s.v.core / 128 ∧ t.put = put ∧ t.launch = s.v.launch ∧ t.status = none ∧
        t.bytes % 8 = 0 ∧ 8 ≤ t.bytes ∧ t.bytes ≤ 2 ^ 32 ∧ t.dst.toNat % 8 = 0 ∧ t.src.toNat % 8 = 0 ∧
        (u.unfinishedTransfers t.die < 64 → u.smooth = true → exec i s = .next (after_ u t)) ∧
        (64 ≤ u.unfinishedTransfers t.die → u.smooth = true →
          exec i s = .next (u.setV fun v => { v with queuedT := some t, status := .blocked i })))) ∧
    (∀ t : Transfer, s.v.status = .blocked i → s.v.queuedT = some t → s.v.frozen = false → s.unfinishedTransfers t.die < 64 →
      exec (.transferIssueResume s.v.core s.v.slot) s = .next (after_ s t))

/-- A transfer ends with status 0 when every unit has moved, or with the status of the first that stops, the units before it moved
(R356). A unit moved between two places of this package's DRAM stored in the clear gives the destination the source's eight
bytes, and changes no other byte but the leaves' A and D bytes. -/
def Claim.TransfersMoveUnits : Prop :=
  (∀ (s : State) (die h : Nat) (t : Transfer),
    s.transfers.find? (fun t => t.die == die && t.handle == h && t.status.isNone) = some t →
    (s.frozenCtx t.ctx = true → exec (.transferEnd die h) s = .next (s.holdStep t.ctx (.transferEnd die h))) ∧
    (s.frozenCtx t.ctx = false →
      (∀ u, s.moveUnits t 0 (t.bytes / 8) = (u, none) →
        ∃ w, exec (.transferEnd die h) s = .next w ∧ w.v = u.v ∧ w.mem = u.mem ∧
          w.transfers = u.transfers.map fun k => if k.die == t.die && k.handle == t.handle then { k with status := some 0 } else k) ∧
      (∀ u c x, s.moveUnits t 0 (t.bytes / 8) = (u, some (.code c x)) →
        ∃ w, exec (.transferEnd die h) s = .next w ∧ w.v = u.v ∧ w.mem = u.mem ∧
          w.transfers = u.transfers.map fun k =>
            if k.die == t.die && k.handle == t.handle then { k with status := some (statusWord c x) } else k))) ∧
  ∀ (s : State) (t : Transfer) (k : Nat) (r w : Ref) (u : State),
    s.resolve t.party (.mem (t.src + BitVec.ofNat 64 (8 * k)) 8 .load k) = .ok r → epOf r.pa = s.endpoint → r.e.bit 11 = false →
    s.poisoned r.pa = false → s.loadRef t.party (.mem (t.src + BitVec.ofNat 64 (8 * k)) 8 .load k) r = .ok (s.mem.read (r.pa % 2 ^ 43) 8, u) →
    u.resolve t.party (.mem (t.dst + BitVec.ofNat 64 (8 * k)) 8 .store k) = .ok w → epOf w.pa = s.endpoint → w.e.bit 11 = false →
    s.answer t.party (transferKey k) = none →
    ∃ x, s.moveUnit t k = .ok x ∧ x.v = s.v ∧ x.mem.read (w.pa % 2 ^ 43) 8 = s.mem.read (r.pa % 2 ^ 43) 8 ∧
      ∀ b, b ≠ r.e.addr % 2 ^ 43 → b ≠ w.e.addr % 2 ^ 43 → (b < w.pa % 2 ^ 43 ∨ w.pa % 2 ^ 43 + 8 ≤ b) → x.mem.byte b = s.mem.byte b

/-- FPUT and FGET of a descriptor that may be read and that R356 allows complete where their die has room: the transfer joins its die's, its
handle goes to rd (R192, R356). A transfer between places of this package's DRAM that nothing stops ends with status 0, and no byte
outside its destination changes; no carry check may be pending (R286), and no answer of another endpoint be kept for it. -/
def Claim.TransfersFinish : Prop :=
  (∀ (s : State) (d a : SReg) (put : Bool) (r : List Byte), s.smooth = true → s.v.stores = [] → s.v.spin.demoted = false →
    let i := if put then Instr.fput d a else Instr.fget d a
    let die := s.v.core / 128
    (s.rd a).toNat % 32 = 0 → s.openWords s.party (s.rd a) 4 = some r → transferOk r = true → s.unfinishedTransfers die < 64 →
    ∃ u : State, s.counted u ∧ exec i s = .next ((State.wr { u with
      nextHandle := s.nextHandle + 1, transfers := s.transfers ++ [{ s.newTransfer put r with handle := s.nextHandle }],
      events := s.events ++ [.transferEnd die s.nextHandle] } d (BitVec.ofNat 64 s.nextHandle)).past i)) ∧
  ∀ (s : State) (die h : Nat) (t : Transfer),
    s.transfers.find? (fun t => t.die == die && t.handle == h && t.status.isNone) = some t → s.frozenCtx t.ctx = false →
    s.engineData = [] → s.mem.checks = [] → s.mem.wf = true →
    (∀ k, k < t.bytes / 8 → s.opens t.party .load (t.src + BitVec.ofNat 64 (8 * k)) 8 ∧
      s.opens t.party .store (t.dst + BitVec.ofNat 64 (8 * k)) 8) →
    ∃ w, exec (.transferEnd die h) s = .next w ∧ w.v = s.v ∧
      w.transfers = s.transfers.map (fun k => if k.die == t.die && k.handle == t.handle then { k with status := some 0 } else k) ∧
      ∀ c, (∀ k pa, k < t.bytes / 8 → s.direct t.party (.mem (t.dst + BitVec.ofNat 64 (8 * k)) 8 .store 0) = some pa →
        c < dramKey pa ∨ dramKey pa + 8 ≤ c) → w.mem.byte c = s.mem.byte c

/-- A request of another endpoint for DRAM stored in the clear is answered with the bytes there, or as poisoned when it reads
poisoned bytes; a write or an atomic then replaces them, and no other byte changes (R354). A write of more than 8 bytes is answered
without data. One for an address of another endpoint is no concern of this package. One that came through a leaf whose granule is
not the region's is answered PROT GRANULE and changes nothing (R283). -/
def Claim.RemoteRequestsAreAnswered : Prop :=
  ∀ (s : State) (ep id pa : Nat) (op : RemoteOp),
    let n := remoteBytes op
    (epOf pa ≠ s.endpoint → ∀ leaf, exec (.remoteRequest ep id pa leaf op) s = .next s) ∧
    (epOf pa = s.endpoint → windowOf pa = 0 →
      (remoteReads op = true → s.poisoned pa = true →
        ∃ t, exec (.remoteRequest ep id pa none op) s = .next t ∧ t.mem = s.mem ∧ t.v = s.v ∧
          t.outbox = s.outbox ++ [.response ep id .poisoned]) ∧
      (remoteReads op = false ∨ s.poisoned pa = false → remoteReads op = true ∨ remoteWrites op = true →
        ∃ t, exec (.remoteRequest ep id pa none op) s = .next t ∧ t.v = s.v ∧
          t.outbox = s.outbox ++ [.response ep id (.data
            (if remoteWrites op = true ∧ 8 < n then 0 else s.mem.read (pa % 2 ^ 43) n))] ∧
          t.mem.read (pa % 2 ^ 43) n = (if remoteWrites op then remoteNew op (s.mem.read (pa % 2 ^ 43) n) % 256 ^ n
            else s.mem.read (pa % 2 ^ 43) n) ∧
          ∀ b, b < pa % 2 ^ 43 ∨ pa % 2 ^ 43 + n ≤ b → t.mem.byte b = s.mem.byte b) ∧
      (∀ l : LeafUse, l.gr ≠ (s.region pa).gr.toNat →
        exec (.remoteRequest ep id pa (some l) op) s
          = .next { s with outbox := s.outbox ++ [.response ep id (.prot 3)] }))

/-- The answer to the one request a VLC awaits lets its instruction go on with the answer at hand, and a fetch be made again (R354);
an answer to a store ends it, and a time-out leaves FABRIC, naming the silent endpoint, for its VLC's boundary (R355). A load or
atomic that timed out takes FABRIC where it waits. -/
def Claim.AnswersArrive : Prop :=
  ∀ (s : State) (id key ep : Nat) (ans : RemoteAns), s.v.frozen = false → s.engineWaits = [] → s.orphans = [] → s.jobs = [] →
    (∀ v ∈ s.parked, (∀ w ∈ v.stores, w.id ≠ id) ∧ v.awaited = [] ∧ v.lateFabric = none) →
    (∀ i, s.v.status = .blocked i → s.v.awaited = [(id, key)] → (∀ w ∈ s.v.stores, w.id ≠ id) →
      let t (ans : RemoteAns) := s.setV fun v =>
        { v with status := if i = fetching then .runnable else .again i, awaited := [], remoteData := v.remoteData ++ [(key, ans)] }
      (∃ u, exec (.remoteResponse id ans) s = .next u ∧ u.v = (t ans).v ∧ u.mem = s.mem) ∧
      (s.v.lateFabric = none → s.sentTo id = some ep → ∃ u, exec (.fabricTimeout id) s = .next u ∧ u.v = (t (.silent ep)).v ∧ u.mem = s.mem)) ∧
    (∀ w : Posted, s.v.status = .runnable → s.v.awaited = [] → s.v.stores = [w] → w.id = id →
      (∃ u, exec (.remoteResponse id ans) s = .next u ∧ u.v = { s.v with stores := [] } ∧ u.mem = s.mem) ∧
      (s.v.lateFabric = none → s.sentTo id = some ep →
        ∃ u, exec (.fabricTimeout id) s = .next u ∧ u.v = { s.v with stores := [], lateFabric := some ep } ∧ u.mem = s.mem)) ∧
    (∀ (p : Party) (pa : Nat) (op : RemoteOp) (m : Nat) (a : Word), s.answers (epOf pa) = true →
      s.answer p key = some (.silent ep) → s.remoteGet p key pa op m a = .error (.plain .fabric 0 (BitVec.ofNat 64 (ep % 8192))))

/-- A plane that fails is up no more and the others stay as they were; no line is carried by it any more, and a request for a line
whose packets it held up waits for them (R351). The Beacon's synchronisation never moves it back (R358). -/
def Claim.PlanesAndBeacon : Prop :=
  ∀ (s : State) (p : Nat) (t : BitVec 64), p < 18 →
    (∃ u, exec (.planeFailure p) s = .next u ∧ u = { s with planes := u.planes, heldLines := s.heldLines ++ s.onPlane p } ∧
      (∀ k, k < 18 → u.planes.getLsbD k = (s.planes.getLsbD k && k != p)) ∧ (∀ line, u.planeOf line ≠ some p) ∧
      ∀ ep pa op, (∃ x ∈ s.onPlane p, x.2 = lineOf pa) → (u.inject ep pa op).outbox = u.outbox) ∧
    exec (.beaconSync t) s = .next { s with beacon := BitVec.ofNat 64 (max s.beacon.toNat t.toNat) }

/-! ## Rings -/

/-- CRING captures its record and checks it and the ring it replaces (R361). A code of 3 or 5 completes it at once; otherwise it
arrives at the formation of its RINGID, tells the other members, and waits. One that executes again waits on its standing
arrival, or receives what the formation ended in. -/
def Claim.RingsAreJoined : Prop :=
  ∀ (s : State) (d a b : SReg), decodeStop (.cring d a b) s = none →
    let i := Instr.cring d a b
    let waits (u t : State) := t.v = { u.v with status := .blocked i } ∧ t.mem = u.mem ∧ t.rings = u.rings
    ((s.rd a).toNat % 64 ≠ 0 → exec i s = .next (s.trapHere .align 0 (untag (s.rd a)) none)) ∧
    (∀ e, s.ringRecord (s.rd a) = .error e → exec i s = .next (s.raise i e)) ∧
    (∀ r u, s.ringRecord (s.rd a) = .ok (r, u) → u.smooth = true →
      let id := field r 0 2
      let code := u.ringCode id (recordEps r) none
      1 ≤ id ∧ 2 ≤ (recordEps r).length ∧ (recordEps r).length ≤ 8192 ∧
      (s.rd b ≠ 0 → u.ownWait id = none → u.ringOf (s.rd b) = none → exec i s = .next (u.trapHere .prot 0 (s.rd b) none)) ∧
      (s.rd b = 0 → u.ownWait id = none →
        (code ≠ 0 → exec i s = .next ((u.wr d (BitVec.ofNat 64 code)).past i)) ∧
        (code = 0 → ∃ t, exec i s = .next t ∧ waits u t ∧ t.outbox = u.outbox ++ [.ringIssue id r] ∧
          ∃ w ∈ t.ringWaits, w.id = id ∧ w.launch = s.v.launch ∧ w.rank = s.v.rank.toNat ∧ w.waiting = true ∧ w.record = r ∧
            w.eps = recordEps r ∧ w.outcome = none) ∧
        (u.endpoint ∉ recordEps r → code = 3) ∧ ((∃ x ∈ u.rings, x.id = id) → code = 3 ∨ code = 5)) ∧
      (∀ w, u.ownWait id = some w →
        (∀ x, w.outcome = some x → exec i s = .next (((u.dropWait id).wr d x).past i)) ∧
        (w.outcome = none → s.rd b = 0 → ∃ t, exec i s = .next t ∧ waits u t)))

/-- CRING of a record that may be read and that Table 3 allows, with no old ring, completes with its code where the ring cannot form, and
waits for the formation otherwise; executed again after the formation it completes with its outcome (R361). COLL in a live ring with a
valid descriptor takes part in a new round, SRC captured, where nothing stops its pages; in a round of its own that has completed it
completes with the round's handle (R363). -/
def Claim.RingInstructionsFinish : Prop :=
  ∀ (s : State) (d a b : SReg), s.smooth = true → s.v.spin.demoted = false → (s.rd a).toNat % 64 = 0 →
    (∀ h l : List Byte,
      let i := Instr.cring d a b
      let k := field h 2 2
      let r := (h ++ l).take (16 + 2 * k)
      let id := field r 0 2
      s.openWords s.party (s.rd a) 2 = some h → ringHeadOk h = true →
      s.openWords s.party (s.rd a + 16) ((k + 3) / 4) = some l → (∀ e ∈ recordEps r, e < 8192) →
      (∀ w x, s.ownWait id = some w → w.outcome = some x →
        ∃ u : State, s.counted u ∧ exec i s = .next (((u.dropWait id).wr d x).past i)) ∧
      (s.rd b = 0 → s.ownWait id = none →
        let code := s.ringCode id (recordEps r) none
        (code ≠ 0 → ∃ u : State, s.counted u ∧ exec i s = .next ((u.wr d (BitVec.ofNat 64 code)).past i)) ∧
        (code = 0 → ∃ t, exec i s = .next t ∧ t.v = { s.v with status := .blocked i } ∧ t.outbox = s.outbox ++ [.ringIssue id r] ∧
          ∃ w ∈ t.ringWaits, w.id = id ∧ w.launch = s.v.launch ∧ w.rank = s.v.rank.toNat ∧ w.record = r ∧ w.outcome = none))) ∧
    ∀ (l : List Byte) (r : Ring) (t : VType),
      let i := Instr.coll d a b
      let n := field l 0x10 8
      let m := resultCount (field l 0x20 1) r.eps.length n
      let w := t.width / 8
      s.openWords s.party (s.rd a) 8 = some l → s.ringOf (s.rd b) = some r → collType (field l 0x22 1) = some t →
      collOk l r.eps.length t = true →
      (∀ x, r.round = some x → x.launch = s.v.launch → x.rank = s.v.rank.toNat → x.done = some .complete →
        ∃ u : State, s.counted u ∧
          exec i s = .next (((u.setRing r.slot fun y => { y with round := none }).wr d (roundHandle r.slot x.seq)).past i)) ∧
      (r.round = none → r.broken = false → s.v.stores = [] → (∀ y ∈ s.rings, y.slot = r.slot → y = r) →
        (∀ j, j < n → s.opens s.collParty .load (BitVec.ofNat 64 (field l 0 8) + BitVec.ofNat 64 (w * j)) w) →
        (∀ j, j < m → s.opens s.collParty .store (BitVec.ofNat 64 (field l 8 8) + BitVec.ofNat 64 (w * j)) w) →
        ∃ u, exec i s = .next u ∧ u.v.status = .blocked i ∧ u.v.pc = s.v.pc ∧ u.v.sregs = s.v.sregs ∧ u.mem = s.mem ∧
          ∃ y ∈ u.rings, y.slot = r.slot ∧ ∃ x, y.round = some x ∧ x.launch = s.v.launch ∧ x.rank = s.v.rank.toNat ∧ x.count = n ∧
            x.done = none ∧ x.src.length = n * w ∧ x.targets.length = m ∧
            ∀ j pa, j < n → s.direct s.collParty (.mem (BitVec.ofNat 64 (field l 0 8) + BitVec.ofNat 64 (w * j)) w .load 0) = some pa →
              field x.src (w * j) w = s.mem.read (dramKey pa) w)

/-- A formation ends at this member in one of three ways (R361): every record is the same, and the ring takes the lowest free slot,
its handle going to the waiting VLC; some record differs, and the VLC receives code 2 with the endpoint of the lowest such
position; the time-out comes, and it receives code 1 with that of the lowest missing one. A time-out with none missing changes
nothing. -/
def Claim.RingsForm : Prop :=
  ∀ (s : State) (id : Nat) (w : RingWait) (d a b : SReg), s.forming id = some w → s.jobs = [] → w.waiting = true →
    s.v.status = .blocked (.cring d a b) → s.v.frozen = false → s.v.launch = w.launch → s.v.rank.toNat = w.rank →
    s.smooth = true →
    let left (t : State) (x : Word) := t.v.pc = s.v.pc + 4 ∧ t.v.status = .runnable ∧ (d ≠ 0 → t.rd d = x) ∧
      (∀ k, k ≠ d → t.rd k = s.rd k) ∧ t.mem = s.mem ∧ t.forming id = none
    let record (recs : List (Nat × List Byte)) (e : Nat) :=
      if e = s.endpoint then some w.record else (recs.find? fun x => x.1 == e).map (·.2)
    (∀ recs, (∀ e ∈ w.eps, record recs e = some w.record) → w.old = none → ∀ k, k < 16 → (∀ r ∈ s.rings, r.slot ≠ k) →
      (∀ j, j < k → ∃ r ∈ s.rings, r.slot = j) →
      ∃ t r, exec (.ringFormed id recs) s = .next t ∧ left t r.handle ∧ t.rings = s.rings ++ [r] ∧ r.slot = k ∧ r.id = id ∧
        r.launch = w.launch ∧ r.eps = w.eps ∧ r.broken = false ∧ r.round = none ∧
        (s.endpoint ∈ w.eps → w.eps[r.pos]? = some s.endpoint)) ∧
    (∀ recs p, (∀ e ∈ w.eps, record recs e ≠ none) → w.eps.findIdx? (fun e => record recs e != some w.record) = some p →
      ∃ t, exec (.ringFormed id recs) s = .next t ∧ left t (BitVec.ofNat 64 (2 + 256 * w.eps.getD p 0)) ∧ t.rings = s.rings) ∧
    (∀ arrived p, w.eps.findIdx? (fun e => e != s.endpoint && !arrived.contains e) = some p →
      ∃ t, exec (.ringFormationTimeout id arrived) s = .next t ∧ left t (BitVec.ofNat 64 (1 + 256 * w.eps.getD p 0)) ∧
        t.rings = s.rings) ∧
    (∀ arrived, (∀ e ∈ w.eps, e = s.endpoint ∨ e ∈ arrived) → exec (.ringFormationTimeout id arrived) s = .next s)

/-- COLL captures its descriptor and checks the ring, the descriptor, the round in progress and the pages, in that order (R363). On
a broken ring it raises TIMEOUT with what the ring recorded; otherwise it takes part and waits. It reads SRC after the stores before
it (R192), which it waits for. One that executes again waits on the same round; when that has completed, it leaves with the round's handle. -/
def Claim.RoundsBegin : Prop :=
  ∀ (s : State) (d a b : SReg), decodeStop (.coll d a b) s = none →
    let i := Instr.coll d a b
    ((s.rd a).toNat % 64 ≠ 0 → exec i s = .next (s.trapHere .align 0 (untag (s.rd a)) none)) ∧
    (∀ e, (s.rd a).toNat % 64 = 0 → s.capture s.party (s.rd a) 8 = .error e → exec i s = .next (s.raise i e)) ∧
    (∀ l u, (s.rd a).toNat % 64 = 0 → s.capture s.party (s.rd a) 8 = .ok (l, u) → u.smooth = true →
      (u.ringOf (u.rd b) = none → exec i s = .next (u.trapHere .prot 0 (u.rd b) none)) ∧
      (∀ r, u.ringOf (u.rd b) = some r →
        (collType (field l 0x22 1) = none → exec i s = .next (u.trapHere .prot 0 (untag (u.rd a)) none)) ∧
        (∀ t, collType (field l 0x22 1) = some t →
          let n := field l 0x10 8
          let op := field l 0x20 1
          let src := BitVec.ofNat 64 (field l 0 8)
          let dst := BitVec.ofNat 64 (field l 8 8)
          let m := resultCount op r.eps.length n
          let h := roundHandle r.slot (field l 0x18 4)
          (collOk l r.eps.length t = false → exec i s = .next (u.trapHere .prot 0 (untag (u.rd a)) none)) ∧
          (∀ x, collOk l r.eps.length t = true → r.round = some x →
            (¬(x.launch = u.v.launch ∧ x.rank = u.v.rank.toNat) → exec i s = .next (u.trapHere .prot 0 (u.rd b) none)) ∧
            (x.launch = u.v.launch → x.rank = u.v.rank.toNat →
              (x.done = none → exec i s = .next (u.setV fun v => { v with status := .blocked i })) ∧
              (x.done = some .complete →
                exec i s = .next (((u.setRing r.slot fun y => { y with round := none }).wr d (roundHandle r.slot x.seq)).past i)))) ∧
          (collOk l r.eps.length t = true → r.round = none → u.v.stores ≠ [] →
            exec i s = .next (u.setV fun v => { v with status := .draining i })) ∧
          (collOk l r.eps.length t = true → r.round = none → u.v.stores = [] →
            (∀ e, u.collPages .load src (bytesIn t) 0 n = .error e → exec i s = .next (u.raise i e)) ∧
            (∀ e, u.collPages .load src (bytesIn t) 0 n = .ok () → u.collPages .store dst (bytesIn t) 0 m = .error e →
              exec i s = .next (u.raise i e)) ∧
            (u.collPages .load src (bytesIn t) 0 n = .ok () → u.collPages .store dst (bytesIn t) 0 m = .ok () →
              (r.broken = true → exec i s =
                .next ((u.setV fun v => { v with peer := BitVec.ofNat 13 r.peer }).trapHere .timeout 0 (h ||| failFlags r.flags) none)) ∧
              (r.broken = false → ∀ w, u.openRound r l t = .ok w →
                exec i s = .next (w.setV fun v => { v with status := .blocked i }) ∧
                ∃ y ∈ w.rings, y.slot = r.slot ∧ ∃ x, y.round = some x ∧ x.launch = u.v.launch ∧ x.rank = u.v.rank.toNat ∧
                  x.seq = field l 0x18 4 ∧ x.op = op ∧ x.count = n ∧ x.done = none ∧ x.src.length = n * bytesIn t ∧
                  x.targets.length = m ∧ .roundData r.id r.pos x.params x.src ∈ w.outbox))))))

/-- A round ends at this member (R363 to R366): with every contribution it completes, publishing the results of Table 5, and the
waiting VLC leaves with the round's handle; a mismatch, silence or a notice breaks the ring, and the first notice is what it
records. A member in a round sends heartbeats to its successor. -/
def Claim.RingRoundsEnd : Prop :=
  (∀ (s : State) (slot : Nat) (r : Ring) (x : Round), s.ringAt slot = some r → r.round = some x → x.done = none → s.jobs = [] →
    let before := r.eps.getD ((r.pos + r.eps.length - 1) % r.eps.length) 0
    (∀ parts p, roundMismatch (roundParts r x parts) = some p →
      exec (.collRoundComplete slot parts) s =
        .next ((s.send (.abort r.id x.seq 1 (r.eps.getD p 0))).breakRing r 1 (r.eps.getD p 0))) ∧
    (∀ parts, roundMismatch (roundParts r x parts) = none → none ∈ roundParts r x parts →
      exec (.collRoundComplete slot parts) s = .next s) ∧
    (∀ (parts : List (Nat × List Nat × List Byte)) (l : List (List Nat × List Byte)) (t : VType) (d a b : SReg), roundMismatch (roundParts r x parts) = none → roundParts r x parts = l.map some →
      collType x.type.toNat = some t → s.v.status = .blocked (.coll d a b) → s.v.launch = x.launch → s.v.rank.toNat = x.rank →
      s.v.frozen = false → s.smooth = true →
      ∃ u, exec (.collRoundComplete slot parts) s = .next u ∧ u.v.pc = s.v.pc + 4 ∧ u.v.status = .runnable ∧
        (d ≠ 0 → u.rd d = roundHandle slot x.seq) ∧ (∀ k, k ≠ d → u.rd k = s.rd k) ∧
        u.mem = (s.publishShades x.launch x.rank (roundShades x t r.eps.length r.pos (l.map (·.2))) []).mem ∧
        (u.ringAt slot).map (·.round) = some none) ∧
    exec (.collSilenceTimeout slot) s = .next ((s.send (.abort r.id x.seq 0 before)).breakRing r 0 before) ∧
    exec (.collHeartbeat slot) s = .next (s.send (.heartbeat r.id (r.eps.getD ((r.pos + 1) % r.eps.length) 0)))) ∧
  (∀ (s : State) (id flags peer : Nat) (r : Ring), s.rings.find? (fun r => r.id == id) = some r → s.jobs = [] →
    exec (.collAbortNotice id flags peer) s = .next (s.breakRing r flags peer)) ∧
  (∀ (s : State) (r : Ring) (flags peer : Nat), s.ringAt r.slot = some r →
    ∃ y, (s.breakRing r flags peer).ringAt r.slot = some y ∧ y.broken = true ∧
      y.flags = (if r.broken then r.flags else flags) ∧ y.peer = (if r.broken then r.peer else peer)) ∧
  (∀ (c : Nat) (t : VType) (xs : List (List Byte)) (i : Nat), collType c = some t →
    (t.isI = true → reduceAt t 0 xs i = (xs.map fun y => contribution t y i).foldl (· + ·) 0 % 2 ^ t.width ∧
      (xs ≠ [] →
        reduceAt t 2 xs i ∈ xs.map (fun y => contribution t y i) ∧
        reduceAt t 3 xs i ∈ xs.map (fun y => contribution t y i) ∧
        ∀ y ∈ xs, t.int (reduceAt t 2 xs i) ≤ t.int (contribution t y i) ∧
          t.int (contribution t y i) ≤ t.int (reduceAt t 3 xs i))) ∧
    (t.isI = false → ∀ x y, reduceAt t 0 [x, y] i = (fpAdd t.fmt .rne false (contribution t x i) (contribution t y i)).bits)) ∧
  ∀ (s : State) (d a : SReg), decodeStop (.cabort d a) s = none →
    let i := Instr.cabort d a
    (s.ringOf (s.rd a) = none → exec i s = .next (s.trapHere .prot 0 (s.rd a) none)) ∧
    (∀ r, s.ringOf (s.rd a) = some r → r.round = none → s.smooth = true → s.v.status.resident = true →
      exec i s = .next (((((s.send (.abort r.id 0 2 s.endpoint)).setRing r.slot (·.break 2 s.endpoint))).wr d 0).past i)) ∧
    (∀ r x, s.ringOf (s.rd a) = some r → r.round = some x → x.done = none → s.smooth = true → s.v.status = .runnable →
      s.jobs = [] → (∀ w ∈ s.parked, w.isAt s.v.core s.v.slot = false) →
      ∃ t, exec i s = .next t ∧ t.v.pc = s.v.pc + 4 ∧ (d ≠ 0 → t.rd d = 1) ∧ ∀ k, k ≠ d → t.rd k = s.rd k)

/-! ## The save area -/

/-- VSAVE at supervisor level reads SREG, writes the area of Table 10 and completes, remembering the address (R318); VRESTORE
checks the header before it reads the rest, and loads the special registers, the masks and the streams, leaving s0 to s31,
the pc and the level alone (R319). A misaligned address raises ALIGN, and a store or load that stops stops them. -/
def Claim.AreasAreSavedAndRestored : Prop :=
  ∀ (s : State) (a : SReg), s.v.level = .supervisor → s.v.stepOnce = false → decodeStop (.vsave a) s = none →
    decodeStop (.vrestore a) s = none →
    let b := s.rd a
    (b.toNat % 4096 ≠ 0 →
      exec (.vsave a) s = .next (s.trapHere .align 0 (untag b) none) ∧
      exec (.vrestore a) s = .next (s.trapHere .align 0 (untag b) none)) ∧
    (b.toNat % 4096 = 0 →
      (∀ e, s.loadSpan s.party (s.v.block + 0x100) 32 = .error e → exec (.vsave a) s = .next (s.raise (.vsave a) e)) ∧
      (∀ sr s1 s2 e, s.loadSpan s.party (s.v.block + 0x100) 32 = .ok (sr, s1) →
        s1.saveArea s1.party s1.v.atGrant sr b = (s2, some e) → exec (.vsave a) s = .next (s2.raise (.vsave a) e)) ∧
      (∀ sr s1 s2, s.loadSpan s.party (s.v.block + 0x100) 32 = .ok (sr, s1) →
        s1.saveArea s1.party s1.v.atGrant sr b = (s2, none) → s2.smooth = true →
        exec (.vsave a) s = .next ((s2.setV fun v => { v with savedTo := some b.toNat }).past (.vsave a))) ∧
      (∀ h u, s.readHeader s.party b = .ok (h, u) → h.bad s.v = true →
        exec (.vrestore a) s = .next (s.trapHere .prot 0 (untag b) none)) ∧
      (∀ h u, s.restoreArea s.party b = .ok (h, u) → u.smooth = true →
        exec (.vrestore a) s = .next (u.past (.vrestore a)) ∧ u.v.sregs = s.v.sregs ∧ u.v.pc = s.v.pc ∧ u.v.level = s.v.level ∧
        u.v.savedTo = none ∧ u.v.vl = bitsOf (h.spr 0) 13 0 ∧ u.v.scnt = BitVec.ofNat 64 (h.spr 6) ∧
        u.v.tpc = BitVec.ofNat 64 (h.spr 17) ∧ u.v.tval = BitVec.ofNat 64 (h.spr 18) ∧ u.v.barw = barOf (wordAt h.header 3) ∧
        (∀ k, k < 7 → u.v.masks.toList.getD (k + 1) 0 = BitVec.ofNat 8192 (h.masks / 2 ^ (8192 * k))) ∧
        bitsOf h.header 31 0 = 0x56415356))

/-- VSAVE whose SREG may be read and whose area may be written completes, and no byte outside its area changes (R318); VRESTORE of an area
that may be read and passes R319's checks, with SREG writable, completes with the special registers it holds, and leaves s0 to s31, the
pc and the level alone (R319). -/
def Claim.AreasFinish : Prop :=
  ∀ (s : State) (a : SReg), s.v.level = .supervisor → s.smooth = true →
    let b := s.rd a
    let l (x : Nat → Nat) := s.areaOf s.v.atGrant (areaWords x 0 32)
    (∀ x : Nat → Nat, decodeStop (.vsave a) s = none →
      (∀ k, k < 32 → s.openWord s.party (s.v.block + 0x100 + BitVec.ofNat 64 (8 * k)) = some (x k)) →
      s.areaWritable s.party b (l x) → s.mem.wf = true →
      ∃ u, exec (.vsave a) s = .next u ∧ u.v.pc = s.v.pc + 4 ∧ u.v.status = .runnable ∧ u.v.savedTo = some b.toNat ∧
        u.v.sregs = s.v.sregs ∧ u.v.vregs = s.v.vregs ∧ u.v.masks = s.v.masks ∧ u.v.streams = s.v.streams ∧ u.v.level = s.v.level ∧
        ∀ c, (∀ p ∈ l x, ∀ k pa, k < p.words →
          s.direct s.party (.mem (b + BitVec.ofNat 64 p.off + BitVec.ofNat 64 (8 * k)) 8 .store 0) = some pa →
            c < dramKey pa ∨ dramKey pa + 8 ≤ c) → u.mem.byte c = s.mem.byte c) ∧
    ∀ x : Nat → Nat, decodeStop (.vrestore a) s = none → s.areaOpens s.party b x →
      ({ Area.ofHeader (areaWords x 0 32) with sprs := areaWords x 32 20 } : Area).bad s.v = false →
      s.writable s.party (BitVec.ofNat 64 (x 51 / 512 * 512) + 0x100) 32 →
      ∃ u, exec (.vrestore a) s = .next u ∧ u.v.pc = s.v.pc + 4 ∧ u.v.status = .runnable ∧ u.v.sregs = s.v.sregs ∧
        u.v.level = s.v.level ∧ u.v.savedTo = none ∧ u.v.vl = bitsOf (x 32) 13 0 ∧ u.v.scnt = BitVec.ofNat 64 (x 38) ∧
        u.v.tpc = BitVec.ofNat 64 (x 49) ∧ u.v.tval = BitVec.ofNat 64 (x 50)

/-- What a save area records of a stream that is no topology binding, of an arrival and of a slot reads back as it was
(R317). -/
def Claim.AreasReadBack : Prop :=
  (∀ (s : State) (q : Stream), q.kind = .pattern ∨ q.kind = .tile → q.topo = none → q.ndim < 256 → q.cursor < 2 ^ 32 →
    q.pos < 2 ^ 64 → (∃ k, k < 256 ∧ q.unit = 2 ^ k) → s.streamFrom (s.streamImage q) = q) ∧
  (∀ (s : State), s.streamFrom (s.streamImage Stream.unbound) = Stream.unbound) ∧
  (∀ b : Arrival, b.gen < 2 ^ 40 → b.group < 256 → barOf (barWord (some b)).toNat = some b) ∧ barOf (barWord none).toNat = none ∧
  ∀ (a : Area) (j : Nat) (x : BitVec 131072) (o : OSlot), wordAt a.slotWords j = o.word.toNat → a.flag 0 = false →
    o.rows < 2 ^ 15 → o.cols < 2 ^ 16 → o.st.mark < 2 ^ 15 → o.st ≠ .free →
    (a.slot j x).st = o.st ∧ (a.slot j x).type = o.type ∧ (a.slot j x).spar = o.spar ∧ (a.slot j x).rows = o.rows ∧
      (a.slot j x).cols = o.cols

/-! ## Queues and launches -/

/-- A posted write of 128 bytes to LREC of an enabled queue with room appends a record, which is checked when it is the oldest
(R324); any other is dropped and counted. No other queue, no VLC and no byte of memory changes. In recovery the queue BAR is not
live (R385). -/
def Obligations.PostedWritesEnqueueRecords : Prop :=
  ∀ (s : State) (off : Nat) (data : List Byte),
    let q := off / 4096 % 65536
    (s.pilot.boot = 4 → exec (.lrecWrite off data) s = .next s) ∧
    (s.pilot.boot ≠ 4 → ∃ t, exec (.lrecWrite off data) s = .next t ∧ t.v = s.v ∧ t.mem = s.mem ∧
      (off % 4096 = 0 → data.length = 128 → (s.queue q).en = true → (s.queue q).recs.length < 8 →
        t.queue q = { s.queue q with recs := (s.queue q).recs ++ [(data, none)] } ∧
        ((s.queue q).recs = [] → .launchRecordCheck q ∈ t.events)) ∧
      (off % 4096 ≠ 0 ∨ data.length ≠ 128 ∨ (s.queue q).en = false ∨ 8 ≤ (s.queue q).recs.length →
        t.queue q = { s.queue q with drop := if (s.queue q).drop + 1 ≤ 0xFFFF then (s.queue q).drop + 1 else 0xFFFF }) ∧
      ∀ k, k ≠ q → t.queue k = s.queue k)

/-- QCFG sets a queue's configuration, and disabling one discards its records, a placed gang that has not started among them (R325).
LAUNCH enqueues a record from a kernel as a
posted write does, and says 0, 1 for a full queue or 2 for one it may not use (R342). -/
def Claim.QueuesTakeRecords : Prop :=
  (∀ (s : State) (q : Nat) (x : BitVec 64),
    ∃ t, exec (.qcfgWrite q x) s = .next t ∧ t.mem = s.mem ∧
      ((∀ k l, (s.queue q).head = some k → s.launch k = some l → l.phase ≠ .held) → t.v = s.v) ∧ (t.queue q).en = x.getLsbD 63 ∧
      (t.queue q).maxprio = x.extractLsb' 56 3 ∧ (t.queue q).ctx = x.extractLsb' 0 12 ∧
      (x.getLsbD 63 = true → (t.queue q).drop = 0 ∧ (t.queue q).fails = 0 ∧ (t.queue q).recs = (s.queue q).recs) ∧
      ((s.queue q).en = true → x.getLsbD 63 = false → (t.queue q).recs = [])) ∧
  ∀ (s : State) (d a b : SReg), decodeStop (.launch d a b) s = none →
    let i := Instr.launch d a b
    ((s.rd a).toNat % 128 ≠ 0 → exec i s = .next (s.trapHere .align 0 (untag (s.rd a)) none)) ∧
    (∀ e, (s.rd a).toNat % 128 = 0 → s.capture s.party (s.rd a) 16 = .error e → exec i s = .next (s.raise i e)) ∧
    (∀ r u, (s.rd a).toNat % 128 = 0 → s.capture s.party (s.rd a) 16 = .ok (r, u) → u.smooth = true →
      let q := (u.rd b).toNat
      (u.v.stores ≠ [] → exec i s = .next (u.setV fun v => { v with status := .draining i })) ∧
      (u.v.stores = [] →
        (65535 < q ∨ (u.queue q).en = false ∨ (u.queue q).ctx.toNat ≠ u.v.ctx → exec i s = .next ((u.wr d 2).past i)) ∧
        (q ≤ 65535 → (u.queue q).en = true → (u.queue q).ctx.toNat = u.v.ctx → 8 ≤ (u.queue q).recs.length →
          exec i s = .next ((u.wr d 1).past i)) ∧
        (q ≤ 65535 → (u.queue q).en = true → (u.queue q).ctx.toNat = u.v.ctx → (u.queue q).recs.length < 8 →
          ∃ t, exec i s = .next t ∧ t.v = ((u.wr d 0).past i).v ∧ t.mem = u.mem ∧ (t.queue q).recs = (u.queue q).recs ++ [(r, some u.v.ctx)])))

/-- LAUNCH of a record that may be read, to an enabled queue of its context with room, completes with 0 and the record enqueued (R342). -/
def Claim.LaunchesFinish : Prop :=
  ∀ (s : State) (d a b : SReg) (r : List Byte), decodeStop (.launch d a b) s = none → s.smooth = true → s.v.stores = [] →
    s.v.spin.demoted = false → (s.rd a).toNat % 128 = 0 → s.openWords s.party (s.rd a) 16 = some r →
    let q := (s.rd b).toNat
    q ≤ 65535 → (s.queue q).en = true → (s.queue q).ctx.toNat = s.v.ctx → (s.queue q).recs.length < 8 →
    ∃ t, exec (.launch d a b) s = .next t ∧ t.v = ((s.wr d 0).past (.launch d a b)).v ∧ t.mem = s.mem ∧
      (t.queue q).recs = (s.queue q).recs ++ [(r, some s.v.ctx)]

/-- A record that passes Table 4, of a kernel without groups whose header and relocations may be read and are as R102 and R101 ask, and
whose launch fits the package and its start, becomes its queue's head (R327). A launch's wait words that may be read make it ready, or
leave it waiting, or fail it (R329). The word that receives a launch's signal, where nothing stops it, grows by what R330 says. -/
def Claim.LaunchStepsFinish : Prop :=
  (∀ (s : State) (q : Nat) (r : List Byte) (ctx : Option Nat) (rest : List (List Byte × Option Nat)) (h : List Byte),
    (s.queue q).recs = (r, ctx) :: rest → (s.queue q).head = none → badRecord r = false → field r 0x10 8 = 0 →
    let l := s.launchOf q r ctx
    let p := dispatchParty l.ctx (engOwner 1 q)
    let image := BitVec.ofNat 64 (field r 0 8)
    let base := image - BitVec.ofNat 64 (field h 0x0C 4)
    s.openBytes p image 128 = some h → headerOk h = true → field h 0x38 8 = 0 →
    (∀ j, j < field h 0x48 8 → ∃ x, s.openBytes p (base + BitVec.ofNat 64 (field h 0x40 8 + 16 * j + 8)) 4 = some x ∧ field x 0 4 = 1) →
    s.tooBig (field h 6 2 == 1) l.nvlc = false → l.npkg ≤ 1 ∨ s.beacon.toNat + 10000 ≤ l.start.toNat →
    ∃ t, exec (.launchRecordCheck q) s = .next t ∧ (t.queue q).head = some s.nextLaunch ∧ t.v = s.v ∧ t.mem = s.mem ∧
      t.launches = s.launches ++ [{ l with
        entry := base + BitVec.ofNat 64 (field h 0x10 8), tile := field h 6 2 == 1,
        regs := if field r 0x1C 1 = 0xFF then BitVec.ofNat 2 (field h 0x0A 1) else l.regs, groups := [] }] ∧
      .waitWordReread s.nextLaunch ∈ t.events) ∧
  ∀ (s : State) (key : Nat) (l : Launch), s.launch key = some l →
    (∀ x : Word × Word → Nat, l.phase = .waiting ∨ l.phase = .ready →
      (∀ w ∈ l.waits, w.1.toNat % 8 = 0 ∧ s.openWord l.party w.1 = some (x w)) →
      ∃ t, exec (.waitWordReread key) s = .next t ∧ t.v = s.v ∧ t.mem = s.mem ∧
        ((∃ w ∈ l.waits, 2 ^ 63 ≤ x w) → (t.launch key).map (fun l => (l.phase, l.failed)) = some (.done, some 5)) ∧
        ((∀ w ∈ l.waits, x w < 2 ^ 63) → (t.launch key).map (·.phase) =
          some (if l.waits.all fun w => decide (w.2.toNat % 2 ^ 63 ≤ x w) then .ready else .waiting))) ∧
    ∀ (a : Word) (pa : Nat), l.npkg ≤ 1 → l.phase = .running → l.allEnded = true → (∀ o ∈ s.orphans, o.2.1 ≠ key) → l.sig = some a →
      a.toNat % 8 = 0 → l.rank0 = 0 ∨ (l.gang = 0 ∧ l.npkg = 1) → s.direct l.party (.mem a 8 .rmw 0) = some pa → s.poisoned pa = false →
      s.engineData = [] → s.mem.wf = true →
      ∃ t, exec (.launchComplete key []) s = .next t ∧ t.v = s.v ∧ t.launch key = none ∧
        t.mem.read (dramKey pa) 8 = (s.mem.read (dramKey pa) 8 + (if l.failed.isSome then 2 ^ 63 + 1 else 1)) % 2 ^ 64 ∧
        ∀ c, c < dramKey pa ∨ dramKey pa + 8 ≤ c → t.mem.byte c = s.mem.byte c

/-- The oldest record of a queue is checked in the order of R327: one that breaks Table 4, and one whose kernel, groups or start do
not allow it, leave the queue and fail with the code of the check; one that passes becomes the queue's head, and its wait
words are read (R329): the launch becomes ready when all of them have come, and fails with 5 when bit 63 of one is set. -/
def Claim.RecordsAreChecked : Prop :=
  (∀ (s : State) (q : Nat), (s.queue q).recs = [] ∨ (s.queue q).head ≠ none → exec (.launchRecordCheck q) s = .next s) ∧
  (∀ (s : State) (q : Nat) (r : List Byte) (ctx : Option Nat) (rest : List (List Byte × Option Nat)),
    (s.queue q).recs = (r, ctx) :: rest → (s.queue q).head = none →
    let l := s.launchOf q r ctx
    let fails (t : State) (code : Nat) := (t.queue q).recs = rest ∧ (t.queue q).lasterr = code ∧ t.v = s.v ∧ t.mem = s.mem ∧
      (t.launch s.nextLaunch).map (fun l => (l.phase, l.failed)) = some (.done, some code) ∧
      .launchComplete s.nextLaunch [] ∈ t.events
    (badRecord r = true → ∃ t, exec (.launchRecordCheck q) s = .next t ∧ fails t 1) ∧
    (badRecord r = false →
      (∀ code u, s.checkLaunch r l = .ok (.fail code, u) → u.v = s.v → u.mem = s.mem → u.queues = s.queues →
        u.nextLaunch = s.nextLaunch → ∃ t, exec (.launchRecordCheck q) s = .next t ∧ fails t code) ∧
      (∀ l1 u, s.checkLaunch r l = .ok (.good l1, u) →
        ∃ t, exec (.launchRecordCheck q) s = .next t ∧ (t.queue q).head = some l1.key ∧ t.launches = u.launches ++ [l1] ∧
          .waitWordReread l1.key ∈ t.events ∧ t.v = u.v ∧ t.mem = u.mem))) ∧
  (∀ r : List Byte, badRecord r = false →
    1 ≤ field r 0x18 4 ∧ field r 0x18 4 ≤ 4096 ∧ field r 0x1D 1 < 8 ∧ field r 0x1F 1 % 8 ≤ 4 ∧ field r 0x10 8 % 8 = 0 ∧
      field r 0x60 8 % 8 = 0 ∧ (field r 0x1F 1 < 128 → field r 0x60 8 = 0) ∧
      (field r 0x68 8 = 0 → field r 0x70 8 = 0 ∧ field r 0x78 4 = 0 ∧ field r 0x7C 4 = field r 0x18 4)) ∧
  ∀ (s : State) (key : Nat) (l : Launch), s.launch key = some l → l.phase = .waiting ∨ l.phase = .ready →
    (∀ b u, s.readWaits l.party l.waits = .ok (some b, u) → u.launches = s.launches →
      ∃ t, exec (.waitWordReread key) s = .next t ∧ t.v = u.v ∧ t.mem = u.mem ∧
        (t.launch key).map (·.phase) = some (if b then .ready else .waiting) ∧ (b = true → .launchPlace ∈ t.events)) ∧
    (∀ u, s.readWaits l.party l.waits = .ok (none, u) → u.launches = s.launches →
      ∃ t, exec (.waitWordReread key) s = .next t ∧
        (t.launch key).map (fun l => (l.phase, l.failed)) = some (.done, some 5) ∧ .launchComplete key [] ∈ t.events) ∧
    (l.waits = [] → s.readWaits l.party l.waits = .ok (some true, s))

/-- A launch of one package completes once every VLC of it has ended and every access they made is performed (R330, R340): it is forgotten, and its signal word receives 1, or
2^63 + 1 if it failed. -/
def Claim.LaunchesComplete : Prop :=
  ∀ (s : State) (key : Nat) (l : Launch), s.launch key = some l → l.npkg ≤ 1 →
    let s1 := s.setLaunch key fun x => { x with phase := .done }
    let s2 := if l.failed.isSome then s1.countFail l.queue 8 else s1
    (l.phase ≠ .done → l.allEnded = false ∨ (∃ o ∈ s.orphans, o.2.1 = key) → exec (.launchComplete key []) s = .next s) ∧
    (l.phase = .running → l.allEnded = true → (∀ o ∈ s.orphans, o.2.1 ≠ key) →
      (l.sig = none → ∃ t, exec (.launchComplete key []) s = .next t ∧ t.v = s.v ∧ t.mem = s.mem ∧ t.launch key = none) ∧
      (∀ a x u, l.sig = some a → a.toNat % 8 = 0 → l.rank0 = 0 ∨ (l.gang = 0 ∧ l.npkg = 1) →
        let add := if l.failed.isSome then 2 ^ 63 + 1 else 1
        s2.rmw l.party (.mem a 8 .rmw 0) (atomicKey 0 0) (.amo .add 8 add) (fun o => (o + add) % 2 ^ 64)
          = .ok (x, u) →
        ∃ t, exec (.launchComplete key []) s = .next t ∧ t.v = u.v ∧ t.mem = u.mem ∧ t.launch key = none))

/-- The dispatcher with no ready launch and no reservation only clears the deficits (R331). With one ready launch that fits and may
start, it places every rank of it in rank order on the cores of its plan, and each VLC begins as R105 says: s3 its
arguments, s4 its rank, the other scalars 0, at its entry, at user level, with VL 0 (R336). -/
def Claim.LaunchesArePlaced : Prop :=
  (∀ s : State, s.ready = [] → s.reservation = none →
    exec .launchPlace s = .next { s with queues := s.queues.map fun q => (q.1, { q.2 with deficit := 0 }) }) ∧
  (∀ (s : State) (l : Launch) (cores : List Nat), s.ready = [l] → s.reservation = none → s.resumeFloor ≤ l.prio → l.prio < 8 →
    s.plan [] l = some cores → l.nvlc ≤ (s.queue l.queue).deficit + 256 →
    ∃ t, exec .launchPlace s = .next t ∧ ∀ k, k < l.nvlc →
      ∃ v ∈ t.parked, v.core = cores.getD k 0 ∧ v.launch = l.key ∧ v.rank = BitVec.ofNat 32 (l.rank0 + k) ∧ v.ctx = l.ctx ∧
        v.status = (if l.npkg ≤ 1 then .runnable else .held) ∧ v.pc = l.entry ∧ v.level = .user ∧ v.vl = 0 ∧
        v.declEff = l.regs ∧ v.tileOwner = l.tile ∧ v.s 3 = l.args ∧ v.s 4 = BitVec.ofNat 64 (l.rank0 + k) ∧
        (∀ r : SReg, r ≠ 3 → r ≠ 4 → v.s r = 0)) ∧
  ∀ (s : State) (l : Launch) (cores : List Nat), s.plan [] l = some cores →
    cores.length = l.nvlc ∧ ∀ c ∈ cores, c < 1024 ∧ ∃ n, n < 4 ∧ s.canTake [] l.ctx l.tile c n = true

/-- RESUME makes the released VLC of its die that it names placeable, and sets ERR when there is none or its area's header does not
pass (R321). A placeable VLC whose area was saved inside a strip goes back to the core and lane clusters that the area names only (R338).
Restored, a VLC
returns from its trap: pc from TPC, s1 to s31 from its area, the level from PPL (R319). -/
def Claim.VlcsAreResumed : Prop :=
  (∀ (s : State) (die : Nat) (x : BitVec 64),
    let b := x.toNat / 4096 * 4096
    (x = 1 → ∃ t, exec (.resumeWrite die x) s = .next t ∧ (t.die die).resumeErr = false ∧ t.v = s.v ∧ t.parked = s.parked) ∧
    (b ≠ 0 → s.releasedAt die b = none →
      ∃ t, exec (.resumeWrite die x) s = .next t ∧ (t.die die).resumeErr = true ∧ t.v = s.v ∧ t.parked = s.parked) ∧
    (∀ v h u, b ≠ 0 → x.getLsbD 0 = false → s.releasedAt die b = some v →
      s.loadSpan v.areaParty (BitVec.ofNat 64 b) 32 = .ok (h, u) → u.v = s.v → u.parked = s.parked →
      (bitsOf h 31 0 ≠ 0x56415356 → ∃ t, exec (.resumeWrite die x) s = .next t ∧ (t.die die).resumeErr = true ∧
        t.parked = s.parked) ∧
      (bitsOf h 31 0 = 0x56415356 → bitsOf h 47 32 = 1 → bitsOf h 63 51 = 0 → bitsOf h 127 96 = 0 → bitsOf h 253 240 = 0 →
        h < 2 ^ 256 → (bitsOf h 50 50 = 1 ↔ v.tileOwner = true) →
        let passes (st : Option Seat) := ∃ t, exec (.resumeWrite die x) s = .next t ∧ t.v = s.v ∧ .vlcResumePlace ∈ t.events ∧
          t.parked = replaceFirst (· == v) { v with status := .placeable b st } s.parked
        (bitsOf h 49 49 = 0 → passes none) ∧
        ∀ sp w, bitsOf h 49 49 = 1 → u.loadSpan v.areaParty (BitVec.ofNat 64 b + 0x100) 20 = .ok (sp, w) → w.v = s.v →
          w.parked = s.parked → passes (({ Area.ofHeader h with sprs := sp } : Area).seat die true)))) ∧
  (∀ s : State, s.nextResume = none → exec .vlcResumePlace s = .next s) ∧
  (∀ (s : State) (v : Vlc) (b core : Nat) (lc : BitVec 4), s.nextResume = some (v, b, core, lc) →
    exec .vlcResumePlace s = .next ((s.placeResumed v b core lc).dueDispatch) ∧
    v ∈ s.parked ∧ s.frozenCtx v.ctx = false ∧
    ∃ st, v.status = .placeable b st ∧ ∀ x, st = some x → core = x.core ∧ lc = x.lc ∧ s.stripFits v x = true) ∧
  ∀ (s u : State) (b : Nat), s.resumeHere b = .ok u → ∃ a s1, s.restoreArea s.v.areaParty (BitVec.ofNat 64 b) = .ok (a, s1) ∧
    (s1.v.tpc.getLsbD 0 = false → u.v.pc = s1.v.tpc ∧ u.v.level = (if s1.v.tcause.ppl then .supervisor else .user) ∧
      (∀ k : SReg, k ≠ 0 → u.rd k = BitVec.ofNat 64 (wordAt a.sregs k.toNat)) ∧ u.v.vregs = s1.v.vregs ∧ u.mem = s1.mem)

/-- RESUME of a released VLC whose area's header may be read and passes its checks makes the VLC placeable: anywhere, or where the area was
saved inside a strip on the seat that it names (R321, R338). -/
def Claim.ResumesFinish : Prop :=
  ∀ (s : State) (die : Nat) (x : BitVec 64) (v : Vlc) (w : Nat → Nat),
    let b := x.toNat / 4096 * 4096
    let a : Area := { Area.ofHeader (areaWords w 0 32) with sprs := areaWords w 32 20 }
    b ≠ 0 → x.getLsbD 0 = false → s.releasedAt die b = some v →
    (∀ k, k < 52 → s.openWord v.areaParty (BitVec.ofNat 64 b + BitVec.ofNat 64 (8 * k)) = some (w k)) → a.wrong v.tileOwner = false →
    ∃ t, exec (.resumeWrite die x) s = .next t ∧ t.v = s.v ∧ .vlcResumePlace ∈ t.events ∧ t.parked =
      replaceFirst (· == v) { v with status := .placeable b (if a.flag 1 then a.seat die true else none) } s.parked

/-- VEND ends the VLC it names (R341): one about to run at its next boundary, one that waits or is released at once, and its launch
counts it as ended and fails. Where there is none, nothing happens. -/
def Claim.VlcsAreEnded : Prop :=
  ∀ (s : State) (die : Nat) (x : BitVec 64),
    let core := 128 * die + bitsOf x.toNat 8 2
    let slot := bitsOf x.toNat 1 0
    let b := x.toNat / 4096 * 4096
    let gone (s1 : State) (t : State) := t.v = Vlc.absent ∧ (s1.v.lateFabric = none → t.mem = s.mem) ∧
      ∀ l, s.launch s1.v.launch = some l → (t.launch s1.v.launch).map (fun l => (l.ended, l.failed)) =
        some (s1.v.rank.toNat :: l.ended, some 8)
    (x.getLsbD 9 = true → exec (.vendResident die x) s = .next s) ∧
    (x.getLsbD 9 = false → exec (.vendReleased die x) s = .next s) ∧
    (x.getLsbD 9 = false → s.v.isAt core slot = true → s.v.status = .runnable → s.v.frozen = false →
      ∃ t, exec (.vendResident die x) s = .next t ∧ t.v = { s.v with vend := true } ∧ t.mem = s.mem) ∧
    (x.getLsbD 9 = false → s.bring (·.isAt core slot) = none → exec (.vendResident die x) s = .next s) ∧
    (∀ s1, x.getLsbD 9 = false → (∀ v ∈ s.vlcs, v.isAt core slot = true → v.running = false) →
      s.bring (·.isAt core slot) = some s1 → ∃ t, exec (.vendResident die x) s = .next t ∧ gone s1 t) ∧
    (∀ s1, x.getLsbD 9 = true →
      s.bring (fun v => v.savedAt b && dieOf v.core == die) = some s1 →
      ∃ t, exec (.vendReleased die x) s = .next t ∧ gone s1 t)

/-- A gang's report of another package counts before Beacon tick START - 5000 only (R344); a gang that is not whole by then fails
with 7. At START every VLC of a whole gang placed here issues. -/
def Claim.GangsStart : Prop :=
  (∀ (s : State) (ep gang npkg : Nat) (start : BitVec 64) (rank0 nvlc total : Nat),
    (start.toNat ≤ s.beacon.toNat + 5000 → exec (.gangReport ep gang npkg start rank0 nvlc total) s = .next s) ∧
    (s.beacon.toNat + 5000 < start.toNat →
      let r : GangReport :=
        { ep := ep, gang := gang, npkg := npkg, start := start, rank0 := rank0, nvlc := nvlc, total := total }
      ∃ t, exec (.gangReport ep gang npkg start rank0 nvlc total) s = .next t ∧ t.gangReports = s.gangReports ++ [r] ∧
        t.v = s.v ∧ t.mem = s.mem ∧
        ∀ l, s.launches.find? (fun l => l.gang == gang && decide (1 < l.npkg)) = some l → l.phase = .held →
          t.gangWhole l = true → .gangStart l.key ∈ t.events)) ∧
  ∀ (s : State) (key : Nat) (l : Launch), s.launch key = some l →
    ((l.phase ≠ .held ∨ s.gangWhole l = false) → exec (.gangStart key) s = .next s) ∧
    (l.phase = .held → s.gangWhole l = true → s.frozenCtx l.ctx = false →
      ∃ t, exec (.gangStart key) s = .next t ∧ t.mem = s.mem ∧ t.beacon = (if s.beacon.toNat < l.start.toNat then l.start else s.beacon) ∧
        (t.launch key).map (·.phase) = some .running ∧
        t.vlcs = s.vlcs.map fun v => if v.launch = key ∧ v.status = .held then { v with status := .runnable } else v) ∧
    (l.npkg ≤ 1 ∨ l.phase = .running ∨ l.phase = .done ∨ (l.phase = .held ∧ s.gangWhole l = true) →
      exec (.gangReportDeadline key) s = .next s) ∧
    (1 < l.npkg → (l.phase = .held ∧ s.gangWhole l = false) ∨ l.phase = .waiting ∨ l.phase = .ready →
      ∃ t, exec (.gangReportDeadline key) s = .next t ∧
        (t.launch key).map (fun l => (l.phase, l.failed)) = some (.done, some 7) ∧ .launchComplete key [] ∈ t.events)

/-! ## The stacks -/

/-- A write to DRFMT with GO starts a format (R282): one spread region, or all 64 of a row group, read 0 with tag 0 and no poison and
take the format written; no other byte changes. A write during BUSY is ignored, a refused one sets ERR, one without GO only
writes the fields; BUSY clears at the end. -/
def Claim.FormatsClearTheirRegions : Prop :=
  ∀ (s : State) (die : Nat) (x : BitVec 64),
    let stack := 2 * die + (if x.getLsbD 15 then 1 else 0)
    let r := (x.extractLsb' 0 15).toNat
    let gr := x.extractLsb' 22 2
    let wick := x.getLsbD 21
    let e := if wick then Instr.drfmtWick die x else .drfmtSpread die x
    let regions := if wick || (s.regionAt stack r).wick then groupRegions r else [r]
    ((s.die die).drfmtBusy = true → exec e s = .next s) ∧
    ((s.die die).drfmtBusy = false → x.getLsbD 61 = false →
      ∃ t, exec e s = .next t ∧ t.mem = s.mem ∧ t.v = s.v ∧ t.regions = s.regions ∧ (t.die die).drfmtGr = gr ∧
        (t.die die).drfmtWick = wick ∧ (t.die die).drfmtBusy = false) ∧
    ((s.die die).drfmtBusy = false → x.getLsbD 61 = true → (gr = 3 ∨ (wick = true ∧ gr ≠ 1)) →
      ∃ t, exec e s = .next t ∧ t.mem = s.mem ∧ t.v = s.v ∧ t.regions = s.regions ∧ (t.die die).drfmtErr = true ∧
        (t.die die).drfmtBusy = false) ∧
    ((s.die die).drfmtBusy = false → x.getLsbD 61 = true → gr ≠ 3 → (wick = true → gr = 1) →
      ∃ t, exec e s = .next t ∧ t.v = s.v ∧ (t.die die).drfmtBusy = true ∧ (t.die die).drfmtErr = false ∧
        .drfmtDone die ∈ t.events ∧
        (∀ k ∈ regions, (t.regionAt stack k).wick = wick ∧ (t.regionAt stack k).gr = gr ∧
          (t.keptRegion stack k).wick = wick ∧ (t.keptRegion stack k).gr = gr ∧
          ∀ o, o < 2 ^ 21 → t.mem.byte (regionBase stack k + o) = 0 ∧
            look false ((regionBase stack k + o) / 32) t.mem.poison = false ∧
            look 0 ((regionBase stack k + o) / 32) t.mem.tags = 0) ∧
        (∀ b, (∀ k ∈ regions, b < regionBase stack k ∨ regionBase stack k + 2 ^ 21 ≤ b) → t.mem.byte b = s.mem.byte b)) ∧
    exec (.drfmtDone die) s = .next (s.setDie die fun d => { d with drfmtBusy := false })

/-- A due refresh is postponed up to 8 times and issued at the ninth; one in progress keeps its bank from the wick scan, which goes on
when it is complete (R285, R273). No data changes. -/
def Claim.RefreshesArePostponed : Prop :=
  ∀ (s : State) (stack bank : Nat) (postpone : Bool), bank < 2048 →
    let r := s.refreshOf stack bank
    (∃ t, exec (.refreshDue stack bank postpone) s = .next t ∧ t.v = s.v ∧ t.mem = s.mem ∧
      (postpone = true → r.postponed < 8 →
        (t.refreshOf stack bank).postponed = r.postponed + 1 ∧ (t.refreshOf stack bank).busy = r.busy) ∧
      (postpone = true → 8 ≤ r.postponed → (t.refreshOf stack bank).postponed = 8 ∧ (t.refreshOf stack bank).busy = true) ∧
      (postpone = false → (t.refreshOf stack bank).postponed = 0 ∧ (t.refreshOf stack bank).busy = true) ∧
      (∀ k l, l < 2048 → ¬(k = stack ∧ l = bank) → t.refreshOf k l = s.refreshOf k l)) ∧
    (r.busy = false → exec (.refreshComplete stack bank) s = .next s) ∧
    (r.busy = true → ∃ t, exec (.refreshComplete stack bank) s = .next t ∧ t.v = s.v ∧ t.mem = s.mem ∧
      (t.refreshOf stack bank).busy = false ∧ (t.refreshOf stack bank).postponed = r.postponed ∧
      ((∃ q ∈ s.subqueries, q.stack = stack ∧ q.unread bank ≠ []) → .wickScanRow stack bank ∈ t.events))

/-- The end of a window clears the counts of its stack, and where they are uneven a swap of two spread regions may begin (R287). It
moves 32 pieces; before the last the persistent copy gives the regions each other's slot, and with the last the table does (R288). No
byte moves to another address. -/
def Claim.RegionsSwapSlots : Prop :=
  (∀ (s : State) (stack r0 r1 : Nat),
    ∃ t, exec (.remapWindowEnd stack r0 r1) s = .next t ∧ t.v = s.v ∧ t.mem = s.mem ∧ t.regions = s.regions ∧
      (∀ p, p < 64 → look 0 (64 * stack + p) t.accesses = 0) ∧
      (uneven (s.windowCounts stack) = false → t.swap = s.swap) ∧
      (uneven (s.windowCounts stack) = true → s.swap = none → r0 ≠ r1 → s.swappable stack r0 = true → s.swappable stack r1 = true →
        t.swap = some { stack := stack, r0 := r0, r1 := r1, pieces := 0 } ∧ .regionSwapPiece ∈ t.events)) ∧
  ∀ s : State,
    (s.swap = none → exec .regionSwapPiece s = .next s) ∧
    (∀ x, s.swap = some x →
      (x.pieces + 1 < 32 → ∃ t, exec .regionSwapPiece s = .next t ∧ t.v = s.v ∧ t.mem = s.mem ∧ t.regions = s.regions ∧
        t.swap = some { x with pieces := x.pieces + 1 } ∧ .regionSwapPiece ∈ t.events) ∧
      (x.pieces + 2 = 32 → x.r0 < 32768 → x.r1 < 32768 → x.r0 ≠ x.r1 →
        ∃ t, exec .regionSwapPiece s = .next t ∧
          slotOf x.r0 (t.keptRegion x.stack x.r0) = slotOf x.r1 (s.regionAt x.stack x.r1) ∧
          slotOf x.r1 (t.keptRegion x.stack x.r1) = slotOf x.r0 (s.regionAt x.stack x.r0) ∧
          (t.keptRegion x.stack x.r0).gr = (s.regionAt x.stack x.r0).gr ∧
          (t.keptRegion x.stack x.r1).gr = (s.regionAt x.stack x.r1).gr) ∧
      (32 ≤ x.pieces + 1 → x.r0 < 32768 → x.r1 < 32768 → x.r0 ≠ x.r1 →
        ∃ t, exec .regionSwapPiece s = .next t ∧ t.v = s.v ∧ t.mem = s.mem ∧ t.swap = none ∧
          t.regionAt x.stack x.r0 = s.keptRegion x.stack x.r0 ∧ t.regionAt x.stack x.r1 = s.keptRegion x.stack x.r1))

/-- A region-table entry whose two copies fail is rebuilt from the persistent copy, and every unit of its region is poisoned; one copy
that fails is rewritten from the other (R288). An uncorrectable error that scrubbing finds poisons its unit, is counted and posts a
notice (R284, R312); a read counts what the layer's severity and the controller's decode say, and poisons what it cannot correct
(R284); 32 bytes whose carry check fails read as poison (R286); an error of engine storage loses the mesh (R244); one of a vector
register poisons its word with FSR.POISON, and one of scalar, mask, stream or special state is marked for MEMERR REGFILE (R311). -/
def Claim.ErrorsAreNoticed : Prop :=
  (∀ (s : State) (stack r : Nat),
    (16 ≤ stack ∨ 32768 ≤ r → exec (.regionTableRebuild stack r) s = .next s) ∧
    (stack < 16 → r < 32768 → ∃ t, exec (.regionTableRebuild stack r) s = .next t ∧ t.v = s.v ∧
      t.regionAt stack r = s.keptRegion stack r ∧
      ∀ pa, stackOf pa = stack → regionNo pa = r → windowOf pa = 0 → t.poisoned pa = true) ∧
    ∀ die, stack < 16 → r < 32768 →
      (∃ t, exec (.scrubError die stack (.copy r true)) s = .next t ∧ t = { s with regions2 := t.regions2 } ∧
        look Region.reset (regionKey stack r) t.regions2 = s.regionAt stack r) ∧
      ∃ t, exec (.scrubError die stack (.copy r false)) s = .next t ∧ t = { s with regions := t.regions } ∧
        t.regionAt stack r = look Region.reset (regionKey stack r) s.regions2) ∧
  (∀ (s : State) (die mesh : Nat),
    exec (.scrubError die mesh .mesh) s = .next { s with meshes := s.meshes.map fun m =>
      if m.die = die ∧ m.id = mesh then { m with lost := true } else m }) ∧
  (∀ (s : State) (die pa sev : Nat) (beyond : Bool) (x : BitVec 8),
    let k (kind : Nat) := 2 * (64 * (stackOf pa % 2) + s.pseudoChannel pa) + kind
    let counted (t : State) (kind : Nat) := look 0 (k kind) (t.die die).counters = (look 0 (k kind) (s.die die).counters + 1) % 2 ^ 64
    (stackOf pa / 2 ≠ die ∨ windowOf pa ≠ 0 →
      exec (.scrubError die pa .unit) s = .next s ∧ exec (.scrubError die pa (.read sev beyond)) s = .next s ∧
      exec (.scrubError die pa (.carry x)) s = .next s) ∧
    (stackOf pa / 2 = die → windowOf pa = 0 →
      (∃ t, exec (.scrubError die pa .unit) s = .next t ∧ t.v = s.v ∧ counted t 1 ∧
        ((s.die die).hasRoom = false → t.poisoned pa = true ∧ t.mem.cells = s.mem.cells ∧
          (t.die die).lost = (if (s.die die).lost + 1 ≤ 0xFFFFFFFF then (s.die die).lost + 1 else 0xFFFFFFFF))) ∧
      (∃ t, exec (.scrubError die pa (.read sev beyond)) s = .next t ∧ t.v = s.v ∧ t.mem.cells = s.mem.cells ∧
        counted t (if beyond = true ∨ sev = 3 then 1 else 0) ∧ (beyond = true → t.poisoned pa = true) ∧
        (beyond = false → t.mem = s.mem)) ∧
      ∃ t, exec (.scrubError die pa (.carry x)) s = .next t ∧ t.v = s.v ∧ t.mem.cells = s.mem.cells ∧
        (s.mismatch pa = false → x ≠ 0 → t.poisoned pa = true ∧ t.carryAt pa = s.carryAt pa ^^^ x))) ∧
  ∀ (s : State) (die : Nat) (r : VReg) (word : Nat) (m : RegMark), s.v.isAt s.v.core s.v.slot = true →
    r.toNat < 8 * (s.v.declHeld.toNat + 1) →
    (∃ t, exec (.scrubError die word (.vreg s.v.core s.v.slot r)) s = .next t ∧ t.v.fsrPoison = true ∧ t.mem = s.mem ∧
      (word < 4096 → (t.v.vregs[r.toNat]).poison.getLsbD word = true)) ∧
    ∃ t, exec (.scrubError die 0 (.state s.v.core s.v.slot m)) s = .next t ∧ m ∈ t.v.bad ∧ t.mem = s.mem

/-! ## TLBINV -/

/-- A write to TLBINV takes the translations it names out of the die's TLB and its cores', and no others: of one context, of one page
of a context, or all (R297, R298). A write during BUSY, and one that another step carries, change nothing; BUSY clears once nothing
uses a translation that may have been removed: no access of a VLC, no sub-query, and nothing of the engines. -/
def Claim.TranslationsAreInvalidated : Prop :=
  ∀ (s : State) (die : Nat) (x : BitVec 64),
    let kind := x.extractLsb' 60 3
    let ctx := (x.extractLsb' 0 12).toNat
    let va : Word := (x.extractLsb' 16 41 ++ 0#16).signExtend 64
    let size := if kind = 1 then 16 else if kind = 2 then 21 else 30
    let ends (t : State) := t.v = s.v ∧ t.mem = s.mem ∧ (t.die die).tlbinvBusy = true ∧ .tlbinvDone die ∈ t.events ∧
      (∀ c, c / 128 ≠ die → (t.core c).tlb = (s.core c).tlb) ∧
      (∀ e ∈ (t.die die).tlb, e ∈ (s.die die).tlb) ∧ ∀ c, ∀ e ∈ (t.core c).tlb, e ∈ (s.core c).tlb
    let gone (t : State) (p : TlbEntry → Prop) := (∀ e ∈ (t.die die).tlb, ¬p e) ∧ ∀ c, c / 128 = die → ∀ e ∈ (t.core c).tlb, ¬p e
    let kept (t : State) (p : TlbEntry → Prop) := (∀ e ∈ (s.die die).tlb, p e → e ∈ (t.die die).tlb) ∧
      ∀ c, ∀ e ∈ (s.core c).tlb, p e → e ∈ (t.core c).tlb
    ((s.die die).tlbinvBusy = true → exec (.tlbinvContext die x) s = .next s ∧ exec (.tlbinvPage die x) s = .next s ∧
      exec (.tlbinvAll die x) s = .next s) ∧
    (kind ≠ 0 → exec (.tlbinvContext die x) s = .next s) ∧ (kind ≠ 4 → exec (.tlbinvAll die x) s = .next s) ∧
    (kind = 0 ∨ 4 ≤ kind.toNat → exec (.tlbinvPage die x) s = .next s) ∧
    (kind = 0 → (s.die die).tlbinvBusy = false → ∃ t, exec (.tlbinvContext die x) s = .next t ∧ ends t ∧
      gone t (fun e => e.ctx = ctx) ∧ kept t (fun e => e.ctx ≠ ctx)) ∧
    (1 ≤ kind.toNat → kind.toNat ≤ 3 → (s.die die).tlbinvBusy = false → ∃ t, exec (.tlbinvPage die x) s = .next t ∧ ends t ∧
      gone t (fun e => e.ctx = ctx ∧ ∃ a : Word, a.toNat / 2 ^ size = va.toNat / 2 ^ size ∧ e.vpn = a.toNat / 2 ^ e.size) ∧
      kept t (fun e => e.ctx ≠ ctx)) ∧
    (kind = 4 → (s.die die).tlbinvBusy = false → ∃ t, exec (.tlbinvAll die x) s = .next t ∧ ends t ∧
      (t.die die).tlb = [] ∧ ∀ c, c / 128 = die → (t.core c).tlb = []) ∧
    (((∃ v ∈ s.vlcs, s.holdsAccess die v = true) ∨ ∃ q ∈ s.subqueries, s.holdsQuery die q = true) →
      exec (.tlbinvDone die) s = .next s) ∧
    (s.holdsAny die = true → exec (.tlbinvDone die) s = .next s) ∧
    (s.holdsAny die = false → exec (.tlbinvDone die) s = .next (s.setDie die fun d => { d with tlbinvBusy := false }))

/-! ## The Pilot -/

/-- A Pilot command is taken up when none is in progress (R383): KEYSET puts a fresh key in a slot, KEYCLR empties it, FWSET sets a
firewall range that R390 allows; each leaves everything else alone, an argument out of range sets ERR, and in recovery mode
(R385) all three are refused. -/
def Claim.PilotKeysAndRanges : Prop :=
  ∀ (s : State) (x : BitVec 64), s.pilot.pmbusy = false →
    let ends (t : State) (code : Nat) (err : Bool) := t.pilot.pmbusy = true ∧ t.pilot.pmcmd = code ∧ t.pilot.pmarg = x ∧
      t.pilot.pmerr = err ∧ .pmcmdDone ∈ t.events ∧ t.v = s.v ∧ t.mem = s.mem
    let refused (e : Instr) (code : Nat) := ∃ t, exec e s = .next t ∧ ends t code true ∧ t.pilot.keys = s.pilot.keys ∧
      t.pilot.ranges = s.pilot.ranges
    let r := s.mem.bytes (x.toNat % 2 ^ 43) 32
    ((x.toNat ≤ 255 ∧ s.pilot.boot ≠ 4 → ∃ t, exec (.keyset x) s = .next t ∧ ends t 3 s.pilot.pmerr ∧
        (∀ k n, (k, n) ∈ t.pilot.keys ↔ (k = x.toNat ∧ n = s.pilot.nextKey) ∨ (k ≠ x.toNat ∧ (k, n) ∈ s.pilot.keys)) ∧
        t.pilot.nextKey = s.pilot.nextKey + 1 ∧ t.pilot.ranges = s.pilot.ranges) ∧
      (255 < x.toNat ∨ s.pilot.boot = 4 → refused (.keyset x) 3)) ∧
    ((x.toNat ≤ 255 ∧ s.pilot.boot ≠ 4 → ∃ t, exec (.keyclr x) s = .next t ∧ ends t 4 s.pilot.pmerr ∧
        (∀ k n, (k, n) ∈ t.pilot.keys ↔ k ≠ x.toNat ∧ (k, n) ∈ s.pilot.keys) ∧ t.pilot.ranges = s.pilot.ranges) ∧
      (255 < x.toNat ∨ s.pilot.boot = 4 → refused (.keyclr x) 4)) ∧
    ((s.pilot.boot ≠ 4 → s.ownDram x.toNat 32 = true → rangeOk r = true → ∃ t, exec (.fwset x) s = .next t ∧
        ends t 5 s.pilot.pmerr ∧ t.pilot.keys = s.pilot.keys ∧ field r 0 1 < 16 ∧ ∀ k, k < 16 → t.pilot.ranges.toList[k]? =
          if k = field r 0 1 then
            some { r := field r 1 1 % 2 == 1, w := field r 1 1 / 2 == 1, base := field r 8 8, limit := field r 16 8 }
          else s.pilot.ranges.toList[k]?) ∧
      (s.pilot.boot = 4 ∨ s.ownDram x.toNat 32 = false ∨ rangeOk r = false → refused (.fwset x) 5)) ∧
    exec .pmcmdDone { s with pilot := { s.pilot with pmbusy := true, staged := none } } =
      .next { s with pilot := { s.pilot with staged := none } }

/-- IDKEY writes the public key of the package and ATTEST a report with the nonce of its argument, signed, into this package's DRAM
(R380, R384, R391); UPDATE takes up an image that verifies and, once it has written its slot, resets the package (R385). All
three run in recovery mode too. A place outside the DRAM sets ERR and writes nothing. -/
def Claim.PilotIdentityAndUpdate : Prop :=
  ∀ (s : State) (x : BitVec 64), s.pilot.pmbusy = false →
    let k := x.toNat % 2 ^ 43
    let ends (t : State) (code : Nat) (err : Bool) := t.pilot.pmbusy = true ∧ t.pilot.pmcmd = code ∧ t.pilot.pmerr = err ∧
      .pmcmdDone ∈ t.events ∧ t.v = s.v
    let keeps (t : State) (lo n : Nat) := ∀ b, b < lo ∨ lo + n ≤ b → t.mem.byte b = s.mem.byte b
    (s.ownDram x.toNat 1952 = true → ∃ t, exec (.idkey x) s = .next t ∧ ends t 1 s.pilot.pmerr ∧
      t.mem.bytes k 1952 = bytesOf 1952 Config.publicKey.toNat ∧ keeps t k 1952) ∧
    (s.ownDram x.toNat (64 + 4096) = true →
      let h := s.reportHead (s.mem.bytes k 32)
      ∃ t, exec (.attest x) s = .next t ∧ ends t 2 s.pilot.pmerr ∧ h.length = 512 ∧ t.mem.bytes (k + 64) 512 = h ∧
        t.mem.bytes (k + 64 + 512) 3309 = bytesOf 3309 (Config.sign h).toNat ∧ (h.drop 32).take 32 = s.mem.bytes k 32 ∧
        keeps t (k + 64) 4096) ∧
    ((s.ownDram x.toNat 1952 = false → ∃ t, exec (.idkey x) s = .next t ∧ ends t 1 true ∧ t.mem = s.mem) ∧
      (s.ownDram x.toNat (64 + 4096) = false → ∃ t, exec (.attest x) s = .next t ∧ ends t 2 true ∧ t.mem = s.mem)) ∧
    (let n := min Config.imageBytes (2 ^ 26)
      let l := s.mem.bytes k n
      (s.ownDram x.toNat n = true → Config.verify l = true → ∃ t, exec (.update x) s = .next t ∧ ends t 6 s.pilot.pmerr ∧
        t.mem = s.mem ∧ t.pilot.staged = some l) ∧
      (s.ownDram x.toNat n = false ∨ Config.verify l = false → ∃ t, exec (.update x) s = .next t ∧ ends t 6 true ∧
        t.mem = s.mem ∧ t.pilot.staged = s.pilot.staged)) ∧
    ∀ l, s.pilot.staged = some l → ∃ t, exec .pmcmdDone s = .next t ∧ t.pilot.image = some l ∧ t.pilot.staged = none ∧
      t.pilot.flashValid = true ∧ .packageReset ∈ t.events ∧ t.v = s.v ∧ t.mem = s.mem

/-- A reset leaves no VLC, launch, key or byte of memory; the fuses, the flash and the package's place in its pod stay (R385, R388). Its
steps follow in turn: PBOOT.STATE is 1 while the DRAM is formatted and 2 while the image is verified. An image that verifies then
loads into the Pilot's reserved DRAM and runs, and one that does not, or a request for it, leads to recovery mode. A loss of power makes a slot
that was being written invalid. -/
def Claim.ResetsAndBoots : Prop :=
  ∀ s : State,
    let fresh (t : State) := t.v = Vlc.absent ∧ t.parked = [] ∧ t.mem = Memory.empty ∧ t.launches = [] ∧ t.queues = [] ∧
      t.pilot.keys = [] ∧ t.regions = [] ∧ t.dies = [] ∧ t.commands = [] ∧ t.endpoint = s.endpoint ∧
      t.pilot.image = s.pilot.image ∧ (canon Core.reset s.cores = true → ∀ c, (t.core c).fused = (s.core c).fused ∧
        (t.core c).lremap = (s.core c).lremap ∧ (t.core c).lcen = ~~~(s.core c).fused ∧ (t.core c).tlb = [] ∧ (t.core c).spad = Memory.empty)
    (4 ≤ s.pilot.step → ∃ t, exec .packageReset s = .next t ∧ fresh t ∧ t.pilot.step = 1 ∧ t.pilot.boot = 0 ∧
      t.pilot.rreq = s.pilot.rreq ∧ t.pilot.flashValid = s.pilot.flashValid ∧ .packageReset ∈ t.events) ∧
    (1 ≤ s.pilot.step → s.pilot.step ≤ 3 → ∃ t, exec .packageReset s = .next t ∧ t.v = s.v ∧ t.mem = s.mem ∧
      t.pilot.step = s.pilot.step + 1 ∧ t.pilot.boot = s.pilot.step - 1 ∧ (s.pilot.step ≤ 2 → .packageReset ∈ t.events)) ∧
    (∃ t, exec .powerLoss s = .next t ∧ fresh t ∧ t.pilot.boot = 0 ∧ t.pilot.rreq = false ∧
      t.pilot.flashValid = (s.pilot.flashValid && s.pilot.staged.isNone)) ∧
    (s.pilot.boot ≠ 2 → exec .bootImageVerified s = .next s) ∧
    (s.pilot.boot = 2 → ∃ t, exec .bootImageVerified s = .next t ∧ t.v = s.v ∧
      (s.pilot.rreq = false → s.pilot.verifies = true → t.pilot.boot = 3 ∧ t.pilot.step = 6 ∧
        let k := s.barAddr Config.pilotBase % 2 ^ 43
        let l := (Config.firmware s.pilot.image).take Config.pilotSize.val
        t.mem.bytes k l.length = l ∧ ∀ b, b < k ∨ k + l.length ≤ b → t.mem.byte b = s.mem.byte b) ∧
      (s.pilot.rreq = true ∨ s.pilot.verifies = false → t.pilot.boot = 4 ∧ t.pilot.rreq = false ∧ t.mem = s.mem)) ∧
    ∀ x : BitVec 64, exec (.pbootRreq x) s = .next { s with pilot := { s.pilot with rreq := s.pilot.rreq || x.getLsbD 63 } }

/-- ISLCTL requests a clock step of an island, and a change ends at the lesser of the request and the Pilot's limit (R386); stopping
island 0, or island 1 while it holds a VLC or a command, is ignored. PWR is the average of the last ten samples. Above the cap every limit falls one step, and rises again
below 95 % of it (R387). -/
def Claim.IslandsFollowTheirLimits : Prop :=
  ∀ s : State,
    (∀ (die k : Nat) (x : BitVec 64), k < 2 →
      let req := x.toNat % 256
      (req = 0 → k = 0 ∨ s.islandBusy die k = true → exec (.islctlWrite die k x) s = .next s) ∧
      (req ≠ 0 ∨ (k = 1 ∧ s.islandBusy die k = false) → ∃ t, exec (.islctlWrite die k x) s = .next t ∧ t.v = s.v ∧
        t.mem = s.mem ∧ t.island die k = { s.island die k with req := req, busy := true } ∧ .islandChangeDone die k ∈ t.events)) ∧
    (∀ die k : Nat, k < 2 → ∃ t, exec (.islandChangeDone die k) s = .next t ∧ t.v = s.v ∧ t.mem = s.mem ∧
      (t.island die k).busy = false ∧
      (t.island die k).cur = min (if (s.island die k).req = 0 then 0 else max 6 (min 21 (s.island die k).req)) (s.island die k).lim ∧
      (s.pilot.lowered = false → t.pilot.overcurrent = s.pilot.overcurrent)) ∧
    (∀ w : BitVec 16,
      let l := (w :: s.pilot.samples).take 10
      exec (.powerSample w) s = .next { s with pilot := { s.pilot with
        samples := l, pwr := BitVec.ofNat 16 ((l.map (·.toNat)).foldl (· + ·) 0 / l.length) } }) ∧
    exec .railOvercurrent s = .next { s with pilot := { s.pilot with overcurrent := true, lowered := false } } ∧
    (
      let moved (f : Nat → Nat) (t : State) := t.v = s.v ∧ t.mem = s.mem ∧ ∀ die k, die < 8 → k < 2 →
        (t.island die k).lim = f (s.island die k).lim ∧ (t.island die k).cur = (s.island die k).cur ∧
        .islandChangeDone die k ∈ t.events
      (s.pilot.limit.toNat < s.pilot.pwr.toNat → ∃ t, exec .limStepDown s = .next t ∧ moved (fun n => max 6 (n - 1)) t) ∧
      (s.pilot.pwr.toNat ≤ s.pilot.limit.toNat → exec .limStepDown s = .next s) ∧
      (100 * s.pilot.pwr.toNat < 95 * s.pilot.limit.toNat → ∃ t, exec .limStepUp s = .next t ∧ moved (fun n => min 21 (n + 1)) t) ∧
      (95 * s.pilot.limit.toNat ≤ 100 * s.pilot.pwr.toNat → exec .limStepUp s = .next s))

/-- A host read of BAR 4 returns the bytes of DRAM inside the firewall's ranges and all ones elsewhere; a host write outside them is
dropped, and one inside writes its bytes and no other (R376, R390); the Pilot's reserved DRAM lies in no range. A configuration request is retried until bring-up step 6
(R388). -/
def Claim.HostsAccessTheirRanges : Prop :=
  ∀ (s : State) (off : Nat),
    (∀ n, (∀ k, k < n → s.passes false (off + k) = false) →
      exec (.hostDramRead off n) s = .next { s with replies := s.replies ++ [.data (List.replicate n (0xFF, false))] }) ∧
    (∀ n, (∀ k, k < n → s.passes false (off + k) = true ∧ s.poisoned (s.barAddr (off + k)) = false) →
      ∃ t, exec (.hostDramRead off n) s = .next t ∧ t = { s with accesses := t.accesses, replies := s.replies ++
        [.data ((List.range n).map fun k => (s.mem.byte (s.barAddr (off + k) % 2 ^ 43), false))] }) ∧
    (∀ data : List Byte, data.length ≤ runLength off →
      (s.passes true off = false → exec (.hostDramWrite off data) s = .next s) ∧
      (s.passes true off = true → ∃ t, exec (.hostDramWrite off data) s = .next t ∧ t.v = s.v ∧
        t.mem.bytes (s.barAddr off % 2 ^ 43) data.length = data ∧
        ∀ b, b < s.barAddr off % 2 ^ 43 ∨ s.barAddr off % 2 ^ 43 + data.length ≤ b → t.mem.byte b = s.mem.byte b)) ∧
    (s.pilot.boot = 3 → ∀ write : Bool, s.passes write off = true → off < 2 ^ 40 ∧ ∃ r ∈ s.pilot.ranges.toList,
      r.base ≤ off ∧ off < r.limit + 65536 ∧ (if write then r.w else r.r) = true) ∧
    (s.pilot.boot = 4 → ∀ write : Bool, s.passes write off = (!inReserved off && decide (off < 2 ^ 26))) ∧
    (∀ write : Bool, Config.pilotBase ≤ off → off < Config.pilotBase + Config.pilotSize.val → s.passes write off = false) ∧
    exec .hostConfigurationRequest s = .next { s with replies := s.replies ++ [.config (decide (s.pilot.boot < 3))] }

/-! ## The Snuff wave -/

/-- A wave stops every VLC of its job and no other, and the job freezes (R368 to R370): a VLC at a boundary, or one that waits inside an
instruction for no answer, freezes there, and one that has begun an instruction goes on to its stopping point. The first record of
each package stays (R371). Once everything the job sent is answered and every other endpoint has reported, the job is frozen. -/
def Claim.WavesFreezeJobs : Prop :=
  ∀ (s : State) (job : Nat) (time : BitVec 64) (ep die cls rank : Nat) (pc detail : BitVec 64) (cuts : List (Nat × Nat × Nat)),
    (∃ t, exec (.snuffWaveArrival ⟨job, cuts⟩ time ep die cls rank pc detail) s = .next t ∧
      t.vlcs = s.vlcs.map (fun v => if s.inJob job v then v.caught (v.cutOf cuts) else v) ∧
      (t.job job).map (·.st) = some (if (s.job job).map (·.st) = some .frozen then .frozen else .freezing) ∧
      (∃ j, t.job job = some j ∧ ∃ c ∈ j.causes, c.ep = ep ∨ c = causeFrom time ep die cls rank pc detail) ∧
      .frozenReport job (decide (65536 ≤ job)) ∈ t.events) ∧
    (∀ j, s.job job = some j → causeFrom time ep die cls rank pc detail ∉ j.causes → ep ≠ s.endpoint →
      ∃ t, exec (.causeRecord job time ep die cls rank pc detail) s = .next t ∧ t.v = s.v ∧
        (t.job job).map (fun j => (j.causes, j.st)) = some (j.causes ++ [causeFrom time ep die cls rank pc detail], j.st)) ∧
    (∀ (v : Vlc) (cut : Option Nat), v.frozen = false →
      (v.status = .runnable → cut = none → v.caught cut = { v with frozen := true, stepOnce := false }) ∧
      (∀ i, v.status = .blocked i → v.awaited = [] → v.caught cut = { v with frozen := true, stepOnce := false }) ∧
      (∀ i, v.status = .again i ∨ (v.status = .blocked i ∧ v.awaited ≠ []) →
        v.caught cut = { v with freezing := true, stepOnce := false })) ∧
    (∀ j peers, s.job job = some j → j.st ≠ .freezing ∨ s.absorbed job = false → exec (.frozenReport job peers) s = .next s) ∧
    (∀ j peers, s.job job = some j → j.st = .freezing → s.absorbed job = true →
      ∃ t, exec (.frozenReport job peers) s = .next t ∧ t.v = s.v ∧
        (t.job job).map (·.st) = some (if peers then .frozen else .freezing))

/-- A resume sets the release tick of a job that has stopped; one that comes after its tick releases at once and sets LATE (R373). At the release the
job runs, its VLCs are frozen no longer, one that waited executes its instruction again, and the Beacon reads no less than the
tick. -/
def Claim.JobsAreReleased : Prop :=
  ∀ (s : State) (job : Nat) (tick : BitVec 64) (j : Job), s.job job = some j →
    let released (t : State) := (t.job job).map (·.st) = some .running ∧
      (s.parked = [] → s.inJob job s.v = true → s.v.status.resident = true → s.v.frozen = true →
        t.v.frozen = false ∧ t.v.pending = none ∧ (s.v.pending = none →
          (∀ i, s.v.status = .blocked i → s.v.awaited = [] →
            t.v.status = .runnable ∧ t.v.sregs = s.v.sregs ∧ t.v.pc = s.v.pc) ∧
          (s.v.status = .runnable → t.v.status = .runnable ∧ t.v.sregs = s.v.sregs ∧ t.v.pc = s.v.pc))) ∧
      ∀ e ∈ j.held, e ∈ t.events
    (j.st = .running → exec (.snuffResumeArrival job tick) s = .next s) ∧
    (j.st ≠ .running → s.beacon.toNat ≤ tick.toNat → ∃ t, exec (.snuffResumeArrival job tick) s = .next t ∧ t.v = s.v ∧
      (t.job job).map (fun j => (j.st, j.release)) = some (j.st, tick)) ∧
    (j.st ≠ .running → tick.toNat < s.beacon.toNat → ∃ t, exec (.snuffResumeArrival job tick) s = .next t ∧
      t.sn.late = true ∧ released t) ∧
    (j.st = .running ∨ j.release = 0 → exec (.snuffReleaseTick job) s = .next s) ∧
    (j.st ≠ .running → j.release ≠ 0 → ∃ t, exec (.snuffReleaseTick job) s = .next t ∧ released t ∧
      j.release.toNat ≤ t.beacon.toNat)

/-- The Snuff commands (R373): each but FREEZE is refused with ERR where its job is not frozen. FREEZE starts a wave; RESUME names a
tick at least 10000 ahead; STEP lets the named VLC run once; DUMP saves it, and LOAD restores it. -/
def Claim.DebuggersCommand : Prop :=
  ∀ (s : State) (job : Nat),
    let u : State := { s with sn := { s.sn with job := BitVec.ofNat 16 job } }
    let err (u : State) : State := { u with sn := { u.sn with err := true } }
    let wrong := job = 0 ∨ 65536 ≤ job ∨ s.isFrozen job = false
    let core := 128 * (s.sn.arg.toNat / 2 ^ 13 % 8) + s.sn.arg.toNat / 2 ^ 6 % 128
    let slot := s.sn.arg.toNat / 2 ^ 4 % 4
    let named := s.sn.arg.toNat / 2 ^ 16 % 8192 = s.endpoint ∧ s.v.isAt core slot = true ∧ s.inJob job s.v = true
    (job = 0 ∨ 65536 ≤ job → exec (.sncmdFreeze job) s = .next (err u)) ∧
    (0 < job → job < 65536 → (s.job job).all (fun j => j.st == .running) = true → ∃ t, exec (.sncmdFreeze job) s = .next t ∧
      t.v = s.v ∧ t.mem = s.mem ∧ t.sn = u.sn ∧ (∃ c cuts, c.time = s.beacon ∧ c.ep = s.endpoint ∧
        .snuffWaveArrival ⟨job, cuts⟩ c.time c.ep c.die c.cls c.rank c.pc c.detail ∈ t.events ∧
        (s.causeKnown job = false → .wave job c ∈ t.outbox))) ∧
    (wrong → exec (.sncmdResume job) s = .next (err u) ∧ exec (.sncmdStep job) s = .next (err u) ∧
      exec (.sncmdDump job) s = .next (err u) ∧ exec (.sncmdLoad job) s = .next (err u)) ∧
    (¬wrong → s.sn.arg.toNat < s.beacon.toNat + 10000 → exec (.sncmdResume job) s = .next (err u)) ∧
    (¬wrong → s.beacon.toNat + 10000 ≤ s.sn.arg.toNat → exec (.sncmdResume job) s = .next { u with
      outbox := s.outbox ++ [.resume job s.sn.arg], events := s.events ++ [.snuffResumeArrival job s.sn.arg] }) ∧
    (¬wrong → named → s.v.pending = none → s.v.status = .runnable →
      exec (.sncmdStep job) s = .next { u with
        v := { s.v with frozen := false, stepOnce := true }
        jobs := s.jobs.map fun j => if j.key == job then { j with st := .stepping, asker := none } else j }) ∧
    (¬wrong → named → s.sn.addr.toNat % 4096 = 0 →
      (∀ w e, u.saveArea s.v.areaParty false s.v.sregNat s.sn.addr = (w, e) → (∀ key ep pa op, e ≠ some (.remote key ep pa op)) →
        ∃ t, exec (.sncmdDump job) s = .next t ∧ t.v = w.v ∧ t.mem = w.mem ∧ t.sn.err = (w.sn.err || e.isSome)) ∧
      (∀ a w, u.readStrip s.v.areaParty s.sn.addr = .ok (a, w) → ∃ t, exec (.sncmdLoad job) s = .next t ∧
        t.v.status = w.v.status ∧ t.v.pc = w.v.pc ∧ (∀ k : SReg, k ≠ 0 → t.rd k = BitVec.ofNat 64 (wordAt a.sregs k.toNat)) ∧
        t.v.vl = bitsOf (a.spr 0) 13 0 ∧ t.v.tpc = BitVec.ofNat 64 (a.spr 17))) ∧
    (¬wrong → named → s.sn.addr.toNat % 4096 ≠ 0 →
      exec (.sncmdDump job) s = .next (err u) ∧ exec (.sncmdLoad job) s = .next (err u))

/-- STEP's companions complete (R373): DUMP of a VLC whose area may be written raises no error and changes no register of it and no byte
outside the area; LOAD of an area that may be read, and passes R319's checks with STRIP, gives the VLC its registers. -/
def Claim.DebuggersFinish : Prop :=
  ∀ (s : State) (job : Nat),
    let u : State := { s with sn := { s.sn with job := BitVec.ofNat 16 job } }
    let core := 128 * (s.sn.arg.toNat / 2 ^ 13 % 8) + s.sn.arg.toNat / 2 ^ 6 % 128
    let slot := s.sn.arg.toNat / 2 ^ 4 % 4
    let at_ := s.sn.addr
    0 < job → job < 65536 → s.isFrozen job = true → s.sn.arg.toNat / 2 ^ 16 % 8192 = s.endpoint → s.v.isAt core slot = true →
    s.inJob job s.v = true →
    (
      let l := u.areaOf false s.v.sregNat
      u.areaWritable s.v.areaParty at_ l → s.mem.wf = true →
      ∃ t, exec (.sncmdDump job) s = .next t ∧ t.v = s.v ∧ t.sn = u.sn ∧
        ∀ c, (∀ p ∈ l, ∀ k pa, k < p.words →
          u.direct s.v.areaParty (.mem (at_ + BitVec.ofNat 64 p.off + BitVec.ofNat 64 (8 * k)) 8 .store 0) = some pa →
            c < dramKey pa ∨ dramKey pa + 8 ≤ c) → t.mem.byte c = s.mem.byte c) ∧
    ∀ x : Nat → Nat, u.areaOpens s.v.areaParty at_ x →
      ({ Area.ofHeader (areaWords x 0 32 ||| 2 ^ 49) with sprs := areaWords x 32 20 } : Area).bad s.v = false →
      ∃ t, exec (.sncmdLoad job) s = .next t ∧ t.sn = u.sn ∧ t.mem = s.mem ∧
        (∀ k : SReg, k ≠ 0 → t.rd k = BitVec.ofNat 64 (x (96 + k.toNat))) ∧ t.v.vl = bitsOf (x 32) 13 0 ∧
        t.v.scnt = BitVec.ofNat 64 (x 38) ∧ t.v.tpc = BitVec.ofNat 64 (x 49) ∧ t.v.tval = BitVec.ofNat 64 (x 50)

/-! ## The register windows -/

/-- A write to a register of the windows leaves its RW fields as written and no VLC or byte of memory changed; a read-only one, and an
address that names none, take no write (R292, R378). A 4-byte load reads its half, and a 4-byte write
carries the other half's RW fields; write-only fields read 0. PCAP clamps its
limit (R387). -/
def Obligations.RegisterWindowsReadAndWrite : Prop :=
  (∀ (s : State) (pa : Nat) (x : BitVec 64) (g : Reg),
    (∀ n, regAt pa = none ∨ (n ≠ 4 ∧ n ≠ 8) ∨ pa % n ≠ 0 → exec (.registerWrite pa ⟨n, x⟩) s = .next s) ∧
    (regAt pa = some g → pa % 8 = 0 →
      (exec (.registerWrite pa ⟨4, x⟩) s = exec (.registerWrite pa ⟨8,
        BitVec.ofNat 64 (x.toNat % 2 ^ 32 + (regRead s g &&& rwBits g).toNat / 2 ^ 32 * 2 ^ 32)⟩) s) ∧
      let plain := match g with
        | .pmarg | .dbgctx _ | .dbgcb _ | .snarg | .snaddr | .ctxbase _ | .wpaddr _ _ | .wpcfg _ _ | .stepctl _ | .qtrap _ => true
        | _ => false
      let fixed := match g with
        | .mgmtid | .notstat _ | .counter _ _ _ => true
        | _ => false
      (plain = true → ∃ t, exec (.registerWrite pa ⟨8, x⟩) s = .next t ∧ t.v = s.v ∧ t.mem = s.mem ∧
        regRead t g &&& rwBits g = x &&& rwBits g ∧ regRead t g &&& ~~~rwBits g = 0 ∧
        ∀ h, h ≠ g → (∃ pb, regAt pb = some h) → regRead t h = regRead s h) ∧
      (fixed = true → exec (.registerWrite pa ⟨8, x⟩) s = .next s) ∧
      (g = .pcap → ∃ t, exec (.registerWrite pa ⟨8, x⟩) s = .next t ∧ t.v = s.v ∧ t.mem = s.mem ∧
        t.pilot.limit.toNat = max 1000 (min 3600 (x.toNat % 65536))) ∧
      (g = .snstat → ∃ t, exec (.registerWrite pa ⟨8, x⟩) s = .next t ∧ t.v = s.v ∧ t.mem = s.mem ∧
        t.sn.err = (s.sn.err && !x.getLsbD 61) ∧ t.sn.late = (s.sn.late && !x.getLsbD 60)) ∧
      (∀ d, g = .nottail d → exec (.registerWrite pa ⟨8, x⟩) s = exec (.nottailWrite d x) s))) ∧
  (∀ (s : State) (g : Reg) (pa : Nat), pa % 8 = 0 →
    regLoad s g pa 4 + 2 ^ 32 * regLoad s g (pa + 4) 4 = regLoad s g pa 8) ∧
  (∀ (s : State) (d : Nat), regRead s .pmcmd = 0 ∧ regRead s .sncmd = 0 ∧ regRead s (.vend d) = 0 ∧
    regRead s .mgmtid = 0x8100B00100000000) ∧
  (∀ pa n x : Nat, regStore pa n x = .registerWrite pa ⟨n, BitVec.ofNat 64 x⟩) ∧
  ∀ (s : State) (die : Nat) (x : BitVec 64),
    ((s.die die).held = [] → exec (.nottailWrite die x) s = .next (s.setDie die fun d => { d with nottail := x })) ∧
    (∃ t, exec (.nottailWrite die x) s = .next t ∧ t.v = s.v ∧ (t.die die).nottail = x ∧
      ((t.die die).held = [] ∨ (t.die die).hasRoom = false) ∧
      (s.die die).notices + (s.die die).held.length = (t.die die).notices + (t.die die).held.length)

/-! ## Reset -/

/-- After reset each register of the windows reads the reset value of its table (R282, R297, R321, R325, R367, R372, R374, R385 to R387,
R389), and a VLC that starts holds the values of R63 and R105. -/
def Claim.RegistersResetAsTheirTablesSay : Prop :=
  (
    let s := State.reset
    regRead s .pboot = 0 ∧ regRead s .pmstat = 0 ∧ regRead s .pmarg = 0 ∧ regRead s .pcap = 3600 ∧
    (∀ q, regRead s (.qcfg q) = 0 ∧ regRead s (.qtrap q) = 0) ∧ (∀ c, regRead s (.dbgctx c) = 0 ∧ regRead s (.dbgcb c) = 0) ∧
    regRead s .snarg = 0 ∧ regRead s .snaddr = 0 ∧ regRead s .snstat = 0 ∧
    ∀ d, regRead s (.drfmt d) = 0x400000 ∧ regRead s (.ctxbase d) = 0 ∧ regRead s (.tlbinv d) = 0 ∧ regRead s (.resume d) = 0 ∧
      (∀ k, regRead s (.islctl d k) = 0x15150000000015) ∧ regRead s (.notbase d) = 0 ∧ regRead s (.nottail d) = 0 ∧
      regRead s (.notstat d) = 0 ∧ (∀ p k, regRead s (.counter d p k) = 0) ∧
      ∀ c n, regRead s (.wpaddr c n) = 0 ∧ regRead s (.wpcfg c n) = 0 ∧ regRead s (.stepctl c) = 0) ∧
  (State.reset.v = Vlc.absent ∧ State.reset.parked = []) ∧
  ∀ (s : State) (l : Launch) (rank core slot : Nat) (lc : BitVec 4),
    let v := s.startVlc l rank core slot lc
    let t : State := { s with v := v }
    v.pc = l.entry ∧ v.level = .user ∧ t.rd 3 = l.args ∧ t.rd 4 = BitVec.ofNat 64 rank ∧
      (∀ r : SReg, r ≠ 3 → r ≠ 4 → t.rd r = 0) ∧ t.sprRead .vl = 0 ∧ t.sprRead .mvl = 0 ∧ t.sprRead .mt = 0 ∧
      t.sprRead .vstart = 0 ∧ t.sprRead .scnt = 0 ∧ t.sprRead .tsm = 0 ∧ t.sprRead .tsn = 0 ∧ t.sprRead .tsk = 0 ∧
      t.sprRead .fpc = 0 ∧ t.sprRead .srseed = BitVec.ofNat 64 (rank % 2 ^ 32 + 1) ∧ t.sprRead .tcause = 0 ∧ t.sprRead .tpc = 0 ∧ t.sprRead .tval = 0 ∧
      t.sprRead .vlcid = BitVec.ofNat 64 (rank % 2 ^ 32) ∧ v.vt = .f64 ∧ v.mode = .inactive ∧ v.declEff = l.regs ∧
      v.declPend = l.regs ∧ (∀ k : Fin 16, v.streams[k] = Stream.unbound) ∧ (∀ k : Fin 32, v.vregs[k].hwm = 0) ∧
      ∀ k : Fin 8, v.masks[k] = 0

/-! ## The canonical form -/

/-- Every step keeps the canonical form of memory: addresses strictly rise, and no entry holds what an unlisted one reads as, among
the bytes, the poison marks, the tags and the carry checks. -/
def Obligations.StepsKeepMemoryCanonical : Prop :=
  ∀ s t : State, s.mem.wf = true → step s = .next t → t.mem.wf = true

/-- After reset memory is canonical, and so are the collections of cores, clusters, dies and queues and the copies of the region
table. -/
def Claim.ResetIsCanonical : Prop :=
  State.reset.mem.wf = true ∧ canon Core.reset State.reset.cores = true ∧ canon Cluster.reset State.reset.clusters = true ∧
    canon Die.reset State.reset.dies = true ∧ canon Queue.reset State.reset.queues = true ∧
    canon Region.reset State.reset.regions = true ∧ canon Region.reset State.reset.regions2 = true ∧
    canon Region.reset State.reset.regionsKept = true

/-! ## The claims together -/

/-- A step takes inputs first, gathers a convoy, and raises ILL for an encoding decode refuses. -/
def Obligations.ConvoysAreFetchedInTurn : Prop :=
  Claim.StepRunsConvoy ∧ Claim.StepOrder

/-- MFS reads a special register, and reads back what MTS wrote to its fields. -/
def Obligations.SpecialRegistersMove : Prop :=
  Claim.SpecialRegisterMoves ∧ Claim.SpecialRegisterReadBack

/-- Branches, jumps, calls and returns go to their targets and change nothing else. -/
def Obligations.TransfersOfControl : Prop :=
  Claim.BranchesGoToTheirTargets ∧ Claim.JumpsAndCalls

/-- An instruction that a check of decode turns away takes its trap and has no effect. -/
def Obligations.ChecksTurnInstructionsAway : Prop :=
  Claim.TurnedAwayTakesItsTrap ∧ Claim.ChecksThatDependOnState ∧ Claim.PassedChecksLetRun ∧ Claim.PrivilegedInstructions

/-- Taking a trap saves the cause, the pc and the registers and enters the handler; or it stops the VLC. -/
def Obligations.TrapsAreTaken : Prop :=
  Claim.TrapEntersItsHandler ∧ Claim.TrapsThatStop

/-- TRAP and BRK take their traps; ERET returns to TPC at the saved level with s1 to s31 reloaded. -/
def Obligations.TrapsAreRequestedAndReturnedFrom : Prop :=
  Claim.TrapClassCodes ∧ Claim.TrapAndBreakpoint ∧ Claim.TrapsEnterTheirHandlers ∧ Claim.ReturnFromTrap ∧
    Claim.ReturnsReachTheirProgram ∧ Claim.ReloadReadsEachRegister

/-- FENCE, YIELD, RDTIME, SNUFF and IDLE do what their rules say. -/
def Obligations.SystemInstructionsComplete : Prop :=
  Claim.FencesAndYield ∧ Claim.ReadTimeRoundTrip ∧ Claim.SnuffStartsWave ∧ Claim.IdleReleasesOrWaits

/-- Scalar loads and stores read or write their bytes at their address and change nothing else. -/
def Obligations.ScalarAccessesComplete : Prop :=
  Claim.ScalarLoadsComplete ∧ Claim.ScalarStoresComplete ∧ Claim.ScalarLoadsFinish ∧ Claim.ScalarStoresFinish

/-- An access to a local space or to DRAM reads or writes exactly its bytes. -/
def Obligations.AccessesReachTheirBytes : Prop :=
  Claim.LocalSpaceAccesses ∧ Claim.DramLoads ∧ Claim.DramStores

/-- An access that completes is one its leaf permits, and a walk ends at the leaf of its address. -/
def Obligations.TranslationsFollowTheirLeaves : Prop :=
  Claim.PermittedAccesses ∧ Claim.WalksFindLeaves

/-- AMO and CAS return the old value, replace the word by what their operation gives, and nothing else. -/
def Obligations.AtomicsReplaceTheirWord : Prop :=
  Claim.AtomicsComplete ∧ Claim.AtomicsFinish ∧ Claim.AtomicsReplaceMemory ∧ Claim.AmoOperations

/-- Directed rounding brackets the exact result, and sums and products are rounded once. -/
def Obligations.RoundingIsExactOrDirected : Prop :=
  Claim.RoundingIsDirected ∧ Claim.ExactSumsAndProducts

/-- A vector instruction computes each active element, keeps the others, and stops at the first that fails. -/
def Obligations.VectorElementsAreComputed : Prop :=
  Claim.VectorElementValues ∧ Claim.VectorInstructionsRunTheirElements ∧ Claim.VectorStopsAtItsElement ∧ Claim.ConversionsFinish

/-- Compares and mask operations give each mask bit its value; counts and searches read them. -/
def Obligations.MasksAreComputed : Prop :=
  Claim.MaskResults ∧ Claim.MaskCounts

/-- Permutes, slides, compressions and element moves put each element where its rule says. -/
def Obligations.ElementsAreMoved : Prop :=
  Claim.WholeVectorMoves ∧ Claim.ElementToScalar

/-- Reductions combine the active elements, sums of floating-point types in the tree of R143. -/
def Obligations.ReductionsFollowTheirTree : Prop :=
  Claim.IntegerReductions ∧ Claim.FloatingReductions ∧ Claim.ScansFinish ∧ Claim.TreeSumHalves

/-- QSET binds a valid record, and a stream visits the addresses of its pattern or tile. -/
def Obligations.StreamsAreSetUp : Prop :=
  Claim.StreamSetup ∧ Claim.StreamsAreBound ∧ Claim.BoundStreamsAreValid ∧ Claim.StreamAddresses

/-- Elements of stream and indexed accesses move between their register element and their address. -/
def Obligations.StreamElementsMove : Prop :=
  Claim.StreamElements ∧ Claim.IndexedElements ∧ Claim.VectorLoadsFinish ∧ Claim.VectorStoresFinish

/-- Vector elements reach the space that MT names, and VSTXA adds to memory. -/
def Obligations.VectorSpacesAndAtomics : Prop :=
  Claim.VectorElementSpaces ∧ Claim.AccumulatingElements ∧ Claim.VectorSumsFinish ∧ Claim.CountersAreBinned ∧
    Claim.ChunkLoadsFinish ∧ Claim.ChunkStoresFinish

/-- Voxel tables and the tag table find, insert and replace the entries their rules say. -/
def Obligations.TablesLookAndInsert : Prop :=
  Claim.VoxelTables ∧ Claim.VoxelInstructionsFinish ∧ Claim.TagTable

/-- TSHAPE grants the shape of R202; slots are claimed and released; TZERO clears an accumulator. -/
def Obligations.ShapesAndSlots : Prop :=
  Claim.ShapesAreGranted ∧ Claim.SlotsAndZero

/-- TLD fills its slot from its positions in order, and resumes where it stopped. -/
def Obligations.TilesAreLoaded : Prop :=
  Claim.TileLoads ∧ Claim.TileLoadsFinish ∧ Claim.TilePositions ∧ Claim.PortsFinish

/-- A grant without rows waits; VREGS writes the pending declaration; VNEXT ends its loop. -/
def Obligations.GrantsWaitAndLoopsEnd : Prop :=
  Claim.GrantsThatWait ∧ Claim.DeclarationsAndLoopEnds

/-- A convoy within the limits of R85 runs its members in the phases of R86. -/
def Obligations.ConvoysRunTheirPhases : Prop :=
  Claim.ConvoysRunTheirPhases ∧ Claim.ConvoysFinish ∧ Claim.ConvoyLimits

/-- An engine step finds the VLC it is about, and a wake runs its instruction again. -/
def Obligations.WakesFindTheirVlc : Prop :=
  Claim.EventsFindTheirVlc ∧ Claim.WakesRunTheInstructionAgain ∧ Claim.WakesComplete

/-- Waits end as their rules say, WAITV on its value, and pre-emption requests are made and taken. -/
def Obligations.WaitsAndRequestsEnd : Prop :=
  Claim.WaitsEnd ∧ Claim.PreemptionRequests ∧ Claim.WaitsForValues ∧ Claim.WaitsForValuesFinish

/-- BAR and SSYNC arrive, and their generation completes once every member has. -/
def Obligations.BarriersArriveAndComplete : Prop :=
  Claim.BarriersArrive ∧ Claim.BarriersComplete ∧ Claim.SuperstepsAdvance

/-- An engine command is issued with what it captures, and ends with its status word. -/
def Obligations.CommandsAreIssuedAndEnd : Prop :=
  Claim.CommandsAreIssued ∧ Claim.IssuesFinish ∧ Claim.CommandsEnd ∧ Claim.CommandsFinish

/-- CPY moves each element into its shadow, and publication writes exactly the shadow. -/
def Obligations.CopiesPublishTheirElements : Prop :=
  Claim.CopiesMoveElements ∧ Claim.PublishedBytes

/-- PUBL publishes the shadows of a target at once, and CWAIT returns a status once. -/
def Obligations.PublicationIsWhole : Prop :=
  Claim.PublicationIsWhole ∧ Claim.StatusesAreClaimedOnce

/-- MNBR binds face records, mesh collectives end in every party, and mesh results follow their shape. -/
def Obligations.MeshesAreBuiltAndBound : Prop :=
  Claim.NeighbourBindings ∧ Claim.BindingsFinish ∧ Claim.CollectiveRoundsEnd ∧ Claim.MeshResults

/-- WQPOST gives its sub-queries to their stacks, banks scan their rows, and WKVAPP appends a pair. -/
def Obligations.QueriesReachTheirTokens : Prop :=
  Claim.QueriesArePosted ∧ Claim.SubQueriesFollowTheirStacks ∧ Claim.BanksScanTheirRows ∧ Claim.PairsAreAppended ∧
    Claim.WickInstructionsFinish

/-- Triples combine as R269 says, and WQRECV delivers them lowest stack first. -/
def Obligations.TriplesAreCombinedAndReceived : Prop :=
  Claim.EmptyTriplesAreNeutral ∧ Claim.TriplesAreCombined ∧ Claim.TriplesAreReceived

/-- FPUT and FGET issue a transfer, which moves its units of 8 bytes in order. -/
def Obligations.TransfersMoveTheirUnits : Prop :=
  Claim.TransfersAreIssued ∧ Claim.TransfersMoveUnits ∧ Claim.TransfersFinish

/-- Requests of other endpoints are performed and answered; answers and time-outs reach their VLC. -/
def Obligations.FabricAnswersRequests : Prop :=
  Claim.RemoteRequestsAreAnswered ∧ Claim.AnswersArrive ∧ Claim.PlanesAndBeacon

/-- CRING joins a formation, which ends in a ring, a mismatch or a time-out. -/
def Obligations.RingsForm : Prop :=
  Claim.RingsAreJoined ∧ Claim.RingInstructionsFinish ∧ Claim.RingsForm

/-- COLL takes part in a round, which completes with the results of Table 5 or fails; CABORT breaks a ring. -/
def Obligations.RoundsRun : Prop :=
  Claim.RoundsBegin ∧ Claim.RingRoundsEnd

/-- VSAVE writes a save area and VRESTORE loads one that passes its checks. -/
def Obligations.AreasSaveAndRestore : Prop :=
  Claim.AreasAreSavedAndRestored ∧ Claim.AreasFinish ∧ Claim.AreasReadBack

/-- LAUNCH enqueues a record; the oldest is checked and its wait words read; a launch completes and signals. -/
def Obligations.LaunchesAreQueuedAndChecked : Prop :=
  Claim.QueuesTakeRecords ∧ Claim.LaunchesFinish ∧ Claim.RecordsAreChecked ∧ Claim.LaunchStepsFinish ∧ Claim.LaunchesComplete

/-- Launches and resumed VLCs are placed, VEND ends a VLC, and a gang starts together. -/
def Obligations.LaunchesArePlacedAndEnd : Prop :=
  Claim.LaunchesArePlaced ∧ Claim.VlcsAreResumed ∧ Claim.ResumesFinish ∧ Claim.VlcsAreEnded ∧ Claim.GangsStart

/-- Formats, refreshes, region swaps, errors and TLB invalidations change what they name and nothing else. -/
def Obligations.StacksAndTranslations : Prop :=
  Claim.FormatsClearTheirRegions ∧ Claim.RefreshesArePostponed ∧ Claim.RegionsSwapSlots ∧ Claim.ErrorsAreNoticed ∧
    Claim.TranslationsAreInvalidated

/-- Pilot commands, resets, clock islands and host accesses do what file 17 says. -/
def Obligations.PilotAndHost : Prop :=
  Claim.PilotKeysAndRanges ∧ Claim.PilotIdentityAndUpdate ∧ Claim.ResetsAndBoots ∧ Claim.IslandsFollowTheirLimits ∧
    Claim.HostsAccessTheirRanges

/-- A Snuff wave freezes its job, a release resumes it, and the debugger commands a frozen one. -/
def Obligations.SnuffWavesStopAndRelease : Prop :=
  Claim.WavesFreezeJobs ∧ Claim.JobsAreReleased ∧ Claim.DebuggersCommand ∧ Claim.DebuggersFinish

/-- Reset leaves every register at the value of its table, no VLC, and memory canonical. -/
def Obligations.ResetState : Prop :=
  Claim.RegistersResetAsTheirTablesSay ∧ Claim.ResetIsCanonical
end

