-- ==== Sys2Proof/Laws/Assoc.lean ====
section
/-! SUPPORT. Laws of sparse collections: what `look` gives after `put`, and the canonical form that every operation keeps. -/

namespace Sys2Proof.Machine

variable {α : Type} [DecidableEq α]

omit [DecidableEq α] in
@[simp] theorem look_nil (d : α) (k : Nat) : look d k [] = d := rfl

theorem risingFrom_mono {d : α} {lo hi : Nat} (h : lo ≤ hi) {l : List (Nat × α)} (hl : risingFrom d hi l = true) :
    risingFrom d lo l = true := by
  cases l with
  | nil => rfl
  | cons p l =>
    simp only [risingFrom, Bool.and_eq_true, decide_eq_true_eq] at hl ⊢
    exact ⟨⟨h.trans hl.1.1, hl.1.2⟩, hl.2⟩

/-- A key below every listed key reads as the default. -/
theorem look_below {d : α} {k lo : Nat} (h : k < lo) {l : List (Nat × α)} (hl : risingFrom d lo l = true) :
    look d k l = d := by
  induction l generalizing lo with
  | nil => rfl
  | cons p l ih =>
    simp only [risingFrom, Bool.and_eq_true, decide_eq_true_eq] at hl
    have : p.1 ≠ k := by omega
    simp only [look, this, if_false]
    exact ih (lo := p.1 + 1) (by omega) hl.2

/-- Striking a key that is not listed changes nothing. -/
theorem strike_below {d : α} {k lo : Nat} (h : k < lo) {l : List (Nat × α)} (hl : risingFrom d lo l = true) :
    strike k l = l := by
  induction l generalizing lo with
  | nil => rfl
  | cons p l ih =>
    simp only [risingFrom, Bool.and_eq_true, decide_eq_true_eq] at hl
    have : p.1 ≠ k := by omega
    have e := ih (lo := p.1 + 1) (by omega) hl.2
    simp only [strike] at e ⊢
    simp [this, e]

/-- `put` keeps the canonical form. -/
theorem risingFrom_put {d : α} {k lo : Nat} (x : α) (h : lo ≤ k) {l : List (Nat × α)}
    (hl : risingFrom d lo l = true) : risingFrom d lo (put d k x l) = true := by
  induction l generalizing lo with
  | nil =>
    simp only [put]
    split
    · rfl
    · simp [risingFrom, *]
  | cons p l ih =>
    have hl' := hl
    simp only [risingFrom, Bool.and_eq_true, decide_eq_true_eq] at hl
    simp only [put]
    split
    · rename_i hk
      have hp : risingFrom d (k + 1) (p :: l) = true := by
        simp only [risingFrom, Bool.and_eq_true, decide_eq_true_eq]
        exact ⟨⟨hk, hl.1.2⟩, hl.2⟩
      split
      · rw [show ((p.1, p.2) :: l) = p :: l from rfl, strike_below (Nat.lt_succ_self k) hp]
        exact hl'
      · simp only [risingFrom, Bool.and_eq_true, decide_eq_true_eq]
        exact ⟨⟨h, by simpa [bne_iff_ne]⟩, by simpa [risingFrom] using hp⟩
    · split
      · rename_i hk
        subst hk
        split
        · rw [strike_below (Nat.lt_succ_self _) hl.2]
          exact risingFrom_mono (by omega) hl.2
        · simp only [risingFrom, Bool.and_eq_true, decide_eq_true_eq]
          exact ⟨⟨h, by simpa [bne_iff_ne]⟩, hl.2⟩
      · simp only [risingFrom, Bool.and_eq_true, decide_eq_true_eq]
        exact ⟨hl.1, ih (by omega) hl.2⟩

/-- `put` keeps the canonical form of a collection. -/
theorem canon_put {d : α} (k : Nat) (x : α) {l : List (Nat × α)} (hl : canon d l = true) :
    canon d (put d k x l) = true := risingFrom_put x (Nat.zero_le k) hl

/-- A key reads what `put` gave it. -/
theorem look_put_self_from {d : α} {k lo : Nat} (x : α) {l : List (Nat × α)} (hl : risingFrom d lo l = true) :
    look d k (put d k x l) = x := by
  induction l generalizing lo with
  | nil => simp only [put]; split <;> simp_all [look]
  | cons p l ih =>
    have hl' := hl
    simp only [risingFrom, Bool.and_eq_true, decide_eq_true_eq] at hl
    simp only [put]
    split
    · rename_i hk
      split
      · rename_i hx
        have hp : risingFrom d (k + 1) (p :: l) = true := by
          simp only [risingFrom, Bool.and_eq_true, decide_eq_true_eq]
          exact ⟨⟨hk, hl.1.2⟩, hl.2⟩
        rw [show ((p.1, p.2) :: l) = p :: l from rfl, strike_below (Nat.lt_succ_self k) hp,
          look_below (Nat.lt_succ_self k) hp, hx]
      · simp [look]
    · split
      · rename_i hk
        split
        · rename_i hx
          subst hk
          rw [strike_below (Nat.lt_succ_self _) hl.2, look_below (Nat.lt_succ_self _) hl.2, hx]
        · simp [look]
      · rename_i h1 h2
        have : p.1 ≠ k := fun e => h2 e.symm
        simp only [look, this, if_false]
        exact ih hl.2

omit [DecidableEq α] in
theorem look_strike_other {d : α} {j k : Nat} (h : j ≠ k) (l : List (Nat × α)) :
    look d j (strike k l) = look d j l := by
  induction l with
  | nil => rfl
  | cons p l ih =>
    simp only [strike] at ih ⊢
    by_cases hp : p.1 = k
    · have : p.1 ≠ j := by omega
      simp [hp, look, ih, h.symm]
    · simp [hp, look, ih]

/-- Another key reads as it did. -/
theorem look_put_other {d : α} {j k : Nat} (h : j ≠ k) (x : α) (l : List (Nat × α)) :
    look d j (put d k x l) = look d j l := by
  induction l with
  | nil => simp only [put]; split <;> simp [look, h.symm]
  | cons p l ih =>
    simp only [put]
    split
    · split
      · exact look_strike_other h _
      · simp [look, h.symm]
    · split
      · rename_i hk
        split
        · rw [look_strike_other h]; simp [look, ← hk, h.symm]
        · simp [look, ← hk, h.symm]
      · simp [look, ih]

/-- A key reads what `put` gave it. -/
theorem look_put_self {d : α} (k : Nat) (x : α) {l : List (Nat × α)} (hl : canon d l = true) :
    look d k (put d k x l) = x := look_put_self_from x hl

/-- What a key reads after `put`. -/
theorem look_put {d : α} (j k : Nat) (x : α) {l : List (Nat × α)} (hl : canon d l = true) :
    look d j (put d k x l) = if j = k then x else look d j l := by
  split
  · rename_i h; subst h; exact look_put_self j x hl
  · rename_i h; exact look_put_other h x l

/-- `putRange` keeps the canonical form. -/
theorem canon_putRange {d : α} (x : α) (n k : Nat) {l : List (Nat × α)} (hl : canon d l = true) :
    canon d (putRange d k x n l) = true := by
  induction n generalizing k l with
  | zero => exact hl
  | succ n ih => exact ih (k + 1) (canon_put k x hl)

/-- What a key reads after `putRange`. -/
theorem look_putRange {d : α} (j : Nat) (x : α) (n k : Nat) {l : List (Nat × α)} (hl : canon d l = true) :
    look d j (putRange d k x n l) = if k ≤ j ∧ j < k + n then x else look d j l := by
  induction n generalizing k l with
  | zero => simp [putRange]
  | succ n ih =>
    rw [putRange, ih (k + 1) (canon_put k x hl), look_put j k x hl]
    split <;> split <;> first | rfl | (split <;> first | rfl | omega) | omega

theorem risingFrom_clearKeys {d : α} (p : Nat → Bool) {lo : Nat} {l : List (Nat × α)}
    (hl : risingFrom d lo l = true) : risingFrom d lo (clearKeys p l) = true := by
  induction l generalizing lo with
  | nil => rfl
  | cons q l ih =>
    simp only [risingFrom, Bool.and_eq_true, decide_eq_true_eq] at hl
    simp only [clearKeys] at ih ⊢
    by_cases hq : p q.1 = true
    · simp only [List.filter_cons, hq, Bool.not_true, Bool.false_eq_true, if_false]
      exact ih (risingFrom_mono (by omega) hl.2)
    · simp only [List.filter_cons, hq, Bool.not_false, if_true, risingFrom, Bool.and_eq_true, decide_eq_true_eq]
      exact ⟨hl.1, ih hl.2⟩

/-- `clearKeys` keeps the canonical form. -/
theorem canon_clearKeys {d : α} (p : Nat → Bool) {l : List (Nat × α)} (hl : canon d l = true) :
    canon d (clearKeys p l) = true := risingFrom_clearKeys p hl

theorem risingFrom_ext {d : α} {lo : Nat} {l m : List (Nat × α)} (hl : risingFrom d lo l = true)
    (hm : risingFrom d lo m = true) (h : ∀ k, look d k l = look d k m) : l = m := by
  induction l generalizing lo m with
  | nil =>
    cases m with
    | nil => rfl
    | cons q m =>
      simp only [risingFrom, Bool.and_eq_true, decide_eq_true_eq, bne_iff_ne] at hm
      have := h q.1
      simp [look] at this
      exact absurd this.symm hm.1.2
  | cons p l ih =>
    simp only [risingFrom, Bool.and_eq_true, decide_eq_true_eq, bne_iff_ne] at hl
    cases m with
    | nil =>
      have := h p.1
      simp [look] at this
      exact absurd this hl.1.2
    | cons q m =>
      simp only [risingFrom, Bool.and_eq_true, decide_eq_true_eq, bne_iff_ne] at hm
      have hk : p.1 = q.1 := by
        rcases Nat.lt_trichotomy p.1 q.1 with hlt | heq | hgt
        · have e := h p.1
          have : q.1 ≠ p.1 := by omega
          simp only [look, if_true, this, if_false, look_below (show p.1 < q.1 + 1 by omega) hm.2] at e
          exact absurd e hl.1.2
        · exact heq
        · have e := h q.1
          have : p.1 ≠ q.1 := by omega
          simp only [look, if_true, this, if_false, look_below (show q.1 < p.1 + 1 by omega) hl.2] at e
          exact absurd e.symm hm.1.2
      have hx : p.2 = q.2 := by
        have e := h p.1
        simpa [look, hk] using e
      have hp : p = q := Prod.ext hk hx
      subst hp
      rw [ih hl.2 hm.2 fun k => ?_]
      by_cases hkp : k ≤ p.1
      · rw [look_below (by omega) hl.2, look_below (by omega) hm.2]
      · have e := h k
        have : p.1 ≠ k := by omega
        simpa only [look, this, if_false] using e

/-- Collections in canonical form that read alike are equal. -/
theorem canon_ext {d : α} {l m : List (Nat × α)} (hl : canon d l = true) (hm : canon d m = true)
    (h : ∀ k, look d k l = look d k m) : l = m := risingFrom_ext hl hm h

end Sys2Proof.Machine
end

