-- ==== Sys2Proof/Laws/Memory.lean ====
section
/-! SUPPORT. Laws of raw memories: what a byte reads after each memory operation, and the canonical form that each keeps. -/

namespace Sys2Proof.Machine

/-! ## The canonical form, part by part -/

theorem Memory.wf_iff (m : Memory) :
    m.wf = true ↔ canon 0 m.cells = true ∧ canon false m.poison = true ∧ canon 0 m.tags = true ∧ canon 0 m.checks = true := by
  simp [Memory.wf, and_assoc]

theorem Memory.wf_cells {m : Memory} (h : m.wf = true) : canon 0 m.cells = true := ((m.wf_iff).1 h).1

theorem Memory.wf_empty : Memory.empty.wf = true := rfl

/-- Memories in canonical form that read alike in bytes, poison, tags and checks are equal. -/
theorem Memory.ext_of_wf {m k : Memory} (hm : m.wf = true) (hk : k.wf = true) (hb : ∀ a, m.byte a = k.byte a)
    (hp : ∀ b, look false b m.poison = look false b k.poison) (ht : ∀ b, look 0 b m.tags = look 0 b k.tags)
    (hc : ∀ b, look 0 b m.checks = look 0 b k.checks) : m = k := by
  obtain ⟨c, p, t, x⟩ := m
  obtain ⟨c', p', t', x'⟩ := k
  rw [Memory.wf_iff] at hm hk
  have e1 := canon_ext hm.1 hk.1 hb
  have e2 := canon_ext hm.2.1 hk.2.1 hp
  have e3 := canon_ext hm.2.2.1 hk.2.2.1 ht
  have e4 := canon_ext hm.2.2.2 hk.2.2.2 hc
  simp only at e1 e2 e3 e4
  rw [e1, e2, e3, e4]

/-! ## One byte -/

/-- A write of a byte keeps the canonical form. -/
theorem Memory.wf_setByte {m : Memory} (a : Nat) (x : Byte) (h : m.wf = true) : (m.setByte a x).wf = true := by
  rw [Memory.wf_iff] at h ⊢
  exact ⟨canon_put a x h.1, h.2⟩

/-- A byte reads what was written to it. -/
theorem Memory.byte_setByte_self {m : Memory} (a : Nat) (x : Byte) (h : m.wf = true) : (m.setByte a x).byte a = x :=
  look_put_self a x (Memory.wf_cells h)

/-- Another byte reads as it did. -/
theorem Memory.byte_setByte_other (m : Memory) {a b : Nat} (x : Byte) (h : b ≠ a) : (m.setByte a x).byte b = m.byte b :=
  look_put_other h x m.cells

@[simp] theorem Memory.setByte_poison (m : Memory) (a : Nat) (x : Byte) : (m.setByte a x).poison = m.poison := rfl
@[simp] theorem Memory.setByte_tags (m : Memory) (a : Nat) (x : Byte) : (m.setByte a x).tags = m.tags := rfl
@[simp] theorem Memory.setByte_checks (m : Memory) (a : Nat) (x : Byte) : (m.setByte a x).checks = m.checks := rfl

/-! ## `n` bytes as a number -/

/-- A write of `n` bytes keeps the canonical form. -/
theorem Memory.wf_write {m : Memory} (a n x : Nat) (h : m.wf = true) : (m.write a n x).wf = true := by
  induction n generalizing m a x with
  | zero => exact h
  | succ n ih => exact ih (a + 1) (x / 256) (Memory.wf_setByte a _ h)

@[simp] theorem Memory.write_poison (m : Memory) (a n x : Nat) : (m.write a n x).poison = m.poison := by
  induction n generalizing m a x with
  | zero => rfl
  | succ n ih => simp [Memory.write, ih]

@[simp] theorem Memory.write_tags (m : Memory) (a n x : Nat) : (m.write a n x).tags = m.tags := by
  induction n generalizing m a x with
  | zero => rfl
  | succ n ih => simp [Memory.write, ih]

@[simp] theorem Memory.write_checks (m : Memory) (a n x : Nat) : (m.write a n x).checks = m.checks := by
  induction n generalizing m a x with
  | zero => rfl
  | succ n ih => simp [Memory.write, ih]

/-- A byte outside the `n` written reads as it did. -/
theorem Memory.byte_write_other (m : Memory) {a n b : Nat} (x : Nat) (h : b < a ∨ a + n ≤ b) :
    (m.write a n x).byte b = m.byte b := by
  induction n generalizing m a x with
  | zero => rfl
  | succ n ih =>
    rw [Memory.write, ih _ (a := a + 1) _ (by omega), Memory.byte_setByte_other]
    omega

/-- Byte `i` of the `n` written reads digit `i` of the number in base 256. -/
theorem Memory.byte_write {m : Memory} (a n x i : Nat) (hi : i < n) (h : m.wf = true) :
    (m.write a n x).byte (a + i) = BitVec.ofNat 8 (x / 256 ^ i) := by
  induction n generalizing m a x i with
  | zero => omega
  | succ n ih =>
    rw [Memory.write]
    cases i with
    | zero =>
      rw [Memory.byte_write_other _ _ (by omega)]
      simp [Memory.byte_setByte_self a _ h]
    | succ i =>
      have e := ih (a + 1) (x / 256) i (by omega) (Memory.wf_setByte a (BitVec.ofNat 8 x) h)
      rw [show a + 1 + i = a + (i + 1) by omega] at e
      rw [e, Nat.div_div_eq_div_mul, pow_succ']

theorem Memory.read_congr {m k : Memory} {a n : Nat} (h : ∀ b, a ≤ b → b < a + n → m.byte b = k.byte b) :
    m.read a n = k.read a n := by
  induction n generalizing a with
  | zero => rfl
  | succ n ih =>
    rw [Memory.read, Memory.read, h a (by omega) (by omega), ih fun b h1 h2 => h b (by omega) (by omega)]

theorem Memory.read_lt (m : Memory) (a n : Nat) : m.read a n < 256 ^ n := by
  induction n generalizing a with
  | zero => simp [Memory.read]
  | succ n ih =>
    have h1 := (m.byte a).isLt
    have h2 := ih (a + 1)
    rw [Memory.read, pow_succ]
    omega

/-- A read of the bytes written gives the number back, modulo its size. -/
theorem Memory.read_write {m : Memory} (a n x : Nat) (h : m.wf = true) : (m.write a n x).read a n = x % 256 ^ n := by
  induction n generalizing m a x with
  | zero => simp [Memory.read, Nat.mod_one]
  | succ n ih =>
    rw [Memory.read, Memory.write, ih (a + 1) (x / 256) (Memory.wf_setByte a _ h), Memory.byte_write_other _ _ (by omega),
      Memory.byte_setByte_self a _ h, BitVec.toNat_ofNat, show 256 ^ (n + 1) = 256 * 256 ^ n from pow_succ' 256 n, Nat.mod_mul]

/-- A read of other bytes gives what it gave. -/
theorem Memory.read_write_other (m : Memory) {a n b k : Nat} (x : Nat) (h : b + k ≤ a ∨ a + n ≤ b) :
    (m.write a n x).read b k = m.read b k :=
  Memory.read_congr fun c h1 h2 => Memory.byte_write_other m x (by omega)

/-! ## A list of bytes -/

/-- A write of a list of bytes keeps the canonical form. -/
theorem Memory.wf_setBytes {m : Memory} (a : Nat) (l : List Byte) (h : m.wf = true) : (m.setBytes a l).wf = true := by
  induction l generalizing m a with
  | nil => exact h
  | cons x l ih => exact ih (a + 1) (Memory.wf_setByte a x h)

/-- A byte outside the list written reads as it did. -/
theorem Memory.byte_setBytes_other (m : Memory) {a b : Nat} (l : List Byte) (h : b < a ∨ a + l.length ≤ b) :
    (m.setBytes a l).byte b = m.byte b := by
  induction l generalizing m a with
  | nil => rfl
  | cons x l ih =>
    simp only [List.length_cons] at h
    rw [Memory.setBytes, ih _ (a := a + 1) (by omega), Memory.byte_setByte_other]
    omega

/-- The bytes written read back. -/
theorem Memory.bytes_setBytes {m : Memory} (a : Nat) (l : List Byte) (h : m.wf = true) :
    (m.setBytes a l).bytes a l.length = l := by
  induction l generalizing m a with
  | nil => rfl
  | cons x l ih =>
    rw [List.length_cons, Memory.bytes, Memory.setBytes, ih (a + 1) (Memory.wf_setByte a x h),
      Memory.byte_setBytes_other _ _ (by omega), Memory.byte_setByte_self a x h]

/-! ## Poison, tags and whole regions -/

/-- Poison set or cleared on a run of blocks keeps the canonical form. -/
theorem Memory.wf_poisonRange {m : Memory} (k : Nat) (b : Bool) (n : Nat) (h : m.wf = true) :
    ({ m with poison := putRange false k b n m.poison } : Memory).wf = true := by
  rw [Memory.wf_iff] at h ⊢
  exact ⟨h.1, canon_putRange b n k h.2.1, h.2.2⟩

theorem canon_foldl_put {α : Type} [DecidableEq α] {d : α} (l : List (Nat × α)) {m : List (Nat × α)}
    (h : canon d m = true) : canon d (l.foldl (fun m x => put d x.1 x.2 m) m) = true := by
  induction l generalizing m with
  | nil => exact h
  | cons x l ih => exact ih (canon_put x.1 x.2 h)

/-- Tags set keep the canonical form. -/
theorem Memory.wf_setTags {m : Memory} (l : List (Nat × Nat)) (h : m.wf = true) :
    ({ m with tags := l.foldl (fun m x => put 0 x.1 x.2 m) m.tags } : Memory).wf = true := by
  rw [Memory.wf_iff] at h ⊢
  exact ⟨h.1, h.2.1, canon_foldl_put l h.2.2.1, h.2.2.2⟩

/-- A unit marked poisoned or not keeps the canonical form. -/
theorem Memory.wf_markUnit {m : Memory} (key u : Nat) (b : Bool) (h : m.wf = true) : (m.markUnit key u b).wf = true := by
  rw [Memory.wf_iff] at h ⊢
  simp only [Memory.markUnit]
  exact ⟨h.1, canon_putRange b _ _ h.2.1, h.2.2.1, canon_clearKeys _ h.2.2.2⟩

@[simp] theorem Memory.markUnit_byte (m : Memory) (key u : Nat) (b : Bool) (a : Nat) : (m.markUnit key u b).byte a = m.byte a := rfl

/-- A zeroed span keeps the canonical form. -/
theorem Memory.wf_zero {m : Memory} (base n : Nat) (h : m.wf = true) : (m.zero base n).wf = true := by
  rw [Memory.wf_iff] at h ⊢
  simp only [Memory.zero, clearSpan]
  exact ⟨canon_clearKeys _ h.1, canon_clearKeys _ h.2.1, canon_clearKeys _ h.2.2.1, canon_clearKeys _ h.2.2.2⟩

theorem look_clearKeys {α : Type} (d : α) (p : Nat → Bool) (k : Nat) (l : List (Nat × α)) :
    look d k (clearKeys p l) = if p k then d else look d k l := by
  induction l with
  | nil => simp [clearKeys]
  | cons q l ih =>
    simp only [clearKeys] at ih ⊢
    by_cases hq : p q.1 = true
    · by_cases hk : q.1 = k
      · subst hk; simp [hq, ih]
      · simp [hq, ih, look, hk]
    · by_cases hk : q.1 = k
      · subst hk; simp [hq, look]
      · simp [hq, ih, look, hk]

/-- A byte of a zeroed span reads 0; every other reads as it did. -/
theorem Memory.byte_zero (m : Memory) (base n a : Nat) :
    (m.zero base n).byte a = if base ≤ a ∧ a < base + n then 0 else m.byte a := by
  simp [Memory.byte, Memory.zero, clearSpan, look_clearKeys]

theorem risingFrom_append {α : Type} [DecidableEq α] {d : α} {lo hi : Nat} {l m : List (Nat × α)}
    (hl : risingFrom d lo l = true) (hm : risingFrom d hi m = true) (hh : lo ≤ hi) (hb : ∀ p ∈ l, p.1 < hi) :
    risingFrom d lo (l ++ m) = true := by
  induction l generalizing lo with
  | nil => exact risingFrom_mono hh hm
  | cons p l ih =>
    simp only [risingFrom, List.cons_append, Bool.and_eq_true, decide_eq_true_eq] at hl ⊢
    have := hb p (by simp)
    exact ⟨hl.1, ih hl.2 (by omega) fun q hq => hb q (by simp [hq])⟩

theorem risingFrom_marks (k n : Nat) : risingFrom false k ((List.range n).map fun i => (k + i, true)) = true := by
  induction n generalizing k with
  | zero => rfl
  | succ n ih =>
    rw [List.range_succ_eq_map]
    simp only [List.map_cons, List.map_map, risingFrom, Nat.add_zero, le_refl, decide_true, Bool.true_and, Bool.and_eq_true]
    refine ⟨rfl, ?_⟩
    have e : ((fun i => (k + i, true)) ∘ Nat.succ) = fun i => (k + 1 + i, true) := by
      funext i; simp; omega
    rw [e]
    exact ih (k + 1)

theorem risingFrom_clear_below {α : Type} [DecidableEq α] {d : α} {lo : Nat} (hi : Nat) {l : List (Nat × α)}
    (hl : risingFrom d lo l = true) : risingFrom d hi (clearKeys (fun j => decide (j < hi)) l) = true := by
  induction l generalizing lo with
  | nil => rfl
  | cons p l ih =>
    simp only [risingFrom, Bool.and_eq_true, decide_eq_true_eq] at hl
    simp only [clearKeys] at ih ⊢
    by_cases hp : p.1 < hi
    · simpa [hp] using ih hl.2
    · have e : (p :: l).filter (fun q => !decide (q.1 < hi)) = p :: l.filter (fun q => !decide (q.1 < hi)) := by simp [hp]
      rw [e]
      simp only [risingFrom, Bool.and_eq_true, decide_eq_true_eq]
      exact ⟨⟨by omega, hl.1.2⟩, risingFrom_clearKeys (fun j => decide (j < hi)) hl.2⟩

/-- Marking a run of blocks keeps the canonical form. -/
theorem canon_markSpan (k n : Nat) {l : List (Nat × Bool)} (hl : canon false l = true) :
    canon false (markSpan k n l) = true := by
  unfold markSpan canon at *
  refine risingFrom_append (hi := k + n) (risingFrom_append (hi := k) (risingFrom_clearKeys _ hl) (risingFrom_marks k n)
    (Nat.zero_le k) ?_) (risingFrom_clear_below (k + n) hl) (Nat.zero_le _) ?_
  · intro p hp
    simp only [clearKeys, List.mem_filter] at hp
    simpa using hp.2
  · intro p hp
    simp only [List.mem_append, clearKeys, List.mem_filter, List.mem_map, List.mem_range] at hp
    rcases hp with hp | ⟨i, hi, rfl⟩
    · have := hp.2
      simp only [Bool.not_eq_true', decide_eq_false_iff_not] at this
      omega
    · simp only; omega

/-- A marked run keeps the canonical form. -/
theorem Memory.wf_markSpan {m : Memory} (k n : Nat) (h : m.wf = true) :
    ({ m with poison := markSpan k n m.poison, checks := clearSpan k n m.checks } : Memory).wf = true := by
  rw [Memory.wf_iff] at h ⊢
  simp only [clearSpan]
  exact ⟨h.1, canon_markSpan k n h.2.1, h.2.2.1, canon_clearKeys _ h.2.2.2⟩

end Sys2Proof.Machine
end

