-- ==== Sys2Proof/Laws/State.lean ====
section
/-! SUPPORT. Laws of the state: what each named update leaves in each field. -/

namespace Sys2Proof.Machine

/-! ## `setV` -/

@[simp] theorem State.setV_v (s : State) (f : Vlc → Vlc) :
    (s.setV f).v = f s.v := rfl
@[simp] theorem State.setV_parked (s : State) (f : Vlc → Vlc) : (s.setV f).parked = s.parked := rfl
@[simp] theorem State.setV_events (s : State) (f : Vlc → Vlc) : (s.setV f).events = s.events := rfl
@[simp] theorem State.setV_freeCtr (s : State) (f : Vlc → Vlc) : (s.setV f).freeCtr = s.freeCtr := rfl
@[simp] theorem State.setV_endpoint (s : State) (f : Vlc → Vlc) : (s.setV f).endpoint = s.endpoint := rfl
@[simp] theorem State.setV_mem (s : State) (f : Vlc → Vlc) : (s.setV f).mem = s.mem := rfl
@[simp] theorem State.setV_regions (s : State) (f : Vlc → Vlc) : (s.setV f).regions = s.regions := rfl
@[simp] theorem State.setV_regions2 (s : State) (f : Vlc → Vlc) : (s.setV f).regions2 = s.regions2 := rfl
@[simp] theorem State.setV_regionsKept (s : State) (f : Vlc → Vlc) : (s.setV f).regionsKept = s.regionsKept := rfl
@[simp] theorem State.setV_swap (s : State) (f : Vlc → Vlc) : (s.setV f).swap = s.swap := rfl
@[simp] theorem State.setV_accesses (s : State) (f : Vlc → Vlc) : (s.setV f).accesses = s.accesses := rfl
@[simp] theorem State.setV_refresh (s : State) (f : Vlc → Vlc) : (s.setV f).refresh = s.refresh := rfl
@[simp] theorem State.setV_cores (s : State) (f : Vlc → Vlc) : (s.setV f).cores = s.cores := rfl
@[simp] theorem State.setV_clusters (s : State) (f : Vlc → Vlc) : (s.setV f).clusters = s.clusters := rfl
@[simp] theorem State.setV_dies (s : State) (f : Vlc → Vlc) : (s.setV f).dies = s.dies := rfl
@[simp] theorem State.setV_lastCore (s : State) (f : Vlc → Vlc) : (s.setV f).lastCore = s.lastCore := rfl
@[simp] theorem State.setV_queues (s : State) (f : Vlc → Vlc) : (s.setV f).queues = s.queues := rfl
@[simp] theorem State.setV_launches (s : State) (f : Vlc → Vlc) : (s.setV f).launches = s.launches := rfl
@[simp] theorem State.setV_nextLaunch (s : State) (f : Vlc → Vlc) : (s.setV f).nextLaunch = s.nextLaunch := rfl
@[simp] theorem State.setV_visited (s : State) (f : Vlc → Vlc) : (s.setV f).visited = s.visited := rfl
@[simp] theorem State.setV_reserved (s : State) (f : Vlc → Vlc) : (s.setV f).reserved = s.reserved := rfl
@[simp] theorem State.setV_gangReports (s : State) (f : Vlc → Vlc) : (s.setV f).gangReports = s.gangReports := rfl
@[simp] theorem State.setV_commands (s : State) (f : Vlc → Vlc) : (s.setV f).commands = s.commands := rfl
@[simp] theorem State.setV_transfers (s : State) (f : Vlc → Vlc) : (s.setV f).transfers = s.transfers := rfl
@[simp] theorem State.setV_nextHandle (s : State) (f : Vlc → Vlc) : (s.setV f).nextHandle = s.nextHandle := rfl
@[simp] theorem State.setV_meshes (s : State) (f : Vlc → Vlc) : (s.setV f).meshes = s.meshes := rfl
@[simp] theorem State.setV_bindings (s : State) (f : Vlc → Vlc) : (s.setV f).bindings = s.bindings := rfl
@[simp] theorem State.setV_subqueries (s : State) (f : Vlc → Vlc) : (s.setV f).subqueries = s.subqueries := rfl
@[simp] theorem State.setV_rings (s : State) (f : Vlc → Vlc) : (s.setV f).rings = s.rings := rfl
@[simp] theorem State.setV_ringWaits (s : State) (f : Vlc → Vlc) : (s.setV f).ringWaits = s.ringWaits := rfl
@[simp] theorem State.setV_planes (s : State) (f : Vlc → Vlc) : (s.setV f).planes = s.planes := rfl
@[simp] theorem State.setV_heldLines (s : State) (f : Vlc → Vlc) : (s.setV f).heldLines = s.heldLines := rfl
@[simp] theorem State.setV_withheld (s : State) (f : Vlc → Vlc) : (s.setV f).withheld = s.withheld := rfl
@[simp] theorem State.setV_peers (s : State) (f : Vlc → Vlc) : (s.setV f).peers = s.peers := rfl
@[simp] theorem State.setV_nextReq (s : State) (f : Vlc → Vlc) : (s.setV f).nextReq = s.nextReq := rfl
@[simp] theorem State.setV_outbox (s : State) (f : Vlc → Vlc) : (s.setV f).outbox = s.outbox := rfl
@[simp] theorem State.setV_engineWaits (s : State) (f : Vlc → Vlc) : (s.setV f).engineWaits = s.engineWaits := rfl
@[simp] theorem State.setV_engineData (s : State) (f : Vlc → Vlc) : (s.setV f).engineData = s.engineData := rfl
@[simp] theorem State.setV_orphans (s : State) (f : Vlc → Vlc) : (s.setV f).orphans = s.orphans := rfl
@[simp] theorem State.setV_beacon (s : State) (f : Vlc → Vlc) : (s.setV f).beacon = s.beacon := rfl
@[simp] theorem State.setV_dbg (s : State) (f : Vlc → Vlc) : (s.setV f).dbg = s.dbg := rfl
@[simp] theorem State.setV_sn (s : State) (f : Vlc → Vlc) : (s.setV f).sn = s.sn := rfl
@[simp] theorem State.setV_jobs (s : State) (f : Vlc → Vlc) : (s.setV f).jobs = s.jobs := rfl
@[simp] theorem State.setV_pilot (s : State) (f : Vlc → Vlc) : (s.setV f).pilot = s.pilot := rfl
@[simp] theorem State.setV_replies (s : State) (f : Vlc → Vlc) : (s.setV f).replies = s.replies := rfl

/-! ## `wr` -/

@[simp] theorem State.wr_v (s : State) (r : SReg) (x : Word) :
    (s.wr r x).v = s.v.setS r x := rfl
@[simp] theorem State.wr_parked (s : State) (r : SReg) (x : Word) : (s.wr r x).parked = s.parked := rfl
@[simp] theorem State.wr_events (s : State) (r : SReg) (x : Word) : (s.wr r x).events = s.events := rfl
@[simp] theorem State.wr_freeCtr (s : State) (r : SReg) (x : Word) : (s.wr r x).freeCtr = s.freeCtr := rfl
@[simp] theorem State.wr_endpoint (s : State) (r : SReg) (x : Word) : (s.wr r x).endpoint = s.endpoint := rfl
@[simp] theorem State.wr_mem (s : State) (r : SReg) (x : Word) : (s.wr r x).mem = s.mem := rfl
@[simp] theorem State.wr_regions (s : State) (r : SReg) (x : Word) : (s.wr r x).regions = s.regions := rfl
@[simp] theorem State.wr_regions2 (s : State) (r : SReg) (x : Word) : (s.wr r x).regions2 = s.regions2 := rfl
@[simp] theorem State.wr_regionsKept (s : State) (r : SReg) (x : Word) : (s.wr r x).regionsKept = s.regionsKept := rfl
@[simp] theorem State.wr_swap (s : State) (r : SReg) (x : Word) : (s.wr r x).swap = s.swap := rfl
@[simp] theorem State.wr_accesses (s : State) (r : SReg) (x : Word) : (s.wr r x).accesses = s.accesses := rfl
@[simp] theorem State.wr_refresh (s : State) (r : SReg) (x : Word) : (s.wr r x).refresh = s.refresh := rfl
@[simp] theorem State.wr_cores (s : State) (r : SReg) (x : Word) : (s.wr r x).cores = s.cores := rfl
@[simp] theorem State.wr_clusters (s : State) (r : SReg) (x : Word) : (s.wr r x).clusters = s.clusters := rfl
@[simp] theorem State.wr_dies (s : State) (r : SReg) (x : Word) : (s.wr r x).dies = s.dies := rfl
@[simp] theorem State.wr_lastCore (s : State) (r : SReg) (x : Word) : (s.wr r x).lastCore = s.lastCore := rfl
@[simp] theorem State.wr_queues (s : State) (r : SReg) (x : Word) : (s.wr r x).queues = s.queues := rfl
@[simp] theorem State.wr_launches (s : State) (r : SReg) (x : Word) : (s.wr r x).launches = s.launches := rfl
@[simp] theorem State.wr_nextLaunch (s : State) (r : SReg) (x : Word) : (s.wr r x).nextLaunch = s.nextLaunch := rfl
@[simp] theorem State.wr_visited (s : State) (r : SReg) (x : Word) : (s.wr r x).visited = s.visited := rfl
@[simp] theorem State.wr_reserved (s : State) (r : SReg) (x : Word) : (s.wr r x).reserved = s.reserved := rfl
@[simp] theorem State.wr_gangReports (s : State) (r : SReg) (x : Word) : (s.wr r x).gangReports = s.gangReports := rfl
@[simp] theorem State.wr_commands (s : State) (r : SReg) (x : Word) : (s.wr r x).commands = s.commands := rfl
@[simp] theorem State.wr_transfers (s : State) (r : SReg) (x : Word) : (s.wr r x).transfers = s.transfers := rfl
@[simp] theorem State.wr_nextHandle (s : State) (r : SReg) (x : Word) : (s.wr r x).nextHandle = s.nextHandle := rfl
@[simp] theorem State.wr_meshes (s : State) (r : SReg) (x : Word) : (s.wr r x).meshes = s.meshes := rfl
@[simp] theorem State.wr_bindings (s : State) (r : SReg) (x : Word) : (s.wr r x).bindings = s.bindings := rfl
@[simp] theorem State.wr_subqueries (s : State) (r : SReg) (x : Word) : (s.wr r x).subqueries = s.subqueries := rfl
@[simp] theorem State.wr_rings (s : State) (r : SReg) (x : Word) : (s.wr r x).rings = s.rings := rfl
@[simp] theorem State.wr_ringWaits (s : State) (r : SReg) (x : Word) : (s.wr r x).ringWaits = s.ringWaits := rfl
@[simp] theorem State.wr_planes (s : State) (r : SReg) (x : Word) : (s.wr r x).planes = s.planes := rfl
@[simp] theorem State.wr_heldLines (s : State) (r : SReg) (x : Word) : (s.wr r x).heldLines = s.heldLines := rfl
@[simp] theorem State.wr_withheld (s : State) (r : SReg) (x : Word) : (s.wr r x).withheld = s.withheld := rfl
@[simp] theorem State.wr_peers (s : State) (r : SReg) (x : Word) : (s.wr r x).peers = s.peers := rfl
@[simp] theorem State.wr_nextReq (s : State) (r : SReg) (x : Word) : (s.wr r x).nextReq = s.nextReq := rfl
@[simp] theorem State.wr_outbox (s : State) (r : SReg) (x : Word) : (s.wr r x).outbox = s.outbox := rfl
@[simp] theorem State.wr_engineWaits (s : State) (r : SReg) (x : Word) : (s.wr r x).engineWaits = s.engineWaits := rfl
@[simp] theorem State.wr_engineData (s : State) (r : SReg) (x : Word) : (s.wr r x).engineData = s.engineData := rfl
@[simp] theorem State.wr_orphans (s : State) (r : SReg) (x : Word) : (s.wr r x).orphans = s.orphans := rfl
@[simp] theorem State.wr_beacon (s : State) (r : SReg) (x : Word) : (s.wr r x).beacon = s.beacon := rfl
@[simp] theorem State.wr_dbg (s : State) (r : SReg) (x : Word) : (s.wr r x).dbg = s.dbg := rfl
@[simp] theorem State.wr_sn (s : State) (r : SReg) (x : Word) : (s.wr r x).sn = s.sn := rfl
@[simp] theorem State.wr_jobs (s : State) (r : SReg) (x : Word) : (s.wr r x).jobs = s.jobs := rfl
@[simp] theorem State.wr_pilot (s : State) (r : SReg) (x : Word) : (s.wr r x).pilot = s.pilot := rfl
@[simp] theorem State.wr_replies (s : State) (r : SReg) (x : Word) : (s.wr r x).replies = s.replies := rfl

/-! ## `setCore` -/

@[simp] theorem State.setCore_v (s : State) (c : Nat) (f : Core → Core) : (s.setCore c f).v = s.v := rfl
@[simp] theorem State.setCore_parked (s : State) (c : Nat) (f : Core → Core) : (s.setCore c f).parked = s.parked := rfl
@[simp] theorem State.setCore_events (s : State) (c : Nat) (f : Core → Core) : (s.setCore c f).events = s.events := rfl
@[simp] theorem State.setCore_freeCtr (s : State) (c : Nat) (f : Core → Core) : (s.setCore c f).freeCtr = s.freeCtr := rfl
@[simp] theorem State.setCore_endpoint (s : State) (c : Nat) (f : Core → Core) : (s.setCore c f).endpoint = s.endpoint := rfl
@[simp] theorem State.setCore_mem (s : State) (c : Nat) (f : Core → Core) : (s.setCore c f).mem = s.mem := rfl
@[simp] theorem State.setCore_regions (s : State) (c : Nat) (f : Core → Core) : (s.setCore c f).regions = s.regions := rfl
@[simp] theorem State.setCore_regions2 (s : State) (c : Nat) (f : Core → Core) : (s.setCore c f).regions2 = s.regions2 := rfl
@[simp] theorem State.setCore_regionsKept (s : State) (c : Nat) (f : Core → Core) : (s.setCore c f).regionsKept = s.regionsKept := rfl
@[simp] theorem State.setCore_swap (s : State) (c : Nat) (f : Core → Core) : (s.setCore c f).swap = s.swap := rfl
@[simp] theorem State.setCore_accesses (s : State) (c : Nat) (f : Core → Core) : (s.setCore c f).accesses = s.accesses := rfl
@[simp] theorem State.setCore_refresh (s : State) (c : Nat) (f : Core → Core) : (s.setCore c f).refresh = s.refresh := rfl
@[simp] theorem State.setCore_cores (s : State) (c : Nat) (f : Core → Core) :
    (s.setCore c f).cores = put Core.reset c (f (s.core c)) s.cores := rfl
@[simp] theorem State.setCore_clusters (s : State) (c : Nat) (f : Core → Core) : (s.setCore c f).clusters = s.clusters := rfl
@[simp] theorem State.setCore_dies (s : State) (c : Nat) (f : Core → Core) : (s.setCore c f).dies = s.dies := rfl
@[simp] theorem State.setCore_lastCore (s : State) (c : Nat) (f : Core → Core) : (s.setCore c f).lastCore = s.lastCore := rfl
@[simp] theorem State.setCore_queues (s : State) (c : Nat) (f : Core → Core) : (s.setCore c f).queues = s.queues := rfl
@[simp] theorem State.setCore_launches (s : State) (c : Nat) (f : Core → Core) : (s.setCore c f).launches = s.launches := rfl
@[simp] theorem State.setCore_nextLaunch (s : State) (c : Nat) (f : Core → Core) : (s.setCore c f).nextLaunch = s.nextLaunch := rfl
@[simp] theorem State.setCore_visited (s : State) (c : Nat) (f : Core → Core) : (s.setCore c f).visited = s.visited := rfl
@[simp] theorem State.setCore_reserved (s : State) (c : Nat) (f : Core → Core) : (s.setCore c f).reserved = s.reserved := rfl
@[simp] theorem State.setCore_gangReports (s : State) (c : Nat) (f : Core → Core) : (s.setCore c f).gangReports = s.gangReports := rfl
@[simp] theorem State.setCore_commands (s : State) (c : Nat) (f : Core → Core) : (s.setCore c f).commands = s.commands := rfl
@[simp] theorem State.setCore_transfers (s : State) (c : Nat) (f : Core → Core) : (s.setCore c f).transfers = s.transfers := rfl
@[simp] theorem State.setCore_nextHandle (s : State) (c : Nat) (f : Core → Core) : (s.setCore c f).nextHandle = s.nextHandle := rfl
@[simp] theorem State.setCore_meshes (s : State) (c : Nat) (f : Core → Core) : (s.setCore c f).meshes = s.meshes := rfl
@[simp] theorem State.setCore_bindings (s : State) (c : Nat) (f : Core → Core) : (s.setCore c f).bindings = s.bindings := rfl
@[simp] theorem State.setCore_subqueries (s : State) (c : Nat) (f : Core → Core) : (s.setCore c f).subqueries = s.subqueries := rfl
@[simp] theorem State.setCore_rings (s : State) (c : Nat) (f : Core → Core) : (s.setCore c f).rings = s.rings := rfl
@[simp] theorem State.setCore_ringWaits (s : State) (c : Nat) (f : Core → Core) : (s.setCore c f).ringWaits = s.ringWaits := rfl
@[simp] theorem State.setCore_planes (s : State) (c : Nat) (f : Core → Core) : (s.setCore c f).planes = s.planes := rfl
@[simp] theorem State.setCore_heldLines (s : State) (c : Nat) (f : Core → Core) : (s.setCore c f).heldLines = s.heldLines := rfl
@[simp] theorem State.setCore_withheld (s : State) (c : Nat) (f : Core → Core) : (s.setCore c f).withheld = s.withheld := rfl
@[simp] theorem State.setCore_peers (s : State) (c : Nat) (f : Core → Core) : (s.setCore c f).peers = s.peers := rfl
@[simp] theorem State.setCore_nextReq (s : State) (c : Nat) (f : Core → Core) : (s.setCore c f).nextReq = s.nextReq := rfl
@[simp] theorem State.setCore_outbox (s : State) (c : Nat) (f : Core → Core) : (s.setCore c f).outbox = s.outbox := rfl
@[simp] theorem State.setCore_engineWaits (s : State) (c : Nat) (f : Core → Core) : (s.setCore c f).engineWaits = s.engineWaits := rfl
@[simp] theorem State.setCore_engineData (s : State) (c : Nat) (f : Core → Core) : (s.setCore c f).engineData = s.engineData := rfl
@[simp] theorem State.setCore_orphans (s : State) (c : Nat) (f : Core → Core) : (s.setCore c f).orphans = s.orphans := rfl
@[simp] theorem State.setCore_beacon (s : State) (c : Nat) (f : Core → Core) : (s.setCore c f).beacon = s.beacon := rfl
@[simp] theorem State.setCore_dbg (s : State) (c : Nat) (f : Core → Core) : (s.setCore c f).dbg = s.dbg := rfl
@[simp] theorem State.setCore_sn (s : State) (c : Nat) (f : Core → Core) : (s.setCore c f).sn = s.sn := rfl
@[simp] theorem State.setCore_jobs (s : State) (c : Nat) (f : Core → Core) : (s.setCore c f).jobs = s.jobs := rfl
@[simp] theorem State.setCore_pilot (s : State) (c : Nat) (f : Core → Core) : (s.setCore c f).pilot = s.pilot := rfl
@[simp] theorem State.setCore_replies (s : State) (c : Nat) (f : Core → Core) : (s.setCore c f).replies = s.replies := rfl

/-! ## `setCluster` -/

@[simp] theorem State.setCluster_v (s : State) (c : Nat) (f : Cluster → Cluster) : (s.setCluster c f).v = s.v := rfl
@[simp] theorem State.setCluster_parked (s : State) (c : Nat) (f : Cluster → Cluster) : (s.setCluster c f).parked = s.parked := rfl
@[simp] theorem State.setCluster_events (s : State) (c : Nat) (f : Cluster → Cluster) : (s.setCluster c f).events = s.events := rfl
@[simp] theorem State.setCluster_freeCtr (s : State) (c : Nat) (f : Cluster → Cluster) : (s.setCluster c f).freeCtr = s.freeCtr := rfl
@[simp] theorem State.setCluster_endpoint (s : State) (c : Nat) (f : Cluster → Cluster) : (s.setCluster c f).endpoint = s.endpoint := rfl
@[simp] theorem State.setCluster_mem (s : State) (c : Nat) (f : Cluster → Cluster) : (s.setCluster c f).mem = s.mem := rfl
@[simp] theorem State.setCluster_regions (s : State) (c : Nat) (f : Cluster → Cluster) : (s.setCluster c f).regions = s.regions := rfl
@[simp] theorem State.setCluster_regions2 (s : State) (c : Nat) (f : Cluster → Cluster) : (s.setCluster c f).regions2 = s.regions2 := rfl
@[simp] theorem State.setCluster_regionsKept (s : State) (c : Nat) (f : Cluster → Cluster) : (s.setCluster c f).regionsKept = s.regionsKept := rfl
@[simp] theorem State.setCluster_swap (s : State) (c : Nat) (f : Cluster → Cluster) : (s.setCluster c f).swap = s.swap := rfl
@[simp] theorem State.setCluster_accesses (s : State) (c : Nat) (f : Cluster → Cluster) : (s.setCluster c f).accesses = s.accesses := rfl
@[simp] theorem State.setCluster_refresh (s : State) (c : Nat) (f : Cluster → Cluster) : (s.setCluster c f).refresh = s.refresh := rfl
@[simp] theorem State.setCluster_cores (s : State) (c : Nat) (f : Cluster → Cluster) : (s.setCluster c f).cores = s.cores := rfl
@[simp] theorem State.setCluster_clusters (s : State) (c : Nat) (f : Cluster → Cluster) :
    (s.setCluster c f).clusters = put Cluster.reset c (f (s.cluster c)) s.clusters := rfl
@[simp] theorem State.setCluster_dies (s : State) (c : Nat) (f : Cluster → Cluster) : (s.setCluster c f).dies = s.dies := rfl
@[simp] theorem State.setCluster_lastCore (s : State) (c : Nat) (f : Cluster → Cluster) : (s.setCluster c f).lastCore = s.lastCore := rfl
@[simp] theorem State.setCluster_queues (s : State) (c : Nat) (f : Cluster → Cluster) : (s.setCluster c f).queues = s.queues := rfl
@[simp] theorem State.setCluster_launches (s : State) (c : Nat) (f : Cluster → Cluster) : (s.setCluster c f).launches = s.launches := rfl
@[simp] theorem State.setCluster_nextLaunch (s : State) (c : Nat) (f : Cluster → Cluster) : (s.setCluster c f).nextLaunch = s.nextLaunch := rfl
@[simp] theorem State.setCluster_visited (s : State) (c : Nat) (f : Cluster → Cluster) : (s.setCluster c f).visited = s.visited := rfl
@[simp] theorem State.setCluster_reserved (s : State) (c : Nat) (f : Cluster → Cluster) : (s.setCluster c f).reserved = s.reserved := rfl
@[simp] theorem State.setCluster_gangReports (s : State) (c : Nat) (f : Cluster → Cluster) : (s.setCluster c f).gangReports = s.gangReports := rfl
@[simp] theorem State.setCluster_commands (s : State) (c : Nat) (f : Cluster → Cluster) : (s.setCluster c f).commands = s.commands := rfl
@[simp] theorem State.setCluster_transfers (s : State) (c : Nat) (f : Cluster → Cluster) : (s.setCluster c f).transfers = s.transfers := rfl
@[simp] theorem State.setCluster_nextHandle (s : State) (c : Nat) (f : Cluster → Cluster) : (s.setCluster c f).nextHandle = s.nextHandle := rfl
@[simp] theorem State.setCluster_meshes (s : State) (c : Nat) (f : Cluster → Cluster) : (s.setCluster c f).meshes = s.meshes := rfl
@[simp] theorem State.setCluster_bindings (s : State) (c : Nat) (f : Cluster → Cluster) : (s.setCluster c f).bindings = s.bindings := rfl
@[simp] theorem State.setCluster_subqueries (s : State) (c : Nat) (f : Cluster → Cluster) : (s.setCluster c f).subqueries = s.subqueries := rfl
@[simp] theorem State.setCluster_rings (s : State) (c : Nat) (f : Cluster → Cluster) : (s.setCluster c f).rings = s.rings := rfl
@[simp] theorem State.setCluster_ringWaits (s : State) (c : Nat) (f : Cluster → Cluster) : (s.setCluster c f).ringWaits = s.ringWaits := rfl
@[simp] theorem State.setCluster_planes (s : State) (c : Nat) (f : Cluster → Cluster) : (s.setCluster c f).planes = s.planes := rfl
@[simp] theorem State.setCluster_heldLines (s : State) (c : Nat) (f : Cluster → Cluster) : (s.setCluster c f).heldLines = s.heldLines := rfl
@[simp] theorem State.setCluster_withheld (s : State) (c : Nat) (f : Cluster → Cluster) : (s.setCluster c f).withheld = s.withheld := rfl
@[simp] theorem State.setCluster_peers (s : State) (c : Nat) (f : Cluster → Cluster) : (s.setCluster c f).peers = s.peers := rfl
@[simp] theorem State.setCluster_nextReq (s : State) (c : Nat) (f : Cluster → Cluster) : (s.setCluster c f).nextReq = s.nextReq := rfl
@[simp] theorem State.setCluster_outbox (s : State) (c : Nat) (f : Cluster → Cluster) : (s.setCluster c f).outbox = s.outbox := rfl
@[simp] theorem State.setCluster_engineWaits (s : State) (c : Nat) (f : Cluster → Cluster) : (s.setCluster c f).engineWaits = s.engineWaits := rfl
@[simp] theorem State.setCluster_engineData (s : State) (c : Nat) (f : Cluster → Cluster) : (s.setCluster c f).engineData = s.engineData := rfl
@[simp] theorem State.setCluster_orphans (s : State) (c : Nat) (f : Cluster → Cluster) : (s.setCluster c f).orphans = s.orphans := rfl
@[simp] theorem State.setCluster_beacon (s : State) (c : Nat) (f : Cluster → Cluster) : (s.setCluster c f).beacon = s.beacon := rfl
@[simp] theorem State.setCluster_dbg (s : State) (c : Nat) (f : Cluster → Cluster) : (s.setCluster c f).dbg = s.dbg := rfl
@[simp] theorem State.setCluster_sn (s : State) (c : Nat) (f : Cluster → Cluster) : (s.setCluster c f).sn = s.sn := rfl
@[simp] theorem State.setCluster_jobs (s : State) (c : Nat) (f : Cluster → Cluster) : (s.setCluster c f).jobs = s.jobs := rfl
@[simp] theorem State.setCluster_pilot (s : State) (c : Nat) (f : Cluster → Cluster) : (s.setCluster c f).pilot = s.pilot := rfl
@[simp] theorem State.setCluster_replies (s : State) (c : Nat) (f : Cluster → Cluster) : (s.setCluster c f).replies = s.replies := rfl

/-! ## `setDie` -/

@[simp] theorem State.setDie_v (s : State) (d : Nat) (f : Die → Die) : (s.setDie d f).v = s.v := rfl
@[simp] theorem State.setDie_parked (s : State) (d : Nat) (f : Die → Die) : (s.setDie d f).parked = s.parked := rfl
@[simp] theorem State.setDie_events (s : State) (d : Nat) (f : Die → Die) : (s.setDie d f).events = s.events := rfl
@[simp] theorem State.setDie_freeCtr (s : State) (d : Nat) (f : Die → Die) : (s.setDie d f).freeCtr = s.freeCtr := rfl
@[simp] theorem State.setDie_endpoint (s : State) (d : Nat) (f : Die → Die) : (s.setDie d f).endpoint = s.endpoint := rfl
@[simp] theorem State.setDie_mem (s : State) (d : Nat) (f : Die → Die) : (s.setDie d f).mem = s.mem := rfl
@[simp] theorem State.setDie_regions (s : State) (d : Nat) (f : Die → Die) : (s.setDie d f).regions = s.regions := rfl
@[simp] theorem State.setDie_regions2 (s : State) (d : Nat) (f : Die → Die) : (s.setDie d f).regions2 = s.regions2 := rfl
@[simp] theorem State.setDie_regionsKept (s : State) (d : Nat) (f : Die → Die) : (s.setDie d f).regionsKept = s.regionsKept := rfl
@[simp] theorem State.setDie_swap (s : State) (d : Nat) (f : Die → Die) : (s.setDie d f).swap = s.swap := rfl
@[simp] theorem State.setDie_accesses (s : State) (d : Nat) (f : Die → Die) : (s.setDie d f).accesses = s.accesses := rfl
@[simp] theorem State.setDie_refresh (s : State) (d : Nat) (f : Die → Die) : (s.setDie d f).refresh = s.refresh := rfl
@[simp] theorem State.setDie_cores (s : State) (d : Nat) (f : Die → Die) : (s.setDie d f).cores = s.cores := rfl
@[simp] theorem State.setDie_clusters (s : State) (d : Nat) (f : Die → Die) : (s.setDie d f).clusters = s.clusters := rfl
@[simp] theorem State.setDie_dies (s : State) (d : Nat) (f : Die → Die) :
    (s.setDie d f).dies = put Die.reset d (f (s.die d)) s.dies := rfl
@[simp] theorem State.setDie_lastCore (s : State) (d : Nat) (f : Die → Die) : (s.setDie d f).lastCore = s.lastCore := rfl
@[simp] theorem State.setDie_queues (s : State) (d : Nat) (f : Die → Die) : (s.setDie d f).queues = s.queues := rfl
@[simp] theorem State.setDie_launches (s : State) (d : Nat) (f : Die → Die) : (s.setDie d f).launches = s.launches := rfl
@[simp] theorem State.setDie_nextLaunch (s : State) (d : Nat) (f : Die → Die) : (s.setDie d f).nextLaunch = s.nextLaunch := rfl
@[simp] theorem State.setDie_visited (s : State) (d : Nat) (f : Die → Die) : (s.setDie d f).visited = s.visited := rfl
@[simp] theorem State.setDie_reserved (s : State) (d : Nat) (f : Die → Die) : (s.setDie d f).reserved = s.reserved := rfl
@[simp] theorem State.setDie_gangReports (s : State) (d : Nat) (f : Die → Die) : (s.setDie d f).gangReports = s.gangReports := rfl
@[simp] theorem State.setDie_commands (s : State) (d : Nat) (f : Die → Die) : (s.setDie d f).commands = s.commands := rfl
@[simp] theorem State.setDie_transfers (s : State) (d : Nat) (f : Die → Die) : (s.setDie d f).transfers = s.transfers := rfl
@[simp] theorem State.setDie_nextHandle (s : State) (d : Nat) (f : Die → Die) : (s.setDie d f).nextHandle = s.nextHandle := rfl
@[simp] theorem State.setDie_meshes (s : State) (d : Nat) (f : Die → Die) : (s.setDie d f).meshes = s.meshes := rfl
@[simp] theorem State.setDie_bindings (s : State) (d : Nat) (f : Die → Die) : (s.setDie d f).bindings = s.bindings := rfl
@[simp] theorem State.setDie_subqueries (s : State) (d : Nat) (f : Die → Die) : (s.setDie d f).subqueries = s.subqueries := rfl
@[simp] theorem State.setDie_rings (s : State) (d : Nat) (f : Die → Die) : (s.setDie d f).rings = s.rings := rfl
@[simp] theorem State.setDie_ringWaits (s : State) (d : Nat) (f : Die → Die) : (s.setDie d f).ringWaits = s.ringWaits := rfl
@[simp] theorem State.setDie_planes (s : State) (d : Nat) (f : Die → Die) : (s.setDie d f).planes = s.planes := rfl
@[simp] theorem State.setDie_heldLines (s : State) (d : Nat) (f : Die → Die) : (s.setDie d f).heldLines = s.heldLines := rfl
@[simp] theorem State.setDie_withheld (s : State) (d : Nat) (f : Die → Die) : (s.setDie d f).withheld = s.withheld := rfl
@[simp] theorem State.setDie_peers (s : State) (d : Nat) (f : Die → Die) : (s.setDie d f).peers = s.peers := rfl
@[simp] theorem State.setDie_nextReq (s : State) (d : Nat) (f : Die → Die) : (s.setDie d f).nextReq = s.nextReq := rfl
@[simp] theorem State.setDie_outbox (s : State) (d : Nat) (f : Die → Die) : (s.setDie d f).outbox = s.outbox := rfl
@[simp] theorem State.setDie_engineWaits (s : State) (d : Nat) (f : Die → Die) : (s.setDie d f).engineWaits = s.engineWaits := rfl
@[simp] theorem State.setDie_engineData (s : State) (d : Nat) (f : Die → Die) : (s.setDie d f).engineData = s.engineData := rfl
@[simp] theorem State.setDie_orphans (s : State) (d : Nat) (f : Die → Die) : (s.setDie d f).orphans = s.orphans := rfl
@[simp] theorem State.setDie_beacon (s : State) (d : Nat) (f : Die → Die) : (s.setDie d f).beacon = s.beacon := rfl
@[simp] theorem State.setDie_dbg (s : State) (d : Nat) (f : Die → Die) : (s.setDie d f).dbg = s.dbg := rfl
@[simp] theorem State.setDie_sn (s : State) (d : Nat) (f : Die → Die) : (s.setDie d f).sn = s.sn := rfl
@[simp] theorem State.setDie_jobs (s : State) (d : Nat) (f : Die → Die) : (s.setDie d f).jobs = s.jobs := rfl
@[simp] theorem State.setDie_pilot (s : State) (d : Nat) (f : Die → Die) : (s.setDie d f).pilot = s.pilot := rfl
@[simp] theorem State.setDie_replies (s : State) (d : Nat) (f : Die → Die) : (s.setDie d f).replies = s.replies := rfl

/-! ## `setQueue` -/

@[simp] theorem State.setQueue_v (s : State) (q : Nat) (f : Queue → Queue) : (s.setQueue q f).v = s.v := rfl
@[simp] theorem State.setQueue_parked (s : State) (q : Nat) (f : Queue → Queue) : (s.setQueue q f).parked = s.parked := rfl
@[simp] theorem State.setQueue_events (s : State) (q : Nat) (f : Queue → Queue) : (s.setQueue q f).events = s.events := rfl
@[simp] theorem State.setQueue_freeCtr (s : State) (q : Nat) (f : Queue → Queue) : (s.setQueue q f).freeCtr = s.freeCtr := rfl
@[simp] theorem State.setQueue_endpoint (s : State) (q : Nat) (f : Queue → Queue) : (s.setQueue q f).endpoint = s.endpoint := rfl
@[simp] theorem State.setQueue_mem (s : State) (q : Nat) (f : Queue → Queue) : (s.setQueue q f).mem = s.mem := rfl
@[simp] theorem State.setQueue_regions (s : State) (q : Nat) (f : Queue → Queue) : (s.setQueue q f).regions = s.regions := rfl
@[simp] theorem State.setQueue_regions2 (s : State) (q : Nat) (f : Queue → Queue) : (s.setQueue q f).regions2 = s.regions2 := rfl
@[simp] theorem State.setQueue_regionsKept (s : State) (q : Nat) (f : Queue → Queue) : (s.setQueue q f).regionsKept = s.regionsKept := rfl
@[simp] theorem State.setQueue_swap (s : State) (q : Nat) (f : Queue → Queue) : (s.setQueue q f).swap = s.swap := rfl
@[simp] theorem State.setQueue_accesses (s : State) (q : Nat) (f : Queue → Queue) : (s.setQueue q f).accesses = s.accesses := rfl
@[simp] theorem State.setQueue_refresh (s : State) (q : Nat) (f : Queue → Queue) : (s.setQueue q f).refresh = s.refresh := rfl
@[simp] theorem State.setQueue_cores (s : State) (q : Nat) (f : Queue → Queue) : (s.setQueue q f).cores = s.cores := rfl
@[simp] theorem State.setQueue_clusters (s : State) (q : Nat) (f : Queue → Queue) : (s.setQueue q f).clusters = s.clusters := rfl
@[simp] theorem State.setQueue_dies (s : State) (q : Nat) (f : Queue → Queue) : (s.setQueue q f).dies = s.dies := rfl
@[simp] theorem State.setQueue_lastCore (s : State) (q : Nat) (f : Queue → Queue) : (s.setQueue q f).lastCore = s.lastCore := rfl
@[simp] theorem State.setQueue_queues (s : State) (q : Nat) (f : Queue → Queue) :
    (s.setQueue q f).queues = put Queue.reset q (f (s.queue q)) s.queues := rfl
@[simp] theorem State.setQueue_launches (s : State) (q : Nat) (f : Queue → Queue) : (s.setQueue q f).launches = s.launches := rfl
@[simp] theorem State.setQueue_nextLaunch (s : State) (q : Nat) (f : Queue → Queue) : (s.setQueue q f).nextLaunch = s.nextLaunch := rfl
@[simp] theorem State.setQueue_visited (s : State) (q : Nat) (f : Queue → Queue) : (s.setQueue q f).visited = s.visited := rfl
@[simp] theorem State.setQueue_reserved (s : State) (q : Nat) (f : Queue → Queue) : (s.setQueue q f).reserved = s.reserved := rfl
@[simp] theorem State.setQueue_gangReports (s : State) (q : Nat) (f : Queue → Queue) : (s.setQueue q f).gangReports = s.gangReports := rfl
@[simp] theorem State.setQueue_commands (s : State) (q : Nat) (f : Queue → Queue) : (s.setQueue q f).commands = s.commands := rfl
@[simp] theorem State.setQueue_transfers (s : State) (q : Nat) (f : Queue → Queue) : (s.setQueue q f).transfers = s.transfers := rfl
@[simp] theorem State.setQueue_nextHandle (s : State) (q : Nat) (f : Queue → Queue) : (s.setQueue q f).nextHandle = s.nextHandle := rfl
@[simp] theorem State.setQueue_meshes (s : State) (q : Nat) (f : Queue → Queue) : (s.setQueue q f).meshes = s.meshes := rfl
@[simp] theorem State.setQueue_bindings (s : State) (q : Nat) (f : Queue → Queue) : (s.setQueue q f).bindings = s.bindings := rfl
@[simp] theorem State.setQueue_subqueries (s : State) (q : Nat) (f : Queue → Queue) : (s.setQueue q f).subqueries = s.subqueries := rfl
@[simp] theorem State.setQueue_rings (s : State) (q : Nat) (f : Queue → Queue) : (s.setQueue q f).rings = s.rings := rfl
@[simp] theorem State.setQueue_ringWaits (s : State) (q : Nat) (f : Queue → Queue) : (s.setQueue q f).ringWaits = s.ringWaits := rfl
@[simp] theorem State.setQueue_planes (s : State) (q : Nat) (f : Queue → Queue) : (s.setQueue q f).planes = s.planes := rfl
@[simp] theorem State.setQueue_heldLines (s : State) (q : Nat) (f : Queue → Queue) : (s.setQueue q f).heldLines = s.heldLines := rfl
@[simp] theorem State.setQueue_withheld (s : State) (q : Nat) (f : Queue → Queue) : (s.setQueue q f).withheld = s.withheld := rfl
@[simp] theorem State.setQueue_peers (s : State) (q : Nat) (f : Queue → Queue) : (s.setQueue q f).peers = s.peers := rfl
@[simp] theorem State.setQueue_nextReq (s : State) (q : Nat) (f : Queue → Queue) : (s.setQueue q f).nextReq = s.nextReq := rfl
@[simp] theorem State.setQueue_outbox (s : State) (q : Nat) (f : Queue → Queue) : (s.setQueue q f).outbox = s.outbox := rfl
@[simp] theorem State.setQueue_engineWaits (s : State) (q : Nat) (f : Queue → Queue) : (s.setQueue q f).engineWaits = s.engineWaits := rfl
@[simp] theorem State.setQueue_engineData (s : State) (q : Nat) (f : Queue → Queue) : (s.setQueue q f).engineData = s.engineData := rfl
@[simp] theorem State.setQueue_orphans (s : State) (q : Nat) (f : Queue → Queue) : (s.setQueue q f).orphans = s.orphans := rfl
@[simp] theorem State.setQueue_beacon (s : State) (q : Nat) (f : Queue → Queue) : (s.setQueue q f).beacon = s.beacon := rfl
@[simp] theorem State.setQueue_dbg (s : State) (q : Nat) (f : Queue → Queue) : (s.setQueue q f).dbg = s.dbg := rfl
@[simp] theorem State.setQueue_sn (s : State) (q : Nat) (f : Queue → Queue) : (s.setQueue q f).sn = s.sn := rfl
@[simp] theorem State.setQueue_jobs (s : State) (q : Nat) (f : Queue → Queue) : (s.setQueue q f).jobs = s.jobs := rfl
@[simp] theorem State.setQueue_pilot (s : State) (q : Nat) (f : Queue → Queue) : (s.setQueue q f).pilot = s.pilot := rfl
@[simp] theorem State.setQueue_replies (s : State) (q : Nat) (f : Queue → Queue) : (s.setQueue q f).replies = s.replies := rfl

/-! ## `setDbg` -/

@[simp] theorem State.setDbg_v (s : State) (c : Nat) (f : DbgCtx → DbgCtx) : (s.setDbg c f).v = s.v := rfl
@[simp] theorem State.setDbg_parked (s : State) (c : Nat) (f : DbgCtx → DbgCtx) : (s.setDbg c f).parked = s.parked := rfl
@[simp] theorem State.setDbg_events (s : State) (c : Nat) (f : DbgCtx → DbgCtx) : (s.setDbg c f).events = s.events := rfl
@[simp] theorem State.setDbg_freeCtr (s : State) (c : Nat) (f : DbgCtx → DbgCtx) : (s.setDbg c f).freeCtr = s.freeCtr := rfl
@[simp] theorem State.setDbg_endpoint (s : State) (c : Nat) (f : DbgCtx → DbgCtx) : (s.setDbg c f).endpoint = s.endpoint := rfl
@[simp] theorem State.setDbg_mem (s : State) (c : Nat) (f : DbgCtx → DbgCtx) : (s.setDbg c f).mem = s.mem := rfl
@[simp] theorem State.setDbg_regions (s : State) (c : Nat) (f : DbgCtx → DbgCtx) : (s.setDbg c f).regions = s.regions := rfl
@[simp] theorem State.setDbg_regions2 (s : State) (c : Nat) (f : DbgCtx → DbgCtx) : (s.setDbg c f).regions2 = s.regions2 := rfl
@[simp] theorem State.setDbg_regionsKept (s : State) (c : Nat) (f : DbgCtx → DbgCtx) : (s.setDbg c f).regionsKept = s.regionsKept := rfl
@[simp] theorem State.setDbg_swap (s : State) (c : Nat) (f : DbgCtx → DbgCtx) : (s.setDbg c f).swap = s.swap := rfl
@[simp] theorem State.setDbg_accesses (s : State) (c : Nat) (f : DbgCtx → DbgCtx) : (s.setDbg c f).accesses = s.accesses := rfl
@[simp] theorem State.setDbg_refresh (s : State) (c : Nat) (f : DbgCtx → DbgCtx) : (s.setDbg c f).refresh = s.refresh := rfl
@[simp] theorem State.setDbg_cores (s : State) (c : Nat) (f : DbgCtx → DbgCtx) : (s.setDbg c f).cores = s.cores := rfl
@[simp] theorem State.setDbg_clusters (s : State) (c : Nat) (f : DbgCtx → DbgCtx) : (s.setDbg c f).clusters = s.clusters := rfl
@[simp] theorem State.setDbg_dies (s : State) (c : Nat) (f : DbgCtx → DbgCtx) : (s.setDbg c f).dies = s.dies := rfl
@[simp] theorem State.setDbg_lastCore (s : State) (c : Nat) (f : DbgCtx → DbgCtx) : (s.setDbg c f).lastCore = s.lastCore := rfl
@[simp] theorem State.setDbg_queues (s : State) (c : Nat) (f : DbgCtx → DbgCtx) : (s.setDbg c f).queues = s.queues := rfl
@[simp] theorem State.setDbg_launches (s : State) (c : Nat) (f : DbgCtx → DbgCtx) : (s.setDbg c f).launches = s.launches := rfl
@[simp] theorem State.setDbg_nextLaunch (s : State) (c : Nat) (f : DbgCtx → DbgCtx) : (s.setDbg c f).nextLaunch = s.nextLaunch := rfl
@[simp] theorem State.setDbg_visited (s : State) (c : Nat) (f : DbgCtx → DbgCtx) : (s.setDbg c f).visited = s.visited := rfl
@[simp] theorem State.setDbg_reserved (s : State) (c : Nat) (f : DbgCtx → DbgCtx) : (s.setDbg c f).reserved = s.reserved := rfl
@[simp] theorem State.setDbg_gangReports (s : State) (c : Nat) (f : DbgCtx → DbgCtx) : (s.setDbg c f).gangReports = s.gangReports := rfl
@[simp] theorem State.setDbg_commands (s : State) (c : Nat) (f : DbgCtx → DbgCtx) : (s.setDbg c f).commands = s.commands := rfl
@[simp] theorem State.setDbg_transfers (s : State) (c : Nat) (f : DbgCtx → DbgCtx) : (s.setDbg c f).transfers = s.transfers := rfl
@[simp] theorem State.setDbg_nextHandle (s : State) (c : Nat) (f : DbgCtx → DbgCtx) : (s.setDbg c f).nextHandle = s.nextHandle := rfl
@[simp] theorem State.setDbg_meshes (s : State) (c : Nat) (f : DbgCtx → DbgCtx) : (s.setDbg c f).meshes = s.meshes := rfl
@[simp] theorem State.setDbg_bindings (s : State) (c : Nat) (f : DbgCtx → DbgCtx) : (s.setDbg c f).bindings = s.bindings := rfl
@[simp] theorem State.setDbg_subqueries (s : State) (c : Nat) (f : DbgCtx → DbgCtx) : (s.setDbg c f).subqueries = s.subqueries := rfl
@[simp] theorem State.setDbg_rings (s : State) (c : Nat) (f : DbgCtx → DbgCtx) : (s.setDbg c f).rings = s.rings := rfl
@[simp] theorem State.setDbg_ringWaits (s : State) (c : Nat) (f : DbgCtx → DbgCtx) : (s.setDbg c f).ringWaits = s.ringWaits := rfl
@[simp] theorem State.setDbg_planes (s : State) (c : Nat) (f : DbgCtx → DbgCtx) : (s.setDbg c f).planes = s.planes := rfl
@[simp] theorem State.setDbg_heldLines (s : State) (c : Nat) (f : DbgCtx → DbgCtx) : (s.setDbg c f).heldLines = s.heldLines := rfl
@[simp] theorem State.setDbg_withheld (s : State) (c : Nat) (f : DbgCtx → DbgCtx) : (s.setDbg c f).withheld = s.withheld := rfl
@[simp] theorem State.setDbg_peers (s : State) (c : Nat) (f : DbgCtx → DbgCtx) : (s.setDbg c f).peers = s.peers := rfl
@[simp] theorem State.setDbg_nextReq (s : State) (c : Nat) (f : DbgCtx → DbgCtx) : (s.setDbg c f).nextReq = s.nextReq := rfl
@[simp] theorem State.setDbg_outbox (s : State) (c : Nat) (f : DbgCtx → DbgCtx) : (s.setDbg c f).outbox = s.outbox := rfl
@[simp] theorem State.setDbg_engineWaits (s : State) (c : Nat) (f : DbgCtx → DbgCtx) : (s.setDbg c f).engineWaits = s.engineWaits := rfl
@[simp] theorem State.setDbg_engineData (s : State) (c : Nat) (f : DbgCtx → DbgCtx) : (s.setDbg c f).engineData = s.engineData := rfl
@[simp] theorem State.setDbg_orphans (s : State) (c : Nat) (f : DbgCtx → DbgCtx) : (s.setDbg c f).orphans = s.orphans := rfl
@[simp] theorem State.setDbg_beacon (s : State) (c : Nat) (f : DbgCtx → DbgCtx) : (s.setDbg c f).beacon = s.beacon := rfl
@[simp] theorem State.setDbg_dbg (s : State) (c : Nat) (f : DbgCtx → DbgCtx) :
    (s.setDbg c f).dbg = put DbgCtx.reset c (f (s.dbgOf c)) s.dbg := rfl
@[simp] theorem State.setDbg_sn (s : State) (c : Nat) (f : DbgCtx → DbgCtx) : (s.setDbg c f).sn = s.sn := rfl
@[simp] theorem State.setDbg_jobs (s : State) (c : Nat) (f : DbgCtx → DbgCtx) : (s.setDbg c f).jobs = s.jobs := rfl
@[simp] theorem State.setDbg_pilot (s : State) (c : Nat) (f : DbgCtx → DbgCtx) : (s.setDbg c f).pilot = s.pilot := rfl
@[simp] theorem State.setDbg_replies (s : State) (c : Nat) (f : DbgCtx → DbgCtx) : (s.setDbg c f).replies = s.replies := rfl

/-! ## `setLaunch` -/

@[simp] theorem State.setLaunch_v (s : State) (k : Nat) (f : Launch → Launch) : (s.setLaunch k f).v = s.v := rfl
@[simp] theorem State.setLaunch_parked (s : State) (k : Nat) (f : Launch → Launch) : (s.setLaunch k f).parked = s.parked := rfl
@[simp] theorem State.setLaunch_events (s : State) (k : Nat) (f : Launch → Launch) : (s.setLaunch k f).events = s.events := rfl
@[simp] theorem State.setLaunch_freeCtr (s : State) (k : Nat) (f : Launch → Launch) : (s.setLaunch k f).freeCtr = s.freeCtr := rfl
@[simp] theorem State.setLaunch_endpoint (s : State) (k : Nat) (f : Launch → Launch) : (s.setLaunch k f).endpoint = s.endpoint := rfl
@[simp] theorem State.setLaunch_mem (s : State) (k : Nat) (f : Launch → Launch) : (s.setLaunch k f).mem = s.mem := rfl
@[simp] theorem State.setLaunch_regions (s : State) (k : Nat) (f : Launch → Launch) : (s.setLaunch k f).regions = s.regions := rfl
@[simp] theorem State.setLaunch_regions2 (s : State) (k : Nat) (f : Launch → Launch) : (s.setLaunch k f).regions2 = s.regions2 := rfl
@[simp] theorem State.setLaunch_regionsKept (s : State) (k : Nat) (f : Launch → Launch) : (s.setLaunch k f).regionsKept = s.regionsKept := rfl
@[simp] theorem State.setLaunch_swap (s : State) (k : Nat) (f : Launch → Launch) : (s.setLaunch k f).swap = s.swap := rfl
@[simp] theorem State.setLaunch_accesses (s : State) (k : Nat) (f : Launch → Launch) : (s.setLaunch k f).accesses = s.accesses := rfl
@[simp] theorem State.setLaunch_refresh (s : State) (k : Nat) (f : Launch → Launch) : (s.setLaunch k f).refresh = s.refresh := rfl
@[simp] theorem State.setLaunch_cores (s : State) (k : Nat) (f : Launch → Launch) : (s.setLaunch k f).cores = s.cores := rfl
@[simp] theorem State.setLaunch_clusters (s : State) (k : Nat) (f : Launch → Launch) : (s.setLaunch k f).clusters = s.clusters := rfl
@[simp] theorem State.setLaunch_dies (s : State) (k : Nat) (f : Launch → Launch) : (s.setLaunch k f).dies = s.dies := rfl
@[simp] theorem State.setLaunch_lastCore (s : State) (k : Nat) (f : Launch → Launch) : (s.setLaunch k f).lastCore = s.lastCore := rfl
@[simp] theorem State.setLaunch_queues (s : State) (k : Nat) (f : Launch → Launch) : (s.setLaunch k f).queues = s.queues := rfl
@[simp] theorem State.setLaunch_launches (s : State) (k : Nat) (f : Launch → Launch) :
    (s.setLaunch k f).launches = s.launches.map fun l => if l.key == k then f l else l := rfl
@[simp] theorem State.setLaunch_nextLaunch (s : State) (k : Nat) (f : Launch → Launch) : (s.setLaunch k f).nextLaunch = s.nextLaunch := rfl
@[simp] theorem State.setLaunch_visited (s : State) (k : Nat) (f : Launch → Launch) : (s.setLaunch k f).visited = s.visited := rfl
@[simp] theorem State.setLaunch_reserved (s : State) (k : Nat) (f : Launch → Launch) : (s.setLaunch k f).reserved = s.reserved := rfl
@[simp] theorem State.setLaunch_gangReports (s : State) (k : Nat) (f : Launch → Launch) : (s.setLaunch k f).gangReports = s.gangReports := rfl
@[simp] theorem State.setLaunch_commands (s : State) (k : Nat) (f : Launch → Launch) : (s.setLaunch k f).commands = s.commands := rfl
@[simp] theorem State.setLaunch_transfers (s : State) (k : Nat) (f : Launch → Launch) : (s.setLaunch k f).transfers = s.transfers := rfl
@[simp] theorem State.setLaunch_nextHandle (s : State) (k : Nat) (f : Launch → Launch) : (s.setLaunch k f).nextHandle = s.nextHandle := rfl
@[simp] theorem State.setLaunch_meshes (s : State) (k : Nat) (f : Launch → Launch) : (s.setLaunch k f).meshes = s.meshes := rfl
@[simp] theorem State.setLaunch_bindings (s : State) (k : Nat) (f : Launch → Launch) : (s.setLaunch k f).bindings = s.bindings := rfl
@[simp] theorem State.setLaunch_subqueries (s : State) (k : Nat) (f : Launch → Launch) : (s.setLaunch k f).subqueries = s.subqueries := rfl
@[simp] theorem State.setLaunch_rings (s : State) (k : Nat) (f : Launch → Launch) : (s.setLaunch k f).rings = s.rings := rfl
@[simp] theorem State.setLaunch_ringWaits (s : State) (k : Nat) (f : Launch → Launch) : (s.setLaunch k f).ringWaits = s.ringWaits := rfl
@[simp] theorem State.setLaunch_planes (s : State) (k : Nat) (f : Launch → Launch) : (s.setLaunch k f).planes = s.planes := rfl
@[simp] theorem State.setLaunch_heldLines (s : State) (k : Nat) (f : Launch → Launch) : (s.setLaunch k f).heldLines = s.heldLines := rfl
@[simp] theorem State.setLaunch_withheld (s : State) (k : Nat) (f : Launch → Launch) : (s.setLaunch k f).withheld = s.withheld := rfl
@[simp] theorem State.setLaunch_peers (s : State) (k : Nat) (f : Launch → Launch) : (s.setLaunch k f).peers = s.peers := rfl
@[simp] theorem State.setLaunch_nextReq (s : State) (k : Nat) (f : Launch → Launch) : (s.setLaunch k f).nextReq = s.nextReq := rfl
@[simp] theorem State.setLaunch_outbox (s : State) (k : Nat) (f : Launch → Launch) : (s.setLaunch k f).outbox = s.outbox := rfl
@[simp] theorem State.setLaunch_engineWaits (s : State) (k : Nat) (f : Launch → Launch) : (s.setLaunch k f).engineWaits = s.engineWaits := rfl
@[simp] theorem State.setLaunch_engineData (s : State) (k : Nat) (f : Launch → Launch) : (s.setLaunch k f).engineData = s.engineData := rfl
@[simp] theorem State.setLaunch_orphans (s : State) (k : Nat) (f : Launch → Launch) : (s.setLaunch k f).orphans = s.orphans := rfl
@[simp] theorem State.setLaunch_beacon (s : State) (k : Nat) (f : Launch → Launch) : (s.setLaunch k f).beacon = s.beacon := rfl
@[simp] theorem State.setLaunch_dbg (s : State) (k : Nat) (f : Launch → Launch) : (s.setLaunch k f).dbg = s.dbg := rfl
@[simp] theorem State.setLaunch_sn (s : State) (k : Nat) (f : Launch → Launch) : (s.setLaunch k f).sn = s.sn := rfl
@[simp] theorem State.setLaunch_jobs (s : State) (k : Nat) (f : Launch → Launch) : (s.setLaunch k f).jobs = s.jobs := rfl
@[simp] theorem State.setLaunch_pilot (s : State) (k : Nat) (f : Launch → Launch) : (s.setLaunch k f).pilot = s.pilot := rfl
@[simp] theorem State.setLaunch_replies (s : State) (k : Nat) (f : Launch → Launch) : (s.setLaunch k f).replies = s.replies := rfl

/-! ## `due` -/

@[simp] theorem State.due_v (s : State) (e : Instr) : (s.due e).v = s.v := rfl
@[simp] theorem State.due_parked (s : State) (e : Instr) : (s.due e).parked = s.parked := rfl
@[simp] theorem State.due_events (s : State) (e : Instr) :
    (s.due e).events = s.events ++ [e] := rfl
@[simp] theorem State.due_freeCtr (s : State) (e : Instr) : (s.due e).freeCtr = s.freeCtr := rfl
@[simp] theorem State.due_endpoint (s : State) (e : Instr) : (s.due e).endpoint = s.endpoint := rfl
@[simp] theorem State.due_mem (s : State) (e : Instr) : (s.due e).mem = s.mem := rfl
@[simp] theorem State.due_regions (s : State) (e : Instr) : (s.due e).regions = s.regions := rfl
@[simp] theorem State.due_regions2 (s : State) (e : Instr) : (s.due e).regions2 = s.regions2 := rfl
@[simp] theorem State.due_regionsKept (s : State) (e : Instr) : (s.due e).regionsKept = s.regionsKept := rfl
@[simp] theorem State.due_swap (s : State) (e : Instr) : (s.due e).swap = s.swap := rfl
@[simp] theorem State.due_accesses (s : State) (e : Instr) : (s.due e).accesses = s.accesses := rfl
@[simp] theorem State.due_refresh (s : State) (e : Instr) : (s.due e).refresh = s.refresh := rfl
@[simp] theorem State.due_cores (s : State) (e : Instr) : (s.due e).cores = s.cores := rfl
@[simp] theorem State.due_clusters (s : State) (e : Instr) : (s.due e).clusters = s.clusters := rfl
@[simp] theorem State.due_dies (s : State) (e : Instr) : (s.due e).dies = s.dies := rfl
@[simp] theorem State.due_lastCore (s : State) (e : Instr) : (s.due e).lastCore = s.lastCore := rfl
@[simp] theorem State.due_queues (s : State) (e : Instr) : (s.due e).queues = s.queues := rfl
@[simp] theorem State.due_launches (s : State) (e : Instr) : (s.due e).launches = s.launches := rfl
@[simp] theorem State.due_nextLaunch (s : State) (e : Instr) : (s.due e).nextLaunch = s.nextLaunch := rfl
@[simp] theorem State.due_visited (s : State) (e : Instr) : (s.due e).visited = s.visited := rfl
@[simp] theorem State.due_reserved (s : State) (e : Instr) : (s.due e).reserved = s.reserved := rfl
@[simp] theorem State.due_gangReports (s : State) (e : Instr) : (s.due e).gangReports = s.gangReports := rfl
@[simp] theorem State.due_commands (s : State) (e : Instr) : (s.due e).commands = s.commands := rfl
@[simp] theorem State.due_transfers (s : State) (e : Instr) : (s.due e).transfers = s.transfers := rfl
@[simp] theorem State.due_nextHandle (s : State) (e : Instr) : (s.due e).nextHandle = s.nextHandle := rfl
@[simp] theorem State.due_meshes (s : State) (e : Instr) : (s.due e).meshes = s.meshes := rfl
@[simp] theorem State.due_bindings (s : State) (e : Instr) : (s.due e).bindings = s.bindings := rfl
@[simp] theorem State.due_subqueries (s : State) (e : Instr) : (s.due e).subqueries = s.subqueries := rfl
@[simp] theorem State.due_rings (s : State) (e : Instr) : (s.due e).rings = s.rings := rfl
@[simp] theorem State.due_ringWaits (s : State) (e : Instr) : (s.due e).ringWaits = s.ringWaits := rfl
@[simp] theorem State.due_planes (s : State) (e : Instr) : (s.due e).planes = s.planes := rfl
@[simp] theorem State.due_heldLines (s : State) (e : Instr) : (s.due e).heldLines = s.heldLines := rfl
@[simp] theorem State.due_withheld (s : State) (e : Instr) : (s.due e).withheld = s.withheld := rfl
@[simp] theorem State.due_peers (s : State) (e : Instr) : (s.due e).peers = s.peers := rfl
@[simp] theorem State.due_nextReq (s : State) (e : Instr) : (s.due e).nextReq = s.nextReq := rfl
@[simp] theorem State.due_outbox (s : State) (e : Instr) : (s.due e).outbox = s.outbox := rfl
@[simp] theorem State.due_engineWaits (s : State) (e : Instr) : (s.due e).engineWaits = s.engineWaits := rfl
@[simp] theorem State.due_engineData (s : State) (e : Instr) : (s.due e).engineData = s.engineData := rfl
@[simp] theorem State.due_orphans (s : State) (e : Instr) : (s.due e).orphans = s.orphans := rfl
@[simp] theorem State.due_beacon (s : State) (e : Instr) : (s.due e).beacon = s.beacon := rfl
@[simp] theorem State.due_dbg (s : State) (e : Instr) : (s.due e).dbg = s.dbg := rfl
@[simp] theorem State.due_sn (s : State) (e : Instr) : (s.due e).sn = s.sn := rfl
@[simp] theorem State.due_jobs (s : State) (e : Instr) : (s.due e).jobs = s.jobs := rfl
@[simp] theorem State.due_pilot (s : State) (e : Instr) : (s.due e).pilot = s.pilot := rfl
@[simp] theorem State.due_replies (s : State) (e : Instr) : (s.due e).replies = s.replies := rfl

/-! ## `send` -/

@[simp] theorem State.send_v (s : State) (p : Packet) : (s.send p).v = s.v := rfl
@[simp] theorem State.send_parked (s : State) (p : Packet) : (s.send p).parked = s.parked := rfl
@[simp] theorem State.send_events (s : State) (p : Packet) : (s.send p).events = s.events := rfl
@[simp] theorem State.send_freeCtr (s : State) (p : Packet) : (s.send p).freeCtr = s.freeCtr := rfl
@[simp] theorem State.send_endpoint (s : State) (p : Packet) : (s.send p).endpoint = s.endpoint := rfl
@[simp] theorem State.send_mem (s : State) (p : Packet) : (s.send p).mem = s.mem := rfl
@[simp] theorem State.send_regions (s : State) (p : Packet) : (s.send p).regions = s.regions := rfl
@[simp] theorem State.send_regions2 (s : State) (p : Packet) : (s.send p).regions2 = s.regions2 := rfl
@[simp] theorem State.send_regionsKept (s : State) (p : Packet) : (s.send p).regionsKept = s.regionsKept := rfl
@[simp] theorem State.send_swap (s : State) (p : Packet) : (s.send p).swap = s.swap := rfl
@[simp] theorem State.send_accesses (s : State) (p : Packet) : (s.send p).accesses = s.accesses := rfl
@[simp] theorem State.send_refresh (s : State) (p : Packet) : (s.send p).refresh = s.refresh := rfl
@[simp] theorem State.send_cores (s : State) (p : Packet) : (s.send p).cores = s.cores := rfl
@[simp] theorem State.send_clusters (s : State) (p : Packet) : (s.send p).clusters = s.clusters := rfl
@[simp] theorem State.send_dies (s : State) (p : Packet) : (s.send p).dies = s.dies := rfl
@[simp] theorem State.send_lastCore (s : State) (p : Packet) : (s.send p).lastCore = s.lastCore := rfl
@[simp] theorem State.send_queues (s : State) (p : Packet) : (s.send p).queues = s.queues := rfl
@[simp] theorem State.send_launches (s : State) (p : Packet) : (s.send p).launches = s.launches := rfl
@[simp] theorem State.send_nextLaunch (s : State) (p : Packet) : (s.send p).nextLaunch = s.nextLaunch := rfl
@[simp] theorem State.send_visited (s : State) (p : Packet) : (s.send p).visited = s.visited := rfl
@[simp] theorem State.send_reserved (s : State) (p : Packet) : (s.send p).reserved = s.reserved := rfl
@[simp] theorem State.send_gangReports (s : State) (p : Packet) : (s.send p).gangReports = s.gangReports := rfl
@[simp] theorem State.send_commands (s : State) (p : Packet) : (s.send p).commands = s.commands := rfl
@[simp] theorem State.send_transfers (s : State) (p : Packet) : (s.send p).transfers = s.transfers := rfl
@[simp] theorem State.send_nextHandle (s : State) (p : Packet) : (s.send p).nextHandle = s.nextHandle := rfl
@[simp] theorem State.send_meshes (s : State) (p : Packet) : (s.send p).meshes = s.meshes := rfl
@[simp] theorem State.send_bindings (s : State) (p : Packet) : (s.send p).bindings = s.bindings := rfl
@[simp] theorem State.send_subqueries (s : State) (p : Packet) : (s.send p).subqueries = s.subqueries := rfl
@[simp] theorem State.send_rings (s : State) (p : Packet) : (s.send p).rings = s.rings := rfl
@[simp] theorem State.send_ringWaits (s : State) (p : Packet) : (s.send p).ringWaits = s.ringWaits := rfl
@[simp] theorem State.send_planes (s : State) (p : Packet) : (s.send p).planes = s.planes := rfl
@[simp] theorem State.send_heldLines (s : State) (p : Packet) : (s.send p).heldLines = s.heldLines := rfl
@[simp] theorem State.send_withheld (s : State) (p : Packet) : (s.send p).withheld = s.withheld := rfl
@[simp] theorem State.send_peers (s : State) (p : Packet) : (s.send p).peers = s.peers := rfl
@[simp] theorem State.send_nextReq (s : State) (p : Packet) : (s.send p).nextReq = s.nextReq := rfl
@[simp] theorem State.send_outbox (s : State) (p : Packet) :
    (s.send p).outbox = s.outbox ++ [p] := rfl
@[simp] theorem State.send_engineWaits (s : State) (p : Packet) : (s.send p).engineWaits = s.engineWaits := rfl
@[simp] theorem State.send_engineData (s : State) (p : Packet) : (s.send p).engineData = s.engineData := rfl
@[simp] theorem State.send_orphans (s : State) (p : Packet) : (s.send p).orphans = s.orphans := rfl
@[simp] theorem State.send_beacon (s : State) (p : Packet) : (s.send p).beacon = s.beacon := rfl
@[simp] theorem State.send_dbg (s : State) (p : Packet) : (s.send p).dbg = s.dbg := rfl
@[simp] theorem State.send_sn (s : State) (p : Packet) : (s.send p).sn = s.sn := rfl
@[simp] theorem State.send_jobs (s : State) (p : Packet) : (s.send p).jobs = s.jobs := rfl
@[simp] theorem State.send_pilot (s : State) (p : Packet) : (s.send p).pilot = s.pilot := rfl
@[simp] theorem State.send_replies (s : State) (p : Packet) : (s.send p).replies = s.replies := rfl

/-! ## `spend` -/

@[simp] theorem State.spend_v (s : State) : s.spend.v = s.v := rfl
@[simp] theorem State.spend_parked (s : State) : s.spend.parked = s.parked := rfl
@[simp] theorem State.spend_events (s : State) : s.spend.events = s.events := rfl
@[simp] theorem State.spend_freeCtr (s : State) :
    s.spend.freeCtr = s.freeCtr + 1 := rfl
@[simp] theorem State.spend_endpoint (s : State) : s.spend.endpoint = s.endpoint := rfl
@[simp] theorem State.spend_mem (s : State) : s.spend.mem = s.mem := rfl
@[simp] theorem State.spend_regions (s : State) : s.spend.regions = s.regions := rfl
@[simp] theorem State.spend_regions2 (s : State) : s.spend.regions2 = s.regions2 := rfl
@[simp] theorem State.spend_regionsKept (s : State) : s.spend.regionsKept = s.regionsKept := rfl
@[simp] theorem State.spend_swap (s : State) : s.spend.swap = s.swap := rfl
@[simp] theorem State.spend_accesses (s : State) : s.spend.accesses = s.accesses := rfl
@[simp] theorem State.spend_refresh (s : State) : s.spend.refresh = s.refresh := rfl
@[simp] theorem State.spend_cores (s : State) : s.spend.cores = s.cores := rfl
@[simp] theorem State.spend_clusters (s : State) : s.spend.clusters = s.clusters := rfl
@[simp] theorem State.spend_dies (s : State) : s.spend.dies = s.dies := rfl
@[simp] theorem State.spend_lastCore (s : State) : s.spend.lastCore = s.lastCore := rfl
@[simp] theorem State.spend_queues (s : State) : s.spend.queues = s.queues := rfl
@[simp] theorem State.spend_launches (s : State) : s.spend.launches = s.launches := rfl
@[simp] theorem State.spend_nextLaunch (s : State) : s.spend.nextLaunch = s.nextLaunch := rfl
@[simp] theorem State.spend_visited (s : State) : s.spend.visited = s.visited := rfl
@[simp] theorem State.spend_reserved (s : State) : s.spend.reserved = s.reserved := rfl
@[simp] theorem State.spend_gangReports (s : State) : s.spend.gangReports = s.gangReports := rfl
@[simp] theorem State.spend_commands (s : State) : s.spend.commands = s.commands := rfl
@[simp] theorem State.spend_transfers (s : State) : s.spend.transfers = s.transfers := rfl
@[simp] theorem State.spend_nextHandle (s : State) : s.spend.nextHandle = s.nextHandle := rfl
@[simp] theorem State.spend_meshes (s : State) : s.spend.meshes = s.meshes := rfl
@[simp] theorem State.spend_bindings (s : State) : s.spend.bindings = s.bindings := rfl
@[simp] theorem State.spend_subqueries (s : State) : s.spend.subqueries = s.subqueries := rfl
@[simp] theorem State.spend_rings (s : State) : s.spend.rings = s.rings := rfl
@[simp] theorem State.spend_ringWaits (s : State) : s.spend.ringWaits = s.ringWaits := rfl
@[simp] theorem State.spend_planes (s : State) : s.spend.planes = s.planes := rfl
@[simp] theorem State.spend_heldLines (s : State) : s.spend.heldLines = s.heldLines := rfl
@[simp] theorem State.spend_withheld (s : State) : s.spend.withheld = s.withheld := rfl
@[simp] theorem State.spend_peers (s : State) : s.spend.peers = s.peers := rfl
@[simp] theorem State.spend_nextReq (s : State) : s.spend.nextReq = s.nextReq := rfl
@[simp] theorem State.spend_outbox (s : State) : s.spend.outbox = s.outbox := rfl
@[simp] theorem State.spend_engineWaits (s : State) : s.spend.engineWaits = s.engineWaits := rfl
@[simp] theorem State.spend_engineData (s : State) : s.spend.engineData = s.engineData := rfl
@[simp] theorem State.spend_orphans (s : State) : s.spend.orphans = s.orphans := rfl
@[simp] theorem State.spend_beacon (s : State) : s.spend.beacon = s.beacon := rfl
@[simp] theorem State.spend_dbg (s : State) : s.spend.dbg = s.dbg := rfl
@[simp] theorem State.spend_sn (s : State) : s.spend.sn = s.sn := rfl
@[simp] theorem State.spend_jobs (s : State) : s.spend.jobs = s.jobs := rfl
@[simp] theorem State.spend_pilot (s : State) : s.spend.pilot = s.pilot := rfl
@[simp] theorem State.spend_replies (s : State) : s.spend.replies = s.replies := rfl

/-! ## `count` -/

@[simp] theorem State.count_v (s : State) (pa : Nat) : (s.count pa).v = s.v := rfl
@[simp] theorem State.count_parked (s : State) (pa : Nat) : (s.count pa).parked = s.parked := rfl
@[simp] theorem State.count_events (s : State) (pa : Nat) : (s.count pa).events = s.events := rfl
@[simp] theorem State.count_freeCtr (s : State) (pa : Nat) : (s.count pa).freeCtr = s.freeCtr := rfl
@[simp] theorem State.count_endpoint (s : State) (pa : Nat) : (s.count pa).endpoint = s.endpoint := rfl
@[simp] theorem State.count_mem (s : State) (pa : Nat) : (s.count pa).mem = s.mem := rfl
@[simp] theorem State.count_regions (s : State) (pa : Nat) : (s.count pa).regions = s.regions := rfl
@[simp] theorem State.count_regions2 (s : State) (pa : Nat) : (s.count pa).regions2 = s.regions2 := rfl
@[simp] theorem State.count_regionsKept (s : State) (pa : Nat) : (s.count pa).regionsKept = s.regionsKept := rfl
@[simp] theorem State.count_swap (s : State) (pa : Nat) : (s.count pa).swap = s.swap := rfl
@[simp] theorem State.count_refresh (s : State) (pa : Nat) : (s.count pa).refresh = s.refresh := rfl
@[simp] theorem State.count_cores (s : State) (pa : Nat) : (s.count pa).cores = s.cores := rfl
@[simp] theorem State.count_clusters (s : State) (pa : Nat) : (s.count pa).clusters = s.clusters := rfl
@[simp] theorem State.count_dies (s : State) (pa : Nat) : (s.count pa).dies = s.dies := rfl
@[simp] theorem State.count_lastCore (s : State) (pa : Nat) : (s.count pa).lastCore = s.lastCore := rfl
@[simp] theorem State.count_queues (s : State) (pa : Nat) : (s.count pa).queues = s.queues := rfl
@[simp] theorem State.count_launches (s : State) (pa : Nat) : (s.count pa).launches = s.launches := rfl
@[simp] theorem State.count_nextLaunch (s : State) (pa : Nat) : (s.count pa).nextLaunch = s.nextLaunch := rfl
@[simp] theorem State.count_visited (s : State) (pa : Nat) : (s.count pa).visited = s.visited := rfl
@[simp] theorem State.count_reserved (s : State) (pa : Nat) : (s.count pa).reserved = s.reserved := rfl
@[simp] theorem State.count_gangReports (s : State) (pa : Nat) : (s.count pa).gangReports = s.gangReports := rfl
@[simp] theorem State.count_commands (s : State) (pa : Nat) : (s.count pa).commands = s.commands := rfl
@[simp] theorem State.count_transfers (s : State) (pa : Nat) : (s.count pa).transfers = s.transfers := rfl
@[simp] theorem State.count_nextHandle (s : State) (pa : Nat) : (s.count pa).nextHandle = s.nextHandle := rfl
@[simp] theorem State.count_meshes (s : State) (pa : Nat) : (s.count pa).meshes = s.meshes := rfl
@[simp] theorem State.count_bindings (s : State) (pa : Nat) : (s.count pa).bindings = s.bindings := rfl
@[simp] theorem State.count_subqueries (s : State) (pa : Nat) : (s.count pa).subqueries = s.subqueries := rfl
@[simp] theorem State.count_rings (s : State) (pa : Nat) : (s.count pa).rings = s.rings := rfl
@[simp] theorem State.count_ringWaits (s : State) (pa : Nat) : (s.count pa).ringWaits = s.ringWaits := rfl
@[simp] theorem State.count_planes (s : State) (pa : Nat) : (s.count pa).planes = s.planes := rfl
@[simp] theorem State.count_heldLines (s : State) (pa : Nat) : (s.count pa).heldLines = s.heldLines := rfl
@[simp] theorem State.count_withheld (s : State) (pa : Nat) : (s.count pa).withheld = s.withheld := rfl
@[simp] theorem State.count_peers (s : State) (pa : Nat) : (s.count pa).peers = s.peers := rfl
@[simp] theorem State.count_nextReq (s : State) (pa : Nat) : (s.count pa).nextReq = s.nextReq := rfl
@[simp] theorem State.count_outbox (s : State) (pa : Nat) : (s.count pa).outbox = s.outbox := rfl
@[simp] theorem State.count_engineWaits (s : State) (pa : Nat) : (s.count pa).engineWaits = s.engineWaits := rfl
@[simp] theorem State.count_engineData (s : State) (pa : Nat) : (s.count pa).engineData = s.engineData := rfl
@[simp] theorem State.count_orphans (s : State) (pa : Nat) : (s.count pa).orphans = s.orphans := rfl
@[simp] theorem State.count_beacon (s : State) (pa : Nat) : (s.count pa).beacon = s.beacon := rfl
@[simp] theorem State.count_dbg (s : State) (pa : Nat) : (s.count pa).dbg = s.dbg := rfl
@[simp] theorem State.count_sn (s : State) (pa : Nat) : (s.count pa).sn = s.sn := rfl
@[simp] theorem State.count_jobs (s : State) (pa : Nat) : (s.count pa).jobs = s.jobs := rfl
@[simp] theorem State.count_pilot (s : State) (pa : Nat) : (s.count pa).pilot = s.pilot := rfl
@[simp] theorem State.count_replies (s : State) (pa : Nat) : (s.count pa).replies = s.replies := rfl

/-! ## `setDram` -/

@[simp] theorem State.setDram_v (s : State) (pa n x : Nat) : (s.setDram pa n x).v = s.v := rfl
@[simp] theorem State.setDram_parked (s : State) (pa n x : Nat) : (s.setDram pa n x).parked = s.parked := rfl
@[simp] theorem State.setDram_events (s : State) (pa n x : Nat) : (s.setDram pa n x).events = s.events := rfl
@[simp] theorem State.setDram_freeCtr (s : State) (pa n x : Nat) : (s.setDram pa n x).freeCtr = s.freeCtr := rfl
@[simp] theorem State.setDram_endpoint (s : State) (pa n x : Nat) : (s.setDram pa n x).endpoint = s.endpoint := rfl
@[simp] theorem State.setDram_mem (s : State) (pa n x : Nat) :
    (s.setDram pa n x).mem = (s.merged pa).write (dramKey pa) n x := rfl
@[simp] theorem State.setDram_regions (s : State) (pa n x : Nat) : (s.setDram pa n x).regions = s.regions := rfl
@[simp] theorem State.setDram_regions2 (s : State) (pa n x : Nat) : (s.setDram pa n x).regions2 = s.regions2 := rfl
@[simp] theorem State.setDram_regionsKept (s : State) (pa n x : Nat) : (s.setDram pa n x).regionsKept = s.regionsKept := rfl
@[simp] theorem State.setDram_swap (s : State) (pa n x : Nat) : (s.setDram pa n x).swap = s.swap := rfl
@[simp] theorem State.setDram_accesses (s : State) (pa n x : Nat) : (s.setDram pa n x).accesses = s.accesses := rfl
@[simp] theorem State.setDram_refresh (s : State) (pa n x : Nat) : (s.setDram pa n x).refresh = s.refresh := rfl
@[simp] theorem State.setDram_cores (s : State) (pa n x : Nat) : (s.setDram pa n x).cores = s.cores := rfl
@[simp] theorem State.setDram_clusters (s : State) (pa n x : Nat) : (s.setDram pa n x).clusters = s.clusters := rfl
@[simp] theorem State.setDram_dies (s : State) (pa n x : Nat) : (s.setDram pa n x).dies = s.dies := rfl
@[simp] theorem State.setDram_lastCore (s : State) (pa n x : Nat) : (s.setDram pa n x).lastCore = s.lastCore := rfl
@[simp] theorem State.setDram_queues (s : State) (pa n x : Nat) : (s.setDram pa n x).queues = s.queues := rfl
@[simp] theorem State.setDram_launches (s : State) (pa n x : Nat) : (s.setDram pa n x).launches = s.launches := rfl
@[simp] theorem State.setDram_nextLaunch (s : State) (pa n x : Nat) : (s.setDram pa n x).nextLaunch = s.nextLaunch := rfl
@[simp] theorem State.setDram_visited (s : State) (pa n x : Nat) : (s.setDram pa n x).visited = s.visited := rfl
@[simp] theorem State.setDram_reserved (s : State) (pa n x : Nat) : (s.setDram pa n x).reserved = s.reserved := rfl
@[simp] theorem State.setDram_gangReports (s : State) (pa n x : Nat) : (s.setDram pa n x).gangReports = s.gangReports := rfl
@[simp] theorem State.setDram_commands (s : State) (pa n x : Nat) : (s.setDram pa n x).commands = s.commands := rfl
@[simp] theorem State.setDram_transfers (s : State) (pa n x : Nat) : (s.setDram pa n x).transfers = s.transfers := rfl
@[simp] theorem State.setDram_nextHandle (s : State) (pa n x : Nat) : (s.setDram pa n x).nextHandle = s.nextHandle := rfl
@[simp] theorem State.setDram_meshes (s : State) (pa n x : Nat) : (s.setDram pa n x).meshes = s.meshes := rfl
@[simp] theorem State.setDram_bindings (s : State) (pa n x : Nat) : (s.setDram pa n x).bindings = s.bindings := rfl
@[simp] theorem State.setDram_subqueries (s : State) (pa n x : Nat) : (s.setDram pa n x).subqueries = s.subqueries := rfl
@[simp] theorem State.setDram_rings (s : State) (pa n x : Nat) : (s.setDram pa n x).rings = s.rings := rfl
@[simp] theorem State.setDram_ringWaits (s : State) (pa n x : Nat) : (s.setDram pa n x).ringWaits = s.ringWaits := rfl
@[simp] theorem State.setDram_planes (s : State) (pa n x : Nat) : (s.setDram pa n x).planes = s.planes := rfl
@[simp] theorem State.setDram_heldLines (s : State) (pa n x : Nat) : (s.setDram pa n x).heldLines = s.heldLines := rfl
@[simp] theorem State.setDram_withheld (s : State) (pa n x : Nat) : (s.setDram pa n x).withheld = s.withheld := rfl
@[simp] theorem State.setDram_peers (s : State) (pa n x : Nat) : (s.setDram pa n x).peers = s.peers := rfl
@[simp] theorem State.setDram_nextReq (s : State) (pa n x : Nat) : (s.setDram pa n x).nextReq = s.nextReq := rfl
@[simp] theorem State.setDram_outbox (s : State) (pa n x : Nat) : (s.setDram pa n x).outbox = s.outbox := rfl
@[simp] theorem State.setDram_engineWaits (s : State) (pa n x : Nat) : (s.setDram pa n x).engineWaits = s.engineWaits := rfl
@[simp] theorem State.setDram_engineData (s : State) (pa n x : Nat) : (s.setDram pa n x).engineData = s.engineData := rfl
@[simp] theorem State.setDram_orphans (s : State) (pa n x : Nat) : (s.setDram pa n x).orphans = s.orphans := rfl
@[simp] theorem State.setDram_beacon (s : State) (pa n x : Nat) : (s.setDram pa n x).beacon = s.beacon := rfl
@[simp] theorem State.setDram_dbg (s : State) (pa n x : Nat) : (s.setDram pa n x).dbg = s.dbg := rfl
@[simp] theorem State.setDram_sn (s : State) (pa n x : Nat) : (s.setDram pa n x).sn = s.sn := rfl
@[simp] theorem State.setDram_jobs (s : State) (pa n x : Nat) : (s.setDram pa n x).jobs = s.jobs := rfl
@[simp] theorem State.setDram_pilot (s : State) (pa n x : Nat) : (s.setDram pa n x).pilot = s.pilot := rfl
@[simp] theorem State.setDram_replies (s : State) (pa n x : Nat) : (s.setDram pa n x).replies = s.replies := rfl

/-! ## `setPoison` -/

@[simp] theorem State.setPoison_v (s : State) (pa : Nat) (b : Bool) : (s.setPoison pa b).v = s.v := rfl
@[simp] theorem State.setPoison_parked (s : State) (pa : Nat) (b : Bool) : (s.setPoison pa b).parked = s.parked := rfl
@[simp] theorem State.setPoison_events (s : State) (pa : Nat) (b : Bool) : (s.setPoison pa b).events = s.events := rfl
@[simp] theorem State.setPoison_freeCtr (s : State) (pa : Nat) (b : Bool) : (s.setPoison pa b).freeCtr = s.freeCtr := rfl
@[simp] theorem State.setPoison_endpoint (s : State) (pa : Nat) (b : Bool) : (s.setPoison pa b).endpoint = s.endpoint := rfl
@[simp] theorem State.setPoison_regions (s : State) (pa : Nat) (b : Bool) : (s.setPoison pa b).regions = s.regions := rfl
@[simp] theorem State.setPoison_regions2 (s : State) (pa : Nat) (b : Bool) : (s.setPoison pa b).regions2 = s.regions2 := rfl
@[simp] theorem State.setPoison_regionsKept (s : State) (pa : Nat) (b : Bool) : (s.setPoison pa b).regionsKept = s.regionsKept := rfl
@[simp] theorem State.setPoison_swap (s : State) (pa : Nat) (b : Bool) : (s.setPoison pa b).swap = s.swap := rfl
@[simp] theorem State.setPoison_accesses (s : State) (pa : Nat) (b : Bool) : (s.setPoison pa b).accesses = s.accesses := rfl
@[simp] theorem State.setPoison_refresh (s : State) (pa : Nat) (b : Bool) : (s.setPoison pa b).refresh = s.refresh := rfl
@[simp] theorem State.setPoison_cores (s : State) (pa : Nat) (b : Bool) : (s.setPoison pa b).cores = s.cores := rfl
@[simp] theorem State.setPoison_clusters (s : State) (pa : Nat) (b : Bool) : (s.setPoison pa b).clusters = s.clusters := rfl
@[simp] theorem State.setPoison_dies (s : State) (pa : Nat) (b : Bool) : (s.setPoison pa b).dies = s.dies := rfl
@[simp] theorem State.setPoison_lastCore (s : State) (pa : Nat) (b : Bool) : (s.setPoison pa b).lastCore = s.lastCore := rfl
@[simp] theorem State.setPoison_queues (s : State) (pa : Nat) (b : Bool) : (s.setPoison pa b).queues = s.queues := rfl
@[simp] theorem State.setPoison_launches (s : State) (pa : Nat) (b : Bool) : (s.setPoison pa b).launches = s.launches := rfl
@[simp] theorem State.setPoison_nextLaunch (s : State) (pa : Nat) (b : Bool) : (s.setPoison pa b).nextLaunch = s.nextLaunch := rfl
@[simp] theorem State.setPoison_visited (s : State) (pa : Nat) (b : Bool) : (s.setPoison pa b).visited = s.visited := rfl
@[simp] theorem State.setPoison_reserved (s : State) (pa : Nat) (b : Bool) : (s.setPoison pa b).reserved = s.reserved := rfl
@[simp] theorem State.setPoison_gangReports (s : State) (pa : Nat) (b : Bool) : (s.setPoison pa b).gangReports = s.gangReports := rfl
@[simp] theorem State.setPoison_commands (s : State) (pa : Nat) (b : Bool) : (s.setPoison pa b).commands = s.commands := rfl
@[simp] theorem State.setPoison_transfers (s : State) (pa : Nat) (b : Bool) : (s.setPoison pa b).transfers = s.transfers := rfl
@[simp] theorem State.setPoison_nextHandle (s : State) (pa : Nat) (b : Bool) : (s.setPoison pa b).nextHandle = s.nextHandle := rfl
@[simp] theorem State.setPoison_meshes (s : State) (pa : Nat) (b : Bool) : (s.setPoison pa b).meshes = s.meshes := rfl
@[simp] theorem State.setPoison_bindings (s : State) (pa : Nat) (b : Bool) : (s.setPoison pa b).bindings = s.bindings := rfl
@[simp] theorem State.setPoison_subqueries (s : State) (pa : Nat) (b : Bool) : (s.setPoison pa b).subqueries = s.subqueries := rfl
@[simp] theorem State.setPoison_rings (s : State) (pa : Nat) (b : Bool) : (s.setPoison pa b).rings = s.rings := rfl
@[simp] theorem State.setPoison_ringWaits (s : State) (pa : Nat) (b : Bool) : (s.setPoison pa b).ringWaits = s.ringWaits := rfl
@[simp] theorem State.setPoison_planes (s : State) (pa : Nat) (b : Bool) : (s.setPoison pa b).planes = s.planes := rfl
@[simp] theorem State.setPoison_heldLines (s : State) (pa : Nat) (b : Bool) : (s.setPoison pa b).heldLines = s.heldLines := rfl
@[simp] theorem State.setPoison_withheld (s : State) (pa : Nat) (b : Bool) : (s.setPoison pa b).withheld = s.withheld := rfl
@[simp] theorem State.setPoison_peers (s : State) (pa : Nat) (b : Bool) : (s.setPoison pa b).peers = s.peers := rfl
@[simp] theorem State.setPoison_nextReq (s : State) (pa : Nat) (b : Bool) : (s.setPoison pa b).nextReq = s.nextReq := rfl
@[simp] theorem State.setPoison_outbox (s : State) (pa : Nat) (b : Bool) : (s.setPoison pa b).outbox = s.outbox := rfl
@[simp] theorem State.setPoison_engineWaits (s : State) (pa : Nat) (b : Bool) : (s.setPoison pa b).engineWaits = s.engineWaits := rfl
@[simp] theorem State.setPoison_engineData (s : State) (pa : Nat) (b : Bool) : (s.setPoison pa b).engineData = s.engineData := rfl
@[simp] theorem State.setPoison_orphans (s : State) (pa : Nat) (b : Bool) : (s.setPoison pa b).orphans = s.orphans := rfl
@[simp] theorem State.setPoison_beacon (s : State) (pa : Nat) (b : Bool) : (s.setPoison pa b).beacon = s.beacon := rfl
@[simp] theorem State.setPoison_dbg (s : State) (pa : Nat) (b : Bool) : (s.setPoison pa b).dbg = s.dbg := rfl
@[simp] theorem State.setPoison_sn (s : State) (pa : Nat) (b : Bool) : (s.setPoison pa b).sn = s.sn := rfl
@[simp] theorem State.setPoison_jobs (s : State) (pa : Nat) (b : Bool) : (s.setPoison pa b).jobs = s.jobs := rfl
@[simp] theorem State.setPoison_pilot (s : State) (pa : Nat) (b : Bool) : (s.setPoison pa b).pilot = s.pilot := rfl
@[simp] theorem State.setPoison_replies (s : State) (pa : Nat) (b : Bool) : (s.setPoison pa b).replies = s.replies := rfl

/-! ## The records -/

@[simp] theorem State.setV_core (s : State) (f : Vlc → Vlc) (i : Nat) : (s.setV f).core i = s.core i := rfl
@[simp] theorem State.wr_core (s : State) (r : SReg) (x : Word) (i : Nat) : (s.wr r x).core i = s.core i := rfl
@[simp] theorem State.setCluster_core (s : State) (c : Nat) (f : Cluster → Cluster) (i : Nat) : (s.setCluster c f).core i = s.core i := rfl
@[simp] theorem State.setDie_core (s : State) (d : Nat) (f : Die → Die) (i : Nat) : (s.setDie d f).core i = s.core i := rfl
@[simp] theorem State.setQueue_core (s : State) (q : Nat) (f : Queue → Queue) (i : Nat) : (s.setQueue q f).core i = s.core i := rfl
@[simp] theorem State.setDbg_core (s : State) (c : Nat) (f : DbgCtx → DbgCtx) (i : Nat) : (s.setDbg c f).core i = s.core i := rfl
@[simp] theorem State.setLaunch_core (s : State) (k : Nat) (f : Launch → Launch) (i : Nat) : (s.setLaunch k f).core i = s.core i := rfl
@[simp] theorem State.due_core (s : State) (e : Instr) (i : Nat) : (s.due e).core i = s.core i := rfl
@[simp] theorem State.send_core (s : State) (p : Packet) (i : Nat) : (s.send p).core i = s.core i := rfl
@[simp] theorem State.spend_core (s : State) (i : Nat) : s.spend.core i = s.core i := rfl
@[simp] theorem State.count_core (s : State) (pa : Nat) (i : Nat) : (s.count pa).core i = s.core i := rfl
@[simp] theorem State.setDram_core (s : State) (pa n x : Nat) (i : Nat) : (s.setDram pa n x).core i = s.core i := rfl
@[simp] theorem State.setPoison_core (s : State) (pa : Nat) (b : Bool) (i : Nat) : (s.setPoison pa b).core i = s.core i := rfl
@[simp] theorem State.setV_cluster (s : State) (f : Vlc → Vlc) (i : Nat) : (s.setV f).cluster i = s.cluster i := rfl
@[simp] theorem State.wr_cluster (s : State) (r : SReg) (x : Word) (i : Nat) : (s.wr r x).cluster i = s.cluster i := rfl
@[simp] theorem State.setCore_cluster (s : State) (c : Nat) (f : Core → Core) (i : Nat) : (s.setCore c f).cluster i = s.cluster i := rfl
@[simp] theorem State.setDie_cluster (s : State) (d : Nat) (f : Die → Die) (i : Nat) : (s.setDie d f).cluster i = s.cluster i := rfl
@[simp] theorem State.setQueue_cluster (s : State) (q : Nat) (f : Queue → Queue) (i : Nat) : (s.setQueue q f).cluster i = s.cluster i := rfl
@[simp] theorem State.setDbg_cluster (s : State) (c : Nat) (f : DbgCtx → DbgCtx) (i : Nat) : (s.setDbg c f).cluster i = s.cluster i := rfl
@[simp] theorem State.setLaunch_cluster (s : State) (k : Nat) (f : Launch → Launch) (i : Nat) : (s.setLaunch k f).cluster i = s.cluster i := rfl
@[simp] theorem State.due_cluster (s : State) (e : Instr) (i : Nat) : (s.due e).cluster i = s.cluster i := rfl
@[simp] theorem State.send_cluster (s : State) (p : Packet) (i : Nat) : (s.send p).cluster i = s.cluster i := rfl
@[simp] theorem State.spend_cluster (s : State) (i : Nat) : s.spend.cluster i = s.cluster i := rfl
@[simp] theorem State.count_cluster (s : State) (pa : Nat) (i : Nat) : (s.count pa).cluster i = s.cluster i := rfl
@[simp] theorem State.setDram_cluster (s : State) (pa n x : Nat) (i : Nat) : (s.setDram pa n x).cluster i = s.cluster i := rfl
@[simp] theorem State.setPoison_cluster (s : State) (pa : Nat) (b : Bool) (i : Nat) : (s.setPoison pa b).cluster i = s.cluster i := rfl
@[simp] theorem State.setV_die (s : State) (f : Vlc → Vlc) (i : Nat) : (s.setV f).die i = s.die i := rfl
@[simp] theorem State.wr_die (s : State) (r : SReg) (x : Word) (i : Nat) : (s.wr r x).die i = s.die i := rfl
@[simp] theorem State.setCore_die (s : State) (c : Nat) (f : Core → Core) (i : Nat) : (s.setCore c f).die i = s.die i := rfl
@[simp] theorem State.setCluster_die (s : State) (c : Nat) (f : Cluster → Cluster) (i : Nat) : (s.setCluster c f).die i = s.die i := rfl
@[simp] theorem State.setQueue_die (s : State) (q : Nat) (f : Queue → Queue) (i : Nat) : (s.setQueue q f).die i = s.die i := rfl
@[simp] theorem State.setDbg_die (s : State) (c : Nat) (f : DbgCtx → DbgCtx) (i : Nat) : (s.setDbg c f).die i = s.die i := rfl
@[simp] theorem State.setLaunch_die (s : State) (k : Nat) (f : Launch → Launch) (i : Nat) : (s.setLaunch k f).die i = s.die i := rfl
@[simp] theorem State.due_die (s : State) (e : Instr) (i : Nat) : (s.due e).die i = s.die i := rfl
@[simp] theorem State.send_die (s : State) (p : Packet) (i : Nat) : (s.send p).die i = s.die i := rfl
@[simp] theorem State.spend_die (s : State) (i : Nat) : s.spend.die i = s.die i := rfl
@[simp] theorem State.count_die (s : State) (pa : Nat) (i : Nat) : (s.count pa).die i = s.die i := rfl
@[simp] theorem State.setDram_die (s : State) (pa n x : Nat) (i : Nat) : (s.setDram pa n x).die i = s.die i := rfl
@[simp] theorem State.setPoison_die (s : State) (pa : Nat) (b : Bool) (i : Nat) : (s.setPoison pa b).die i = s.die i := rfl
@[simp] theorem State.setV_queue (s : State) (f : Vlc → Vlc) (i : Nat) : (s.setV f).queue i = s.queue i := rfl
@[simp] theorem State.wr_queue (s : State) (r : SReg) (x : Word) (i : Nat) : (s.wr r x).queue i = s.queue i := rfl
@[simp] theorem State.setCore_queue (s : State) (c : Nat) (f : Core → Core) (i : Nat) : (s.setCore c f).queue i = s.queue i := rfl
@[simp] theorem State.setCluster_queue (s : State) (c : Nat) (f : Cluster → Cluster) (i : Nat) : (s.setCluster c f).queue i = s.queue i := rfl
@[simp] theorem State.setDie_queue (s : State) (d : Nat) (f : Die → Die) (i : Nat) : (s.setDie d f).queue i = s.queue i := rfl
@[simp] theorem State.setDbg_queue (s : State) (c : Nat) (f : DbgCtx → DbgCtx) (i : Nat) : (s.setDbg c f).queue i = s.queue i := rfl
@[simp] theorem State.setLaunch_queue (s : State) (k : Nat) (f : Launch → Launch) (i : Nat) : (s.setLaunch k f).queue i = s.queue i := rfl
@[simp] theorem State.due_queue (s : State) (e : Instr) (i : Nat) : (s.due e).queue i = s.queue i := rfl
@[simp] theorem State.send_queue (s : State) (p : Packet) (i : Nat) : (s.send p).queue i = s.queue i := rfl
@[simp] theorem State.spend_queue (s : State) (i : Nat) : s.spend.queue i = s.queue i := rfl
@[simp] theorem State.count_queue (s : State) (pa : Nat) (i : Nat) : (s.count pa).queue i = s.queue i := rfl
@[simp] theorem State.setDram_queue (s : State) (pa n x : Nat) (i : Nat) : (s.setDram pa n x).queue i = s.queue i := rfl
@[simp] theorem State.setPoison_queue (s : State) (pa : Nat) (b : Bool) (i : Nat) : (s.setPoison pa b).queue i = s.queue i := rfl
@[simp] theorem State.setV_dbgOf (s : State) (f : Vlc → Vlc) (i : Nat) : (s.setV f).dbgOf i = s.dbgOf i := rfl
@[simp] theorem State.wr_dbgOf (s : State) (r : SReg) (x : Word) (i : Nat) : (s.wr r x).dbgOf i = s.dbgOf i := rfl
@[simp] theorem State.setCore_dbgOf (s : State) (c : Nat) (f : Core → Core) (i : Nat) : (s.setCore c f).dbgOf i = s.dbgOf i := rfl
@[simp] theorem State.setCluster_dbgOf (s : State) (c : Nat) (f : Cluster → Cluster) (i : Nat) : (s.setCluster c f).dbgOf i = s.dbgOf i := rfl
@[simp] theorem State.setDie_dbgOf (s : State) (d : Nat) (f : Die → Die) (i : Nat) : (s.setDie d f).dbgOf i = s.dbgOf i := rfl
@[simp] theorem State.setQueue_dbgOf (s : State) (q : Nat) (f : Queue → Queue) (i : Nat) : (s.setQueue q f).dbgOf i = s.dbgOf i := rfl
@[simp] theorem State.setLaunch_dbgOf (s : State) (k : Nat) (f : Launch → Launch) (i : Nat) : (s.setLaunch k f).dbgOf i = s.dbgOf i := rfl
@[simp] theorem State.due_dbgOf (s : State) (e : Instr) (i : Nat) : (s.due e).dbgOf i = s.dbgOf i := rfl
@[simp] theorem State.send_dbgOf (s : State) (p : Packet) (i : Nat) : (s.send p).dbgOf i = s.dbgOf i := rfl
@[simp] theorem State.spend_dbgOf (s : State) (i : Nat) : s.spend.dbgOf i = s.dbgOf i := rfl
@[simp] theorem State.count_dbgOf (s : State) (pa : Nat) (i : Nat) : (s.count pa).dbgOf i = s.dbgOf i := rfl
@[simp] theorem State.setDram_dbgOf (s : State) (pa n x : Nat) (i : Nat) : (s.setDram pa n x).dbgOf i = s.dbgOf i := rfl
@[simp] theorem State.setPoison_dbgOf (s : State) (pa : Nat) (b : Bool) (i : Nat) : (s.setPoison pa b).dbgOf i = s.dbgOf i := rfl

/-! ## `Vlc.setS` -/

@[simp] theorem Vlc.setS_status (v : Vlc) (r : SReg) (x : Word) : (v.setS r x).status = v.status := by
  unfold Vlc.setS; split <;> rfl
@[simp] theorem Vlc.setS_core (v : Vlc) (r : SReg) (x : Word) : (v.setS r x).core = v.core := by
  unfold Vlc.setS; split <;> rfl
@[simp] theorem Vlc.setS_slot (v : Vlc) (r : SReg) (x : Word) : (v.setS r x).slot = v.slot := by
  unfold Vlc.setS; split <;> rfl
@[simp] theorem Vlc.setS_launch (v : Vlc) (r : SReg) (x : Word) : (v.setS r x).launch = v.launch := by
  unfold Vlc.setS; split <;> rfl
@[simp] theorem Vlc.setS_rank (v : Vlc) (r : SReg) (x : Word) : (v.setS r x).rank = v.rank := by
  unfold Vlc.setS; split <;> rfl
@[simp] theorem Vlc.setS_ctx (v : Vlc) (r : SReg) (x : Word) : (v.setS r x).ctx = v.ctx := by
  unfold Vlc.setS; split <;> rfl
@[simp] theorem Vlc.setS_pc (v : Vlc) (r : SReg) (x : Word) : (v.setS r x).pc = v.pc := by
  unfold Vlc.setS; split <;> rfl
@[simp] theorem Vlc.setS_level (v : Vlc) (r : SReg) (x : Word) : (v.setS r x).level = v.level := by
  unfold Vlc.setS; split <;> rfl
@[simp] theorem Vlc.setS_vregs (v : Vlc) (r : SReg) (x : Word) : (v.setS r x).vregs = v.vregs := by
  unfold Vlc.setS; split <;> rfl
@[simp] theorem Vlc.setS_masks (v : Vlc) (r : SReg) (x : Word) : (v.setS r x).masks = v.masks := by
  unfold Vlc.setS; split <;> rfl
@[simp] theorem Vlc.setS_streams (v : Vlc) (r : SReg) (x : Word) : (v.setS r x).streams = v.streams := by
  unfold Vlc.setS; split <;> rfl
@[simp] theorem Vlc.setS_vl (v : Vlc) (r : SReg) (x : Word) : (v.setS r x).vl = v.vl := by
  unfold Vlc.setS; split <;> rfl
@[simp] theorem Vlc.setS_mvl (v : Vlc) (r : SReg) (x : Word) : (v.setS r x).mvl = v.mvl := by
  unfold Vlc.setS; split <;> rfl
@[simp] theorem Vlc.setS_vt (v : Vlc) (r : SReg) (x : Word) : (v.setS r x).vt = v.vt := by
  unfold Vlc.setS; split <;> rfl
@[simp] theorem Vlc.setS_mt (v : Vlc) (r : SReg) (x : Word) : (v.setS r x).mt = v.mt := by
  unfold Vlc.setS; split <;> rfl
@[simp] theorem Vlc.setS_vstart (v : Vlc) (r : SReg) (x : Word) : (v.setS r x).vstart = v.vstart := by
  unfold Vlc.setS; split <;> rfl
@[simp] theorem Vlc.setS_tilepos (v : Vlc) (r : SReg) (x : Word) : (v.setS r x).tilepos = v.tilepos := by
  unfold Vlc.setS; split <;> rfl
@[simp] theorem Vlc.setS_peer (v : Vlc) (r : SReg) (x : Word) : (v.setS r x).peer = v.peer := by
  unfold Vlc.setS; split <;> rfl
@[simp] theorem Vlc.setS_fsrPoison (v : Vlc) (r : SReg) (x : Word) : (v.setS r x).fsrPoison = v.fsrPoison := by
  unfold Vlc.setS; split <;> rfl
@[simp] theorem Vlc.setS_fsrTrim (v : Vlc) (r : SReg) (x : Word) : (v.setS r x).fsrTrim = v.fsrTrim := by
  unfold Vlc.setS; split <;> rfl
@[simp] theorem Vlc.setS_scnt (v : Vlc) (r : SReg) (x : Word) : (v.setS r x).scnt = v.scnt := by
  unfold Vlc.setS; split <;> rfl
@[simp] theorem Vlc.setS_mode (v : Vlc) (r : SReg) (x : Word) : (v.setS r x).mode = v.mode := by
  unfold Vlc.setS; split <;> rfl
@[simp] theorem Vlc.setS_slc (v : Vlc) (r : SReg) (x : Word) : (v.setS r x).slc = v.slc := by
  unfold Vlc.setS; split <;> rfl
@[simp] theorem Vlc.setS_lc (v : Vlc) (r : SReg) (x : Word) : (v.setS r x).lc = v.lc := by
  unfold Vlc.setS; split <;> rfl
@[simp] theorem Vlc.setS_rows (v : Vlc) (r : SReg) (x : Word) : (v.setS r x).rows = v.rows := by
  unfold Vlc.setS; split <;> rfl
@[simp] theorem Vlc.setS_mvl64 (v : Vlc) (r : SReg) (x : Word) : (v.setS r x).mvl64 = v.mvl64 := by
  unfold Vlc.setS; split <;> rfl
@[simp] theorem Vlc.setS_tsmM (v : Vlc) (r : SReg) (x : Word) : (v.setS r x).tsmM = v.tsmM := by
  unfold Vlc.setS; split <;> rfl
@[simp] theorem Vlc.setS_tsmType (v : Vlc) (r : SReg) (x : Word) : (v.setS r x).tsmType = v.tsmType := by
  unfold Vlc.setS; split <;> rfl
@[simp] theorem Vlc.setS_tsmSpar (v : Vlc) (r : SReg) (x : Word) : (v.setS r x).tsmSpar = v.tsmSpar := by
  unfold Vlc.setS; split <;> rfl
@[simp] theorem Vlc.setS_tsn (v : Vlc) (r : SReg) (x : Word) : (v.setS r x).tsn = v.tsn := by
  unfold Vlc.setS; split <;> rfl
@[simp] theorem Vlc.setS_tskK (v : Vlc) (r : SReg) (x : Word) : (v.setS r x).tskK = v.tskK := by
  unfold Vlc.setS; split <;> rfl
@[simp] theorem Vlc.setS_acur (v : Vlc) (r : SReg) (x : Word) : (v.setS r x).acur = v.acur := by
  unfold Vlc.setS; split <;> rfl
@[simp] theorem Vlc.setS_accTouched (v : Vlc) (r : SReg) (x : Word) : (v.setS r x).accTouched = v.accTouched := by
  unfold Vlc.setS; split <;> rfl
@[simp] theorem Vlc.setS_fpc (v : Vlc) (r : SReg) (x : Word) : (v.setS r x).fpc = v.fpc := by
  unfold Vlc.setS; split <;> rfl
@[simp] theorem Vlc.setS_srseed (v : Vlc) (r : SReg) (x : Word) : (v.setS r x).srseed = v.srseed := by
  unfold Vlc.setS; split <;> rfl
@[simp] theorem Vlc.setS_gmemb (v : Vlc) (r : SReg) (x : Word) : (v.setS r x).gmemb = v.gmemb := by
  unfold Vlc.setS; split <;> rfl
@[simp] theorem Vlc.setS_declEff (v : Vlc) (r : SReg) (x : Word) : (v.setS r x).declEff = v.declEff := by
  unfold Vlc.setS; split <;> rfl
@[simp] theorem Vlc.setS_declPend (v : Vlc) (r : SReg) (x : Word) : (v.setS r x).declPend = v.declPend := by
  unfold Vlc.setS; split <;> rfl
@[simp] theorem Vlc.setS_declHeld (v : Vlc) (r : SReg) (x : Word) : (v.setS r x).declHeld = v.declHeld := by
  unfold Vlc.setS; split <;> rfl
@[simp] theorem Vlc.setS_tcause (v : Vlc) (r : SReg) (x : Word) : (v.setS r x).tcause = v.tcause := by
  unfold Vlc.setS; split <;> rfl
@[simp] theorem Vlc.setS_tpc (v : Vlc) (r : SReg) (x : Word) : (v.setS r x).tpc = v.tpc := by
  unfold Vlc.setS; split <;> rfl
@[simp] theorem Vlc.setS_tval (v : Vlc) (r : SReg) (x : Word) : (v.setS r x).tval = v.tval := by
  unfold Vlc.setS; split <;> rfl
@[simp] theorem Vlc.setS_tvec (v : Vlc) (r : SReg) (x : Word) : (v.setS r x).tvec = v.tvec := by
  unfold Vlc.setS; split <;> rfl
@[simp] theorem Vlc.setS_tileOwner (v : Vlc) (r : SReg) (x : Word) : (v.setS r x).tileOwner = v.tileOwner := by
  unfold Vlc.setS; split <;> rfl
@[simp] theorem Vlc.setS_entered (v : Vlc) (r : SReg) (x : Word) : (v.setS r x).entered = v.entered := by
  unfold Vlc.setS; split <;> rfl
@[simp] theorem Vlc.setS_prevRole (v : Vlc) (r : SReg) (x : Word) : (v.setS r x).prevRole = v.prevRole := by
  unfold Vlc.setS; split <;> rfl
@[simp] theorem Vlc.setS_spin (v : Vlc) (r : SReg) (x : Word) : (v.setS r x).spin = v.spin := by
  unfold Vlc.setS; split <;> rfl
@[simp] theorem Vlc.setS_yielded (v : Vlc) (r : SReg) (x : Word) : (v.setS r x).yielded = v.yielded := by
  unfold Vlc.setS; split <;> rfl
@[simp] theorem Vlc.setS_preempt (v : Vlc) (r : SReg) (x : Word) : (v.setS r x).preempt = v.preempt := by
  unfold Vlc.setS; split <;> rfl
@[simp] theorem Vlc.setS_ripe (v : Vlc) (r : SReg) (x : Word) : (v.setS r x).ripe = v.ripe := by
  unfold Vlc.setS; split <;> rfl
@[simp] theorem Vlc.setS_vend (v : Vlc) (r : SReg) (x : Word) : (v.setS r x).vend = v.vend := by
  unfold Vlc.setS; split <;> rfl
@[simp] theorem Vlc.setS_barw (v : Vlc) (r : SReg) (x : Word) : (v.setS r x).barw = v.barw := by
  unfold Vlc.setS; split <;> rfl
@[simp] theorem Vlc.setS_savedTo (v : Vlc) (r : SReg) (x : Word) : (v.setS r x).savedTo = v.savedTo := by
  unfold Vlc.setS; split <;> rfl
@[simp] theorem Vlc.setS_dropLc (v : Vlc) (r : SReg) (x : Word) : (v.setS r x).dropLc = v.dropLc := by
  unfold Vlc.setS; split <;> rfl
@[simp] theorem Vlc.setS_gainLc (v : Vlc) (r : SReg) (x : Word) : (v.setS r x).gainLc = v.gainLc := by
  unfold Vlc.setS; split <;> rfl
@[simp] theorem Vlc.setS_lent (v : Vlc) (r : SReg) (x : Word) : (v.setS r x).lent = v.lent := by
  unfold Vlc.setS; split <;> rfl
@[simp] theorem Vlc.setS_wickTags (v : Vlc) (r : SReg) (x : Word) : (v.setS r x).wickTags = v.wickTags := by
  unfold Vlc.setS; split <;> rfl
@[simp] theorem Vlc.setS_wickSeq (v : Vlc) (r : SReg) (x : Word) : (v.setS r x).wickSeq = v.wickSeq := by
  unfold Vlc.setS; split <;> rfl
@[simp] theorem Vlc.setS_remoteData (v : Vlc) (r : SReg) (x : Word) : (v.setS r x).remoteData = v.remoteData := by
  unfold Vlc.setS; split <;> rfl
@[simp] theorem Vlc.setS_awaited (v : Vlc) (r : SReg) (x : Word) : (v.setS r x).awaited = v.awaited := by
  unfold Vlc.setS; split <;> rfl
@[simp] theorem Vlc.setS_queued (v : Vlc) (r : SReg) (x : Word) : (v.setS r x).queued = v.queued := by
  unfold Vlc.setS; split <;> rfl
@[simp] theorem Vlc.setS_queuedT (v : Vlc) (r : SReg) (x : Word) : (v.setS r x).queuedT = v.queuedT := by
  unfold Vlc.setS; split <;> rfl
@[simp] theorem Vlc.setS_queuedQ (v : Vlc) (r : SReg) (x : Word) : (v.setS r x).queuedQ = v.queuedQ := by
  unfold Vlc.setS; split <;> rfl
@[simp] theorem Vlc.setS_append (v : Vlc) (r : SReg) (x : Word) : (v.setS r x).append = v.append := by
  unfold Vlc.setS; split <;> rfl
@[simp] theorem Vlc.setS_stores (v : Vlc) (r : SReg) (x : Word) : (v.setS r x).stores = v.stores := by
  unfold Vlc.setS; split <;> rfl
@[simp] theorem Vlc.setS_early (v : Vlc) (r : SReg) (x : Word) : (v.setS r x).early = v.early := by
  unfold Vlc.setS; split <;> rfl
@[simp] theorem Vlc.setS_lateFabric (v : Vlc) (r : SReg) (x : Word) : (v.setS r x).lateFabric = v.lateFabric := by
  unfold Vlc.setS; split <;> rfl
@[simp] theorem Vlc.setS_watching (v : Vlc) (r : SReg) (x : Word) : (v.setS r x).watching = v.watching := by
  unfold Vlc.setS; split <;> rfl
@[simp] theorem Vlc.setS_frozen (v : Vlc) (r : SReg) (x : Word) : (v.setS r x).frozen = v.frozen := by
  unfold Vlc.setS; split <;> rfl
@[simp] theorem Vlc.setS_freezing (v : Vlc) (r : SReg) (x : Word) : (v.setS r x).freezing = v.freezing := by
  unfold Vlc.setS; split <;> rfl
@[simp] theorem Vlc.setS_cut (v : Vlc) (r : SReg) (x : Word) : (v.setS r x).cut = v.cut := by
  unfold Vlc.setS; split <;> rfl
@[simp] theorem Vlc.setS_pending (v : Vlc) (r : SReg) (x : Word) : (v.setS r x).pending = v.pending := by
  unfold Vlc.setS; split <;> rfl
@[simp] theorem Vlc.setS_stepOnce (v : Vlc) (r : SReg) (x : Word) : (v.setS r x).stepOnce = v.stepOnce := by
  unfold Vlc.setS; split <;> rfl

/-! ## `Vlc.mended` -/

@[simp] theorem Vlc.mended_status (v : Vlc) (l : List RegMark) : (v.mended l).status = v.status := rfl
@[simp] theorem Vlc.mended_core (v : Vlc) (l : List RegMark) : (v.mended l).core = v.core := rfl
@[simp] theorem Vlc.mended_slot (v : Vlc) (l : List RegMark) : (v.mended l).slot = v.slot := rfl
@[simp] theorem Vlc.mended_launch (v : Vlc) (l : List RegMark) : (v.mended l).launch = v.launch := rfl
@[simp] theorem Vlc.mended_rank (v : Vlc) (l : List RegMark) : (v.mended l).rank = v.rank := rfl
@[simp] theorem Vlc.mended_ctx (v : Vlc) (l : List RegMark) : (v.mended l).ctx = v.ctx := rfl
@[simp] theorem Vlc.mended_pc (v : Vlc) (l : List RegMark) : (v.mended l).pc = v.pc := rfl
@[simp] theorem Vlc.mended_level (v : Vlc) (l : List RegMark) : (v.mended l).level = v.level := rfl
@[simp] theorem Vlc.mended_sregs (v : Vlc) (l : List RegMark) : (v.mended l).sregs = v.sregs := rfl
@[simp] theorem Vlc.mended_vregs (v : Vlc) (l : List RegMark) : (v.mended l).vregs = v.vregs := rfl
@[simp] theorem Vlc.mended_masks (v : Vlc) (l : List RegMark) : (v.mended l).masks = v.masks := rfl
@[simp] theorem Vlc.mended_streams (v : Vlc) (l : List RegMark) : (v.mended l).streams = v.streams := rfl
@[simp] theorem Vlc.mended_vl (v : Vlc) (l : List RegMark) : (v.mended l).vl = v.vl := rfl
@[simp] theorem Vlc.mended_mvl (v : Vlc) (l : List RegMark) : (v.mended l).mvl = v.mvl := rfl
@[simp] theorem Vlc.mended_vt (v : Vlc) (l : List RegMark) : (v.mended l).vt = v.vt := rfl
@[simp] theorem Vlc.mended_mt (v : Vlc) (l : List RegMark) : (v.mended l).mt = v.mt := rfl
@[simp] theorem Vlc.mended_vstart (v : Vlc) (l : List RegMark) : (v.mended l).vstart = v.vstart := rfl
@[simp] theorem Vlc.mended_tilepos (v : Vlc) (l : List RegMark) : (v.mended l).tilepos = v.tilepos := rfl
@[simp] theorem Vlc.mended_peer (v : Vlc) (l : List RegMark) : (v.mended l).peer = v.peer := rfl
@[simp] theorem Vlc.mended_fsrPoison (v : Vlc) (l : List RegMark) : (v.mended l).fsrPoison = v.fsrPoison := rfl
@[simp] theorem Vlc.mended_fsrTrim (v : Vlc) (l : List RegMark) : (v.mended l).fsrTrim = v.fsrTrim := rfl
@[simp] theorem Vlc.mended_scnt (v : Vlc) (l : List RegMark) : (v.mended l).scnt = v.scnt := rfl
@[simp] theorem Vlc.mended_mode (v : Vlc) (l : List RegMark) : (v.mended l).mode = v.mode := rfl
@[simp] theorem Vlc.mended_slc (v : Vlc) (l : List RegMark) : (v.mended l).slc = v.slc := rfl
@[simp] theorem Vlc.mended_lc (v : Vlc) (l : List RegMark) : (v.mended l).lc = v.lc := rfl
@[simp] theorem Vlc.mended_rows (v : Vlc) (l : List RegMark) : (v.mended l).rows = v.rows := rfl
@[simp] theorem Vlc.mended_mvl64 (v : Vlc) (l : List RegMark) : (v.mended l).mvl64 = v.mvl64 := rfl
@[simp] theorem Vlc.mended_tsmM (v : Vlc) (l : List RegMark) : (v.mended l).tsmM = v.tsmM := rfl
@[simp] theorem Vlc.mended_tsmType (v : Vlc) (l : List RegMark) : (v.mended l).tsmType = v.tsmType := rfl
@[simp] theorem Vlc.mended_tsmSpar (v : Vlc) (l : List RegMark) : (v.mended l).tsmSpar = v.tsmSpar := rfl
@[simp] theorem Vlc.mended_tsn (v : Vlc) (l : List RegMark) : (v.mended l).tsn = v.tsn := rfl
@[simp] theorem Vlc.mended_tskK (v : Vlc) (l : List RegMark) : (v.mended l).tskK = v.tskK := rfl
@[simp] theorem Vlc.mended_acur (v : Vlc) (l : List RegMark) : (v.mended l).acur = v.acur := rfl
@[simp] theorem Vlc.mended_accTouched (v : Vlc) (l : List RegMark) : (v.mended l).accTouched = v.accTouched := rfl
@[simp] theorem Vlc.mended_fpc (v : Vlc) (l : List RegMark) : (v.mended l).fpc = v.fpc := rfl
@[simp] theorem Vlc.mended_srseed (v : Vlc) (l : List RegMark) : (v.mended l).srseed = v.srseed := rfl
@[simp] theorem Vlc.mended_gmemb (v : Vlc) (l : List RegMark) : (v.mended l).gmemb = v.gmemb := rfl
@[simp] theorem Vlc.mended_declEff (v : Vlc) (l : List RegMark) : (v.mended l).declEff = v.declEff := rfl
@[simp] theorem Vlc.mended_declPend (v : Vlc) (l : List RegMark) : (v.mended l).declPend = v.declPend := rfl
@[simp] theorem Vlc.mended_declHeld (v : Vlc) (l : List RegMark) : (v.mended l).declHeld = v.declHeld := rfl
@[simp] theorem Vlc.mended_tcause (v : Vlc) (l : List RegMark) : (v.mended l).tcause = v.tcause := rfl
@[simp] theorem Vlc.mended_tpc (v : Vlc) (l : List RegMark) : (v.mended l).tpc = v.tpc := rfl
@[simp] theorem Vlc.mended_tval (v : Vlc) (l : List RegMark) : (v.mended l).tval = v.tval := rfl
@[simp] theorem Vlc.mended_tvec (v : Vlc) (l : List RegMark) : (v.mended l).tvec = v.tvec := rfl
@[simp] theorem Vlc.mended_tileOwner (v : Vlc) (l : List RegMark) : (v.mended l).tileOwner = v.tileOwner := rfl
@[simp] theorem Vlc.mended_entered (v : Vlc) (l : List RegMark) : (v.mended l).entered = v.entered := rfl
@[simp] theorem Vlc.mended_prevRole (v : Vlc) (l : List RegMark) : (v.mended l).prevRole = v.prevRole := rfl
@[simp] theorem Vlc.mended_spin (v : Vlc) (l : List RegMark) : (v.mended l).spin = v.spin := rfl
@[simp] theorem Vlc.mended_yielded (v : Vlc) (l : List RegMark) : (v.mended l).yielded = v.yielded := rfl
@[simp] theorem Vlc.mended_preempt (v : Vlc) (l : List RegMark) : (v.mended l).preempt = v.preempt := rfl
@[simp] theorem Vlc.mended_ripe (v : Vlc) (l : List RegMark) : (v.mended l).ripe = v.ripe := rfl
@[simp] theorem Vlc.mended_vend (v : Vlc) (l : List RegMark) : (v.mended l).vend = v.vend := rfl
@[simp] theorem Vlc.mended_barw (v : Vlc) (l : List RegMark) : (v.mended l).barw = v.barw := rfl
@[simp] theorem Vlc.mended_savedTo (v : Vlc) (l : List RegMark) : (v.mended l).savedTo = v.savedTo := rfl
@[simp] theorem Vlc.mended_dropLc (v : Vlc) (l : List RegMark) : (v.mended l).dropLc = v.dropLc := rfl
@[simp] theorem Vlc.mended_gainLc (v : Vlc) (l : List RegMark) : (v.mended l).gainLc = v.gainLc := rfl
@[simp] theorem Vlc.mended_lent (v : Vlc) (l : List RegMark) : (v.mended l).lent = v.lent := rfl
@[simp] theorem Vlc.mended_wickTags (v : Vlc) (l : List RegMark) : (v.mended l).wickTags = v.wickTags := rfl
@[simp] theorem Vlc.mended_wickSeq (v : Vlc) (l : List RegMark) : (v.mended l).wickSeq = v.wickSeq := rfl
@[simp] theorem Vlc.mended_remoteData (v : Vlc) (l : List RegMark) : (v.mended l).remoteData = v.remoteData := rfl
@[simp] theorem Vlc.mended_awaited (v : Vlc) (l : List RegMark) : (v.mended l).awaited = v.awaited := rfl
@[simp] theorem Vlc.mended_queued (v : Vlc) (l : List RegMark) : (v.mended l).queued = v.queued := rfl
@[simp] theorem Vlc.mended_queuedT (v : Vlc) (l : List RegMark) : (v.mended l).queuedT = v.queuedT := rfl
@[simp] theorem Vlc.mended_queuedQ (v : Vlc) (l : List RegMark) : (v.mended l).queuedQ = v.queuedQ := rfl
@[simp] theorem Vlc.mended_append (v : Vlc) (l : List RegMark) : (v.mended l).append = v.append := rfl
@[simp] theorem Vlc.mended_stores (v : Vlc) (l : List RegMark) : (v.mended l).stores = v.stores := rfl
@[simp] theorem Vlc.mended_early (v : Vlc) (l : List RegMark) : (v.mended l).early = v.early := rfl
@[simp] theorem Vlc.mended_lateFabric (v : Vlc) (l : List RegMark) : (v.mended l).lateFabric = v.lateFabric := rfl
@[simp] theorem Vlc.mended_watching (v : Vlc) (l : List RegMark) : (v.mended l).watching = v.watching := rfl
@[simp] theorem Vlc.mended_frozen (v : Vlc) (l : List RegMark) : (v.mended l).frozen = v.frozen := rfl
@[simp] theorem Vlc.mended_freezing (v : Vlc) (l : List RegMark) : (v.mended l).freezing = v.freezing := rfl
@[simp] theorem Vlc.mended_cut (v : Vlc) (l : List RegMark) : (v.mended l).cut = v.cut := rfl
@[simp] theorem Vlc.mended_pending (v : Vlc) (l : List RegMark) : (v.mended l).pending = v.pending := rfl
@[simp] theorem Vlc.mended_stepOnce (v : Vlc) (l : List RegMark) : (v.mended l).stepOnce = v.stepOnce := rfl

/-- Nothing is mended where nothing holds an error. -/
theorem Vlc.mended_of_none {v : Vlc} (l : List RegMark) (h : v.bad = []) : v.mended l = v := by
  cases v
  simp_all [Vlc.mended]


/-- A scalar register reads what was written to it, s0 zero (R55). -/
theorem Vlc.s_setS (v : Vlc) (r q : SReg) (x : Word) : (v.setS r x).s q = if q = 0 then 0 else if q = r then x else v.s q := by
  unfold Vlc.s Vlc.setS
  by_cases hq : q = 0
  · rw [if_pos hq, if_pos hq]
  · rw [if_neg hq, if_neg hq]
    by_cases hr : r = 0
    · have h : q ≠ r := fun e => hq (e.trans hr)
      rw [if_pos hr, if_neg h, if_neg hq]
    · rw [if_neg hr]
      by_cases h : q = r
      · subst h
        rw [if_pos rfl]
        exact Vector.getElem_set_self _
      · have hn : r.toNat ≠ q.toNat := fun e => h (BitVec.eq_of_toNat_eq e.symm)
        rw [if_neg h, if_neg hq]
        exact Vector.getElem_set_ne r.isLt q.isLt hn

theorem State.rd_wr (s : State) (r q : SReg) (x : Word) :
    (s.wr r x).rd q = if q = 0 then 0 else if q = r then x else s.rd q := s.v.s_setS r q x

@[simp] theorem State.rd_zero (s : State) : s.rd 0 = 0 := rfl

/-- A write to s0 is discarded (R55). -/
@[simp] theorem State.wr_zero (s : State) (x : Word) : s.wr 0 x = s := rfl

end Sys2Proof.Machine
end

