-- ==== Sys2Proof/Laws/Canonical.lean ====
section
/-! SUPPORT. Laws of the shared operations and the canonical form of DRAM: accesses, notices, requests, taking a trap, completing
an instruction and returning from a trap all keep it. -/

namespace Sys2Proof.Machine

/-! ## DRAM -/

theorem State.wf_merged {s : State} (pa : Nat) (h : s.mem.wf = true) : (s.merged pa).wf = true := by
  unfold State.merged
  split
  · exact Memory.wf_markUnit _ _ _ h
  · exact h

/-- A merge changes no byte. -/
@[simp] theorem State.merged_byte (s : State) (pa a : Nat) : (s.merged pa).byte a = s.mem.byte a := by
  unfold State.merged
  split <;> rfl

theorem State.wf_setDram {s : State} (pa n x : Nat) (h : s.mem.wf = true) : (s.setDram pa n x).mem.wf = true :=
  Memory.wf_write _ _ _ (State.wf_merged pa h)

theorem State.wf_setPoison {s : State} (pa : Nat) (b : Bool) (h : s.mem.wf = true) : (s.setPoison pa b).mem.wf = true :=
  Memory.wf_markUnit _ _ _ h

theorem State.wf_mergeUnits {s : State} (pa n k : Nat) (h : s.mem.wf = true) : (s.mergeUnits pa n k).mem.wf = true := by
  induction k generalizing s pa n with
  | zero => exact h
  | succ k ih =>
    simp only [State.mergeUnits]
    split
    · exact h
    · exact ih _ _ (State.wf_merged pa h)

theorem State.wf_wholeUnits {s : State} (pa n k : Nat) (h : s.mem.wf = true) : (s.wholeUnits pa n k).mem.wf = true := by
  induction k generalizing s pa n with
  | zero => exact h
  | succ k ih =>
    simp only [State.wholeUnits]
    split
    · exact h
    · refine ih _ _ ?_
      split
      · exact State.wf_setPoison _ _ h
      · exact h

theorem State.wf_setDramBytes {s : State} (pa : Nat) (l : List Byte) (h : s.mem.wf = true) :
    (s.setDramBytes pa l).mem.wf = true :=
  State.wf_wholeUnits _ _ _ (Memory.wf_setBytes _ _ (State.wf_mergeUnits _ _ _ h))

/-! ## What an access leaves beside its bytes -/

@[simp] theorem State.keep_mem (s : State) (p : Party) (e : TlbEntry) : (s.keep p e).mem = s.mem := by
  unfold State.keep
  cases p.core <;> simp only <;> split <;> try split
  all_goals rfl

@[simp] theorem State.wrote_mem (s : State) (at_ : Place) : (s.wrote at_).mem = s.mem := by
  cases at_ <;> rfl

@[simp] theorem State.countWalk_mem (s : State) (l : List Nat) : (s.countWalk l).mem = s.mem := by
  induction l generalizing s with
  | nil => rfl
  | cons a l ih =>
    show (State.countWalk (if epOf a = s.endpoint then s.count a else s) l).mem = s.mem
    rw [ih]
    split <;> rfl

theorem State.wf_markLeaf {s : State} (addr set clear : Nat) (h : s.mem.wf = true) : (s.markLeaf addr set clear).mem.wf = true := by
  unfold State.markLeaf
  rw [State.wrote_mem]
  exact State.wf_setDram _ _ _ h

theorem State.wf_used {s : State} (p : Party) (q : Req) (r : Ref) (h : s.mem.wf = true) : (s.used p q r).mem.wf = true := by
  have hk : ∀ e, ((s.countWalk r.walk).keep p e).mem.wf = true := fun e => by
    rw [State.keep_mem, State.countWalk_mem]; exact h
  simp only [State.used]
  split
  · exact hk _
  · exact State.wf_markLeaf _ _ _ (hk _)

theorem State.wf_note {s : State} (p : Party) (q : Req) (r : Ref) (h : s.mem.wf = true) : (s.note p q r).mem.wf = true := by
  simp only [State.note]
  split <;> exact State.wf_used p q r h

@[simp] theorem State.readSealed_mem (s : State) (k : Seal) (pa n : Nat) : (s.readSealed k pa n).2.mem = s.mem := by
  cases k <;> rfl

theorem State.wf_readSealed {s : State} (k : Seal) (pa n : Nat) (h : s.mem.wf = true) :
    (s.readSealed k pa n).2.mem.wf = true := by
  rw [State.readSealed_mem]; exact h

theorem State.wf_writeSealed {s : State} (k : Seal) (pa n x : Nat) (h : s.mem.wf = true) :
    (s.writeSealed k pa n x).mem.wf = true := by
  cases k <;> exact State.wf_setDram _ _ _ h

@[simp] theorem State.wroteSpace_mem (s : State) (x : Space) (o : Nat) : (s.wroteSpace x o).mem = s.mem := by
  cases x <;> simp [State.wroteSpace]

/-! ## Loads, stores and read-modify-writes -/

/-- An answer carried over to a result. -/
theorem map_eq_ok {α β : Type} {x : Except Stop α} {f : α → β} {b : β} (h : x.map f = .ok b) : ∃ a, x = .ok a ∧ f a = b := by
  cases x with
  | error _ => cases h
  | ok a => exact ⟨a, rfl, by cases h; rfl⟩

theorem State.wf_loadRef {s t : State} {p : Party} {q : Req} {r : Ref} {x : Nat} (h : s.mem.wf = true)
    (e : s.loadRef p q r = .ok (x, t)) : t.mem.wf = true := by
  unfold State.loadRef at e
  split at e
  · obtain ⟨y, -, hy⟩ := map_eq_ok e
    cases hy; exact State.wf_note p q r h
  · split at e
    · cases e; exact State.wf_note p q r h
    · split at e
      · cases e
      · cases e; exact State.wf_note p q r (State.wf_readSealed _ _ _ h)

/-- A load keeps the canonical form. -/
theorem State.wf_load {s t : State} {p : Party} {q : Req} {x : Nat} (h : s.mem.wf = true) (e : s.load p q = .ok (x, t)) :
    t.mem.wf = true := by
  unfold State.load at e
  split at e
  · cases e
  · exact State.wf_loadRef h e

@[simp] theorem State.inject_mem (s : State) (ep pa : Nat) (op : RemoteOp) : (s.inject ep pa op).mem = s.mem := by
  simp only [State.inject]
  split <;> rfl

@[simp] theorem State.post_mem (s : State) (p : Party) (pa n mask val : Nat) (b : Bool) (op : RemoteOp) :
    (s.post p pa n mask val b op).mem = s.mem := by
  simp only [State.post]
  split
  · rfl
  · split <;> simp

/-- A store sent to another endpoint keeps the canonical form. -/
theorem State.wf_sendRef {s t : State} {p : Party} {q : Req} {r : Ref} {mask x : Nat} {op : RemoteOp} (h : s.mem.wf = true)
    (e : s.sendRef p q r mask x op = .ok t) : t.mem.wf = true := by
  unfold State.sendRef at e
  split at e
  · cases e
  · split at e
    · cases e
    · cases e; rw [State.post_mem]; exact State.wf_note p q r h

theorem State.wf_storeRef {s t : State} {p : Party} {q : Req} {r : Ref} {x : Nat} (h : s.mem.wf = true)
    (e : s.storeRef p q r x = .ok t) : t.mem.wf = true := by
  unfold State.storeRef at e
  have hn := State.wf_note p q r h
  split at e
  · split at e
    · cases e; exact hn
    · cases e; simpa using State.wf_writeSealed _ _ _ _ hn
  · exact State.wf_sendRef h e

/-- A store keeps the canonical form. -/
theorem State.wf_store {s t : State} {p : Party} {q : Req} {x : Nat} (h : s.mem.wf = true) (e : s.store p q x = .ok t) :
    t.mem.wf = true := by
  unfold State.store at e
  split at e
  · cases e
  · exact State.wf_storeRef h e

/-- A store to a nibble keeps the canonical form. -/
theorem State.wf_storeNibble {s t : State} {p : Party} {q : Req} {hi : Bool} {x : Nat} (h : s.mem.wf = true)
    (e : s.storeNibble p q hi x = .ok t) : t.mem.wf = true := by
  unfold State.storeNibble at e
  split at e
  · cases e
  · split at e
    · cases e
      rw [State.wrote_mem]
      exact State.wf_writeSealed _ _ _ _ (State.wf_note p q _ (State.wf_readSealed _ _ _ h))
    · exact State.wf_sendRef h e

theorem State.wf_rmwRef {s t : State} {p : Party} {q : Req} {r : Ref} {key x : Nat} {op : RemoteOp} {f : Nat → Nat}
    (h : s.mem.wf = true) (e : s.rmwRef p q r key op f = .ok (x, t)) : t.mem.wf = true := by
  unfold State.rmwRef at e
  split at e
  · split at e
    · cases e
    · cases e
      rw [State.wrote_mem]
      exact State.wf_writeSealed _ _ _ _ (State.wf_note p q r (State.wf_readSealed _ _ _ h))
  · split at e
    · cases e
    · obtain ⟨y, -, hy⟩ := map_eq_ok e
      cases hy; exact State.wf_note p q r h

/-- A read-modify-write keeps the canonical form. -/
theorem State.wf_rmw {s t : State} {p : Party} {q : Req} {key x : Nat} {op : RemoteOp} {f : Nat → Nat}
    (h : s.mem.wf = true) (e : s.rmw p q key op f = .ok (x, t)) : t.mem.wf = true := by
  unfold State.rmw at e
  split at e
  · cases e
    split
    · exact State.wf_note p q _ h
    · exact h
  · split at e
    · cases e
    · exact State.wf_rmwRef h e

/-! ## The other spaces -/

theorem State.wf_spaceWrite {s : State} (x : Space) (o n y : Nat) (h : s.mem.wf = true) :
    (s.spaceWrite x o n y).mem.wf = true := by
  unfold State.spaceWrite
  rw [State.wroteSpace_mem]
  cases x
  · exact Memory.wf_write _ _ _ h
  all_goals exact h

/-- A scalar load of any space keeps the canonical form. -/
theorem State.wf_loadAt {s t : State} {x : Space} {a : Word} {n y : Nat} {g : Bool} (h : s.mem.wf = true)
    (e : s.loadAt x a n g = .ok (y, t)) : t.mem.wf = true := by
  unfold State.loadAt at e
  split at e
  · cases e
  · cases x <;> simp only at e
    · exact State.wf_load h e
    all_goals
      split at e
      · cases e; exact h
      · cases e

/-- A scalar store to any space keeps the canonical form. -/
theorem State.wf_storeAt {s t : State} {x : Space} {a : Word} {n y : Nat} (h : s.mem.wf = true)
    (e : s.storeAt x a n y = .ok t) : t.mem.wf = true := by
  unfold State.storeAt at e
  split at e
  · cases e
  · cases x <;> simp only at e
    · exact State.wf_store h e
    all_goals
      split at e
      · cases e; exact State.wf_spaceWrite _ _ _ _ h
      · cases e

/-- A scalar read-modify-write of any space keeps the canonical form. -/
theorem State.wf_rmwAt {s t : State} {x : Space} {a : Word} {n y : Nat} {op : RemoteOp} {f : Nat → Nat} (h : s.mem.wf = true)
    (e : s.rmwAt x a n op f = .ok (y, t)) : t.mem.wf = true := by
  unfold State.rmwAt at e
  split at e
  · cases e
  · cases x <;> simp only at e
    · exact State.wf_rmw h e
    · split at e
      · cases e; exact State.wf_spaceWrite _ _ _ _ h
      · cases e
    all_goals cases e

/-! ## Runs of words -/

@[simp] theorem State.spinSaw_mem (s : State) (x : Space) (a y : Word) : (s.spinSaw x a y).mem = s.mem := by
  unfold State.spinSaw
  split
  · rfl
  · split <;> rfl

/-- A capture keeps the canonical form. -/
theorem State.wf_capture {s t : State} {p : Party} {a : Word} {n : Nat} {l : List Byte} (h : s.mem.wf = true)
    (e : s.capture p a n = .ok (l, t)) : t.mem.wf = true := by
  induction n generalizing s a l with
  | zero => cases e; exact h
  | succ n ih =>
    simp only [State.capture] at e
    split at e
    · cases e
    · rename_i e1
      split at e
      · cases e
      · rename_i e2
        cases e
        refine ih ?_ e2
        split
        · rw [State.spinSaw_mem]; exact State.wf_load h e1
        · exact State.wf_load h e1

/-- Words stored one after another keep the canonical form. -/
theorem State.wf_storeWords {s : State} (p : Party) (a : Word) (l : List Word) (h : s.mem.wf = true) :
    (s.storeWords p a l).1.mem.wf = true := by
  induction l generalizing s a with
  | nil => exact h
  | cons x l ih =>
    simp only [State.storeWords]
    split
    · exact h
    · rename_i e
      exact ih _ (State.wf_store h e)

/-! ## Notices and requests -/

theorem State.wf_writeNotice {s : State} (d : Nat) (x : Notice) (h : s.mem.wf = true) : (s.writeNotice d x).mem.wf = true := by
  simp only [State.writeNotice]
  split
  · exact h
  · split
    · rw [State.wrote_mem]; exact State.wf_setDramBytes _ _ h
    · rw [State.inject_mem]; exact h

/-- A notice posted keeps the canonical form. -/
theorem State.wf_postNotice {s : State} (d : Nat) (x : Notice) (h : s.mem.wf = true) : (s.postNotice d x).mem.wf = true := by
  unfold State.postNotice
  split
  · exact State.wf_writeNotice d x h
  · split <;> exact h

@[simp] theorem State.request_mem (s : State) (key ep pa : Nat) (op : RemoteOp) : (s.request key ep pa op).mem = s.mem := by
  simp [State.request]

@[simp] theorem State.waveCuts_mem (s : State) (key : Nat) (l : List Vlc) : (s.waveCuts key l).2.mem = s.mem := by
  induction l generalizing s with
  | nil => rfl
  | cons v l ih =>
    simp only [State.waveCuts]
    split
    · rw [ih]; rfl
    · exact ih s

@[simp] theorem State.startWave_mem (s : State) (key : Nat) (c : Cause) : (s.startWave key c).mem = s.mem := by
  simp only [State.startWave]
  rw [State.due_mem, State.waveCuts_mem]
  split <;> rfl

@[simp] theorem State.endStep_mem (s : State) (key : Nat) (st : JobState) : (s.endStep key st).mem = s.mem := rfl

@[simp] theorem State.stepEnded_mem (s : State) : s.stepEnded.mem = s.mem := rfl

@[simp] theorem State.dueTlb_mem (s : State) : s.dueTlb.mem = s.mem := rfl

@[simp] theorem State.dueFrozen_mem (s : State) : s.dueFrozen.mem = s.mem := rfl

@[simp] theorem State.freezeHere_mem (s : State) : s.freezeHere.mem = s.mem := rfl

@[simp] theorem State.drain_mem (s : State) (i : Instr) : (s.drain i).mem = s.mem := rfl

@[simp] theorem State.refreeze_mem (s : State) : s.refreeze.mem = s.mem := by
  simp only [State.refreeze]
  split
  · split <;> rfl
  · rfl

/-! ## Taking a trap, completing an instruction and returning from a trap -/

theorem State.wf_nestStop {s : State} (h : s.mem.wf = true) : s.nestStop.mem.wf = true :=
  State.wf_postNotice _ _ h

theorem State.wf_awaitEntry {s s1 : State} (t : Trap) (e : Stop) (h : s.mem.wf = true) (h1 : s1.mem.wf = true) :
    (s.awaitEntry s1 t e).mem.wf = true := by
  cases e with
  | trap => exact State.wf_nestStop h1
  | remote =>
    show (State.request s _ _ _ _).mem.wf = true
    rw [State.request_mem]; exact h
  | drain => exact h
  | cut => exact h

theorem State.wf_storeRec {s : State} (t : Trap) (h : s.mem.wf = true) : (s.storeRec t).1.mem.wf = true := by
  unfold State.storeRec
  split
  · exact h
  · rename_i f _
    have hw := State.wf_storeWords s.trapParty (s.v.block + 0x40) f.words h
    split
    · rename_i e; rw [e] at hw; exact hw
    · rename_i e; rw [e] at hw; exact hw

theorem State.wf_enterHandler {s : State} (t : Trap) (h : s.mem.wf = true) : (s.enterHandler t).mem.wf = true := by
  unfold State.enterHandler
  split
  · exact State.wf_awaitEntry t _ h h
  · rename_i e1
    have h1 := State.wf_load h e1
    split
    · exact State.wf_awaitEntry t _ h h1
    · rename_i s2 e2
      have h2 := State.wf_load h1 e2
      have h3 := State.wf_storeWords s.trapParty (s.v.block + 0x100) (0 :: (s.v.sregs.toList.drop 1)) h2
      split
      · rename_i e3; rw [e3] at h3; exact State.wf_awaitEntry t _ h h3
      · rename_i s3 e3
        rw [e3] at h3
        have h4 := State.wf_storeRec t h3
        split
        · rename_i e4; rw [e4] at h4; exact State.wf_awaitEntry t _ h h4
        · rename_i e4
          rw [e4] at h4
          split
          · exact State.wf_nestStop h4
          · exact h4

theorem State.wf_enterTrap {s : State} (t : Trap) (h : s.mem.wf = true) : (s.enterTrap t).mem.wf = true := by
  unfold State.enterTrap
  simp only
  split
  · exact State.wf_nestStop h
  · exact State.wf_enterHandler t h

/-- Taking a trap keeps the canonical form. -/
theorem State.wf_takeTrap {s : State} (t : Trap) (h : s.mem.wf = true) : (s.takeTrap t).mem.wf = true := by
  unfold State.takeTrap
  simp only
  split
  · simpa using h
  · simpa using State.wf_enterTrap t h

/-- A forced pre-emption keeps the canonical form. -/
theorem State.wf_forcePreempt {s : State} (h : s.mem.wf = true) : s.forcePreempt.mem.wf = true := by
  unfold State.forcePreempt
  rw [State.dueTlb_mem]
  exact State.wf_takeTrap _ h

/-- An instruction that waits keeps the canonical form. -/
theorem State.wf_block {s : State} (i : Instr) (h : s.mem.wf = true) : (s.block i).mem.wf = true := by
  simp only [State.block]
  split
  · exact h
  · split
    · exact State.wf_forcePreempt h
    · rw [State.refreeze_mem]; exact h

/-- An instruction that does not complete keeps the canonical form. -/
theorem State.wf_raise {s : State} (i : Instr) (e : Stop) (h : s.mem.wf = true) : (s.raise i e).mem.wf = true := by
  cases e with
  | trap => exact State.wf_takeTrap _ h
  | remote =>
    simp only [State.raise]
    split
    · exact h
    · show (State.request s _ _ _ _).mem.wf = true
      rw [State.request_mem]; exact h
  | drain => exact h
  | cut =>
    simp only [State.raise]
    split
    · exact h
    · exact State.wf_forcePreempt h

theorem State.wf_stepTrap {s : State} (head : Word) (h : s.mem.wf = true) : (s.stepTrap head).mem.wf = true := by
  unfold State.stepTrap
  split
  · exact State.wf_takeTrap _ h
  · simpa using h

/-- An instruction that completes keeps the canonical form. -/
theorem State.wf_complete {s : State} (i : Instr) (next : Word) (b : Bool) (h : s.mem.wf = true) :
    (s.complete i next b).mem.wf = true :=
  State.wf_stepTrap _ h

theorem State.wf_finish {s : State} (i : Instr) (h : s.mem.wf = true) : (s.finish i).mem.wf = true :=
  State.wf_complete i _ _ h

/-- An instruction that may stop keeps the canonical form if its effect does. -/
theorem State.wf_run {s : State} (i : Instr) (x : Except Stop State) (h : s.mem.wf = true)
    (hx : ∀ t, x = .ok t → t.mem.wf = true) : (s.run i x).mem.wf = true := by
  cases x with
  | ok t => exact State.wf_finish i (hx t rfl)
  | error e => exact State.wf_raise i e h

/-- The checks of decode keep the canonical form if what follows them does. -/
theorem wf_checked {s : State} (i : Instr) (k : State → State) (h : s.mem.wf = true) (hk : (k s).mem.wf = true) :
    (checked i s k).mem.wf = true := by
  unfold checked
  split
  · refine State.wf_raise i _ ?_
    unfold State.unmark
    split <;> exact h
  · exact hk

theorem State.wf_reload {s t : State} {a : Word} {r n : Nat} (h : s.mem.wf = true) (e : s.reload a r n = .ok t) :
    t.mem.wf = true := by
  induction n generalizing s a r with
  | zero => cases e; exact h
  | succ n ih =>
    simp only [State.reload] at e
    split at e
    · cases e
    · rename_i e1
      exact ih (by simpa using State.wf_load h e1) e

@[simp] theorem State.loseSlots_mem (s : State) : s.loseSlots.mem = s.mem := by
  unfold State.loseSlots
  generalize List.finRange 16 = l
  induction l generalizing s with
  | nil => rfl
  | cons j l ih =>
    rw [List.foldl_cons, ih]
    split <;> rfl

@[simp] theorem State.afterGrantPreempt_mem (s : State) : s.afterGrantPreempt.mem = s.mem := by
  unfold State.afterGrantPreempt
  split
  · exact s.loseSlots_mem
  · rfl

/-- The return from a trap keeps the canonical form. -/
theorem State.wf_returnFrom {s : State} (i : Instr) (h : s.mem.wf = true) : (s.returnFrom i).mem.wf = true := by
  unfold State.returnFrom
  split
  · exact State.wf_raise i _ h
  · split
    · rename_i e _
      cases e with
      | trap => show (State.refreeze _).mem.wf = true; rw [State.refreeze_mem]; exact State.wf_nestStop h
      | remote => exact State.wf_raise i _ h
      | drain => exact h
      | cut => exact h
    · rename_i e
      rw [State.refreeze_mem, State.setV_mem, State.afterGrantPreempt_mem]
      exact State.wf_reload h e

end Sys2Proof.Machine
end

