-- ==== Sys2Proof/Laws/Access.lean ====
section
/-! SUPPORT. Laws of accesses: what a load, a store and a read-modify-write leave unchanged in the VLC that makes them and in
memory, and what permitted accesses of local DRAM answer. -/

namespace Sys2Proof.Machine

/-! ## The VLC -/

@[simp] theorem State.keep_v (s : State) (p : Party) (e : TlbEntry) : (s.keep p e).v = s.v := by
  unfold State.keep
  cases p.core <;> simp only <;> split <;> try split
  all_goals rfl

@[simp] theorem State.keep_endpoint (s : State) (p : Party) (e : TlbEntry) : (s.keep p e).endpoint = s.endpoint := by
  unfold State.keep
  cases p.core <;> simp only <;> split <;> try split
  all_goals rfl

@[simp] theorem State.keep_regions (s : State) (p : Party) (e : TlbEntry) : (s.keep p e).regions = s.regions := by
  unfold State.keep
  cases p.core <;> simp only <;> split <;> try split
  all_goals rfl

@[simp] theorem State.keep_pilot (s : State) (p : Party) (e : TlbEntry) : (s.keep p e).pilot = s.pilot := by
  unfold State.keep
  cases p.core <;> simp only <;> split <;> try split
  all_goals rfl

@[simp] theorem State.wrote_v (s : State) (at_ : Place) : (s.wrote at_).v = s.v := by
  cases at_ <;> rfl

@[simp] theorem State.wrote_regions (s : State) (at_ : Place) : (s.wrote at_).regions = s.regions := by
  cases at_ <;> rfl

@[simp] theorem State.wrote_endpoint (s : State) (at_ : Place) : (s.wrote at_).endpoint = s.endpoint := by
  cases at_ <;> rfl

/-- Counting the entries that a walk read changes neither the VLC nor the region table. -/
theorem State.countWalk_same (s : State) (l : List Nat) :
    (s.countWalk l).v = s.v ∧ (s.countWalk l).regions = s.regions ∧ (s.countWalk l).endpoint = s.endpoint := by
  induction l generalizing s with
  | nil => exact ⟨rfl, rfl, rfl⟩
  | cons a l ih =>
    have h := ih (if epOf a = s.endpoint then s.count a else s)
    refine ⟨h.1.trans ?_, h.2.1.trans ?_, h.2.2.trans ?_⟩ <;> split <;> rfl

@[simp] theorem State.countWalk_v (s : State) (l : List Nat) : (s.countWalk l).v = s.v := (s.countWalk_same l).1
@[simp] theorem State.countWalk_regions (s : State) (l : List Nat) : (s.countWalk l).regions = s.regions :=
  (s.countWalk_same l).2.1
@[simp] theorem State.countWalk_endpoint (s : State) (l : List Nat) : (s.countWalk l).endpoint = s.endpoint :=
  (s.countWalk_same l).2.2

@[simp] theorem State.markLeaf_v (s : State) (addr set clear : Nat) : (s.markLeaf addr set clear).v = s.v := by
  simp [State.markLeaf]

@[simp] theorem State.markLeaf_regions (s : State) (addr set clear : Nat) :
    (s.markLeaf addr set clear).regions = s.regions := by
  simp [State.markLeaf]

/-- An update of a leaf changes no other byte. -/
theorem State.markLeaf_byte (s : State) (addr set clear : Nat) {b : Nat} (h : b ≠ dramKey addr) :
    (s.markLeaf addr set clear).mem.byte b = s.mem.byte b := by
  simp only [State.markLeaf, State.wrote_mem, State.count_mem, State.setDram_mem]
  rw [Memory.byte_write_other _ _ (by omega), State.merged_byte]

/-- What a permitted access leaves beside its bytes does not touch the VLC that makes it. -/
@[simp] theorem State.note_v (s : State) (p : Party) (q : Req) (r : Ref) : (s.note p q r).v = s.v := by
  simp only [State.note, State.used]
  split <;> split <;> simp

/-- Nor the region table. -/
@[simp] theorem State.note_regions (s : State) (p : Party) (q : Req) (r : Ref) : (s.note p q r).regions = s.regions := by
  simp only [State.note, State.used]
  split <;> split <;> simp

/-- Of DRAM it touches the low byte of the leaf that was used and no other. -/
theorem State.note_byte (s : State) (p : Party) (q : Req) (r : Ref) {b : Nat} (h : b ≠ dramKey r.e.addr) :
    (s.note p q r).mem.byte b = s.mem.byte b := by
  simp only [State.note, State.used]
  split <;> split <;> simp [State.markLeaf_byte _ _ _ _ h]

@[simp] theorem State.readSealed_v (s : State) (k : Seal) (pa n : Nat) : (s.readSealed k pa n).2.v = s.v := by
  cases k <;> rfl

@[simp] theorem State.writeSealed_v (s : State) (k : Seal) (pa n x : Nat) : (s.writeSealed k pa n x).v = s.v := by
  cases k <;> rfl

@[simp] theorem State.wroteSpace_v (s : State) (x : Space) (o : Nat) : (s.wroteSpace x o).v = s.v := by
  cases x <;> simp [State.wroteSpace]

@[simp] theorem State.setSpaceMem_v (s : State) (x : Space) (m : Memory) : (s.setSpaceMem x m).v = s.v := by
  cases x <;> rfl

@[simp] theorem State.spaceWrite_v (s : State) (x : Space) (o n y : Nat) : (s.spaceWrite x o n y).v = s.v := by
  simp [State.spaceWrite]

/-- A load leaves the VLC that makes it as it is. -/
theorem State.load_v {s t : State} {p : Party} {q : Req} {x : Nat} (e : s.load p q = .ok (x, t)) : t.v = s.v := by
  unfold State.load at e
  split at e
  · cases e
  · rename_i r _
    unfold State.loadRef at e
    split at e
    · obtain ⟨y, -, hy⟩ := map_eq_ok e
      cases hy; exact State.note_v s p q r
    · split at e
      · cases e; exact State.note_v s p q r
      · split at e
        · cases e
        · cases e; exact (State.note_v _ p q r).trans (State.readSealed_v s _ _ _)

/-- A scalar load of any space leaves its VLC as it is. -/
theorem State.loadAt_v {s t : State} {x : Space} {a : Word} {n y : Nat} {g : Bool} (e : s.loadAt x a n g = .ok (y, t)) :
    t.v = s.v := by
  unfold State.loadAt at e
  split at e
  · cases e
  · cases x <;> simp only at e
    · exact State.load_v e
    all_goals
      split at e
      · cases e; rfl
      · cases e

/-- A read-modify-write leaves the VLC that makes it as it is. -/
theorem State.rmw_v {s t : State} {p : Party} {q : Req} {key x : Nat} {op : RemoteOp} {f : Nat → Nat}
    (e : s.rmw p q key op f = .ok (x, t)) : t.v = s.v := by
  unfold State.rmw at e
  split at e
  · cases e
    split
    · exact State.note_v s p q _
    · rfl
  · split at e
    · cases e
    · rename_i r _
      unfold State.rmwRef at e
      split at e
      · split at e
        · cases e
        · cases e
          rw [State.wrote_v, State.writeSealed_v, State.note_v]
          exact State.readSealed_v s _ _ _
      · split at e
        · cases e
        · obtain ⟨y, -, hy⟩ := map_eq_ok e
          cases hy; exact State.note_v s p q r

/-- A capture of `n` words gives `8 n` bytes. -/
theorem State.capture_length {s t : State} {p : Party} {a : Word} {n : Nat} {l : List Byte}
    (e : s.capture p a n = .ok (l, t)) : l.length = 8 * n := by
  induction n generalizing s a l with
  | zero => cases e; rfl
  | succ n ih =>
    simp only [State.capture] at e
    split at e
    · cases e
    · split at e
      · cases e
      · rename_i e2
        cases e
        simp [ih e2, bytesOf]
        omega

/-! ## Permitted accesses of local DRAM -/

/-- A permitted load of local DRAM in the clear gives its bytes. -/
theorem State.loadRef_dram {s : State} {p : Party} {q : Req} {r : Ref} (hg : regAt r.pa = none) (he : epOf r.pa = s.endpoint)
    (hp : s.poisoned r.pa = false) (hs : r.e.bit 11 = false) :
    s.loadRef p q r = .ok (s.mem.read (dramKey r.pa) q.n, s.note p q r) := by
  simp [State.loadRef, hg, he, hp, State.sealOf, hs, State.readSealed, State.dram, State.poisonedUnder]

/-- A permitted load of poisoned local DRAM raises MEMERR. -/
theorem State.loadRef_poisoned {s : State} {p : Party} {q : Req} {r : Ref} (hg : regAt r.pa = none)
    (he : epOf r.pa = s.endpoint) (hp : s.poisoned r.pa = true) : s.loadRef p q r = .error (.plain .memerr 1 r.a) := by
  have h : s.poisonedUnder (s.sealOf r.e) r.pa = true := by cases s.sealOf r.e <;> simp [State.poisonedUnder, hp]
  simp [State.loadRef, hg, he, h]

/-- A permitted store to local DRAM in the clear writes its bytes, beside what the access leaves, and makes due what waits for
its line. -/
theorem State.storeRef_dram {s : State} {p : Party} {q : Req} {r : Ref} {x : Nat} (hg : regAt r.pa = none)
    (he : epOf r.pa = s.endpoint) (hs : r.e.bit 11 = false) :
    s.storeRef p q r x = .ok (((s.note p q r).setDram r.pa q.n x).wrote (.phys r.pa)) := by
  simp [State.storeRef, hg, he, State.sealOf, hs, State.writeSealed]

/-- Bytes that a permitted store to local DRAM in the clear does not write read as they did, but for the leaf's low byte. -/
theorem State.storeRef_byte {s t : State} {p : Party} {q : Req} {r : Ref} {x b : Nat} (hg : regAt r.pa = none)
    (he : epOf r.pa = s.endpoint) (hs : r.e.bit 11 = false) (e : s.storeRef p q r x = .ok t) (hl : b ≠ dramKey r.e.addr)
    (hb : b < dramKey r.pa ∨ dramKey r.pa + q.n ≤ b) : t.mem.byte b = s.mem.byte b := by
  rw [State.storeRef_dram hg he hs] at e
  cases e
  rw [State.wrote_mem, State.setDram_mem, Memory.byte_write_other _ _ hb, State.merged_byte, State.note_byte s p q r hl]

/-- The bytes that a permitted store to local DRAM in the clear writes read back as the number stored. -/
theorem State.storeRef_read {s t : State} {p : Party} {q : Req} {r : Ref} {x : Nat} (hg : regAt r.pa = none)
    (he : epOf r.pa = s.endpoint) (hs : r.e.bit 11 = false) (hw : s.mem.wf = true) (e : s.storeRef p q r x = .ok t) :
    t.mem.read (dramKey r.pa) q.n = x % 256 ^ q.n := by
  rw [State.storeRef_dram hg he hs] at e
  cases e
  rw [State.wrote_mem, State.setDram_mem, Memory.read_write _ _ _ (State.wf_merged _ (State.wf_note p q r hw))]

/-- A permitted store to another endpoint that passes that endpoint's checks is sent, and the VLC keeps its request among those
outstanding. -/
theorem State.storeRef_remote {s : State} {p : Party} {q : Req} {r : Ref} {x : Nat} (he : epOf r.pa ≠ s.endpoint)
    (ha : s.answers (epOf r.pa) = true) (hp : s.probed p q r = .ok ()) :
    s.storeRef p q r x = .ok ((s.note p q r).post p r.pa q.n (2 ^ (8 * q.n) - 1) (x % 2 ^ (8 * q.n)) true
      (if windowOf r.pa = 0 then r.via p q (.write q.n x) else .write q.n x)) := by
  simp [State.storeRef, State.sendRef, he, ha, hp]

/-! ## Traps -/

/-- A trap at supervisor level, or with no handler, stops the VLC with the cause, the address and the value recorded (R306). -/
theorem State.enterTrap_stops {s : State} {t : Trap} (h : s.v.sup = true ∨ s.v.tvec = 0) :
    s.enterTrap t = (s.setV (·.record t)).nestStop := by
  unfold State.enterTrap
  simp only
  rw [if_pos]
  simpa [Vlc.record] using h

/-- A trap at user level with a handler goes on to it (R305). -/
theorem State.enterTrap_enters {s : State} {t : Trap} (hs : s.v.sup = false) (ht : s.v.tvec ≠ 0) :
    s.enterTrap t = (s.setV (·.record t)).enterHandler t := by
  unfold State.enterTrap
  simp only
  rw [if_neg]
  simpa [Vlc.record, hs] using ht

end Sys2Proof.Machine
end

