-- ==== Sys2Proof/Laws/Complete.lean ====
section
/-! SUPPORT. Laws of completing an instruction: where it leaves its VLC, and when decode's checks let it go on. -/

namespace Sys2Proof.Machine

/-- What a smooth state rules out. -/
theorem State.smooth_iff (s : State) : s.smooth = true ↔
    (s.v.level = .supervisor ∨ (s.core s.v.core).stepctl.getLsbD s.v.slot = false) ∧ s.v.stepOnce = false ∧
      s.v.freezing = false ∧ s.v.due = false ∧ s.v.cut = none ∧ s.v.bad = [] ∧ s.v.stores.any (·.old) = false := by
  simp only [State.smooth, Bool.and_eq_true, Bool.or_eq_true, Bool.not_eq_true', beq_iff_eq]
  tauto

/-- Nothing comes between two instructions of a VLC whose state is smooth. -/
theorem State.stepTrap_smooth {s : State} (head : Word) (h : s.smooth = true) : s.stepTrap head = s := by
  rw [State.smooth_iff] at h
  have h1 : ¬((!s.v.sup) = true ∧ (s.core s.v.core).stepctl.getLsbD s.v.slot = true) := by
    rcases h.1 with h | h <;> simp [Vlc.sup, h]
  have h2 : ¬(s.v.stepOnce = true ∧ (!s.v.status.isEntering) = true) := by simp [h.2.1]
  unfold State.stepTrap State.refreeze
  rw [if_neg h1, if_neg h2]

/-- In a smooth state an instruction that waits is blocked at its pc, and nothing else happens. -/
theorem State.block_smooth {s : State} (i : Instr) (h : s.smooth = true) :
    s.block i = s.setV fun v => { v with status := .blocked i } := by
  rw [State.smooth_iff] at h
  unfold State.block State.refreeze
  simp [h.2.1, h.2.2.1, h.2.2.2.1]

theorem State.complete_eq (s : State) (i : Instr) (pc : Word) (e : Bool) :
    s.complete i pc e = (s.goesOn i pc e).stepTrap s.v.pc := rfl

/-- A scalar write leaves what comes between instructions as it is. -/
theorem State.smooth_wr {s : State} (r : SReg) (x : Word) (h : s.smooth = true) : (s.wr r x).smooth = true := by
  rw [State.smooth_iff] at h ⊢
  have hb : (s.v.setS r x).bad = [] := by
    unfold Vlc.setS
    split
    · exact h.2.2.2.2.2.1
    · simp [h.2.2.2.2.2.1]
  simp only [State.wr_v, State.wr_core, Vlc.setS_level, Vlc.setS_core, Vlc.setS_slot, Vlc.setS_stepOnce, Vlc.setS_freezing,
    Vlc.due, Vlc.sup, Vlc.setS_preempt, Vlc.setS_ripe, Vlc.setS_cut, Vlc.setS_stores]
  exact ⟨h.1, h.2.1, h.2.2.1, h.2.2.2.1, h.2.2.2.2.1, hb, h.2.2.2.2.2.2⟩

/-- So does going on. -/
theorem State.smooth_goesOn {s : State} (i : Instr) (pc : Word) (e : Bool) (h : s.smooth = true) :
    (s.goesOn i pc e).smooth = true := by
  rw [State.smooth_iff] at h ⊢
  exact ⟨h.1, h.2.1, h.2.2.1, h.2.2.2.1, rfl, h.2.2.2.2.2⟩

/-- An instruction that completes smoothly leaves its VLC at the new pc and nothing else changed. -/
theorem State.complete_smooth {s : State} (i : Instr) (pc : Word) (e : Bool) (h : s.smooth = true) :
    s.complete i pc e = s.goesOn i pc e := by
  rw [State.complete_eq, State.stepTrap_smooth _ (State.smooth_goesOn i pc e h)]

/-- See `State.complete_smooth`. -/
theorem State.finish_smooth {s : State} (i : Instr) (h : s.smooth = true) : s.finish i = s.past i :=
  s.complete_smooth i _ false h

/-- An instruction that passes decode's checks goes on. -/
theorem checked_none {i : Instr} {s : State} {k : State → State} (h : decodeStop i s = none) : checked i s k = k s := by
  unfold checked; rw [h]

/-- An instruction that decode turns away takes its trap. -/
theorem checked_some {i : Instr} {s : State} {k : State → State} {e : Stop} (h : decodeStop i s = some e) :
    checked i s k = (s.unmark i e).raise i e := by
  unfold checked; rw [h]

/-- A trap other than MEMERR REGFILE leaves the marks of uncorrectable state. -/
theorem State.unmark_of_ne {s : State} {i : Instr} {e : Stop} (h : e ≠ regfileStop) : s.unmark i e = s := by
  unfold State.unmark; rw [if_neg h]

/-- Where no state holds an uncorrectable error, no instruction meets one. -/
theorem badReads_none {i : Instr} {s : State} (h : s.v.bad = []) : badReads i s = false := by
  simp [badReads, h]

/-- Where no store of an earlier strip is outstanding, no instruction waits for one. -/
theorem waitsForOld_none {i : Instr} {s : State} (h : s.v.stores.any (·.old) = false) : waitsForOld i s = false := by
  simp [waitsForOld, h]

/-- An instruction that no check of R108 which depends on state turns away. -/
theorem decodeStop_ok {i : Instr} {s : State} (h1 : i.joins = false) (h2 : badVt i s = false)
    (h3 : privileged i s.v.sup = false) (h4 : ((vnames i).any fun r => decide (s.v.decl ≤ r)) = false)
    (h5 : overlaps i = false) (h6 : isTile i = false) (h7 : operandStop i s = none) (h8 : emptiesLc i s = false)
    (h9 : s.smooth = true) : decodeStop i s = none := by
  have h := (State.smooth_iff s).1 h9
  simp [decodeStop, ownStop, joinStop, h1, h2, h3, h4, h5, h6, h7, h8, badReads_none h.2.2.2.2.2.1, waitsForOld_none h.2.2.2.2.2.2]

/-- A scalar instruction that passes decode's checks has its effect and leaves its VLC past it. -/
theorem alone_ok {i : Instr} {s : State} {f : State → State} (h : decodeStop i s = none) (hf : (f s).smooth = true) :
    alone i s f = .next ((f s).past i) := by
  unfold alone
  rw [checked_none h, State.finish_smooth i hf]

end Sys2Proof.Machine
end

