-- ==== Sys2Proof/Laws/Direct.lean ====
section
/-! SUPPORT. What an access does that is permitted at once: `State.direct` and `State.openWords` decide it from the state. -/

namespace Sys2Proof.Machine

/-- What a party holds translates its address, with no walk, and is held already. -/
theorem State.cached_translates {s : State} {p : Party} {q : Req} {a : Word} {e : TlbEntry} (h : s.cached p a = some e) :
    s.translate p q a = .ok (e, []) ∧ s.keep p e = s := by
  unfold State.cached at h
  rw [Option.filter_eq_some_iff] at h
  obtain ⟨h1, h2⟩ := h
  simp only [Bool.and_eq_true, Bool.or_eq_true] at h2
  refine ⟨?_, ?_⟩
  · unfold State.translate
    cases ht : tlbFind p.ctx a (s.tlb1 p) with
    | some x => simp_all
    | none => simp_all
  · unfold State.keep
    simp only [h2.1, if_true]
    cases hc : p.core with
    | none => rfl
    | some c =>
      have : (s.core c).tlb.contains e = true := by simpa [State.tlb1, hc] using h2.2
      simp only [this, if_true]

/-- A direct access is permitted, lies in this package's DRAM, and changes the count of its place alone. -/
theorem State.direct_resolves {s : State} {p : Party} {q : Req} {pa : Nat} (h : s.direct p q = some pa) :
    ∃ r, s.resolve p q = .ok r ∧ r.pa = pa ∧ r.a = q.va ∧ epOf pa = s.endpoint ∧ windowOf pa = 0 ∧ r.e.bit 11 = false ∧
      s.note p q r = s.count pa := by
  unfold State.direct at h
  obtain ⟨e, he, h⟩ := Option.bind_eq_some_iff.mp h
  simp only at h
  split at h
  · rename_i hc
    obtain ⟨hk, hcan, hw, hep, hperm, hgr, h11, h12, hpte, hwatch⟩ := hc
    cases h
    obtain ⟨htr, hkeep⟩ := State.cached_translates (q := q) he
    have hu : untag q.va = q.va := by simp [untag, hk]
    have hg : s.granted p q = .ok { e := e, a := q.va, va := q.va, pa := e.phys q.va, walk := [] } := by
      unfold State.granted
      have hr : e.reaches q (e.phys q.va) = true := by simp [TlbEntry.reaches, hw]
      have ht : s.tagsOk p e q (e.phys q.va) = true := by simp [State.tagsOk, h12, hk]
      simp [hcan, hu, htr, hr, hperm, hgr, h11, ht]
    refine ⟨{ e := e, a := q.va, va := q.va, pa := e.phys q.va, walk := [] }, ?_, rfl, rfl, hep, hw, h11, ?_⟩
    · unfold State.resolve
      simp only [hg, hu, hwatch]
      simp [State.leafReady, hpte]
    · unfold State.note State.used
      simp [State.countWalk, hpte, hkeep, hw, hep]
  · cases h

/-- No register lies among the DRAM. -/
theorem regAt_dram {pa : Nat} (h : windowOf pa = 0) : regAt pa = none := by simp [regAt, h]

/-- A direct load of bytes that hold no poison answers them. -/
theorem State.direct_loads {s : State} {p : Party} {q : Req} {pa : Nat} (h : s.direct p q = some pa) (hp : s.poisoned pa = false) :
    s.load p q = .ok (s.mem.read (dramKey pa) q.n, s.count pa) := by
  obtain ⟨r, hr, rfl, ha, hep, hw, h11, hn⟩ := State.direct_resolves h
  have hreg : regAt r.pa = none := regAt_dram hw
  unfold State.load State.loadRef
  simp only [hr]
  simp [hep, hreg, State.sealOf, h11, State.poisonedUnder, hp, State.readSealed, hn, State.dram]

/-- A direct store writes its bytes. -/
theorem State.direct_stores {s : State} {p : Party} {q : Req} {pa x : Nat} (h : s.direct p q = some pa) :
    s.store p q x = .ok (((s.count pa).setDram pa q.n x).wrote (.phys pa)) := by
  obtain ⟨r, hr, rfl, ha, hep, hw, h11, hn⟩ := State.direct_resolves h
  have hreg : regAt r.pa = none := regAt_dram hw
  unfold State.store State.storeRef
  simp [hr, hep, hreg, State.sealOf, h11, State.writeSealed, hn]

/-- A direct read-modify-write, of bytes that hold no poison, answers them and stores their image. -/
theorem State.direct_rmws {s : State} {p : Party} {q : Req} {pa key : Nat} {op : RemoteOp} {f : Nat → Nat}
    (h : s.direct p q = some pa) (hp : s.poisoned pa = false) (ha : s.answer p key = none) :
    s.rmw p q key op f = .ok (s.mem.read (dramKey pa) q.n,
      ((s.count pa).setDram pa q.n (f (s.mem.read (dramKey pa) q.n))).wrote (.phys pa)) := by
  obtain ⟨r, hr, rfl, -, hep, hw, h11, hn⟩ := State.direct_resolves h
  unfold State.rmw State.rmwRef
  simp [ha, hr, hep, State.sealOf, h11, State.poisonedUnder, hp, State.readSealed, State.writeSealed, hn, State.dram]

/-- Counting an access changes what no access looks at. -/
theorem State.direct_count (s : State) (pa : Nat) (p : Party) (q : Req) : (s.count pa).direct p q = s.direct p q := rfl

theorem State.openWord_count (s : State) (pa : Nat) (p : Party) (a : Word) : (s.count pa).openWord p a = s.openWord p a := rfl

theorem State.openWords_accesses (s : State) (l : List (Nat × Nat)) (p : Party) (a : Word) (n : Nat) :
    { s with accesses := l }.openWords p a n = s.openWords p a n := by
  induction n generalizing a with
  | zero => rfl
  | succ n ih => unfold State.openWords; rw [ih]; rfl

/-- An open word is read, and its access counted. -/
theorem State.openWord_loads {s : State} {p : Party} {a : Word} {x : Nat} (h : s.openWord p a = some x) :
    ∃ pa, s.load p (.mem a 8 .load 0) = .ok (x, s.count pa) := by
  unfold State.openWord at h
  obtain ⟨pa, hd, h⟩ := Option.bind_eq_some_iff.mp h
  split at h
  · cases h
  · rename_i hp
    cases h
    exact ⟨pa, State.direct_loads hd (by simpa using hp)⟩

/-- Open words are captured, and nothing but counts of accesses changes, where the VLC's spin detector watches for nothing. -/
theorem State.openWords_captured {s : State} {p : Party} {a : Word} {n : Nat} {l : List Byte} (hs : s.v.spin.demoted = false)
    (h : s.openWords p a n = some l) : ∃ u, s.capture p a n = .ok (l, u) ∧ s.counted u := by
  induction n generalizing s a l with
  | zero => cases h; exact ⟨s, rfl, rfl⟩
  | succ n ih =>
    unfold State.openWords at h
    obtain ⟨x, hx, h⟩ := Option.bind_eq_some_iff.mp h
    obtain ⟨l', hl, rfl⟩ := Option.map_eq_some_iff.mp h
    obtain ⟨pa, hload⟩ := State.openWord_loads hx
    have hl' : (s.count pa).openWords p (a + 8) n = some l' := by
      rw [← hl]; exact State.openWords_accesses s _ p (a + 8) n
    obtain ⟨u, hu, hc⟩ := ih (s := s.count pa) hs hl'
    refine ⟨u, ?_, ?_⟩
    · unfold State.capture
      have hsaw : ∀ y, (s.count pa).spinSaw .glob a y = s.count pa := by
        intro y; unfold State.spinSaw
        have : (s.count pa).v.spin.demoted = false := hs
        simp [this, hs]
      simp only [hload, hsaw, ite_self, hu]
    · unfold State.counted at hc ⊢
      rw [hc]
      rfl

end Sys2Proof.Machine
end

