-- ==== Sys2Proof/Tests/Slice0.lean ====
section
/-! SUPPORT. Tests of the model against the encodings and the worked examples of spec/, and for each claim with hypotheses a
concrete state that meets them. -/

open Sys2Proof Sys2Proof.Machine

namespace Sys2Proof.Tests

-- One theorem after another: together they would need more threads than memory has stacks for.
set_option Elab.async false

/-! ## Helpers -/

/-- The instruction placed for the next step of a package after reset, some scalar registers set. -/
def ready (i : Instr) (regs : List (SReg × Word)) : State :=
  regs.foldl (fun s x => s.wr x.1 x.2) (placeBytes State.reset (encode i))

/-- The outcome is a next state that passes a check. -/
def goesTo (o : Out) (p : State → Bool) : Bool :=
  match o with
  | .next s => p s
  | .fault _ => false
  | .refused _ => false

/-- The computation succeeds with a value that passes a check. -/
def okay {ε α : Type} (f : Except ε α) (p : α → Bool) : Bool :=
  match f with
  | .ok x => p x
  | .error _ => false

/-- The computation stops with an error that passes a check. -/
def stops {ε α : Type} (f : Except ε α) (p : ε → Bool) : Bool :=
  match f with
  | .ok _ => false
  | .error e => p e

/-- There is a value, and it passes a check. -/
def found {α : Type} (o : Option α) (p : α → Bool) : Bool :=
  match o with
  | some x => p x
  | none => false

/-- One step of a placed instruction leads to a state that passes a check. -/
def steps (i : Instr) (regs : List (SReg × Word)) (p : State → Bool) : Bool := goesTo (step (ready i regs)) p

/-! ## States -/

/-- A state with vector registers holding elements of their types, VL the number of the first one's. -/
def vecs (s : State) (l : List (VReg × VType × List Nat)) : State :=
  l.foldr (fun x s => s.setV fun v => { v with
    vl := x.2.2.length
    mvl64 := 4096
    vregs := v.vregs.set x.1.toNat
      { img := BitVec.ofNat 262144 (x.2.2.foldr (fun e y => e + 2 ^ x.2.1.width * y) 0), tag := BitVec.ofNat 2 x.2.1.wcode,
        hwm := x.2.2.length * x.2.1.width / 8, poison := 0 } }) s

/-- A store of 8 bytes to endpoint 9, outstanding as request `id`. -/
def onItsWay (id : Nat) : Posted :=
  { id := id, pa := 9 * 2 ^ 43, n := 8, mask := 2 ^ 64 - 1, val := 0, known := true, fresh := false, old := false }

/-- The first elements of a vector register. -/
def elems (s : State) (t : VType) (r : VReg) (n : Nat) : List Nat := (List.range n).map (s.v.element t r)

/-- A mask register set to a value. -/
def masked (s : State) (m : MReg) (x : Nat) : State :=
  s.setV fun v => { v with masks := v.masks.set m.toNat (BitVec.ofNat 8192 x) }

/-- A number in the low bits of memory at an address. -/
def poke (s : State) (a n x : Nat) : State := { s with mem := s.mem.write a n x }

/-! ## What no encoding can hold -/

/-- The checks of `Instr.wf` on the scalar instructions: the zero halfword, the types and spaces of the loads and stores, the
types of the floating-point ones, and the registers of the pairs and runs. -/
theorem test_wf_scalar : ([.add 0 4 1 false, .mulh true 0 8 1 false, .cmp .eq 0 0 0 false, .popc 0 4 false, .ldSpace .f64 .cmem 1 2,
    .ldSpace .n8 .glob 1 2, .stSpace .n8 .lane 1 2, .lda .n8 .cl .lane 1 2, .strel .f32 .cl .glob 1 2, .fadd .n32 .fpc 1 2 3,
    .fsqrt .e4m3 .fpc 1 2, .fcmp .s8 .eq 1 2 3, .fminmax .n64 true 1 2 3, .fcvt .e4m3x .fpc .f32 1 2, .fcvt .f32 .fpc .e2m1x 1 2,
    .fcvt .f32 .sat .f64 1 2, .setvp 0 1 2, .setvp 31 1 2, .wqpost 1 2 0, .wqpost 1 2 31, .wqrecv 1 2 0, .wqrecv 1 2 30,
    .wcomb 1 2 0, .wcomb 1 2 27] : List Instr).all (fun i => !i.wf) = true := by
  decide

/-- Its checks on the vector, matrix and convoy instructions. -/
theorem test_wf_vector : ([.vadd .f32 0 1 2 3 false, .vfadd .n32 0 1 2 3 false, .vfsqrt .e5m2 0 1 2 false, .vfcvt .f32 .sat .f64 0 1 false,
    .vcmp .e4m3 .eq 1 2 3 false, .vcmp .s32 .eq 0 2 3 false, .vcmp .s32 .un 1 2 3 false, .vred .f32 0 .and 1 2,
    .vred .e4m3 0 .sum 1 2, .vscan .s32 0 .seq 1 2, .mlog .and 0 1 2 false, .mpopc 1 0, .mfirst 1 0, .msbf 0 1,
    .vstxa .e2m1 0 1 2 3 false, .vldbpc .e4m3 1 1 2 false, .vldbpc .f32 0 1 2 false, .vstbpc .e5m2 0 1 2 false, .vbin .s32 0 1 2 3,
    .tshape .n8 .dense 1 2 3, .tld .s32 .dense 1 2, .tmma .n8 0 1 2 false, .tmmas .f32 .s24 0 1 2 3 false,
    .tmmas .f16 .dense 0 1 2 3 false, .text .f16 0 1 .f32 1 2, .tinj .f32 0 1 .e4m3x 1 2, .convoy [], .convoy [0]] : List Instr).all
    (fun i => !i.wf) = true := by
  decide

/-- What the decoder answers for SETVP of s0 and s31 (R393 has no such encoding). -/
theorem test_decode_setvp_pair : decode (bytesOf 4 0x10398181) = .ill .regclass ∧ decode (bytesOf 4 0x1039BF81) = .ill .regclass := by
  decide

/-- The encodings of ADD to SEL, as spec/opcode_table.json lays them out. -/
theorem test_decode_integer :
    ([(4, 0x009AAA04, .add 21 10 19 true), (4, 0x089AAA04, .sub 21 10 19 true), (4, 0x109AAA04, .mul 21 10 19 true), 
      (4, 0x199AAA04, .mulh true 21 10 19 true), (4, 0x209AAA04, .div false 21 10 19 true), 
      (4, 0x299AAA04, .rem true 21 10 19 true), (4, 0x309AAA04, .and 21 10 19 true), 
      (4, 0x389AAA04, .or 21 10 19 true), (4, 0x409AAA04, .xor 21 10 19 true), (4, 0x489AAA04, .shl 21 10 19 true), 
      (4, 0x509AAA04, .shr 21 10 19 true), (4, 0x589AAA04, .shra 21 10 19 true), 
      (4, 0x669AAA04, .cmp .ltU 21 10 19 true), (4, 0x689AAA04, .min false 21 10 19 true), 
      (4, 0x719AAA04, .max true 21 10 19 true), (4, 0x7802AA04, .clz 21 10 true), (4, 0x8002AA04, .ctz 21 10 true), 
      (4, 0x8802AA04, .popc 21 10 true), (4, 0x909AAA04, .sel 21 10 19 true)] : List (Nat × Nat × Instr)).all fun p =>
      decode (bytesOf p.1 p.2.1) == .instr p.2.2 := by
  decide

/-- The encodings of ADD_IMM to TRAP, as spec/opcode_table.json lays them out. -/
theorem test_decode_immediate :
    ([(4, 0xFFEAAA0C, .addImm 21 10 8189 true), (4, 0xFFEAAA14, .andImm 21 10 8189 true), 
      (4, 0xFFEAAA1C, .orImm 21 10 8189 true), (4, 0xFFEAAA24, .xorImm 21 10 8189 true), 
      (4, 0x002AAA2C, .shlImm 21 10 5 true), (4, 0x002AAA34, .shrImm 21 10 5 true), 
      (4, 0x002AAA3C, .shraImm 21 10 5 true), (4, 0xFFEAAA44, .mulImm 21 10 8189 true), 
      (4, 0xFFEAAA4C, .cmpS64LtImm 21 10 8189 true), (4, 0xFFEAAA54, .cmpN64LtImm 21 10 8189 true), 
      (4, 0x00016A5C, .lih 21 5 true), (4, 0xFFFF6A64, .addpc 21 262141 true), 
      (4, 0x10902A6C, .mfs 21 (.lremap 2) true), (4, 0x10928074, .mts (.lremap 2) 10 true), 
      (4, 0x55E00078, .trap 2748)] : List (Nat × Nat × Instr)).all fun p =>
      decode (bytesOf p.1 p.2.1) == .instr p.2.2 := by
  decide

/-- The encodings of BR_EQZ to RET, as spec/opcode_table.json lays them out. -/
theorem test_decode_transfer :
    ([(4, 0xFFFF5480, .brEqz 10 262141), (4, 0xFFFF5488, .brNez 10 262141), (4, 0xFFFF5490, .brLtz 10 262141), 
      (4, 0xFFFF5498, .brGez 10 262141), (4, 0xFFECD4A0, .brEq 10 19 8189), (4, 0xFFECD4A8, .brNe 10 19 8189), 
      (4, 0xFFECD4B0, .brLt 10 19 8189), (4, 0xFFECD4B8, .brGe 10 19 8189), (4, 0xFFECD4C0, .brLtu 10 19 8189), 
      (4, 0xFFECD4C8, .brGeu 10 19 8189), (4, 0xFFFF40D0, .jmp 262141), (4, 0xFFFF40D8, .call 262141), 
      (4, 0xFFEA80E0, .jmpReg 10 8189), (4, 0xFFEA80E8, .callReg 10 8189), (4, 0x000000F0, .ret)] : List (Nat × Nat × Instr)).all fun p =>
      decode (bytesOf p.1 p.2.1) == .instr p.2.2 := by
  decide

/-- The encodings of ERET to FENCE, as spec/opcode_table.json lays them out. -/
theorem test_decode_system :
    ([(4, 0x000000F8, .eret), (4, 0x080000F8, .idle), (4, 0x100000F8, .brk), (4, 0x180000F8, .fencei), 
      (4, 0x20002AF8, .rdtime 21), (4, 0x280000F8, .snuff), (4, 0x331000F8, .fence .st .pkg)] : List (Nat × Nat × Instr)).all fun p =>
      decode (bytesOf p.1 p.2.1) == .instr p.2.2 := by
  decide

/-- The encodings of LD_N8 to AMO, as spec/opcode_table.json lays them out. -/
theorem test_decode_scalar_memory :
    ([(4, 0xFFEAAB00, .ldN8 21 10 8189), (4, 0xFFEAAB08, .ldN16 21 10 8189), (4, 0xFFEAAB10, .ldN32 21 10 8189), 
      (4, 0xFFEAAB18, .ldN64 21 10 8189), (4, 0xFFEAAB20, .ldS8 21 10 8189), (4, 0xFFEAAB28, .ldS16 21 10 8189), 
      (4, 0xFFEAAB30, .ldS32 21 10 8189), (4, 0xFFEAAB38, .stN8 21 10 8189), (4, 0xFFEAAB40, .stN16 21 10 8189), 
      (4, 0xFFEAAB48, .stN32 21 10 8189), (4, 0xFFEAAB50, .stN64 21 10 8189), 
      (4, 0x280AAB58, .ldSpace .s16 .cmem 21 10), (4, 0x280AAB60, .stSpace .s16 .cmem 21 10), 
      (4, 0x2B0AAB68, .lda .s16 .pkg .cmem 21 10), (4, 0x2B0AAB70, .strel .s16 .pkg .cmem 21 10), 
      (4, 0xF39AAB78, .cas .acqrel true true .pkg 21 10 19), 
      (4, 0xB39AAB98, .amo .acq true true .minU .pkg 21 10 19)] : List (Nat × Nat × Instr)).all fun p =>
      decode (bytesOf p.1 p.2.1) == .instr p.2.2 := by
  decide

/-- The encodings of FADD to FCVT, as spec/opcode_table.json lays them out. -/
theorem test_decode_scalar_float :
    ([(4, 0x489AABC0, .fadd .f32 .fpc 21 10 19), (4, 0x499AABC8, .fsub .f32 .rne 21 10 19), 
      (4, 0x4A9AABD0, .fmul .f32 .rtz 21 10 19), (4, 0x4B9AABD8, .fdiv .f32 .rup 21 10 19), 
      (4, 0x4C02ABE0, .fsqrt .f32 .rdn 21 10), (4, 0x489AABE8, .fma .f32 .fpc 21 10 19), 
      (4, 0x4A9AABF0, .fcmp .f32 .le 21 10 19), (4, 0x4D9AABF0, .fminmax .f32 true 21 10 19), 
      (4, 0x5D52ABF8, .fcvt .bf16 .sr .f16 21 10)] : List (Nat × Nat × Instr)).all fun p =>
      decode (bytesOf p.1 p.2.1) == .instr p.2.2 := by
  decide

/-- The encodings of C_ADD to C_JMP_REG, as spec/opcode_table.json lays them out. -/
theorem test_decode_compressed :
    ([(2, 0x9A82, .cAdd 10 19), (2, 0x9A86, .cSub 10 19), (2, 0x9A8A, .cAnd 10 19), (2, 0x9A8E, .cOr 10 19), 
      (2, 0x9A92, .cXor 10 19), (2, 0xEA96, .cAddImm 10 29), (2, 0x2A9A, .cShl 10 5), (2, 0x2A9E, .cShr 10 5), 
      (2, 0x2AA2, .cShra 10 5), (2, 0x2AA6, .cLd 10 5), (2, 0x2AAA, .cSt 10 5), (2, 0xFF6E, .cJmp 1021), 
      (2, 0xFF72, .cCall 1021), (2, 0x0036, .cRet), (2, 0x02BA, .cJmpReg 10)] : List (Nat × Nat × Instr)).all fun p =>
      decode (bytesOf p.1 p.2.1) == .instr p.2.2 := by
  decide

/-- The encodings of VADD to VSSUB, as spec/opcode_table.json lays them out. -/
theorem test_decode_vector_integer :
    ([(4, 0x2D9AAA05, .vadd .s16 5 21 10 19 true), (4, 0x2D9AAA0D, .vsub .s16 5 21 10 19 true), 
      (4, 0x2D9AAA15, .vmul .s16 5 21 10 19 true), (4, 0x2D9AAA1D, .vmulh .s16 5 21 10 19 true), 
      (4, 0x2D9AAA25, .vand .s16 5 21 10 19 true), (4, 0x2D9AAA2D, .vor .s16 5 21 10 19 true), 
      (4, 0x2D9AAA35, .vxor .s16 5 21 10 19 true), (4, 0x2D9AAA3D, .vshl .s16 5 21 10 19 true), 
      (4, 0x2D9AAA45, .vshr .s16 5 21 10 19 true), (4, 0x2D9AAA4D, .vshra .s16 5 21 10 19 true), 
      (4, 0x2D9AAA55, .vmin .s16 5 21 10 19 true), (4, 0x2D9AAA5D, .vmax .s16 5 21 10 19 true), 
      (4, 0x2D9AAA65, .vsadd .s16 5 21 10 19 true), (4, 0x2D9AAA6D, .vssub .s16 5 21 10 19 true)] : List (Nat × Nat × Instr)).all fun p =>
      decode (bytesOf p.1 p.2.1) == .instr p.2.2 := by
  decide

/-- The encodings of VFADD to VFEXP2, as spec/opcode_table.json lays them out. -/
theorem test_decode_vector_float :
    ([(4, 0x5D9AAA75, .vfadd .bf16 5 21 10 19 true), (4, 0x5D9AAA7D, .vfsub .bf16 5 21 10 19 true), 
      (4, 0x5D9AAA85, .vfmul .bf16 5 21 10 19 true), (4, 0x5D9AAA8D, .vfdiv .bf16 5 21 10 19 true), 
      (4, 0x5D02AA95, .vfsqrt .bf16 5 21 10 true), (4, 0x5D02AA9D, .vfrsq .bf16 5 21 10 true), 
      (4, 0x5D02AAA5, .vfrcp .bf16 5 21 10 true), (4, 0x5D9AAAAD, .vfma .bf16 5 21 10 19 true), 
      (4, 0x5D9AAAB5, .vfmin .bf16 5 21 10 19 true), (4, 0x5D9AAABD, .vfmax .bf16 5 21 10 19 true), 
      (4, 0x7F52AAC5, .vfcvt .e4m3x .srSat .f16 21 10 true), (4, 0x5D02AACD, .vfclass .bf16 5 21 10 true), 
      (4, 0x5D02AAD5, .vfexp2 .bf16 5 21 10 true)] : List (Nat × Nat × Instr)).all fun p =>
      decode (bytesOf p.1 p.2.1) == .instr p.2.2 := by
  decide

/-- The encodings of VCMP to VEXPAND, as spec/opcode_table.json lays them out. -/
theorem test_decode_vector_moves :
    ([(4, 0x4C9A8CDD, .vcmp .f32 .gt 6 10 19 true), (4, 0x4D02AAE5, .vsplat .f32 5 21 10 true), 
      (4, 0x489AAAE9, .vext .f32 21 10 19), (4, 0x489AAAF1, .vins .f32 21 10 19), 
      (4, 0x4D9AAAFD, .vmerge .f32 5 21 10 19 true), (4, 0x4D9AAB01, .vperm .f32 5 21 10 19), 
      (4, 0x4D9AAB09, .vslideup .f32 5 21 10 19), (4, 0x4D9AAB11, .vslidedn .f32 5 21 10 19), 
      (4, 0x4D02AB19, .vcompress .f32 5 21 10), (4, 0x4D02AB21, .vexpand .f32 5 21 10)] : List (Nat × Nat × Instr)).all fun p =>
      decode (bytesOf p.1 p.2.1) == .instr p.2.2 := by
  decide

/-- The encodings of VRED to MSBF, as spec/opcode_table.json lays them out. -/
theorem test_decode_reductions_and_masks :
    ([(4, 0x4D1AAB29, .vred .f32 5 .max 21 10), (4, 0x4D1AAB31, .vscan .f32 5 .max 21 10), 
      (4, 0x0338CD3D, .mlog .andn 6 3 7 true), (4, 0x0800EB39, .mpopc 21 3), (4, 0x1000EB39, .mfirst 21 3), 
      (4, 0x1800CD39, .msbf 6 3)] : List (Nat × Nat × Instr)).all fun p =>
      decode (bytesOf p.1 p.2.1) == .instr p.2.2 := by
  decide

/-- The encodings of VLD to VLDBPC, as spec/opcode_table.json lays them out. -/
theorem test_decode_vector_memory :
    ([(4, 0x4D52EB45, .vld .f32 5 (some .die) 21 11 true), (4, 0x4DA2EB4D, .vst .f32 5 (some .pod) 21 11 true), 
      (4, 0x4D9AEB55, .vldx .f32 5 21 11 19 true), (4, 0x4D9AEB5D, .vstx .f32 5 21 11 19 true), 
      (4, 0x4D9AEB65, .vstxa .f32 5 21 11 19 true), (4, 0x4D02AB6D, .vldl .f32 5 21 10 true), 
      (4, 0x4D02AB75, .vstl .f32 5 21 10 true), (4, 0x4A02EB7D, .vldbpc .f32 2 21 11 true)] : List (Nat × Nat × Instr)).all fun p =>
      decode (bytesOf p.1 p.2.1) == .instr p.2.2 := by
  decide

/-- The encodings of SETVL to WAITV, as spec/opcode_table.json lays them out. -/
theorem test_decode_control :
    ([(4, 0x0002AB81, .setvl 21 10), (4, 0x0A000181, .vregs 2), (4, 0x109AAB81, .setvp 21 10 19), 
      (4, 0x1902AB81, .vloop true 21 10), (4, 0xFFFF6B89, .vnext 21 262141), (4, 0x00280191, .bar 5), 
      (4, 0x00002B99, .ssync 21), (4, 0x08000199, .yield), (4, 0xDA9AAB99, .waitv true .pkg .ne 21 10 19)] : List (Nat × Nat × Instr)).all fun p =>
      decode (bytesOf p.1 p.2.1) == .instr p.2.2 := by
  decide

/-- The encodings of VIDX to SPTAG, as spec/opcode_table.json lays them out. -/
theorem test_decode_index_and_tables :
    ([(4, 0xC807ABA5, .vidx 200 7 2 21 true), (4, 0x4D02EBAD, .vstbpc .f32 5 21 11 true), 
      (4, 0x1D9AABB1, .vbin .n64 5 21 10 19), (4, 0x059AABB9, .vhash 5 21 10 19), 
      (4, 0x0D9AABB9, .vhlook 5 21 10 19), (4, 0x159AABB9, .vhins 5 21 10 19), (4, 0x00029BC1, .qset 13 10), 
      (4, 0x08001BC1, .qclr 13), (4, 0x104801C1, .setvt .f32), (4, 0x181801C1, .setmt .lane), 
      (4, 0x2002ABC1, .splook 21 10), (4, 0x289A81C1, .sptag 10 19)] : List (Nat × Nat × Instr)).all fun p =>
      decode (bytesOf p.1 p.2.1) == .instr p.2.2 := by
  decide

/-- The encodings of CPY to VRESTORE, as spec/opcode_table.json lays them out. -/
theorem test_decode_engines :
    ([(4, 0x009AABC9, .cpy 21 10 19), (4, 0x0B0281C9, .publ .pkg 10), (4, 0x109AABC9, .cwait 21 10 19), 
      (4, 0x009A9BD1, .mnbr 13 10 19), (4, 0x089AABD1, .mlocate 21 10 19), (4, 0x109AABD1, .mrefine 21 10 19), 
      (4, 0x189AABD1, .mcoarsen 21 10 19), (4, 0x209AABD1, .mremap 21 10 19), (4, 0x289AABD1, .mcolor 21 10 19), 
      (4, 0x309AABD1, .mcut 21 10 19), (4, 0x389AABD1, .mmigr 21 10 19), (4, 0x409AABD1, .mghost 21 10 19), 
      (4, 0x009AABD9, .wqpost 21 10 19), (4, 0x089AABD9, .wqrecv 21 10 19), (4, 0x109AABD9, .wkvapp 21 10 19), 
      (4, 0x189AABD9, .wcomb 21 10 19), (4, 0x0002ABE1, .fput 21 10), (4, 0x0802ABE1, .fget 21 10), 
      (4, 0x109AABE1, .cring 21 10 19), (4, 0x189AABE1, .coll 21 10 19), (4, 0x2002ABE1, .cabort 21 10), 
      (4, 0x009AABE9, .launch 21 10 19), (4, 0x080281E9, .vsave 10), (4, 0x100281E9, .vrestore 10)] : List (Nat × Nat × Instr)).all fun p =>
      decode (bytesOf p.1 p.2.1) == .instr p.2.2 := by
  decide

/-- Encodings that files 18 to 20 work out, up to VLDBPC. -/
theorem test_decode_worked_scalar :
    ([(4, 0x00100A60, .addpc 5 64 false), (4, 0x04398B80, .amo .none false false .add .pod 5 6 7), 
      (4, 0xA1398B90, .amo .acq true false .minS .cl 5 6 7), (4, 0x00280191, .bar 5), (4, 0x00518AB0, .brLt 5 6 10), 
      (4, 0xFFFE8A88, .brNez 5 (-6)), (4, 0x008180E8, .callReg 6 16), (4, 0x00398BC9, .cpy 5 6 7), 
      (4, 0x40398BC0, .fadd .f64 .fpc 5 6 7), (4, 0x41398BF0, .fcmp .f64 .lt 5 6 7), 
      (4, 0x32418BF8, .fcvt .s32 .rtz .f64 5 6), (4, 0x001900D0, .jmp 100), (4, 0x00398BE9, .launch 5 6 7), 
      (4, 0x0080CB18, .ldN64 5 3 16), (4, 0x19090D68, .lda .n64 .cl .cmem 6 4), (4, 0x10004B39, .mfirst 5 1), 
      (4, 0x10000A68, .mfs 5 .maxvl false), (4, 0x00000A68, .mfs 5 .vl false), 
      (4, 0x00188339, .mlog .and 1 2 3 false), (4, 0x08004B39, .mpopc 5 1), (4, 0x18004539, .msbf 2 1), 
      (4, 0x00598070, .mts .fpc 6 false), (4, 0x090241C9, .publ .cl 9), (4, 0x0B0141C9, .publ .pkg 5), 
      (4, 0x080005C1, .qclr 2), (4, 0x000145C1, .qset 2 5), (4, 0x20000AF8, .rdtime 5), (4, 0x000000F0, .ret), 
      (4, 0x0000C981, .setvl 4 3), (4, 0x10398B81, .setvp 5 6 7), (4, 0x20018BC1, .splook 5 6), 
      (4, 0x283981C1, .sptag 6 7), (4, 0x00000D99, .ssync 6)] : List (Nat × Nat × Instr)).all fun p =>
      decode (bytesOf p.1 p.2.1) == .instr p.2.2 := by
  decide

/-- The rest of the encodings that files 18 to 20 work out. -/
theorem test_decode_worked_vector :
    ([(4, 0x03200078, .trap 100), (4, 0x7FF80078, .trap 4095), (4, 0x103045B1, .vbin .n32 0 2 1 6), 
      (4, 0x460844D9, .vcmp .f64 .un 2 1 1 false), (4, 0x321882D9, .vcmp .s32 .lt 1 2 3 false), 
      (4, 0x30308AE9, .vext .s32 5 2 6), (4, 0x5D4844C1, .vfcvt .bf16 .sr .f32 2 1 false), 
      (4, 0x784848C1, .vfcvt .e4m3x .fpc .f32 4 1 false), (4, 0x003045B9, .vhash 0 2 1 6), 
      (4, 0x103045B9, .vhins 0 2 1 6), (4, 0x083045B9, .vhlook 0 2 1 6), (4, 0x303144F1, .vins .s32 2 5 6), 
      (4, 0x4900C979, .vldbpc .f32 1 4 3 false), (4, 0x10004569, .vldl .n32 0 2 1 false), 
      (4, 0x18010B81, .vloop false 5 4), (4, 0x491046F9, .vmerge .f32 1 3 1 2 false), 
      (4, 0x50184501, .vperm .f16 0 2 1 3), (4, 0x50084529, .vred .f16 0 .seq 2 1), 
      (4, 0x48004529, .vred .f32 0 .sum 2 1), (4, 0x09000181, .vregs 1), (4, 0x100141E9, .vrestore 5), 
      (4, 0x080141E9, .vsave 5), (4, 0x31004531, .vscan .s32 1 .sum 2 1), (4, 0x40284511, .vslidedn .f64 0 2 1 5), 
      (4, 0x40284509, .vslideup .f64 0 2 1 5), (4, 0x400142E1, .vsplat .f64 0 1 5 false), 
      (4, 0x4800C9A9, .vstbpc .f32 0 4 3 false), (4, 0x10004571, .vstl .n32 0 2 1 false), 
      (4, 0xC8398B99, .waitv true .cl .ge 5 6 7), (4, 0x1840C5D9, .wcomb 2 3 8), (4, 0x103189D9, .wkvapp 4 6 6), 
      (4, 0x00304BD9, .wqpost 5 1 6), (4, 0x084145D9, .wqrecv 2 5 8)] : List (Nat × Nat × Instr)).all fun p =>
      decode (bytesOf p.1 p.2.1) == .instr p.2.2 := by
  decide

/-- Prefixed instructions: the encodings that file 19 works out, and TCLAIM, TREL and TMMAS by Table 6 and Table 10. -/
theorem test_decode_tiles :
    ([(8, 0x00398BF100000063, .tshape .e4m3 .dense 5 6 7), (8, 0x00398BF100000043, .tshape .f64 .dense 5 6 7), 
      (8, 0x080001F100005003, .tclaim 5), (8, 0x100001F100006003, .trel 6), 
      (8, 0x180041F100002063, .tld .e4m3 .dense 2 1), (8, 0x180041F100001043, .tld .f64 .dense 1 1), 
      (8, 0x200001F100010043, .tmma .f64 0 0 1 false), (8, 0x200001F100032463, .tmma .e4m3 1 2 3 false), 
      (8, 0x305803F10000004B, .text .f32 0 0 .bf16 1 false), (8, 0x304003F100000043, .text .f64 0 0 .f64 1 false), 
      (8, 0x385841F10000004B, .tinj .f32 0 0 .bf16 1 false), (8, 0x385841F10200004B, .tinj .f32 2 0 .bf16 1 false), 
      (8, 0x400001F100000403, .tzero 1 false), (8, 0x280001F10076595B, .tmmas .bf16 .s24 2 5 6 7 false)] : List (Nat × Nat × Instr)).all fun p =>
      decode (bytesOf p.1 p.2.1) == .instr p.2.2 := by
  decide
/-! ## One step each: the worked values of the spec -/

/-- Table 2 of file 18 (R393): DIV, REM, SEL and division by 0 with s3 = -7 and s4 = 2. -/
theorem test_div : steps (.div false 5 3 4 false) [(3, -7), (4, 2)] (fun s => s.rd 5 == -3 && s.v.pc == 0x10004) = true := by
  decide +kernel
theorem test_rem_unsigned : steps (.rem true 5 3 4 false) [(3, -7), (4, 2)] (fun s => s.rd 5 == 1) = true := by decide +kernel
theorem test_div_by_zero : steps (.div false 5 3 0 false) [(3, -7)] (fun s => s.rd 5 == -1) = true := by decide +kernel
theorem test_rem_by_zero : steps (.rem false 5 3 0 false) [(3, -7)] (fun s => s.rd 5 == -7) = true := by decide +kernel
theorem test_sel : steps (.sel 5 3 4 false) [(3, -7), (4, 2), (5, 9)] (fun s => s.rd 5 == -7) = true := by decide +kernel

/-- R394: 1165 shifted in with 22136 is 0x12345678. -/
theorem test_lih : steps (.lih 5 22136 false) [(5, 1165)] (fun s => s.rd 5 == 0x12345678) = true := by decide +kernel

/-- R398: `br.nez s5, loop`, with loop 12 bytes back. -/
theorem test_branch_back : steps (.brNez 5 (-6)) [(5, 1)] (fun s => s.v.pc == 0x10000 - 12 && s.v.entered) = true := by decide +kernel

/-- R400: the target is computed before s1 is written; an odd one raises ALIGN and leaves s1. -/
theorem test_call_through_s1 : steps (.callReg 1 0) [(1, 0x8000)] (fun s => s.v.pc == 0x8000 && s.rd 1 == 0x10004) = true := by
  decide +kernel
theorem test_call_odd_target : steps (.callReg 6 1) [(6, 0x8000), (1, 3)]
    (fun s => s.v.tcause.cls == 3 && s.v.tval == 0x8001 && s.rd 1 == 3 && s.v.tpc == 0x10000) = true := by
  decide +kernel

/-- R428: `trap #100` at user level, with TVEC 0: TPC is the next address, TVAL the number; it stops with NEST (R306). -/
theorem test_trap : steps (.trap 100) []
    (fun s => s.v.tcause.cls == 0x11 && s.v.tcause.nest && s.v.tpc == 0x10004 && s.v.tval == 0x64 && s.v.status == .stopped) = true := by
  decide +kernel

/-- R428: with a trap block at 0x20000 whose handler is at 0x8000: TCAUSE is 0x11, s3 the block, s2 the word beside the handler, and
the old s5 lies at block + 0x100 + 8 × 5 (R305). -/
theorem test_trap_with_handler : goesTo (step ((poke (poke (ready (.trap 100) [(5, 77)]) 0x20000 8 0x8000) 0x20008 8 0x9000).setV
    fun v => { v with tvec := 0x100 }))
    (fun s => s.sprRead .tcause == 0x11 && s.v.tpc == 0x10004 && s.v.pc == 0x8000 && s.rd 3 == 0x20000 && s.rd 2 == 0x9000 &&
      s.v.level == .supervisor && s.mem.read 0x20128 8 == 77) = true := by
  decide +kernel

/-- R118, R299: a privileged instruction at user level raises PRIV, class 2, with the encoding in TVAL. -/
theorem test_eret_at_user_level : steps .eret [] (fun s => s.v.tcause.cls == 2 && s.v.tval == 0xF8) = true := by decide +kernel

/-- R411: a signed load extends; a load that is not aligned raises ALIGN. -/
theorem test_load_extends : goesTo (step (poke (ready (.ldS16 5 6 2) [(6, 0x20000)]) 0x20002 2 0x8001))
    (fun s => s.rd 5 == 0xFFFFFFFFFFFF8001) = true := by
  decide +kernel
theorem test_load_misaligned : steps (.ldN64 5 6 4) [(6, 0x20000)] (fun s => s.v.tcause.cls == 3 && s.v.tval == 0x20004) = true := by
  decide +kernel

/-- R149: a store of 32 bits writes its four bytes, the least significant first. -/
theorem test_store_bytes : steps (.stN32 5 6 0) [(5, 0x1122334455667788), (6, 0x20000)]
    (fun s => s.mem.byte 0x20000 == 0x88 && s.mem.byte 0x20003 == 0x55 && s.mem.byte 0x20004 == 0) = true := by
  decide +kernel

/-- R302, R294: an access beyond the mapped gibibyte raises PAGE. -/
theorem test_unmapped_page : steps (.ldN64 5 6 0) [(6, 0x40000000)] (fun s => s.v.tcause.cls == 4 && s.v.tval == 0x40000000) = true := by
  decide +kernel

/-- R148: an address past the cluster memory's 4 MiB raises PROT detail SPACE, 5. -/
theorem test_cluster_memory_ends : steps (.ldSpace .n64 .cmem 5 6) [(6, 0x400000)]
    (fun s => s.v.tcause.cls == 5 && s.v.tcause.sub == 5) = true := by
  decide +kernel

/-- R397, R401: AMO returns the old value; CAS stores when the value is the expected one. -/
theorem test_amo_add : goesTo (step (poke (ready (.amo .none false false .add .pod 5 6 7) [(6, 0x20000), (7, 3)]) 0x20000 8 40))
    (fun s => s.rd 5 == 40 && s.mem.read 0x20000 8 == 43) = true := by
  decide +kernel
theorem test_cas_succeeds : steps (.cas .none true false .cl 5 6 7) [(5, 0), (6, 8), (7, 1)]
    (fun s => s.rd 5 == 0 && (s.spaceMem .cmem).read 8 8 == 1) = true := by
  decide +kernel

/-- R408: the fused product of 1 + 2^-12 by itself, less 1 + 2^-11, is 2^-24 with no flag. -/
theorem test_fma_rounds_once : steps (.fma .f32 .fpc 5 6 7) [(5, 0xBF801000), (6, 0x3F800800), (7, 0x3F800800)]
    (fun s => s.rd 5 == 0x33800000 && s.v.fpc.flags == 0) = true := by
  decide +kernel

/-- R409: -2.7 to .s32 by RTZ is -2 with NX; 3 × 10^9 is the largest with NV. -/
theorem test_fcvt_truncates : steps (.fcvt .s32 .rtz .f64 5 6) [(6, 0xC00599999999999A)]
    (fun s => s.rd 5 == -2 && s.v.fpc.flags == flagNX) = true := by
  decide +kernel
theorem test_fcvt_saturates : steps (.fcvt .s32 .rtz .f64 5 6) [(6, 0x41E65A0BC0000000)]
    (fun s => s.rd 5 == 0x7FFFFFFF && s.v.fpc.flags == flagNV) = true := by
  decide +kernel

/-- R138: STATE 1 draws 0x2041 and leaves 0x40822041; 1 + 2^-9 rounds to 1.0 in .bf16 with NX. -/
theorem test_stochastic_rounding : steps (.fcvt .bf16 .sr .f32 5 6) [(6, 0x3F804000)]
    (fun s => s.rd 5 == 0x3F80 && s.v.srseed == 0x40822041 && s.v.fpc.flags == flagNX) = true := by
  decide +kernel

/-- R140, R141: EXP2T of -1.5, and the reciprocal estimate of 3.0. -/
theorem test_vfexp2 : goesTo (step (vecs (ready (.vfexp2 .f32 0 2 1 false) []) [(1, .f32, [0xBFC00000])]))
    (fun s => elems s .f32 2 1 == [0x3EB504F3]) = true := by
  decide +kernel
theorem test_vfrcp : goesTo (step (vecs (ready (.vfrcp .f32 0 2 1 false) []) [(1, .f32, [0x40400000])]))
    (fun s => elems s .f32 2 1 == [0x3EAAA000]) = true := by
  decide +kernel

/-- R135: one block of .e4m3x with 1000, -3 and 0.001: the scale is 128, the payloads 0x7E, 0xBC and 0, with OF, UF and NX. -/
theorem test_block_conversion : goesTo (step (vecs (ready (.vfcvt .e4m3x .fpc .f32 4 1 false) [])
    [(1, .f32, [0x447A0000, 0xC0400000, 0x3A83126F])]))
    (fun s => elems s .e4m3 4 3 == [0x7E, 0xBC, 0] && elems s .n8 5 1 == [128] &&
      s.v.fpc.flags == (flagOF ||| flagUF ||| flagNX)) = true := by
  decide +kernel

/-- R143: the tree sum of 2^24, 1, 1, 1, 1 is 16777220, and the ordered sum 16777216. -/
theorem test_tree_sum : goesTo (step (vecs (ready (.vred .f32 0 .sum 2 1) [])
    [(1, .f32, [0x4B800000, 0x3F800000, 0x3F800000, 0x3F800000, 0x3F800000])]))
    (fun s => elems s .f32 2 1 == [0x4B800002] && s.v.fpc.flags == flagNX) = true := by
  decide +kernel
theorem test_ordered_sum : goesTo (step (vecs (ready (.vred .f32 0 .seq 2 1) [])
    [(1, .f32, [0x4B800000, 0x3F800000, 0x3F800000, 0x3F800000, 0x3F800000])]))
    (fun s => elems s .f32 2 1 == [0x4B800000]) = true := by
  decide +kernel

/-- R83: `VIDX.n8 v3, #100, #100` at VL = 4 wraps modulo 256; `VIDX.s64 v2, #-3, #5` at VL = 4. -/
theorem test_vidx_wraps : goesTo (step ((ready (.vidx 100 100 0 3 false) []).setV fun v => { v with vl := 4, mvl64 := 4096 }))
    (fun s => elems s .n8 3 4 == [100, 200, 44, 144]) = true := by
  decide +kernel
theorem test_vidx_signed : goesTo (step ((ready (.vidx 5 (-3) 3 2 false) []).setV fun v => { v with vl := 4, mvl64 := 4096 }))
    (fun s => elems s .s64 2 4 == [2 ^ 64 - 3, 2, 7, 12]) = true := by
  decide +kernel

/-- R439: compress and expand under bits 0, 2 and 4. -/
theorem test_vcompress : goesTo (step (masked (vecs (ready (.vcompress .s32 1 2 1) [])
    [(1, .s32, [5, 0xFFFFFFFF, 7, 0, 9]), (2, .s32, [1, 2, 3, 4, 6])]) 1 0b10101))
    (fun s => elems s .s32 2 5 == [5, 7, 9, 4, 6]) = true := by
  decide +kernel
theorem test_vexpand : goesTo (step (masked (vecs (ready (.vexpand .s32 1 3 2) [])
    [(2, .s32, [5, 7, 9, 4, 6]), (3, .s32, [0, 1, 0, 1, 0])]) 1 0b10101))
    (fun s => elems s .s32 3 5 == [5, 1, 7, 1, 9]) = true := by
  decide +kernel

/-- R438: the comparison above zero sets bits 0, 2 and 4; MPOPC counts them. -/
theorem test_vcmp : goesTo (step (vecs (ready (.vcmp .s32 .gt 1 1 2 false) [])
    [(1, .s32, [5, 0xFFFFFFFF, 7, 0, 9]), (2, .s32, [0, 0, 0, 0, 0])]))
    (fun s => s.v.masks.toList.getD 1 0 == 0b10101) = true := by
  decide +kernel
theorem test_mpopc : goesTo (step (masked (vecs (ready (.mpopc 5 1) []) [(1, .s32, [0, 0, 0, 0, 0])]) 1 0b10101))
    (fun s => s.rd 5 == 3) = true := by
  decide +kernel

/-- R452: a permutation by (3, 3, 0, 7) at VL 4; R439: VEXT of -5. -/
theorem test_vperm : goesTo (step (vecs (ready (.vperm .s32 0 3 1 2) [])
    [(1, .s32, [10, 20, 30, 40]), (2, .n32, [3, 3, 0, 7])]))
    (fun s => elems s .s32 3 4 == [40, 40, 10, 0]) = true := by
  decide +kernel
theorem test_vext : goesTo (step (vecs (ready (.vext .s32 5 2 6) [(6, 3)])
    [(2, .s32, [0, 0, 0, 0xFFFFFFFB, 0, 0, 0, 0])])) (fun s => s.rd 5 == 0xFFFFFFFFFFFFFFFB) = true := by
  decide +kernel

/-- R442: the classes of -0, the least subnormal and a signalling NaN of .f16. -/
theorem test_vfclass : goesTo (step (vecs (ready (.vfclass .f16 0 2 1 false) []) [(1, .f16, [0x8000, 1, 0x7C01])]))
    (fun s => elems s .f16 2 3 == [8, 0x20, 0x100] && s.v.fpc.flags == 0) = true := by
  decide +kernel

/-- R56, R58: a vector result tags its register, sets its high-water mark, and clears VSTART. -/
theorem test_vadd_tags : goesTo (step (vecs (ready (.vadd .s16 0 3 1 2 false) [])
    [(1, .s16, [0x7FFF, 0xFFFF]), (2, .s16, [1, 1])]))
    (fun s => elems s .s16 3 2 == [0x8000, 0] && s.sprRead (.vhwm 3) == (s.sprRead (.vhwm 1)) && s.v.vstart == 0) = true := by
  decide +kernel

/-- R145: VSTXA adds in element order: 2^24, then 1.0, a tie that rounds back; word 1 gets 1.0. -/
theorem test_vstxa : goesTo (step ((vecs (ready (.vstxa .f32 0 1 0 2 false) [])
    [(1, .f32, [0x4B800000, 0x3F800000, 0x3F800000]), (2, .n32, [0, 1, 0])]).setV fun v => { v with
      mt := .cmem, streams := v.streams.set 0 { Stream.unbound with
        kind := .pattern, ndim := 1, bounds := #v[2, 0, 0, 0, 0, 0], strides := #v[4, 0, 0, 0, 0, 0] } }))
    (fun s => (s.spaceMem .cmem).read 0 4 == 0x4B800000 && (s.spaceMem .cmem).read 4 4 == 0x3F800000) = true := by
  decide +kernel

/-- R173: the ranks and counters of six binned cells. -/
theorem test_vbin : goesTo (step (((vecs (ready (.vbin .n32 0 2 1 6) [(6, 0x40)]) [(1, .n32, [3, 1, 3, 7, 1, 3])]).setV
    fun v => { v with mt := .cmem }).setCluster 0 fun c => { c with cmem := (c.cmem.write 0x44 4 2).write 0x5C 4 5 }))
    (fun s => elems s .n32 2 6 == [0, 2, 1, 5, 3, 2] && (s.spaceMem .cmem).read 0x44 4 == 4 &&
      (s.spaceMem .cmem).read 0x4C 4 == 3 && (s.spaceMem .cmem).read 0x5C 4 == 6) = true := by
  decide +kernel

/-- R155: positions 5 to 12 of a pattern of three dimensions, at their addresses. -/
theorem test_stream_addresses :
    let q : Stream := { Stream.unbound with
      kind := .pattern, base := 0x100000, ndim := 3, bounds := #v[4, 3, 2, 0, 0, 0], strides := #v[8, 64, 1024, 0, 0, 0], pos := 5 }
    q.extent = 24 ∧ q.address 8 5 = 0x100048 ∧ q.address 8 12 = 0x100400 := by
  decide +kernel

/-- R150: the tables of elements 37 and 20 of a plain strip over lane clusters 1 and 3. -/
theorem test_lane_tables :
    let v : Vlc := { Vlc.absent with lc := 0b1010, mode := .plain }
    v.laneTable 37 = 5 + 16 ∧ v.laneTable 20 = 4 + 48 := by
  decide +kernel

/-- R168: the set of the tag 0x12345678 is 8. -/
theorem test_tag_set : tagSet 0x12345678 = 8 := by decide +kernel

/-- R203: the shapes that `tshape.e4m3 s5, s6, s7` grants, dense and under `.sp24`. -/
theorem test_tshape : steps (.tshape .e4m3 .dense 5 6 7) [(5, 100), (6, 64), (7, 300)]
    (fun s => s.sprRead .tsm == 0x0C80 && s.sprRead .tsn == 0x40 && s.sprRead .tsk == 0x80 && s.v.pc == 0x10008) = true := by
  decide +kernel
theorem test_tshape_sparse : steps (.tshape .e4m3 .s24 5 6 7) [(5, 100), (6, 64), (7, 300)]
    (fun s => s.sprRead .tsm == 0x2C80 && s.sprRead .tsk == 0x100) = true := by
  decide +kernel

/-- R25, R29 and R32: SETVL alone on a core with 8 registers at .f64 gives MVL 4096; VLOOP.spread gives 1024. -/
theorem test_setvl : goesTo (step ((ready (.setvl 4 3) [(3, 10000)]).setV fun v => { v with declPend := 0 }))
    (fun s => s.v.mvl == 4096 && s.v.vl == 4096 && s.rd 4 == 4096) = true := by
  decide +kernel
theorem test_vloop_spread : goesTo (step ((ready (.vloop true 4 3) [(3, 10000)]).setV fun v => { v with declPend := 0 }))
    (fun s => s.v.mvl == 1024 && s.v.vl == 1024 && s.v.scnt == 10000) = true := by
  decide +kernel

/-- Table 3 after R37: the share of rank 5 of 6 of 10000 elements in units of 64. -/
theorem test_setvp : goesTo (step (((ready (.setvp 5 6 7) [(6, 10000), (7, 64)]).setV fun v => { v with rank := 5 }).setLaunch 0
    fun l => { l with nvlc := 6, total := 6 })) (fun s => s.rd 5 == 1680 && s.rd 6 == 8320) = true := by
  decide +kernel

/-- R417, R63: MTS of the rounding mode, and MFS of VL at user level. -/
theorem test_mts_fpc : steps (.mts .fpc 6 false) [(6, 0xFFFFFFFFFFFFFFFF)] (fun s => s.sprRead .fpc == 0x131F1F) = true := by
  decide +kernel

/-- R47, R359: RDTIME waits for its reply. -/
theorem test_rdtime_waits : steps (.rdtime 5) [] (fun s => s.v.status == .blocked (.rdtime 5) && s.v.pc == 0x10000) = true := by
  decide +kernel

/-- R74, R106: the zero halfword raises ILL. -/
theorem test_zero_halfword : goesTo (step (State.reset.withFetchWord 32 0x12340000))
    (fun s => s.v.tcause.cls == 1 && s.v.tpc == 0x10000) = true := by
  decide +kernel

/-- R85, R86: a vector instruction and the scalar that joins it run as one convoy. -/
theorem test_convoy : goesTo (step (vecs ((placeBytes State.reset (encode (.vadd .s32 0 3 1 2 false) ++ encode (.add 6 5 5 true))).wr 5 7)
    [(1, .s32, [5, 6]), (2, .s32, [1, 1])])) (fun s => elems s .s32 3 2 == [6, 7] && s.rd 6 == 14 && s.v.pc == 0x10008) = true := by
  decide +kernel

/-! ## For each claim with hypotheses: a state and operands that meet them -/

/-! ### Encodings and steps -/

/-- DecodeOfEncode, DecodedIsEncoded: the register pair at the end of its range. -/
theorem witness_DecodeOfEncode : Instr.wf (.setvp 30 31 31) = true ∧ Instr.enc (.setvp 30 31 31) ≠ .none ∧
    decode (encode (.setvp 30 31 31)) = .instr (.setvp 30 31 31) := by
  decide

/-- SpecialRegisterNumbers: numbers at the ends of each range, listed and not. -/
theorem witness_SpecialRegisterNumbers :
    let listed (k : Nat) : Bool := k ≤ 0x13 || (0x100 ≤ k && k ≤ 0x11F) || k == 0x200 || (0x210 ≤ k && k ≤ 0x213)
    [0, 0x13, 0x100, 0x11F, 0x200, 0x210, 0x213].all listed = true ∧
      [0x14, 0xFF, 0x120, 0x1FF, 0x201, 0x20F, 0x214, 0x1FFF].all (fun k => !listed k) = true := by
  decide

/-- ReservedEncodingsRefused: the fields of each refusal. -/
theorem witness_ReservedEncodingsRefused :
    let f (maj : BitVec 6) (bank : BitVec 2) (f5 p b : Nat) : F32 :=
      { f5 := BitVec.ofNat 5 f5, p := BitVec.ofNat 3 p, b := BitVec.ofNat 5 b, a := 0, d := 16, maj := maj, c := true, bank := bank }
    decode32 (f 0x3F 1 0 0 0) = .error .major ∧ decode32 (f 0x3E 1 0 0 0) = .error .pfxop ∧
      decode16 { b := 0, a := 0, cop := 15 } = .error .crsv ∧ decode32 (f 0 0 19 0 0) = .error .func5 ∧
      decode32 (f 0x19 1 17 0 0) = .error .type ∧ VType.ofCode 3 = some .n64 ∧ decode32 (f 0x2D 0 3 5 0) = .error .scope ∧
      decode32 (f 0 0 15 0 1) = .error .nonzero ∧ decode32 (f 0x38 1 0 0 0) = .error .regclass := by
  decide

/-- StepRunsDecodedInstruction. -/
theorem witness_StepRunsDecodedInstruction :
    let s := ready (.add 5 3 4 false) []
    s.events = [] ∧ found s.pick (fun s1 => s1.boundary.isNone && okay (s1.fetchAt s1.v.pc) fun x =>
      decode (bytesOf 8 x.1) == .instr (.add 5 3 4 false) && !(Instr.add 5 3 4 false).role.heads) = true := by
  decide +kernel

/-- StepRunsConvoy: a vector instruction alone, and one that a scalar instruction joins. -/
theorem witness_StepRunsConvoy :
    let i : Instr := .vadd .s32 0 3 1 2 false
    let meets (s : State) (n : Nat) : Bool := s.events == [] && found s.pick fun s1 => s1.boundary.isNone &&
      okay (s1.fetchAt s1.v.pc) fun x => decode (bytesOf 8 x.1) == .instr i && i.role.heads && !i.joins &&
        okay (x.2.2.followers (s1.v.pc + BitVec.ofNat 64 x.2.1) 4096) fun y => y.1.length == n
    meets (placeBytes State.reset (encode i)) 0 = true ∧
      meets (placeBytes State.reset (encode i ++ encode (.add 6 5 5 true))) 1 = true := by
  decide +kernel

/-- StepOrder: an input that is due, no VLC to run, and an encoding that decode refuses. -/
theorem witness_StepOrder :
    ({ State.reset with events := [.packageReset] } : State).events = .packageReset :: [] ∧
      (State.reset.events = [] ∧ State.reset.pick = none) ∧
      (let s := State.reset.withFetchWord 32 0x1F9;
        (s.events == [] && found s.pick fun s1 => s1.boundary.isNone && okay (s1.fetchAt s1.v.pc) fun x =>
          decode (bytesOf 8 x.1) == .ill .major && !s1.v.entered) = true) := by
  decide +kernel

/-! ### Scalar instructions -/

/-- ScalarGroupResults. -/
theorem witness_ScalarGroupResults :
    let s := ready (.div false 31 3 0 false) [(3, 9)]
    scalarResult (.div false 31 3 0 false) s = some (31, -1) ∧ (Instr.div false 31 3 0 false).joins = false ∧ s.smooth = true := by
  decide +kernel

/-- A VLC at supervisor level. -/
def above (s : State) : State := s.setV fun v => { v with level := .supervisor }

/-- SpecialRegisterMoves: a register every level reads, one it writes, and one of the supervisor's. -/
theorem witness_SpecialRegisterMoves :
    let s := ready (.mfs 5 .vl false) [(6, 0xFFFFFFFFFFFFFFFF)]
    sprUse .vl s.v.sup ≠ .none ∧ s.smooth = true ∧ sprUse .fpc s.v.sup = .rw ∧ (sprAlone .fpc (s.rd 6) s.v).isSome = true ∧
      sprUse .tvec (above s).v.sup = .rw ∧ (above s).smooth = true := by
  decide +kernel

/-- SpecialRegisterReadBack: registers of fields, VT, FSR and MAXVL. -/
theorem witness_SpecialRegisterReadBack :
    let s := above (ready (.mts .vt 6 false) [(6, 1)])
    s.smooth = true ∧ [Spr.vt, .vstart, .fsr, .tcause, .maxvl].all (fun r => sprUse r s.v.sup == .rw &&
      !badVt (.mts r 6 false) s && !emptiesLc (.mts r 6 false) s) = true ∧ sprMask .vstart ≠ none ∧ sprMask .tcause ≠ none := by
  decide +kernel

/-- BranchesGoToTheirTargets: taken and not. -/
theorem witness_BranchesGoToTheirTargets :
    let s := ready (.brGeu 5 6 0xFFF) [(6, 1)]
    branchTarget (.brGeu 5 6 0xFFF) s = some (false, 0x11FFE) ∧ branchTarget (.brLtu 5 6 0x1000) s = some (true, 0xE000) ∧
      s.smooth = true := by
  decide +kernel

/-- JumpsAndCalls: a target that is even, one that is odd, and 0 at user level. -/
theorem witness_JumpsAndCalls :
    let s := ready .ret [(1, 0x8000), (6, 0x8001)]
    jumpTarget .ret s = some (0x8000, false) ∧ s.smooth = true ∧ jumpTarget (.callReg 6 0) s = some (0x8001, true) ∧
      jumpTarget (.jmpReg 0 0) s = some (0, false) ∧ s.v.level = .user := by
  decide +kernel

/-! ### Checks and traps -/

/-- TurnedAwayTakesItsTrap. -/
theorem witness_TurnedAwayTakesItsTrap :
    Instr.enc .eret ≠ .none ∧ decodeStop .eret (ready .eret []) = some (.trap .priv 0 0xF8 none) := by
  decide +kernel

/-- ChecksThatDependOnState: one state for each check, with those before it passed. -/
theorem witness_ChecksThatDependOnState :
    let s := ready .eret []
    let reaches (i : Instr) (s : State) : Bool := (vnames i).all fun r => r < 8 * (s.v.declEff.toNat + 1)
    let open_ (i : Instr) (s : State) : Bool := !i.joins && !badVt i s && !privileged i s.v.sup
    let free (i : Instr) (s : State) : Bool := open_ i s && reaches i s
    privileged .eret s.v.sup = true ∧
      (let u := s.setV fun v => { v with declEff := 0 };
        open_ (.vadd .n8 0 8 1 2 false) u = true ∧ reaches (.vadd .n8 0 8 1 2 false) u = false ∧
          free (.vadd .n8 0 7 1 2 false) u = true) ∧
      (free (.vperm .n8 0 1 1 2) s = true ∧ overlaps (.vperm .n8 0 1 1 2) = true) ∧
      (let u := s.setV fun v => { v with mode := .spread };
        free (.tclaim 0) u = true ∧ isTile (.tclaim 0) = true ∧ u.v.mode = .spread) ∧
      (let u := s.setV fun v => { v with tileOwner := false };
        free (.tclaim 0) u = true ∧ u.v.mode ≠ .spread ∧ u.v.tileOwner = false) ∧
      (free (.mts .vl 5 false) s = true ∧ sprUse .vl s.v.sup = .ro) ∧
      (free (.bar 255) s = true ∧ (255#8).toNat ∉ groupsOf s.v.gmemb) ∧
      (free (.mts .maxvl 0 false) (above s) = true ∧ emptiesLc (.mts .maxvl 0 false) (above s) = true) := by
  decide +kernel

/-- A VLC with a trap block at 0x20000: its handler at 0x8000, its stack 0x9000. -/
def withBlock (s : State) : State :=
  (poke (poke s 0x20000 8 0x8000) 0x20008 8 0x9000).setV fun v => { v with tvec := 0x100 }

/-- TrapEntersItsHandler. -/
theorem witness_TrapEntersItsHandler :
    let s := withBlock (ready (.trap 0xFFF) [])
    let t : Trap := { cls := .sys, sub := 0, tval := 0xFFF, tpc := 0x10004, forced := false, frec := none }
    s.halting t.cls = false ∧ s.v.level = .user ∧ s.v.tvec ≠ 0 ∧ s.v.stepOnce = false ∧
      (okay ((s.setV (·.record t)).load s.trapParty (.mem s.v.block 8 .load 0)) fun x =>
        okay (x.2.load s.trapParty (.mem (s.v.block + 8) 8 .load 0)) fun y =>
          let z := y.2.storeWords s.trapParty (s.v.block + 0x100) (0 :: s.v.sregs.toList.drop 1)
          z.2.isNone && (z.1.storeRec t).2.isNone && x.1 % 2 == 0) = true := by
  decide +kernel

/-- The job of context 0 stops on BRK. -/
def haltsOnBrk (s : State) : State := { s with dbg := [(0, { halt := 0x100, job := 7, cb := 0 })] }

/-- TrapsThatStop: at supervisor level, with TVEC 0, and a halting class. -/
theorem witness_TrapsThatStop :
    let s := ready .brk []
    s.v.stepOnce = false ∧ s.halting .brk = false ∧ s.v.tvec = 0 ∧ (above s).v.level = .supervisor ∧
      (haltsOnBrk s).halting .brk = true := by
  decide +kernel

/-- ReturnFromTrap, ReloadReadsEachRegister: the return, and an odd TPC. -/
theorem witness_ReturnFromTrap :
    let s := (above (withBlock (ready .eret []))).setV fun v => { v with tpc := 0x8000 }
    s.v.level = .supervisor ∧ s.v.tpc.getLsbD 0 = false ∧ (okay (s.reload (s.v.block + 0x108) 1 31) fun s1 =>
      (s1.setV fun v => { v with level := levelOf s.v.tcause.ppl }).smooth) = true ∧
      (s.setV fun v => { v with tpc := 0x8001 }).v.tpc.getLsbD 0 = true := by
  decide +kernel

/-- FencesAndYield: no store outstanding, and one. -/
theorem witness_FencesAndYield :
    let s := ready (.fence .st .pod) []
    s.smooth = true ∧ s.v.stores = [] ∧ (let u := s.setV fun v => { v with stores := [onItsWay 4] }; u.smooth = true ∧ u.v.stores ≠ []) := by
  decide +kernel

/-- ReadTimeRoundTrip, SnuffStartsWave. -/
theorem witness_ReadTimeRoundTrip :
    let s := ready (.rdtime 5) []
    s.smooth = true ∧ s.events = [] ∧ s.v.frozen = false ∧ s.beacon.toNat + 1000 < 2 ^ 64 ∧ s.jobOf s.v.ctx = 65536 ∧
      (haltsOnBrk s).jobOf s.v.ctx < 65536 := by
  decide +kernel

/-- IdleReleasesOrWaits: saved, not saved with a request, and without one. -/
theorem witness_IdleReleasesOrWaits :
    let s := above (ready .idle [])
    s.v.level = .supervisor ∧ s.smooth = true ∧ (s.setV fun v => { v with savedTo := some 0x30000 }).v.savedTo = some 0x30000 ∧
      s.v.savedTo = none ∧ s.v.preempt = false ∧ (s.setV fun v => { v with preempt := true }).v.preempt = true := by
  decide +kernel

/-! ### Scalar memory and atomics -/

/-- ScalarLoadsComplete, ScalarStoresComplete: an access that completes and one that stops. -/
theorem witness_ScalarLoadsComplete :
    let s := ready (.ldN64 5 6 0) [(6, 0x20000), (7, 0x20001)]
    (scalarLoad (.ldN64 5 6 0) s).isSome = true ∧ s.smooth = true ∧ s.v.stores = [] ∧
      (okay (s.loadAt .glob 0x20000 8 true) fun x => x.1 < 2 ^ VType.n64.width) = true ∧
      stops (s.loadAt .glob 0x20001 8 true) (fun _ => true) = true ∧ (scalarStore (.stN64 5 6 0) s).isSome = true ∧
      okay (s.storeAt .glob 0x20000 8 0) (fun _ => true) = true ∧ stops (s.storeAt .glob 0x20001 8 0) (fun _ => true) = true := by
  decide +kernel

/-- LocalSpaceAccesses: each clause at the end of the space. -/
theorem witness_LocalSpaceAccesses :
    let a (x : Nat) : Word := BitVec.ofNat 64 x
    ((a 0x3FFFFF).toNat % 8 ≠ 0) ∧ ((a 0x400000).toNat % 8 = 0 ∧ spaceExtent .cmem < (a 0x400000).toNat + 8) ∧
      ((a 0x3FFFF8).toNat % 8 = 0 ∧ (a 0x3FFFF8).toNat + 8 ≤ spaceExtent .cmem) ∧
      ((ready .yield []).spaceMem .cmem).wf = true := by
  decide +kernel

/-- DramLoads, DramStores, PermittedAccesses, WalksFindLeaves, AtomicsReplaceMemory: the last word of the mapped gibibyte, and a
poisoned one. -/
theorem witness_DramLoads :
    let s := ready .yield []
    let bad : State := { s with mem := { s.mem with poison := [(0x3FFFFFF8 / 32, true)] } }
    let meets (s : State) (q : Req) (p : Bool) : Bool := okay (s.resolve s.party q) fun r =>
      epOf r.pa == s.endpoint && windowOf r.pa == 0 && s.poisoned r.pa == p && !r.e.bit 11
    [Req.scalar 0x3FFFFFF8 8 .load, .scalar 0x3FFFFFF8 8 .store, .mem 0x3FFFFFF8 8 .rmw 0].all (fun q => meets s q false) = true ∧
      meets bad (.scalar 0x3FFFFFF8 8 .load) true = true ∧ s.mem.wf = true ∧
      tlbFind s.party.ctx 0x3FFFFFF8 (s.tlb1 s.party) = none ∧ tlbFind s.party.ctx 0x3FFFFFF8 (s.die s.party.die).tlb = none ∧
      okay (s.translate s.party (.scalar 0x3FFFFFF8 8 .load) 0x3FFFFFF8) (fun _ => true) = true := by
  decide +kernel

/-- AtomicsComplete: in DRAM and in cluster memory. -/
theorem witness_AtomicsComplete :
    let s := ready .yield [(6, 0x20000), (7, 3)]
    s.v.stores = [] ∧ s.smooth = true ∧
      okay (s.rmwAt .glob (s.rd 6) 8 (.amo .add 8 3) fun z => amoNew .add 8 z 3) (fun _ => true) = true ∧
      okay (s.rmwAt .cmem (s.rd 6) 4 (.cas 4 0 3) fun z => if z = 0 then 3 else z) (fun _ => true) = true ∧
      (s.rd 6).toNat + 8 ≤ spaceExtent .cmem ∧ (s.spaceMem .cmem).wf = true := by
  decide +kernel

/-! ### Floating point -/

/-- ScalarFloatsComplete: an inexact quotient with its flag disabled and enabled. -/
theorem witness_ScalarFloatsComplete :
    let i : Instr := .fdiv .f64 .fpc 5 6 7
    let s := ready i [(6, 0x3FF0000000000000), (7, 0x4008000000000000)]
    let u := s.setV fun v => { v with fpc := { v.fpc with en := 1 } }
    i.wf = true ∧ s.smooth = true ∧ u.smooth = true ∧
      (found (scalarFp i s) fun r => decide (s.v.fpc.en &&& r.2.flags = 0 ∧ r.2.flags ≠ 0)) = true ∧
      (found (scalarFp i u) fun r => decide (u.v.fpc.en &&& r.2.flags ≠ 0)) = true := by
  decide +kernel

/-- ResultsAreNearest: one third of the way between two numbers, and the least subnormal. -/
theorem witness_ResultsAreNearest :
    VType.f32.isF = true ∧ (VType.f32.fmt.round .rne false false true 0x5555555 (-28)).flags &&& flagOF = 0 ∧
      (VType.f64.fmt.round .rne false false false 1 (-1074)).flags &&& flagOF = 0 := by
  decide +kernel

/-! ### Vector instructions -/

/-- Two elements added under a mask, ready to step. -/
def addFloats : State :=
  masked (vecs (ready (.vfadd .f32 1 3 1 2 false) []) [(1, .f32, [0x3F800000, 0x40000000]), (2, .f32, [0x3F800000, 0xBF800000])]) 1 2

/-- No element of a register of `addFloats` is poisoned. -/
theorem clean_addFloats (r : VReg) : (addFloats.v.vregs[r.toNat]).poison = 0 := by
  revert r
  decide +kernel

/-- VectorElementValues. -/
theorem witness_VectorElementValues :
    ∃ o, vecOp (.vfadd .f32 1 3 1 2 false) addFloats = some o ∧ decodeStop (.vfadd .f32 1 3 1 2 false) addFloats = none ∧
      addFloats.smooth = true ∧ addFloats.v.vl ≤ 8192 ∧ addFloats.v.vl * o.t.width ≤ 262144 ∧
      o.d.toNat < 8 * (addFloats.v.declHeld.toNat + 1) ∧
      (∀ k r, addFloats.v.live o.mask k → r ∈ o.reads k → (addFloats.v.vregs[r.toNat]).poison.getLsbD (o.t.width * k / 64) = false) ∧
      (∀ k, addFloats.v.live o.mask k → addFloats.v.fpc.en &&& (o.val k).flags = 0) ∧ addFloats.v.live o.mask 1 := by
  have en : addFloats.v.fpc.en = 0 := by decide +kernel
  refine ⟨_, rfl, by decide +kernel, by decide +kernel, by decide +kernel, by decide +kernel, by decide +kernel,
    fun k r _ _ => by rw [clean_addFloats]; exact BitVec.getLsbD_zero, fun k _ => by rw [en]; exact BitVec.zero_and, ?_⟩
  show _ ∧ _ ∧ _
  exact ⟨by decide +kernel, by decide +kernel, .inr (by decide +kernel)⟩

/-- A pattern over two elements of 8 bytes in the scratchpad. -/
def onPattern (s : State) : State :=
  s.setV fun v => { v with mt := .spad, streams := v.streams.set 0 { Stream.unbound with
    kind := .pattern, ndim := 1, bounds := #v[2, 0, 0, 0, 0, 0], strides := #v[8, 0, 0, 0, 0, 0] } }

/-- VectorInstructionsRunTheirElements, VectorStopsAtItsElement: a store whose third element lies past the end of its stream; its
first two, and no element at all. -/
theorem witness_VectorStopsAtItsElement :
    let i : Instr := .vst .n64 0 none 1 0 false
    let s := onPattern (vecs (ready i []) [(1, .n64, [7, 8, 9])])
    let two := s.setV fun v => { v with vl := 2 }
    let none_ := s.setV fun v => { v with vl := 0 }
    let past := s.setV fun v => { v with vstart := 3 }
    let m := memVst .n64 0 none 1 0
    (loneMember i).isSome = true ∧ loneOk i s ∧ decodeStop i s = none ∧ s.smooth = true ∧ s.v.early = false ∧ s.v.cut = none ∧
      m.fof = false ∧ m.block = false ∧ m.group = false ∧ s.v.vstart ≤ 2 ∧ 2 < s.v.vl ∧
      (runElems (m.elem s) s s.v.vstart 2).2 = none ∧ stops (m.elem s (runElems (m.elem s) s s.v.vstart 2).1 2)
        (fun e => match e.2 with | .trap c _ _ _ => e.1 == 2 && c != .arith && c != .page | _ => false) = true ∧
      (two.v.vstart < two.v.vl ∧ decodeStop i two = none ∧
        (runElems (m.elem two) two 0 2).2 = none ∧ (m.close (runElems (m.elem two) two 0 2).1 2 true).smooth = true) ∧
      (0 < past.v.vl ∧ past.v.vl ≤ past.v.vstart ∧ (m.close past past.v.vl true).smooth = true) ∧
      (none_.v.vl = 0 ∧ decodeStop i none_ = none ∧ none_.smooth = true) := by
  refine ⟨rfl, .inl rfl, ?_⟩
  decide +kernel

/-- MaskResults: a comparison of floating-point elements. -/
theorem witness_MaskResults :
    ∃ o, maskOp (.vcmp .f32 .lt 1 1 2 false) addFloats = some o ∧ Instr.wf (.vcmp .f32 .lt 1 1 2 false) = true ∧
      decodeStop (.vcmp .f32 .lt 1 1 2 false) addFloats = none ∧ addFloats.smooth = true ∧ addFloats.v.vl ≤ 8192 ∧
      addFloats.v.vl * o.t.width ≤ 262144 ∧ addFloats.v.vstart < addFloats.v.vl ∧
      (∀ r ∈ o.reads, (addFloats.v.vregs[r.toNat]).poison = 0) ∧
      (∀ k, addFloats.v.vstart ≤ k → k < addFloats.v.vl → addFloats.v.fpc.en &&& (o.val k).2 = 0) := by
  have en : addFloats.v.fpc.en = 0 := by decide +kernel
  exact ⟨_, rfl, by decide, by decide +kernel, by decide +kernel, by decide +kernel, by decide +kernel, by decide +kernel,
    fun r _ => clean_addFloats r, fun k _ _ => by rw [en]; exact BitVec.zero_and⟩

/-- MaskCounts, ElementToScalar, IntegerReductions and FloatingReductions: the conditions they share. -/
theorem witness_MaskCounts :
    let s := addFloats
    s.smooth = true ∧ s.v.vstart = 0 ∧ s.v.vstart < s.v.vl ∧ s.v.vl ≤ 8192 ∧ s.v.vl * VType.f32.width ≤ 262144 ∧
      (2#5).toNat < 8 * (s.v.declHeld.toNat + 1) ∧ decodeStop (.vext .s32 5 1 6) s = none ∧
      [RedOp.sum, .min, .xor].all (fun k => decodeStop (.vred .s32 1 k 3 1) s == none && decodeStop (.vscan .s32 1 k 3 1) s == none) =
        true ∧ decodeStop (.vred .f32 1 .seq 3 1) s = none ∧ RedOp.seq.fits .f32 = true ∧ VType.s32.isI = true ∧
      (∀ r : VReg, (s.v.vregs[r.toNat]).poison = 0) := by
  decide +kernel

/-- FloatingReductions: a sum whose inexact flag is enabled. -/
theorem witness_FloatingReductions :
    let s := (vecs (ready (.vred .f32 0 .sum 2 1) []) [(1, .f32, [0x4B800000, 0x3F800000])]).setV fun v =>
      { v with fpc := { v.fpc with en := 1 } }
    decodeStop (.vred .f32 0 .sum 2 1) s = none ∧ s.v.vstart < s.v.vl ∧
      s.v.fpc.en &&& (treeSum (fpAdd VType.f32.fmt .rne false) [0x4B800000, 0x3F800000] 0 14).2 ≠ 0 := by
  decide +kernel

/-- WholeVectorMoves: a permutation. -/
theorem witness_WholeVectorMoves :
    let i : Instr := .vperm .s32 1 3 1 2
    ∃ o, moveOp i addFloats = some o ∧ decodeStop i addFloats = none ∧ addFloats.smooth = true ∧ addFloats.v.vl ≤ 8192 ∧
      addFloats.v.vl * o.t.width ≤ 262144 ∧ o.d.toNat < 8 * (addFloats.v.declHeld.toNat + 1) ∧ addFloats.v.vstart < addFloats.v.vl ∧
      (∀ r ∈ o.reads, (addFloats.v.vregs[r.toNat]).poison = 0) ∧
      (∀ t m d a b, i = .vperm t m d a b → addFloats.v.vl * (8 * 2 ^ (addFloats.v.vregs[b.toNat]).tag.toNat) ≤ 262144) := by
  refine ⟨_, rfl, by decide +kernel, by decide +kernel, by decide +kernel, by decide +kernel, by decide +kernel, by decide +kernel,
    fun r _ => clean_addFloats r, ?_⟩
  intro t m d a b h
  cases h
  decide +kernel

/-! ### Streams and vector memory -/

/-- The words of a stream record of a pattern of 2 elements of 8 bytes. -/
def patternRecord : List Byte :=
  bytesOf 8 0x20000 ++ bytesOf 8 0x101 ++ bytesOf 8 8 ++ bytesOf 40 0 ++ bytesOf 8 2 ++ bytesOf 56 0

/-- StreamSetup, BoundStreamsAreValid: a record that binds a stream, one that does not, and a misaligned address. -/
theorem witness_StreamSetup :
    let s := ready (.qset 0 6) [(6, 0x30000), (7, 0x30040), (8, 0x30008)]
    let u : State := { s with mem := s.mem.setBytes 0x30000 patternRecord }
    u.smooth = true ∧ (u.rd 6).toNat % 16 = 0 ∧ (u.rd 8).toNat % 16 ≠ 0 ∧
      okay (u.capture u.party (u.rd 6) 16) (fun r => (streamOf r.1).isSome) = true ∧
      okay (u.capture u.party (u.rd 7) 16) (fun r => (streamOf r.1).isNone) = true := by
  decide +kernel

/-- StreamAddresses: the last position of a pattern and of a tile. -/
theorem witness_StreamAddresses :
    let q : Stream := { Stream.unbound with kind := .pattern, ndim := 2, bounds := #v[4, 3, 0, 0, 0, 0] }
    11 < q.extent ∧ (∀ (d : Nat) (h : d < 6), d < q.ndim → d + 2 - d < (q.bounds[d]).toNat) ∧ q.ndim ≤ 6 ∧
      11 = (List.range q.ndim).foldr (fun d x => (if d = 0 then 3 else 2) + (q.bounds.toList.getD d 0).toNat * x) 0 ∧
      (let t : Stream := { q with kind := .tile }; 11 < t.extent ∧ 3 < (t.bounds[0]).toNat ∧ 11 = 2 * (t.bounds[0]).toNat + 3) := by
  decide

/-- StreamElements, VectorElementSpaces: an element within its pattern, and one past the end. -/
theorem witness_StreamElements :
    let s := onPattern (vecs (ready (.vst .n64 0 none 1 0 false) []) [(1, .n64, [7, 8, 9])])
    let q := s.v.streams[0]
    let e (k : Nat) : Elt := { space := s.v.mt, addr := q.address 8 k, bytes := 8, elem := k, once := q.once .n64, late := none }
    VType.n64.notX = true ∧ s.v.active 0 1 = true ∧ s.v.active 0 2 = true ∧ q.kind = .pattern ∧ q.pos = 0 ∧ 1 < q.extent ∧
      q.extent ≤ 2 ∧ okay (s.vload (e 1)) (fun _ => true) = true ∧ okay (s.vstore (e 1) 8) (fun _ => true) = true ∧
      (s.v.vregs[1]).poison = 0 ∧ s.v.mt = .spad ∧ (e 2).addr.toNat % 8 = 0 ∧ (e 2).addr.toNat + 8 ≤ spaceExtent s.v.mt ∧
      (s.spaceMem .spad).wf = true := by
  decide +kernel

/-- VectorElementSpaces: the last and the first beyond of a lane table. -/
theorem witness_VectorElementSpaces :
    let e (x : Word) : Elt := { space := .lane, addr := x, bytes := 8, elem := 0, once := false, late := none }
    (e 0xFF8).addr.toNat % 8 = 0 ∧ (e 0xFF8).addr.toNat + 8 ≤ spaceExtent .lane ∧ (e 0x1000).addr.toNat % 8 = 0 ∧
      spaceExtent .lane < (e 0x1000).addr.toNat + 8 := by
  decide

/-- IndexedElements, AccumulatingElements: an index of 1 into a pattern and a lane table, and a counter. -/
theorem witness_IndexedElements :
    let s := onPattern (vecs (ready .yield [(6, 0x40)]) [(1, .n64, [7, 8]), (2, .n64, [1, 1]), (3, .n64, [0, 0])])
    let q := s.v.streams[0]
    let e : Elt := { space := .spad, addr := q.address 8 q.pos + 8, bytes := 8, elem := 1, once := false, late := none }
    let l : Elt := { e with space := .lane, addr := 8 }
    s.v.active 0 1 = true ∧ (s.v.vregs[2]).tag = 3 ∧ (∀ r : VReg, (s.v.vregs[r.toNat]).poison = 0) ∧ q.kind = .pattern ∧
      okay (s.vload e) (fun _ => true) = true ∧ okay (s.vstore e 8) (fun _ => true) = true ∧
      okay (s.vload l) (fun _ => true) = true ∧ okay (s.vstore l 8) (fun _ => true) = true ∧
      VType.n64.isI = true ∧ (s.spaceMem .spad).wf = true ∧ e.addr.toNat % 8 = 0 ∧ e.addr.toNat + 8 ≤ spaceExtent .spad ∧
      (s.rd 6 + 8).toNat + 8 ≤ spaceExtent .spad ∧ (3#5).toNat < 8 * (s.v.declHeld.toNat + 1) := by
  decide +kernel

/-- VoxelTables: a table of 16 slots with generation 1, empty. -/
theorem witness_VoxelTables :
    let s := (ready .yield []).setCore 0 fun c => { c with spad := (c.spad.write 0x100 1 4).write 0x101 1 1 }
    (s.spaceMem .spad).wf = true ∧
      (found (s.voxel 0x100) fun t => t.k == 4 && s.probe t (2 ^ 48 - 1) 15 32 == .open_ 15) = true := by
  decide +kernel

/-- TagTable: a tag that belongs to its slot's set, one that does not, and an entry made invalid. -/
theorem witness_TagTable :
    let s := ready (.sptag 6 7) [(6, 0x1082), (7, 0x12345678), (8, 0x1002), (9, 0x82)]
    s.smooth = true ∧ ((s.rd 6).getLsbD 12 = true ∧ tagSet ((s.rd 7).extractLsb' 0 48) = (s.rd 6).toNat % 4096 / 16) ∧
      ((s.rd 8).getLsbD 12 = true ∧ tagSet ((s.rd 7).extractLsb' 0 48) ≠ (s.rd 8).toNat % 4096 / 16) ∧
      (s.rd 9).getLsbD 12 = false := by
  decide +kernel

/-! ### Tiles -/

/-- ShapesAreGranted, SlotsAndZero: a type with a row and one without; a free slot and a claimed one. -/
theorem witness_ShapesAreGranted :
    let s := ready (.tshape .f64 .dense 5 6 7) []
    decodeStop (.tshape .f64 .dense 5 6 7) s = none ∧ s.smooth = true ∧ shapeRow .f64 false ≠ none ∧ shapeRow .f64 true = none ∧
      decodeStop (.tshape .f64 .s24 5 6 7) s = none ∧ s.v.tileOwner = true ∧ s.v.mode ≠ .spread ∧ (s.oslot 15).st = .free ∧
      ((s.setOslot 15 { OSlot.free with st := .claimed }).oslot 15).st ≠ .free := by
  decide +kernel

/-- A tile stream of 2 columns and `rows` rows of 8 bytes at an address of the scratchpad, with slot o0 claimed. -/
def onTile (s : State) (rows : Word) (base : Word) : State :=
  (s.setOslot 0 { OSlot.free with st := .claimed }).setV fun v => { v with mt := .spad, streams := v.streams.set 0 { Stream.unbound with
    kind := .tile, base := base, ndim := 2, bounds := #v[2, rows, 0, 0, 0, 0], strides := #v[0, 16, 0, 0, 0, 0] } }

/-- TileLoads, TilePositions: a tile that fills its slot, and one whose third position lies past the scratchpad. -/
theorem witness_TileLoads :
    let i : Instr := .tld .f64 .dense 0 0
    let s := onTile (ready i []) 4 0
    let u := onTile (ready i []) 2 0x3FFF0
    let f := tldForm .f64 .dense 2
    let started (s : State) (rows : Nat) : State :=
      s.setOslot 0 { s.oslot 0 with st := .part 0, type := VType.f64.code, spar := 0, rows := rows, cols := f.cols }
    decodeStop i s = none ∧ s.v.tilepos = 0 ∧ (s.oslot 0).st ≠ .free ∧ (s.v.streams[0]).kind = .tile ∧ s.v.mt ≠ .lane ∧
      tileBytes .f64 .dense 4 f ≤ 16384 ∧
      (let x := (started s 4).fillFrom .f64 f 0 (s.v.streams[0]) 0 (s.v.streams[0]).extent; x.2 = none ∧ x.1.smooth = true) ∧
      decodeStop i u = none ∧
      (found ((started u 2).fillFrom .f64 f 0 (u.v.streams[0]) 0 (u.v.streams[0]).extent).2
        fun x => x.1 == 2 && match x.2 with | .trap .. => true | _ => false) = true ∧
      okay (s.vload (tldElt s ((s.v.streams[0]).address 8 1) 8 1)) (fun _ => true) = true ∧ 8 * f.bytes * 2 ≤ 131072 := by
  decide +kernel

/-- A slot that holds a tile of FP64 values, row after row. -/
def values (rows cols : Nat) (l : List Nat) : OSlot :=
  { OSlot.free with
    st := .values, type := VType.f64.code, rows := rows, cols := cols,
    data := BitVec.ofNat 131072 (l.foldr (fun x y => x + 2 ^ 64 * y) 0) }

/-- The operands of the worked multiplication of file 19, after TSHAPE: A in o0 and B in o1. -/
def multiply : State :=
  (((ready (.tmma .f64 0 0 1 false) []).setOslot 0 (values 4 2 [0x3FF0000000000000, 0x4000000000000000, 0x4008000000000000,
    0x4010000000000000, 0x4014000000000000, 0x4018000000000000, 0x401C000000000000, 0x4020000000000000])).setOslot 1
    (values 2 2 [0x3FF0000000000000, 0x3FF0000000000000, 0x3FF0000000000000, 0xBFF0000000000000])).setV fun v =>
    { v with tsmM := 4, tsmType := VType.f64.code, tsn := 2, tskK := 2 }

/-- MultiplicationsComplete: operands that are there, and a slot that is free. -/
theorem witness_MultiplicationsComplete :
    let i : Instr := .tmma .f64 0 0 1 false
    let x : Mma := { t := .f64, sp := .dense, acc := 0, oa := 0, ob := 1, oc := 0 }
    decodeStop i multiply = none ∧ multiply.smooth = true ∧ mmaStop x multiply.v.pc multiply = none ∧
      mmaStop { x with ob := 2 } multiply.v.pc multiply ≠ none ∧ multiply.v.tsn.toNat ≤ 16 * (clustersOf multiply.v.lc).length ∧
      multiply.v.tsmM.toNat ≤ 512 / accBytes (accType x.t) := by
  decide +kernel

/-- The worked multiplication of file 19: C is ((3, -1), (7, -1), (11, -1), (15, -1)). -/
theorem test_tmma : goesTo (step multiply) (fun s => ((List.range 8).map fun k =>
    bitsAt (s.acc 0).data (s.v.accBit .f64 (k / 2) (k % 2)) 64) ==
      [0x4008000000000000, 0xBFF0000000000000, 0x401C000000000000, 0xBFF0000000000000, 0x4026000000000000, 0xBFF0000000000000,
        0x402E000000000000, 0xBFF0000000000000]) = true := by
  decide +kernel

/-! ### Execution control -/

/-- GrantsGiveTheirLength: SETVL, VLOOP.spread and VNEXT within a loop. -/
theorem witness_GrantsGiveTheirLength :
    let s := ready (.setvl 4 3) [(3, 10000)]
    let u := s.setV fun v => { v with mode := .plain, scnt := 100, vl := 64 }
    let free (s : State) : Bool := !s.v.preempt && s.smooth && s.rowsFree s.v.declPend (s.entitled s.nextLc s.v.declPend)
    free s = true ∧ free u = true ∧ u.v.mode ≠ .inactive ∧ (u.v.scnt - BitVec.ofNat 64 u.v.vl).toNat = 36 := by
  decide +kernel

/-- Another VLC of the placed core, holding every row of it. -/
def crowded (s : State) : State :=
  { s with parked := [{ placeVlc with slot := 1, launch := 1, declEff := 0, declPend := 0, declHeld := 0, rows := Vector.replicate 4 64 }] }

/-- GrantsThatWait: a request pending, and rows that another VLC holds. -/
theorem witness_GrantsThatWait :
    let s := ready (.setvl 4 3) [(3, 10000)]
    (s.setV fun v => { v with preempt := true }).v.level = .user ∧ s.v.preempt = false ∧ s.v.stepOnce = false ∧
      (crowded s).rowsFree s.v.declPend ((crowded s).entitled (crowded s).nextLc s.v.declPend) = false := by
  decide +kernel

/-- DeclarationsAndLoopEnds: no loop, and the last strip of one. -/
theorem witness_DeclarationsAndLoopEnds :
    let s := ready (.vnext 5 0) []
    let u := s.setV fun v => { v with mode := .plain, scnt := 64, vl := 64 }
    s.smooth = true ∧ s.v.mode = .inactive ∧ u.v.mode ≠ .inactive ∧ u.v.scnt = BitVec.ofNat 64 u.v.vl := by
  decide +kernel

/-- SharesPartition. -/
theorem witness_SharesPartition :
    let s := ready (.setvp 30 6 7) []
    s.smooth = true ∧ s.launch s.v.launch = some placeLaunch ∧ (30#5) ≠ 0 ∧ (30#5) ≠ 31 := by
  decide +kernel

/-- The words of a convoy of instructions of four bytes. -/
def wordsOf (l : List Instr) : List (BitVec 64) := l.map fun i => BitVec.ofNat 64 (bytesNat ((encode i).map (·.toNat)))

/-- ConvoysRunTheirPhases, ConvoyLimits: a convoy that runs, one with a member that fails its check, one that a matrix member stops
at its issue, and one whose store stops. -/
theorem witness_ConvoysRunTheirPhases :
    let s := vecs (ready .yield [(5, 7)]) [(1, .n64, [5, 6, 7]), (2, .n64, [1, 1, 1])]
    let join (s : State) (l : List Instr) (p : List Joined → Bool) : Bool := okay (joinAll s [] (placed s.v.pc (wordsOf l))) p
    join s [.vadd .n64 0 3 1 2 false, .add 6 5 5 true] (fun l => (issueStop s l).isNone && match vectorPhase (membersOf l) s with
        | .done s1 => (scalarPhase (matrixPhase s1 l) l).2.isNone && (scalarPhase (matrixPhase s1 l) l).1.smooth
        | .stopped _ _ => false) = true ∧ s.v.stores = [] ∧
      stops (joinAll s [] (placed s.v.pc (wordsOf [.vadd .n64 0 3 1 2 false, .vsub .n64 0 3 1 2 true]))) (fun _ => true) = true ∧
      join s [.tmma .f64 0 0 1 false, .add 6 5 5 true] (fun l => (issueStop s l).isSome) = true ∧
      join (onPattern s) [.vadd .n64 0 3 1 2 false, .vst .n64 0 none 3 0 true]
        (fun l => (issueStop (onPattern s) l).isNone && match vectorPhase (membersOf l) (onPattern s) with
          | .done _ => false
          | .stopped _ _ => true) = true := by
  decide +kernel

/-! ### Steps about a VLC -/

/-- A VLC of the placed state that waits in an instruction. -/
def waiting (i : Instr) : State := (ready i []).setV fun v => { v with status := .blocked i }

/-- EventsFindTheirVlc, WakesRunTheInstructionAgain: the VLC that issues, one that is parked, one that is not there, and one that is
frozen. -/
theorem witness_EventsFindTheirVlc :
    let i : Instr := .setvl 4 3
    let s := waiting i
    let far : State := { s with v := Vlc.absent, parked := [s.v] }
    aboutVlc (.grantRowsFree 0 0) = some (0, 0) ∧ wakes (.grantRowsFree 0 0) i = some (s.v.core, s.v.slot) ∧
      s.v.status = .blocked i ∧ s.v.frozen = false ∧ s.v.awaited = [] ∧ decodeStop i s = none ∧
      s.bring (·.isAt 0 1) = none ∧ (s.bring (·.isAt 0 0)).isSome = true ∧ (far.bring (·.isAt 0 0)).isSome = true ∧
      found ((s.setV fun v => { v with frozen := true }).bring (·.isAt 0 0)) (·.v.frozen) = true := by
  decide +kernel

/-- WaitsEnd: each wait. -/
theorem witness_WaitsEnd :
    let ends (i : Instr) : Bool := (waiting i).v.status.resident && !(waiting i).v.frozen && (waiting i).smooth &&
      (waiting i).v.status == .blocked i && (waiting i).v.stores == [] && (waiting i).v.awaited == []
    [Instr.fence .all .pod, .rdtime 5, .idle].all ends = true ∧
      ((ready .yield []).setV fun v => { v with status := .draining (.strel .n64 .pod .glob 5 6) }).v.status.resident = true ∧
      ((waiting .idle).setV fun v => { v with preempt := true }).v.preempt = true := by
  decide +kernel

/-- PreemptionRequests: a grant that another VLC hinders, a wait that a forced request ends, and a request ripe at a boundary. -/
theorem witness_PreemptionRequests :
    let s := crowded (waiting (.setvl 4 3))
    let asked (s : State) : State := s.setV fun v => { v with preempt := true }
    s.v.inGrant = true ∧ s.hindering ≠ [] ∧ stopsForced (.bar 5) = true ∧ (asked (waiting (.bar 5))).v.status = .blocked (.bar 5) ∧
      (waiting (.bar 5)).v.level = .user ∧ (asked (ready .yield [])).v.status = .runnable ∧
      (let u := (asked (ready .yield [])).setV fun v => { v with ripe := true };
        u.v.preempt = true ∧ u.v.ripe = true ∧ u.v.level = .user ∧ u.v.vend = false ∧ u.v.lateFabric = none) := by
  decide +kernel

/-! ### Barriers and WAITV -/

/-- The placed VLC a member of group 5, alone in it. -/
def inGroup (i : Instr) : State :=
  ((ready i []).setV fun v => { v with gmemb := 0x8005 }).setLaunch 0 fun l => { l with groups := [(5, [(0, 0)])] }

/-- The same, arrived in the current generation of its barrier and waiting. -/
def arrived : State :=
  ((inGroup (.bar 5)).setV fun v => { v with status := .blocked (.bar 5), barw := some { ssync := false, gen := 0, group := 5 } }).setLaunch 0
    fun l => { l with bars := [{ group := 5, gen := 0, arrived := [0] }] }

/-- BarriersArrive, BarriersComplete: the first arrival, a VLC that executes BAR again, and a generation that is complete or not. -/
theorem witness_BarriersArrive :
    let s := inGroup (.bar 5)
    decodeStop (.bar 5) s = none ∧ (s.launch s.v.launch).isSome = true ∧ s.smooth = true ∧ s.v.barw = none ∧
      arrived.v.barw = some { ssync := false, gen := 0, group := 5 } ∧
      found (arrived.launch 0) (fun l => l.genOf 5 == 0 && arrived.barReady l 5 && l.genOf 5 != 1) = true ∧
      arrived.waitersOf 0 { ssync := false, gen := 0, group := 5 } = [(arrived.v.core, arrived.v.slot)] ∧
      arrived.v.status.resident = true ∧ arrived.v.frozen = false ∧ arrived.smooth = true ∧
      found (s.launch 0) (fun l => !s.barReady l 5) = true ∧
      (let u := arrived.setLaunch 0 fun l => { l with bars := [{ group := 5, gen := 1, arrived := [] }] };
        found (u.launch 0) fun l => decide (0 < l.genOf 5)) = true := by
  decide +kernel

/-- SuperstepsAdvance: before an arrival, after a completed superstep, and with every VLC arrived. -/
theorem witness_SuperstepsAdvance :
    let s := ready (.ssync 6) []
    let u := (s.setV fun v => { v with status := .blocked (.ssync 6), barw := some { ssync := true, gen := 0, group := 0 } }).setLaunch 0
      fun l => { l with ssync := [0] }
    (s.launch s.v.launch).isSome = true ∧ s.smooth = true ∧ s.v.barw = none ∧
      found ((u.setLaunch 0 fun l => { l with superstep := 1 }).launch 0) (fun l => decide (0 < l.superstep)) = true ∧
      found (u.launch 0) (fun l => u.ssyncReady l) = true ∧ u.v.frozen = false ∧
      u.waitersOf 0 { ssync := true, gen := 0, group := 0 } = [(u.v.core, u.v.slot)] ∧ u.commands = [] := by
  decide +kernel

/-- WaitsForValues: a condition that holds, one that does not, and a misaligned word. -/
theorem witness_WaitsForValues :
    let s := ready (.waitv true .cl .ge 5 6 7) [(6, 8), (7, 1), (8, 9)]
    s.smooth = true ∧ s.v.stepOnce = false ∧
      okay (s.loadAt .cmem (s.rd 6) 8 false) (fun x => x.2.smooth && decide (x.1 < 2 ^ 64) && decide (x.1 < (s.rd 7).toNat) &&
        decide (0 ≤ x.1)) = true ∧
      stops (s.loadAt .cmem (s.rd 8) 8 false) (fun _ => true) = true := by
  decide +kernel

/-! ### Commands -/

/-- A copy descriptor at 0x30000, from the scratchpad to cluster memory, whose streams are the record at 0x30100: n = 2 in s7. -/
def copies (i : Instr) : State :=
  let s := ready i [(6, 0x30000), (7, 2), (8, 0x30008)]
  let descriptor := bytesOf 8 0x30100 ++ bytesOf 8 0x30100 ++ [1, 2, 3, 0] ++ bytesOf 44 0
  { s with mem := (s.mem.setBytes 0x30000 descriptor).setBytes 0x30100 (bytesOf 8 0 ++ patternRecord.drop 8) }

/-- CommandsAreIssued: a copy issued, one whose descriptor is misaligned, and one for which there is no room. -/
theorem witness_CommandsAreIssued :
    let i : Instr := .cpy 5 6 7
    let s := copies i
    let full (s : State) (c : Command) : State := { s with commands := List.replicate 64 c }
    (issues i).isSome = true ∧ s.smooth = true ∧
      okay (copyCapture 6 7 s) (fun x => decide (x.2.unfinished x.1.die true < 64) && x.2.smooth) = true ∧
      stops (copyCapture 8 7 s) (fun _ => true) = true ∧
      okay (copyCapture 6 7 s) (fun x => okay (copyCapture 6 7 (full s x.1)) fun y => decide (64 ≤ y.2.unfinished y.1.die true)) = true := by
  decide +kernel

/-- The state after that copy was issued, and the state after it ended. -/
def copied (p : State → Bool) : Bool := goesTo (step (copies (.cpy 5 6 7))) p

/-- The job of the placed context frozen. -/
def frozenJob (s : State) : State :=
  { s with jobs := [{ key := 65536, st := .frozen, origin := 0, release := 0, causes := [], held := [], asker := none }] }

/-- The copy with its destination's second element past the cluster memory. -/
def beyond (c : Command) : Command :=
  { c with record := (bytesOf 8 0x3FFFF8 ++ patternRecord.drop 8) ++ c.record.drop 128 }

/-- CommandsEnd, CopiesMoveElements: the command issued and not ended, its run, and a frozen job. -/
theorem witness_CommandsEnd :
    (runsAlone .cpy).isSome = true ∧
    copied (fun s => found (s.command 0 1) fun c => c.kind == .cpy && c.status.isNone && !s.frozenCtx c.ctx &&
      okay (copyRun c s) (fun x => x.2.command 0 1 == some c) && found (streamOf (c.record.take 128)) fun q =>
        okay (copyElems c (CopyDesc.of c.block) q q s 0 2) fun _ => true) = true ∧
    copied (fun s => found (s.command 0 1) fun c => (frozenJob s).frozenCtx c.ctx) = true ∧
    copied (fun s => found (s.command 0 1) fun c => stops (copyRun (beyond c) s) fun e =>
        match e with | .code .. => true | _ => false) = true := by
  decide +kernel

/-- PublicationIsWhole, PublishedBytes, StatusesAreClaimedOnce: a command ended in code 0, one not ended, and one that failed. -/
theorem witness_PublicationIsWhole :
    let set (s : State) : List Command := s.commands.filter fun c => c.launch == s.v.launch && c.rank == s.v.rank.toNat && !c.settled
      && c.target == (s.rd 9).toNat && c.kind != .mghost
    copied (fun s => (set s).length == 1 && (set s).all (fun c => c.status.isNone) && s.claimable (s.rd 5).toNat == some none &&
        (s.claimable 77).isNone && !s.v.stepOnce) = true ∧
      copied (fun s => goesTo (exec (.cpyCommandEnd 0 1) s) fun u => (set u).length == 1 && u.v.stores == [] &&
        (set u).all (fun c => c.status == some 0 && !c.shadow.isEmpty && c.shadow.all fun h => match h.place with
          | .phys _ => false | .cmem .. => true | .spad .. => true) && (u.publish u.v.launch u.v.rank.toNat (set u)).smooth &&
          (u.claimable 1).isSome && (u.cluster 0).cmem.wf && (u.core 0).spad.wf) = true ∧
      copied (fun s => goesTo (.next { s with commands := s.commands.map fun c => { c with status := some 0x88 } }) fun u =>
        !(set u).isEmpty && (set u).all fun c => c.status == some 0x88) = true := by
  decide +kernel

/-! ### Meshes -/

/-- One quadrilateral cell with a boundary all round. -/
def oneCell : Mesh where
  die := 0
  ctx := 0
  id := 9
  launch := 0
  dim := 2
  maxlev := 2
  tbits := 0
  coarse := [{ kind := 4, faces := List.replicate 4 0xFFFFFFFF ++ [0, 0], verts := [0, 1, 2, 3] ++ List.replicate 4 0xFFFFFFFF }]
  cur := { gen := 1, leaves := [{ tree := 0, path := [] }], parts := [{ first := 0, die := 0, ep := 0 }] }
  pending := none
  lost := false

/-- Its record, its coarse-cell table at 0x50000 and its partition table at 0x51000; the query block at 0x52000 asks for its one
cell. -/
def meshState (i : Instr) : State :=
  let s := ready i [(6, 0x52000), (7, 0x54000)]
  let record := bytesOf 4 0x4853454D ++ bytesOf 2 1 ++ [2, 2, 0] ++ bytesOf 7 0 ++ bytesOf 8 9 ++ bytesOf 8 1 ++ bytesOf 8 0x50000 ++
    bytesOf 8 0x58000 ++ bytesOf 8 4 ++ bytesOf 8 0 ++ bytesOf 8 0x51000 ++ bytesOf 4 1 ++ bytesOf 180 0
  let cell := bytesOf 8 4 ++ (List.replicate 4 (bytesOf 8 0xFFFFFFFF)).flatten ++ bytesOf 24 0 ++
    bytesOf 4 0 ++ bytesOf 4 1 ++ bytesOf 4 2 ++ bytesOf 4 3 ++ bytesOf 16 (2 ^ 128 - 1) ++ bytesOf 32 0
  { s with
    mem := (((s.mem.setBytes 0x50000 cell).setBytes 0x51000 (bytesOf 8 0)).setBytes 0x52000
      (bytesOf 8 0x53000 ++ bytesOf 8 0 ++ bytesOf 8 1 ++ bytesOf 40 0)).setBytes 0x53000 record
    meshes := [oneCell] }

/-- NeighbourBindings: the query captured, its record parsed, and its mesh held; and a misaligned block. -/
theorem witness_NeighbourBindings :
    let s := (meshState (.mnbr 2 6 7)).setV fun v => { v with status := .blocked (.mnbr 2 6 7) }
    s.v.stepOnce = false ∧ s.v.frozen = false ∧ s.v.status = .blocked (.mnbr 2 6 7) ∧ okay (nbrCapture 6 s) (fun x =>
      x.2.v == s.v && x.2.endpoint == s.endpoint && okay (x.2.parseMesh { x.2.party with core := none, watch := false } x.2.v.launch x.1.2 false)
        (fun y => y.2.smooth) && found (x.2.mesh 0 (MeshRec.of x.1.2).id) fun m => queryFail x.1.1 true (some m) (s.endpoint, 0) == 0) = true ∧
      stops (nbrCapture 5 (s.wr 5 8)) (fun _ => true) = true := by
  decide +kernel

/-- What the one party of a refinement brings. -/
def refiner : PartyMsg where
  ep := 0
  die := 0
  gen := 1
  leaves := [(0, [])]
  parts := [(0, 0, 0)]
  code := 0
  detail := 0
  rcode := 0
  rdetail := 0
  count := 0
  param := 0
  same := []
  data := [[1]]
  ran := false

/-- A refinement of the one cell, arrived. -/
def refining (m : PartyMsg) : Command where
  die := 0
  handle := 1
  kind := .mrefine
  launch := 0
  rank := 0
  ctx := 0
  sup := false
  core := 0
  record := []
  block := bytesOf 8 0x60000 ++ bytesOf 8 4096 ++ bytesOf 48 0
  mesh := some oneCell
  others := [m]
  status := none
  target := 0x60000
  shadow := []
  tags := []
  settled := false
  claimed := false

/-- CollectiveRoundsEnd: a round of one party that succeeds, one whose party failed, and one that waits for a second die. -/
theorem witness_CollectiveRoundsEnd :
    let s (m : PartyMsg) : State := { meshState .yield with commands := [refining m] }
    let ms (m : PartyMsg) := ((s m).setCommand 0 1 (·.hear [])).messages (((s m).setCommand 0 1 (·.hear [])).members ((refining m).hear []))
    let bad := { refiner with rcode := 14 }
    let two := { refiner with parts := [(0, 0, 0), (2 ^ 40, 1, 0)] }
    CmdKind.collective .mrefine = true ∧ (s refiner).command 0 1 = some (refining refiner) ∧ (s refiner).frozenCtx 0 = false ∧
      (s refiner).commands.length = 1 ∧ ((refining refiner).own 0).isSome = true ∧ knownParts (ms refiner) ≠ none ∧
      (partiesOf .mrefine (ms refiner)).contains (0, 0) = true ∧ roundFull .mrefine (ms refiner) = true ∧
      roundStatus (ms refiner) = none ∧ ((refining refiner).hear []).ownRun 0 = none ∧
      [0, 14].all (fun code =>
        let c : Command := { refining refiner with others := [refiner, { refiner with ran := true, rcode := code }] }
        let u : State := { meshState .yield with commands := [c] }
        let l := (u.setCommand 0 1 (·.hear [])).members (c.hear [])
        let rs := (u.setCommand 0 1 (·.hear [])).runs l
        (roundStatus ((u.setCommand 0 1 (·.hear [])).messages l)).isNone && l.all (fun x => (x.ownRun 0).isSome) &&
          (partiesOf .mrefine ((u.setCommand 0 1 (·.hear [])).messages l)).all (fun p => rs.any fun y => msgPlace y == p) &&
          ((rs.find? fun y => y.rcode != 0).isSome == (code != 0))) = true ∧
      (roundFull .mrefine (ms bad) = true ∧ (roundStatus (ms bad)).isSome = true) ∧
      (roundFull .mrefine (ms two) = false ∧ missing .mrefine ((s two).messages ((s two).members (refining two))) ≠ []) := by
  decide +kernel

/-- A cut into one part. -/
def cutting : Command :=
  let c := refining { refiner with param := 1 }
  { c with kind := .mcut, block := bytesOf 8 0x60000 ++ bytesOf 8 4096 ++ bytesOf 24 0 ++ bytesOf 8 1 ++ bytesOf 16 0 }

/-- CollectiveRoundsEnd: the commands of a round that run, of a cut into one part. -/
theorem witness_PartiesRun :
    let s0 := ({ meshState .yield with commands := [cutting] } : State).setCommand 0 1 (·.hear [])
    okay (runParties (s0.messages (s0.members (cutting.hear []))) s0 (sortBy (·.die) (s0.members (cutting.hear [])))) (fun u => u.commands.length == 1) = true ∧
      roundStatus (s0.messages (s0.members (cutting.hear []))) = none ∧ (cutting.hear []).ownRun 0 = none := by
  decide +kernel

/-- MeshResults: a closure of leaves within 15 levels. -/
theorem witness_MeshResults :
    oneCell.maxlev ≤ 15 ∧ (∀ a ∈ oneCell.cur.leaves, a.path.length ≤ 15) ∧ (oneCell.closure oneCell.cur.leaves).isSome = true := by
  decide +kernel

/-! ### Wick -/

/-- A run of one block of 64 tokens of 16 elements of BF16, in a wick region at 0x80000000 that one wick page maps: its record at
0x30000, its block table at 0x31000. VL is 16; s6 names the record and s7 is 1. -/
def onRun (i : Instr) : State :=
  let s := vecs (ready i [(6, 0x30000), (7, 1), (8, 0x30001)])
    [(1, .bf16, List.replicate 16 0x3F80), (2, .bf16, List.replicate 16 0x4000)]
  let record := bytesOf 8 0x31000 ++ bytesOf 4 1 ++ bytesOf 2 16 ++ [0x0B] ++ bytesOf 49 0
  let s1 : State := { s with
    mem := (s.mem.setBytes 0x30000 record).setBytes 0x31000 (bytesOf 8 0x80000000)
    regions := [(32768 * stackOf 0x80000000 + regionNo 0x80000000, { wick := true, gr := 1, moved := 0 })] }
  s1.setCore 0 fun c => { c with tlb := [{ ctx := 0, size := 21, vpn := 0x80000000 / 2 ^ 21, pte := 0x8000057F, addr := 0, key := none }] }

/-- QueriesArePosted: a query captured with room and without, one with VL 0, one that stops, and one that waits. -/
theorem witness_QueriesArePosted :
    let i : Instr := .wqpost 5 1 6
    let s := onRun i
    let full (s : State) (q : SubQuery) : State := { s with subqueries := List.replicate 1024 q }
    decodeStop i s = none ∧ s.smooth = true ∧ s.v.vl ≠ 0 ∧ s.v.freeTag = some 0 ∧
      okay (postCapture 1 6 s) (fun x => x.1.length == 1 && x.1.all (fun q => q.triple.isNone && decide (x.2.stackLoad q.stack < 1024)) &&
        found x.1.head? fun q => decide (1024 ≤ (full x.2 q).stackLoad q.stack) &&
          ((full x.2 q).setV fun v => { v with status := .blocked i, queuedQ := x.1 }).v.frozen == false) = true ∧
      stops (postCapture 1 8 s) (fun _ => true) = true ∧ (let u := s.setV fun v => { v with vl := 0 }; decodeStop i u = none ∧ u.smooth = true) := by
  decide +kernel

/-- SubQueriesFollowTheirStacks, BanksScanTheirRows: the blocks captured, and a sub-query before and after its scan. -/
theorem witness_BanksScanTheirRows :
    let s := onRun (.wqpost 5 1 6)
    okay (s.postBlocks 0x31000 0 1) (fun x => !x.1.isEmpty && x.1.all fun b => decide (stackOf b.pa < 16)) = true ∧
      goesTo (step s) (fun t => found t.subqueries.head? fun q => found q.banks.head? fun k => !t.bankBusy q.stack k &&
        !(q.unread k).isEmpty && q.triple.isNone &&
        ({ t with refresh := [(2048 * q.stack + k, { postponed := 0, busy := true })] } : State).bankBusy q.stack k &&
        goesTo (exec (.wickScanRow q.stack k) t) fun u => found u.subqueries.head? fun r => r.scanned && r.triple.isNone) = true := by
  decide +kernel

/-- R266: the score of a token is the dot product of 16 ones and 16 zeros, and the triple has one token: m = 0, l = 1. -/
theorem test_wick_triple : goesTo (step (onRun (.wqpost 5 1 6))) (fun t => found t.subqueries.head? fun q => found q.banks.head? fun k =>
    goesTo (exec (.wickScanRow q.stack k) t) fun u => goesTo (exec (.wickSubqueryEnd q.stack q.launch q.rank q.slot q.seq) u) fun w =>
      found w.subqueries.head? fun r => found r.triple fun x => x.m == 0 && x.l == 0x3F800000 && x.acc == List.replicate 16 0
        && x.status.extractLsb' 0 21 == 1) = true := by
  decide +kernel

/-- A triple of the value one. -/
def oneTriple : Triple := { m := 0, l := 0x3F800000, acc := List.replicate 16 0x3F800000, status := 1 }

/-- EmptyTriplesAreNeutral: an empty triple, a NaN. -/
theorem witness_EmptyTriplesAreNeutral :
    let e := emptyTriple 16
    oneTriple.acc.length = e.acc.length ∧ mixNan oneTriple.m.toNat oneTriple.l.toNat e.m.toNat e.l.toNat oneTriple.status e.status = false ∧
      stEmpty e.status = true ∧ stEmpty oneTriple.status = false ∧
      mixNan 0x7FC00000 oneTriple.l.toNat e.m.toNat e.l.toNat oneTriple.status e.status = true := by
  decide

/-- A query of the placed VLC posted in slot 3 with sequence number 9, whose triple of stack 0 is `t`. -/
def holding (i : Instr) (t : Option Triple) : State :=
  let tag : Word := 0x8000000000000093
  let s := (ready i [(6, tag)]).setV fun v => { v with vl := 16, wickTags := v.wickTags.set 3 tag }
  { s with subqueries := [{ launch := 0, rank := 0, slot := 3, seq := 9, stack := 0, die := 0, ctx := 0, d := 16, rowt := 0x0B, n := 1, query := [],
                            blocks := [], vas := [], got := [], last := true, triple := t }] }

/-- TriplesAreReceived: a triple that is ready, one that is not, a wrong VL, and a tag the VLC does not hold. -/
theorem witness_TriplesAreReceived :
    let i : Instr := .wqrecv 1 6 29
    let s := holding i (some oneTriple)
    let w := holding i none
    i.wf = true ∧ decodeStop i s = none ∧ s.smooth = true ∧ s.v.vl ≠ 0 ∧ s.rd 6 ≠ 0 ∧ s.rd 6 ∈ s.v.wickTags.toList ∧
      found (s.nextTriple (s.rd 6)) (fun q => s.v.vl == q.d && s.v.wickFits && q.triple == some oneTriple &&
        oneTriple.acc.length == q.d) = true ∧ (1#5).toNat < 8 * (s.v.declHeld.toNat + 1) ∧
      found (w.nextTriple (w.rd 6)) (fun q => w.v.vl == q.d && w.v.wickFits && q.triple.isNone) = true ∧
      (let u := s.setV fun v => { v with vl := 17 }; found (u.nextTriple (u.rd 6)) (fun q => u.v.vl != q.d) = true) ∧
      (s.wr 6 77).rd 6 ∉ s.v.wickTags.toList := by
  decide +kernel

/-- PairsAreAppended: an append with room, step by step. -/
theorem witness_PairsAreAppended :
    let i : Instr := .wkvapp 1 6 2
    let s := onRun i
    decodeStop i s = none ∧ s.v.vl ≠ 0 ∧ (okay (s.readRun (s.rd 6)) fun x => s.v.vl == x.1.d && x.1.rowt == 0x0B &&
      okay (x.2.load x.2.party (.mem 0x30010 8 .load 0)) fun y => y.1 == 0 &&
      okay (y.2.load x.2.party (.mem 0x31000 8 .load 0)) fun z => z.1 == 0x80000000 &&
      okay (z.2.wickRef (.mem 0x80000000 64 .store 0) 0x80000000) fun ref =>
      ref.pa == 0x80000000 && okay (z.2.pairOf x.1 1 2) (fun l => l.length == 64) &&
      okay (appendOf (s.rd 6) x.1 1 2 x.2) fun h =>
        okay (h.2.rmw x.2.party (.mem 0x30010 8 .rmw 0) (atomicKey 0 0) (.cas 8 0 1) fun n => if n = 0 then 1 else n) fun o => o.1 == 0 &&
          (o.2.storePair h.1).smooth) = true ∧ s.v.append = none := by
  decide +kernel

/-- TriplesAreCombined: a grant that holds the accumulator, one that does not, and VL 0. -/
theorem witness_TriplesAreCombined :
    let i : Instr := .wcomb 1 2 26
    let s := (ready i []).setV fun v => { v with vl := 16 }
    let u := s.setV fun v => { v with vl := 8192 }
    i.wf = true ∧ decodeStop i s = none ∧ s.smooth = true ∧ s.v.vl ≠ 0 ∧ s.v.wickFits = true ∧ s.v.vstart = 0 ∧
      (1#5).toNat < 8 * (s.v.declHeld.toNat + 1) ∧ decodeStop i u = none ∧ u.v.wickFits = false := by
  decide +kernel

/-! ### The fabric and the rings -/

/-- A transfer descriptor at 0x30000: 16 bytes from 0x20000 to 0x20100. -/
def transfers (i : Instr) : State :=
  let s := ready i [(6, 0x30000), (7, 0x30008), (8, 0x30020)]
  { s with mem := s.mem.setBytes 0x30000 (bytesOf 8 0x20100 ++ bytesOf 8 0x20000 ++ bytesOf 8 16 ++ bytesOf 8 0) }

/-- TransfersAreIssued, TransfersMoveUnits: a transfer captured, with room and without; one that stops; and its units moved. -/
theorem witness_TransfersAreIssued :
    let s := transfers (.fput 5 6)
    s.smooth = true ∧ (s.rd 7).toNat % 32 ≠ 0 ∧ stops (transferCapture true 8 s) (fun _ => true) = true ∧
      (okay (transferCapture true 6 s) fun x => decide (x.2.unfinishedTransfers x.1.die < 64) && x.2.smooth &&
        decide (64 ≤ ({ x.2 with transfers := List.replicate 64 x.1 } : State).unfinishedTransfers x.1.die)) = true ∧
      goesTo (step s) (fun t => found (t.transfers.find? fun k => k.die == 0 && k.handle == 1 && k.status.isNone) fun k =>
        !t.frozenCtx k.ctx && (frozenJob t).frozenCtx k.ctx && (t.moveUnits k 0 (k.bytes / 8)).2.isNone &&
        (match (t.moveUnits { k with src := 0x80000000 } 0 2).2 with | some (.code ..) => true | _ => false) &&
        okay (t.resolve k.party (.mem k.src 8 .load 0)) fun r => epOf r.pa == t.endpoint && !r.e.bit 11 && !t.poisoned r.pa &&
          okay (t.loadRef k.party (.mem k.src 8 .load 0) r) fun u => u.1 == t.mem.read (r.pa % 2 ^ 43) 8 &&
            okay (u.2.resolve k.party (.mem k.dst 8 .store 0)) fun w => epOf w.pa == t.endpoint && !w.e.bit 11) = true := by
  decide +kernel

/-- RemoteRequestsAreAnswered: an address of another endpoint, a poisoned one, and one that is neither. -/
theorem witness_RemoteRequestsAreAnswered :
    let s := ready .yield []
    let bad : State := { s with mem := { s.mem with poison := [(0x20000 / 32, true)] } }
    epOf (2 ^ 43) ≠ s.endpoint ∧ epOf 0x20000 = s.endpoint ∧ windowOf 0x20000 = 0 ∧ s.poisoned 0x20000 = false ∧
      bad.poisoned 0x20000 = true ∧ remoteReads (.read 8) = true ∧ remoteReads (.write 8 1) = false := by
  decide +kernel

/-- AnswersArrive: a load that awaits its answer, a store outstanding, and an answer that says silence. -/
theorem witness_AnswersArrive :
    let i : Instr := .ldN64 5 6 0
    let sent (s : State) : State := { s with outbox := [.request 4 9 (9 * 2 ^ 43) (.read 8)], peers := [9] }
    let s := sent ((waiting i).setV fun v => { v with awaited := [(4, 0)] })
    let u := sent ((ready .yield []).setV fun v => { v with stores := [onItsWay 4] })
    let p := s.party
    s.v.frozen = false ∧ s.engineWaits = [] ∧ s.orphans = [] ∧ s.jobs = [] ∧ s.parked = [] ∧ s.v.status = .blocked i ∧
      s.v.awaited = [(4, 0)] ∧ s.v.stores = [] ∧ s.v.lateFabric = none ∧ s.sentTo 4 = some 9 ∧
      (u.v.status = .runnable ∧ u.v.awaited = [] ∧ u.v.stores = [onItsWay 4] ∧ u.v.lateFabric = none ∧ u.sentTo 4 = some 9) ∧
      p.core.isSome = true ∧ s.answers (epOf (9 * 2 ^ 43)) = true ∧
      (s.setV fun v => { v with remoteData := [(0, .silent 9)] }).answer p 0 = some (.silent 9) := by
  decide +kernel

/-- A ring record of members 0 and 1 at 0x30000, in a launch whose packages are both. -/
def ringState (i : Instr) : State :=
  let s := (ready i [(6, 0x30000), (7, 0), (8, 0x30008), (9, 5), (10, 0x30040)]).setLaunch 0 fun l => { l with npkg := 2, gang := 3 }
  { s with
    mem := s.mem.setBytes 0x30000 (bytesOf 2 7 ++ bytesOf 2 2 ++ bytesOf 12 0 ++ bytesOf 2 0 ++ bytesOf 2 1)
    gangReports := [{ ep := 1, gang := 3, npkg := 2, start := 0, rank0 := 1, nvlc := 1, total := 2 }] }

/-- The ring of that record, formed. -/
def liveRing : Ring :=
  { slot := 0, id := 7, launch := 0, pos := 0, eps := [0, 1], broken := false, flags := 0, peer := 0, round := none }

/-- RingsAreJoined: a record that is misaligned, one that is not allowed, a formation begun, refused, standing and ended. -/
theorem witness_RingsAreJoined :
    let s := ringState (.cring 5 6 7)
    (s.rd 8).toNat % 64 ≠ 0 ∧ stops (s.ringRecord (s.rd 10)) (fun _ => true) = true ∧
      (okay (s.ringRecord (s.rd 6)) fun x =>
        let u := x.2
        u.smooth && (u.ownWait 7).isNone && u.ringCode 7 (recordEps x.1) none == 0 && (u.ringOf (s.rd 9)).isNone && s.rd 9 != 0 &&
        s.rd 7 == 0 && ({ u with endpoint := 2 } : State).ringCode 7 (recordEps x.1) none == 3 &&
        ({ u with rings := [liveRing] } : State).ringCode 7 (recordEps x.1) none == 5) = true ∧
      (let w : RingWait := { id := 7, launch := 0, rank := 0, waiting := true, record := [], eps := [0, 1], old := none, outcome := some 1 };
        (({ s with ringWaits := [w] } : State).ownWait 7 = some w ∧
          ({ s with ringWaits := [{ w with outcome := none }] } : State).ownWait 7 = some { w with outcome := none })) := by
  decide +kernel

/-- RingsForm: a formation of two members that waits here. -/
theorem witness_RingsForm :
    let w : RingWait := { id := 7, launch := 0, rank := 0, waiting := true, record := [7], eps := [0, 1], old := none, outcome := none }
    let s : State := { (ringState (.cring 5 6 7)).setV (fun v => { v with status := .blocked (.cring 5 6 7) }) with ringWaits := [w] }
    s.forming 7 = some w ∧ s.jobs = [] ∧ w.waiting = true ∧ s.v.status = .blocked (.cring 5 6 7) ∧ s.v.frozen = false ∧
      s.v.launch = w.launch ∧ s.v.rank.toNat = w.rank ∧ s.smooth = true ∧ s.rings = [] ∧ s.endpoint = 0 ∧
      [0, 1].findIdx? (fun e => (if e = 0 then some w.record else (([(1, [8])] : List (Nat × List Byte)).find? fun x => x.1 == e).map (·.2)) !=
        some w.record) = some 1 ∧
      w.eps.findIdx? (fun e => e != s.endpoint && !([] : List Nat).contains e) = some 1 := by
  decide +kernel

/-- A descriptor of an ALLREDUCE of two FP32 elements at 0x32000, from 0x20000 to 0x20100, on the live ring; s7 is its handle. -/
def collState (i : Instr) (r : Ring) : State :=
  let s := ready i [(6, 0x32000), (7, r.handle), (8, 0x32008), (9, 1), (10, 0x32040), (11, 0x40000000)]
  { s with
    mem := s.mem.setBytes 0x32000 (bytesOf 8 0x20000 ++ bytesOf 8 0x20100 ++ bytesOf 8 2 ++ bytesOf 4 5 ++ bytesOf 4 100 ++
      [0, 0, 9, 0] ++ bytesOf 28 0)
    rings := [r] }

/-- A round of that ring, of the placed VLC. -/
def oneRound : Round :=
  { launch := 0, rank := 0, seq := 5, op := 0, red := 0, type := 9, count := 1, root := 0, src := [0, 0, 0x80, 0x3F],
    targets := [(.phys 0x20100, none)], done := none }

/-- RoundsBegin: the checks passed, the round opened; and each check failed. -/
theorem witness_RoundsBegin :
    let i : Instr := .coll 5 6 7
    let s := collState i liveRing
    (s.rd 8).toNat % 64 ≠ 0 ∧ (s.rd 6).toNat % 64 = 0 ∧ stops (s.capture s.party (s.rd 11) 8) (fun _ => true) = true ∧
      (okay (s.capture s.party (s.rd 6) 8) fun x =>
        let u := x.2
        u.smooth && (u.ringOf (u.rd 9)).isNone && u.ringOf (u.rd 7) == some liveRing && collType (field x.1 0x22 1) == some .f32 &&
        collOk x.1 2 .f32 && okay (u.collPages .load 0x20000 4 0 2) (fun _ => true) && okay (u.collPages .store 0x20100 4 0 2) (fun _ => true) &&
        okay (u.openRound liveRing x.1 .f32) fun _ => true) = true ∧
      (okay (s.capture s.party (s.rd 10) 8) fun x => (collType (field x.1 0x22 1)).isNone || !collOk x.1 2 .n8) = true ∧
      stops (s.collPages .load 0x3FFFFFFC 4 0 2) (fun _ => true) = true ∧
      ((collState i { liveRing with round := some oneRound }).ringOf liveRing.handle).isSome = true ∧
      ((collState i { liveRing with broken := true }).ringOf liveRing.handle).isSome = true := by
  decide +kernel

/-- RingRoundsEnd: a round with every contribution, one with a mismatch, and one that waits; a ring with no round for CABORT. -/
theorem witness_RingRoundsEnd :
    let r : Ring := { liveRing with round := some oneRound }
    let s := (collState (.coll 5 6 7) r).setV fun v => { v with status := .blocked (.coll 5 6 7) }
    let good := [(1, oneRound.params, [0, 0, 0, 0x40])]
    s.ringAt 0 = some r ∧ s.jobs = [] ∧ oneRound.done = none ∧
      (roundMismatch (roundParts r oneRound good) = none ∧ (roundParts r oneRound good).all (·.isSome) = true) ∧
      (roundMismatch (roundParts r oneRound [(1, [], [])]) = some 1) ∧
      (roundMismatch (roundParts r oneRound []) = none ∧ none ∈ roundParts r oneRound []) ∧ collType oneRound.type.toNat = some .f32 ∧
      s.v.status = .blocked (.coll 5 6 7) ∧ s.v.launch = 0 ∧ s.v.rank.toNat = 0 ∧ s.v.frozen = false ∧ s.smooth = true ∧
      s.rings.find? (fun r => r.id == 7) = some r ∧ (s.ringOf 1).isNone = true ∧
      (let u := collState (.cabort 5 7) liveRing; u.ringOf (u.rd 7) = some liveRing ∧ u.smooth = true ∧ u.v.status.resident = true ∧
        u.parked = []) ∧
      (let u := collState (.cabort 5 7) r; u.ringOf (u.rd 7) = some r ∧ u.smooth = true ∧ u.v.status = .runnable ∧ u.jobs = []) := by
  decide +kernel

/-- R364: the contributions 1.0, 2^24 and 1.0 add up to 16777216 in ring order. -/
theorem test_ring_order : reduceAt .f32 0 [[0, 0, 0x80, 0x3F], [0, 0, 0x80, 0x4B], [0, 0, 0x80, 0x3F]] 0 = 0x4B800000 := by
  decide +kernel


/-! ### Save areas -/

/-- A supervisor VLC that took PREEMPT at a grant, its translations cached, s6 naming 0x40000; memory holds the given bytes only. -/
def cached (cells : List Host.Cell) : State :=
  let e : TlbEntry := { ctx := 0, size := 30, vpn := 0, pte := 0x17F, addr := 0x3000, key := none }
  { State.reset with
    v := { ((placeVlc.setS 6 0x40000).setS 7 0x40008) with level := .supervisor, tileOwner := false, tcause := { placeVlc.tcause with cls := 12 } }
    cores := [(0, { Core.reset with tlb := [e] })]
    dies := [(0, { Die.reset with tlb := [e] })]
    launches := [placeLaunch]
    mem := { cells := cells, poison := [], tags := [], checks := [] } }

/-- The bytes of an area at 0x40000 that are not 0: saved at a grant and inside a strip, on core 0 and lane clusters 0 to 3, declaration 3, VT
FP64, TPC 0x10000. -/
def areaCells : List Host.Cell :=
  [(0x40000, 0x56), (0x40001, 0x53), (0x40002, 0x41), (0x40003, 0x56), (0x40004, 1), (0x40006, 3), (0x4000A, 15), (0x4000B, 3), (0x40110, 8),
   (0x4018A, 1)]

/-- AreasAreSavedAndRestored: the save that completes. -/
theorem witness_AreasAreSaved :
    (let s := cached []
     okay (s.loadSpan s.party (s.v.block + 0x100) 32) fun x =>
       let r := x.2.saveArea x.2.party x.2.v.atGrant x.1 (s.rd 6)
       r.2.isNone && r.1.smooth) = true := by
  decide +kernel

/-- AreasAreSavedAndRestored: the restoration that completes. -/
theorem witness_AreasAreRestored :
    (let s := cached areaCells
     okay (s.restoreArea s.party (s.rd 6)) fun x => x.2.smooth) = true := by
  decide +kernel

/-- AreasAreSavedAndRestored: a save that stops at its reads or at its writes, a header that is no header, and a misaligned area. -/
theorem witness_AreasThatStop :
    let s := cached []
    s.v.level = .supervisor ∧ s.v.stepOnce = false ∧ (s.rd 6).toNat % 4096 = 0 ∧ (s.rd 7).toNat % 4096 ≠ 0 ∧
      (let u := s.setV fun v => { v with tvec := 0x200000 }; stops (u.loadSpan u.party (u.v.block + 0x100) 32) fun _ => true) = true ∧
      (okay (s.loadSpan s.party (s.v.block + 0x100) 32) fun x => (x.2.saveArea x.2.party true x.1 0x40000000).2.isSome) = true ∧
      (okay (s.readHeader s.party (s.rd 6)) fun x => x.1.bad s.v) = true := by
  decide +kernel

/-- AreasReadBack: a stream, an arrival and a slot. -/
theorem witness_AreasReadBack :
    let q := { Stream.unbound with kind := .pattern, ndim := 1, cursor := 5, pos := 7, unit := 2 ^ 3 }
    let o := { OSlot.free with st := .part 9, type := 8, spar := 1, rows := 32, cols := 16 }
    let a : Area :=
      { header := 0, sprs := 0, hwm := 0, sregs := 0, streams := 0, masks := 0, slotWords := o.word.toNat, wick := 0, poison := 0,
        vecs := [], accs := 0, slots := 0 }
    (q.kind = .pattern ∧ q.topo = none ∧ q.ndim < 256 ∧ q.cursor < 2 ^ 32 ∧ q.pos < 2 ^ 64 ∧ q.unit = 2 ^ 3) ∧
      wordAt a.slotWords 0 = o.word.toNat ∧ a.flag 0 = false ∧ o.rows < 2 ^ 15 ∧ o.cols < 2 ^ 16 ∧ o.st.mark < 2 ^ 15 ∧ o.st ≠ .free := by
  decide +kernel

/-! ### Queues and launches -/

/-- Queue 3 enabled, holding `n` records. -/
def queued (s : State) (n : Nat) : State :=
  { s with queues := [(3, { Queue.reset with en := true, recs := List.replicate n (bytesOf 128 0, none) })] }

/-- PostedWritesEnqueueRecords, QueuesTakeRecords: an enabled queue, a full one and a disabled one; a write elsewhere. -/
theorem witness_PostedWritesEnqueueRecords :
    let s := queued (ready (.launch 5 6 7) [(6, 0x30000), (7, 3), (8, 0x30040), (9, 0x40000000)]) 0
    let full := queued s 8
    (3 * 4096) % 4096 = 0 ∧ (bytesOf 128 0).length = 128 ∧ (s.queue 3).en = true ∧ (s.queue 3).recs.length < 8 ∧ (s.queue 3).recs = [] ∧
      8 ≤ (full.queue 3).recs.length ∧ (s.queue 4).en = false ∧ (3 * 4096 + 8) % 4096 ≠ 0 ∧
      (0x8000000000000000 : BitVec 64).getLsbD 63 = true ∧ (0 : BitVec 64).getLsbD 63 = false ∧
      (s.rd 8).toNat % 128 ≠ 0 ∧ (s.rd 6).toNat % 128 = 0 ∧ stops (s.capture s.party (s.rd 9) 16) (fun _ => true) = true ∧
      (okay (s.capture s.party (s.rd 6) 16) fun x => x.2.smooth && x.2.v.stores == [] && decide ((x.2.rd 7).toNat ≤ 65535) &&
        (x.2.queue 3).en && (x.2.queue 3).ctx.toNat == x.2.v.ctx && decide ((x.2.queue 3).recs.length < 8) &&
        decide (8 ≤ ((queued x.2 8).queue 3).recs.length) && !(x.2.queue 4).en &&
        ((x.2.setV fun v => { v with stores := [onItsWay 4] }).v.stores != [])) = true := by
  decide +kernel

/-- A record of one VLC at level 0 whose kernel header lies at 0x30000, with one wait word at 0x31000 and its signal word at 0x31040. -/
def goodRecord : List Byte :=
  bytesOf 8 0x30000 ++ bytesOf 16 0 ++ bytesOf 4 1 ++ [0, 0, 0, 0x81] ++ bytesOf 8 0x31000 ++ bytesOf 8 5 ++ bytesOf 48 0 ++ bytesOf 8 0x31040 ++
    bytesOf 20 0 ++ bytesOf 4 1

/-- Queue 3 with that record, and the kernel in memory: 256 bytes of code. -/
def launching (x : Nat) : State :=
  let s := ready .yield []
  let header := bytesOf 4 0x494B4854 ++ bytesOf 2 1 ++ bytesOf 26 0 ++ bytesOf 8 0x100 ++ bytesOf 40 0 ++ bytesOf 8 0x100 ++ bytesOf 40 0
  { s with
    queues := [(3, { Queue.reset with en := true, recs := [(goodRecord, none)] })]
    nextLaunch := 7
    mem := (s.mem.setBytes 0x30000 header).setBytes 0x31000 (bytesOf 8 x) }

/-- Its launch, as the record gives it. -/
def waitingLaunch : Launch := { (launching 0).launchOf 3 goodRecord none with entry := 0x30000 }

/-- RecordsAreChecked: a bad record, one whose kernel is no kernel, a good one, and the wait word that holds, does not hold yet, and
tells a failure. -/
theorem witness_RecordsAreChecked :
    let s := launching 0
    let l := s.launchOf 3 goodRecord none
    let with' (x : Nat) : State := { launching x with launches := [waitingLaunch] }
    (s.queue 3).recs = [(goodRecord, none)] ∧ (s.queue 3).head = none ∧ (s.queue 4).recs = [] ∧ badRecord goodRecord = false ∧ badRecord (bytesOf 128 0) = true ∧
      (okay (s.checkLaunch goodRecord l) fun x => (match x.1 with | .good k => k.entry == 0x30000 | .fail _ => false) && x.2.v == s.v) = true ∧
      (let u : State := { s with mem := s.mem.setBytes 0x30000 (bytesOf 4 0) };
        okay (u.checkLaunch goodRecord l) fun x => x.1 == .fail 3 && x.2.v == u.v && x.2.mem == u.mem && x.2.queues == u.queues &&
          x.2.nextLaunch == u.nextLaunch) = true ∧
      (with' 0).launch 7 = some waitingLaunch ∧ waitingLaunch.phase = .waiting ∧
      [(0, some false), (5, some true), (2 ^ 63, none)].all (fun x =>
        okay ((with' x.1).readWaits waitingLaunch.party waitingLaunch.waits) fun y => y.1 == x.2 && y.2.launches == [waitingLaunch]) = true := by
  decide +kernel

/-- LaunchesComplete: a launch that runs, one that has ended, and its signal word. -/
theorem witness_LaunchesComplete :
    let s := ready .yield []
    let l := { placeLaunch with ended := [0] }
    let m := { l with sig := some 0x31040 }
    let w (l : Launch) : State := { s with launches := [l] }
    (w placeLaunch).launch 0 = some placeLaunch ∧ placeLaunch.npkg ≤ 1 ∧ placeLaunch.phase ≠ .done ∧ placeLaunch.allEnded = false ∧
      (w l).launch 0 = some l ∧ l.phase = .running ∧ l.allEnded = true ∧ l.sig = none ∧
      (w m).launch 0 = some m ∧ m.sig = some 0x31040 ∧ (0x31040 : Word).toNat % 8 = 0 ∧ m.rank0 = 0 ∧
      okay (((w m).setLaunch 0 fun x => { x with phase := .done }).rmw m.party (.mem 0x31040 8 .rmw 0) (atomicKey 0 0)
        (.amo .add 8 1) (fun o => (o + 1) % 2 ^ 64)) (fun _ => true) = true := by
  decide +kernel

/-- LaunchesArePlaced: nothing ready, and one ready launch that fits. -/
theorem witness_LaunchesArePlaced :
    let l := { waitingLaunch with phase := .ready }
    let s := { launching 5 with launches := [placeLaunch, l], queues := [(3, { Queue.reset with en := true, recs := [(goodRecord, none)], head := some 7 })] }
    (launching 5).ready = [] ∧ (launching 5).reservation = none ∧ s.ready = [l] ∧ s.reservation = none ∧ s.resumeFloor ≤ l.prio ∧ l.prio < 8 ∧
      l.nvlc ≤ (s.queue l.queue).deficit + 256 := by
  decide +kernel

theorem witness_LaunchesArePlaced_plan :
    (let l := { waitingLaunch with phase := .ready }
     let s := { launching 5 with launches := [placeLaunch, l], queues := [(3, { Queue.reset with en := true, recs := [(goodRecord, none)], head := some 7 })] }
     found (s.plan [] l) fun c => c.length == 1) = true := by
  decide +kernel

/-! ### Resumed and ended VLCs -/

/-- The VLC of `cached` released to 0x40000, off its core. -/
def releasedState (cells : List Host.Cell) (st : VlcStatus) : State :=
  let s := cached cells
  { s with v := Vlc.absent, parked := [{ s.v with status := st }] }

/-- VlcsAreResumed: a VLC released to the address, with a header and without; one that is placeable now; an address of none. -/
theorem witness_VlcsAreResumed :
    let s := releasedState areaCells (.released 0x40000)
    let x : BitVec 64 := 0x40000
    x.toNat / 4096 * 4096 ≠ 0 ∧ x.getLsbD 0 = false ∧ s.releasedAt 1 0x40000 = none ∧
      found (s.releasedAt 0 0x40000) (fun v => okay (s.loadSpan v.areaParty 0x40000 32) fun h => h.2.v == s.v && h.2.parked == s.parked &&
        bitsOf h.1 31 0 == 0x56415356 && bitsOf h.1 47 32 == 1 && bitsOf h.1 63 51 == 0 && bitsOf h.1 127 96 == 0 && bitsOf h.1 253 240 == 0 &&
        decide (h.1 < 2 ^ 256) && bitsOf h.1 50 50 == 0 && !v.tileOwner) = true ∧
      (let u := releasedState [] (.released 0x40000);
        found (u.releasedAt 0 0x40000) fun v => okay (u.loadSpan v.areaParty 0x40000 32) fun h => bitsOf h.1 31 0 != 0x56415356) = true ∧
      s.nextResume.isNone = true := by
  decide +kernel

/-- VlcsAreResumed: placeable VLCs, saved at a grant and inside a strip. -/
theorem witness_VlcsArePlaceable :
    let s := releasedState areaCells (.placeable 0x40000 none)
    let t := releasedState areaCells (.placeable 0x40000 (some { core := 0, lc := 15, vl := 0, w := 3, spread := false }))
    s.nextResume.isSome = true ∧ found t.nextResume (fun x => x.1.seat.isSome) = true := by
  decide +kernel

/-- What the area of `cached` restores. -/
theorem restored : (okay ((cached areaCells).restoreArea (cached areaCells).v.areaParty 0x40000) fun x => !x.2.v.tpc.getLsbD 0) = true := by
  decide +kernel

/-- A VLC whose area is restored is resumed. -/
theorem resumes (s : State) (b : Nat) (h : (okay (s.restoreArea s.v.areaParty (BitVec.ofNat 64 b)) fun x => !x.2.v.tpc.getLsbD 0) = true) :
    ∃ u, s.resumeHere b = .ok u := by
  revert h
  unfold State.resumeHere okay
  cases s.restoreArea s.v.areaParty (BitVec.ofNat 64 b) <;> simp

/-- VlcsAreResumed: an area that restores. -/
theorem witness_AreasAreResumed : ∃ u, (cached areaCells).resumeHere 0x40000 = .ok u := resumes _ _ restored

/-- VlcsAreEnded: a VLC that is about to run, one that waits, none, and a released one. -/
theorem witness_VlcsAreEnded :
    let s := cached []
    let w := waiting (.bar 5)
    let r := releasedState [] (.released 0x40000)
    let x : BitVec 64 := 0
    let y : BitVec 64 := 0x40200
    x.getLsbD 9 = false ∧ s.v.isAt 0 0 = true ∧ s.v.status = .runnable ∧ s.v.frozen = false ∧ (s.bring (·.isAt 0 1)).isNone = true ∧
      w.vlcs.all (fun v => !v.isAt 0 0 || !v.running) = true ∧
      found (w.bring (·.isAt 0 0)) (fun t => t.v.lateFabric.isNone && (t.launch t.v.launch).isSome) = true ∧
      y.getLsbD 9 = true ∧ found (r.bring fun v => v.savedAt (y.toNat / 4096 * 4096) && dieOf v.core == 0) (fun t => t.v.lateFabric.isNone) = true := by
  decide +kernel

/-- GangsStart: a gang of two packages, held and whole, and the same without its second report. -/
theorem witness_GangsStart :
    let l := { placeLaunch with gang := 3, npkg := 2, start := 20000, total := 2, phase := .held }
    let g (ep rank0 : Nat) : GangReport := { ep := ep, gang := 3, npkg := 2, start := 20000, rank0 := rank0, nvlc := 1, total := 2 }
    let s : State := { (ready .yield []).setV (fun v => { v with status := .held }) with launches := [l], gangReports := [g 0 0, g 1 1], beacon := 100 }
    let u : State := { s with gangReports := [g 0 0] }
    s.launch 0 = some l ∧ l.phase = .held ∧ s.gangWhole l = true ∧ u.gangWhole l = false ∧ s.frozenCtx l.ctx = false ∧ 1 < l.npkg ∧
      s.beacon.toNat + 5000 < (20000 : BitVec 64).toNat ∧ (5100 : BitVec 64).toNat ≤ s.beacon.toNat + 5000 ∧
      s.launches.find? (fun l => l.gang == 3 && decide (1 < l.npkg)) = some l ∧ s.v.launch = 0 ∧ s.v.status = .held := by
  decide +kernel

/-! ### The stacks -/

/-- FormatsClearTheirRegions: a format of a region, one refused, one that BUSY turns away; the first region of a wick row group. -/
theorem witness_FormatsClearTheirRegions :
    let s := ready .yield []
    let x : BitVec 64 := 0x2000000000400005
    let y : BitVec 64 := 0x2000000000C00005
    let w : BitVec 64 := 0x2000000000600000
    (s.die 0).drfmtBusy = false ∧ x.getLsbD 61 = true ∧ x.extractLsb' 22 2 = 1 ∧ x.getLsbD 21 = false ∧ y.extractLsb' 22 2 = 3 ∧
      w.getLsbD 21 = true ∧ w.extractLsb' 22 2 = 1 ∧ groupRegions 0 ≠ [] ∧ (0 : BitVec 64).getLsbD 61 = false ∧
      ((s.setDie 0 fun d => { d with drfmtBusy := true }).die 0).drfmtBusy = true := by
  decide +kernel

/-- R282: a format clears a byte of its region and leaves the next region's. -/
theorem test_format : goesTo (exec (.drfmtSpread 0 0x2000000000400005) { State.reset with mem := (Memory.empty.write 0xA00000 1 7).write 0xC00000 1 9 })
    (fun t => t.mem.byte 0xA00000 == 0 && t.mem.byte 0xC00000 == 9 && (t.die 0).drfmtBusy) = true := by
  decide +kernel

/-- RefreshesArePostponed: a bank with 0 and with 8 postponed refreshes, idle and busy. -/
theorem witness_RefreshesArePostponed :
    let s := ready .yield []
    2047 < 2048 ∧ (s.refreshOf 0 4).busy = false ∧ (s.refreshOf 0 4).postponed < 8 ∧
      (let u := s.setRefresh 0 4 { postponed := 8, busy := true }; (u.refreshOf 0 4).busy = true ∧ 8 ≤ (u.refreshOf 0 4).postponed) := by
  decide +kernel

/-- RegionsSwapSlots: counts that are uneven, two spread regions, and the last piece of a swap. -/
theorem witness_RegionsSwapSlots :
    let s : State := { ready .yield [] with accesses := [(3, 100)] }
    let x : Swap := { stack := 0, r0 := 1, r1 := 2, pieces := 31 }
    uneven (s.windowCounts 0) = true ∧ s.swap = none ∧ s.swappable 0 1 = true ∧ s.swappable 0 2 = true ∧
      uneven (({ s with accesses := [] } : State).windowCounts 0) = false ∧
      ({ s with swap := some x } : State).swap = some x ∧ 32 ≤ x.pieces + 1 ∧ x.r0 < 32768 ∧ x.r1 < 32768 ∧ x.r0 ≠ x.r1 ∧
      ({ x with pieces := 30 } : Swap).pieces + 1 < 32 := by
  decide +kernel

/-- R287: two regions that swapped have each other's slot. -/
theorem test_swap : goesTo (exec .regionSwapPiece { State.reset with swap := some { stack := 0, r0 := 1, r1 := 2, pieces := 30 } })
    (fun t => slotOf 1 (t.keptRegion 0 1) == 2 && slotOf 1 (t.regionAt 0 1) == 1 && goesTo (exec .regionSwapPiece t) fun u =>
      slotOf 1 (u.regionAt 0 1) == 2 && slotOf 2 (u.regionAt 0 2) == 1) = true := by
  decide +kernel

/-- ErrorsAreNoticed: a unit of die 0's first stack, and an address of another die. -/
theorem witness_ErrorsAreNoticed :
    stackOf 0x20000 / 2 = 0 ∧ windowOf 0x20000 = 0 ∧ stackOf (2 ^ 40) / 2 ≠ 0 ∧ ((ready .yield []).die 0).hasRoom = false ∧ 15 < 16 ∧ 32767 < 32768 ∧
      stackOf 0x20000 = 0 ∧ regionNo 0x20000 = 0 := by
  decide +kernel

/-- R312: the unit that scrubbing found is poisoned, and counted. -/
theorem test_scrub : goesTo (exec (.scrubError 0 0x20000 .unit) State.reset)
    (fun t => t.poisoned 0x2003F && !t.poisoned 0x20040 && (t.die 0).lost == 1) = true := by
  decide +kernel

/-- TranslationsAreInvalidated: each kind, a busy invalidation, and a VLC with an access under way. -/
theorem witness_TranslationsAreInvalidated :
    let s := cached []
    (s.die 0).tlbinvBusy = false ∧ ((s.setDie 0 fun d => { d with tlbinvBusy := true }).die 0).tlbinvBusy = true ∧
      (0 : BitVec 64).extractLsb' 60 3 = 0 ∧ (0x3000000000000000 : BitVec 64).extractLsb' 60 3 = 3 ∧
      (0x4000000000000000 : BitVec 64).extractLsb' 60 3 = 4 ∧ s.vlcs.all (fun v => !s.holdsAccess 0 v) = true ∧ s.subqueries = [] ∧
      (let u := s.setV fun v => { v with stores := [onItsWay 4] }; u.vlcs.any (u.holdsAccess 0)) = true ∧ (s.die 0).tlb ≠ [] := by
  decide +kernel

/-- R298: an invalidation of the context empties the TLBs. -/
theorem test_tlbinv : goesTo (exec (.tlbinvContext 0 0) (cached [])) (fun t => (t.die 0).tlb == [] && (t.core 0).tlb == [] && (t.die 0).tlbinvBusy) = true := by
  decide +kernel

/-! ### The Pilot and the host -/

/-- A package that runs. -/
def booted : State := { State.reset with pilot := { Pilot.reset with boot := 3 } }

/-- PilotKeysAndRanges: arguments in and out of range, and recovery mode. -/
theorem witness_PilotKeysAndRanges :
    booted.pilot.pmbusy = false ∧ (255 : BitVec 64).toNat ≤ 255 ∧ 255 < (256 : BitVec 64).toNat ∧ booted.pilot.boot ≠ 4 ∧
      ({ booted.pilot with boot := 4 } : Pilot).boot = 4 ∧ booted.ownDram 0x1000 32 = true ∧ booted.ownDram (2 ^ 37) 32 = false ∧
      rangeOk (List.replicate 32 (0xFF : Byte)) = false := by
  decide +kernel

/-- The record of range 0 with both directions, of the 64 KiB at `base`. -/
def rangeRecord (base : Nat) : List Byte := [0, 3] ++ bytesOf 6 0 ++ bytesOf 8 base ++ bytesOf 8 base ++ bytesOf 8 0

/-- Wherever the Pilot's reserved DRAM lies, one of two records names a range outside it. -/
theorem witness_RangesAreAllowed : rangeOk (rangeRecord 0) = true ∨ rangeOk (rangeRecord (2 ^ 39)) = true := by
  have h0 : field (rangeRecord 0) 8 8 = 0 ∧ field (rangeRecord 0) 16 8 = 0 := by decide
  have h1 : field (rangeRecord (2 ^ 39)) 8 8 = 2 ^ 39 ∧ field (rangeRecord (2 ^ 39)) 16 8 = 2 ^ 39 := by decide
  have h2 : ∀ b, b = 0 ∨ b = 2 ^ 39 → field (rangeRecord b) 0 1 = 0 ∧ field (rangeRecord b) 1 1 = 3 ∧ allZero (rangeRecord b) 2 6 = true ∧
      allZero (rangeRecord b) 0x18 8 = true := by
    rintro b (rfl | rfl) <;> decide
  have h3 := Config.pilotSize.isLt
  simp only [rangeOk, h0, h1, h2 0 (.inl rfl), h2 _ (.inr rfl)]
  simp
  omega

/-- PilotIdentityAndUpdate: places inside and outside the DRAM, whatever the size of an image and whether it verifies. -/
theorem witness_PilotIdentityAndUpdate :
    booted.ownDram 0 1952 = true ∧ booted.ownDram 0 (64 + 4096) = true ∧ booted.ownDram (2 ^ 37 - 1) 1952 = false ∧
      booted.ownDram (2 ^ 37 - 1) (64 + 4096) = false ∧ (∀ n, booted.ownDram (2 ^ 40 - 8) n = false) ∧
      (∀ n, n ≤ 2 ^ 26 → booted.ownDram 0 n = true) ∧
      ({ booted with pilot := { booted.pilot with staged := some [] } } : State).pilot.staged = some [] := by
  refine ⟨by decide +kernel, by decide +kernel, by decide +kernel, by decide +kernel, fun n => ?_, fun n h => ?_, rfl⟩
  · have h : windowOf (2 ^ 40 - 8) ≠ 0 := by decide
    simp only [State.ownDram, beq_eq_false_iff_ne.mpr h, Bool.and_false, Bool.false_and]
  · have h1 : (epOf 0 == booted.endpoint) = true := by decide +kernel
    have h2 : (windowOf 0 == 0) = true := by decide
    simp [State.ownDram, h1, h2]
    omega

/-- ResetsAndBoots: each boot state, a request for recovery, and a slot that is not valid. -/
theorem witness_ResetsAndBoots :
    3 ≤ booted.pilot.boot ∧ State.reset.pilot.boot < 3 ∧ State.reset.pilot.rreq = false ∧
      ({ Pilot.reset with flashValid := false } : Pilot).verifies = false ∧ ({ Pilot.reset with rreq := true } : Pilot).rreq = true ∧
      canon Core.reset booted.cores = true ∧ 1 ≤ State.reset.pilot.step ∧ State.reset.pilot.step ≤ 3 ∧
      4 ≤ (State.reset.setPilot fun p => { p with step := 6 }).pilot.step := by
  refine ⟨by decide +kernel, by decide +kernel, by decide +kernel, rfl, rfl, by decide +kernel, by decide, by decide, by decide⟩

/-- IslandsFollowTheirLimits: a request, a stop that is ignored and one that is not, and power above and below the cap. -/
theorem witness_IslandsFollowTheirLimits :
    (21 : BitVec 64).toNat % 256 ≠ 0 ∧ booted.islandBusy 0 1 = false ∧ (ready .yield []).islandBusy 0 0 = true ∧
      ((ready .yield []).setV fun v => { v with core := 64 }).islandBusy 0 1 = true ∧
      booted.pilot.pwr.toNat ≤ booted.pilot.limit.toNat ∧ 100 * booted.pilot.pwr.toNat < 95 * booted.pilot.limit.toNat ∧
      booted.pilot.limit.toNat < ({ booted.pilot with pwr := 4000 } : Pilot).pwr.toNat := by
  decide +kernel

/-- A package that runs with two ranges of 64 KiB, at 0 and at 2^39. -/
def hosting : State :=
  let range (a : Nat) : FwRange := { r := true, w := true, base := a, limit := a }
  { booted with pilot := { booted.pilot with ranges := (booted.pilot.ranges.set 0 (range 0)).set 1 (range (2 ^ 39)) } }

/-- What the firewall says of an offset outside the reserved DRAM. -/
def ranged (s : State) (write : Bool) (off : Nat) : Bool :=
  if s.pilot.boot = 4 then decide (off < 2 ^ 26)
  else s.pilot.boot == 3 && decide (off < 2 ^ 40) && s.pilot.ranges.toList.any fun r =>
    (if write then r.w else r.r) && decide (r.base ≤ off) && decide (off < r.limit + 65536)

theorem passes_ranged (s : State) (write : Bool) (off : Nat) : s.passes write off = (!inReserved off && ranged s write off) := rfl

/-- Some four bytes of those ranges lie outside the Pilot's reserved DRAM. -/
theorem open_bytes : ∃ off, (off = 0 ∨ off = 2 ^ 39) ∧ (∀ k, k < 4 → inReserved (off + k) = false) ∧ 1 ≤ runLength off := by
  have h := Config.pilotSize.isLt
  by_cases h0 : Config.pilotBase ≤ 3
  · have a : ¬ 2 ^ 39 < Config.pilotBase := by omega
    have b : ¬ 2 ^ 39 < Config.pilotBase + Config.pilotSize.val := by omega
    exact ⟨2 ^ 39, .inr rfl, fun k _ => by simp [inReserved]; omega, by simp only [runLength, a, b, if_false]; decide⟩
  · have a : 0 < Config.pilotBase := by omega
    exact ⟨0, .inl rfl, fun k _ => by simp [inReserved]; omega, by simp only [runLength, a, if_true]; omega⟩

/-- HostsAccessTheirRanges: inside the ranges and outside them. -/
theorem witness_HostsAccessTheirRanges :
    (∃ off, (∀ k, k < 4 → hosting.passes false (off + k) = true ∧ hosting.passes true (off + k) = true ∧
      hosting.poisoned (hosting.barAddr (off + k)) = false) ∧ [(1 : Byte)].length ≤ runLength off) ∧
      (∀ k write, k < 4 → hosting.passes write (0x20000 + k) = false) ∧ hosting.pilot.boot = 3 := by
  have inside : ∀ off, off = 0 ∨ off = 2 ^ 39 → ∀ k, k < 4 → ranged hosting false (off + k) = true ∧ ranged hosting true (off + k) = true ∧
      hosting.poisoned (hosting.barAddr (off + k)) = false := by
    rintro off (rfl | rfl) <;> decide +kernel
  have outside : ∀ k, k < 4 → ∀ write, ranged hosting write (0x20000 + k) = false := by decide +kernel
  obtain ⟨off, ho, h, hr⟩ := open_bytes
  exact ⟨⟨off, fun k hk => by simp [passes_ranged, h k hk, inside off ho k hk], hr⟩,
    fun k write hk => by simp [passes_ranged, outside k hk write], rfl⟩

/-! ### The Snuff wave -/

/-- A job of one context, in a state. -/
def inState (s : State) (st : JobState) (release : BitVec 64) : State :=
  { s with
    jobs := [{ key := 9, st := st, origin := 0, release := release, causes := [], held := [.pmcmdDone], asker := none }]
    dbg := [(0, { DbgCtx.reset with job := 9 })] }

/-- WavesFreezeJobs, JobsAreReleased: a running, a freezing and a frozen job, its VLC runnable and waiting. -/
theorem witness_WavesFreezeJobs :
    let s := (inState (ready .yield []) .freezing 0).setV fun v => { v with frozen := true }
    let f := inState (ready .yield []) .frozen 50
    let w := inState (waiting (.bar 5)) .frozen 50
    (s.job 9).isSome = true ∧ s.absorbed 9 = true ∧ s.inJob 9 s.v = true ∧ (inState (ready .yield []) .running 0).jobs ≠ [] ∧
      (let u := s.setV fun v => { v with stores := [onItsWay 4] }; u.absorbed 9) = false ∧ (7 : Nat) ≠ s.endpoint ∧
      f.parked = [] ∧ f.v.status = .runnable ∧ f.v.pending = none ∧ w.v.status = .blocked (.bar 5) ∧ w.v.awaited = [] ∧
      f.v.status.resident = true ∧ ({ f with beacon := 60 } : State).beacon.toNat > (50 : BitVec 64).toNat ∧
      f.beacon.toNat ≤ (50 : BitVec 64).toNat := by
  decide +kernel

/-- DebuggersCommand: a frozen job, the VLC of core 0 and slot 0 named, and the times and addresses of its commands. -/
theorem witness_DebuggersCommand :
    let s := inState (ready .yield []) .frozen 0
    let at_ (a : BitVec 64) : State := { s with sn := { s.sn with addr := a } }
    let arg (a : BitVec 64) : State := { s with sn := { s.sn with arg := a } }
    s.isFrozen 9 = true ∧ s.isFrozen 8 = false ∧ (s.job 8).all (fun j => j.st == .running) = true ∧
      s.sn.arg.toNat < s.beacon.toNat + 10000 ∧ (arg 10000).beacon.toNat + 10000 ≤ (arg 10000).sn.arg.toNat ∧
      s.sn.arg.toNat / 2 ^ 16 % 8192 = s.endpoint ∧ s.v.isAt 0 0 = true ∧ s.inJob 9 s.v = true ∧ s.v.pending = none ∧ s.v.status = .runnable ∧
      (at_ 8).sn.addr.toNat % 4096 ≠ 0 ∧ (at_ 0x40000000).sn.addr.toNat % 4096 = 0 ∧
      (match ((at_ 0x40000000).saveArea s.v.areaParty false s.v.sregNat 0x40000000).2 with
        | some (.trap ..) => true
        | _ => false) = true := by
  decide +kernel

/-- DebuggersCommand: an area that LOAD reads. -/
theorem witness_LoadReads :
    (let s := inState (cached areaCells) .frozen 0
     okay (s.readStrip s.v.areaParty 0x40000) fun _ => true) = true := by
  decide +kernel

/-! ### Registers, and the canonical form -/

/-- RegisterWindowsReadAndWrite: registers of each kind at their addresses, and an address that names none. -/
theorem witness_RegisterWindowsReadAndWrite :
    let io := 6 * 2 ^ 37
    let hk := 7 * 2 ^ 37
    regAt (io + 0x108) = some .pmarg ∧ regAt (io + 0x500008) = some (.dbgctx 1) ∧ regAt (io + 0x400018) = some (.qtrap 1) ∧
      regAt (hk + 0x2028) = some (.wpcfg 0 1) ∧ regAt io = some .mgmtid ∧ regAt (hk + 0x1008) = some (.counter 0 0 1) ∧
      regAt (io + 0x1000) = some .pcap ∧ regAt (io + 0x510018) = some .snstat ∧ regAt (hk + 0x40) = some (.nottail 0) ∧ regAt 0 = none ∧
      (State.reset.die 0).held = [] := by
  decide +kernel

/-- StepsKeepMemoryCanonical: a state whose memory is canonical, and its step. -/
theorem witness_StepsKeepMemoryCanonical :
    let s := ready (.stN64 6 7 0) [(6, 0x123456789), (7, 0x40000)]
    s.mem.wf = true ∧ goesTo (step s) (fun t => t.mem.wf && t.mem.read 0x40000 8 != 0) = true := by
  decide +kernel

/-! ## Accesses that nothing stops -/

/-- The first gibibyte, readable, writable and executable at both levels, its A and D bits set. -/
def page : TlbEntry := { ctx := 0, size := 30, vpn := 0, pte := 0x17F, addr := 0x3000, key := none }

/-- A state whose core 0 and die 0 hold the translation of that gibibyte. -/
def paged (s : State) : State :=
  (s.setCore 0 fun c => { c with tlb := [page] }).setDie 0 fun d => { d with tlb := [page] }

/-- A party of context 0, on core 0 or of die 0, holds that translation; no watch pair is set and every region is as at reset. -/
def onPage (s : State) (p : Party) : Bool :=
  (s.core 0).tlb == [page] && (s.core 0).watch == Core.reset.watch && (s.die 0).tlb == [page] && s.regions == [] && s.endpoint == 0 &&
    p.ctx == 0 && p.die == 0 && (p.core == some 0 || p.core == none)

/-- Such a party reaches every byte of the gibibyte. -/
theorem direct_onPage {s : State} {p : Party} (hp : onPage s p = true) (a : Word) (n : Nat) (k : AccKind) (e : Nat) (hk : k ≠ .fetch)
    (ha : a.toNat < 2 ^ 30) : s.direct p (.mem a n k e) = some a.toNat := by
  simp only [onPage, Bool.and_eq_true, Bool.or_eq_true, beq_iff_eq] at hp
  obtain ⟨⟨⟨⟨⟨⟨⟨hc, hw⟩, hd⟩, hr⟩, he⟩, hx⟩, hi⟩, ho⟩ := hp
  have h1 : a.toNat / 2 ^ 30 = 0 := by omega
  have ht : s.tlb1 p = [page] ∨ p.core = none := by
    rcases ho with h | h
    · left; simp [State.tlb1, h, hc]
    · right; exact h
  have hf : tlbFind p.ctx a [page] = some page := by
    have h0 : 0 = a.toNat / 1073741824 := by omega
    simp [tlbFind, page, hx, ← h0]
  have hcached : s.cached p a = some page := by
    unfold State.cached
    rcases ho with h | h
    · simp [State.tlb1, h, hi, hc, hd, hf]
    · simp [State.tlb1, h, hi, hd, hf, show tlbFind p.ctx a [] = none from rfl]
  have hphys : page.phys a = a.toNat := by
    have h2 : bitsOf page.pte.toNat 55 16 * 2 ^ 16 / 2 ^ page.size * 2 ^ page.size = 0 := by decide
    rw [TlbEntry.phys, h2, show page.size = 30 from rfl]
    omega
  have hwatch : s.watched p k a.toNat n = false := by
    rcases ho with h | h
    · simp [State.watched, h, hw, Core.reset, Watch.hits]
    · simp [State.watched, h]
  have hregion : s.granuleOk page.gr (page.bit 10) a.toNat = true := by
    simp [State.granuleOk, State.region, hr, look]; decide
  have htag : tagKey a = 0 := by
    have h3 : a.toNat / 72057594037927936 = 0 := by omega
    simp [tagKey, bitsOf, h3]
  unfold State.direct
  simp only [Req.mem, hcached, Option.bind_some, hphys]
  rw [if_pos]
  refine ⟨htag, ?_, ?_, ?_, ?_, hregion, by decide, by decide, ?_, hwatch⟩
  · simp [canonical]; omega
  · simp [windowOf]; omega
  · simp [epOf, he]; omega
  · cases k <;> first | exact absurd rfl hk | simp [TlbEntry.permits, show page.bit 1 = true from rfl, show page.bit 2 = true from rfl, show page.bit 4 = true from rfl]
  · have h4 : ∀ w : Bool, ((page.pte ||| 0x20#64 ||| (if w then 0x40#64 else 0#64)) &&& ~~~0x80#64) = page.pte := by decide
    exact h4 (k == .store || k == .rmw)

/-- It reads every word of unpoisoned memory there. -/
theorem openWord_onPage {s : State} {p : Party} (hp : onPage s p = true) (h : s.mem.poison = [] ∧ s.mem.checks = []) (a : Word) (ha : a.toNat < 2 ^ 30) :
    s.openWord p a = some (s.mem.read a.toNat 8) := by
  have h1 : dramKey a.toNat = a.toNat := by simp only [dramKey]; omega
  have h2 : s.poisoned a.toNat = false := by simp [State.poisoned, State.mismatch, h, look]
  simp [State.openWord, direct_onPage hp a 8 .load 0 (by decide) ha, h1, h2]

/-- It accesses every aligned place there. -/
theorem opens_onPage {s : State} {p : Party} (hp : onPage s p = true) (h : s.mem.poison = [] ∧ s.mem.checks = []) (a : Word) (ha : a.toNat < 2 ^ 30) (k : AccKind)
    (hk : k ≠ .fetch) (w : Nat) (hw : a.toNat % w = 0) : s.opens p k a w :=
  ⟨hw, a.toNat, direct_onPage hp a w k 0 hk ha, fun _ => by simp [State.poisoned, State.mismatch, h, look]⟩

/-- It writes every run of words there. -/
theorem writable_onPage {s : State} {p : Party} (hp : onPage s p = true) (a : Word) (n : Nat) (ha : a.toNat + 8 * n < 2 ^ 30) :
    s.writable p a n := by
  intro k hk
  rw [direct_onPage hp _ 8 .store 0 (by decide)]
  · rfl
  · rw [BitVec.toNat_add, BitVec.toNat_ofNat]; omega

/-- It reads a whole save area there. -/
theorem areaOpens_onPage {s : State} {p : Party} (hp : onPage s p = true) (h : s.mem.poison = [] ∧ s.mem.checks = []) (a : Word)
    (ha : a.toNat % 4096 = 0 ∧ a.toNat < 2 ^ 29) :
    s.areaOpens p a fun k => s.mem.read (a.toNat + 8 * k) 8 := by
  refine ⟨ha.1, fun k hk => ?_⟩
  have hk : k < 135168 := hk
  have h1 : (a + BitVec.ofNat 64 (8 * k)).toNat = a.toNat + 8 * k := by
    rw [BitVec.toNat_add, BitVec.toNat_ofNat]; omega
  rw [openWord_onPage hp h _ (by omega), h1]

/-- It writes the parts of a save area there. -/
theorem areaWritable_onPage {s : State} {p : Party} (hp : onPage s p = true) (a : Word) (l : List AreaPart)
    (ha : a.toNat % 4096 = 0 ∧ a.toNat < 2 ^ 29) (hl : ∀ x ∈ l, x.off + 8 * x.words < 2 ^ 29) : s.areaWritable p a l := by
  refine ⟨ha.1, fun x hx => writable_onPage hp _ _ ?_⟩
  have := hl x hx
  rw [BitVec.toNat_add, BitVec.toNat_ofNat]; omega

/-! ## Scalar instructions that complete -/

/-- PassedChecksLetRun: a vector addition, a barrier of the only group, and a move to a special register. -/
theorem witness_PassedChecksLetRun :
    let s (i : Instr) := (ready i []).setV fun v => { v with gmemb := 0x8001 }
    [Instr.vadd .s32 0 1 2 3 false, .bar 1, .mts .fpc 6 false].all (fun i =>
      let s := s i
      !i.joins && !badVt i s && !privileged i s.v.sup && (vnames i).all (fun r => decide (r < 8 * (s.v.declEff.toNat + 1))) && !overlaps i &&
        !isTile i && !emptiesLc i s && s.v.bad == [] && s.v.stores == []) = true ∧
      (1 : BitVec 5).toNat ∈ groupsOf (s (.bar 1)).v.gmemb ∧ sprUse .fpc (s .yield).v.sup ≠ .ro := by
  decide +kernel

/-- TrapsEnterTheirHandlers, ReturnsReachTheirProgram: a handler whose block lies in the mapped gibibyte, and its return. -/
theorem witness_TrapsEnterTheirHandlers :
    let s : State := paged ((ready (.trap 100) []).setV fun v => { v with tvec := 0x100 })
    let u := above s
    s.halting .sys = false ∧ s.halting .brk = false ∧ s.v.level = .user ∧ s.v.tvec ≠ 0 ∧ s.v.stepOnce = false ∧
      (found (s.openWord s.trapParty s.v.block) fun x => x % 2 == 0 && (s.openWord s.trapParty (s.v.block + 8)).isSome) = true ∧
      (∀ k, k < 32 → (s.direct s.trapParty (.mem (s.v.block + 0x100 + BitVec.ofNat 64 (8 * k)) 8 .store 0)).isSome = true) ∧
      u.v.level = .supervisor ∧ u.v.tpc.getLsbD 0 = false ∧ u.v.bad = [] ∧ u.v.stepOnce = false ∧
      ∀ k, k < 31 → (u.openWord u.trapParty (u.v.block + 0x108 + BitVec.ofNat 64 (8 * k))).isSome = true := by
  decide +kernel

/-- ScalarLoadsFinish, ScalarStoresFinish, AtomicsFinish: at the last word of the gibibyte, and at that of cluster memory. -/
theorem witness_ScalarLoadsFinish :
    let s : State := paged (ready .yield [(6, 0x3FFFFFF8), (7, 0x3FFFF8)])
    [Instr.ldN64 5 6 0, .ldSpace .n64 .cmem 5 7].all (fun i => found (scalarLoad i s) fun x =>
      (s.spot x.2.1 (.scalar x.2.2.2 (x.1.width / 8) .load)).isSome) = true ∧
      [Instr.stN64 5 6 0, .stSpace .n64 .cmem 5 7].all (fun i => found (scalarStore i s) fun x =>
        (s.spot x.2.1 (.scalar x.2.2.2 (x.1.width / 8) .store)).isSome && (s.spaceMem x.2.1).wf) = true ∧
      s.smooth = true ∧ s.v.stores = [] ∧ s.v.remoteData = [] ∧ (s.spot .glob (.mem (s.rd 6) 8 .rmw 0)).isSome = true ∧
      (s.spot .cmem (.mem (s.rd 7) 8 .rmw 0)).isSome = true ∧ s.mem.wf = true ∧ (s.spaceMem .cmem).wf = true := by
  decide +kernel

/-- WaitsForValuesFinish: a word that meets each condition, by the first test and by one made again. -/
theorem witness_WaitsForValuesFinish :
    let s : State := paged (ready .yield [(6, 0x20000), (7, 0), (8, 1)])
    s.smooth = true ∧ s.spot .glob (.mem (s.rd 6) 8 .load 0) = some 0x20000 ∧ (s.rd 7).toNat ≤ (s.spaceMem .glob).read 0x20000 8 ∧
      (s.spaceMem .glob).read 0x20000 8 = (s.rd 7).toNat ∧ (s.spaceMem .glob).read 0x20000 8 ≠ (s.rd 8).toNat ∧
      (let i := Instr.waitv false .pod .ne 5 6 8
       let u := s.setV fun v => { v with status := .blocked i }
       u.v.status = .blocked i ∧ u.v.frozen = false ∧ u.v.awaited = [] ∧ u.smooth = true ∧
         u.spot .glob (.mem (u.rd 6) 8 .load 0) = some 0x20000) := by
  decide +kernel

/-! ## Vector instructions that complete -/

/-- ConversionsFinish: a conversion of FP32 to BF16, and one to a block-scaled type. -/
theorem witness_ConversionsFinish :
    let s := addFloats
    [Instr.vfcvt .bf16 .rne .f32 3 1 false, .vfcvt .e4m3x .fpc .f32 4 1 false].all (fun i =>
      i.wf && (decodeStop i s).isNone && (vnames i).all fun r => decide (r < 8 * (s.v.declHeld.toNat + 1))) = true ∧
      s.smooth = true ∧ s.v.vl ≤ 8192 ∧ s.v.vl * VType.f32.width ≤ 64 * s.v.mvl64 ∧ s.v.mvl64 ≤ 4096 ∧ s.v.fpc.en = 0 ∧
      (s.v.vregs[1]).poison = 0 ∧ VType.f32.isX = false ∧ VType.bf16.notX = true ∧ VType.f32.notX = true ∧ s.v.vstart ≤ 0 ∧ 0 < s.v.vl := by
  decide +kernel

/-- ScansFinish: a scan of two elements, the first the first allowed one. -/
theorem witness_ScansFinish :
    let s := addFloats
    Instr.wf (.vscan .f32 0 .sum 3 1) = true ∧ VType.f32.isF = true ∧ decodeStop (.vscan .f32 0 .sum 3 1) s = none ∧ s.smooth = true ∧
      s.v.vl ≤ 8192 ∧ s.v.vl * VType.f32.width ≤ 64 * s.v.mvl64 ∧ s.v.mvl64 ≤ 4096 ∧ (3#5).toNat < 8 * (s.v.declHeld.toNat + 1) ∧
      s.v.vstart = 0 ∧ s.v.fpc.en = 0 ∧ (s.v.vregs[1]).poison = 0 ∧ s.v.allowed 0 0 = true ∧ s.v.allowed 0 1 = true ∧
      s.v.allowed 0 8192 = false := by
  decide +kernel

/-- StreamsAreBound: a record in the mapped gibibyte. -/
theorem witness_StreamsAreBound :
    let s := paged (ready (.qset 0 6) [(6, 0x30000)])
    let u : State := { s with mem := s.mem.setBytes 0x30000 patternRecord }
    u.smooth = true ∧ u.v.spin.demoted = false ∧ (u.rd 6).toNat % 16 = 0 ∧
      (found (u.openWords u.party (u.rd 6) 16) fun r => (streamOf r).isSome) = true := by
  decide +kernel

/-- The accesses of each of the first elements of a store can be made. -/
def storable (i : Instr) (s : State) : Bool :=
  found (vecStore i s) fun x => (List.range s.v.vl).all fun k =>
    (s.v.vregs[x.2.2.1.toNat]).poison == 0 && found (x.2.2.2 k) fun l => l.all fun a => (s.eltSpot .store a).isSome

/-- Those of a load. -/
def loadable (i : Instr) (s : State) : Bool := found (vecLoad i s) fun x => (List.range s.v.vl).all fun k => (x.2.2.2 k).isSome

/-- VectorLoadsFinish, VectorStoresFinish: each form over two elements, in the scratchpad and in the lane tables, and the views of a
topology. Each element below VL is covered, the active ones among them. -/
theorem witness_VectorLoadsFinish :
    let s (i : Instr) := onPattern (vecs (ready i []) [(1, .n64, [7, 8]), (2, .n64, [1, 0])])
    [Instr.vld .n64 0 none 1 0 false, .vldx .n64 0 1 0 2 false, .vldl .n64 0 1 2 false].all (fun i =>
      (decodeStop i (s i)).isNone && loadable i (s i) && (vnames i).all fun r => decide (r < 8 * ((s i).v.declHeld.toNat + 1))) = true ∧
      [Instr.vst .n64 0 none 1 0 false, .vstx .n64 0 1 0 2 false, .vstl .n64 0 1 2 false].all (fun i =>
        (decodeStop i (s i)).isNone && storable i (s i)) = true ∧
      (let u := (s (.vld .n64 0 none 1 0 false)).setV fun v => { v with streams := v.streams.set 0 { Stream.unbound with
        kind := .topology, topo := some { die := 0, ctx := 0, mesh := 1, gen := 1, view := 0, recs := [(1, 2), (3, 4)] } } }
       (decodeStop (.vld .n64 0 none 1 0 false) u).isNone && loadable (.vld .n64 0 none 1 0 false) u) = true ∧
      (s .yield).smooth = true ∧ (s .yield).v.vl ≤ 8192 ∧ (s .yield).v.vl * VType.n64.width ≤ 64 * (s .yield).v.mvl64 ∧
      (s .yield).v.mvl64 ≤ 4096 ∧ (s .yield).v.stores = [] ∧ (s .yield).v.early = false ∧ VType.n64.notX = true ∧
      (s .yield).mem.wf = true ∧ ((s .yield).spaceMem .cmem).wf = true ∧ ((s .yield).spaceMem .spad).wf = true ∧
      ((s .yield).spaceMem .lane).wf = true := by
  decide +kernel

/-- VectorSumsFinish: two sums in the scratchpad. -/
theorem witness_VectorSumsFinish :
    let i : Instr := .vstxa .n64 0 1 0 2 false
    let s := onPattern (vecs (ready i []) [(1, .n64, [7, 8]), (2, .n64, [1, 0])])
    i.wf = true ∧ decodeStop i s = none ∧ s.smooth = true ∧ s.v.vl ≤ 8192 ∧ s.v.vl * VType.n64.width ≤ 64 * s.v.mvl64 ∧
      s.v.mvl64 ≤ 4096 ∧ VType.n64.isI = true ∧ s.v.mt ≠ .glob ∧ (s.v.vregs[1]).poison = 0 ∧
      ∀ k, k < s.v.vl → (found (s.gatherElt .n64 0 2 k) fun x => (s.eltSpot .rmw x.1).isSome) = true := by
  decide +kernel

/-- CountersAreBinned: two counters in the scratchpad. -/
theorem witness_CountersAreBinned :
    let i : Instr := .vbin .n64 0 3 1 6
    let s := onPattern (vecs (ready i [(6, 0x40)]) [(1, .n64, [7, 8])])
    let bin (k : Nat) : Elt := { space := s.v.mt, addr := s.rd 6 + BitVec.ofNat 64 (s.v.element .n64 1 k * 8), bytes := 8, elem := k,
                                 once := false, late := none }
    i.wf = true ∧ decodeStop i s = none ∧ s.smooth = true ∧ s.v.vl ≤ 8192 ∧ s.v.vl * VType.n64.width ≤ 64 * s.v.mvl64 ∧
      s.v.mvl64 ≤ 4096 ∧ s.v.mt = .spad ∧ (3#5).toNat < 8 * (s.v.declHeld.toNat + 1) ∧ (s.v.vregs[1]).poison = 0 ∧
      ∀ k, k < s.v.vl → (s.eltSpot .rmw (bin k)).isSome = true := by
  decide +kernel

/-- A pattern of two chunk entries in the scratchpad, chunks from 0x100. -/
def onChunks (s : State) : State :=
  (s.setV fun v => { v with mt := .spad, streams := v.streams.set 0 { Stream.unbound with
    kind := .pattern, ndim := 1, bounds := #v[2, 0, 0, 0, 0, 0], strides := #v[4, 0, 0, 0, 0, 0], aux := 0x100 } }).setCore 0
    fun c => { c with spad := c.spad.write 0x100 1 2 }

/-- ChunkLoadsFinish, ChunkStoresFinish: a group of two elements, of which the chunk holds the second. -/
theorem witness_ChunkLoadsFinish :
    let i : Instr := .vldbpc .n64 1 3 0 false
    let j : Instr := .vstbpc .n64 0 1 0 false
    let s (i : Instr) := onChunks (vecs (ready i []) [(1, .n64, [7, 8])])
    let u := s j
    i.wf = true ∧ j.wf = true ∧ decodeStop i (s i) = none ∧ decodeStop j u = none ∧ u.smooth = true ∧ 0 < u.v.vl ∧ u.v.vl ≤ 8192 ∧
      u.v.vl * VType.n64.width ≤ 64 * u.v.mvl64 ∧ u.v.mvl64 ≤ 4096 ∧ (3#5).toNat < 8 * (u.v.declHeld.toNat + 1) ∧
      (∀ k, k < (s i).v.vl → ((s i).chunkLoad .n64 0 k).isSome = true) ∧ (u.v.streams[0]).kind = .pattern ∧
      (u.v.vregs[1]).poison = 0 ∧
      (∀ k ∈ u.v.groupStarts, (u.v.streams[0]).pos + k / 128 < (u.v.streams[0]).extent ∧
        u.v.cursorAt .n64 0 0 k + chunkUnits .n64 (u.v.groupSize 0 k) ≤ 2 ^ 32 ∧
        ∀ a ∈ u.chunkElts .n64 0 0 k, (u.eltSpot .store a).isSome = true) := by
  decide +kernel

/-- VoxelInstructionsFinish: two keys of an empty table. -/
theorem witness_VoxelInstructionsFinish :
    let s (i : Instr) := (vecs (ready i [(6, 0x100)]) [(1, .n64, [7, 8]), (3, .n64, [1, 2])]).setCore 0
      fun c => { c with spad := (c.spad.write 0x100 1 4).write 0x101 1 1 }
    let u := s .yield
    [Instr.vhash 0 3 1 6, .vhlook 0 3 1 6, .vhins 0 3 1 6].all (fun i => (decodeStop i (s i)).isNone) = true ∧
      (u.voxel (u.rd 6)).isSome = true ∧ u.smooth = true ∧ u.v.vl ≤ 8192 ∧ u.v.vl ≤ u.v.mvl64 ∧ u.v.mvl64 ≤ 4096 ∧
      (3#5).toNat < 8 * (u.v.declHeld.toNat + 1) ∧ (u.v.vregs[1]).poison = 0 ∧ (u.v.vregs[3]).poison = 0 := by
  decide +kernel

/-- TileLoadsFinish: a dense tile of values, and one of metadata. -/
theorem witness_TileLoadsFinish :
    let s (i : Instr) := onTile (ready i []) 4 0
    let loads (t : VType) (sp : Spar) : Bool :=
      let i : Instr := .tld t sp 0 0
      let q := (s i).v.streams[0]
      let f := tldForm t sp 2
      (decodeStop i (s i)).isNone && (s i).smooth && (s i).v.tilepos == 0 && (s i).oslot 0 != OSlot.free && q.kind == .tile &&
        (s i).v.mt != .lane && q.ndim == 2 && decide (tileBytes t sp 4 f ≤ 16384) &&
        (List.range q.extent).all fun p => ((s i).tileElts t sp q p).all fun a => ((s i).eltLoad a).isSome
    loads .f64 .dense = true ∧ metaOk .dense 0 := by
  exact ⟨by decide +kernel, trivial⟩

/-- PortsFinish: two accumulator words of a granted shape. -/
theorem witness_PortsFinish :
    let s (i : Instr) := (vecs (ready i []) [(1, .f64, [7, 8])]).setV fun v => { v with tsmM := 4, tsn := 8 }
    let u := s .yield
    [Instr.text .f64 0 0 .f64 1 false, .tinj .f64 0 0 .f64 1 false].all (fun i => i.wf && (decodeStop i (s i)).isNone) = true ∧
      u.smooth = true ∧ u.v.vl ≤ 8192 ∧ u.v.vl * VType.f64.width ≤ 64 * u.v.mvl64 ∧ u.v.mvl64 ≤ 4096 ∧ u.v.tsmM ≠ 0 ∧
      u.v.acur + u.v.vl ≤ u.v.tsmM.toNat * u.v.tsn.toNat ∧ u.v.tsn.toNat ≤ 16 * (clustersOf u.v.lc).length ∧
      u.v.tsmM.toNat ≤ 512 / accBytes .f64 ∧ (1#5).toNat < 8 * (u.v.declHeld.toNat + 1) ∧ (u.acc 0).poison = 0 ∧
      (u.v.vregs[1]).poison = 0 := by
  decide +kernel

/-! ## Convoys, waits and commands that complete -/

/-- ConvoysFinish: scalar members alone, and a vector addition with one. -/
theorem witness_ConvoysFinish :
    let s := vecs (ready .yield [(5, 7)]) [(1, .n64, [5, 6, 7]), (2, .n64, [1, 1, 1])]
    let join (l : List Instr) (p : List Joined → Bool) : Bool := okay (joinAll s [] (placed s.v.pc (wordsOf l))) p
    join [.add 6 5 5 false, .sub 7 5 5 true] (fun l => l.all fun m => m.i.role == .scalar && (scalarResult m.i s).isSome) = true ∧
      join [.vadd .n64 0 3 1 2 false, .add 6 5 5 true] (fun l => (l.filter fun m => m.i.role == .scalar).length == 1 && l.any fun m =>
        found (vecOp m.i s) fun o => decide (s.v.vl * o.t.width ≤ 64 * s.v.mvl64) && decide (o.d.toNat < 8 * (s.v.declHeld.toNat + 1)) &&
          (List.range s.v.vl).all fun k => (o.reads k).all fun r => (s.v.vregs[r.toNat]).poison == 0) = true ∧
      s.smooth = true ∧ s.v.vl ≤ 8192 ∧ s.v.mvl64 ≤ 4096 ∧ s.v.fpc.en = 0 := by
  decide +kernel

/-- WakesComplete: a grant whose rows are free, a publication of a copy that has ended, a status claimed, and a triple received. -/
theorem witness_WakesComplete :
    let g := waiting (.setvl 4 3)
    let blocked (i : Instr) (s : State) : State := s.setV fun v => { v with status := .blocked i }
    let q := blocked (.wqrecv 1 6 29) ((holding (.wqrecv 1 6 29) (some oneTriple)).setV fun v => { v with mvl64 := 4096 })
    (g.v.preempt = false ∧ g.v.stores = [] ∧ g.rowsFree g.v.declPend (g.entitled g.nextLc g.v.declPend) = true ∧
      g.v.status = .blocked (.setvl 4 3) ∧ g.v.frozen = false ∧ g.v.awaited = [] ∧ g.smooth = true) ∧
    copied (fun s => goesTo (exec (.cpyCommandEnd 0 1) s) fun t =>
      let u := blocked (.publ .pod 9) t
      let w := blocked (.cwait 5 5 0) t
      u.v.status == .blocked (.publ .pod 9) && u.smooth && u.v.stores == [] && !u.v.frozen && u.v.awaited == [] &&
        (u.commands.filter fun c => c.launch == u.v.launch && c.rank == u.v.rank.toNat && !c.settled && c.target == (u.rd 9).toNat &&
          c.kind != .mghost).all (fun c => c.status == some 0 && c.tags == [] && c.shadow.all fun h => match h.place with
            | .phys _ => false | .cmem .. => true | .spad .. => true) &&
        w.smooth && found (w.claimable (w.rd 5).toNat) fun x => x.isSome) = true ∧
    (Instr.wf (.wqrecv 1 6 29) = true ∧ q.v.status = .blocked (.wqrecv 1 6 29) ∧ q.smooth = true ∧ q.rd 6 ≠ 0 ∧ q.rd 6 ∈ q.v.wickTags.toList ∧
      (found (q.nextTriple (q.rd 6)) fun x => x.triple == some oneTriple && oneTriple.acc.length == x.d && q.v.vl == x.d &&
        decide (0 < x.d) && decide (x.d ≤ 256)) = true ∧ q.v.wickFits = true ∧ q.v.vl * 32 ≤ 64 * q.v.mvl64 ∧ q.v.mvl64 ≤ 4096 ∧
      (1#5).toNat < 8 * (q.v.declHeld.toNat + 1)) := by
  decide +kernel

/-- IssuesFinish: the copy, and each mesh command of the record and the block of `meshState`. -/
theorem witness_IssuesFinish :
    let s := paged (copies (.cpy 5 6 7))
    let m := paged ((meshState .yield).wr 8 0x53000)
    s.smooth = true ∧ s.v.stores = [] ∧ s.v.spin.demoted = false ∧ (s.rd 6).toNat % 64 = 0 ∧
      (found (s.openWords s.party (s.rd 6) 8) fun r =>
        let x := CopyDesc.of r
        let stream (a : Word) : Bool := a.toNat % 16 == 0 && found (s.openWords s.party a 16) fun b => found (streamOf b) fun q =>
          decide ((s.rd 7).toNat ≤ q.extent - q.pos)
        x.ok r && x.mode == 0 && stream x.drec && stream x.srec && decide (1 ≤ (s.rd 7).toNat)) = true ∧
      s.unfinished 0 true < 64 ∧ (m.rd 8).toNat % 256 = 0 ∧ (m.rd 6).toNat % 64 = 0 ∧
      (m.openWords m.party (m.rd 8) 32).isSome = true ∧ (m.openWords m.party (m.rd 6) 8).isSome = true ∧ m.unfinished 0 false < 64 ∧
      m.smooth = true ∧ m.v.stores = [] ∧ m.v.spin.demoted = false := by
  decide +kernel

/-! ## Engines that complete -/

/-- CommandsFinish: the copy, every element of which its streams let pass. -/
theorem witness_CopiesFinish :
    copied (fun s => found (s.command 0 1) fun c => c.status.isNone && !s.frozenCtx c.ctx && c.kind == .cpy &&
      found (streamOf (c.record.take 128)) fun q => spaceOfCode (CopyDesc.of c.block).sspace == .spad &&
        spaceOfCode (CopyDesc.of c.block).dspace == .cmem && (List.range (field c.block 64 8)).all fun i =>
          let a := q.address (2 ^ (CopyDesc.of c.block).esize) (q.pos + i)
          a.toNat % 2 ^ (CopyDesc.of c.block).esize == 0 && decide (a.toNat + 2 ^ (CopyDesc.of c.block).esize ≤ 0x40000)) = true := by
  decide +kernel

/-- The record of `oneCell`, and that of its coarse cell. -/
def cellRecord : List Byte :=
  bytesOf 4 0x4853454D ++ bytesOf 2 1 ++ [2, 2, 0] ++ bytesOf 7 0 ++ bytesOf 8 9 ++ bytesOf 8 1 ++ bytesOf 8 0x50000 ++
    bytesOf 8 0x58000 ++ bytesOf 8 4 ++ bytesOf 8 0 ++ bytesOf 8 0x51000 ++ bytesOf 4 1 ++ bytesOf 180 0

def coarseRecord : List Byte :=
  bytesOf 8 4 ++ (List.replicate 4 (bytesOf 8 0xFFFFFFFF)).flatten ++ bytesOf 24 0 ++
    bytesOf 4 0 ++ bytesOf 4 1 ++ bytesOf 4 2 ++ bytesOf 4 3 ++ bytesOf 16 (2 ^ 128 - 1) ++ bytesOf 32 0

/-- A mesh record whose one coarse cell is read from the table it names. -/
theorem recordOpens_one {s : State} {p : Party} {l : Nat} {b x : List Byte} (h : recordBad b = none)
    (hn : (MeshRec.of b).ncoarse = 1) (hx : s.openWords p (MeshRec.of b).ctab 16 = some x) (hc : coarseTableOk (MeshRec.of b) [x] = true)
    (hp : (found (s.openWords p (MeshRec.of b).partab (MeshRec.of b).npart) fun t => partsOk (s.launchEps l) (partsOf t)) = true) :
    s.recordOpens p l b := by
  cases ht : s.openWords p (MeshRec.of b).partab (MeshRec.of b).npart with
  | none => simp [found, ht] at hp
  | some t =>
    refine ⟨h, [x], t, hn.symm, fun k y hy => ?_, hc, ht, by simpa [found, ht] using hp⟩
    cases k with
    | zero => simp at hy; subst hy; simpa using hx
    | succ k => simp at hy

/-- A command of one die on `oneCell`, its report at 0x60000. -/
def alone (k : CmdKind) (handle in0 in1 count param : Nat) : Command :=
  let c := refining refiner
  { c with
    kind := k, handle := handle, record := cellRecord, others := []
    block := bytesOf 8 0x60000 ++ bytesOf 8 4096 ++ bytesOf 8 in0 ++ bytesOf 8 in1 ++ bytesOf 8 0 ++ bytesOf 8 count ++ bytesOf 8 0 ++ bytesOf 8 param }

/-- A location of the point at 0x61000, a colouring, and a remap by the header at 0x62000 of the value at 0x61000. -/
def locating : Command := alone .mlocate 1 0x61000 0 1 0
def colouring : Command := alone .mcolor 2 0 0 0 0
def remapping : Command := alone .mremap 3 0x61000 0x62000 1 8

/-- Their state; the remap header has one record, which copies cell 0. -/
def standing : State :=
  let s := paged (meshState .yield)
  { s with
    commands := [locating, colouring, remapping]
    mem := s.mem.setBytes 0x62000 (bytesOf 8 1 ++ bytesOf 8 1 ++ bytesOf 24 0 ++ bytesOf 8 1 ++ bytesOf 16 0 ++ bytesOf 8 0 ++ bytesOf 8 1) }

/-- What the three commands read, and their party. -/
theorem standing_reads :
    let p := locating.party
    onPage standing p = true ∧ (standing.mem.poison = [] ∧ standing.mem.checks = []) ∧ standing.endpoint = 0 ∧
      standing.openWords p 0x50000 16 = some coarseRecord ∧
      (found (standing.openWords p 0x51000 1) fun t => partsOk (standing.launchEps 0) (partsOf t)) = true ∧
      standing.lostMesh oneCell = false ∧
      (found (standing.openWords p 0x61000 4) fun p => field p 24 4 == 0) = true ∧
      ([0, 1, 2, 3].all fun v => (standing.openWords p (0x58000 + BitVec.ofNat 64 (24 * v)) 2).isSome) = true ∧
      (found (standing.openWords p 0x62000 8) fun h => field h 0 8 == oneCell.cur.gen && field h 8 8 == 1 && field h 0x28 8 == 1) = true ∧
      (found (standing.openWords p 0x62040 2) fun w =>
        let m := Remap.of (field w 0 8) (field w 8 8)
        m.op == 0 && m.count == 1 && remapReads (Block.of remapping.block) 2 8 m 0 == [0x61000] &&
          remapWrites (Block.of remapping.block) 1 8 m 0 == [0x60000]) = true := by
  decide +kernel

/-- The commands and their checks. -/
theorem standing_commands :
    (cellRecord.length = 256 ∧ recordBad cellRecord = none ∧ (MeshRec.of cellRecord).ncoarse = 1 ∧
      coarseTableOk (MeshRec.of cellRecord) [coarseRecord] = true ∧ (MeshRec.of cellRecord).ctab = 0x50000 ∧
      (MeshRec.of cellRecord).partab = 0x51000 ∧ (MeshRec.of cellRecord).npart = 1) ∧
      [locating, colouring, remapping].all (fun c => (c.blockBad (0, 0)).isNone && c.party == { locating.party with owner := c.party.owner } &&
        standing.command 0 c.handle == some c && c.status.isNone && !standing.frozenCtx c.ctx && onPage standing c.party) = true ∧
      8 * (136 + 2 * ((oneCell.records oneCell.cur (0, 0)).filter (·.pri)).length) ≤ 4096 ∧
      (Block.of locating.block).out = 0x60000 ∧ (Block.of locating.block).size = 4096 ∧ (Block.of colouring.block).out = 0x60000 ∧
      (Block.of colouring.block).size = 4096 := by
  decide +kernel

/-- CommandsFinish: the reports of the location and the colouring, and the accesses of the remap. -/
theorem witness_CommandsFinish :
    standing.reportOpens locating 10 ∧
      standing.reportOpens colouring (136 + 2 * ((oneCell.records oneCell.cur (0, 0)).filter (·.pri)).length) ∧
      standing.opens remapping.party .load 0x61000 8 ∧ standing.opens remapping.party .store 0x60000 8 ∧
      standing.recordOpens locating.party 0 cellRecord := by
  obtain ⟨-, hm, -, hx, hp, -⟩ := standing_reads
  obtain ⟨⟨-, hb, hn, hc, h1, h2, h3⟩, ha, hk, o1, z1, o2, z2⟩ := standing_commands
  simp only [List.all_cons, List.all_nil, Bool.and_eq_true, Bool.and_true] at ha
  obtain ⟨⟨-, pl⟩, ⟨-, pc⟩, -, pr⟩ := ha
  have room (c : Command) (n : Nat) (hc : onPage standing c.party = true) (ho : (Block.of c.block).out = 0x60000)
      (hz : (Block.of c.block).size = 4096) (hn : 8 * n ≤ 4096) : standing.reportOpens c n := by
    refine ⟨by omega, fun j hj => ?_⟩
    have ha : ((Block.of c.block).out + BitVec.ofNat 64 (8 * j)).toNat = 0x60000 + 8 * j := by
      rw [ho, BitVec.toNat_add, BitVec.toNat_ofNat, show (0x60000 : Word).toNat = 0x60000 from rfl]; omega
    exact opens_onPage hc hm _ (by omega) .store (by decide) 8 (by omega)
  exact ⟨room _ _ pl o1 z1 (by omega), room _ _ pc o2 z2 hk, opens_onPage pr hm _ (by decide) .load (by decide) 8 (by decide),
    opens_onPage pr hm _ (by decide) .store (by decide) 8 (by decide), recordOpens_one hb hn (by rw [h1]; exact hx) hc (by rw [h2, h3]; exact hp)⟩

/-- BindingsFinish: the query captured, and its mesh held when the binding is made. -/
theorem witness_BindingsFinish :
    let s := paged (meshState (.mnbr 2 6 7))
    (s.smooth = true ∧ s.v.spin.demoted = false ∧ (s.rd 6).toNat % 64 = 0 ∧
      (found (s.openWords s.party (s.rd 6) 8) fun q => field q 0 8 % 256 == 0 &&
        found (s.openWords s.party (BitVec.ofNat 64 (field q 0 8)) 32) fun r => r == cellRecord &&
          queryFail (s.nbrCommand q r).block true (some { oneCell with lost := s.lostMesh oneCell }) (s.endpoint, s.v.core / 128) == 0 &&
          (s.nbrCommand q r).mesh == some oneCell && (s.nbrCommand q r).record == r) = true) ∧
      (let u := s.setV fun v => { v with status := .blocked (.mnbr 2 6 7) }
       let p := { u.party with core := none, watch := false, owner := u.nbrOwner }
       u.v.status = .blocked (.mnbr 2 6 7) ∧ u.v.frozen = false ∧ u.v.awaited = [] ∧ u.smooth = true ∧
         u.openWords p 0x50000 16 = some coarseRecord ∧
         (found (u.openWords p 0x51000 1) fun t => partsOk (u.launchEps u.v.launch) (partsOf t)) = true) := by
  decide +kernel

/-- BindingsFinish: its record. -/
theorem witness_BindingsFinish_record :
    let u := (paged (meshState (.mnbr 2 6 7))).setV fun v => { v with status := .blocked (.mnbr 2 6 7) }
    u.recordOpens { u.party with core := none, watch := false, owner := u.nbrOwner } u.v.launch cellRecord := by
  obtain ⟨⟨-, hb, hn, hc, h1, h2, h3⟩, -⟩ := standing_commands
  obtain ⟨-, -, -, -, -, hx, hp⟩ := witness_BindingsFinish
  exact recordOpens_one hb hn (by rw [h1]; exact hx) hc (by rw [h2, h3]; exact hp)

/-- A state of `onRun` whose core holds both its pages, the gibibyte and the wick page. -/
def onWick (i : Instr) : State :=
  let s := onRun i
  let wick : TlbEntry := { ctx := 0, size := 21, vpn := 0x80000000 / 2 ^ 21, pte := 0x8000057F, addr := 0, key := none }
  (s.setCore 0 fun c => { c with tlb := [page, wick] }).setDie 0 fun d => { d with tlb := [page, wick] }

/-- WickInstructionsFinish: a query over the run's one block, and a pair appended as its first token. -/
theorem witness_WickInstructionsFinish :
    let i : Instr := .wqpost 5 1 6
    let j : Instr := .wkvapp 1 6 2
    let s := onWick i
    let u := onWick j
    s.smooth = true ∧ u.smooth = true ∧ s.v.spin.demoted = false ∧ (s.rd 6).toNat % 64 = 0 ∧
      (found (s.openWords s.party (s.rd 6) 8) fun b =>
        let r := RunRec.of b
        runOk b && decide (s.v.vl = r.d) && decide ((s.rd 7).toNat ≤ 64 * r.nblk) && r.btab == 0x31000 && r.rowt == 0x0B &&
          okay (u.pairOf r 1 2) fun _ => true) = true ∧
      decodeStop i s = none ∧ s.v.wickFits = true ∧ s.v.freeTag = some 0 ∧ s.openWord s.party 0x31000 = some 0x80000000 ∧
      (s.wickSpot (.mem 0x80000000 1 .load 0) 0x80000000).isSome = true ∧ s.v.vl * 16 ≤ 64 * s.v.mvl64 ∧ s.v.mvl64 ≤ 4096 ∧
      (s.v.vregs[1]).poison = 0 ∧ s.subqueries = [] ∧
      decodeStop j u = none ∧ u.v.append = none ∧ u.v.remoteData = [] ∧ u.openWord u.party 0x30010 = some 0 ∧
      u.openWord u.party 0x31000 = some 0x80000000 ∧ (u.wickSpot (.mem 0x80000000 64 .store 0) 0x80000000).isSome = true ∧
      (found (u.direct u.party (.mem 0x30010 8 .rmw 0)) fun a => !u.poisoned a) = true ∧ u.mem.wf = true := by
  decide +kernel

/-- TransfersFinish: a transfer issued, and the accesses of its two units. -/
theorem witness_TransfersFinish :
    let s := paged (transfers (.fput 5 6))
    (s.smooth = true ∧ s.v.stores = [] ∧ s.v.spin.demoted = false ∧ (s.rd 6).toNat % 32 = 0 ∧
      (found (s.openWords s.party (s.rd 6) 4) fun r => transferOk r) = true ∧ s.unfinishedTransfers 0 < 64) ∧
      goesTo (exec (.fput 5 6) s) (fun t => found (t.transfers.find? fun k => k.die == 0 && k.handle == 1 && k.status.isNone) fun k =>
        !t.frozenCtx k.ctx && t.engineData.isEmpty && t.mem.checks.isEmpty && t.mem.wf && (List.range (k.bytes / 8)).all fun j =>
          (found (t.direct k.party (.mem (k.src + BitVec.ofNat 64 (8 * j)) 8 .load 0)) fun a => !t.poisoned a) &&
            (t.direct k.party (.mem (k.dst + BitVec.ofNat 64 (8 * j)) 8 .store 0)).isSome && k.src.toNat % 8 == 0 && k.dst.toNat % 8 == 0) =
        true := by
  decide +kernel

/-- RingInstructionsFinish: a formation begun, refused and ended, and a round opened and completed. -/
theorem witness_RingInstructionsFinish :
    let s := paged (ringState (.cring 5 6 7))
    let w : RingWait := { id := 7, launch := 0, rank := 0, waiting := true, record := [], eps := [0, 1], old := none, outcome := some 1 }
    let c := paged (collState (.coll 5 6 7) liveRing)
    let done := { oneRound with done := some .complete }
    (s.smooth = true ∧ s.v.spin.demoted = false ∧ (s.rd 6).toNat % 64 = 0 ∧ s.rd 7 = 0 ∧
      (found (s.openWords s.party (s.rd 6) 2) fun h => ringHeadOk h && found (s.openWords s.party (s.rd 6 + 16) ((field h 2 2 + 3) / 4)) fun l =>
        let r := (h ++ l).take (16 + 2 * field h 2 2)
        (recordEps r).all (fun e => decide (e < 8192)) && field r 0 2 == 7 && (s.ownWait 7).isNone && s.ringCode 7 (recordEps r) none == 0 &&
          ({ s with endpoint := 2 } : State).ringCode 7 (recordEps r) none != 0) = true ∧
      ({ s with ringWaits := [w] } : State).ownWait 7 = some w) ∧
      (c.smooth = true ∧ c.ringOf (c.rd 7) = some liveRing ∧ liveRing.round = none ∧ liveRing.broken = false ∧ c.v.stores = [] ∧
        c.rings = [liveRing] ∧
        (found (c.openWords c.party (c.rd 6) 8) fun l => collType (field l 0x22 1) == some .f32 && collOk l 2 .f32 && field l 0x10 8 == 2 &&
          field l 0 8 == 0x20000 && field l 8 8 == 0x20100) = true ∧
        ([0x20000, 0x20004].all fun a => found (c.direct c.collParty (.mem a 4 .load 0)) fun p => !c.poisoned p) = true ∧
        ([0x20100, 0x20104].all fun a => (c.direct c.collParty (.mem a 4 .store 0)).isSome) = true) ∧
      ((paged (collState (.coll 5 6 7) { liveRing with round := some done })).ringOf liveRing.handle).isSome = true ∧
      done.launch = c.v.launch ∧ done.rank = c.v.rank.toNat ∧ done.done = some .complete := by
  decide +kernel

/-! ## Areas, launches and the debugger -/

/-- A frozen job 9 whose VLC's area at 0x40000 DUMP writes and LOAD reads, its number taken by SNCMD. -/
def dumping : State :=
  let s := inState (cached areaCells) .frozen 0
  { s with sn := { s.sn with job := 9, addr := 0x40000 } }

/-- The parts lie below the area's end. -/
def low (l : List AreaPart) : Bool := l.all fun x => decide (x.off + 8 * x.words < 2 ^ 29)

/-- The area at 0x40000 as memory holds it. -/
def areaWord (s : State) (k : Nat) : Nat := s.mem.read (0x40000 + 8 * k) 8

/-- A save's state: its handler's words can be read and its area written. -/
theorem saves_facts :
    let s := cached []
    onPage s s.party = true ∧ (s.mem.poison = [] ∧ s.mem.checks = []) ∧ s.v.level = .supervisor ∧ s.smooth = true ∧
      decodeStop (.vsave 6) s = none ∧ s.mem.wf = true ∧ s.rd 6 = 0x40000 ∧ s.v.block = 0 ∧
      low (s.areaOf s.v.atGrant (areaWords (fun k => s.mem.read (0x100 + 8 * k) 8) 0 32)) = true := by
  decide +kernel

/-- A restoration's. -/
theorem restores_facts :
    let t := cached areaCells
    onPage t t.party = true ∧ (t.mem.poison = [] ∧ t.mem.checks = []) ∧ t.v.level = .supervisor ∧ t.smooth = true ∧
      decodeStop (.vrestore 6) t = none ∧ t.rd 6 = 0x40000 ∧
      ({ Area.ofHeader (areaWords (areaWord t) 0 32) with sprs := areaWords (areaWord t) 32 20 } : Area).bad t.v = false ∧
      areaWord t 51 / 512 * 512 = 0 := by
  decide +kernel

/-- The debugger's. -/
theorem dumps_facts :
    let u := dumping
    onPage u u.v.areaParty = true ∧ (u.mem.poison = [] ∧ u.mem.checks = []) ∧ u.mem.wf = true ∧ u.sn.addr = 0x40000 ∧
      low (u.areaOf false u.v.sregNat) = true ∧
      ({ Area.ofHeader (areaWords (areaWord u) 0 32 ||| 2 ^ 49) with sprs := areaWords (areaWord u) 32 20 } : Area).bad u.v = false ∧
      u.isFrozen 9 = true ∧ u.sn.arg.toNat / 2 ^ 16 % 8192 = u.endpoint ∧
      u.v.isAt (128 * (u.sn.arg.toNat / 2 ^ 13 % 8) + u.sn.arg.toNat / 2 ^ 6 % 128) (u.sn.arg.toNat / 2 ^ 4 % 4) = true ∧
      u.inJob 9 u.v = true ∧ u.sn.job = 9 := by
  decide +kernel

theorem inArea : (0x40000 : Word).toNat % 4096 = 0 ∧ (0x40000 : Word).toNat < 2 ^ 29 := by decide

theorem low_parts {l : List AreaPart} (h : low l = true) : ∀ x ∈ l, x.off + 8 * x.words < 2 ^ 29 := by simpa [low] using h

/-- AreasFinish: what the save reads and writes, and what the restoration reads. -/
theorem witness_AreasFinish :
    (let s := cached []
     let x (k : Nat) := s.mem.read (0x100 + 8 * k) 8
     (∀ k, k < 32 → s.openWord s.party (s.v.block + 0x100 + BitVec.ofNat 64 (8 * k)) = some (x k)) ∧
       s.areaWritable s.party (s.rd 6) (s.areaOf s.v.atGrant (areaWords x 0 32))) ∧
    (let t := cached areaCells
     t.areaOpens t.party (t.rd 6) (areaWord t) ∧ t.writable t.party (BitVec.ofNat 64 (areaWord t 51 / 512 * 512) + 0x100) 32) := by
  obtain ⟨hp, hm, -, -, -, -, h6, hb, hl⟩ := saves_facts
  obtain ⟨tp, tm, -, -, -, t6, -, tb⟩ := restores_facts
  refine ⟨⟨fun k hk => ?_, ?_⟩, ?_, ?_⟩
  · have ha : ((cached []).v.block + 0x100 + BitVec.ofNat 64 (8 * k)).toNat = 0x100 + 8 * k := by
      rw [hb, BitVec.toNat_add, BitVec.toNat_ofNat, show ((0 : Word) + 0x100).toNat = 256 from rfl]; omega
    rw [openWord_onPage hp hm _ (by omega), ha]
  · rw [h6]; exact areaWritable_onPage hp _ _ inArea (low_parts hl)
  · rw [t6]; exact areaOpens_onPage tp tm _ inArea
  · rw [tb]; exact writable_onPage tp _ _ (by decide)

/-- DebuggersFinish: what DUMP writes and LOAD reads. -/
theorem witness_DebuggersFinish :
    dumping.areaWritable dumping.v.areaParty dumping.sn.addr (dumping.areaOf false dumping.v.sregNat) ∧
      dumping.areaOpens dumping.v.areaParty dumping.sn.addr (areaWord dumping) := by
  obtain ⟨hp, hm, -, ha, hl, -⟩ := dumps_facts
  rw [ha]
  exact ⟨areaWritable_onPage hp _ _ inArea (low_parts hl), areaOpens_onPage hp hm _ inArea⟩

/-- ResumesFinish: the released VLC whose header is good. -/
theorem witness_ResumesFinish :
    let s := releasedState areaCells (.released 0x40000)
    let x : BitVec 64 := 0x40000
    x.toNat / 4096 * 4096 = 0x40000 ∧ x.getLsbD 0 = false ∧ (found (s.releasedAt 0 0x40000) fun v =>
      onPage s v.areaParty && s.mem.poison.isEmpty && s.mem.checks.isEmpty && !({ Area.ofHeader (areaWords (areaWord s) 0 32) with
        sprs := areaWords (areaWord s) 32 20 } : Area).wrong v.tileOwner &&
        (List.range 52).all fun k => s.openWord v.areaParty (0x40000 + BitVec.ofNat 64 (8 * k)) == some (areaWord s k)) = true := by
  decide +kernel

/-- LaunchesFinish: a record that queue 3 takes. -/
theorem witness_LaunchesFinish :
    let s := paged (queued (ready (.launch 5 6 7) [(6, 0x30000), (7, 3)]) 0)
    decodeStop (.launch 5 6 7) s = none ∧ s.smooth = true ∧ s.v.stores = [] ∧ s.v.spin.demoted = false ∧ (s.rd 6).toNat % 128 = 0 ∧
      (s.openWords s.party (s.rd 6) 16).isSome = true ∧ (s.rd 7).toNat ≤ 65535 ∧ (s.queue 3).en = true ∧
      (s.queue 3).ctx.toNat = s.v.ctx ∧ (s.queue 3).recs.length < 8 := by
  decide +kernel

/-- LaunchStepsFinish: a record checked, wait words read, and a signal made. -/
theorem witness_LaunchStepsFinish :
    let s := paged (launching 5)
    let l := s.launchOf 3 goodRecord none
    let p := dispatchParty l.ctx (engOwner 1 3)
    let w (x : Nat) : State := { paged (launching x) with launches := [waitingLaunch] }
    let m := { placeLaunch with ended := [0], sig := some 0x31040 }
    let e : State := { paged (ready .yield []) with launches := [m] }
    ((s.queue 3).recs = [(goodRecord, none)] ∧ (s.queue 3).head = none ∧ badRecord goodRecord = false ∧ field goodRecord 0x10 8 = 0 ∧
      (found (s.openBytes p 0x30000 128) fun h => headerOk h && field h 0x38 8 == 0 && field h 0x48 8 == 0 && field h 0x0C 4 == 0 &&
        !s.tooBig (field h 6 2 == 1) l.nvlc) = true ∧ l.npkg ≤ 1) ∧
      ((w 5).launch 7 = some waitingLaunch ∧ waitingLaunch.phase = .waiting ∧ [5, 2 ^ 63].all (fun x => waitingLaunch.waits.all fun y =>
        y.1.toNat % 8 == 0 && (w x).openWord waitingLaunch.party y.1 == some x) = true) ∧
      (e.launch 0 = some m ∧ m.npkg ≤ 1 ∧ m.phase = .running ∧ m.allEnded = true ∧ e.orphans = [] ∧ m.sig = some 0x31040 ∧
        (0x31040 : Word).toNat % 8 = 0 ∧ m.rank0 = 0 ∧ (found (e.direct m.party (.mem 0x31040 8 .rmw 0)) fun a => !e.poisoned a) = true ∧
        e.engineData = [] ∧ e.mem.wf = true) := by
  decide +kernel

end Sys2Proof.Tests
end

section
/-! SUPPORT. What comes between two instructions of a VLC (STEPCTL, R374) as each shared operation leaves it, so that an instruction
that begins in a smooth state ends in one. -/

namespace Sys2Proof.Machine

/-! ## Records by key -/

/-- A key reads what `put` gave it, in any list. -/
theorem look_put_same {α : Type} [DecidableEq α] (d : α) (k : Nat) (x : α) (l : List (Nat × α)) : look d k (put d k x l) = x := by
  have strike_same (l : List (Nat × α)) : look d k (strike k l) = d := by
    rw [show strike k l = clearKeys (· == k) l from rfl, look_clearKeys, if_pos (beq_self_eq_true k)]
  induction l with
  | nil => simp only [put]; split <;> simp_all [look]
  | cons p l ih =>
    obtain ⟨j, y⟩ := p
    simp only [put]
    split
    · split
      · rw [strike_same]; simp_all
      · simp [look]
    · split
      · split
        · rw [strike_same]; simp_all
        · simp [look]
      · rw [look, if_neg (by omega), ih]

@[simp] theorem State.core_setCore_same (s : State) (c : Nat) (f : Core → Core) : (s.setCore c f).core c = f (s.core c) :=
  look_put_same _ _ _ _

theorem State.core_setCore_other (s : State) {c d : Nat} (f : Core → Core) (h : d ≠ c) : (s.setCore c f).core d = s.core d :=
  look_put_other h _ _

@[simp] theorem State.cluster_setCluster_same (s : State) (c : Nat) (f : Cluster → Cluster) :
    (s.setCluster c f).cluster c = f (s.cluster c) :=
  look_put_same _ _ _ _

/-! ## Scalar registers -/

theorem State.rd_wr_same (s : State) {d : SReg} (x : Word) (h : d ≠ 0) : (s.wr d x).rd d = x := by
  rw [State.rd_wr, if_neg h, if_pos rfl]

theorem State.rd_wr_other (s : State) {d r : SReg} (x : Word) (h : r ≠ d) : (s.wr d x).rd r = s.rd r := by
  rw [State.rd_wr, if_neg h]
  split
  · rename_i h0; subst h0; rfl
  · rfl

/-! ## STEPCTL -/

/-- An update of a core that keeps its STEPCTL keeps that of every core. -/
theorem State.stepctl_setCore (s : State) (c d : Nat) {f : Core → Core} (h : (f (s.core c)).stepctl = (s.core c).stepctl) :
    ((s.setCore c f).core d).stepctl = (s.core d).stepctl := by
  by_cases e : d = c
  · subst e; rw [State.core_setCore_same, h]
  · rw [State.core_setCore_other s f e]

@[simp] theorem State.stepctl_keep (s : State) (p : Party) (e : TlbEntry) (c : Nat) :
    ((s.keep p e).core c).stepctl = (s.core c).stepctl := by
  have h (s : State) : ((match p.core with
      | some c => if (s.core c).tlb.contains e then s else s.setCore c fun x => { x with tlb := tlbKeep 512 e x.tlb }
      | none => s).core c).stepctl = (s.core c).stepctl := by
    cases p.core with
    | none => rfl
    | some d =>
      simp only
      split
      · rfl
      · exact State.stepctl_setCore s d c rfl
  unfold State.keep
  refine (h _).trans ?_
  split <;> rfl

@[simp] theorem State.stepctl_wrote (s : State) (at_ : Place) (c : Nat) : ((s.wrote at_).core c).stepctl = (s.core c).stepctl := by
  cases at_ with
  | phys pa => rfl
  | cmem d o => rfl
  | spad d o =>
    refine State.stepctl_setCore _ d c ?_
    simp only
    split <;> rfl

@[simp] theorem State.stepctl_countWalk (s : State) (l : List Nat) (c : Nat) :
    ((s.countWalk l).core c).stepctl = (s.core c).stepctl := by
  induction l generalizing s with
  | nil => rfl
  | cons a l ih =>
    refine (ih (if epOf a = s.endpoint then s.count a else s)).trans ?_
    split <;> rfl

@[simp] theorem State.stepctl_markLeaf (s : State) (addr set clear c : Nat) :
    ((s.markLeaf addr set clear).core c).stepctl = (s.core c).stepctl := by
  unfold State.markLeaf
  rw [State.stepctl_wrote]
  rfl

@[simp] theorem State.stepctl_note (s : State) (p : Party) (q : Req) (r : Ref) (c : Nat) :
    ((s.note p q r).core c).stepctl = (s.core c).stepctl := by
  have hu : ((s.used p q r).core c).stepctl = (s.core c).stepctl := by
    unfold State.used
    simp only
    split <;> simp
  unfold State.note
  simp only
  split
  · exact hu
  · exact hu

@[simp] theorem State.stepctl_readSealed (s : State) (k : Seal) (pa n c : Nat) :
    ((s.readSealed k pa n).2.core c).stepctl = (s.core c).stepctl := by
  cases k <;> rfl

@[simp] theorem State.stepctl_writeSealed (s : State) (k : Seal) (pa n x c : Nat) :
    ((s.writeSealed k pa n x).core c).stepctl = (s.core c).stepctl := by
  cases k <;> rfl

@[simp] theorem State.stepctl_setSpaceMem (s : State) (x : Space) (m : Memory) (c : Nat) :
    ((s.setSpaceMem x m).core c).stepctl = (s.core c).stepctl := by
  cases x with
  | glob => rfl
  | cmem => rfl
  | spad => exact State.stepctl_setCore s _ c rfl
  | lane => exact State.stepctl_setCore s _ c rfl

@[simp] theorem State.stepctl_spaceWrite (s : State) (x : Space) (o n y c : Nat) :
    ((s.spaceWrite x o n y).core c).stepctl = (s.core c).stepctl := by
  cases x <;> simp [State.spaceWrite, State.wroteSpace]

/-! ## Accesses -/

theorem State.stepctl_loadAt {s t : State} {x : Space} {a : Word} {n y : Nat} {g : Bool} (e : s.loadAt x a n g = .ok (y, t)) (c : Nat) :
    (t.core c).stepctl = (s.core c).stepctl := by
  have hload {q : Req} {p : Party} (e : s.load p q = .ok (y, t)) : (t.core c).stepctl = (s.core c).stepctl := by
    unfold State.load at e
    split at e
    · cases e
    · rename_i r _
      unfold State.loadRef at e
      split at e
      · obtain ⟨z, -, hz⟩ := map_eq_ok e
        cases hz; exact State.stepctl_note s p q r c
      · split at e
        · cases e; exact State.stepctl_note s p q r c
        · split at e
          · cases e
          · cases e; exact (State.stepctl_note _ p q r c).trans (State.stepctl_readSealed s _ _ _ c)
  unfold State.loadAt at e
  split at e
  · cases e
  · cases x <;> simp only at e
    · exact hload e
    all_goals
      split at e
      · cases e; rfl
      · cases e

/-- States with the same issuing VLC and the same STEPCTL registers are smooth alike. -/
theorem State.smooth_of_eq {s t : State} (hv : t.v = s.v) (hc : ∀ c, (t.core c).stepctl = (s.core c).stepctl) :
    t.smooth = s.smooth := by
  unfold State.smooth; rw [hv, hc]

/-- A load leaves what comes between instructions as it is. -/
theorem State.smooth_loadAt {s t : State} {x : Space} {a : Word} {n y : Nat} {g : Bool} (e : s.loadAt x a n g = .ok (y, t)) :
    t.smooth = s.smooth :=
  State.smooth_of_eq (State.loadAt_v e) (State.stepctl_loadAt e)

/-- A store sent to another endpoint is none of an earlier strip. -/
theorem State.smooth_post (s : State) (p : Party) (pa n mask val : Nat) (b : Bool) (op : RemoteOp) :
    (s.post p pa n mask val b op).smooth = s.smooth := by
  have hi : (s.inject (epOf pa) pa op).smooth = s.smooth := by unfold State.inject; simp only; split <;> rfl
  have hs (s : State) (w : Posted) (hw : w.old = false) :
      (s.setV fun v => { v with stores := v.stores ++ [w] }).smooth = s.smooth := by
    simp [State.smooth, Vlc.due, Vlc.sup, hw]
  unfold State.post
  simp only
  split
  · exact hs s _ rfl
  · split
    · exact (hs _ _ rfl).trans hi
    · exact hi

/-- A store leaves what comes between instructions as it is. -/
theorem State.smooth_storeAt {s t : State} {x : Space} {a : Word} {n y : Nat} (e : s.storeAt x a n y = .ok t) :
    t.smooth = s.smooth := by
  have hnote (p : Party) (q : Req) (r : Ref) : (s.note p q r).smooth = s.smooth := State.smooth_of_eq (by simp) (by simp)
  have hstore {q : Req} {p : Party} (e : s.store p q y = .ok t) : t.smooth = s.smooth := by
    unfold State.store at e
    split at e
    · cases e
    · rename_i r _
      unfold State.storeRef at e
      split at e
      · split at e
        · cases e; exact hnote p q r
        · cases e; exact State.smooth_of_eq (by simp) (by simp)
      · unfold State.sendRef at e
        split at e
        · cases e
        · split at e
          · cases e
          · cases e; exact (State.smooth_post _ _ _ _ _ _ _ _).trans (hnote p q r)
  unfold State.storeAt at e
  split at e
  · cases e
  · cases x <;> simp only at e
    · exact hstore e
    all_goals
      split at e
      · cases e; exact State.smooth_of_eq (by simp) (by simp)
      · cases e

/-- The detector with nothing counted, written whole. -/
theorem State.spinReset_eq (s : State) : s.spinReset = s.setV fun v => { v with spin := Spin.idle } := by
  unfold State.spinReset
  split
  · rename_i h; rw [State.setV, ← h]
  · rfl

end Sys2Proof.Machine
end

section
namespace Sys2Proof.Machine

/-! ## A step of the issuing VLC -/

/-- With nothing due, a step is what the VLC that the sequencers choose issues. -/
theorem step_of_pick {s s1 : State} (he : s.events = []) (hp : s.pick = some s1) : step s = s1.issue := by
  simp [step, he, hp]

/-- A VLC that goes on with an instruction executes it, with no fetch and no boundary before it (R354). -/
theorem State.issue_of_again {s : State} {i : Instr} (h : s.v.status = .again i) :
    s.issue = exec i (s.setV fun v => { v with status := .runnable }) := by
  simp [State.issue, h]

/-- Any other VLC at whose boundary nothing is taken runs what its fetch finds. -/
theorem State.issue_of_fetch {s s1 : State} {i : Instr} (h : ∀ j, s.v.status ≠ .again j) (hb : s.boundary = none)
    (hf : s.fetch = .ok (.run i, s1)) : s.issue = exec i s1 := by
  unfold State.issue
  split
  · exact absurd ‹_› (h _)
  · simp [hb, hf]

/-- The fetch finds an instruction that begins no convoy as decode gives it. -/
theorem State.fetch_of_lone {s s1 : State} {w n : Nat} {i : Instr} (hf : s.fetchAt s.v.pc = .ok (w, n, s1))
    (hd : decode (bytesOf 8 w) = .instr i) (hi : i.role.heads = false ∨ i.joins = true) : s.fetch = .ok (.run i, s1) := by
  have hn : ¬(i.role.heads = true ∧ (!i.joins) = true) := by rcases hi with h | h <;> simp [h]
  unfold State.fetch
  simp only [hf, hd, if_neg hn]

/-- Settles O6: the fetch finds what decode gives, and the step executes it. -/
theorem stepRunsDecodedInstruction : Obligations.StepRunsDecodedInstruction := by
  refine ⟨fun s s1 s2 w n i he hp hs hb hf hd hi => ?_, fun s s1 i he hp hs => ?_⟩
  · rw [step_of_pick he hp, State.issue_of_fetch hs hb (State.fetch_of_lone hf hd hi)]
  · rw [step_of_pick he hp, State.issue_of_again hs]

end Sys2Proof.Machine
end

section
/-! Scalar loads and stores (R410 to R412), for O16. -/

namespace Sys2Proof.Machine

/-! ## What the forms are -/

/-- A loaded value as R411 states it is the model's. -/
theorem extend_eq_loaded {t : VType} {y : Nat} (h : y < 2 ^ t.width) : extend t y = loaded t y := by
  unfold extend loaded VType.int
  cases hs : t.isSigned with
  | false => simp [Nat.mod_eq_of_lt h]
  | true =>
    simp only [signed, Nat.mod_eq_of_lt h, if_true, true_and]
    by_cases hy : 2 ^ (t.width - 1) ≤ y
    · rw [if_neg (by omega), if_pos hy]; norm_cast
    · rw [if_pos (by omega), if_neg hy]; simp

/-- The address of a compressed load or store, as R116 states it. -/
theorem stackSlot_eq (s : State) (k : BitVec 5) : stackSlot s k = s.rd 2 + BitVec.ofNat 64 (8 * k.toNat) := by
  unfold stackSlot; congr 1

/-- A scalar load is a load form, and decode's checks let it run. -/
theorem exec_of_scalarLoad {i : Instr} {s : State} {t : VType} {x : Space} {d : SReg} {a : Word}
    (h : scalarLoad i s = some (t, x, d, a)) (hs : s.smooth = true) :
    decodeStop i s = none ∧ ∃ acq, exec i s = loadForm i s t x d a acq := by
  unfold scalarLoad at h
  split at h
  case h_10 a k =>
    cases h
    refine ⟨decodeStop_ok rfl rfl rfl rfl rfl rfl rfl rfl hs, false, ?_⟩
    rw [← stackSlot_eq]
    rfl
  case h_11 => cases h
  all_goals
    cases h
    exact ⟨decodeStop_ok rfl rfl rfl rfl rfl rfl rfl rfl hs, _, rfl⟩

/-- A scalar store with no store outstanding stores its register's low bits, and decode's checks let it run. -/
theorem exec_of_scalarStore {i : Instr} {s : State} {t : VType} {x : Space} {d : SReg} {a : Word}
    (h : scalarStore i s = some (t, x, d, a)) (hst : s.v.stores = []) (hs : s.smooth = true) :
    exec i s = .next (s.run i ((s.storeAt x a (t.width / 8) ((s.rd d).toNat % 2 ^ t.width)).map (·.spinReset))) := by
  have form (i : Instr) (t : VType) (x : Space) (a y : Word) (h : decodeStop i s = none) :
      storeForm i s t x a y = .next (s.run i ((s.storeAt x a (t.width / 8) (y.toNat % 2 ^ t.width)).map (·.spinReset))) := by
    unfold storeForm; rw [checked_none h]; rfl
  unfold scalarStore at h
  split at h
  case h_6 t' sc x' d' a' =>
    cases h
    show Host.Outcome.next _ = _
    rw [checked_none (decodeStop_ok rfl rfl rfl rfl rfl rfl rfl rfl hs), State.afterStores, if_pos hst]
    rfl
  case h_7 a k =>
    cases h
    rw [← stackSlot_eq]
    exact form _ _ _ _ _ (decodeStop_ok rfl rfl rfl rfl rfl rfl rfl rfl hs)
  case h_8 => cases h
  all_goals
    cases h
    exact form _ _ _ _ _ (decodeStop_ok rfl rfl rfl rfl rfl rfl rfl rfl hs)

/-- A load form that decode lets run stops as its access does. -/
theorem loadForm_error {i : Instr} {s : State} {t : VType} {x : Space} {d : SReg} {a : Word} {acq : Bool} {e : Stop}
    (hd : decodeStop i s = none) (he : s.loadAt x a (t.width / 8) true = .error e) :
    loadForm i s t x d a acq = .next (s.raise i e) := by
  unfold loadForm bytesIn
  rw [checked_none hd, he]
  rfl

/-- The spin detector after a load: nothing else of the state differs (R47). -/
theorem State.spin_after_load (s : State) (x : Space) (a y : Word) (acq : Bool) :
    ∃ p, (if acq then s.spinAcquire x a y else s.spinSaw x a y) = s.setV fun v => { v with spin := p } := by
  have same : s = s.setV fun v => { v with spin := s.v.spin } := rfl
  unfold State.spinAcquire State.spinSaw
  split
  · split
    · exact ⟨_, rfl⟩
    · exact ⟨_, same⟩
  · split
    · exact ⟨_, same⟩
    · split
      · exact ⟨_, rfl⟩
      · exact ⟨_, same⟩

/-- A load form whose access answers writes the value to its destination and goes on. -/
theorem loadForm_ok {i : Instr} {s s1 : State} {t : VType} {x : Space} {d : SReg} {a : Word} {acq : Bool} {y : Nat}
    (hd : decodeStop i s = none) (hs : s.smooth = true) (hy : y < 2 ^ t.width)
    (he : s.loadAt x a (t.width / 8) true = .ok (y, s1)) :
    ∃ p, loadForm i s t x d a acq = .next (((s1.setV fun v => { v with spin := p }).wr d (loaded t y)).past i) := by
  obtain ⟨p, hp⟩ := s1.spin_after_load x a (loaded t y) acq
  refine ⟨p, ?_⟩
  have h1 : (s1.setV fun v => { v with spin := p }).smooth = true := (State.smooth_loadAt he).trans hs
  unfold loadForm bytesIn
  rw [checked_none hd, he]
  simp only [Except.map, State.run, extend_eq_loaded hy, hp]
  rw [State.finish_smooth i (State.smooth_wr d _ h1)]

/-! ## Accesses that nothing stops -/

/-- Where `spot` names a place, the access is aligned; the place is a direct access's of DRAM, with no poison that is read, or an
offset within another space. -/
theorem State.spot_iff_place {s : State} {x : Space} {q : Req} {o : Nat} (h : s.spot x q = some o) :
    alignOk q.va.toNat q.n = true ∧
      ((x = .glob ∧ ∃ pa, s.direct s.party q = some pa ∧ (q.kind ≠ .store → s.poisoned pa = false) ∧ dramKey pa = o) ∨
        (x ≠ .glob ∧ q.va.toNat = o ∧ inSpace x q.va.toNat q.n = true)) := by
  unfold State.spot at h
  split at h
  · cases h
  rename_i hal
  refine ⟨by simp only [alignOk, Bool.or_eq_true, beq_iff_eq]; omega, ?_⟩
  cases x with
  | glob =>
    obtain ⟨pa, hd, hp⟩ := Option.bind_eq_some_iff.mp h
    split at hp
    · cases hp
    · rename_i hc
      cases hp
      exact .inl ⟨rfl, pa, hd, fun hk => by simpa [hk] using hc, rfl⟩
  | cmem | spad | lane =>
    obtain ⟨hb, ho⟩ := Option.ite_none_right_eq_some.mp h
    cases ho
    exact .inr ⟨by decide, rfl, decide_eq_true hb⟩

/-- A load within a space other than 0. -/
theorem State.loadAt_local {s : State} {x : Space} {a : Word} {n : Nat} {g : Bool} (hx : x ≠ .glob)
    (ha : alignOk a.toNat n = true) (hb : inSpace x a.toNat n = true) :
    s.loadAt x a n g = .ok ((s.spaceMem x).read a.toNat n, s) := by
  cases x with
  | glob => exact absurd rfl hx
  | cmem | spad | lane => simp [State.loadAt, ha, hb, State.spaceRead]

/-- A store within a space other than 0. -/
theorem State.storeAt_local {s : State} {x : Space} {a : Word} {n y : Nat} (hx : x ≠ .glob)
    (ha : alignOk a.toNat n = true) (hb : inSpace x a.toNat n = true) :
    s.storeAt x a n y = .ok (s.spaceWrite x a.toNat n y) := by
  cases x with
  | glob => exact absurd rfl hx
  | cmem | spad | lane => simp [State.storeAt, ha, hb]

/-- A load at a spot answers the bytes there, and changes counts of accesses alone. -/
theorem State.spot_loads {s : State} {x : Space} {a : Word} {n o : Nat} {g : Bool}
    (h : s.spot x { va := a, n := n, kind := .load, elem := 0, reg := g, once := false } = some o) :
    ∃ u, s.loadAt x a n g = .ok ((s.spaceMem x).read o n, u) ∧ s.counted u := by
  obtain ⟨ha, ⟨rfl, pa, hd, hp, rfl⟩ | ⟨hx, rfl, hb⟩⟩ := State.spot_iff_place h
  · refine ⟨_, ?_, (rfl : s.counted (s.count pa))⟩
    unfold State.loadAt
    rw [show alignOk a.toNat n = true from ha]
    exact State.direct_loads hd (hp nofun)
  · exact ⟨s, State.loadAt_local hx ha hb, rfl⟩

/-! ## Memories of the spaces -/

/-- An update of a core that keeps its scratchpad and lane tables keeps the memory of every space. -/
theorem State.spaceMem_setCore (s : State) (c : Nat) {f : Core → Core} (x : Space)
    (h : (f (s.core c)).spad = (s.core c).spad ∧ (f (s.core c)).lanes = (s.core c).lanes) :
    (s.setCore c f).spaceMem x = s.spaceMem x := by
  by_cases e : s.v.core = c
  · subst e; cases x <;> simp [State.spaceMem, h.1, h.2, State.cluster]
  · cases x <;> simp [State.spaceMem, State.core_setCore_other s f e, State.cluster]

/-- What follows a write changes no memory. -/
@[simp] theorem State.spaceMem_wrote (s : State) (at_ : Place) (x : Space) : (s.wrote at_).spaceMem x = s.spaceMem x := by
  cases at_ with
  | phys pa => cases x <;> rfl
  | cmem c o => cases x <;> rfl
  | spad c o =>
    refine (State.spaceMem_setCore _ c x ?_).trans (by cases x <;> rfl)
    simp only
    split <;> exact ⟨rfl, rfl⟩

@[simp] theorem State.spaceMem_wroteSpace (s : State) (x y : Space) (o : Nat) : (s.wroteSpace x o).spaceMem y = s.spaceMem y := by
  cases x <;> simp [State.wroteSpace]

/-- The memory of a space set, and no other. -/
theorem State.spaceMem_setSpaceMem (s : State) (x y : Space) (m : Memory) :
    (s.setSpaceMem x m).spaceMem y = if y = x then m else s.spaceMem y := by
  cases x <;> cases y <;> simp [State.setSpaceMem, State.spaceMem, State.core, State.cluster, look_put_same]

/-- Bytes of a space written are written to its memory and no other. -/
theorem State.spaceMem_spaceWrite (s : State) (x y : Space) (o n z : Nat) :
    (s.spaceWrite x o n z).spaceMem y = if y = x then (s.spaceMem x).write o n z else s.spaceMem y := by
  rw [State.spaceWrite, State.spaceMem_wroteSpace, State.spaceMem_setSpaceMem]

/-- Bytes of DRAM stored change the memory of space 0 alone. -/
theorem State.spaceMem_setDram (s : State) (x : Space) (pa n y : Nat) :
    (s.setDram pa n y).spaceMem x = if x = .glob then (s.merged pa).write (dramKey pa) n y else s.spaceMem x := by
  cases x <;> rfl

/-- A store at a spot writes its bytes there and nowhere else, and leaves the VLC that makes it as it is. -/
theorem State.spot_stores {s : State} {x : Space} {a : Word} {n o y : Nat} (h : s.spot x (.scalar a n .store) = some o)
    (hw : (s.spaceMem x).wf = true) :
    ∃ u, s.storeAt x a n y = .ok u ∧ u.v = s.v ∧ s.elsewhere u x ∧ (u.spaceMem x).read o n = y % 256 ^ n ∧
      ∀ b, b < o ∨ o + n ≤ b → (u.spaceMem x).byte b = (s.spaceMem x).byte b := by
  obtain ⟨ha, ⟨rfl, pa, hd, -, rfl⟩ | ⟨hx, rfl, hb⟩⟩ := State.spot_iff_place h
  · have hm (z : Space) : (((s.count pa).setDram pa n y).wrote (.phys pa)).spaceMem z =
        if z = .glob then (s.merged pa).write (dramKey pa) n y else s.spaceMem z := by
      rw [State.spaceMem_wrote, State.spaceMem_setDram]
      cases z <;> rfl
    refine ⟨((s.count pa).setDram pa n y).wrote (.phys pa), ?_, State.wrote_v _ _, fun z hz => (hm z).trans (if_neg hz), ?_,
      fun b hb => ?_⟩
    · unfold State.storeAt
      rw [show alignOk a.toNat n = true from ha]
      exact State.direct_stores hd
    · rw [hm, if_pos rfl, Memory.read_write _ _ _ (State.wf_merged _ hw)]
    · rw [hm, if_pos rfl, Memory.byte_write_other _ _ hb, State.merged_byte]
      rfl
  · refine ⟨_, State.storeAt_local hx ha hb, State.spaceWrite_v _ _ _ _ _, fun z hz => ?_, ?_, fun b hb => ?_⟩
    · rw [State.spaceMem_spaceWrite, if_neg hz]
    · rw [State.spaceMem_spaceWrite, if_pos rfl]
      exact Memory.read_write _ _ _ hw
    · rw [State.spaceMem_spaceWrite, if_pos rfl]
      exact Memory.byte_write_other _ _ hb

/-! ## The claims -/

/-- The widths of types are whole bytes. -/
theorem width_bytes (t : VType) : 8 * (t.width / 8) = t.width := by cases t <;> rfl

theorem pow_bytes (t : VType) : 256 ^ (t.width / 8) = 2 ^ t.width := by
  rw [show (256 : Nat) = 2 ^ 8 from rfl, ← Nat.pow_mul, width_bytes]

/-- Going on past an instruction changes no memory. -/
@[simp] theorem State.spaceMem_past (s : State) (i : Instr) (x : Space) : (s.past i).spaceMem x = s.spaceMem x := by
  cases x <;> rfl

/-- Nor does what the spin detector counts. -/
@[simp] theorem State.spaceMem_setSpin (s : State) (p : Spin) (x : Space) :
    (s.setV fun v => { v with spin := p }).spaceMem x = s.spaceMem x := by
  cases x <;> rfl

/-- A store whose access is permitted starts the spin detector again and goes on. -/
theorem run_stored {i : Instr} {s s1 : State} (h : s1.smooth = true) :
    s.run i ((Except.ok s1).map (·.spinReset)) = (s1.setV fun v => { v with spin := Spin.idle }).past i := by
  have h1 : (s1.setV fun v => { v with spin := Spin.idle }).smooth = true := h
  simp only [Except.map, State.run, State.spinReset_eq, State.finish_smooth i h1]

theorem scalarLoadsComplete : Claim.ScalarLoadsComplete := by
  refine fun i s t x d a h => ⟨fun s1 y he hy hs => ?_, fun e he hs => ?_⟩
  · obtain ⟨hd, acq, hi⟩ := exec_of_scalarLoad h hs
    rw [hi]; exact loadForm_ok hd hs hy he
  · obtain ⟨hd, acq, hi⟩ := exec_of_scalarLoad h hs
    rw [hi, loadForm_error hd he]

theorem scalarStoresComplete : Claim.ScalarStoresComplete := by
  refine fun i s t x d a h hst hs => ⟨fun s1 he => ?_, fun e he => ?_⟩
  · rw [exec_of_scalarStore h hst hs, he, run_stored ((State.smooth_storeAt he).trans hs)]
  · rw [exec_of_scalarStore h hst hs, he]; rfl

theorem scalarLoadsFinish : Claim.ScalarLoadsFinish := by
  intro i s t x d a o h hs ho
  obtain ⟨u, hu, hc⟩ := State.spot_loads ho
  have hy : (s.spaceMem x).read o (t.width / 8) < 2 ^ t.width := pow_bytes t ▸ Memory.read_lt _ _ _
  obtain ⟨p, hp⟩ := (scalarLoadsComplete i s t x d a h).1 u _ hu hy hs
  exact ⟨u, p, hc, hp⟩

theorem scalarStoresFinish : Claim.ScalarStoresFinish := by
  intro i s t x d a o h hst hs ho hw
  obtain ⟨u, hu, hv, helse, hread, hbyte⟩ := State.spot_stores (y := (s.rd d).toNat % 2 ^ t.width) ho hw
  refine ⟨_, (scalarStoresComplete i s t x d a h hst hs).1 u hu, ?_, ?_, ?_, ?_⟩
  · simp only [State.past, State.goesOn, State.setV_v, hv]
  · exact fun y hy => by simpa using helse y hy
  · simp [hread, pow_bytes]
  · simpa using hbyte

/-- Settles O16: a load or store form is its access and then the completion, and an access at a spot reads or writes its bytes. -/
theorem scalarAccessesComplete : Obligations.ScalarAccessesComplete :=
  ⟨scalarLoadsComplete, scalarStoresComplete, scalarLoadsFinish, scalarStoresFinish⟩

end Sys2Proof.Machine
end

section
/-! The checks of decode that depend on state (R108), for O12. -/

namespace Sys2Proof.Machine

/-! ## What an instruction with an encoding does first -/

/-- The meaning of every instruction that has an encoding begins with the checks of decode. -/
theorem exec_checked (i : Instr) (s : State) (h : i.enc ≠ .none) : ∃ k, exec i s = .next (checked i s k) := by
  cases i
  any_goals exact absurd rfl h
  case vst t m o d a c =>
    show ∃ k, execVst t m o d a c s = _
    unfold execVst
    split
    · exact ⟨_, rfl⟩
    · exact ⟨_, rfl⟩
  all_goals exact ⟨_, rfl⟩

/-- An instruction that decode turns away does nothing but stop so. -/
theorem exec_of_decodeStop {i : Instr} {s : State} {e : Stop} (hi : i.enc ≠ .none) (h : decodeStop i s = some e) :
    exec i s = .next ((s.unmark i e).raise i e) := by
  obtain ⟨k, hk⟩ := exec_checked i s hi
  rw [hk, checked_some h]

theorem turnedAwayTakesItsTrap : Claim.TurnedAwayTakesItsTrap := by
  refine fun i s hi => ⟨fun cls sub tval r hne hd => ?_, fun hd => ?_, fun hd => ?_⟩
  · rw [exec_of_decodeStop hi hd, State.unmark_of_ne (by rintro ⟨⟩; exact hne rfl)]
    rfl
  · rw [exec_of_decodeStop hi hd, State.unmark, if_pos (show Stop.trap .memerr 3 0 none = regfileStop from rfl)]
    rfl
  · rw [exec_of_decodeStop hi hd, State.unmark_of_ne (e := .drain) (by decide)]
    rfl

/-! ## The order of the checks -/

/-- Some vector register named lies beyond the declaration. -/
theorem beyondDecl_iff (i : Instr) (s : State) :
    ((vnames i).any fun r => decide (s.v.decl ≤ r)) = true ↔ ¬∀ r ∈ vnames i, r < 8 * (s.v.declEff.toNat + 1) := by
  simp only [List.any_eq_true, decide_eq_true_eq, not_forall, not_lt, exists_prop]
  rfl

/-- The checks of an instruction's own encoding, level and state come before the others of one that joins no convoy. -/
theorem decodeStop_own {i : Instr} {s : State} (hj : i.joins = false) (hv : badVt i s = false) {e : Stop}
    (h : ownStop i s = some e) : decodeStop i s = some e := by
  simp [decodeStop, hj, hv, h]

/-- At a level that may run it and with its vector registers within the declaration, an instruction meets OVERLAP, the checks of
tile operations and those of its operand. -/
theorem ownStop_within {i : Instr} {s : State} (hp : privileged i s.v.sup = false)
    (hr : ∀ r ∈ vnames i, r < 8 * (s.v.declEff.toNat + 1)) :
    ownStop i s = if overlaps i then some (illStop .overlap i.value)
      else if isTile i ∧ s.v.mode = .spread then some (illStop .spreadtile i.value)
      else if isTile i ∧ !s.v.tileOwner then some (illStop .tileown i.value)
      else operandStop i s := by
  have h : ¬((vnames i).any fun r => decide (s.v.decl ≤ r)) = true := fun h => (beyondDecl_iff i s).1 h hr
  unfold ownStop
  rw [hp, if_neg (by decide), if_neg h]

/-- A tile operation moves no vector element. -/
theorem overlaps_of_isTile {i : Instr} (h : isTile i = true) : overlaps i = false := by
  unfold isTile at h
  split at h
  case h_10 => cases h
  all_goals rfl

/-- Only MTS and BAR meet a check of their operand. -/
theorem operandStop_none {i : Instr} {s : State} (hm : ∀ r a c, i = .mts r a c → sprUse r s.v.sup ≠ .ro)
    (hb : ∀ g, i = .bar g → g.toNat ∈ groupsOf s.v.gmemb) : operandStop i s = none := by
  unfold operandStop
  split
  · exact if_neg (hm _ _ _ rfl)
  · exact if_pos (by simpa using hb _ rfl)
  · rfl

/-- Only MTS of MAXVL can leave no lane cluster. -/
theorem eq_mts_of_emptiesLc {i : Instr} {s : State} (h : emptiesLc i s = true) : ∃ a c, i = .mts .maxvl a c := by
  unfold emptiesLc at h
  split at h
  · exact ⟨_, _, rfl⟩
  · cases h

/-- At a level that may write it, MAXVL is no read-only register. -/
theorem maxvl_writable {s : State} {a : SReg} {c : Bool} (hp : privileged (.mts .maxvl a c) s.v.sup = false) :
    sprUse .maxvl s.v.sup = .rw := by
  cases h : s.v.sup
  · rw [h] at hp; cases hp
  · rfl

theorem checksThatDependOnState : Claim.ChecksThatDependOnState := by
  intro i s hj hv
  refine ⟨fun hp => decodeStop_own hj hv (by rw [ownStop, if_pos hp]; rfl), fun hp => ⟨fun hr => ?_, fun hr => ?_⟩⟩
  · refine decodeStop_own hj hv ?_
    rw [ownStop, hp, if_neg (by decide), if_pos ((beyondDecl_iff i s).2 hr)]
    rfl
  have own := ownStop_within hp hr
  refine ⟨fun ho => ?_, fun ht hm => ?_, fun ht hm hn => ?_, ?_, ?_, fun he => ?_⟩
  · exact decodeStop_own hj hv (by rw [own, if_pos ho]; rfl)
  · exact decodeStop_own hj hv (by simp [own, overlaps_of_isTile ht, ht, hm, illStop, Stop.plain])
  · exact decodeStop_own hj hv (by simp [own, overlaps_of_isTile ht, ht, hm, hn, illStop, Stop.plain])
  · rintro r a c rfl hro
    exact decodeStop_own hj hv (by simp [own, overlaps, isTile, operandStop, hro, illStop, Stop.plain])
  · rintro g rfl hg
    exact decodeStop_own hj hv (by simp [own, overlaps, isTile, operandStop, hg, illStop, Stop.plain, fieldAt])
  · obtain ⟨a, c, rfl⟩ := eq_mts_of_emptiesLc he
    have ho : ownStop (.mts .maxvl a c) s = none := by
      simp [own, overlaps, isTile, operandStop, maxvl_writable hp]
    simp [decodeStop, hj, hv, ho, he, illStop, Stop.plain]

theorem passedChecksLetRun : Claim.PassedChecksLetRun := by
  intro i s hj hv hp hr ho ht hm hg he hb hst
  have own : ownStop i s = none := by
    rw [ownStop_within hp hr, operandStop_none hm hg]
    cases htile : isTile i
    · simp [ho]
    · simp [ho, (ht htile).1, (ht htile).2]
  have old : s.v.stores.any (·.old) = false := by simpa using hst
  simp [decodeStop, hj, hv, own, he, joinStop, badReads_none hb, waitsForOld_none old]

/-- A privileged instruction at user level takes PRIV. -/
theorem exec_privileged {i : Instr} {s : State} (hi : i.enc ≠ .none) (hj : i.joins = false) (hv : badVt i s = false)
    (hp : privileged i s.v.sup = true) : exec i s = .next (s.trapHere .priv 0 i.value none) :=
  (turnedAwayTakesItsTrap i s hi).1 .priv 0 _ none nofun ((checksThatDependOnState i s hj hv).1 hp)

theorem privilegedInstructions : Claim.PrivilegedInstructions := by
  refine ⟨fun s i hu hi => ?_, fun s i hs => ?_⟩
  · have sup : s.v.sup = false := by simp [Vlc.sup, hu]
    obtain rfl | rfl | ⟨a, rfl⟩ | ⟨a, rfl⟩ | ⟨r, a, rfl | rfl, hr⟩ := hi
    · exact exec_privileged nofun rfl rfl (by rw [sup]; rfl)
    · exact exec_privileged nofun rfl rfl (by rw [sup]; rfl)
    · exact exec_privileged nofun rfl rfl (by rw [sup]; rfl)
    · exact exec_privileged nofun rfl rfl (by rw [sup]; rfl)
    · refine exec_privileged nofun rfl rfl ?_
      rw [sup]
      obtain rfl | rfl | rfl | rfl | rfl | ⟨n, rfl⟩ := hr <;> rfl
    · obtain rfl | rfl | rfl | rfl | rfl | ⟨n, rfl⟩ := hr
      all_goals exact exec_privileged nofun rfl rfl (by rw [sup]; rfl)
  · have sup : s.v.sup = true := by simp [Vlc.sup, hs]
    rw [sup]
    unfold privileged
    split
    case h_5 r _ | h_6 r _ _ => cases r <;> rfl
    all_goals rfl

/-- Settles O12: every meaning begins with `checked`, and the checks follow one another as R108 orders them. -/
theorem checksTurnInstructionsAway : Obligations.ChecksTurnInstructionsAway :=
  ⟨turnedAwayTakesItsTrap, checksThatDependOnState, passedChecksLetRun, privilegedInstructions⟩

end Sys2Proof.Machine
end

section
/-! SETVP (R36), for O35: the shares of an application length, and the register pairs that an encoding names. -/

namespace Sys2Proof.Machine

/-! ## What the checks of an encoding let through -/

/-- Every instruction that an answer of decode's checks gives satisfies `P`. -/
def Gives (P : Instr → Prop) (r : Dec) : Prop := ∀ i, r = .ok i → P i

section
variable {P : Instr → Prop}

@[simp] theorem gives_ok (i : Instr) : Gives P (.ok i) ↔ P i := by simp [Gives]
@[simp] theorem gives_error (e : IllSub) : Gives P (.error e) ↔ True := by simp [Gives]
@[simp] theorem gives_chk (b : Bool) (e : IllSub) (k : Dec) : Gives P (chk b e k) ↔ (b = true → Gives P k) := by
  cases b <;> simp [chk]
@[simp] theorem gives_zer {w : Nat} (x : BitVec w) (k : Dec) : Gives P (zer x k) ↔ (x = 0 → Gives P k) := by simp [zer]

@[simp] theorem gives_want {α : Type} (o : Option α) (e : IllSub) (k : α → Dec) :
    Gives P (want o e k) ↔ ∀ x, o = some x → Gives P (k x) := by
  cases o <;> simp [want]

@[simp] theorem gives_wantType (c : BitVec 5) (ok : VType → Bool) (k : VType → Dec) :
    Gives P (wantType c ok k) ↔ ∀ t, VType.ofCode c = some t → ok t = true → Gives P (k t) := by
  simp [wantType]

@[simp] theorem gives_wantTypes (c d : BitVec 5) (okc okd : VType → Bool) (k : VType → VType → Dec) :
    Gives P (wantTypes c d okc okd k) ↔ ∀ t, VType.ofCode c = some t → okc t = true → ∀ u, VType.ofCode d = some u →
      okd u = true → Gives P (k t u) := by
  simp [wantTypes]

@[simp] theorem gives_wantQ (x : BitVec 5) (k : QReg → Dec) :
    Gives P (wantQ x k) ↔ (x.getLsbD 4 = false → Gives P (k (x.extractLsb' 0 4))) := by
  simp [wantQ]

@[simp] theorem gives_wantM (x : BitVec 5) (k : MReg → Dec) :
    Gives P (wantM x k) ↔ (x.extractLsb' 3 2 = 0 ∧ x.extractLsb' 0 3 ≠ 0 → Gives P (k (x.extractLsb' 0 3))) := by
  simp [wantM]

@[simp] theorem gives_wantSpar (c : BitVec 2) (ok : Spar → Bool) (k : Spar → Dec) :
    Gives P (wantSpar c ok k) ↔ ∀ x, Spar.ofCode c = some x → ok x = true → Gives P (k x) := by
  simp [wantSpar]

end

/-! ## The register pairs of SETVP -/

/-- A SETVP names a destination that has a register after it and is not s0. -/
def pairNamed : Instr → Prop
  | .setvp d _ _ => d ≠ 0 ∧ d ≠ 31
  | _ => True

/-- Bank 0 holds no SETVP. -/
theorem gives_pair_bank0 (f : F32) : Gives pairNamed (decodeBank0 f) := by
  unfold decodeBank0
  split <;> simp [decodeInt, decodeSys, decodeFcmp, shImm, spaceMem, ordMem, amoRow, fp3, pairNamed]
  all_goals split <;> simp [int3, int3u, int2, pairNamed]

/-- The grants' major checks the destination of SETVP. -/
theorem gives_pair_grant (f : F32) : Gives pairNamed (decodeGrant f) := by
  unfold decodeGrant
  split <;> simp +contextual [pairNamed]

/-- The other majors of bank 1 hold none. -/
theorem gives_pair_bank1 (f : F32) : Gives pairNamed (decodeBank1 f) := by
  unfold decodeBank1
  split
  case h_49 => exact gives_pair_grant f
  all_goals simp [vec3, vec2, vecX, decodeRed, decodeMask, vecOrd, decodeSync, decodeSetup, decodeCopy, decodeMesh, decodeWick,
    decodeFabric, decodeLaunch, eng2, eng3, run3, pairNamed]
  all_goals
    intros
    repeat' split
  all_goals simp [pairNamed]

/-- No tile operation is one. -/
theorem gives_pair_tile (g : Pfx) (f : F32) : Gives pairNamed (decode64 g f) := by
  unfold decode64 decodeTile
  simp only [gives_chk]
  intro _ _
  split <;> simp [zerTile, pairNamed]

/-- No compressed instruction is one. -/
theorem gives_pair_16 (f : F16) : Gives pairNamed (decode16 f) := by
  unfold decode16
  split <;> simp [pairNamed]

/-- An instruction that decode answers is one its checks gave. -/
theorem joinOf_instr {c : Bool} {r : Dec} {i : Instr} (h : joinOf c r = .instr i) : r = .ok i := by
  unfold joinOf at h
  split at h
  · cases h
  · split at h <;> cases h
    rfl

/-- What the three forms of encoding give, decode answers. -/
theorem decode_gives {P : Instr → Prop} {l : List Byte} {i : Instr} (h16 : ∀ f, Gives P (decode16 f))
    (h32 : ∀ f, Gives P (decode32 f)) (h64 : ∀ g f, Gives P (decode64 g f)) (h : decode l = .instr i) : P i := by
  unfold decode at h
  split at h
  · split at h
    · cases h
    · split at h
      · exact h16 _ i (joinOf_instr h)
      · exact h64 _ _ i (joinOf_instr h)
      · cases h
      · exact h32 _ i (joinOf_instr h)
      · cases h
  · cases h

theorem pairNamed_of_decode {l : List Byte} {i : Instr} (h : decode l = .instr i) : pairNamed i := by
  refine decode_gives gives_pair_16 (fun f => ?_) gives_pair_tile h
  unfold decode32
  split
  · exact gives_pair_bank0 f
  · exact gives_pair_bank1 f

/-! ## The shares -/

/-- The ceiling of `n / g`, in whole units of `g`, reaches `n` and no further than its last unit. -/
theorem le_units {n g : Nat} (hg : 0 < g) : n ≤ g * ceilDiv n g := by
  have := Nat.div_add_mod (n + g - 1) g
  have := Nat.mod_lt (n + g - 1) hg
  unfold ceilDiv
  omega

/-- Shares follow one another: each ends, within the length, where the next begins. -/
theorem share_step {n g p k : Nat} :
    min n (share n g p k).2 + (share n g p k).1 = min n (g * shareLow (ceilDiv n g) p (k + 1)) := by
  have : g * shareLow (ceilDiv n g) p k ≤ g * shareLow (ceilDiv n g) p (k + 1) :=
    Nat.mul_le_mul_left g (Nat.div_le_div_right (Nat.mul_le_mul_left _ (Nat.le_succ k)))
  simp only [share]
  omega

theorem shares_partition (n g p : Nat) (hg : 0 < g) (hp : 0 < p) :
    (share n g p 0).2 = 0 ∧ (∀ k, k + 1 < p → min n (share n g p (k + 1)).2 = min n (share n g p k).2 + (share n g p k).1) ∧
      min n (share n g p (p - 1)).2 + (share n g p (p - 1)).1 = n ∧ ∀ k, (share n g p k).2 % g = 0 := by
  refine ⟨by simp [share, shareLow], fun k _ => share_step.symm, ?_, fun k => Nat.mul_mod_right g _⟩
  rw [share_step, Nat.sub_add_cancel hp, shareLow, Nat.mul_div_cancel _ hp]
  exact Nat.min_eq_left (le_units hg)

/-- SETVP writes its rank's share and first index to its pair of registers. -/
theorem exec_setvp {s : State} {d a b : SReg} {l : Launch} (hs : s.smooth = true) (hl : s.launch s.v.launch = some l) :
    let x := share (s.rd a).toNat (max (s.rd b).toNat 1) l.total s.v.rank.toNat
    exec (.setvp d a b) s = .next (((s.wr d (BitVec.ofNat 64 x.1)).wr (d + 1) (BitVec.ofNat 64 x.2)).past (.setvp d a b)) := by
  have unit : (if s.rd b = 0 then 1 else (s.rd b).toNat) = max (s.rd b).toNat 1 := by
    split
    · rename_i h; rw [h]; rfl
    · rename_i h
      have : (s.rd b).toNat ≠ 0 := fun e => h (BitVec.eq_of_toNat_eq e)
      omega
  have smooth (x y : Word) : ((s.wr d x).wr (d + 1) y).smooth = true := State.smooth_wr _ _ (State.smooth_wr _ _ hs)
  have hd : decodeStop (.setvp d a b) s = none := decodeStop_ok rfl rfl rfl rfl rfl rfl rfl rfl hs
  show execSetvp d a b s = _
  rw [execSetvp, alone_ok hd]
  · simp only [unit, hl, Option.map_some, Option.getD_some]
  · exact smooth _ _

/-- Settles O35: SETVP's pair holds R36's share and first index, which follow one another up to the length; its encoding names a
pair (R76). -/
theorem sharesPartition : Obligations.SharesPartition := by
  refine ⟨fun s d a b l hs hl _ _ => exec_setvp hs hl, shares_partition, fun l d a b h => pairNamed_of_decode h⟩

end Sys2Proof.Machine
end

section
/-! SUPPORT. Grants (R25 to R29): what each of a grant's operations leaves as it is, and the state that a grant whose rows are free
leaves. -/

namespace Sys2Proof.Machine

/-! ## Completing where no STEP is due -/

/-- No STEP trap (R374) and no debugger STEP (R373) follows the issuing VLC's instruction. -/
def State.unstepped (s : State) : Prop :=
  (s.v.level = .supervisor ∨ (s.core s.v.core).stepctl.getLsbD s.v.slot = false) ∧ s.v.stepOnce = false

theorem State.unstepped_of_smooth {s : State} (h : s.smooth = true) : s.unstepped :=
  have h := (State.smooth_iff s).1 h
  ⟨h.1, h.2.1⟩

/-- Only the VLC's level, its place and the STEPCTL of its core decide. -/
theorem State.unstepped_of_eq {s t : State} (hl : t.v.level = s.v.level) (hc : t.v.core = s.v.core) (hs : t.v.slot = s.v.slot)
    (ho : t.v.stepOnce = s.v.stepOnce) (hk : ∀ c, (t.core c).stepctl = (s.core c).stepctl) (h : s.unstepped) : t.unstepped := by
  unfold State.unstepped at h ⊢
  rwa [hl, hc, hs, ho, hk]

/-- An instruction that completes so leaves its VLC at the new pc and nothing else changed. -/
theorem State.complete_unstepped {s : State} (i : Instr) (pc : Word) (e : Bool) (h : s.unstepped) :
    s.complete i pc e = s.goesOn i pc e := by
  have h1 : ¬((!(s.goesOn i pc e).v.sup) = true ∧
      ((s.goesOn i pc e).core (s.goesOn i pc e).v.core).stepctl.getLsbD (s.goesOn i pc e).v.slot = true) := by
    rintro ⟨hs, hb⟩
    rcases h.1 with h | h
    · rw [Vlc.sup, show (s.goesOn i pc e).v.level = .supervisor from h] at hs; cases hs
    · exact absurd (hb.symm.trans h) (by decide)
  have h2 : ¬((s.goesOn i pc e).v.stepOnce = true ∧ (!(s.goesOn i pc e).v.status.isEntering) = true) := by
    rw [show (s.goesOn i pc e).v.stepOnce = false from h.2]; simp
  rw [State.complete_eq, State.stepTrap, if_neg h1, State.refreeze, if_neg h2]

/-! ## What lies beside the issuing VLC -/

/-- The other VLCs, DRAM, the launches and every STEPCTL are as they were. -/
structure State.Beside (s t : State) : Prop where
  parked : t.parked = s.parked
  mem : t.mem = s.mem
  launches : t.launches = s.launches
  stepctl : ∀ c, (t.core c).stepctl = (s.core c).stepctl

theorem State.Beside.refl (s : State) : s.Beside s := ⟨rfl, rfl, rfl, fun _ => rfl⟩

theorem State.Beside.trans {s t u : State} (h : s.Beside t) (k : t.Beside u) : s.Beside u :=
  ⟨k.parked.trans h.parked, k.mem.trans h.mem, k.launches.trans h.launches, fun c => (k.stepctl c).trans (h.stepctl c)⟩

/-- An update of the issuing VLC keeps what lies beside it. -/
theorem State.beside_setV (s : State) (f : Vlc → Vlc) : s.Beside (s.setV f) := ⟨rfl, rfl, rfl, fun _ => rfl⟩

/-- So does an update of a core that keeps its STEPCTL. -/
theorem State.beside_setCore (s : State) (c : Nat) {f : Core → Core} (h : (f (s.core c)).stepctl = (s.core c).stepctl) :
    s.Beside (s.setCore c f) :=
  ⟨rfl, rfl, rfl, fun d => State.stepctl_setCore s c d h⟩

/-- The issuing VLC too is as it was. -/
structure State.Aside (s t : State) : Prop extends s.Beside t where
  v : t.v = s.v

theorem State.Aside.refl (s : State) : s.Aside s := ⟨.refl s, rfl⟩

theorem State.Aside.trans {s t u : State} (h : s.Aside t) (k : t.Aside u) : s.Aside u :=
  ⟨h.toBeside.trans k.toBeside, k.v.trans h.v⟩

/-- The issuing VLC has other vector registers, and is otherwise as it was. -/
structure State.AsideVregs (s t : State) : Prop extends s.Beside t where
  v : ∃ x, t.v = { s.v with vregs := x }

theorem State.AsideVregs.refl (s : State) : s.AsideVregs s := ⟨.refl s, s.v.vregs, rfl⟩

theorem State.AsideVregs.trans {s t u : State} (h : s.AsideVregs t) (k : t.AsideVregs u) : s.AsideVregs u := by
  obtain ⟨hb, x, hx⟩ := h
  obtain ⟨kb, y, hy⟩ := k
  exact ⟨hb.trans kb, y, by rw [hy, hx]⟩

/-- What every step of a fold keeps, the fold keeps. -/
theorem foldl_keeps {α β : Type} {R : α → α → Prop} (refl : ∀ a, R a a) (trans : ∀ {a b c}, R a b → R b c → R a c)
    {f : α → β → α} (h : ∀ a x, R a (f a x)) (l : List β) (a : α) : R a (l.foldl f a) := by
  induction l generalizing a with
  | nil => exact refl a
  | cons x l ih => exact trans (h a x) (ih _)

/-! ## Power, rows and placement -/

/-- An update of a core that keeps its STEPCTL. -/
theorem State.aside_setCore (s : State) (c : Nat) {f : Core → Core} (h : (f (s.core c)).stepctl = (s.core c).stepctl) :
    s.Aside (s.setCore c f) :=
  ⟨⟨rfl, rfl, rfl, fun d => State.stepctl_setCore s c d h⟩, rfl⟩

theorem State.aside_spend (s : State) : s.Aside s.spend := ⟨⟨rfl, rfl, rfl, fun _ => rfl⟩, rfl⟩

theorem State.aside_freshAccs (s : State) (core : Nat) : s.Aside (s.freshAccs core) := by
  refine foldl_keeps (R := State.Aside) .refl .trans (fun s _ => ?_) _ s
  exact (s.aside_setCore core rfl).trans (State.aside_spend _)

theorem State.aside_unpower (s : State) (core c : Nat) : s.Aside (s.unpower core c) := by
  have h1 : s.Aside (s.spend.setCore core fun k => { k with lanes := k.lanes.write (65536 * c) 65536 (s.free (8 * 65536)).toNat }) :=
    s.aside_spend.trans (State.aside_setCore _ _ rfl)
  refine h1.trans (foldl_keeps (R := State.Aside) .refl .trans (fun s _ => ?_) _ _)
  exact (s.aside_setCore core rfl).trans (State.aside_spend _)

theorem State.aside_gatePower (s : State) (core : Nat) : s.Aside (s.gatePower core) :=
  foldl_keeps (R := State.Aside) .refl .trans (fun s c => s.aside_unpower core c) _ s

theorem State.aside_dueRows (s : State) (core : Nat) : s.Aside (s.dueRows core) := ⟨⟨rfl, rfl, rfl, fun _ => rfl⟩, rfl⟩

theorem State.aside_duePlace (s : State) : s.Aside s.duePlace := by
  unfold State.duePlace
  split
  · exact ⟨⟨rfl, rfl, rfl, fun _ => rfl⟩, rfl⟩
  · exact .refl s

/-! ## Registers given up -/

theorem State.asideVregs_loseImages (s : State) : s.AsideVregs s.loseImages := by
  refine foldl_keeps (R := State.AsideVregs) .refl .trans (fun s _ => ?_) _ s
  exact ⟨⟨rfl, rfl, rfl, fun _ => rfl⟩, _, rfl⟩

theorem State.asideVregs_freshRegs (s : State) (r n : Nat) : s.AsideVregs (s.freshRegs r n) := by
  induction n generalizing s r with
  | zero => exact .refl s
  | succ n ih =>
    refine .trans ?_ (ih _ _)
    by_cases h : r < 32
    · refine ⟨⟨rfl, rfl, rfl, fun _ => rfl⟩, s.v.vregs.set r s.freshReg h, ?_⟩
      simp only [State.spend_v, State.setV_v, dif_pos h]
    · refine ⟨⟨rfl, rfl, rfl, fun _ => rfl⟩, s.v.vregs, ?_⟩
      simp only [State.spend_v, State.setV_v, dif_neg h]

/-! ## Step 3 of a grant -/

/-- The VLC on the lane clusters `lc` under its pending declaration, its tiles' shape lost or not (R29 step 3). -/
def Vlc.relocated (v : Vlc) (lc : BitVec 4) (lost : Bool) : Vlc :=
  let w := { v with lc := lc, declEff := v.declPend, dropLc := v.dropLc &&& lc, gainLc := v.gainLc &&& ~~~lc }
  if lost then { w with tsmM := 0, tsmType := 0, tsmSpar := 0, tsn := 0, tskK := 0, acur := 0 } else w

theorem State.loseTiles_eq (s : State) : ∃ t, s.Aside t ∧ s.loseTiles = t.setV fun v =>
    { v with tsmM := 0, tsmType := 0, tsmSpar := 0, tsn := 0, tskK := 0, acur := 0 } :=
  ⟨_, s.aside_freshAccs s.v.core, rfl⟩

/-- Steps that gate power and try others again, where the clusters or the declaration change. -/
theorem State.aside_regate (s : State) (same : Prop) [Decidable same] :
    s.Aside (if same then s else ((s.dueRows s.v.core).duePlace).gatePower s.v.core) := by
  split
  · exact .refl s
  · exact ((s.aside_dueRows _).trans (State.aside_duePlace _)).trans (State.aside_gatePower _ _)

theorem State.relocate_beside (s : State) : s.Beside s.relocate ∧ ∃ lost, s.relocate.v = s.v.relocated s.nextLc lost := by
  have finish {t : State} {lost : Bool} (hb : s.Beside t) (hv : t.v = s.v.relocated s.nextLc lost)
      (he : t.Aside s.relocate) : s.Beside s.relocate ∧ ∃ lost, s.relocate.v = s.v.relocated s.nextLc lost :=
    ⟨hb.trans he.toBeside, lost, he.v.trans hv⟩
  by_cases h : s.v.tileOwner = true ∧ s.v.lc &&& ~~~s.nextLc ≠ 0
  · obtain ⟨t, ht, he⟩ := (s.setV fun v => { v with
      lc := s.nextLc, declEff := v.declPend, dropLc := v.dropLc &&& s.nextLc, gainLc := v.gainLc &&& ~~~s.nextLc }).loseTiles_eq
    refine finish (t := State.loseTiles _) (lost := true) (he ▸ (s.beside_setV _).trans (ht.toBeside.trans (t.beside_setV _))) ?_ ?_
    · rw [he, State.setV_v, ht.v]; rfl
    · unfold State.relocate
      simp only [if_pos h]
      exact State.aside_regate _ _
  · refine finish (t := s.setV fun v => { v with
      lc := s.nextLc, declEff := v.declPend, dropLc := v.dropLc &&& s.nextLc, gainLc := v.gainLc &&& ~~~s.nextLc })
      (lost := false) (s.beside_setV _) rfl ?_
    unfold State.relocate
    simp only [if_neg h]
    exact State.aside_regate _ _

end Sys2Proof.Machine
end

section
/-! SUPPORT. The state that a grant leaves (R26, R29). -/

namespace Sys2Proof.Machine

/-! ## Rows and MVL -/

/-- Least values over the members of a list that a predicate picks. -/
theorem foldl_min_filter {α : Type} (p : α → Bool) (f : α → Nat) (b : Nat) (l : List α) (a : Nat) (h : a ≤ b) :
    (l.map fun c => if p c then f c else b).foldl min a = ((l.filter p).map f).foldl min a := by
  induction l generalizing a with
  | nil => rfl
  | cons c l ih =>
    cases hp : p c
    · simp [hp, Nat.min_eq_left h, ih a h]
    · simp [hp, ih (min a (f c)) (by omega)]

/-- The least rows of a set of lane clusters, as a fold over its members. -/
theorem leastRows_ofFn (lc : BitVec 4) (f : Nat → Nat) :
    leastRows lc (Vector.ofFn fun c : Fin 4 => f c) = (((List.range 4).filter fun c => lc.getLsbD c).map f).foldl min 512 := by
  unfold leastRows
  rw [← foldl_min_filter _ _ 512 _ _ (Nat.le_refl _), ← List.map_coe_finRange_eq_range, List.map_map]
  simp [Function.comp_def]

/-- MVL of a width, in the words of R26. -/
theorem maxLength_eq (spread : Bool) (lc : BitVec 4) (f : Nat → Nat) (t : VType) :
    maxLength spread lc (Vector.ofFn fun c : Fin 4 => f c) t.wcode =
      min 8192 (min 4096 ((if spread then 16 else 16 * ((List.range 4).countP fun c => lc.getLsbD c)) *
        (((List.range 4).filter fun c => lc.getLsbD c).map f).foldl min 512) * 64 / t.width) := by
  have hw : 8 * 2 ^ t.wcode = t.width := by cases t <;> rfl
  unfold maxLength
  rw [leastRows_ofFn, hw, List.countP_eq_length_filter]
  rfl

/-! ## The grant's own steps -/

/-- The VLC whose stores up to here belong to earlier strips, where a spread loop's strip ends (R183). -/
def Vlc.closed (v : Vlc) (strip : Bool) : Vlc :=
  { v with stores := if strip then v.stores.map fun (w : Posted) => { w with old := true } else v.stores }

/-- The VLC that has been granted `want` rows (R29 steps 5 and 6). -/
def Vlc.granted (v : Vlc) (spread : Bool) (request : Nat) (want : Vector Nat 4) : Vlc :=
  let mvl := maxLength spread v.lc want v.vt.wcode
  { v.endStrip.mended [.special .vl, .special .mvl] with
    declHeld := v.declEff, rows := want, mvl := mvl, mvl64 := maxLength spread v.lc want 3, vl := min request mvl, spin := Spin.idle }

/-- The closing of a grant, or of a loop, orders no store that is outstanding (R183 Table 2). -/
def Vlc.closes (v : Vlc) (strip : Bool) : Prop :=
  if strip then v.stores.any (·.old) = false else v.stores = []

theorem State.closing_ok {s : State} {strip : Bool} (i : Instr) (k : State → State) (h : s.v.closes strip) :
    s.closing i strip k = k (s.setV (·.closed strip)) := by
  cases strip with
  | false => exact if_pos h
  | true =>
    have h : s.v.stores.any (·.old) = false := h
    unfold State.closing
    rw [if_pos rfl, h]
    rfl

theorem State.closing_waits {s : State} (i : Instr) (k : State → State) (h : s.v.stores ≠ []) :
    s.closing i false k = s.drain i := by
  unfold State.closing State.afterStores
  rw [if_neg Bool.false_ne_true, if_neg h]

/-- The rows of R25 are those of the other VLCs on the core. -/
theorem State.entitled_eq {s t : State} (hp : t.parked = s.parked) (hc : t.v.core = s.v.core) (lc : BitVec 4) (d : BitVec 2) :
    t.entitled lc d = s.entitled lc d := by
  unfold State.entitled State.declSum State.residents
  rw [hp, hc]

theorem State.rowsFree_eq {s t : State} (hp : t.parked = s.parked) (hc : t.v.core = s.v.core) (d : BitVec 2) (w : Vector Nat 4) :
    t.rowsFree d w = s.rowsFree d w := by
  unfold State.rowsFree State.held State.residents
  rw [hp, hc]

theorem Vlc.relocated_lost (v : Vlc) (lc : BitVec 4) (lost : Bool) : ∃ M T S N K A, v.relocated lc lost =
    { v with lc := lc, declEff := v.declPend, dropLc := v.dropLc &&& lc, gainLc := v.gainLc &&& ~~~lc,
             tsmM := M, tsmType := T, tsmSpar := S, tsn := N, tskK := K, acur := A } := by
  cases lost with
  | false => exact ⟨v.tsmM, v.tsmType, v.tsmSpar, v.tsn, v.tskK, v.acur, rfl⟩
  | true => exact ⟨0, 0, 0, 0, 0, 0, rfl⟩

/-- Steps 5 and 6 of a grant change the issuing VLC alone. -/
theorem State.grantRows_aside (s : State) (old : Vlc) (spread : Bool) (request : Nat) (want : Vector Nat 4) :
    (s.setV (·.granted spread request want)).AsideVregs (s.grantRows old spread request want) := by
  have hspin : (s.setV fun v => { v.endStrip.mended [.special .vl, .special .mvl] with
      declHeld := v.declEff, rows := want, mvl := maxLength spread s.v.lc want s.v.vt.wcode,
      mvl64 := maxLength spread v.lc want 3, vl := min request (maxLength spread s.v.lc want s.v.vt.wcode) }).spinReset =
      s.setV (·.granted spread request want) := by rw [State.spinReset_eq]; rfl
  have haside {t u : State} (h : t.Aside u) : t.AsideVregs u := ⟨h.toBeside, t.v.vregs, h.v⟩
  unfold State.grantRows
  simp only [hspin]
  split
  · exact (State.asideVregs_freshRegs _ 0 32).trans (haside ((State.aside_dueRows _ _).trans (State.aside_duePlace _)))
  · exact .refl _

/-- What a grant whose rows are free leaves: the issuing VLC with its rows, its length and its streams moved on. -/
structure State.Granted (s g : State) (spread : Bool) (request : Nat) : Prop extends s.Beside g where
  lc : g.v.lc = s.nextLc
  rows : g.v.rows = s.entitled s.nextLc s.v.declPend
  declEff : g.v.declEff = s.v.declPend
  declPend : g.v.declPend = s.v.declPend
  mvl : g.v.mvl = maxLength spread s.nextLc (s.entitled s.nextLc s.v.declPend) s.v.vt.wcode
  vl : g.v.vl = min request g.v.mvl
  streams : g.v.streams = s.v.streams.map (·.advance s.v.vl)
  sregs : g.v.sregs = s.v.sregs
  masks : g.v.masks = s.v.masks
  pc : g.v.pc = s.v.pc
  mode : g.v.mode = s.v.mode
  level : g.v.level = s.v.level
  core : g.v.core = s.v.core
  slot : g.v.slot = s.v.slot
  stepOnce : g.v.stepOnce = s.v.stepOnce

/-- The grant after its closing and with no pre-emption request to take: its rows are free or not. -/
theorem State.grant_eq {s : State} {strip : Bool} (i : Instr) (request : Nat) (spread : Bool) (k : State → State)
    (hc : s.v.closes strip) (hp : s.v.preempt = false ∨ s.v.level = .supervisor) :
    s.grant i request spread strip k =
      if s.rowsFree s.v.declPend (s.entitled s.nextLc s.v.declPend) then
        k ((s.setV (·.closed strip)).relocate.grantRows (s.v.closed strip) spread request (s.entitled s.nextLc s.v.declPend))
      else (s.setV (·.closed strip)).relocate.waitRows i := by
  obtain ⟨hb, lost, hv⟩ := (s.setV (·.closed strip)).relocate_beside
  obtain ⟨M, T, S, N, K, A, hr⟩ := Vlc.relocated_lost (s.v.closed strip) s.nextLc lost
  have hv : (s.setV (·.closed strip)).relocate.v = (s.v.closed strip).relocated s.nextLc lost := hv
  have hcore : ((s.v.closed strip).relocated s.nextLc lost).core = s.v.core := by rw [hr]; rfl
  have hlc : ((s.v.closed strip).relocated s.nextLc lost).lc = s.nextLc := by rw [hr]
  have hdecl : ((s.v.closed strip).relocated s.nextLc lost).declEff = s.v.declPend := by rw [hr]; rfl
  have hpre : ¬((s.setV (·.closed strip)).v.preempt = true ∧ (!(s.setV (·.closed strip)).v.sup) = true) := by
    rintro ⟨h1, h2⟩
    rcases hp with hp | hp
    · exact absurd (h1.symm.trans hp) (by decide)
    · rw [Vlc.sup, show (s.setV (·.closed strip)).v.level = .supervisor from hp] at h2; cases h2
  unfold State.grant
  rw [State.closing_ok i _ hc]
  simp only [if_neg hpre, hv, hlc, hdecl]
  rw [State.entitled_eq (s := s) hb.parked (by rw [hv, hcore]), State.rowsFree_eq (s := s) hb.parked (by rw [hv, hcore])]
  rfl

/-- A grant whose rows are free goes on, from the granted state. -/
theorem State.grant_free {s : State} {strip : Bool} (i : Instr) (request : Nat) (spread : Bool) (k : State → State)
    (hc : s.v.closes strip) (hp : s.v.preempt = false ∨ s.v.level = .supervisor)
    (hf : s.rowsFree s.v.declPend (s.entitled s.nextLc s.v.declPend) = true) :
    ∃ g, s.grant i request spread strip k = k g ∧ s.Granted g spread request := by
  have hg := State.grantRows_aside (s.setV (·.closed strip)).relocate (s.v.closed strip) spread request
    (s.entitled s.nextLc s.v.declPend)
  refine ⟨_, (State.grant_eq i request spread k hc hp).trans (if_pos hf), ?_⟩
  generalize (s.setV (·.closed strip)).relocate.grantRows (s.v.closed strip) spread request (s.entitled s.nextLc s.v.declPend) = g
    at hg ⊢
  obtain ⟨gb, x, hx⟩ := hg
  obtain ⟨hb, lost, hv⟩ := (s.setV (·.closed strip)).relocate_beside
  obtain ⟨M, T, S, N, K, A, hr⟩ := Vlc.relocated_lost (s.v.closed strip) s.nextLc lost
  have hv : (s.setV (·.closed strip)).relocate.v = (s.v.closed strip).relocated s.nextLc lost := hv
  rw [State.setV_v, hv, hr] at hx
  constructor
  · exact ((s.beside_setV _).trans hb).trans ((State.beside_setV _ _).trans gb)
  all_goals simp only [hx, Vlc.granted, Vlc.mended, Vlc.endStrip, Vlc.closed]

end Sys2Proof.Machine
end

section
/-! What a grant gives, and how its instruction completes, for O34. -/

namespace Sys2Proof.Machine

/-- A granted VLC has the level, the place and the debugger STEP that it had. -/
theorem State.Granted.unstepped {s g : State} {spread : Bool} {request : Nat} (h : s.Granted g spread request)
    (hs : s.unstepped) : g.unstepped :=
  State.unstepped_of_eq h.level h.core h.slot h.stepOnce h.stepctl hs

/-- What a grant of `request` elements, with its length written to `d`, leaves of `s`. -/
structure State.GrantLeaves (s t : State) (d : SReg) (request : Nat) (spread : Bool) : Prop where
  lc : t.v.lc = s.nextLc
  rows : t.v.rows = s.entitled s.nextLc s.v.declPend
  declEff : t.v.declEff = s.v.declPend
  declPend : t.v.declPend = s.v.declPend
  mvl : t.v.mvl = maxLength spread s.nextLc (s.entitled s.nextLc s.v.declPend) s.v.vt.wcode
  vl : t.v.vl = min request t.v.mvl
  rd_same : d ≠ 0 → t.rd d = BitVec.ofNat 64 t.v.vl
  rd_other : ∀ r, r ≠ d → t.rd r = s.rd r
  streams : t.v.streams = s.v.streams.map (·.advance s.v.vl)
  masks : t.v.masks = s.v.masks
  mem : t.mem = s.mem
  status : t.v.status = .runnable

/-- VLCs whose scalar registers are equal read them equal. -/
theorem State.rd_of_sregs {s t : State} (h : t.v.sregs = s.v.sregs) (r : SReg) : t.rd r = s.rd r := by
  unfold State.rd Vlc.s
  rw [h]

/-- The issuing VLC with the loop's count, mode and lane cluster. -/
def State.looped (g : State) (n : Word) (m : LoopMode) (c : BitVec 2) : State :=
  g.setV fun v => { v with scnt := n, mode := m, slc := c }

/-- A granted VLC that goes on with its length written. -/
theorem State.Granted.leaves {s g : State} {spread : Bool} {request : Nat} (h : s.Granted g spread request)
    (i : Instr) (d : SReg) (n : Word) (m : LoopMode) (c : BitVec 2) (pc : Word) (e : Bool) :
    s.GrantLeaves (((g.looped n m c).wr d g.vlWord).goesOn i pc e) d request spread := by
  have hv : (((g.looped n m c).wr d g.vlWord).goesOn i pc e).v =
      ({ ({ g.v with scnt := n, mode := m, slc := c } : Vlc).setS d g.vlWord with
        pc := pc, status := .runnable, entered := e, prevRole := if e then none else some i.role,
        remoteData := [], awaited := [], watching := none, queued := none, queuedT := none, queuedQ := [], append := none,
        early := false, cut := none } : Vlc) := rfl
  constructor
  case rd_same => intro hd; rw [hv]; simp only [Vlc.setS_vl]; exact State.rd_wr_same _ _ hd
  case rd_other => intro r hr; exact (State.rd_wr_other _ _ hr).trans (State.rd_of_sregs h.sregs r)
  case mem => exact h.mem
  all_goals simp only [hv, Vlc.setS_lc, Vlc.setS_rows, Vlc.setS_declEff, Vlc.setS_declPend, Vlc.setS_mvl, Vlc.setS_vl,
    Vlc.setS_streams, Vlc.setS_masks]
  · exact h.lc
  · exact h.rows
  · exact h.declEff
  · exact h.declPend
  · exact h.mvl
  · exact h.vl
  · exact h.streams
  · exact h.masks

/-- The loop's state and pc of that VLC. -/
theorem State.looped_goesOn (g : State) (i : Instr) (d : SReg) (n : Word) (m : LoopMode) (c : BitVec 2) (x pc : Word) (e : Bool) :
    (((g.looped n m c).wr d x).goesOn i pc e).v.scnt = n ∧ (((g.looped n m c).wr d x).goesOn i pc e).v.mode = m ∧
      (((g.looped n m c).wr d x).goesOn i pc e).v.pc = pc :=
  ⟨Vlc.setS_scnt _ _ _, Vlc.setS_mode _ _ _, rfl⟩

/-- An instruction that completes with its grant. -/
theorem State.Granted.completes {s g : State} {spread : Bool} {request : Nat} (h : s.Granted g spread request) (hs : s.unstepped)
    (i : Instr) (d : SReg) (n : Word) (m : LoopMode) (c : BitVec 2) (pc : Word) (e : Bool) :
    ((g.looped n m c).wr d g.vlWord).complete i pc e = ((g.looped n m c).wr d g.vlWord).goesOn i pc e :=
  State.complete_unstepped i pc e (State.unstepped_of_eq (s := g) (Vlc.setS_level _ _ _) (Vlc.setS_core _ _ _)
    (Vlc.setS_slot _ _ _) (Vlc.setS_stepOnce _ _ _) (fun _ => rfl) (h.unstepped hs))

/-- What a grant leaves, in the words of O34, before what is said of the loop. -/
theorem State.GrantLeaves.says {s t : State} {d : SReg} {request : Nat} {spread : Bool} (h : s.GrantLeaves t d request spread)
    {loop : Prop} (hl : loop) :
    let lc := s.nextLc
    let rows (c : Nat) : Nat := if lc.getLsbD c then 512 / s.declSum s.v.declPend c else 0
    t.v.lc = lc ∧ (∀ (c : Nat) (h : c < 4), t.v.rows[c] = rows c) ∧ t.v.declEff = s.v.declPend ∧ t.v.declPend = s.v.declPend ∧
      (let l := if spread then 16 else 16 * ((List.range 4).countP fun c => lc.getLsbD c);
        t.v.mvl = min 8192 (min 4096 (l * (((List.range 4).filter fun c => lc.getLsbD c).map rows).foldl min 512) * 64
          / s.v.vt.width)) ∧
      t.v.vl = min request t.v.mvl ∧ (d ≠ 0 → t.rd d = BitVec.ofNat 64 t.v.vl) ∧ (∀ r, r ≠ d → t.rd r = s.rd r) ∧
      (∀ (q : Nat) (h : q < 16), (t.v.streams[q]).pos = if (s.v.streams[q]).touched
        then (s.v.streams[q]).pos + ceilDiv s.v.vl (s.v.streams[q]).unit else (s.v.streams[q]).pos) ∧
      t.v.masks = s.v.masks ∧ t.mem = s.mem ∧ t.v.status = .runnable ∧ loop := by
  refine ⟨h.lc, fun c hc => ?_, h.declEff, h.declPend, ?_, h.vl, h.rd_same, h.rd_other, fun q hq => ?_, h.masks, h.mem, h.status, hl⟩
  · simp only [h.rows, State.entitled, Vector.getElem_ofFn]
  · exact h.mvl.trans (maxLength_eq _ _ (fun c => if s.nextLc.getLsbD c then 512 / s.declSum s.v.declPend c else 0) _)
  · simp only [h.streams, Vector.getElem_map, Stream.advance]
    split <;> rfl

/-! ## The instructions -/

/-- SETVL, VLOOP and VNEXT pass decode's checks in a smooth state. -/
theorem setvl_decodes (d a : SReg) {s : State} (hs : s.smooth = true) : decodeStop (.setvl d a) s = none :=
  decodeStop_ok rfl rfl rfl rfl rfl rfl rfl rfl hs

theorem vloop_decodes (sp : Bool) (d a : SReg) {s : State} (hs : s.smooth = true) : decodeStop (.vloop sp d a) s = none :=
  decodeStop_ok rfl rfl rfl rfl rfl rfl rfl rfl hs

theorem vnext_decodes (d : SReg) (k : BitVec 18) {s : State} (hs : s.smooth = true) : decodeStop (.vnext d k) s = none :=
  decodeStop_ok rfl rfl rfl rfl rfl rfl rfl rfl hs

section
variable {s : State} (hp : s.v.preempt = false ∨ s.v.level = .supervisor)
  (hf : s.rowsFree s.v.declPend (s.entitled s.nextLc s.v.declPend) = true) (hu : s.unstepped)
include hp hf hu

/-- SETVL whose rows are free. -/
theorem setvlRun_granted (d a : SReg) (hst : s.v.stores = []) :
    s.GrantLeaves (setvlRun d a s) d (s.rd a).toNat false ∧ (setvlRun d a s).v.scnt = 0 ∧
      (setvlRun d a s).v.mode = .inactive ∧ (setvlRun d a s).v.pc = s.v.pc + 4 := by
  obtain ⟨g, hk, hg⟩ := State.grant_free (strip := false) (.setvl d a) (s.rd a).toNat false
    (fun s1 => ((s1.setV fun v => { v with scnt := 0, mode := .inactive }).wr d s1.vlWord).finish (.setvl d a)) hst hp hf
  have e : setvlRun d a s = ((g.looped 0 .inactive g.v.slc).wr d g.vlWord).goesOn (.setvl d a)
      (((g.looped 0 .inactive g.v.slc).wr d g.vlWord).v.pc + 4) false := hk.trans (hg.completes hu _ _ _ _ _ _ _)
  rw [e]
  obtain ⟨h1, h2, h3⟩ := g.looped_goesOn (.setvl d a) d 0 .inactive g.v.slc g.vlWord
    (((g.looped 0 .inactive g.v.slc).wr d g.vlWord).v.pc + 4) false
  refine ⟨hg.leaves _ _ _ _ _ _ _, h1, h2, ?_⟩
  rw [h3, State.wr_v, Vlc.setS_pc, show (g.looped 0 .inactive g.v.slc).v.pc = g.v.pc from rfl, hg.pc]

/-- VLOOP whose rows are free. -/
theorem vloopRun_granted (sp : Bool) (d a : SReg) (hst : s.v.stores = []) :
    s.GrantLeaves (vloopRun sp d a s) d (s.rd a).toNat sp ∧ (vloopRun sp d a s).v.scnt = s.rd a ∧
      (vloopRun sp d a s).v.mode = (if sp then .spread else .plain) ∧ (vloopRun sp d a s).v.pc = s.v.pc + 4 := by
  obtain ⟨g, hk, hg⟩ := State.grant_free (strip := false) (.vloop sp d a) (s.rd a).toNat sp
    (fun s1 => ((s1.setV fun v =>
      { v with scnt := s.rd a, mode := if sp then .spread else .plain, slc := if sp then lowestOf v.lc else v.slc }).wr d
        s1.vlWord).finish (.vloop sp d a)) hst hp hf
  generalize hc : (if sp then lowestOf g.v.lc else g.v.slc) = c
  have e : vloopRun sp d a s = ((g.looped (s.rd a) (if sp then .spread else .plain) c).wr d g.vlWord).goesOn (.vloop sp d a)
      (((g.looped (s.rd a) (if sp then .spread else .plain) c).wr d g.vlWord).v.pc + 4) false := by
    subst hc
    exact hk.trans (hg.completes hu _ _ _ _ _ _ _)
  rw [e]
  obtain ⟨h1, h2, h3⟩ := g.looped_goesOn (.vloop sp d a) d (s.rd a) (if sp then .spread else .plain) c g.vlWord
    (((g.looped (s.rd a) (if sp then .spread else .plain) c).wr d g.vlWord).v.pc + 4) false
  refine ⟨hg.leaves _ _ _ _ _ _ _, h1, h2, ?_⟩
  rw [h3, State.wr_v, Vlc.setS_pc]
  exact congrArg (· + 4) hg.pc

/-- VNEXT with elements left, whose rows are free. -/
theorem vnextRun_granted (d : SReg) (k : BitVec 18) (hm : s.v.mode ≠ .inactive) (hr : s.v.scnt - s.vlWord ≠ 0)
    (hc : s.v.closes (s.v.mode == .spread)) :
    s.GrantLeaves (vnextRun d k s) d (s.v.scnt - s.vlWord).toNat (s.v.mode == .spread) ∧
      (vnextRun d k s).v.scnt = s.v.scnt - s.vlWord ∧ (vnextRun d k s).v.mode = s.v.mode ∧
      (vnextRun d k s).v.pc = s.v.pc + 2 * k.signExtend 64 := by
  obtain ⟨g, hk, hg⟩ := State.grant_free (.vnext d k) (s.v.scnt - s.vlWord).toNat (s.v.mode == .spread)
    (fun s1 => ((s1.setV fun v =>
      { v with scnt := s.v.scnt - s.vlWord, slc := if v.mode = .spread then nextOf v.lc v.slc else v.slc }).wr d s1.vlWord).complete
        (.vnext d k) (s1.v.pc + 2 * simm k) true) hc hp hf
  generalize hl : (if g.v.mode = .spread then nextOf g.v.lc g.v.slc else g.v.slc) = c
  have e : vnextRun d k s = ((g.looped (s.v.scnt - s.vlWord) g.v.mode c).wr d g.vlWord).goesOn (.vnext d k)
      (g.v.pc + 2 * simm k) true := by
    subst hl
    unfold vnextRun
    simp only [if_neg hm, if_neg hr]
    exact hk.trans (hg.completes hu _ _ _ _ _ _ _)
  rw [e]
  obtain ⟨h1, h2, h3⟩ := g.looped_goesOn (.vnext d k) d (s.v.scnt - s.vlWord) g.v.mode c g.vlWord (g.v.pc + 2 * simm k) true
  exact ⟨hg.leaves _ _ _ _ _ _ _, h1, h2.trans hg.mode, h3.trans (congrArg (· + _) hg.pc)⟩

end

/-- Settles O34: after the closing, step 3 of R29 changes only what no entitlement reads, so the rows that R25 gives of the old state
are those granted, and steps 5 and 6 write them. -/
theorem grantsGiveTheirLength : Obligations.GrantsGiveTheirLength := by
  unfold Obligations.GrantsGiveTheirLength
  intro s i request spread d hi hp hs hst lc rows hf
  have hu := State.unstepped_of_smooth hs
  have noStores (hn : ∀ d k, i ≠ .vnext d k) : s.v.stores = [] := hst.resolve_right fun ⟨k, hk, _⟩ => hn d k hk
  rcases hi with ⟨a, rfl, rfl, rfl⟩ | ⟨a, rfl, rfl⟩ | ⟨k, rfl, hm, rfl, hr, rfl⟩
  · obtain ⟨hl, hP⟩ := setvlRun_granted hp hf hu d a (noStores (by simp))
    exact ⟨_, congrArg Host.Outcome.next (checked_none (setvl_decodes d a hs)), hl.says hP⟩
  · obtain ⟨hl, hP⟩ := vloopRun_granted hp hf hu spread d a (noStores (by simp))
    exact ⟨_, congrArg Host.Outcome.next (checked_none (vloop_decodes spread d a hs)), hl.says hP⟩
  · have hc : s.v.closes (s.v.mode == .spread) := by
      unfold Vlc.closes
      rcases hst with h | ⟨_, _, h⟩
      · simp [h]
      · simpa [h] using ((State.smooth_iff s).1 hs).2.2.2.2.2.2
    obtain ⟨hl, hP⟩ := vnextRun_granted hp hf hu d k hm (fun h => hr (congrArg BitVec.toNat h)) hc
    exact ⟨_, congrArg Host.Outcome.next (checked_none (vnext_decodes d k hs)), hl.says hP⟩

end Sys2Proof.Machine
end

section
/-! Grants that wait, VREGS and the end of a loop (R23, R29, R33), for O36. -/

namespace Sys2Proof.Machine

/-! ## Grants that wait -/

/-- SETVL and VLOOP are grants, once decode's checks are made. -/
theorem exec_of_grant {s : State} {i : Instr} {d a : SReg} (hi : i = .setvl d a ∨ ∃ sp, i = .vloop sp d a)
    (hd : decodeStop i s = none) : ∃ sp k, exec i s = .next (s.grant i (s.rd a).toNat sp false k) := by
  rcases hi with rfl | ⟨sp, rfl⟩
  · have h : exec (.setvl d a) s = .next (setvlRun d a s) := congrArg Host.Outcome.next (checked_none hd)
    exact ⟨_, _, h⟩
  · have h : exec (.vloop sp d a) s = .next (vloopRun sp d a s) := congrArg Host.Outcome.next (checked_none hd)
    unfold vloopRun at h
    exact ⟨sp, _, h⟩

/-- Only the uncorrectable state it would read stops SETVL or VLOOP at decode. -/
theorem grant_decodes {s : State} {i : Instr} {d a : SReg} (hi : i = .setvl d a ∨ ∃ sp, i = .vloop sp d a) (hb : s.v.bad = []) :
    decodeStop i s = none := by
  have h : decodeStop i s = if badReads i s then some regfileStop else none := by
    rcases hi with rfl | ⟨sp, rfl⟩
    · rfl
    · rfl
  rw [h, badReads_none hb, if_neg Bool.false_ne_true]

/-- A grant takes a pre-emption request that is pending below supervisor level, and does nothing else (R29 step 2). -/
theorem State.grant_preempted {s : State} (i : Instr) (request : Nat) (spread : Bool) (k : State → State)
    (hst : s.v.stores = []) (hp : s.v.preempt = true) (hl : s.v.level = .user) :
    s.grant i request spread false k =
      (s.setV fun v => { v with preempt := false, ripe := false }).trapHere .preempt 0 0 none := by
  have h : s.v.preempt = true ∧ (!s.v.sup) = true := by simp [hp, Vlc.sup, hl]
  unfold State.grant State.closing State.afterStores
  rw [if_neg Bool.false_ne_true, if_pos hst]
  exact if_pos h

/-- The rows given up for a wait: the issuing VLC's own, with the images in them. -/
theorem State.giveUpRows (s : State) : ∃ u x, s.Beside u ∧ u.v = { s.v with rows := Vector.replicate 4 0, vregs := x } ∧
    ∀ i, s.waitRows i = u.block i := by
  by_cases h : s.v.rows = Vector.replicate 4 0
  · refine ⟨s, s.v.vregs, .refl s, by rw [← h], fun i => ?_⟩
    unfold State.waitRows
    rw [if_pos h]
  · obtain ⟨hb, x, hx⟩ := (s.setV fun v => { v with rows := Vector.replicate 4 0 }).asideVregs_loseImages
    refine ⟨_, x, ((s.beside_setV _).trans hb).trans (State.aside_dueRows _ s.v.core).toBeside, hx, fun i => ?_⟩
    unfold State.waitRows
    rw [if_neg h]

/-- A grant whose rows are not free waits without rows (R27). -/
theorem State.grant_waits {s : State} (i : Instr) (request : Nat) (spread : Bool) (k : State → State)
    (hst : s.v.stores = []) (hp : s.v.preempt = false) (hs : s.smooth = true)
    (hf : s.rowsFree s.v.declPend (s.entitled s.nextLc s.v.declPend) = false) :
    let t := s.grant i request spread false k
    t.v.status = .blocked i ∧ t.v.rows = Vector.replicate 4 0 ∧ t.v.pc = s.v.pc ∧ t.v.vl = s.v.vl ∧ t.v.mvl = s.v.mvl ∧
      t.v.sregs = s.v.sregs ∧ t.v.lc = s.nextLc ∧ t.v.declEff = s.v.declPend := by
  obtain ⟨hb, lost, hv⟩ := s.relocate_beside
  obtain ⟨M, T, S, N, K, A, hr⟩ := Vlc.relocated_lost s.v s.nextLc lost
  obtain ⟨u, x, hu, hux, hw⟩ := s.relocate.giveUpRows
  rw [hv, hr] at hux
  have hg : s.grant i request spread false k = u.block i := by
    rw [State.grant_eq (strip := false) i request spread k hst (.inl hp), if_neg (by rw [hf]; decide)]
    exact hw i
  have hsm : u.smooth = true := by
    rw [State.smooth_iff] at hs ⊢
    simp only [hux, hu.stepctl, hb.stepctl]
    exact hs
  intro t
  have ht : t = u.setV fun v => { v with status := .blocked i } := hg.trans (State.block_smooth i hsm)
  rw [ht, State.setV_v, hux]
  exact ⟨rfl, rfl, rfl, rfl, rfl, rfl, rfl, rfl⟩

theorem grantsThatWait : Claim.GrantsThatWait := by
  intro s d a i hi hb
  obtain ⟨sp, k, he⟩ := exec_of_grant hi (grant_decodes hi hb)
  refine ⟨fun hst => ?_, fun hst hp hl => ?_, fun hst hp hs hf => ⟨_, he, State.grant_waits i _ sp k hst hp hs hf⟩⟩
  · rw [he]
    exact congrArg Host.Outcome.next (State.closing_waits i _ hst)
  · rw [he, State.grant_preempted i _ sp k hst hp hl]

/-! ## VREGS and the end of a loop -/

/-- VNEXT at the end of its loop waits for the stores, and then ends it. -/
theorem vnextRun_last {d : SReg} {k : BitVec 18} {s : State} (hm : s.v.mode ≠ .inactive) (hn : s.v.scnt = BitVec.ofNat 64 s.v.vl) :
    vnextRun d k s = s.closing (.vnext d k) false fun s1 =>
      ((s1.setV fun v => { v.endStrip with scnt := 0, mode := .inactive }).wr d 0).finish (.vnext d k) := by
  have h0 : s.v.scnt - s.vlWord = 0 := by rw [hn]; exact BitVec.sub_self _
  unfold vnextRun
  simp only [if_neg hm, if_pos h0]

theorem declarationsAndLoopEnds : Claim.DeclarationsAndLoopEnds := by
  intro s d k n hs
  have hd := vnext_decodes d k hs
  have hrun : exec (.vnext d k) s = .next (vnextRun d k s) := congrArg Host.Outcome.next (checked_none hd)
  refine ⟨alone_ok (decodeStop_ok rfl rfl rfl rfl rfl rfl rfl rfl hs) hs, fun hm => ?_, fun hm hn hst => ?_, fun hm hn hst => ?_⟩
  · rw [hrun, vnextRun, if_pos hm, State.finish_smooth _ (State.smooth_wr d 0 hs)]
  · rw [hrun, vnextRun_last hm hn, State.closing_waits _ _ hst]
    rfl
  · have he : (s.setV fun v => { v.endStrip with scnt := 0, mode := .inactive }).smooth = true := hs
    rw [vnextRun_last hm hn, State.closing_ok (strip := false) _ _ hst] at hrun
    refine ⟨_, hrun.trans (congrArg Host.Outcome.next (State.finish_smooth _ (State.smooth_wr d 0 he))), Vlc.setS_scnt _ _ _,
      Vlc.setS_mode _ _ _, fun r hr => ?_, ?_, ?_, Vlc.setS_vl _ _ _, Vlc.setS_vregs _ _ _, Vlc.setS_masks _ _ _, rfl⟩
    · exact State.rd_wr_other _ 0 hr
    · refine (State.rd_wr _ d d 0).trans ?_
      rw [if_pos rfl, ite_self]
    · exact congrArg (· + 4) (Vlc.setS_pc _ _ _)

/-- Settles O36: decode lets a grant through to its closing, and then each of its steps either ends it or goes on to the next. -/
theorem grantsWaitAndLoopsEnd : Obligations.GrantsWaitAndLoopsEnd := ⟨grantsThatWait, declarationsAndLoopEnds⟩

end Sys2Proof.Machine
end

section
/-! SUPPORT. Steps about a VLC: how it is found and made the issuing one. -/

namespace Sys2Proof.Machine

/-- The VLC found leaves its place in the list to another. -/
theorem perm_replaceFirst {α : Type} {p : α → Bool} {l : List α} {v : α} (x : α) (h : l.find? p = some v) :
    (v :: replaceFirst p x l).Perm (x :: l) := by
  induction l with
  | nil => cases h
  | cons y l ih =>
    rw [List.find?_cons] at h
    unfold replaceFirst
    cases hp : p y with
    | true =>
      rw [hp] at h
      cases h
      exact List.Perm.swap x v l
    | false =>
      rw [hp] at h
      exact (List.Perm.swap y v _).trans (((ih h).cons y).trans (List.Perm.swap x y l))

/-- Bringing a VLC brings one that satisfies the predicate, changes the VLC records alone, and loses none of them. -/
theorem State.bring_spec {s s1 : State} {p : Vlc → Bool} (h : s.bring p = some s1) :
    p s1.v = true ∧ s1 = { s with v := s1.v, parked := s1.parked } ∧ (s.v.status ≠ .absent → s1.vlcs.Perm s.vlcs) := by
  unfold State.bring at h
  split at h
  case isTrue hp => cases h; exact ⟨hp, rfl, fun _ => .refl _⟩
  case isFalse =>
    split at h
    case h_1 => cases h
    case h_2 v hv =>
      have hp := List.find?_some hv
      split at h
      case isTrue hs => cases h; exact ⟨hp, rfl, fun hn => absurd hs hn⟩
      case isFalse => cases h; exact ⟨hp, rfl, fun _ => perm_replaceFirst s.v hv⟩

theorem State.bring_self {s : State} {p : Vlc → Bool} (h : p s.v = true) : s.bring p = some s := if_pos h

/-- A step about a VLC that is not frozen. -/
theorem State.onVlc_found {s s1 : State} {core slot : Nat} (k : State → State) (h : s.bring (·.isAt core slot) = some s1)
    (hf : s1.v.frozen = false) : s.onVlc core slot k = k s1 := by
  unfold State.onVlc
  rw [h]
  exact if_neg (by rw [hf]; decide)

/-- A step about a VLC that is frozen (R370). -/
theorem State.onVlc_frozen {s s1 : State} {core slot : Nat} (k : State → State) (h : s.bring (·.isAt core slot) = some s1)
    (hf : s1.v.frozen = true) : s.onVlc core slot k = s := by
  unfold State.onVlc
  rw [h]
  exact if_pos hf

/-- A step about no VLC there is. -/
theorem State.onVlc_none {s : State} {core slot : Nat} (k : State → State) (h : s.bring (·.isAt core slot) = none) :
    s.onVlc core slot k = s := by
  unfold State.onVlc
  rw [h]

/-- A resident VLC is at its own place. -/
theorem Vlc.isAt_self {v : Vlc} (h : v.status.resident = true) : v.isAt v.core v.slot = true := by
  simp [Vlc.isAt, h]

/-- A step about the issuing VLC itself. -/
theorem State.onVlc_self {s : State} (k : State → State) (hr : s.v.status.resident = true) (hf : s.v.frozen = false) :
    s.onVlc s.v.core s.v.slot k = k s :=
  State.onVlc_found k (State.bring_self (Vlc.isAt_self hr)) hf

/-- A step about the issuing VLC, which waits in an instruction. -/
theorem State.onVlc_blocked {s : State} {i : Instr} (k : State → State) (hb : s.v.status = .blocked i) (hf : s.v.frozen = false) :
    s.onVlc s.v.core s.v.slot k = k s :=
  State.onVlc_self k (by rw [hb]; rfl) hf

/-- The meaning of a step about a VLC. -/
theorem exec_aboutVlc {e : Instr} {core slot : Nat} (h : aboutVlc e = some (core, slot)) :
    ∃ k, ∀ s, exec e s = .next (s.onVlc core slot k) := by
  unfold aboutVlc at h
  split at h
  case h_16 => cases h
  all_goals
    cases h
    exact ⟨_, fun _ => rfl⟩

end Sys2Proof.Machine
end

section
/-! SUPPORT. An element of a vector register after elements were written (R54, R56). -/

namespace Sys2Proof.Machine

/-- A number with the `w` bits at `k` replaced is that number's other bits around the new ones. -/
theorem replace_bits (N w k x : Nat) :
    N - (N >>> k % 2 ^ w) <<< k + (x % 2 ^ w) <<< k = 2 ^ k * (2 ^ w * (N / 2 ^ k / 2 ^ w) + x % 2 ^ w) + N % 2 ^ k := by
  have h1 := Nat.div_add_mod N (2 ^ k)
  have h2 := Nat.div_add_mod (N / 2 ^ k) (2 ^ w)
  rw [Nat.shiftRight_eq_div_pow, Nat.shiftLeft_eq, Nat.shiftLeft_eq, Nat.mul_add]
  rw [← h2, Nat.mul_add, Nat.mul_comm _ (N / 2 ^ k % 2 ^ w)] at h1
  rw [Nat.mul_comm (x % 2 ^ w)]
  omega

/-- Its bits. -/
theorem testBit_replace_bits (N w k x j : Nat) :
    (N - (N >>> k % 2 ^ w) <<< k + (x % 2 ^ w) <<< k).testBit j =
      if k ≤ j ∧ j < k + w then x.testBit (j - k) else N.testBit j := by
  rw [replace_bits, Nat.testBit_two_pow_mul_add _ (Nat.mod_lt _ (Nat.two_pow_pos k)),
    Nat.testBit_two_pow_mul_add _ (Nat.mod_lt _ (Nat.two_pow_pos w)), Nat.testBit_mod_two_pow, Nat.testBit_mod_two_pow,
    Nat.testBit_div_two_pow, Nat.testBit_div_two_pow]
  by_cases h1 : j < k
  · simp [h1, show ¬k ≤ j by omega]
  · by_cases h2 : j - k < w
    · simp [h1, h2, show k ≤ j ∧ j < k + w by omega]
    · simp [h1, h2, show ¬(k ≤ j ∧ j < k + w) by omega, show j - k - w + w + k = j by omega]

/-- The bits of an element of a vector register. -/
theorem VecReg.testBit_elem (r : VecReg) (w i j : Nat) : (r.elem w i).testBit j = (decide (j < w) && r.img.toNat.testBit (w * i + j)) := by
  rw [VecReg.elem, Nat.testBit_mod_two_pow, Nat.testBit_shiftRight]

/-- The bits of a register after an element of it was written. -/
theorem VecReg.testBit_put (r : VecReg) (w i x j : Nat) (hj : j < 262144) :
    (r.put w i x).img.toNat.testBit j =
      if w * i ≤ j ∧ j < w * i + w then x.testBit (j - w * i) else r.img.toNat.testBit j := by
  rw [VecReg.put, BitVec.testBit_toNat, BitVec.getLsbD_ofNat, decide_eq_true hj, Bool.true_and, VecReg.elem, testBit_replace_bits]

/-- An element reads what was written to it. -/
theorem VecReg.elem_put_same (r : VecReg) (w i x : Nat) (h : w * (i + 1) ≤ 262144) : (r.put w i x).elem w i = x % 2 ^ w := by
  refine Nat.eq_of_testBit_eq fun j => ?_
  rw [VecReg.testBit_elem, Nat.testBit_mod_two_pow]
  by_cases hj : j < w
  · rw [VecReg.testBit_put _ _ _ _ _ (by rw [Nat.mul_add] at h; omega), if_pos (by omega), Nat.add_sub_cancel_left]
  · simp [hj]

/-- Every other element of the register reads as it did. -/
theorem VecReg.elem_put_other (r : VecReg) (w i k x : Nat) (hk : k ≠ i) (h : w * (k + 1) ≤ 262144) :
    (r.put w i x).elem w k = r.elem w k := by
  refine Nat.eq_of_testBit_eq fun j => ?_
  rw [VecReg.testBit_elem, VecReg.testBit_elem]
  by_cases hj : j < w
  · have hki : w * k + w ≤ w * i ∨ w * i + w ≤ w * k := by
      rcases Nat.lt_or_gt_of_ne hk with hlt | hlt
      · exact .inl (Nat.mul_le_mul_left w hlt)
      · exact .inr (Nat.mul_le_mul_left w hlt)
    rw [VecReg.testBit_put _ _ _ _ _ (by rw [Nat.mul_add] at h; omega), if_neg (by omega)]
  · simp [hj]

/-- A register that the VLC's rows hold reads what was written to it. -/
theorem Vlc.vreg_setVreg_same (v : Vlc) (d : VReg) (x : VecReg) (h : d.toNat < 8 * (v.declHeld.toNat + 1)) :
    (v.setVreg d x).vreg d = x := by
  unfold Vlc.setVreg Vlc.vreg
  rw [if_neg (by omega)]
  exact Vector.getElem_set_self _

/-- One element written: it reads its value, and every other element as it did. -/
theorem State.elem_writeElem (s : State) (t : VType) (d : VReg) (i x k : Nat) (hd : d.toNat < 8 * (s.v.declHeld.toNat + 1))
    (hi : s.v.fits t.width i = true) (hk : t.width * (k + 1) ≤ 262144) :
    ((s.writeElem t d i x).v.vreg d).elem t.width k =
      if k = i then payload t x % 2 ^ t.width else (s.v.vreg d).elem t.width k := by
  unfold State.writeElem
  rw [if_pos hi, State.setV_v, Vlc.vreg_setVreg_same _ _ _ hd]
  split
  · rename_i h; subst h; exact VecReg.elem_put_same _ _ _ _ hk
  · rename_i h; exact VecReg.elem_put_other _ _ _ _ _ h hk

/-- A register written, or the write discarded. -/
theorem Vlc.setVreg_eq (v : Vlc) (d : VReg) (x : VecReg) : ∃ y, v.setVreg d x = { v with vregs := y } := by
  unfold Vlc.setVreg
  split
  · exact ⟨v.vregs, rfl⟩
  · exact ⟨_, rfl⟩

/-- Writing elements changes the issuing VLC's vector registers alone. -/
theorem State.writeElem_eq (s : State) (t : VType) (d : VReg) (i x : Nat) :
    ∃ y, s.writeElem t d i x = s.setV fun v => { v with vregs := y } := by
  unfold State.writeElem
  split
  · obtain ⟨y, hy⟩ := s.v.setVreg_eq d ((s.v.vreg d).put t.width i (payload t x))
    exact ⟨y, congrArg (fun v => { s with v := v }) hy⟩
  · exact ⟨s.v.vregs, rfl⟩

theorem State.writeElems_eq (s : State) (t : VType) (d : VReg) (l : List (Nat × Nat)) :
    ∃ y, s.writeElems t d l = s.setV fun v => { v with vregs := y } := by
  induction l generalizing s with
  | nil => exact ⟨s.v.vregs, rfl⟩
  | cons p l ih =>
    obtain ⟨y, hy⟩ := s.writeElem_eq t d p.1 p.2
    obtain ⟨z, hz⟩ := ih (s.writeElem t d p.1 p.2)
    exact ⟨z, hz.trans (by rw [hy]; rfl)⟩

/-- The elements from number `i` on written in turn. -/
theorem State.elem_writeElems (s : State) (t : VType) (d : VReg) (l : List Nat) (i k : Nat)
    (hd : d.toNat < 8 * (s.v.declHeld.toNat + 1)) (hl : t.width * (i + l.length) ≤ 64 * s.v.mvl64)
    (hk : t.width * (k + 1) ≤ 262144) :
    ((s.writeElems t d ((List.range' i l.length).zip l)).v.vreg d).elem t.width k =
      if i ≤ k ∧ k < i + l.length then payload t (l.getD (k - i) 0) % 2 ^ t.width else (s.v.vreg d).elem t.width k := by
  induction l generalizing s i with
  | nil => simp [State.writeElems, show ¬(i ≤ k ∧ k < i) by omega]
  | cons x l ih =>
    have hi : s.v.fits t.width i = true := by
      refine decide_eq_true (le_trans (Nat.mul_le_mul_left _ ?_) hl)
      simp
    obtain ⟨y, hy⟩ := s.writeElem_eq t d i x
    have hlen : i + (x :: l).length = i + 1 + l.length := by simp; omega
    have step := ih (s.writeElem t d i x) (i + 1) (by rw [hy]; exact hd) (by rw [hy, ← hlen]; exact hl)
    rw [List.length_cons, List.range'_succ, List.zip_cons_cons]
    refine step.trans ?_
    rw [State.elem_writeElem s t d i x k hd hi hk]
    by_cases h : k = i
    · subst h; simp
    · by_cases h2 : i + 1 ≤ k ∧ k < i + 1 + l.length
      · obtain ⟨j, rfl⟩ : ∃ j, k = i + 1 + j := ⟨k - i - 1, by omega⟩
        simp [h2, show i ≤ i + 1 + j ∧ i + 1 + j < i + (l.length + 1) by omega, show i + 1 + j - i = j + 1 by omega]
      · rw [if_neg h2, if_neg h, if_neg (by omega)]

/-- An element of a VLC's register, in the words of R54. -/
theorem Vlc.element_f32 (v : Vlc) (r : VReg) (k : Nat) : v.element .f32 r k = (v.vreg r).elem 32 k := by
  unfold Vlc.element VecReg.elem Vlc.vreg
  simp [BitVec.extractLsb'_toNat, VType.width]

end Sys2Proof.Machine
end

section
/-! Steps about a VLC and the wakes of waiting ones (R21, R27, R45, R194, R268, R405), for O38. -/

namespace Sys2Proof.Machine

theorem eventsFindTheirVlc : Claim.EventsFindTheirVlc := by
  intro e core slot s he
  obtain ⟨k, hk⟩ := exec_aboutVlc he
  refine ⟨fun hn => by rw [hk, State.onVlc_none k hn], fun s1 hs1 => ?_⟩
  obtain ⟨hp, hs, hperm⟩ := State.bring_spec hs1
  refine ⟨hp, hs, hperm, fun hf => by rw [hk, State.onVlc_frozen k hs1 hf], fun hf => ?_⟩
  rw [hk, hk, State.onVlc_found k hs1 hf, State.onVlc_found k (State.bring_self hp) hf]

theorem wakesRunTheInstructionAgain : Claim.WakesRunTheInstructionAgain := by
  intro e i s hw hb hf ha hd
  unfold wakes at hw
  split at hw
  case h_9 => cases hw
  all_goals
    cases hw
    refine (congrArg Host.Outcome.next ?_).trans (congrArg Host.Outcome.next (checked_none hd)).symm
    refine (State.onVlc_blocked _ hb hf).trans ?_
    rw [hb]
  all_goals exact if_pos ha

/-! ## Wakes that complete -/

/-- A grant that waited and whose rows are free now. -/
theorem grantWake_completes {s : State} {i : Instr} (hb : s.v.status = .blocked i) (hf : s.v.frozen = false)
    (hs : s.smooth = true) {d a : SReg} (hi : i = .setvl d a ∨ ∃ sp, i = .vloop sp d a)
    (hp : s.v.preempt = false ∨ s.v.level = .supervisor) (hst : s.v.stores = [])
    (hr : s.rowsFree s.v.declPend (s.entitled s.nextLc s.v.declPend) = true) :
    ∃ t sp, exec (.grantRowsFree s.v.core s.v.slot) s = .next t ∧ s.GrantLeaves t d (s.rd a).toNat sp ∧ t.v.pc = s.v.pc + 4 := by
  have hu := State.unstepped_of_smooth hs
  rcases hi with rfl | ⟨sp, rfl⟩
  · obtain ⟨hl, -, -, hpc⟩ := setvlRun_granted hp hr hu d a hst
    refine ⟨_, _, congrArg Host.Outcome.next ((State.onVlc_blocked _ hb hf).trans ?_), hl, hpc⟩
    rw [hb]
  · obtain ⟨hl, -, -, hpc⟩ := vloopRun_granted hp hr hu sp d a hst
    refine ⟨_, _, congrArg Host.Outcome.next ((State.onVlc_blocked _ hb hf).trans ?_), hl, hpc⟩
    rw [hb]

/-- The issuing VLC and every STEPCTL are as they were. -/
def State.SameVlc (s t : State) : Prop := t.v = s.v ∧ ∀ c, (t.core c).stepctl = (s.core c).stepctl

theorem State.SameVlc.trans {s t u : State} (h : s.SameVlc t) (k : t.SameVlc u) : s.SameVlc u :=
  ⟨k.1.trans h.1, fun c => (k.2 c).trans (h.2 c)⟩

theorem State.sameVlc_writePlace (s : State) (p : Place) (n x : Nat) (key : Option Nat) : s.SameVlc (s.writePlace p n x key) := by
  cases p with
  | phys pa =>
    unfold State.writePlace
    simp only
    split
    · exact ⟨by simp, by simp⟩
    · exact ⟨rfl, fun _ => rfl⟩
  | cmem c o => exact ⟨by simp [State.writePlace], fun c => by simp [State.writePlace]⟩
  | spad c o =>
    refine ⟨by simp [State.writePlace], fun d => ?_⟩
    exact (State.stepctl_wrote _ _ d).trans (State.stepctl_setCore s c d rfl)

theorem State.sameVlc_healUnits (s : State) (l : List Shade) : s.SameVlc (s.healUnits l) := by
  refine foldl_keeps (R := State.SameVlc) (fun _ => ⟨rfl, fun _ => rfl⟩) .trans (fun s h => ?_) l s
  cases h.place with
  | cmem => exact ⟨rfl, fun _ => rfl⟩
  | spad => exact ⟨rfl, fun _ => rfl⟩
  | phys pa =>
    simp only
    split
    · exact ⟨rfl, fun _ => rfl⟩
    · exact ⟨rfl, fun _ => rfl⟩

/-- A publication to scratchpads and cluster memories leaves every VLC as it is. -/
theorem State.sameVlc_publish (s : State) (launch rank : Nat) (set : List Command)
    (h : ∀ c ∈ set, c.tags = [] ∧ ∀ h ∈ c.shadow, h.place.onChip) : s.SameVlc (s.publish launch rank set) := by
  have htags : set.flatMap (·.tags) = [] := List.flatMap_eq_nil_iff.2 fun c hc => (h c hc).1
  have hfar (s : State) : s.farShades (set.flatMap (·.shadow)) = [] := by
    refine List.filterMap_eq_nil_iff.2 fun x hx => ?_
    obtain ⟨c, hc, hx⟩ := List.mem_flatMap.1 hx
    have hon := (h c hc).2 x hx
    cases hp : x.place with
    | phys pa => rw [hp] at hon; exact hon.elim
    | cmem => rfl
    | spad => rfl
  have hshades : s.SameVlc (s.publishShades launch rank (set.flatMap (·.shadow)) (set.flatMap (·.tags))) := by
    have hops : s.farOps (set.flatMap (·.shadow)) [] = [] := by simp [State.farOps, hfar]
    unfold State.publishShades
    rw [htags, hops]
    exact (foldl_keeps (R := State.SameVlc) (fun _ => ⟨rfl, fun _ => rfl⟩) .trans
      (fun s (x : Shade) => s.sameVlc_writePlace x.place x.n x.x x.key) _ s).trans (State.sameVlc_healUnits _ _)
  exact hshades.trans ⟨rfl, fun _ => rfl⟩

theorem State.SameVlc.smooth {s t : State} (h : s.SameVlc t) (hs : s.smooth = true) : t.smooth = true :=
  (State.smooth_of_eq h.1 h.2).trans hs

/-- PUBL whose commands have all ended well publishes them and completes. -/
theorem publRun_publishes {s : State} (i : Instr) (a : SReg) (hs : s.smooth = true) (hst : s.v.stores = [])
    (h : ∀ c ∈ s.publSet (s.rd a).toNat, (∃ w, c.status = some w ∧ w.toNat % 128 = 0) ∧ c.tags = [] ∧
      ∀ h ∈ c.shadow, h.place.onChip) :
    publRun i a s = (s.publish s.v.launch s.v.rank.toNat (s.publSet (s.rd a).toNat)).past i := by
  have h1 : ¬((s.publSet (s.rd a).toNat).any fun c => c.status.isNone) = true := by
    simp only [List.any_eq_true, not_exists, not_and]
    intro c hc hn
    obtain ⟨w, hw, -⟩ := (h c hc).1
    rw [hw] at hn; cases hn
  have h2 : ¬((s.publSet (s.rd a).toNat).any fun c => (c.status.getD 0).toNat % 128 != 0) = true := by
    simp only [List.any_eq_true, not_exists, not_and]
    intro c hc hn
    obtain ⟨w, hw, h0⟩ := (h c hc).1
    rw [hw, Option.getD_some, h0] at hn; cases hn
  have hp := State.sameVlc_publish s s.v.launch s.v.rank.toNat (s.publSet (s.rd a).toNat) fun c hc => (h c hc).2
  unfold publRun
  simp only [if_neg h1, if_neg h2, hst, ne_eq, not_true_eq_false, if_false]
  exact State.finish_smooth i (hp.smooth hs)

/-! ## A triple delivered (R268) -/

theorem VecReg.elem_heal_cover (r : VecReg) (t : VType) (e words w i : Nat) (act : Nat → Bool) (n k : Nat) :
    (((r.cover t e words).heal w act n).elem i k) = r.elem i k := by
  have hc : (r.cover t e words).img = r.img := by unfold VecReg.cover; split <;> rfl
  have hh (r : VecReg) : (r.heal w act n).img = r.img := by unfold VecReg.heal; split <;> rfl
  unfold VecReg.elem
  rw [hh, hc]

/-- The vector register of a delivered triple: its elements, and its poison (R268). -/
def State.received (s : State) (d : VReg) (t : Triple) : State :=
  let s2 := (s.writeElems .f32 d ((List.range s.v.vl).zip (t.acc.map (·.toNat)))).cover .f32 d s.v.vl fun _ => true
  if stPoison t.status then s2.spoil d else s2

theorem State.received_spec (s : State) (d : VReg) (t : Triple) (hn : t.acc.length = s.v.vl)
    (hd : d.toNat < 8 * (s.v.declHeld.toNat + 1)) (hf : s.v.vl * 32 ≤ 64 * s.v.mvl64) (hm : s.v.mvl64 ≤ 4096) :
    ∃ z p, s.received d t = s.setV (fun v => { v with vregs := z, fsrPoison := p }) ∧
      ∀ k, k < s.v.vl → (z[d.toNat]).elem 32 k = (t.acc.getD k 0).toNat := by
  obtain ⟨y, hy⟩ := s.writeElems_eq .f32 d ((List.range s.v.vl).zip (t.acc.map (·.toNat)))
  have hel (k : Nat) (hk : k < s.v.vl) : (y[d.toNat]).elem 32 k = (t.acc.getD k 0).toNat := by
    have h := s.elem_writeElems .f32 d (t.acc.map (·.toNat)) 0 k hd (by simp [VType.width, hn]; omega) (by simp [VType.width]; omega)
    rw [List.length_map, hn, ← List.range_eq_range', if_pos (by omega), hy] at h
    refine h.trans ?_
    have hlt := (t.acc.getD k 0).isLt
    simp only [payload, List.getD_eq_getElem?_getD, List.getElem?_map, Nat.sub_zero] at hlt ⊢
    cases hk : t.acc[k]? with
    | none => rfl
    | some x => rw [hk] at hlt; exact Nat.mod_eq_of_lt hlt
  have hset (v : Vlc) (hv : v.declHeld = s.v.declHeld) (x : VecReg) : v.setVreg d x = { v with vregs := v.vregs.set d.toNat x } :=
    if_neg (by rw [hv]; omega)
  let y1 := y.set d.toNat (((y[d.toNat]).cover .f32 s.v.vl s.v.mvl64).heal 32 (fun _ => true) s.v.vl)
  have h2 : (s.writeElems .f32 d ((List.range s.v.vl).zip (t.acc.map (·.toNat)))).cover .f32 d s.v.vl (fun _ => true) =
      s.setV fun v => { v with vregs := y1 } := by
    rw [hy]; exact congrArg (fun v => { s with v := v }) (hset { s.v with vregs := y } rfl _)
  have hel1 (k : Nat) (hk : k < s.v.vl) : (y1[d.toNat]).elem 32 k = (t.acc.getD k 0).toNat := by
    rw [Vector.getElem_set_self, VecReg.elem_heal_cover]; exact hel k hk
  unfold State.received
  simp only [h2]
  split
  · refine ⟨y1.set d.toNat ((y1[d.toNat]).spoil s.v.vl), true, congrArg (fun v : Vlc => { s with v := { v with fsrPoison := true } })
      (hset { s.v with vregs := y1 } rfl _), fun k hk => ?_⟩
    rw [Vector.getElem_set_self]; exact hel1 k hk
  · exact ⟨y1, s.v.fsrPoison, rfl, hel1⟩

/-- WQRECV whose sub-query's triple is there. -/
theorem recvRun_delivers {s : State} {d : VReg} {a b : SReg} {q : SubQuery} {t : Triple} (ht : s.rd a ≠ 0)
    (hw : s.rd a ∈ s.v.wickTags.toList) (hq : s.nextTriple (s.rd a) = some q) (hqt : q.triple = some t) (hvl : s.v.vl = q.d)
    (h0 : 0 < q.d) (hf : s.v.wickFits = true) : recvRun d a b s = s.deliver (.wqrecv d a b) d a b q t := by
  have h1 : ¬s.v.vl = 0 := by omega
  have h2 : ¬(s.rd a = 0 ∨ (!s.v.wickTags.toList.contains (s.rd a)) = true) := by
    rintro (h | h)
    · exact ht h
    · simp [hw] at h
  have h3 : ¬(s.v.vl ≠ q.d ∨ (!s.v.wickFits) = true) := by simp [hvl, hf]
  unfold recvRun
  simp only [if_neg h1, if_neg h2, hq, if_neg h3, hqt]

/-- A last triple frees its tag (R268). -/
def State.freeTagOf (s : State) (q : SubQuery) (tag : Word) : State :=
  if q.last then s.setV fun v => { v with wickTags := v.wickTags.map fun x => if x = tag then 0 else x } else s

/-- WQRECV's last steps: the sub-query is gone, and the instruction completes. -/
theorem State.freeTagOf_finish {s : State} (i : Instr) (q : SubQuery) (tag : Word) (hs : s.smooth = true) :
    let u := (State.clearVstart { (s.freeTagOf q tag) with
      subqueries := (s.freeTagOf q tag).subqueries.filter fun x => !x.same q }).finish i
    u.v.status = .runnable ∧ u.v.pc = s.v.pc + BitVec.ofNat 64 i.len ∧ u.mem = s.mem ∧ u.v.vregs = s.v.vregs ∧
      u.subqueries = s.subqueries.filter fun x => !x.same q := by
  obtain ⟨tags, ht⟩ : ∃ tags, s.freeTagOf q tag = s.setV fun v => { v with wickTags := tags } := by
    unfold State.freeTagOf
    split
    · exact ⟨_, rfl⟩
    · exact ⟨s.v.wickTags, rfl⟩
  intro u
  have hu : u = State.past (State.clearVstart { (s.setV fun v => { v with wickTags := tags }) with
      subqueries := s.subqueries.filter fun x => !x.same q }) i := by
    show State.finish _ i = _
    rw [ht]
    exact State.finish_smooth i hs
  rw [hu]
  exact ⟨rfl, rfl, rfl, rfl, rfl⟩

/-- A delivered triple: WQRECV completes, with its elements in the vector register and its sub-query gone. -/
theorem State.deliver_completes {s : State} (i : Instr) (d : VReg) (a b : SReg) (q : SubQuery) (t : Triple) (hs : s.smooth = true)
    (hn : t.acc.length = s.v.vl) (hd : d.toNat < 8 * (s.v.declHeld.toNat + 1)) (hf : s.v.vl * 32 ≤ 64 * s.v.mvl64)
    (hm : s.v.mvl64 ≤ 4096) :
    let u := s.deliver i d a b q t
    u.v.status = .runnable ∧ u.v.pc = s.v.pc + BitVec.ofNat 64 i.len ∧ u.mem = s.mem ∧
      (∀ k, k < s.v.vl → u.v.element .f32 d k = (t.acc.getD k 0).toNat) ∧
      u.subqueries = s.subqueries.filter fun x => !x.same q := by
  obtain ⟨z, p, hz, hel⟩ := s.received_spec d t hn hd hf hm
  have h3 : (s.received d t).smooth = true := by rw [hz]; exact hs
  have h4 := State.smooth_wr (b + 2) (t.status ||| flagAt q.last 63)
    (State.smooth_wr (b + 1) (t.l.setWidth 64) (State.smooth_wr b (t.m.setWidth 64) h3))
  obtain ⟨h1, h2, h5, h6, h7⟩ := State.freeTagOf_finish i q (s.rd a) h4
  refine ⟨h1, h2.trans ?_, h5.trans ?_, fun k hk => ?_, h7.trans ?_⟩
  · simp [hz]
  · simp [hz]
  · have hv : (s.deliver i d a b q t).v.vregs = z := h6.trans (by simp [hz])
    rw [Vlc.element_f32, Vlc.vreg, hv]
    exact hel k hk
  · simp [hz]

theorem wakesComplete : Claim.WakesComplete := by
  intro s i hb hf ha hs
  refine ⟨fun d a hi hp hst hr => ?_, fun sc a hi hst hset => ?_, fun d a b w hi hc => ?_,
    fun d a b q t hi hwf h0 hw hq hqt hn hvl hpos hmax hfits hlen hm hd => ?_⟩
  · obtain ⟨t, sp, ht, hl, hpc⟩ := grantWake_completes hb hf hs hi hp hst hr
    exact ⟨t, ht, hl.status, hpc, hl.lc, hl.declEff, hl.vl, hl.rd_same, hl.rd_other, hl.mem⟩
  · refine congrArg Host.Outcome.next ((State.onVlc_blocked _ hb hf).trans ?_)
    rw [hb, hi]
    exact publRun_publishes _ a hs hst hset
  · refine congrArg Host.Outcome.next ((State.onVlc_blocked _ hb hf).trans ?_)
    rw [hb, hi]
    have hcl : (s.claim (s.rd a).toNat).smooth = true := hs
    unfold cwaitRun
    simp only [hc]
    exact State.finish_smooth _ (State.smooth_wr d w hcl)
  · have he : exec (.wqrecvTripleReady s.v.core s.v.slot) s = .next (s.deliver i d a b q t) := by
      refine congrArg Host.Outcome.next ((State.onVlc_blocked _ hb hf).trans ?_)
      rw [hb, hi]
      exact recvRun_delivers h0 hw hq hqt hvl hpos hfits
    obtain ⟨h1, h2, h3, h4, h5⟩ := State.deliver_completes i d a b q t hs (hn.trans hvl.symm) hd hlen hm
    subst hi
    exact ⟨_, he, h1, h2, h3, fun k hk => h4 k (hvl ▸ hk), h5⟩

/-- Settles O38: a step about a VLC brings it by core and slot, and the VLC's instruction then runs from the state as it is. -/
theorem wakesFindTheirVlc : Obligations.WakesFindTheirVlc :=
  ⟨eventsFindTheirVlc, wakesRunTheInstructionAgain, wakesComplete⟩

end Sys2Proof.Machine
end

section
/-! Waits that end, pre-emption requests, and WAITV (R27, R45, R47, R48, R87, R188, R313 to R316, R320, R358), for O39. -/

namespace Sys2Proof.Machine

/-! ## The steps that end a wait -/

theorem waitsEnd : Claim.WaitsEnd := by
  intro s hr hf hs c k
  have here (f : State → State) : s.onVlc c k f = f s := State.onVlc_self f hr hf
  refine ⟨fun f sc hb hst => ?_, fun i hb => ?_, fun d t hb => ?_, fun hb hp => ?_, fun core slot => rfl, fun core slot => ?_,
    fun core slot => ?_, fun core slot => ?_⟩
  · refine congrArg Host.Outcome.next ((here _).trans ?_)
    rw [hb]
    exact (if_pos hst).trans (State.finish_smooth _ hs)
  · refine congrArg Host.Outcome.next ((here _).trans ?_)
    rw [hb]
  · refine congrArg Host.Outcome.next ((here _).trans ?_)
    rw [hb]
    have hbeacon : (if s.beacon.ult t then t else s.beacon) = if s.beacon.toNat < t.toNat then t else s.beacon := by
      simp [BitVec.ult]
    simp only [hbeacon]
    exact State.finish_smooth _ (State.smooth_wr (s := { s with beacon := _ }) d _ hs)
  · exact congrArg Host.Outcome.next ((here _).trans ((if_pos ⟨hb, hp⟩).trans (State.finish_smooth _ hs)))
  · refine congrArg (fun f => Host.Outcome.next (s.mapVlcs f)) (funext fun v => ?_)
    by_cases h1 : v.isAt core slot <;> by_cases h2 : v.spin.demoted <;> simp [h1, h2]
  · refine congrArg (fun f => Host.Outcome.next (s.mapVlcs f)) (funext fun v => ?_)
    by_cases h1 : v.isAt core slot <;> by_cases h2 : v.spin.demoted <;> simp [h1, h2]
  · have h : (fun v : Vlc => if v.isAt core slot then id v else v) = id := funext fun v => ite_self v
    refine congrArg Host.Outcome.next ?_
    unfold State.setVlcAt State.mapVlcs
    rw [h, List.map_id]
    rfl

/-! ## Pre-emption requests -/

/-- Every VLC resident at a core and slot has a pre-emption request. -/
def State.asked (s : State) (core slot : Nat) : Prop := ∀ v ∈ s.vlcs, v.isAt core slot = true → v.preempt = true

/-- A request is made of the VLC at its core and slot, and others stand. -/
theorem State.requestPreempt_spec (s : State) (core slot : Nat) :
    (s.requestPreempt core slot).v.sregs = s.v.sregs ∧ (s.requestPreempt core slot).mem = s.mem ∧
      (s.requestPreempt core slot).asked core slot ∧
      ∀ c k, s.asked c k → (s.requestPreempt core slot).asked c k := by
  have hvlcs : (s.requestPreempt core slot).vlcs = s.vlcs.map fun v => if v.isAt core slot then { v with preempt := true } else v := by
    unfold State.requestPreempt
    simp only
    split
    · rfl
    · rfl
  have hat (v : Vlc) (c k : Nat) : Vlc.isAt (if v.isAt core slot then { v with preempt := true } else v) c k = v.isAt c k := by
    split
    · rfl
    · rfl
  refine ⟨?_, ?_, fun v hv hc => ?_, fun c k h v hv hc => ?_⟩
  · unfold State.requestPreempt State.setVlcAt State.mapVlcs
    simp only
    split <;> split <;> rfl
  · unfold State.requestPreempt
    simp only
    split <;> rfl
  · rw [hvlcs] at hv
    obtain ⟨w, -, rfl⟩ := List.mem_map.1 hv
    rw [hat] at hc
    rw [if_pos hc]
  · rw [hvlcs] at hv
    obtain ⟨w, hw, rfl⟩ := List.mem_map.1 hv
    rw [hat] at hc
    split
    · rfl
    · exact h w hw hc

/-- Requests made in turn. -/
theorem State.requestPreempts_spec (l : List Vlc) (s : State) :
    let t := l.foldl (fun s v => s.requestPreempt v.core v.slot) s
    t.v.sregs = s.v.sregs ∧ t.mem = s.mem ∧ (∀ w ∈ l, t.asked w.core w.slot) ∧ ∀ c k, s.asked c k → t.asked c k := by
  induction l generalizing s with
  | nil => exact ⟨rfl, rfl, fun w hw => absurd hw List.not_mem_nil, fun _ _ h => h⟩
  | cons v l ih =>
    obtain ⟨h1, h2, h3, h4⟩ := s.requestPreempt_spec v.core v.slot
    obtain ⟨i1, i2, i3, i4⟩ := ih (s.requestPreempt v.core v.slot)
    refine ⟨i1.trans h1, i2.trans h2, fun w hw => ?_, fun c k h => i4 c k (h4 c k h)⟩
    rcases List.mem_cons.1 hw with rfl | hw
    · exact i4 _ _ h3
    · exact i3 w hw

theorem preemptionRequests : Claim.PreemptionRequests := by
  intro s hr hf c k forced
  have here (f : State → State) : s.onVlc c k f = f s := State.onVlc_self f hr hf
  have pending (hp : s.v.preempt = true) : ¬(!s.v.preempt) = true := by simp [hp]
  have user (hl : s.v.level = .user) : ¬(s.setV fun v => { v with ripe := true }).v.sup = true := by
    simp [Vlc.sup, hl]
  refine ⟨fun hg => ?_, fun i n hb hi hp hl => ?_, fun i n hb hu hp hl => ?_, fun n hb hp hl => ?_, fun n hp hl => ?_,
    fun hp hripe hl hv hfab hc hz => ?_⟩
  · obtain ⟨h1, h2, h3, -⟩ := State.requestPreempts_spec s.hindering s
    exact ⟨_, congrArg Host.Outcome.next ((here _).trans (if_pos hg)), h1, h2, h3⟩
  · refine congrArg Host.Outcome.next ((here _).trans ((if_neg (pending hp)).trans ((if_neg (user hl)).trans ?_)))
    simp only [State.setV_v, hb]
    exact if_pos hi
  · refine congrArg Host.Outcome.next ((here _).trans ((if_neg (pending hp)).trans ((if_neg (user hl)).trans ?_)))
    simp only [State.setV_v, hb]
    exact if_pos hu
  · refine congrArg Host.Outcome.next ((here _).trans ((if_neg (pending hp)).trans ((if_neg (user hl)).trans ?_)))
    simp only [State.setV_v, hb]
    rfl
  · refine congrArg Host.Outcome.next ((here _).trans ((if_neg (pending hp)).trans (if_pos ?_)))
    simp [Vlc.sup, hl]
  · have hsup : s.v.sup = false := by simp [Vlc.sup, hl]
    unfold State.boundary
    simp only [hv, hc, hz, hsup, hfab, hp, hripe, Option.isSome_none, Bool.false_eq_true, if_false, and_self, if_true]
    rfl

/-! ## WAITV -/

/-- The condition of a WAITV between its word and rs2 (Table 4 of R48). -/
def holdsBetween (p : WaitCond) (x y : Nat) : Prop :=
  match p with
  | .ge => y ≤ x
  | .eq => x = y
  | .ne => x ≠ y

theorem waitHolds_iff (p : WaitCond) {x : Nat} (y : Word) (hx : x < 2 ^ 64) :
    waitHolds p (BitVec.ofNat 64 x) y = true ↔ holdsBetween p x y.toNat := by
  have hn : (BitVec.ofNat 64 x).toNat = x := by rw [BitVec.toNat_ofNat, Nat.mod_eq_of_lt hx]
  have h : BitVec.ofNat 64 x = y ↔ x = y.toNat := by rw [← BitVec.toNat_inj, hn]
  cases p with
  | ge => rw [waitHolds, BitVec.ule, hn, decide_eq_true_iff]; rfl
  | eq => rw [waitHolds, beq_iff_eq, h]; rfl
  | ne => rw [waitHolds, bne_iff_ne, ne_eq, h]; rfl

/-- WAITV in a smooth state tests its word. -/
theorem exec_waitv {s : State} (cm : Bool) (sc : Scope) (p : WaitCond) (d a b : SReg) (hs : s.smooth = true) :
    exec (.waitv cm sc p d a b) s = .next (waitvRun cm sc p d a b s) :=
  congrArg Host.Outcome.next (checked_none (decodeStop_ok rfl rfl rfl rfl rfl rfl rfl rfl hs))

/-- A word that meets its condition ends WAITV. -/
theorem waitvRun_holds {s s1 : State} {cm : Bool} {sc : Scope} {p : WaitCond} {d a b : SReg} {x : Nat}
    (he : s.loadAt (atomicSpace cm) (s.rd a) 8 false = .ok (x, s1)) (hw : waitHolds p (BitVec.ofNat 64 x) (s.rd b) = true)
    (hs : s1.smooth = true) :
    waitvRun cm sc p d a b s = (s1.wr d (BitVec.ofNat 64 x)).past (.waitv cm sc p d a b) := by
  unfold waitvRun
  simp only [he, hw, if_true]
  exact State.finish_smooth _ (State.smooth_wr d _ hs)

/-- Any other word makes it wait, watching the word's line. -/
theorem waitvRun_waits {s s1 : State} {cm : Bool} {sc : Scope} {p : WaitCond} {d a b : SReg} {x : Nat}
    (he : s.loadAt (atomicSpace cm) (s.rd a) 8 false = .ok (x, s1)) (hw : waitHolds p (BitVec.ofNat 64 x) (s.rd b) = false)
    (hs : s1.smooth = true) :
    waitvRun cm sc p d a b s = s1.setV fun v =>
      { v with watching := s1.watchLine (atomicSpace cm) (s.rd a), remoteData := [], status := .blocked (.waitv cm sc p d a b) } := by
  have h : (s1.setV fun v => { v with watching := s1.watchLine (atomicSpace cm) (s.rd a), remoteData := [] }).smooth = true := hs
  unfold waitvRun
  simp only [he, hw, Bool.false_eq_true, if_false]
  rw [State.block_smooth _ h]
  rfl

/-- The line of a word of the cluster's memory. -/
theorem watchLine_cmem (s : State) (a : Word) : s.watchLine .cmem a = some (.cmem (s.v.core / 16) (a.toNat / 64 * 64)) := by
  have h : a.toNat / 8 * 8 / 64 * 64 = a.toNat / 64 * 64 := by omega
  exact congrArg (fun o => some (Place.cmem (s.v.core / 16) o)) h

theorem waitsForValues : Claim.WaitsForValues := by
  intro s cm sc p d a b hs i
  refine ⟨fun s1 x he hx => ⟨fun h hs1 => ?_, fun h hs1 => ?_⟩, fun e he => ?_⟩
  · rw [exec_waitv cm sc p d a b hs, waitvRun_holds he ((waitHolds_iff p _ hx).2 h) hs1]
  · have hw := Bool.eq_false_iff.2 (mt (waitHolds_iff p (s.rd b) hx).1 h)
    refine ⟨_, (exec_waitv cm sc p d a b hs).trans (congrArg Host.Outcome.next (waitvRun_waits he hw hs1)), rfl, rfl, rfl, rfl,
      fun hcm => ?_⟩
    subst hcm
    exact watchLine_cmem s1 (s.rd a)
  · rw [exec_waitv cm sc p d a b hs]
    unfold waitvRun
    simp only [show s.loadAt (atomicSpace cm) (s.rd a) 8 false = .error e from he]
    rfl

theorem waitsForValuesFinish : Claim.WaitsForValuesFinish := by
  intro s cm sc p d a b o i space x hs hspot holds done
  obtain ⟨u, hu, hcount⟩ := State.spot_loads hspot
  have hx : x < 2 ^ 64 := Memory.read_lt (s.spaceMem space) o 8
  have hrun : waitvRun cm sc p d a b s = (u.wr d (BitVec.ofNat 64 x)).past i :=
    waitvRun_holds hu ((waitHolds_iff p _ hx).2 holds) ((State.smooth_loadAt hu).trans hs)
  have again {e : Instr} (he : exec e s = .next (waitvRun cm sc p d a b s)) : done e := ⟨u, hcount, he.trans (congrArg _ hrun)⟩
  have retest (hb : s.v.status = .blocked i) (hf : s.v.frozen = false) (ha : s.v.awaited = []) :
      s.retest s.v.core s.v.slot = waitvRun cm sc p d a b s := by
    refine (State.onVlc_blocked _ hb hf).trans ?_
    rw [hb]
    exact if_pos ha
  exact ⟨again (exec_waitv cm sc p d a b hs), fun hb hf ha =>
    ⟨again (congrArg Host.Outcome.next (retest hb hf ha)), again (congrArg Host.Outcome.next (retest hb hf ha))⟩⟩

/-- Settles O39: each of these steps finds the issuing VLC, which is resident and not frozen, and does to it what the wait's own
status selects; WAITV follows the load of its word. -/
theorem waitsAndRequestsEnd : Obligations.WaitsAndRequestsEnd :=
  ⟨waitsEnd, preemptionRequests, waitsForValues, waitsForValuesFinish⟩

end Sys2Proof.Machine
end

section
/-! Barriers: arrival, completion and leaving (R41 to R44, R196, R340), for O40. -/

namespace Sys2Proof.Machine

/-! ## Launches by key, and the generations of a group -/

/-- An update that keeps a launch's key is what its key then finds. -/
theorem State.launch_setLaunch {s : State} {k : Nat} {l : Launch} {f : Launch → Launch} (hf : ∀ x, (f x).key = x.key)
    (h : s.launch k = some l) : (s.setLaunch k f).launch k = some (f l) := by
  have hcomp : ((fun x : Launch => x.key == k) ∘ fun x : Launch => if x.key == k then f x else x) = fun x => x.key == k := by
    funext x
    simp only [Function.comp_apply]
    split
    · rw [hf]
    · rfl
  unfold State.launch State.setLaunch
  rw [List.find?_map, hcomp, show s.launches.find? (fun x => x.key == k) = some l from h]
  have hk : (l.key == k) = true := List.find?_some (p := fun x : Launch => x.key == k) h
  exact congrArg some (if_pos hk)

theorem State.key_of_launch {s : State} {k : Nat} {l : Launch} (h : s.launch k = some l) : l.key = k :=
  beq_iff_eq.1 (List.find?_some (p := fun x : Launch => x.key == k) h)

/-- A group's entry is the one it was given. -/
theorem Launch.find_setBar (l : Launch) {g : Nat} {b : BarGen} (hb : b.group = g) :
    (l.setBar g b).bars.find? (·.group == g) = some b := by
  have hmap (bars : List BarGen) (h : bars.any (·.group == g) = true) :
      (bars.map fun x => if x.group == g then b else x).find? (·.group == g) = some b := by
    induction bars with
    | nil => cases h
    | cons x bars ih =>
      by_cases hx : x.group = g
      · simp [hx, hb]
      · rw [List.any_cons, show (x.group == g) = false from beq_false_of_ne hx, Bool.false_or] at h
        simpa [hx] using ih h
  unfold Launch.setBar
  split
  · rename_i h; exact hmap l.bars h
  · simp [hb]

theorem Launch.setBar_eq (l : Launch) (g : Nat) (b : BarGen) : ∃ x, l.setBar g b = { l with bars := x } := by
  unfold Launch.setBar
  split
  · exact ⟨_, rfl⟩
  · exact ⟨_, rfl⟩

theorem Launch.genOf_setBar (l : Launch) {g : Nat} {b : BarGen} (hb : b.group = g) : (l.setBar g b).genOf g = b.gen := by
  unfold Launch.genOf
  rw [l.find_setBar hb]

theorem Launch.arrivedAt_setBar (l : Launch) {g : Nat} {b : BarGen} (hb : b.group = g) : (l.setBar g b).arrivedAt g = b.arrived := by
  unfold Launch.arrivedAt
  rw [l.find_setBar hb]

@[simp] theorem Launch.key_setBar (l : Launch) (g : Nat) (b : BarGen) : (l.setBar g b).key = l.key := by
  obtain ⟨x, hx⟩ := l.setBar_eq g b
  rw [hx]

/-! ## When a generation can complete -/

/-- Every member of a group has arrived or ended, and some member waits. -/
theorem Launch.barDone_iff (l : Launch) (g : Nat) : l.barDone g = true ↔ l.arrivedAt g ≠ [] ∧
    ∀ r ∈ l.ranks, inRanges r (l.group g) = true → r ∈ l.arrivedAt g ∨ r ∈ l.ended := by
  simp only [Launch.barDone, Bool.and_eq_true, Bool.not_eq_true', List.isEmpty_eq_false_iff, List.all_eq_true, List.mem_filter,
    Bool.or_eq_true, List.contains_iff_mem, and_imp, ne_eq]

/-- The stores of a group's members are performed (R42, R340). -/
theorem State.groupQuiet_iff (s : State) (l : Launch) (g : Nat) : s.groupQuiet l g = true ↔
    (∀ v ∈ s.vlcs, v.launch = l.key → inRanges v.rank.toNat (l.group g) = true → v.status ≠ .absent → v.stores = []) ∧
      ∀ o ∈ s.orphans, o.2.1 = l.key → inRanges o.2.2.2.rank (l.group g) = false := by
  simp only [State.groupQuiet, Bool.and_eq_true, List.all_eq_true, Bool.or_eq_true, bne_iff_ne, ne_eq, Bool.not_eq_true', beq_iff_eq,
    List.isEmpty_iff]
  refine and_congr (forall₂_congr fun v _ => ?_) (forall₂_congr fun o _ => ?_)
  · by_cases h : inRanges v.rank.toNat (l.group g) = true <;> simp [h]
    tauto
  · by_cases h : o.2.1 = l.key <;> simp [h]

/-! ## What an arrival makes due -/

/-- A launch's VLCs, its members and the memory are as they were, and every step that was due is. -/
structure State.Settles (key : Nat) (s t : State) : Prop where
  v : t.v = s.v
  parked : t.parked = s.parked
  mem : t.mem = s.mem
  orphans : t.orphans = s.orphans
  launch : ∀ l, s.launch key = some l → ∃ n, t.launch key = some { l with told := n }
  events : ∀ e ∈ s.events, e ∈ t.events

theorem State.Settles.refl (key : Nat) (s : State) : State.Settles key s s :=
  ⟨rfl, rfl, rfl, rfl, fun l h => ⟨l.told, h⟩, fun _ h => h⟩

theorem State.Settles.trans {key : Nat} {s t u : State} (h : State.Settles key s t) (k : State.Settles key t u) :
    State.Settles key s u := by
  refine ⟨k.v.trans h.v, k.parked.trans h.parked, k.mem.trans h.mem, k.orphans.trans h.orphans, fun l hl => ?_,
    fun e he => k.events e (h.events e he)⟩
  obtain ⟨n, hn⟩ := h.launch l hl
  obtain ⟨m, hm⟩ := k.launch _ hn
  exact ⟨m, hm⟩

theorem State.settles_events (key : Nat) (s : State) (l : List Instr) :
    State.Settles key s { s with events := s.events ++ l } :=
  ⟨rfl, rfl, rfl, rfl, fun l h => ⟨l.told, h⟩, fun _ h => List.mem_append_left _ h⟩

theorem State.dueBars_settles (s : State) (key : Nat) : State.Settles key s (s.dueBars key) := by
  unfold State.dueBars
  split
  · exact .refl key s
  · exact State.settles_events key s _

theorem State.tellSsync_settles (s : State) (key : Nat) : State.Settles key s (s.tellSsync key) := by
  unfold State.tellSsync
  split
  · exact .refl key s
  · split
    · exact .refl key s
    · exact ⟨rfl, rfl, rfl, rfl, fun l hl => ⟨_, State.launch_setLaunch (fun _ => rfl) hl⟩, fun _ h => h⟩

theorem State.dueSsync_settles (s : State) (key : Nat) : State.Settles key s (s.dueSsync key) := by
  unfold State.dueSsync
  split
  · exact .refl key s
  · split
    · exact State.settles_events key s _
    · exact .refl key s

theorem State.settleLaunch_settles (s : State) (key : Nat) : State.Settles key (s.dueBars key) (s.settleLaunch key) :=
  (State.tellSsync_settles _ key).trans (State.dueSsync_settles _ key)

/-- A generation that can complete falls due. -/
theorem State.settleLaunch_dueBar {s : State} {key g : Nat} {l : Launch} {b : BarGen} (h : s.launch key = some l) (hb : b ∈ l.bars)
    (hg : b.group = g) (hr : s.barReady l g = true) : Instr.barGenerationComplete key g b.gen ∈ (s.settleLaunch key).events := by
  refine (s.settleLaunch_settles key).events _ ?_
  unfold State.dueBars
  rw [h]
  refine List.mem_append_right _ (List.mem_map.2 ⟨b, List.mem_filter.2 ⟨hb, by rwa [hg]⟩, by rw [hg]⟩)

/-- The issuing VLC arrived and waiting in `i`, its launch changed by `f`. -/
def State.joined (s : State) (i : Instr) (b : Arrival) (f : Launch → Launch) : State :=
  (s.setV fun v => { v with spin := Spin.idle, barw := some b, status := .blocked i }).setLaunch s.v.launch f

theorem State.block_joined {s : State} (i : Instr) (b : Arrival) (f : Launch → Launch) (hs : s.smooth = true) :
    ((s.spinReset.setV fun v => { v with barw := some b }).setLaunch s.v.launch f).block i = s.joined i b f := by
  have h : (((s.setV fun v => { v with spin := Spin.idle }).setV fun v => { v with barw := some b }).setLaunch s.v.launch f).smooth =
      true := hs
  rw [State.spinReset_eq, State.block_smooth i h]
  rfl

/-- An arrival settled: the VLC waits, and its launch holds the arrival. -/
theorem State.joined_settled (s : State) {i : Instr} {b : Arrival} {f : Launch → Launch} {l : Launch} (hf : ∀ x, (f x).key = x.key)
    (hl : s.launch s.v.launch = some l) :
    let t := (s.joined i b f).settleLaunch s.v.launch
    t.v = { s.v with spin := Spin.idle, barw := some b, status := .blocked i } ∧ t.mem = s.mem ∧ t.parked = s.parked ∧
      t.orphans = s.orphans ∧ ∃ n, t.launch s.v.launch = some { f l with told := n } := by
  have h := ((s.joined i b f).dueBars_settles s.v.launch).trans (State.settleLaunch_settles _ _)
  exact ⟨h.v, h.mem, h.parked, h.orphans, h.launch _ (State.launch_setLaunch hf (show (s.setV _).launch s.v.launch = some l from hl))⟩

/-! ## BAR -/

/-- A first arrival at a group's generation. -/
theorem barRun_arrives {s : State} {g : BitVec 8} {l : Launch} (hl : s.launch s.v.launch = some l) (hs : s.smooth = true)
    (hw : s.v.barw = none) :
    barRun g s = (s.joined (.bar g) { ssync := false, gen := l.genOf g.toNat, group := g.toNat } fun l' =>
      l'.setBar g.toNat { group := g.toNat, gen := l.genOf g.toNat, arrived := s.v.rank.toNat :: l'.arrivedAt g.toNat }).settleLaunch
        s.v.launch := by
  unfold barRun
  simp only [hw]
  unfold State.arrive
  simp only [hl, Option.map_some, Option.getD_some]
  rw [State.block_joined _ _ _ hs]

/-- The arrival that makes its generation complete (R41, R42). -/
theorem barReady_of_arrival {s t : State} {l : Launch} {g r n : Nat} (hq : t.groupQuiet l g = true) (hv : t.vlcs = s.vlcs)
    (ho : t.orphans = s.orphans)
    (h : ∀ q ∈ l.ranks, inRanges q (l.group g) = true → q = r ∨ q ∈ l.arrivedAt g ∨ q ∈ l.ended) :
    s.barReady (l.setBar g { group := g, gen := n, arrived := r :: l.arrivedAt g }) g = true := by
  obtain ⟨x, hx⟩ := l.setBar_eq g { group := g, gen := n, arrived := r :: l.arrivedAt g }
  have harr := l.arrivedAt_setBar (g := g) (b := { group := g, gen := n, arrived := r :: l.arrivedAt g }) rfl
  rw [State.barReady, Bool.and_eq_true, Launch.barDone_iff, harr]
  refine ⟨⟨List.cons_ne_nil _ _, fun q hq hin => ?_⟩, ?_⟩
  · rw [hx] at hq hin ⊢
    rcases h q hq hin with rfl | ha | he
    · exact .inl List.mem_cons_self
    · exact .inl (List.mem_cons_of_mem _ ha)
    · exact .inr he
  · rw [hx]
    unfold State.groupQuiet at hq ⊢
    rw [hv, ho] at hq
    exact hq

theorem barriersArrive : Claim.BarriersArrive := by
  intro s g l hd hl hs
  have hrun : exec (.bar g) s = .next (barRun g s) := congrArg Host.Outcome.next (checked_none hd)
  refine ⟨fun hw => ?_, fun n hw => ?_⟩
  · obtain ⟨hv, hmem, hparked, horph, m, hm⟩ := s.joined_settled (i := .bar g)
      (b := { ssync := false, gen := l.genOf g.toNat, group := g.toNat }) (f := fun l' =>
        l'.setBar g.toNat { group := g.toNat, gen := l.genOf g.toNat, arrived := s.v.rank.toNat :: l'.arrivedAt g.toNat })
      (fun x => x.key_setBar _ _) hl
    rw [← barRun_arrives hl hs hw] at hv hmem hparked horph hm
    refine ⟨_, hrun, by rw [hv], by rw [hv], by rw [hv], by rw [hv], hmem, by rw [hv], ?_, fun hall hq => ?_⟩
    · rw [hm]
      exact congrArg some (l.arrivedAt_setBar rfl)
    · rw [State.key_of_launch hl, barRun_arrives hl hs hw]
      refine State.settleLaunch_dueBar (b := { group := g.toNat, gen := l.genOf g.toNat, arrived := s.v.rank.toNat :: l.arrivedAt g.toNat })
        (State.launch_setLaunch (fun x => x.key_setBar _ _) (show (s.setV _).launch s.v.launch = some l from hl))
        (List.mem_of_find?_eq_some (l.find_setBar rfl)) rfl (barReady_of_arrival hq ?_ horph hall)
      rw [State.vlcs, State.vlcs, hv, hparked]
      rfl
  · have hpassed : s.passed { ssync := false, gen := n, group := g.toNat } = decide (n < l.genOf g.toNat) := by
      unfold State.passed
      rw [hl]
      rfl
    have hbar : barRun g s = if s.passed { ssync := false, gen := n, group := g.toNat } then s.leaveBar (.bar g) else s.block (.bar g) := by
      unfold barRun
      simp only [hw, Bool.false_eq_true, ne_eq, not_true_eq_false, or_false, if_false]
    refine ⟨fun hn => ?_, fun hn => ?_⟩
    · rw [hrun, hbar, hpassed, if_pos (decide_eq_true hn)]
      exact congrArg Host.Outcome.next (State.finish_smooth _ hs)
    · rw [hrun, hbar, hpassed, if_neg (by simpa using hn), State.block_smooth _ hs]

/-! ## Generations that complete -/

/-- The step of a generation that is not the current one, or cannot complete. -/
theorem barGenerationComplete_stays {s : State} {key g n : Nat} {l : Launch} (hl : s.launch key = some l)
    (h : l.genOf g ≠ n ∨ s.barReady l g = false) : exec (.barGenerationComplete key g n) s = .next s := by
  refine congrArg Host.Outcome.next ?_
  rw [hl]
  exact if_pos (h.imp_right fun h => by rw [h]; rfl)

/-- The step of the current generation, once it can complete. -/
theorem barGenerationComplete_next {s : State} {key g : Nat} {l : Launch} (hl : s.launch key = some l) (h : s.barReady l g = true) :
    exec (.barGenerationComplete key g (l.genOf g)) s =
      .next ((s.waitersOf key { ssync := false, gen := l.genOf g, group := g }).foldl
        (fun u w => u.onVlc w.1 w.2 fun u => u.leaveBar (.bar (BitVec.ofNat 8 g)))
        (s.setLaunch key fun x => x.setBar g { group := g, gen := l.genOf g + 1, arrived := [] })) := by
  refine congrArg Host.Outcome.next ?_
  rw [hl]
  exact if_neg (by simp [h])

theorem barriersComplete : Claim.BarriersComplete := by
  intro s key g n l hl e next
  refine ⟨barGenerationComplete_stays hl, fun hn hr => ?_, ?_⟩
  · subst hn
    have he := barGenerationComplete_next hl hr
    refine ⟨?_, he, fun hw hres hf hs => he.trans (congrArg Host.Outcome.next ?_)⟩
    · rw [State.launch_setLaunch (fun x => x.key_setBar _ _) hl]
      exact congrArg some (Prod.ext (l.genOf_setBar rfl) (l.arrivedAt_setBar rfl))
    · rw [hw]
      have hs' : (next.setV fun v => { v with barw := none }).smooth = true := hs
      exact (State.onVlc_self (s := next) _ hres hf).trans (State.finish_smooth _ hs')
  · rw [State.barReady, Bool.and_eq_true, Launch.barDone_iff, State.groupQuiet_iff, and_assoc]

/-! ## SSYNC (R43, R196) -/

theorem ssync_decodes (d : SReg) {s : State} (hs : s.smooth = true) : decodeStop (.ssync d) s = none :=
  decodeStop_ok rfl rfl rfl rfl rfl rfl rfl rfl hs

/-- A first arrival at the superstep barrier. -/
theorem ssyncRun_arrives {s : State} {d : SReg} {l : Launch} (hl : s.launch s.v.launch = some l) (hs : s.smooth = true)
    (hw : s.v.barw = none) :
    ssyncRun d s = (s.joined (.ssync d) { ssync := true, gen := l.superstep, group := 0 } fun l' =>
      { l' with ssync := s.v.rank.toNat :: l'.ssync }).settleLaunch s.v.launch := by
  unfold ssyncRun
  simp only [hw, hl, Option.map_some, Option.getD_some]
  rw [State.block_joined _ _ _ hs]

/-- A barrier left, with the number of a superstep written. -/
theorem State.leaveSsync_blocked {s : State} {d : SReg} (x : Nat) (hb : s.v.status = .blocked (.ssync d)) (hs : s.smooth = true) :
    s.leaveSsync x = ((s.wr d (BitVec.ofNat 64 x)).setV fun v => { v with barw := none }).past (.ssync d) := by
  have h : ((s.wr d (BitVec.ofNat 64 x)).setV fun v => { v with barw := none }).smooth = true := State.smooth_wr d _ hs
  unfold State.leaveSsync
  rw [hb]
  exact State.finish_smooth _ h

/-- The completion of a superstep that one VLC waits for, with no MGHOST command. -/
theorem ssyncComplete_next {s : State} {l : Launch} (hl : s.launch s.v.launch = some l) (hr : s.ssyncReady l = true)
    (hw : s.waitersOf s.v.launch { ssync := true, gen := l.superstep, group := 0 } = [(s.v.core, s.v.slot)])
    (hc : ∀ c ∈ s.commands, c.launch = s.v.launch → c.kind ≠ .mghost) :
    ∃ f : Launch → Launch, (∀ x, (f x).key = x.key ∧ (f x).superstep = l.superstep + 1 ∧ (f x).ssync = []) ∧
      exec (.ssyncComplete s.v.launch []) s = .next ((s.setLaunch s.v.launch f).onVlc s.v.core s.v.slot (·.leaveSsync (l.superstep + 1))) := by
  have hs0 : (s.setLaunch s.v.launch fun l => { l with peersArrived := l.peersArrived ++ [] }) = s := by
    have hid : (fun x : Launch => if x.key == s.v.launch then { x with peersArrived := x.peersArrived ++ [] } else x) = id := by
      funext x
      rw [List.append_nil]
      exact ite_self x
    unfold State.setLaunch
    rw [hid, List.map_id]
  have hghosts : s.publishGhosts s.v.launch = s := by
    have hnone : (s.commands.filter fun c => c.launch == s.v.launch && c.kind == .mghost && !c.settled && c.status == some 0) = [] := by
      refine List.filter_eq_nil_iff.2 fun c hmem => ?_
      by_cases h : c.launch = s.v.launch
      · simp [hc c hmem h]
      · simp [h]
    unfold State.publishGhosts
    rw [hnone]
    rfl
  have hpresent : s.stepPresent s.v.launch = true := by
    unfold State.ssyncReady at hr
    rw [State.key_of_launch hl] at hr
    simp only [Bool.and_eq_true] at hr
    exact hr.1.2
  refine ⟨fun x => { x with
    superstep := l.superstep + 1, ssync := [], peersArrived := (s.gangPeers l).foldl List.erase x.peersArrived },
    fun _ => ⟨rfl, rfl, rfl⟩, ?_⟩
  show execSsyncComplete s.v.launch [] s = _
  unfold execSsyncComplete
  simp only [hs0, hl, hr, hghosts, hpresent, hw, Bool.not_true, Bool.false_eq_true, if_false, List.foldl_cons, List.foldl_nil]

theorem superstepsAdvance : Claim.SuperstepsAdvance := by
  intro s d l hl hs
  have hrun : exec (.ssync d) s = .next (ssyncRun d s) := congrArg Host.Outcome.next (checked_none (ssync_decodes d hs))
  refine ⟨fun hw => ?_, fun n hw hn => ?_, fun hr hb hf hwait hc => ?_⟩
  · obtain ⟨hv, hmem, -, -, m, hm⟩ := s.joined_settled (i := .ssync d) (b := { ssync := true, gen := l.superstep, group := 0 })
      (f := fun l' => { l' with ssync := s.v.rank.toNat :: l'.ssync }) (fun _ => rfl) hl
    rw [← ssyncRun_arrives hl hs hw] at hv hmem hm
    refine ⟨_, hrun, by rw [hv], by rw [hv], by rw [hv], hmem, by rw [hv], by rw [hm]; rfl⟩
  · have hpassed : s.passed { ssync := true, gen := n, group := 0 } = true := by
      unfold State.passed
      rw [hl]
      exact decide_eq_true hn
    have h : ((s.wr d (BitVec.ofNat 64 (n + 1))).setV fun v => { v with barw := none }).smooth = true := State.smooth_wr d _ hs
    have hleave : ssyncRun d s = (s.wr d (BitVec.ofNat 64 (n + 1))).leaveBar (.ssync d) := by
      unfold ssyncRun
      simp only [hw, Bool.not_true, Bool.false_eq_true, if_false, hpassed, if_true]
    rw [hrun, hleave]
    exact congrArg Host.Outcome.next (State.finish_smooth _ h)
  · obtain ⟨f, hfk, he⟩ := ssyncComplete_next hl hr hwait hc
    have hleave := (State.onVlc_blocked (s := s.setLaunch s.v.launch f) (·.leaveSsync (l.superstep + 1)) hb hf).trans
      (State.leaveSsync_blocked (l.superstep + 1) hb hs)
    refine ⟨_, he.trans (congrArg Host.Outcome.next hleave), ?_, rfl, rfl, fun hd => ?_, fun r hr => ?_, rfl, ?_⟩
    · exact congrArg (· + 4) (Vlc.setS_pc _ _ _)
    · exact State.rd_wr_same _ _ hd
    · exact State.rd_wr_other _ _ hr
    · refine (congrArg (Option.map _) (State.launch_setLaunch (fun x => (hfk x).1) hl)).trans ?_
      obtain ⟨-, h1, h2⟩ := hfk l
      exact congrArg some (Prod.ext h1 h2)

/-- Settles O40: an arrival changes its launch's entry by key alone and is then settled, and a completion begins the next generation
before the VLCs that wait leave. -/
theorem barriersArriveAndComplete : Obligations.BarriersArriveAndComplete :=
  ⟨barriersArrive, barriersComplete, superstepsAdvance⟩

end Sys2Proof.Machine
end

section
/-! FENCE, YIELD, RDTIME, SNUFF and IDLE (R46, R184, R188, R189, R320, R359, R368), for O15. -/

namespace Sys2Proof.Machine

/-! ## FENCE, FENCEI and YIELD -/

theorem fencesAndYield : Claim.FencesAndYield := by
  intro s hs
  have fence (k : FenceClass) (sc : Scope) : exec (.fence k sc) s =
      .next (if k = .ld ∨ s.v.stores = [] then s.finish (.fence k sc) else s.block (.fence k sc)) :=
    congrArg Host.Outcome.next (checked_none (decodeStop_ok rfl rfl rfl rfl rfl rfl rfl rfl hs))
  refine ⟨fun k sc h => ?_, fun k sc hk hst => ?_, ?_, ?_⟩
  · rw [fence, if_pos h, State.finish_smooth _ hs]
  · rw [fence, if_neg (by tauto), State.block_smooth _ hs]
  · exact congrArg Host.Outcome.next ((checked_none (decodeStop_ok rfl rfl rfl rfl rfl rfl rfl rfl hs)).trans
      (State.finish_smooth _ hs))
  · have hy : (s.setV fun v => { v with yielded := true }).smooth = true := hs
    exact congrArg Host.Outcome.next ((checked_none (decodeStop_ok rfl rfl rfl rfl rfl rfl rfl rfl hs)).trans
      (State.finish_smooth _ hy))

/-! ## RDTIME -/

/-- The Beacon that a reply leaves (R359). -/
theorem beacon_of_reply (b x : Word) (h : b.toNat + 1000 < 2 ^ 64) (hx : x.toNat ≤ 1000) :
    b.toNat ≤ (if b.ult (b + x) then b + x else b).toNat ∧ (if b.ult (b + x) then b + x else b).toNat ≤ b.toNat + 1000 := by
  have hsum : (b + x).toNat = b.toNat + x.toNat := by rw [BitVec.toNat_add, Nat.mod_eq_of_lt (by omega)]
  split
  · omega
  · omega

theorem roundTrip_le (s : State) : s.roundTrip.toNat ≤ 1000 := by
  unfold State.roundTrip
  rw [BitVec.toNat_ofNat]
  omega

/-- A VLC that waits in RDTIME, with its reply due. -/
def State.asksTime (s : State) (d : SReg) : State :=
  (s.spend.setV fun v => { v with status := .blocked (.rdtime d) }).due
    (.rdtimeReply s.v.core s.v.slot (s.beacon + s.roundTrip))

/-- The reply to a VLC that waits in RDTIME. -/
theorem exec_rdtimeReply {s : State} {d : SReg} (t : Word) (hb : s.v.status = .blocked (.rdtime d)) (hf : s.v.frozen = false)
    (hs : s.smooth = true) : exec (.rdtimeReply s.v.core s.v.slot t) s =
      .next ((State.wr { s with beacon := if s.beacon.ult t then t else s.beacon } d
        (if s.beacon.ult t then t else s.beacon)).past (.rdtime d)) := by
  refine congrArg Host.Outcome.next ((State.onVlc_blocked _ hb hf).trans ?_)
  rw [hb]
  exact State.finish_smooth _ (State.smooth_wr (s := { s with beacon := _ }) d _ hs)

theorem readTimeRoundTrip : Claim.ReadTimeRoundTrip := by
  intro s d hs he hf hb
  have hrun : exec (.rdtime d) s = .next (s.asksTime d) := by
    refine congrArg Host.Outcome.next ((checked_none (decodeStop_ok rfl rfl rfl rfl rfl rfl rfl rfl hs)).trans ?_)
    show (s.spend.block (.rdtime d)).due _ = _
    rw [State.block_smooth (s := s.spend) _ hs]
    rfl
  let t : State := s.spend.setV fun v => { v with status := .blocked (.rdtime d) }
  have hstep : step (s.asksTime d) = exec (.rdtimeReply s.v.core s.v.slot (s.beacon + s.roundTrip)) { t with events := [] } := by
    have hevents : (s.asksTime d).events = [.rdtimeReply s.v.core s.v.slot (s.beacon + s.roundTrip)] :=
      congrArg (· ++ [_]) he
    unfold step
    rw [hevents]
    rfl
  obtain ⟨h1, h2⟩ := beacon_of_reply s.beacon s.roundTrip hb (roundTrip_le s)
  refine ⟨_, _, _, hrun, hstep.trans (exec_rdtimeReply (s := { t with events := [] }) _ rfl hf hs), h1, h2, rfl, fun hd => ?_, fun r hr => ?_,
    ?_, rfl, rfl⟩
  · exact State.rd_wr_same _ _ hd
  · exact State.rd_wr_other _ _ hr
  · exact congrArg (· + 4) (Vlc.setS_pc _ _ _)

/-! ## SNUFF -/

/-- The cuts of a wave cost free values alone. -/
theorem State.waveCuts_state (s : State) (key : Nat) (l : List Vlc) : ∃ n, (s.waveCuts key l).2 = { s with freeCtr := n } := by
  induction l generalizing s with
  | nil => exact ⟨s.freeCtr, rfl⟩
  | cons v l ih =>
    unfold State.waveCuts
    split
    · obtain ⟨n, hn⟩ := ih s.spend
      exact ⟨n, hn⟩
    · exact ih s

/-- A wave sent to the other packages of its job, unless this package's cause is known (R371). -/
def State.tellWave (s : State) (key : Nat) (c : Cause) : State :=
  if key < 65536 ∧ !s.causeKnown key then s.send (.wave key c) else s

/-- What starting a wave changes. -/
theorem State.startWave_eq (s : State) (key : Nat) (c : Cause) : ∃ n cuts, s.startWave key c =
    State.due { s.tellWave key c with freeCtr := n }
      (.snuffWaveArrival { job := key, cuts := cuts } c.time c.ep c.die c.cls c.rank c.pc c.detail) := by
  obtain ⟨n, hn⟩ := (s.tellWave key c).waveCuts_state key (s.tellWave key c).vlcs
  refine ⟨n, ((s.tellWave key c).waveCuts key (s.tellWave key c).vlcs).1, ?_⟩
  rw [← hn]
  rfl

theorem State.tellWave_spec (s : State) (key : Nat) (c : Cause) :
    (s.tellWave key c).v = s.v ∧ (s.tellWave key c).mem = s.mem ∧ (s.tellWave key c).events = s.events ∧
      (key < 65536 → s.causeKnown key = false → (s.tellWave key c).outbox = s.outbox ++ [.wave key c]) ∧
      (s.causeKnown key = true → (s.tellWave key c).outbox = s.outbox) := by
  unfold State.tellWave
  refine ⟨?_, ?_, ?_, fun hk hc => ?_, fun hc => ?_⟩
  · split <;> rfl
  · split <;> rfl
  · split <;> rfl
  · rw [if_pos ⟨hk, by rw [hc]; rfl⟩]; rfl
  · rw [if_neg (by rw [hc]; simp)]

theorem snuffStartsWave : Claim.SnuffStartsWave := by
  intro s hs
  let u := (s.past .snuff).setV fun v => { v with frozen := true }
  have hrun : exec .snuff s = .next (u.startWave (s.jobOf s.v.ctx) (s.causeOf 0x20 s.v.pc 0)) := by
    refine congrArg Host.Outcome.next ((checked_none (decodeStop_ok rfl rfl rfl rfl rfl rfl rfl rfl hs)).trans ?_)
    simp only [State.finish_smooth _ hs]
    rfl
  obtain ⟨n, cuts, hw⟩ := u.startWave_eq (s.jobOf s.v.ctx) (s.causeOf 0x20 s.v.pc 0)
  obtain ⟨hv, hmem, hevents, htold, hknown⟩ := u.tellWave_spec (s.jobOf s.v.ctx) (s.causeOf 0x20 s.v.pc 0)
  refine ⟨_, s.causeOf 0x20 s.v.pc 0, cuts, hrun.trans (congrArg Host.Outcome.next hw), congrArg Vlc.pc hv, congrArg Vlc.frozen hv,
    (congrArg Vlc.sregs hv).trans rfl, hmem, congrArg (· ++ [_]) hevents, rfl, htold, hknown⟩

/-! ## IDLE -/

/-- IDLE at supervisor level passes decode's checks. -/
theorem idle_decodes {s : State} (hl : s.v.level = .supervisor) (hs : s.smooth = true) : decodeStop .idle s = none :=
  decodeStop_ok rfl rfl (by simp [privileged, Vlc.sup, hl]) rfl rfl rfl rfl rfl hs

theorem State.wholeUnits_v (s : State) (pa n k : Nat) : (s.wholeUnits pa n k).v = s.v := by
  induction k generalizing s pa n with
  | zero => rfl
  | succ k ih =>
    unfold State.wholeUnits
    simp only
    split
    · rfl
    · refine (ih _ _ _).trans ?_
      split <;> rfl

theorem State.mergeUnits_v (s : State) (pa n k : Nat) : (s.mergeUnits pa n k).v = s.v := by
  induction k generalizing s pa n with
  | zero => rfl
  | succ k ih =>
    unfold State.mergeUnits
    simp only
    split
    · rfl
    · exact ih _ _ _

theorem State.setDramBytes_v (s : State) (pa : Nat) (l : List Byte) : (s.setDramBytes pa l).v = s.v :=
  (State.wholeUnits_v _ _ _ _).trans (s.mergeUnits_v _ _ _)

theorem State.inject_v (s : State) (ep pa : Nat) (op : RemoteOp) : (s.inject ep pa op).v = s.v := by
  unfold State.inject
  simp only
  split <;> rfl

/-- A notice is posted beside the VLCs. -/
theorem State.postNotice_v (s : State) (d : Nat) (x : Notice) : (s.postNotice d x).v = s.v := by
  have hwrite : (s.writeNotice d x).v = s.v := by
    unfold State.writeNotice
    simp only
    split
    · rfl
    · split
      · rw [State.wrote_v, State.setDramBytes_v, State.setDie_v]
      · rw [State.inject_v, State.setDie_v]
  unfold State.postNotice
  split
  · exact hwrite
  · split <;> rfl

theorem State.tellLate_v (s : State) : ∃ f, s.tellLate.v = { s.v with lateFabric := f } := by
  unfold State.tellLate
  split
  · exact ⟨s.v.lateFabric, rfl⟩
  · rename_i ep _
    exact ⟨none, congrArg (fun v : Vlc => { v with lateFabric := none }) (s.postNotice_v _ (s.fabricNotice ep))⟩

/-- A VLC that frees what it holds may itself have been a lender (R339). -/
theorem State.vacate_v (s : State) : ∃ a b c, s.vacate.v = { s.v with lent := a, gainLc := b, dropLc := c } := by
  have reclaim (s : State) : ∃ a b c, s.reclaim.v = { s.v with lent := a, gainLc := b, dropLc := c } := by
    unfold State.reclaim State.mapVlcs
    simp only
    split
    · exact ⟨_, _, _, rfl⟩
    · exact ⟨s.v.lent, s.v.gainLc, s.v.dropLc, rfl⟩
  unfold State.vacate
  simp only
  split
  · exact reclaim (s.freeSlots s.v.core)
  · exact reclaim s

/-- The VLC of a core that was left: its registers and its pc are kept, off the core. -/
def Vlc.off (v : Vlc) (b : Nat) : Vlc :=
  { v with
    status := .released b, preempt := false, ripe := false, rows := Vector.replicate 4 0, remoteData := [], awaited := [],
    watching := none, freezing := false, cut := none }

theorem State.aside_dueDispatch (s : State) : s.Aside s.dueDispatch := by
  unfold State.dueDispatch
  simp only
  split
  · exact s.aside_duePlace.trans ⟨⟨rfl, rfl, rfl, fun _ => rfl⟩, rfl⟩
  · exact s.aside_duePlace

/-- The VLC that IDLE takes off its core (R320). -/
theorem State.release_spec (s : State) (b : Nat) (ho : s.v.stepOnce = false) : (s.release b).v = Vlc.absent ∧
    ∃ v ∈ (s.release b).parked, v.status = .released b ∧ v.launch = s.v.launch ∧ v.rank = s.v.rank ∧ v.pc = s.v.pc ∧
      v.sregs = s.v.sregs ∧ v.preempt = false := by
  have hre : s.refreeze = s := if_neg (by simp [ho])
  obtain ⟨f, hf⟩ := s.tellLate_v
  obtain ⟨x, y, z, hv⟩ := s.tellLate.vacate_v
  have ht : State.Aside { s.tellLate.vacate with v := Vlc.absent, parked := s.tellLate.vacate.v.off b :: s.tellLate.vacate.parked }
      (s.release b) := by
    unfold State.release
    rw [hre]
    exact (State.aside_gatePower _ _).trans (State.aside_dueDispatch _)
  refine ⟨ht.v, s.tellLate.vacate.v.off b, ht.parked ▸ List.mem_cons_self, ?_⟩
  rw [hv, hf]
  exact ⟨rfl, rfl, rfl, rfl, rfl, rfl⟩

theorem idleReleasesOrWaits : Claim.IdleReleasesOrWaits := by
  intro s hl hs
  have hd := idle_decodes hl hs
  have hrun : exec .idle s = .next (match s.v.savedTo with
      | some b => if b = 0 then s.idleWait else s.afterStores .idle (·.release b)
      | none => s.idleWait) := congrArg Host.Outcome.next (checked_none hd)
  have saved (b : Nat) (hb : s.v.savedTo = some b) (h0 : b ≠ 0) : exec .idle s = .next (s.afterStores .idle (·.release b)) := by
    rw [hrun, hb]
    exact congrArg Host.Outcome.next (if_neg h0)
  have unsaved (h : s.v.savedTo = none ∨ s.v.savedTo = some 0) : exec .idle s = .next s.idleWait := by
    rw [hrun]
    rcases h with h | h
    · rw [h]
    · rw [h]; rfl
  refine ⟨fun b hb h0 hst => ⟨_, (saved b hb h0).trans (congrArg Host.Outcome.next (if_pos hst)), State.release_spec s b ?_⟩,
    fun b hb h0 hst => (saved b hb h0).trans (congrArg Host.Outcome.next (if_neg hst)), fun h hp => ?_, fun h hp => ?_⟩
  · exact ((State.smooth_iff s).1 hs).2.1
  · rw [unsaved h, State.idleWait, if_pos hp, State.finish_smooth _ hs]
  · rw [unsaved h, State.idleWait, if_neg (by rw [hp]; decide), State.block_smooth _ hs]

/-- Settles O15: each passes decode's checks in a smooth state; RDTIME's next step is its reply, and SNUFF's wave costs free values. -/
theorem systemInstructionsComplete : Obligations.SystemInstructionsComplete :=
  ⟨fencesAndYield, readTimeRoundTrip, snuffStartsWave, idleReleasesOrWaits⟩

end Sys2Proof.Machine
end


section
/-! Scalar registers (R55), for O9, and the state after reset (R378 and its tables, R63, R105), for O59. -/

namespace Sys2Proof.Machine

/-- Settles O9: each part is the law of `rd` after `wr`. -/
theorem scalarRegisters : Obligations.ScalarRegisters := by
  refine ⟨State.rd_zero, State.wr_zero, fun s d r x hd => ?_⟩
  by_cases h : r = d
  · rw [if_pos h, h, State.rd_wr_same s x hd]
  · rw [if_neg h, State.rd_wr_other s x h]

/-! ## The registers of the windows after reset -/

theorem State.reset_die (d : Nat) : State.reset.die d = Die.reset := rfl

theorem State.reset_island (d k : Nat) : (State.reset.die d).islands[k % 2] = Island.reset := by
  show (Vector.replicate 2 Island.reset)[k % 2] = Island.reset
  simp

theorem State.reset_watch (c n : Nat) :
    (State.reset.core c).watch[n % 4] = { addr := 0, en := false, kind := 0, slots := 0, size := 0 } := by
  show (Vector.replicate 4 _)[n % 4] = _
  rw [Vector.getElem_replicate]

theorem regRead_reset_pcap : regRead State.reset .pcap = 3600 := by
  show fieldAt (0#16).toNat 32 ||| fieldAt (3600#16).toNat 0 = 3600#64
  decide

theorem regRead_reset_queue (q : Nat) : regRead State.reset (.qcfg q) = 0 ∧ regRead State.reset (.qtrap q) = 0 := by
  have h : State.reset.queue q = Queue.reset := rfl
  constructor <;> simp only [regRead, h] <;> decide

theorem regRead_reset_debugger (c : Nat) : regRead State.reset (.dbgctx c) = 0 ∧ regRead State.reset (.dbgcb c) = 0 := by
  have h : State.reset.dbgOf c = DbgCtx.reset := rfl
  constructor <;> simp only [regRead, h] <;> decide

/-- The registers of a housekeeping block (R378 Table 3) after reset. -/
theorem regRead_reset_housekeeping (d : Nat) :
    regRead State.reset (.drfmt d) = 0x400000 ∧ regRead State.reset (.tlbinv d) = 0 ∧ regRead State.reset (.notstat d) = 0 ∧
      (∀ k, regRead State.reset (.islctl d k) = 0x15150000000015) ∧ ∀ c n,
        regRead State.reset (.wpaddr c n) = 0 ∧ regRead State.reset (.wpcfg c n) = 0 ∧ regRead State.reset (.stepctl c) = 0 := by
  refine ⟨?_, ?_, ?_, fun k => ?_, fun c n => ⟨?_, ?_, rfl⟩⟩
  · simp only [regRead, State.reset_die]; decide
  · simp only [regRead, State.reset_die]; decide
  · simp only [regRead, State.reset_die]; decide
  · simp only [regRead, State.reset_island]; decide
  · simp only [regRead, State.reset_watch]
  · simp only [regRead, State.reset_watch]; decide

/-! ## A VLC that starts -/

/-- A VLC that starts holds its launch's arguments in s3, its rank in s4, and 0 in every other scalar register (R105). -/
theorem State.startVlc_s (s : State) (l : Launch) (rank core slot : Nat) (lc : BitVec 4) (r : SReg) :
    (s.startVlc l rank core slot lc).s r = if r = 3 then l.args else if r = 4 then BitVec.ofNat 64 rank else 0 := by
  have hs : (s.startVlc l rank core slot lc).sregs = ((Vector.replicate 32 0).set 3 l.args).set 4 (BitVec.ofNat 64 rank) := rfl
  unfold Vlc.s
  rw [hs]
  by_cases h3 : r = 3
  · subst h3; rfl
  by_cases h4 : r = 4
  · subst h4; rfl
  have n3 : 3 ≠ r.toNat := fun e => h3 (BitVec.eq_of_toNat_eq e.symm)
  have n4 : 4 ≠ r.toNat := fun e => h4 (BitVec.eq_of_toNat_eq e.symm)
  rw [if_neg h3, if_neg h4]
  simp [Vector.getElem_set_ne _ _ n3, Vector.getElem_set_ne _ _ n4]

/-- SRSEED begins at the rank, as 32 bits, plus 1 (R63). -/
theorem startSeed_eq (rank : Nat) : (BitVec.ofNat 32 rank).setWidth 64 + 1 = BitVec.ofNat 64 (rank % 2 ^ 32 + 1) := by
  apply BitVec.eq_of_toNat_eq
  simp

/-- The special registers that are laid out from several fields begin with every field 0. -/
theorem absent_words : Vlc.absent.vstartWord = 0 ∧ Vlc.absent.tsmWord = 0 ∧ Vlc.absent.tskWord = 0 ∧ Vlc.absent.fpc.word = 0 ∧
    Vlc.absent.tcause.word = 0 := by
  simp only [Vlc.vstartWord, Vlc.tsmWord, Vlc.tskWord, Vlc.absent]
  decide

theorem registersResetAsTheirTablesSay : Claim.RegistersResetAsTheirTablesSay := by
  refine ⟨⟨rfl, rfl, rfl, regRead_reset_pcap, regRead_reset_queue, regRead_reset_debugger, rfl, rfl, rfl, fun d => ?_⟩, ⟨rfl, rfl⟩,
    fun s l rank core slot lc => ?_⟩
  · obtain ⟨hformat, hinvalidate, hnotices, hislands, hcore⟩ := regRead_reset_housekeeping d
    exact ⟨hformat, rfl, hinvalidate, rfl, hislands, rfl, rfl, hnotices, fun _ _ => rfl, hcore⟩
  · have hs := s.startVlc_s l rank core slot lc
    obtain ⟨hvstart, htsm, htsk, hfpc, htcause⟩ := absent_words
    refine ⟨rfl, rfl, hs 3, hs 4, fun r h3 h4 => ?_, rfl, rfl, rfl, hvstart, rfl, htsm, rfl, htsk, hfpc, startSeed_eq rank, htcause,
      rfl, rfl, ?_, rfl, rfl, rfl, rfl, fun k => ?_, fun k => ?_, fun k => ?_⟩
    · exact (hs r).trans (by rw [if_neg h3, if_neg h4])
    · apply BitVec.eq_of_toNat_eq
      simp [State.sprRead, State.startVlc]
    · simp [State.startVlc, Vlc.absent]
    · simp [State.startVlc, VecReg.clear]
    · simp [State.startVlc, Vlc.absent]

theorem resetIsCanonical : Claim.ResetIsCanonical :=
  ⟨rfl, rfl, rfl, rfl, rfl, rfl, rfl, rfl⟩

/-- Settles O59: the windows read what `State.reset` lists, and a VLC that starts reads what `State.startVlc` gives it. -/
theorem resetState : Obligations.ResetState := ⟨registersResetAsTheirTablesSay, resetIsCanonical⟩

end Sys2Proof.Machine
end


section
/-! MFS and MTS (R413, R417), for O10. -/

namespace Sys2Proof.Machine

/-! ## Fields laid out in a word -/

/-- A field read and laid out again is the word under the field's mask. -/
theorem fieldAt_field (x : Word) (lo w : Nat) : fieldAt (x.toNat / 2 ^ lo % 2 ^ w) lo = x &&& fieldAt (2 ^ w - 1) lo := by
  apply BitVec.eq_of_getLsbD_eq
  intro i hi
  simp only [fieldAt, BitVec.getLsbD_and, BitVec.getLsbD_ofNat, Nat.testBit_mul_two_pow, Nat.testBit_mod_two_pow,
    Nat.testBit_div_two_pow, Nat.testBit_two_pow_sub_one, hi, decide_true, Bool.true_and]
  by_cases h : lo ≤ i
  · rw [Nat.sub_add_cancel h]
    simp only [h, decide_true, Bool.true_and, BitVec.testBit_toNat, Bool.and_comm]
  · simp [h]

theorem fieldAt_extract (x : Word) (lo w : Nat) :
    fieldAt (x.extractLsb' lo w).toNat lo = x &&& fieldAt (2 ^ w - 1) lo := by
  rw [BitVec.extractLsb'_toNat, Nat.shiftRight_eq_div_pow, fieldAt_field]

theorem flagAt_bit (x : Word) (k : Nat) : flagAt (x.getLsbD k) k = x &&& fieldAt 1 k := by
  refine Eq.trans ?_ (fieldAt_field x k 1)
  unfold flagAt
  rw [← BitVec.testBit_toNat, Nat.testBit_eq_decide_div_mod_eq]
  obtain h | h := Nat.mod_two_eq_zero_or_one (x.toNat / 2 ^ k)
  · simp [h, fieldAt]
  · simp [h]

theorem append_zero_eq_fieldAt (y : BitVec 55) : (y ++ 0#9 : Word) = fieldAt y.toNat 9 := by
  apply BitVec.eq_of_toNat_eq
  have h := y.isLt
  rw [BitVec.toNat_append, fieldAt, BitVec.toNat_ofNat, Nat.shiftLeft_eq, BitVec.toNat_ofNat, Nat.zero_mod, Nat.or_zero,
    Nat.mod_eq_of_lt (by omega)]

/-- A word's low bits alone. -/
theorem extract_low (x : Word) (w : Nat) : (x.extractLsb' 0 w).setWidth 64 = x &&& fieldAt (2 ^ w - 1) 0 := by
  rw [← fieldAt_extract]
  apply BitVec.eq_of_toNat_eq
  simp [fieldAt]

/-- A field above bit 1 is not touched by what clears bits 1:0. -/
theorem fieldAt_and_not_low (y : Nat) {lo : Nat} (x : Word) (h : 2 ≤ lo) : fieldAt y lo &&& ~~~(x &&& 3) = fieldAt y lo := by
  apply BitVec.eq_of_getLsbD_eq
  intro i hi
  by_cases hl : lo ≤ i
  · have h3 : (3 : Word).getLsbD i = false := by
      rw [show (3 : Word) = BitVec.ofNat 64 (2 ^ 2 - 1) from rfl, BitVec.getLsbD_ofNat, Nat.testBit_two_pow_sub_one]
      simp; omega
    simp only [BitVec.getLsbD_and, BitVec.getLsbD_not, hi, h3, Bool.and_false, Bool.not_false, decide_true, Bool.and_true]
  · have h0 : (fieldAt y lo).getLsbD i = false := by
      rw [fieldAt, BitVec.getLsbD_ofNat, Nat.testBit_mul_two_pow]
      simp [hl]
    rw [BitVec.getLsbD_and, h0, Bool.false_and]

theorem flagAt_and_not_low (b : Bool) {lo : Nat} (x : Word) (h : 2 ≤ lo) : flagAt b lo &&& ~~~(x &&& 3) = flagAt b lo := by
  cases b
  · exact BitVec.zero_and
  · exact fieldAt_and_not_low 1 x h

/-- A flag that a written 1 clears (R417). -/
theorem flagAt_clear (b : Bool) (x : Word) {k : Nat} (h : k < 2) : flagAt (b && !x.getLsbD k) k = flagAt b k &&& ~~~(x &&& 3) := by
  cases b
  · exact BitVec.zero_and.symm
  have hb : (!x.getLsbD k) = (~~~x).getLsbD k := by simp [show k < 64 by omega]
  have h3 : fieldAt 1 k &&& ~~~3 = 0#64 := by
    obtain rfl | rfl : k = 0 ∨ k = 1 := by omega
    all_goals rfl
  calc flagAt (!x.getLsbD k) k
    _ = fieldAt 1 k &&& ~~~x := by rw [hb, flagAt_bit, BitVec.and_comm]
    _ = fieldAt 1 k &&& ~~~(x &&& 3) := by rw [BitVec.not_and, BitVec.and_or_distrib_left, h3, BitVec.or_zero]

/-! ## The special registers after a write -/

/-- A type code that is assigned is that of its type (R77). -/
theorem code_of_ofCode {c : BitVec 5} {t : VType} (h : VType.ofCode c = some t) : t.code = c := by
  revert c
  cases t <;> decide

theorem ofBits_code (b : BitVec 2) : (Space.ofBits b).code.setWidth 64 = b.setWidth 64 := by
  revert b; decide

/-- The space that MTS writes to MT, as its table lists them (R63 Table 5). -/
theorem ofCode_bits (b : BitVec 2) : Space.ofCode (0#3 ++ b) = some (Space.ofBits b) := by
  revert b; decide

/-- What MTS writes to a register that has RW fields alone reads back: its fields, and 0 elsewhere. -/
theorem State.sprRead_sprWrite {s : State} {r : Spr} {m : Word} (x : Word) (h : sprMask r = some m) :
    (s.sprWrite r x).sprRead r = x &&& m := by
  cases r
  all_goals cases h
  case mt =>
    refine (ofBits_code _).trans ?_
    rw [extract_low]
    rfl
  case vstart =>
    show fieldAt (x.extractLsb' 32 32).toNat 32 ||| fieldAt (x.toNat / 2 ^ 0 % 2 ^ 14) 0 = _
    rw [fieldAt_extract, fieldAt_field, ← BitVec.and_or_distrib_left]
    rfl
  case tsm =>
    show fieldAt (x.extractLsb' 13 2).toNat 13 ||| fieldAt (x.extractLsb' 8 5).toNat 8 ||| fieldAt (x.extractLsb' 0 8).toNat 0 = _
    simp only [fieldAt_extract, ← BitVec.and_or_distrib_left]
    rfl
  case tsn => exact (fieldAt_extract x 0 7).trans rfl
  case tsk =>
    show fieldAt (x.toNat / 2 ^ 16 % 2 ^ 14) 16 ||| fieldAt (x.extractLsb' 0 10).toNat 0 = _
    rw [fieldAt_extract, fieldAt_field, ← BitVec.and_or_distrib_left]
    rfl
  case fpc =>
    show flagAt (x.getLsbD 20) 20 ||| fieldAt (x.extractLsb' 16 2).toNat 16 ||| fieldAt (x.extractLsb' 8 5).toNat 8
      ||| fieldAt (x.extractLsb' 0 5).toNat 0 = _
    simp only [flagAt_bit, fieldAt_extract, ← BitVec.and_or_distrib_left]
    rfl
  case vdecl =>
    obtain ⟨-, y, hy⟩ := State.asideVregs_freshRegs (s.setV fun v => { v with declPend := x.extractLsb' 4 2, declEff := x.extractLsb' 0 2 })
      (8 * (s.v.declHeld.toNat + 1)) (8 * ((x.extractLsb' 0 2).toNat + 1) - 8 * (s.v.declHeld.toNat + 1))
    show (s.writeVdecl x).v.vdeclWord = _
    rw [show (s.writeVdecl x).v = _ from hy]
    show fieldAt (x.extractLsb' 4 2).toNat 4 ||| fieldAt (x.extractLsb' 0 2).toNat 0 = _
    rw [fieldAt_extract, fieldAt_extract, ← BitVec.and_or_distrib_left]
    rfl
  case tcause =>
    show flagAt (x.getLsbD 20) 20 ||| flagAt (x.getLsbD 19) 19 ||| flagAt (x.getLsbD 18) 18 ||| flagAt (x.getLsbD 16) 16
      ||| fieldAt (x.extractLsb' 8 8).toNat 8 ||| fieldAt (x.extractLsb' 0 5).toNat 0 = _
    simp only [flagAt_bit, fieldAt_extract, ← BitVec.and_or_distrib_left]
    rfl
  case tvec =>
    exact (append_zero_eq_fieldAt _).trans ((fieldAt_extract x 9 55).trans rfl)
  case scnt | srseed | tpc | tval => exact BitVec.and_allOnes.symm

/-! ## What a write leaves as it is -/

theorem State.AsideVregs.smooth {s t : State} (h : s.AsideVregs t) : t.smooth = s.smooth := by
  obtain ⟨hb, y, hy⟩ := h
  unfold State.smooth
  rw [hy, hb.stepctl]
  rfl

/-- A change of MAXVL leaves the issuing VLC as it is. -/
theorem State.aside_writeMaxvl (s : State) (x : Word) : s.Aside (s.sprWrite .maxvl x) :=
  ((s.aside_setCore s.v.core rfl).trans (State.aside_gatePower _ _)).trans (State.aside_dueDispatch _)

/-- A change of VDECL leaves the VLC otherwise as it is, but for its vector registers. -/
theorem State.asideVregs_writeVdecl (s : State) (x : Word) :
    (s.setV fun v => { v with declPend := x.extractLsb' 4 2, declEff := x.extractLsb' 0 2 }).AsideVregs (s.sprWrite .vdecl x) :=
  State.asideVregs_freshRegs _ _ _

/-- MTS moves no pc, marks no state, and brings nothing between instructions. -/
theorem State.sprWrite_course (s : State) (r : Spr) (x : Word) :
    (s.sprWrite r x).smooth = s.smooth ∧ (s.sprWrite r x).v.bad = s.v.bad ∧ (s.sprWrite r x).v.pc = s.v.pc := by
  cases r
  case maxvl =>
    have h := s.aside_writeMaxvl x
    exact ⟨State.smooth_of_eq h.v h.stepctl, by rw [h.v], by rw [h.v]⟩
  case vdecl =>
    have h := s.asideVregs_writeVdecl x
    obtain ⟨-, y, hy⟩ := id h
    exact ⟨h.smooth, by rw [hy]; rfl, by rw [hy]; rfl⟩
  case vt =>
    unfold State.sprWrite
    cases VType.ofCode (x.extractLsb' 0 5) <;> exact ⟨rfl, rfl, rfl⟩
  all_goals exact ⟨rfl, rfl, rfl⟩

/-- Where the VLC stands past an instruction, its special registers read as before. -/
theorem State.sprRead_past (s : State) (i : Instr) (r : Spr) : (s.past i).sprRead r = s.sprRead r := by
  cases r <;> rfl

/-! ## The two instructions -/

theorem exec_mfs {s : State} {d : SReg} {r : Spr} (hu : sprUse r s.v.sup ≠ .none) (hs : s.smooth = true) :
    exec (.mfs d r false) s = .next ((s.wr d (s.sprRead r)).past (.mfs d r false)) := by
  have hp : privileged (.mfs d r false) s.v.sup = false := beq_false_of_ne hu
  exact alone_ok (decodeStop_ok rfl rfl hp rfl rfl rfl rfl rfl hs) (State.smooth_wr d _ hs)

theorem exec_mts {s : State} {r : Spr} {a : SReg} (hu : sprUse r s.v.sup = .rw) (hs : s.smooth = true)
    (hv : badVt (.mts r a false) s = false) (he : emptiesLc (.mts r a false) s = false) :
    exec (.mts r a false) s = .next ((s.sprWrite r (s.rd a)).past (.mts r a false)) := by
  obtain ⟨hsmooth, hbad, -⟩ := s.sprWrite_course r (s.rd a)
  have hb : s.v.bad = [] := ((State.smooth_iff s).1 hs).2.2.2.2.2.1
  have heff : effMts r a s = s.sprWrite r (s.rd a) := by
    show (s.sprWrite r (s.rd a)).setV (·.mended [.special r]) = _
    rw [State.setV, Vlc.mended_of_none _ (hbad.trans hb)]
  have hp : privileged (.mts r a false) s.v.sup = false := by
    show (sprUse r s.v.sup == .none) = false
    rw [hu]; rfl
  have ho : operandStop (.mts r a false) s = none := if_neg (by rw [hu]; decide)
  refine (alone_ok (decodeStop_ok rfl hv hp rfl rfl rfl ho he hs) ?_).trans (by rw [heff])
  rw [heff, hsmooth, hs]

/-- The registers that MTS writes alone are written in the fields their table names. -/
theorem State.sprWrite_alone {s : State} {r : Spr} {x : Word} {v : Vlc} (h : sprAlone r x s.v = some v) :
    s.sprWrite r x = { s with v := v } := by
  cases r
  case vt =>
    obtain ⟨t, ht, rfl⟩ := Option.map_eq_some_iff.mp h
    simp only [State.sprWrite, ht]
    rfl
  case mt =>
    obtain ⟨m, hm, rfl⟩ := Option.map_eq_some_iff.mp h
    cases (ofCode_bits _).symm.trans hm
    rfl
  case vstart =>
    cases h
    have h0 : bitsOf x.toNat 13 0 = x.toNat % 16384 := by rw [bitsOf]; omega
    simp only [State.sprWrite, h0]
    rfl
  all_goals cases h
  all_goals rfl

theorem checks_of_sprAlone {s : State} {r : Spr} {a : SReg} {c : Bool} {v : Vlc} (h : sprAlone r (s.rd a) s.v = some v) :
    badVt (.mts r a c) s = false ∧ emptiesLc (.mts r a c) s = false := by
  cases r
  case vt =>
    obtain ⟨t, ht, -⟩ := Option.map_eq_some_iff.mp h
    exact ⟨by simp only [badVt, ht]; rfl, rfl⟩
  case maxvl => cases h
  all_goals exact ⟨rfl, rfl⟩

theorem specialRegisterMoves : Claim.SpecialRegisterMoves := by
  refine ⟨fun s d r hu hs => exec_mfs hu hs, fun s r a v hu hs hv => ?_⟩
  obtain ⟨hvt, hlc⟩ := checks_of_sprAlone (c := false) hv
  rw [exec_mts hu hs hvt hlc, State.sprWrite_alone hv]

/-! ## Reading back -/

/-- The enables and the fuses of the lane clusters of every core are as they were. -/
def State.SameEnables (s t : State) : Prop := ∀ c, (t.core c).lcen = (s.core c).lcen ∧ (t.core c).fused = (s.core c).fused

theorem State.SameEnables.trans {s t u : State} (h : s.SameEnables t) (k : t.SameEnables u) : s.SameEnables u :=
  fun c => ⟨(k c).1.trans (h c).1, (k c).2.trans (h c).2⟩

/-- An update of a core that keeps both keeps those of every core. -/
theorem State.sameEnables_setCore (s : State) (d : Nat) {f : Core → Core}
    (h : (f (s.core d)).lcen = (s.core d).lcen ∧ (f (s.core d)).fused = (s.core d).fused) : s.SameEnables (s.setCore d f) := by
  intro c
  by_cases e : c = d
  · subst e; rw [State.core_setCore_same]; exact h
  · rw [State.core_setCore_other s f e]; exact ⟨rfl, rfl⟩

theorem State.sameEnables_spend (s : State) : s.SameEnables s.spend := fun _ => ⟨rfl, rfl⟩

/-- A lane cluster that loses power is not disabled. -/
theorem State.sameEnables_unpower (s : State) (core c : Nat) : s.SameEnables (s.unpower core c) := by
  have h1 : s.SameEnables (s.spend.setCore core fun k => { k with lanes := k.lanes.write (65536 * c) 65536 (s.free (8 * 65536)).toNat }) :=
    s.sameEnables_spend.trans (State.sameEnables_setCore _ _ ⟨rfl, rfl⟩)
  refine h1.trans (foldl_keeps (R := State.SameEnables) (fun _ _ => ⟨rfl, rfl⟩) .trans (fun s _ => ?_) _ _)
  exact (s.sameEnables_setCore core ⟨rfl, rfl⟩).trans (State.sameEnables_spend _)

theorem State.sameEnables_gatePower (s : State) (core : Nat) : s.SameEnables (s.gatePower core) :=
  foldl_keeps (R := State.SameEnables) (fun _ _ => ⟨rfl, rfl⟩) .trans (fun s c => s.sameEnables_unpower core c) _ s

theorem State.sameEnables_dueDispatch (s : State) : s.SameEnables s.dueDispatch := by
  unfold State.dueDispatch State.duePlace
  simp only
  intro c
  split <;> split <;> exact ⟨rfl, rfl⟩

/-- MTS of MAXVL enables the lane clusters it names, but for those that are fused off. -/
theorem State.lcen_writeMaxvl (s : State) (x : Word) :
    ((s.sprWrite .maxvl x).core s.v.core).lcen =
      (x.extractLsb' 0 4 &&& ~~~(s.core s.v.core).fused) ||| ((s.core s.v.core).lcen &&& (s.core s.v.core).fused) := by
  have h (t : State) : t.SameEnables (t.gatePower s.v.core).dueDispatch :=
    (t.sameEnables_gatePower _).trans (State.sameEnables_dueDispatch _)
  refine ((h _) s.v.core).1.trans ?_
  rw [State.core_setCore_same]

/-- Bit `k` of MAXVL, below the fuses, is the enable of lane cluster `k`. -/
theorem State.maxvl_bit (s : State) {k : Nat} (hk : k < 4) : (s.sprRead .maxvl).getLsbD k = (s.core s.v.core).lcen.getLsbD k := by
  show (fieldAt (s.core s.v.core).fused.toNat 4 ||| fieldAt (s.core s.v.core).lcen.toNat 0).getLsbD k = _
  simp only [fieldAt, BitVec.getLsbD_or, BitVec.getLsbD_ofNat, Nat.testBit_mul_two_pow, BitVec.testBit_toNat]
  simp [show k < 64 by omega, show ¬4 ≤ k by omega]

/-- FSR reads with POISON and TRIM cleared where a 1 is written, and its other fields as they were (R417). -/
theorem State.fsr_write (s : State) (x : Word) : (s.sprWrite .fsr x).sprRead .fsr = s.sprRead .fsr &&& ~~~(x &&& 3) := by
  show fieldAt _ 51 ||| _ ||| _ ||| _ ||| _ ||| flagAt (s.v.fsrPoison && !x.getLsbD 1) 1 ||| flagAt (s.v.fsrTrim && !x.getLsbD 0) 0
    = s.fsrWord &&& _
  rw [flagAt_clear _ _ (by decide), flagAt_clear _ _ (by decide)]
  unfold State.fsrWord
  simp only [BitVec.and_or_distrib_right, fieldAt_and_not_low, flagAt_and_not_low, Nat.reduceLeDiff]
  rfl

/-- VT reads the width code and the code of the type written (R63 Table 4). -/
theorem State.vt_write {s : State} {x : Word} {t : VType} (h : VType.ofCode (x.extractLsb' 0 5) = some t) :
    (s.sprWrite .vt x).sprRead .vt = BitVec.ofNat 64 (256 * t.wcode + t.code.toNat) := by
  have hw : (s.sprWrite .vt x).sprRead .vt = vtWord t := by simp only [State.sprWrite, h]; rfl
  rw [hw]
  cases t <;> rfl

theorem specialRegisterReadBack : Claim.SpecialRegisterReadBack := by
  intro s r a hu hs hv he
  refine ⟨_, exec_mts hu hs hv he, ?_, fun m hm => ?_, ?_, ?_, ?_⟩
  · show (s.sprWrite r (s.rd a)).v.pc + 4 = _
    rw [(s.sprWrite_course r (s.rd a)).2.2]
  · rw [State.sprRead_past, State.sprRead_sprWrite _ hm]
  · rintro rfl
    obtain ⟨t, ht⟩ : ∃ t, VType.ofCode ((s.rd a).extractLsb' 0 5) = some t :=
      Option.isSome_iff_exists.mp (by simpa [badVt, Option.isNone_eq_false_iff] using hv)
    exact ⟨t, code_of_ofCode ht, (State.sprRead_past _ _ _).trans (State.vt_write ht)⟩
  · rintro rfl
    exact (State.sprRead_past _ _ _).trans (s.fsr_write _)
  · rintro rfl k hk
    rw [State.sprRead_past, State.maxvl_bit _ hk, (s.aside_writeMaxvl _).v, State.lcen_writeMaxvl]
    simp only [BitVec.getLsbD_or, BitVec.getLsbD_and, BitVec.getLsbD_not, BitVec.getLsbD_extractLsb', hk, Nat.zero_add]
    cases (s.core s.v.core).fused.getLsbD k <;> simp

/-- Settles O10: MTS writes the fields of `sprWrite`, which MFS reads laid out as it found them. -/
theorem specialRegistersMove : Obligations.SpecialRegistersMove := ⟨specialRegisterMoves, specialRegisterReadBack⟩

end Sys2Proof.Machine
end


section
/-! SUPPORT. A vector or accumulator-port member that is a convoy of its own: its vector phase (R86, R87, R303) from the run of its
elements. -/

namespace Sys2Proof.Machine

/-! ## Runs of elements -/

/-- What every element in turn keeps, a run over them keeps, and it stops at none. -/
theorem runElems_keeps {f : State → Nat → Except (Nat × Stop) State} {P : Nat → State → Prop} {s : State} {lo n : Nat} (h0 : P lo s)
    (hstep : ∀ i t, lo ≤ i → i < lo + n → P i t → ∃ u, f t i = .ok u ∧ P (i + 1) u) :
    ∃ u, runElems f s lo n = (u, none) ∧ P (lo + n) u := by
  induction n generalizing s lo with
  | zero => exact ⟨s, rfl, h0⟩
  | succ n ih =>
    obtain ⟨t, ht, hp⟩ := hstep lo s le_rfl (by omega) h0
    obtain ⟨u, hu, hq⟩ := ih hp fun i t hl hi => hstep i t (by omega) (by omega)
    refine ⟨u, ?_, by rwa [show lo + (n + 1) = lo + 1 + n by omega]⟩
    simp only [runElems, ht, hu]

/-- A run that no element below `e` stops, and `e` does, stops there. -/
theorem runElems_stop {f : State → Nat → Except (Nat × Stop) State} {s s1 : State} {lo k n : Nat} {e : Nat × Stop} (hk : k < n)
    (h : runElems f s lo k = (s1, none)) (he : f s1 (lo + k) = .error e) : runElems f s lo n = (s1, some e) := by
  induction k generalizing s lo n with
  | zero =>
    obtain ⟨n, rfl⟩ : ∃ m, n = m + 1 := ⟨n - 1, by omega⟩
    have hs : f s lo = .error e := by cases h; exact he
    cases h
    simp only [runElems, hs]
  | succ k ih =>
    obtain ⟨n, rfl⟩ : ∃ m, n = m + 1 := ⟨n - 1, by omega⟩
    rw [runElems] at h ⊢
    split at h
    · cases h
    · rename_i t ht
      exact ih (by omega) h (by rwa [show lo + 1 + k = lo + (k + 1) by omega])

/-! ## The phase of one member -/

/-- The state with VSTART.ELEM at an element. -/
def State.startAt (s : State) (e : Nat) : State := s.setV fun v => { v with vstart := e }

@[simp] theorem State.startAt_vstart (s : State) : s.startAt s.v.vstart = s := rfl

/-- Ahead of a member on its own no member's stores are sent. -/
theorem vectorPhase_lone {s : State} (m : Member) (he : m.release = true → s.v.early = false) : vectorPhase [m] s = phaseRun [m] s := by
  unfold vectorPhase
  cases hm : m.release
  · simp [hm]
  have he := he hm
  have posts (e : Nat) : earlyPosts [m] s e = none := by
    unfold earlyPosts
    simp [List.takeWhile, hm, performAll, he]
  simp only [List.all_cons, hm, he, posts, Bool.not_true, Bool.false_and, Bool.false_eq_true, if_false]
  split <;> rfl

theorem phaseLo_lone {m : Member} {s : State} (h : m.block = true → s.v.vstart % 128 = 0) : phaseLo [m] s = s.v.vstart := by
  unfold phaseLo
  cases hm : m.block
  · simp [hm]
  · have := h hm
    simp [hm]
    omega

/-- With VL 0 a phase does nothing. -/
theorem phaseRun_zero {s : State} {ms : List Member} (h : s.v.vl = 0) : phaseRun ms s = .done (s.startAt (phaseLo ms s)) := by
  unfold phaseRun
  exact if_pos h

/-- A release that begins has no store of its convoy sent before. -/
theorem State.startsRelease_self {s : State} (m : Member) (he : m.release = true → s.v.early = false) :
    (if m.release then s.setV fun v => { v with early := false } else s) = s := by
  split
  · have he := he ‹_›
    have h : s = { s with v := { s.v with early := s.v.early } } := rfl
    rw [he] at h
    exact h.symm
  · rfl

/-- A phase of one member that no element stops completes with the member's end. -/
theorem phaseRun_lone_done {s s1 : State} {m : Member} (hvl : 0 < s.v.vl) (hc : s.v.cut = none) (he : m.release = true → s.v.early = false)
    (hrun : runElems (m.elem (s.startAt (phaseLo [m] s))) (s.startAt (phaseLo [m] s)) (phaseLo [m] s) (s.v.vl - phaseLo [m] s) =
      (s1, none)) :
    phaseRun [m] s = .done (m.close s1 s.v.vl true) := by
  generalize hlo : phaseLo [m] s = lo at hrun
  have hv : (s.startAt lo).v.vl = s.v.vl := rfl
  have hcut : (s.startAt lo).v.cut = none := hc
  have hfold : (s.setV fun v => { v with vstart := lo }) = s.startAt lo := rfl
  simp only [phaseRun, hlo, hfold, hv, hcut]
  rw [if_neg (by omega)]
  by_cases hb : s.v.vl ≤ lo
  · rw [show s.v.vl - lo = 0 by omega] at hrun
    cases hrun
    rw [if_pos hb]
    rfl
  · rw [if_neg hb]
    have hquiet := (s.startAt lo).startsRelease_self m he
    simp only [discover, Found.bound, hquiet, hrun, beq_self_eq_true, Bool.and_self, if_true]

/-- A trap other than PAGE and ARITH that a member's element `e` meets is taken with the elements below `e` performed. -/
theorem phaseRun_lone_stop {s s1 : State} {m : Member} {e : Nat} {cls : TrapClass} {sub : Nat} {tval : Word} {r : Option FaultRec}
    (hf : m.fof = false) (hb : m.block = false) (hg : m.group = false) (ha : cls ≠ .arith) (hp : cls ≠ .page) (hc : s.v.cut = none)
    (he : m.release = true → s.v.early = false) (hlo : s.v.vstart ≤ e) (hvl : e < s.v.vl)
    (hrun : runElems (m.elem s) s s.v.vstart (e - s.v.vstart) = (s1, none)) (hstop : m.elem s s1 e = .error (e, .trap cls sub tval r)) :
    phaseRun [m] s = .stopped ((m.close s1 e false).startAt e) (.trap cls sub tval r) := by
  have hloe : phaseLo [m] s = s.v.vstart := phaseLo_lone fun h => by rw [hb] at h; cases h
  have hself : (s.setV fun v => { v with vstart := s.v.vstart }) = s := rfl
  have hquiet := s.startsRelease_self m he
  have hall : runElems (m.elem s) s s.v.vstart (s.v.vl - s.v.vstart) = (s1, some (e, .trap cls sub tval r)) :=
    runElems_stop (by omega) hrun (by rwa [Nat.add_sub_cancel' hlo])
  have hpoint : stopPoint [m] s.v.vstart e = e := by simp [stopPoint, hb, hg]
  have hperform : performAll s.v.vstart e [m] s = m.close s1 e false := by
    simp only [performAll, List.foldl_cons, List.foldl_nil, hquiet, hrun]
  have hhint : s.hinted [m] e (.trap cls sub tval r) = .trap cls sub tval r := by
    unfold State.hinted
    split
    · rename_i h; cases h; exact absurd rfl hp
    · rfl
  have hflags (t : State) : t.arithFlags { at_ := e, stop := .trap cls sub tval r, member := m } = t := by
    unfold State.arithFlags
    split
    · rename_i h; cases h; exact absurd rfl ha
    · rfl
  simp only [phaseRun, hloe, hself, hc]
  rw [if_neg (by omega), if_neg (by omega)]
  simp only [discover, Found.bound, hquiet, hall, Found.add, hf, Bool.false_and, Bool.false_eq_true, if_false, lower, stopMet, stopAt,
    hpoint, hperform, hhint, hflags]
  rfl

/-! ## The instruction of a member on its own -/

/-- What follows the vector phase of an instruction that is a convoy of its own. -/
def Phased.outcome (i : Instr) : Phased → State
  | .done s => s.clearVstart.finish i
  | .stopped s e => s.raise i e

/-- An instruction that is a convoy of its own and passes its checks runs its member's vector phase. -/
theorem exec_lone {i : Instr} {s : State} {m : Member} (hm : loneMember i = some m) (hd : decodeStop i s = none) (ho : loneOk i s) :
    exec i s = .next ((vectorPhase [m] s).outcome i) := by
  have alone (i : Instr) (m : Member) (hd : decodeStop i s = none) :
      vectorAlone i s m = .next ((vectorPhase [m] s).outcome i) := by
    unfold vectorAlone
    rw [checked_none hd]
    cases vectorPhase [m] s <;> rfl
  have port (i : Instr) (m : Member) (hd : decodeStop i s = none) (ho : portStop s.v.pc s = none) :
      portAlone i s m = .next ((vectorPhase [m] s).outcome i) := by
    unfold portAlone
    rw [checked_none hd, ho]
    cases vectorPhase [m] s <;> rfl
  have operand (i : Instr) (bad : State → Option Stop) (m : Member) (hd : decodeStop i s = none) (ho : bad s = none) :
      operandThen i s bad m = .next ((vectorPhase [m] s).outcome i) := by
    unfold operandThen
    rw [checked_none hd, ho, ite_self]
    cases vectorPhase [m] s <;> rfl
  have voxel (b : SReg) (h : s.voxel (s.rd b) ≠ none) : voxelBad b s = none := by
    unfold voxelBad
    split
    · exact absurd ‹_› h
    · rfl
  cases i
  case text => cases hm; exact port _ _ hd ho
  case tinj => cases hm; exact port _ _ hd ho
  case vbin => cases hm; exact operand _ _ _ hd (if_pos ho)
  case vhash => cases hm; exact operand _ _ _ hd (voxel _ ho)
  case vhlook => cases hm; exact operand _ _ _ hd (voxel _ ho)
  case vhins => cases hm; exact operand _ _ _ hd (voxel _ ho)
  case vst t k o d a c =>
    cases hm
    refine Eq.trans (if_neg ?_) (alone _ _ hd)
    rintro ⟨h, hs⟩
    rcases ho with rfl | ho
    · cases h
    · exact hs ho
  all_goals cases hm
  all_goals exact alone _ _ hd

/-- An instruction that is a convoy of its own completes when none of its elements from VSTART.ELEM on stops, VSTART 0. -/
theorem exec_lone_completes {i : Instr} {s s1 : State} {m : Member} (hm : loneMember i = some m) (hd : decodeStop i s = none)
    (ho : loneOk i s) (hs : s.smooth = true) (he : m.release = true → s.v.early = false) (hvl : 0 < s.v.vl)
    (hrun : runElems (m.elem (s.startAt (phaseLo [m] s))) (s.startAt (phaseLo [m] s)) (phaseLo [m] s) (s.v.vl - phaseLo [m] s) =
      (s1, none)) (hclose : (m.close s1 s.v.vl true).smooth = true) :
    exec i s = .next ((m.close s1 s.v.vl true).clearVstart.past i) := by
  have hc : s.v.cut = none := ((State.smooth_iff s).1 hs).2.2.2.2.1
  rw [exec_lone hm hd ho, vectorPhase_lone m he, phaseRun_lone_done hvl hc he hrun]
  exact congrArg Host.Outcome.next (State.finish_smooth i hclose)

/-- With VL 0 it completes and changes nothing. -/
theorem exec_lone_zero {i : Instr} {s : State} {m : Member} (hm : loneMember i = some m) (hd : decodeStop i s = none)
    (ho : loneOk i s) (hs : s.smooth = true) (he : m.release = true → s.v.early = false) (hvl : s.v.vl = 0) :
    exec i s = .next (s.clearVstart.past i) := by
  rw [exec_lone hm hd ho, vectorPhase_lone m he, phaseRun_zero hvl]
  exact congrArg Host.Outcome.next (State.finish_smooth (s := (s.startAt _).clearVstart) i hs)

theorem vectorInstructionsRunTheirElements : Claim.VectorInstructionsRunTheirElements := by
  intro i s m hm hd ho hs he hb
  have hlo : phaseLo [m] s = s.v.vstart := phaseLo_lone hb
  have completes (s1 : State) := exec_lone_completes (s1 := s1) hm hd ho hs fun _ => he
  simp only [hlo, State.startAt_vstart] at completes
  refine ⟨fun h0 => exec_lone_zero hm hd ho hs (fun _ => he) h0, fun hvl hle hclose => completes s hvl ?_ hclose,
    fun s1 hlt hrun hclose => completes s1 (by omega) hrun hclose⟩
  rw [show s.v.vl - s.v.vstart = 0 by omega]
  rfl

theorem vectorStopsAtItsElement : Claim.VectorStopsAtItsElement := by
  intro i s s1 s2 m e cls sub tval r hm hd ho hf hb hg ha hp hc he hlo hvl hrun hstop hs2
  rw [exec_lone hm hd ho, vectorPhase_lone m fun _ => he, phaseRun_lone_stop hf hb hg ha hp hc (fun _ => he) hlo hvl hrun hstop, hs2]
  rfl

end Sys2Proof.Machine
end


section
/-! SUPPORT. Elements of vector registers (R54, R56, R57): what one reads after a write, and what a member's end leaves. -/

namespace Sys2Proof.Machine

/-! ## Elements of an image -/

theorem VecReg.elem_eq (r : VecReg) (w i : Nat) : r.elem w i = (r.img.extractLsb' (w * i) w).toNat := by
  rw [BitVec.extractLsb'_toNat]; rfl

/-- An element written reads as its low bits, and every other element as before. -/
theorem VecReg.put_extract (r : VecReg) {w i : Nat} (x k : Nat) (hfit : w * (i + 1) ≤ 262144) :
    (r.put w i x).img.extractLsb' (w * k) w = if k = i then BitVec.ofNat w x else r.img.extractLsb' (w * k) w := by
  by_cases hk : k = i
  · subst hk
    rw [if_pos rfl]
    refine BitVec.eq_of_toNat_eq ?_
    rw [← VecReg.elem_eq, VecReg.elem_put_same _ _ _ _ hfit, BitVec.toNat_ofNat]
  rw [if_neg hk]
  refine BitVec.eq_of_getLsbD_eq fun j hj => ?_
  rw [BitVec.getLsbD_extractLsb', BitVec.getLsbD_extractLsb']
  by_cases hb : w * k + j < 262144
  · have hout : w * k + w ≤ w * i ∨ w * i + w ≤ w * k :=
      (Nat.lt_or_gt_of_ne hk).imp (Nat.mul_le_mul_left w) (Nat.mul_le_mul_left w)
    rw [← BitVec.testBit_toNat, ← BitVec.testBit_toNat, VecReg.testBit_put _ _ _ _ _ hb, if_neg (by omega)]
  · rw [BitVec.getLsbD_of_ge _ _ (by omega), BitVec.getLsbD_of_ge _ _ (by omega)]

/-- The bits that an element of a type holds are among those of its width. -/
theorem payload_mod (t : VType) (x : Nat) : payload t x % 2 ^ t.width = payload t (x % 2 ^ t.width) := by
  cases t <;> simp [payload, VType.width]
  all_goals omega

/-! ## Elements of the VLC's registers -/

/-- Elements below VL lie in a register, where VL elements of the type do. -/
theorem Vlc.fits_below {v : Vlc} {w k : Nat} (h : v.vl * w ≤ 64 * v.mvl64) (hk : k < v.vl) : v.fits w k = true := by
  refine decide_eq_true ?_
  have := Nat.mul_le_mul_left w (Nat.succ_le_of_lt hk)
  rw [Nat.mul_comm w v.vl] at this
  exact this.trans h

theorem Vlc.element_eq (v : Vlc) (t : VType) (q : VReg) (k : Nat) :
    v.element t q k = payload t ((v.vregs[q.toNat]).elem t.width k) := by
  rw [VecReg.elem_eq]; rfl

theorem Vlc.element_lt (v : Vlc) (t : VType) (q : VReg) (k : Nat) : v.element t q k < 2 ^ t.width := by
  have h : (v.vregs[q.toNat]).elem t.width k % 2 ^ t.width = (v.vregs[q.toNat]).elem t.width k :=
    Nat.mod_eq_of_lt (by rw [VecReg.elem_eq]; exact BitVec.isLt _)
  rw [Vlc.element_eq, ← h, ← payload_mod]
  exact Nat.mod_lt _ (Nat.two_pow_pos _)

/-- An element that lies in its register and is not poisoned is read. -/
theorem State.readElem_ok {s : State} {t : VType} {q : VReg} {k : Nat} (hf : s.v.fits t.width k = true)
    (hp : (s.v.vregs[q.toNat]).poison.getLsbD (t.width * k / 64) = false) : s.readElem t q k = .ok (s.v.element t q k) := by
  rw [Vlc.element_eq]
  unfold State.readElem State.readRaw
  rw [hf, show (s.v.vreg q).poison.getLsbD (t.width * k / 64) = false from hp]
  rfl

/-- A bit of a mask register, of m0 too (R76). -/
theorem Vlc.mask_bit (v : Vlc) (m : MReg) {k : Nat} (hk : k < 8192) : (v.mask m).getLsbD k = v.bit m k := by
  unfold Vlc.mask Vlc.bit
  by_cases hm : m = 0
  · rw [if_pos hm, hm, BitVec.getLsbD_allOnes, decide_eq_true hk]
    rfl
  · rw [if_neg hm, beq_false_of_ne hm, Bool.false_or]

/-- An element is active where R76 and R433 say. -/
theorem Vlc.active_iff {v : Vlc} {m : MReg} {k : Nat} (h : v.vl ≤ 8192) : v.active m k = true ↔ v.live m k := by
  unfold Vlc.active Vlc.live
  simp only [Bool.and_eq_true, decide_eq_true_eq, and_assoc]
  refine and_congr_right fun _ => and_congr_right fun hk => ?_
  rw [Vlc.mask_bit _ _ (by omega), Vlc.bit, Bool.or_eq_true, beq_iff_eq]

/-! ## A register filled -/

theorem State.setV_congr {s : State} {f g : Vlc → Vlc} (h : f s.v = g s.v) : s.setV f = s.setV g := by
  unfold State.setV; rw [h]

/-- The state with `r` in vector register `d` and `fl` ORed into FPC.FLAGS. -/
def State.filled (s : State) (d : VReg) (r : VecReg) (fl : Flags) : State :=
  s.setV fun v => { v with vregs := v.vregs.set d.toNat r, fpc := { v.fpc with flags := v.fpc.flags ||| fl } }

theorem State.filled_self (s : State) (d : VReg) : s.filled d s.v.vregs[d.toNat] 0 = s := by
  have h1 : s.v.vregs.set d.toNat s.v.vregs[d.toNat] = s.v.vregs := Vector.set_getElem_self _
  have h2 : s.v.fpc.flags ||| 0 = s.v.fpc.flags := BitVec.or_zero
  refine (State.setV_congr (g := id) ?_).trans rfl
  simp only [h1, h2, id_eq]

theorem State.filled_vreg_same (s : State) (d : VReg) (r : VecReg) (fl : Flags) : (s.filled d r fl).v.vregs[d.toNat] = r :=
  Vector.getElem_set_self _

theorem State.filled_vreg_other (s : State) {d q : VReg} (r : VecReg) (fl : Flags) (h : q ≠ d) :
    (s.filled d r fl).v.vregs[q.toNat] = s.v.vregs[q.toNat] :=
  Vector.getElem_set_ne d.isLt q.isLt fun e => h (BitVec.eq_of_toNat_eq e.symm)

/-- A held register that is filled again. -/
theorem State.filled_setVreg {s : State} {d : VReg} (r x : VecReg) (fl : Flags) (h : d.toNat < 8 * (s.v.declHeld.toNat + 1)) :
    (s.filled d r fl).setV (·.setVreg d x) = s.filled d x fl := by
  refine (State.setV_congr (g := fun _ => (s.filled d x fl).v) ?_).trans rfl
  refine (if_neg (Nat.not_le.mpr h)).trans ?_
  simp only [State.filled, State.setV_v, Vector.set_set]

theorem State.filled_raiseFlags (s : State) (d : VReg) (r : VecReg) (fl f : Flags) :
    (s.filled d r fl).raiseFlags f = s.filled d r (fl ||| f) := by
  unfold State.raiseFlags
  by_cases h : f = 0
  · rw [if_pos h, h]
    exact congrArg (s.filled d r) BitVec.or_zero.symm
  · rw [if_neg h]
    simp only [State.filled, State.setV, BitVec.or_assoc]

theorem State.filled_writeElem {s : State} {d : VReg} {t : VType} {k : Nat} (r : VecReg) (fl : Flags) (x : Nat)
    (h : d.toNat < 8 * (s.v.declHeld.toNat + 1)) (hf : s.v.fits t.width k = true) :
    (s.filled d r fl).writeElem t d k x = s.filled d (r.put t.width k (payload t x)) fl := by
  refine (if_pos hf).trans ((State.filled_setVreg r _ fl h).trans ?_)
  rw [show (s.filled d r fl).v.vreg d = r from s.filled_vreg_same d r fl]

/-- The tag, the mark and the poison of a filled register at the end of its member. -/
theorem State.filled_cover {s : State} {d : VReg} {t : VType} {e : Nat} {act : Nat → Bool} (r : VecReg) (fl : Flags)
    (h : d.toNat < 8 * (s.v.declHeld.toNat + 1)) :
    (s.filled d r fl).cover t d e act = s.filled d ((r.cover t e s.v.mvl64).heal t.width act e) fl := by
  refine (State.filled_setVreg r _ fl h).trans ?_
  rw [show (s.filled d r fl).v.vreg d = r from s.filled_vreg_same d r fl]
  rfl

/-! ## What a member's end leaves in its register -/

@[simp] theorem VecReg.cover_img (r : VecReg) (t : VType) (e words : Nat) : (r.cover t e words).img = r.img := by
  unfold VecReg.cover; split <;> rfl

@[simp] theorem VecReg.heal_img (r : VecReg) (w : Nat) (act : Nat → Bool) (e : Nat) : (r.heal w act e).img = r.img := by
  unfold VecReg.heal; split <;> rfl

@[simp] theorem VecReg.heal_tag (r : VecReg) (w : Nat) (act : Nat → Bool) (e : Nat) : (r.heal w act e).tag = r.tag := by
  unfold VecReg.heal; split <;> rfl

@[simp] theorem VecReg.heal_hwm (r : VecReg) (w : Nat) (act : Nat → Bool) (e : Nat) : (r.heal w act e).hwm = r.hwm := by
  unfold VecReg.heal; split <;> rfl

/-- Tag and mark follow the type and the elements covered, which lie in the register (R56). -/
theorem VecReg.cover_marks {r : VecReg} {t : VType} {e words : Nat} (he : 0 < e) (hw : e * t.width ≤ 64 * words) :
    (r.cover t e words).tag = BitVec.ofNat 2 t.wcode ∧ (r.cover t e words).hwm = max r.hwm (e * t.width / 8) := by
  have hs : sat (8 * words) (e * t.width / 8) = e * t.width / 8 := if_pos (by omega)
  unfold VecReg.cover
  rw [if_neg (by omega), hs]
  exact ⟨rfl, rfl⟩

end Sys2Proof.Machine
end


section
/-! The element-wise vector instructions (R437, R441, R442, R451, R456, R83), for O23. -/

namespace Sys2Proof.Machine

/-! ## Low bits of integers -/

theorem low_natCast (w x : Nat) : low w (x : Int) = x % 2 ^ w := by
  unfold low; norm_cast

/-- An integer type's value is its low bits but for a multiple of 2^w. -/
theorem int_emod (t : VType) (x : Nat) : t.int x % (2 ^ t.width : Nat) = (x : Int) % (2 ^ t.width : Nat) := by
  have h : signed t.width x % (2 ^ t.width : Nat) = (x : Int) % (2 ^ t.width : Nat) := by
    unfold signed
    split
    · push_cast; exact Int.emod_emod_of_dvd _ dvd_rfl
    · rw [Int.sub_emod_right]; push_cast; exact Int.emod_emod_of_dvd _ dvd_rfl
  unfold VType.int
  split
  · exact h
  · push_cast; exact Int.emod_emod_of_dvd _ dvd_rfl

theorem low_congr {w : Nat} {x y : Int} (h : x % (2 ^ w : Nat) = y % (2 ^ w : Nat)) : low w x = low w y := by
  unfold low; rw [h]

theorem low_mod (w : Nat) (x : Int) : low w x % 2 ^ w = low w x := by
  refine Nat.mod_eq_of_lt ?_
  unfold low
  have := Int.emod_lt_of_pos x (show (0 : Int) < (2 ^ w : Nat) by exact_mod_cast Nat.two_pow_pos w)
  have := Int.emod_nonneg x (show ((2 ^ w : Nat) : Int) ≠ 0 by exact_mod_cast (Nat.two_pow_pos w).ne')
  omega

theorem low_int (t : VType) (x : Nat) : low t.width (t.int x) = x % 2 ^ t.width :=
  (low_congr (int_emod t x)).trans (low_natCast _ _)

theorem add_eq_low (t : VType) (p q : Nat) : (p + q) % 2 ^ t.width = low t.width (t.int p + t.int q) := by
  rw [← low_natCast]
  refine low_congr ?_
  rw [Int.add_emod (t.int p), int_emod t, int_emod t, ← Int.add_emod]
  norm_cast

theorem sub_eq_low (t : VType) (p : Nat) {q : Nat} (hq : q < 2 ^ t.width) :
    (p + 2 ^ t.width - q) % 2 ^ t.width = low t.width (t.int p - t.int q) := by
  rw [← low_natCast]
  refine low_congr ?_
  rw [Int.sub_emod (t.int p), int_emod t, int_emod t, ← Int.sub_emod, Nat.cast_sub (by omega), Nat.cast_add,
    add_sub_right_comm, Int.add_emod_right]

theorem mul_eq_low (t : VType) (p q : Nat) : (p * q) % 2 ^ t.width = low t.width (t.int p * t.int q) := by
  rw [← low_natCast]
  refine low_congr ?_
  rw [Int.mul_emod (t.int p), int_emod t, int_emod t, ← Int.mul_emod]
  norm_cast

theorem mulh_eq_low (t : VType) (p q : Nat) :
    intMulh t.isSigned t.width p q % 2 ^ t.width = low t.width (t.int p * t.int q / (2 ^ t.width : Nat)) := by
  unfold intMulh VType.int
  cases t.isSigned
  · simp only [Bool.false_eq_true, if_false]
    rw [← low_natCast]
    norm_cast
  · simp only [if_true]
    exact low_mod _ _

theorem minMax_eq_low (t : VType) (mx : Bool) (p q : Nat) :
    t.minMax mx p q % 2 ^ t.width = low t.width (if mx then max (t.int p) (t.int q) else min (t.int p) (t.int q)) := by
  unfold VType.minMax
  cases mx
  · simp only [Bool.false_eq_true, if_false]
    split
    · rw [min_eq_right (by omega), low_int, Nat.mod_mod]
    · rw [min_eq_left (by omega), low_int, Nat.mod_mod]
  · simp only [if_true]
    split
    · rw [max_eq_right (by omega), low_int, Nat.mod_mod]
    · rw [max_eq_left (by omega), low_int, Nat.mod_mod]

theorem minInt_le_maxInt (t : VType) : t.minInt ≤ t.maxInt := by cases t <;> decide

theorem clamp_eq_low (t : VType) (i : Int) : t.clamp i % 2 ^ t.width = low t.width (max t.minInt (min t.maxInt i)) := by
  have := minInt_le_maxInt t
  unfold VType.clamp
  rw [low_mod]
  congr 1
  split
  · omega
  · split <;> omega

/-! ## One element -/

/-- What `g` computes for element `k` of a member is what `o` says, when `d` is being filled and the sources of the element are still
as they were in `s`: its bits as the destination holds them, and its flags. -/
def VecOp.Computes (o : VecOp) (s : State) (g : State → Nat → Except Stop (Nat × State)) : Prop :=
  ∀ (d : VReg) (r : VecReg) (fl : Flags) (k : Nat), (∀ q ∈ o.reads k, (s.filled d r fl).readElem o.t q k = .ok (s.v.element o.t q k)) →
    s.v.fpc.en &&& (o.val k).flags = 0 →
    ∃ x, g (s.filled d r fl) k = .ok (x, (s.filled d r fl).raiseFlags (o.val k).flags) ∧
      payload o.t x % 2 ^ o.t.width = payload o.t ((o.val k).bits % 2 ^ o.t.width)

/-- A result without flags. -/
theorem State.raiseFlags_zero (s : State) : s.raiseFlags 0 = s := if_pos rfl

/-- A result of which no flag is enabled sets its flags. -/
theorem State.flagged_ok {s : State} {f : Flags} (h : s.v.fpc.en &&& f = 0) : s.flagged f = .ok (s.raiseFlags f) := by
  have ht : s.v.fpc.traps f = false := by rw [Fpc.traps, h]; rfl
  unfold State.flagged
  rw [ht]
  rfl

theorem computes_vec2op {s : State} {t : VType} {m : MReg} {d a b : VReg} {f g : Nat → Nat → Nat}
    (h : ∀ p q, p < 2 ^ t.width → q < 2 ^ t.width → f p q % 2 ^ t.width = g p q % 2 ^ t.width) :
    ∃ e, vec2op t m d a b f = Member.writes t m d e ∧ VecOp.Computes
      { t := t, mask := m, d := d, reads := fun _ => [a, b], val := fun k => .quiet (g (s.v.element t a k) (s.v.element t b k)) } s e := by
  refine ⟨_, rfl, fun d r fl k hread _ => ⟨f (s.v.element t a k) (s.v.element t b k) % 2 ^ t.width, ?_, ?_⟩⟩
  · have ha : (s.filled d r fl).readElem t a k = .ok (s.v.element t a k) := hread a (by simp)
    have hb : (s.filled d r fl).readElem t b k = .ok (s.v.element t b k) := hread b (by simp)
    simp only [ha, hb, Res.quiet, State.raiseFlags_zero]
    rfl
  · rw [payload_mod, Nat.mod_mod, h _ _ (s.v.element_lt t a k) (s.v.element_lt t b k)]
    rfl

theorem computes_fp2op {s : State} {t : VType} {m : MReg} {d a b : VReg} {f : State → Nat → Nat → Res}
    (h : ∀ d r fl, f (s.filled d r fl) = f s) :
    ∃ e, fp2op t m d a b f = Member.writes t m d e ∧ VecOp.Computes
      { t := t, mask := m, d := d, reads := fun _ => [a, b], val := fun k => f s (s.v.element t a k) (s.v.element t b k) } s e := by
  refine ⟨_, rfl, fun d r fl k hread hfl => ⟨(f s (s.v.element t a k) (s.v.element t b k)).bits, ?_, payload_mod _ _⟩⟩
  have ha : (s.filled d r fl).readElem t a k = .ok (s.v.element t a k) := hread a (by simp)
  have hb : (s.filled d r fl).readElem t b k = .ok (s.v.element t b k) := hread b (by simp)
  simp only [ha, hb, h, bind, Except.bind, State.flagged_ok (s := s.filled d r fl) hfl]

theorem computes_fp1op {s : State} {t : VType} {m : MReg} {d a : VReg} {f : State → Nat → Res} (h : ∀ d r fl, f (s.filled d r fl) = f s) :
    ∃ e, fp1op t m d a f = Member.writes t m d e ∧ VecOp.Computes
      { t := t, mask := m, d := d, reads := fun _ => [a], val := fun k => f s (s.v.element t a k) } s e := by
  refine ⟨_, rfl, fun d r fl k hread hfl => ⟨(f s (s.v.element t a k)).bits, ?_, payload_mod _ _⟩⟩
  have ha : (s.filled d r fl).readElem t a k = .ok (s.v.element t a k) := hread a (by simp)
  simp only [ha, h, bind, Except.bind, State.flagged_ok (s := s.filled d r fl) hfl]

theorem computes_fma {s : State} {t : VType} {m : MReg} {d a b : VReg} :
    ∃ e, memFma t m d a b = Member.writes t m d e ∧ VecOp.Computes
      { t := t, mask := m, d := d, reads := fun _ => [a, b, d],
        val := fun k => fpFma t.fmt s.rm (s.ftzFor t) (s.v.element t a k) (s.v.element t b k) (s.v.element t d k) } s e := by
  refine ⟨_, rfl, fun d' r fl k hread hfl =>
    ⟨(fpFma t.fmt s.rm (s.ftzFor t) (s.v.element t a k) (s.v.element t b k) (s.v.element t d k)).bits, ?_, payload_mod _ _⟩⟩
  have ha : (s.filled d' r fl).readElem t a k = .ok (s.v.element t a k) := hread a (by simp)
  have hb : (s.filled d' r fl).readElem t b k = .ok (s.v.element t b k) := hread b (by simp)
  have hd : (s.filled d' r fl).readElem t d k = .ok (s.v.element t d k) := hread d (by simp)
  have hrm : (s.filled d' r fl).rm = s.rm := rfl
  have hftz : (s.filled d' r fl).ftzFor t = s.ftzFor t := rfl
  simp only [ha, hb, hd, hrm, hftz, bind, Except.bind, State.flagged_ok (s := s.filled d' r fl) hfl]

/-- A member whose element's value needs no source of the registers that are filled. -/
theorem computes_quiet {s : State} {t : VType} {m : MReg} {d : VReg} {g : State → Nat → Except Stop (Nat × State)} {x : Nat → Nat}
    (h : ∀ d r fl k, g (s.filled d r fl) k = .ok (x k, s.filled d r fl)) :
    VecOp.Computes { t := t, mask := m, d := d, reads := fun _ => [], val := fun k => .quiet (x k) } s g :=
  fun d r fl k _ _ => ⟨x k, (h d r fl k).trans (congrArg (fun u => Except.ok (x k, u)) (State.raiseFlags_zero _).symm), payload_mod _ _⟩

theorem computes_merge {s : State} {t : VType} {m : MReg} {d a b : VReg} :
    ∃ e, memMerge t m d a b = Member.writes t 0 d e ∧ VecOp.Computes
      { t := t, mask := 0, d := d, reads := fun k => [if m ≠ 0 ∧ (s.v.masks[m.toNat]).getLsbD k then a else b],
        val := fun k => .quiet (s.v.element t (if m ≠ 0 ∧ (s.v.masks[m.toNat]).getLsbD k then a else b) k) } s e := by
  refine ⟨_, rfl, fun d' r fl k hread _ => ⟨s.v.element t (if m ≠ 0 ∧ (s.v.masks[m.toNat]).getLsbD k then a else b) k, ?_, payload_mod _ _⟩⟩
  have hpick : (m ≠ 0 ∧ ((s.filled d' r fl).v.mask m).getLsbD k = true) ↔ (m ≠ 0 ∧ (s.v.masks[m.toNat]).getLsbD k = true) :=
    and_congr_right fun hm => by rw [Vlc.mask, if_neg hm]; rfl
  have hsrc := hread _ (List.mem_singleton_self _)
  simp only [hpick, Res.quiet, State.raiseFlags_zero]
  exact (congrArg (· >>= fun x => Except.ok (x, s.filled d' r fl)) hsrc)

/-- The element-wise instructions are members that write their destination's elements as their tables say. -/
theorem vecOp_computes {i : Instr} {s : State} {o : VecOp} (ho : vecOp i s = some o) :
    ∃ g, loneMember i = some (Member.writes o.t o.mask o.d g) ∧ o.Computes s g := by
  have some_of {o : VecOp} {m : Member} (h : ∃ g, m = Member.writes o.t o.mask o.d g ∧ o.Computes s g) :
      ∃ g, some m = some (Member.writes o.t o.mask o.d g) ∧ o.Computes s g := by
    obtain ⟨g, rfl, hg⟩ := h
    exact ⟨g, rfl, hg⟩
  have int {t : VType} {m : MReg} {d a b : VReg} {f : Nat → Nat → Nat} {g : Int → Int → Int}
      (h : ∀ p q, q < 2 ^ t.width → f p q % 2 ^ t.width = low t.width (g (t.int p) (t.int q))) :=
    computes_vec2op (s := s) (m := m) (d := d) (a := a) (b := b) (f := f) (g := fun p q => low t.width (g (t.int p) (t.int q)))
      fun p q _ hq => (h p q hq).trans (low_mod _ _).symm
  have raw {t : VType} {m : MReg} {d a b : VReg} {f g : Nat → Nat → Nat} (h : ∀ p q, f p q = g p q) :=
    computes_vec2op (s := s) (m := m) (d := d) (a := a) (b := b) (f := f) (g := fun p q => g p q % 2 ^ t.width)
      fun p q _ _ => by rw [h, Nat.mod_mod]
  cases i
  case vadd => cases ho; exact some_of (int fun p q _ => add_eq_low _ p q)
  case vsub => cases ho; exact some_of (int fun p q hq => sub_eq_low _ p hq)
  case vmul => cases ho; exact some_of (int fun p q _ => mul_eq_low _ p q)
  case vmulh t _ _ _ _ _ => cases ho; exact some_of (int (g := fun p q => p * q / (2 ^ t.width : Nat)) fun p q _ => mulh_eq_low _ p q)
  case vand => cases ho; exact some_of (raw fun _ _ => rfl)
  case vor => cases ho; exact some_of (raw fun _ _ => rfl)
  case vxor => cases ho; exact some_of (raw fun _ _ => rfl)
  case vshl t _ _ _ _ _ => cases ho; exact some_of (raw (g := fun p q => p * 2 ^ (q % t.width)) fun p q => Nat.shiftLeft_eq p _)
  case vshr t _ _ _ _ _ => cases ho; exact some_of (raw (g := fun p q => p / 2 ^ (q % t.width)) fun p q => Nat.shiftRight_eq_div_pow p _)
  case vshra t _ _ _ _ _ =>
    cases ho; exact some_of (raw (g := fun p q => low t.width (signed t.width p / (2 ^ (q % t.width) : Nat))) fun _ _ => rfl)
  case vmin => cases ho; exact some_of (int (g := Min.min) fun p q _ => minMax_eq_low _ false p q)
  case vmax => cases ho; exact some_of (int (g := Max.max) fun p q _ => minMax_eq_low _ true p q)
  case vsadd t _ _ _ _ _ =>
    cases ho; exact some_of (int (g := fun p q => max t.minInt (min t.maxInt (p + q))) fun p q _ => clamp_eq_low t _)
  case vssub t _ _ _ _ _ =>
    cases ho; exact some_of (int (g := fun p q => max t.minInt (min t.maxInt (p - q))) fun p q _ => clamp_eq_low t _)
  case vfma => cases ho; exact some_of computes_fma
  case vfadd | vfsub | vfmul | vfdiv | vfmin | vfmax => cases ho; exact some_of (computes_fp2op fun _ _ _ => rfl)
  case vfsqrt | vfrsq | vfrcp | vfexp2 | vfclass => cases ho; exact some_of (computes_fp1op fun _ _ _ => rfl)
  case vsplat => cases ho; exact ⟨_, rfl, computes_quiet fun _ _ _ _ => rfl⟩
  case vidx => cases ho; exact ⟨_, rfl, computes_quiet fun _ _ _ _ => rfl⟩
  case vmerge t m d a b _ =>
    cases ho
    exact some_of computes_merge
  all_goals cases ho

/-! ## The run over the elements -/

/-- Register `r` and the flags `fl` as an element-wise instruction leaves them with its elements below `e` performed. -/
structure VecOp.Done (o : VecOp) (s : State) (e : Nat) (r : VecReg) (fl : Flags) : Prop where
  hwm : r.hwm = (s.v.vregs[o.d.toNat]).hwm
  poison : r.poison = (s.v.vregs[o.d.toNat]).poison
  performed : ∀ k, s.v.live o.mask k → k < e →
    r.img.extractLsb' (o.t.width * k) o.t.width = BitVec.ofNat o.t.width (payload o.t ((o.val k).bits % 2 ^ o.t.width))
  kept : ∀ k, ¬(s.v.live o.mask k ∧ k < e) →
    r.img.extractLsb' (o.t.width * k) o.t.width = (s.v.vregs[o.d.toNat]).img.extractLsb' (o.t.width * k) o.t.width
  flags : ∀ b, fl.getLsbD b = true ↔ ∃ k, s.v.live o.mask k ∧ k < e ∧ (o.val k).flags.getLsbD b = true

/-- Before its first element nothing is done. -/
theorem VecOp.done_start (o : VecOp) (s : State) : o.Done s s.v.vstart (s.v.vregs[o.d.toNat]) 0 where
  hwm := rfl
  poison := rfl
  performed := fun _ hk he => absurd hk.1 (by omega)
  kept := fun _ _ => rfl
  flags := fun b => by
    refine ⟨fun h => by simp at h, fun ⟨k, hk, he, _⟩ => absurd hk.1 (by omega)⟩

/-- An element that is not active changes nothing. -/
theorem VecOp.Done.skip {o : VecOp} {s : State} {e : Nat} {r : VecReg} {fl : Flags} (h : o.Done s e r fl) (he : ¬s.v.live o.mask e) :
    o.Done s (e + 1) r fl := by
  have hlt (k : Nat) : (s.v.live o.mask k ∧ k < e + 1) ↔ (s.v.live o.mask k ∧ k < e) :=
    ⟨fun ⟨hk, hlt⟩ => ⟨hk, by rcases Nat.lt_succ_iff_lt_or_eq.mp hlt with h | rfl; exacts [h, absurd hk he]⟩,
      fun ⟨hk, hlt⟩ => ⟨hk, by omega⟩⟩
  refine ⟨h.hwm, h.poison, fun k hk hke => h.performed k hk ((hlt k).1 ⟨hk, hke⟩).2, fun k hk => h.kept k (by rwa [hlt] at hk), fun b => ?_⟩
  rw [h.flags]
  refine exists_congr fun k => ?_
  rw [← and_assoc, ← and_assoc, hlt]

/-- An active element takes its value and raises its flags. -/
theorem VecOp.Done.step {o : VecOp} {s : State} {e x : Nat} {r : VecReg} {fl : Flags} (h : o.Done s e r fl) (he : s.v.live o.mask e)
    (hfit : o.t.width * (e + 1) ≤ 262144) (hx : payload o.t x % 2 ^ o.t.width = payload o.t ((o.val e).bits % 2 ^ o.t.width)) :
    o.Done s (e + 1) (r.put o.t.width e (payload o.t x)) (fl ||| (o.val e).flags) where
  hwm := h.hwm
  poison := h.poison
  performed := fun k hk hlt => by
    rw [VecReg.put_extract _ _ _ hfit]
    by_cases hke : k = e
    · subst hke
      rw [if_pos rfl, ← hx]
      exact BitVec.eq_of_toNat_eq (by simp)
    · rw [if_neg hke]
      exact h.performed k hk (by omega)
  kept := fun k hk => by
    rw [VecReg.put_extract _ _ _ hfit, if_neg (by rintro rfl; exact hk ⟨he, by omega⟩)]
    exact h.kept k fun ⟨hl, hlt⟩ => hk ⟨hl, by omega⟩
  flags := fun b => by
    rw [BitVec.getLsbD_or, Bool.or_eq_true, h.flags]
    constructor
    · rintro (⟨k, hk, hlt, hb⟩ | hb)
      · exact ⟨k, hk, by omega, hb⟩
      · exact ⟨e, he, by omega, hb⟩
    · rintro ⟨k, hk, hlt, hb⟩
      rcases Nat.lt_succ_iff_lt_or_eq.mp hlt with hlt | rfl
      · exact .inl ⟨k, hk, hlt, hb⟩
      · exact .inr hb

/-- The source elements of an element not yet performed read as they did at the start. -/
theorem VecOp.Done.reads {o : VecOp} {s : State} {e : Nat} {r : VecReg} {fl : Flags} (h : o.Done s e r fl)
    (hf : s.v.fits o.t.width e = true) {q : VReg} (hp : (s.v.vregs[q.toNat]).poison.getLsbD (o.t.width * e / 64) = false) :
    (s.filled o.d r fl).readElem o.t q e = .ok (s.v.element o.t q e) := by
  by_cases hq : q = o.d
  · subst hq
    have hr := s.filled_vreg_same o.d r fl
    rw [State.readElem_ok (s := s.filled o.d r fl) hf (by rw [hr, h.poison]; exact hp)]
    unfold Vlc.element
    rw [hr, h.kept e (by omega)]
  · have hr := s.filled_vreg_other r fl hq
    rw [State.readElem_ok (s := s.filled o.d r fl) hf (by rw [hr]; exact hp)]
    unfold Vlc.element
    rw [hr]

/-- The run over the elements of a member that writes what `o` says. -/
theorem VecOp.run {o : VecOp} {s : State} {g : State → Nat → Except Stop (Nat × State)} (hg : o.Computes s g) (hvl : s.v.vl ≤ 8192)
    (hfit : s.v.vl * o.t.width ≤ 64 * s.v.mvl64) (hmvl : s.v.mvl64 ≤ 4096) (hd : o.d.toNat < 8 * (s.v.declHeld.toNat + 1))
    (hp : ∀ k r, s.v.live o.mask k → r ∈ o.reads k → (s.v.vregs[r.toNat]).poison.getLsbD (o.t.width * k / 64) = false)
    (hfl : ∀ k, s.v.live o.mask k → s.v.fpc.en &&& (o.val k).flags = 0) :
    ∃ r fl, runElems ((Member.writes o.t o.mask o.d g).elem s) s s.v.vstart (s.v.vl - s.v.vstart) = (s.filled o.d r fl, none) ∧
      o.Done s (s.v.vstart + (s.v.vl - s.v.vstart)) r fl := by
  have hstep : ∀ e t, s.v.vstart ≤ e → e < s.v.vstart + (s.v.vl - s.v.vstart) → (∃ r fl, t = s.filled o.d r fl ∧ o.Done s e r fl) →
      ∃ u, (Member.writes o.t o.mask o.d g).elem s t e = .ok u ∧ ∃ r fl, u = s.filled o.d r fl ∧ o.Done s (e + 1) r fl := by
    rintro e t hlo he ⟨r, fl, rfl, hdone⟩
    have hfits : s.v.fits o.t.width e = true := Vlc.fits_below hfit (by omega)
    have hactive : (s.filled o.d r fl).v.active o.mask e = true ↔ s.v.live o.mask e := Vlc.active_iff (v := s.v) hvl
    by_cases hl : s.v.live o.mask e
    · obtain ⟨x, hx, hval⟩ := hg o.d r fl e (fun q hq => hdone.reads hfits (hp e q hl hq)) (hfl e hl)
      refine ⟨_, ?_, _, _, rfl, hdone.step hl ((of_decide_eq_true hfits).trans (by omega)) hval⟩
      refine (if_pos (hactive.2 hl)).trans ?_
      show ((g (s.filled o.d r fl) e).map fun y => y.2.writeElem o.t o.d e y.1).mapError (fun st => (e, st)) = _
      rw [hx, State.filled_raiseFlags]
      exact congrArg Except.ok (State.filled_writeElem _ _ _ hd hfits)
    · exact ⟨_, if_neg fun h => hl (hactive.1 h), r, fl, rfl, hdone.skip hl⟩
  obtain ⟨u, hu, r, fl, rfl, hdone⟩ := runElems_keeps ⟨_, _, (s.filled_self o.d).symm, o.done_start s⟩ hstep
  exact ⟨r, fl, hu, hdone⟩

theorem loneOk_of_vecOp {i : Instr} {s : State} {o : VecOp} (h : vecOp i s = some o) : loneOk i s := by
  unfold loneOk
  split
  case h_8 => trivial
  all_goals cases h

theorem vectorElementValues : Claim.VectorElementValues := by
  intro i s o ho hdec hs hvl hfit hmvl hd hp hfl
  obtain ⟨g, hm, hg⟩ := vecOp_computes ho
  have hok := loneOk_of_vecOp ho
  by_cases h0 : s.v.vl = 0
  · have hnone (k : Nat) : ¬s.v.live o.mask k := fun hk => absurd hk.2.1 (by omega)
    refine ⟨s.v.vregs[o.d.toNat], 0, ?_, fun k hk => absurd hk (hnone k), fun k _ => rfl, fun b => ?_, ?_⟩
    · rw [exec_lone_zero hm hdec hok hs nofun h0]
      exact congrArg (fun u : State => Host.Outcome.next (u.clearVstart.past i)) (s.filled_self o.d).symm
    · refine ⟨fun h => by simp at h, fun ⟨k, hk, _⟩ => absurd hk (hnone k)⟩
    · rw [if_pos h0]
  · obtain ⟨r, fl, hrun, hdone⟩ := VecOp.run hg hvl hfit hmvl hd hp hfl
    obtain ⟨r', hclose, himg, htag, hhwm⟩ : ∃ r' : VecReg,
        (Member.writes o.t o.mask o.d g).close (s.filled o.d r fl) s.v.vl true = s.filled o.d r' fl ∧ r'.img = r.img ∧
          r'.tag = BitVec.ofNat 2 o.t.wcode ∧ r'.hwm = max r.hwm (s.v.vl * o.t.width / 8) := by
      obtain ⟨htag, hhwm⟩ := VecReg.cover_marks (r := r) (t := o.t) (Nat.pos_of_ne_zero h0) hfit
      exact ⟨_, State.filled_cover r fl hd, by simp, by simpa using htag, by simpa using hhwm⟩
    have hlt {k : Nat} (hk : s.v.live o.mask k) : k < s.v.vstart + (s.v.vl - s.v.vstart) := by
      have := hk.2.1; omega
    have hexec := exec_lone_completes hm hdec hok hs nofun (Nat.pos_of_ne_zero h0) hrun (by rw [hclose]; exact hs)
    rw [hclose] at hexec
    refine ⟨r', fl, hexec, fun k hk => ?_, fun k hk => ?_, fun b => ?_, ?_⟩
    · rw [himg]; exact hdone.performed k hk (hlt hk)
    · rw [himg]; exact hdone.kept k fun h => hk h.1
    · rw [hdone.flags]
      exact exists_congr fun k => and_congr_right fun hk => ⟨fun h => h.2, fun h => ⟨hlt hk, h⟩⟩
    · rw [if_neg h0, htag, hhwm, hdone.hwm]
      exact ⟨rfl, rfl⟩

end Sys2Proof.Machine
end


section
/-! Compares and mask operations (R438, R414 to R416), for O24. -/

namespace Sys2Proof.Machine

/-! ## A mask register filled -/

/-- The state with `x` in mask register `d` and `fl` ORed into FPC.FLAGS. -/
def State.marked (s : State) (d : MReg) (x : BitVec 8192) (fl : Flags) : State :=
  s.setV fun v => { v with masks := v.masks.set d.toNat x, fpc := { v.fpc with flags := v.fpc.flags ||| fl } }

theorem State.marked_zero (s : State) (d : MReg) (x : BitVec 8192) :
    s.marked d x 0 = s.setV fun v => { v with masks := v.masks.set d.toNat x } := by
  have h : s.v.fpc.flags ||| 0 = s.v.fpc.flags := BitVec.or_zero
  refine State.setV_congr ?_
  simp only [h]

theorem State.marked_self (s : State) (d : MReg) : s.marked d s.v.masks[d.toNat] 0 = s := by
  have h1 : s.v.masks.set d.toNat s.v.masks[d.toNat] = s.v.masks := Vector.set_getElem_self _
  have h2 : s.v.fpc.flags ||| 0 = s.v.fpc.flags := BitVec.or_zero
  refine (State.setV_congr (g := id) ?_).trans rfl
  simp only [h1, h2, id_eq]

theorem State.marked_mask {s : State} {d : MReg} (x : BitVec 8192) (fl : Flags) (hd : d ≠ 0) : (s.marked d x fl).v.mask d = x :=
  (if_neg hd).trans (Vector.getElem_set_self _)

/-- A bit of another mask register, or one that `x` has as it was, reads as it did. -/
theorem State.marked_bit {s : State} {d : MReg} {x : BitVec 8192} {k : Nat} (fl : Flags) (e : MReg) (hk : k < 8192)
    (hx : x.getLsbD k = (s.v.masks[d.toNat]).getLsbD k) : ((s.marked d x fl).v.mask e).getLsbD k = s.v.bit e k := by
  rw [Vlc.mask_bit _ _ hk]
  unfold Vlc.bit
  by_cases he : e = d
  · subst he
    rw [show (s.marked e x fl).v.masks[e.toNat] = x from Vector.getElem_set_self _, hx]
  · rw [show (s.marked d x fl).v.masks[e.toNat] = s.v.masks[e.toNat] from
      Vector.getElem_set_ne d.isLt e.isLt fun h => he (BitVec.eq_of_toNat_eq h.symm)]

theorem State.marked_setMask {s : State} {d : MReg} (x y : BitVec 8192) (fl : Flags) (hd : d ≠ 0) (hb : s.v.bad = []) :
    (s.marked d x fl).setV (·.setMask d y) = s.marked d y fl := by
  refine (State.setV_congr (g := fun _ => (s.marked d y fl).v) ?_).trans rfl
  refine (if_neg hd).trans ?_
  simp only [State.marked, State.setV_v, Vector.set_set, hb, List.filter_nil]

theorem State.marked_raiseFlags (s : State) (d : MReg) (x : BitVec 8192) (fl f : Flags) :
    (s.marked d x fl).raiseFlags f = s.marked d x (fl ||| f) := by
  unfold State.raiseFlags
  by_cases h : f = 0
  · rw [if_pos h, h]
    exact congrArg (s.marked d x) BitVec.or_zero.symm
  · rw [if_neg h]
    simp only [State.marked, State.setV, BitVec.or_assoc]

/-! ## Bits of a mask -/

/-- Bit `k` of a mask as `b`. -/
def withBit (x : BitVec 8192) (k : Nat) (b : Bool) : BitVec 8192 := if b then x ||| 1#8192 <<< k else x &&& ~~~(1#8192 <<< k)

theorem getLsbD_one_shiftLeft (k j : Nat) (hj : j < 8192) : (1#8192 <<< k).getLsbD j = decide (j = k) := by
  rw [BitVec.getLsbD_shiftLeft]
  by_cases h : j < k
  · simp [h]; omega
  · rw [BitVec.getLsbD_one]
    simp only [hj, h, decide_true, decide_false, Bool.not_false, Bool.true_and]
    exact decide_eq_decide.mpr (by omega)

theorem withBit_getLsbD (x : BitVec 8192) (k : Nat) (b : Bool) {j : Nat} (hj : j < 8192) :
    (withBit x k b).getLsbD j = if j = k then b else x.getLsbD j := by
  unfold withBit
  cases b
  · simp only [Bool.false_eq_true, if_false, BitVec.getLsbD_and, BitVec.getLsbD_not, getLsbD_one_shiftLeft k j hj, hj, decide_true]
    by_cases h : j = k <;> simp [h]
  · simp only [if_true, BitVec.getLsbD_or, getLsbD_one_shiftLeft k j hj]
    by_cases h : j = k <;> simp [h]

/-- The bits below `n` and no others. -/
theorem getLsbD_below {n : Nat} (hn : n ≤ 8192) (j : Nat) : (BitVec.ofNat 8192 (2 ^ n - 1)).getLsbD j = decide (j < n) := by
  rw [BitVec.getLsbD_ofNat, Nat.testBit_two_pow_sub_one]
  by_cases h : j < n
  · simp [h, show j < 8192 by omega]
  · simp [h]

/-! ## One element -/

/-- What `g` computes for element `k` of a mask member is what `o` says, when its destination is being filled but the bits of `k` of
every mask are still as they were in `s`, and its sources are not poisoned. -/
def MaskOp.Computes (o : MaskOp) (s : State) (g : State → Nat → Except Stop (Bool × State)) : Prop :=
  ∀ (x : BitVec 8192) (fl : Flags) (k : Nat), (∀ e, ((s.marked o.d x fl).v.mask e).getLsbD k = s.v.bit e k) →
    (∀ r ∈ o.reads, s.readElem o.t r k = .ok (s.v.element o.t r k)) → s.v.fpc.en &&& (o.val k).2 = 0 →
    g (s.marked o.d x fl) k = .ok ((o.val k).1, (s.marked o.d x fl).raiseFlags (o.val k).2)

/-- The compares and mask operations are members that write their destination's bits as their tables say. -/
theorem maskOp_computes {i : Instr} {s : State} {o : MaskOp} (ho : maskOp i s = some o) :
    ∃ g, loneMember i = some (Member.maskBits o.d g) ∧ o.Computes s g := by
  cases i
  case vcmp t p d a b c =>
    cases ho
    refine ⟨_, rfl, fun x fl k _ hread hfl => ?_⟩
    have ha : (s.marked d x fl).readElem t a k = .ok (s.v.element t a k) := hread a (by simp)
    have hb : (s.marked d x fl).readElem t b k = .ok (s.v.element t b k) := hread b (by simp)
    have hftz : (s.marked d x fl).ftzFor t = (s.v.fpc.ftz && (t == .f32 || t == .f16)) := rfl
    simp only [ha, hb, hftz, bind, Except.bind]
    cases ht : t.isI
    · simp only [ht, Bool.false_eq_true, if_false] at hfl
      simp only [State.flagged_ok (s := s.marked d x fl) hfl, Bool.false_eq_true, if_false]
    · simp only [if_true, State.raiseFlags_zero]
      cases p <;> simp [VType.compare, bne, beq_eq_decide]
  case mlog p d a b c =>
    cases ho
    refine ⟨_, rfl, fun x fl k hbit _ _ => ?_⟩
    simp only [hbit, State.raiseFlags_zero]
    cases p
    case xnor => cases s.v.bit a k <;> cases s.v.bit b k <;> rfl
    all_goals simp [logBit]
  all_goals cases ho

/-! ## The run over the elements -/

/-- Mask `x` and the flags `fl` as a mask member leaves them with its elements below `e` performed. -/
structure MaskOp.Done (o : MaskOp) (s : State) (e : Nat) (x : BitVec 8192) (fl : Flags) : Prop where
  bits : ∀ k, k < 8192 → x.getLsbD k = if s.v.vstart ≤ k ∧ k < e then (o.val k).1 else (s.v.masks[o.d.toNat]).getLsbD k
  flags : ∀ b, fl.getLsbD b = true ↔ ∃ k, s.v.vstart ≤ k ∧ k < e ∧ (o.val k).2.getLsbD b = true

theorem MaskOp.done_start (o : MaskOp) (s : State) : o.Done s s.v.vstart s.v.masks[o.d.toNat] 0 where
  bits := fun k _ => by rw [if_neg (by omega)]
  flags := fun b => ⟨fun h => by simp at h, fun ⟨k, hk, he, _⟩ => absurd hk (by omega)⟩

theorem MaskOp.Done.step {o : MaskOp} {s : State} {e : Nat} {x : BitVec 8192} {fl : Flags} (h : o.Done s e x fl) (hlo : s.v.vstart ≤ e) :
    o.Done s (e + 1) (withBit x e (o.val e).1) (fl ||| (o.val e).2) where
  bits := fun k hk => by
    rw [withBit_getLsbD _ _ _ hk]
    by_cases hke : k = e
    · subst hke
      rw [if_pos rfl, if_pos ⟨hlo, by omega⟩]
    · rw [if_neg hke, h.bits k hk]
      exact if_congr (and_congr_right fun _ => by omega) rfl rfl
  flags := fun b => by
    rw [BitVec.getLsbD_or, Bool.or_eq_true, h.flags]
    constructor
    · rintro (⟨k, hk, hlt, hb⟩ | hb)
      · exact ⟨k, hk, by omega, hb⟩
      · exact ⟨e, hlo, by omega, hb⟩
    · rintro ⟨k, hk, hlt, hb⟩
      rcases Nat.lt_succ_iff_lt_or_eq.mp hlt with hlt | rfl
      · exact .inl ⟨k, hk, hlt, hb⟩
      · exact .inr hb

/-- Every element from VSTART.ELEM to VL − 1 is one of a member without a mask. -/
theorem allActive_of_range {v : Vlc} {k : Nat} (h : v.vl ≤ 8192) (hlo : v.vstart ≤ k) (hk : k < v.vl) : allActive v k = true :=
  (Vlc.active_iff h).2 ⟨hlo, hk, .inl rfl⟩

/-- The run over the elements of a member that writes the bits that `o` says. -/
theorem MaskOp.run {o : MaskOp} {s : State} {g : State → Nat → Except Stop (Bool × State)} (hg : o.Computes s g) (hd : o.d ≠ 0)
    (hb : s.v.bad = []) (hvl : s.v.vl ≤ 8192) (hfit : s.v.vl * o.t.width ≤ 64 * s.v.mvl64)
    (hp : ∀ r ∈ o.reads, (s.v.vregs[r.toNat]).poison = 0)
    (hfl : ∀ k, s.v.vstart ≤ k → k < s.v.vl → s.v.fpc.en &&& (o.val k).2 = 0) :
    ∃ x fl, runElems ((Member.maskBits o.d g).elem s) s s.v.vstart (s.v.vl - s.v.vstart) = (s.marked o.d x fl, none) ∧
      o.Done s (s.v.vstart + (s.v.vl - s.v.vstart)) x fl := by
  have hstep : ∀ e t, s.v.vstart ≤ e → e < s.v.vstart + (s.v.vl - s.v.vstart) → (∃ x fl, t = s.marked o.d x fl ∧ o.Done s e x fl) →
      ∃ u, (Member.maskBits o.d g).elem s t e = .ok u ∧ ∃ x fl, u = s.marked o.d x fl ∧ o.Done s (e + 1) x fl := by
    rintro e t hlo he ⟨x, fl, rfl, hdone⟩
    have hlt : e < s.v.vl := by omega
    have hread : ∀ r ∈ o.reads, s.readElem o.t r e = .ok (s.v.element o.t r e) := fun r hr =>
      State.readElem_ok (Vlc.fits_below hfit hlt) (by rw [hp r hr]; exact BitVec.getLsbD_zero)
    have hbit (m : MReg) : ((s.marked o.d x fl).v.mask m).getLsbD e = s.v.bit m e :=
      State.marked_bit fl m (by omega) ((hdone.bits e (by omega)).trans (if_neg (by omega)))
    have hactive : allActive (s.marked o.d x fl).v e = true :=
      allActive_of_range (v := (s.marked o.d x fl).v) hvl hlo hlt
    refine ⟨_, ?_, _, _, rfl, hdone.step hlo⟩
    refine (if_pos hactive).trans ?_
    show ((g (s.marked o.d x fl) e).map fun y => y.2.setV (·.setMaskBit o.d e y.1)).mapError (fun st => (e, st)) = _
    rw [hg x fl e hbit hread (hfl e hlo hlt), State.marked_raiseFlags]
    refine congrArg Except.ok ((State.setV_congr ?_).trans (State.marked_setMask _ _ _ hd hb))
    simp only [Vlc.setMaskBit, State.marked_mask _ _ hd, withBit]
  obtain ⟨u, hu, x, fl, rfl, hdone⟩ := runElems_keeps ⟨_, _, (s.marked_self o.d).symm, o.done_start s⟩ hstep
  exact ⟨x, fl, hu, hdone⟩

theorem loneOk_of_maskOp {i : Instr} {s : State} {o : MaskOp} (h : maskOp i s = some o) : loneOk i s := by
  unfold loneOk
  split
  case h_8 => trivial
  all_goals cases h

/-- The destination of a mask operation is no m0. -/
theorem maskOp_dest {i : Instr} {s : State} {o : MaskOp} (h : maskOp i s = some o) (hw : i.wf = true) : o.d ≠ 0 := by
  cases i
  case vcmp => cases h; simp [Instr.wf] at hw; exact hw.1.2
  case mlog => cases h; simp [Instr.wf] at hw; exact hw.1.1
  all_goals cases h

theorem maskResults : Claim.MaskResults := by
  intro i s o ho hw hdec hs hvl hfit hmvl h0 hp hfl
  obtain ⟨g, hm, hg⟩ := maskOp_computes ho
  have hd := maskOp_dest ho hw
  have hb : s.v.bad = [] := ((State.smooth_iff s).1 hs).2.2.2.2.2.1
  obtain ⟨x, fl, hrun, hdone⟩ := MaskOp.run hg hd hb hvl hfit hp hfl
  have hclose : (Member.maskBits o.d g).close (s.marked o.d x fl) s.v.vl true =
      s.marked o.d (x &&& BitVec.ofNat 8192 (2 ^ s.v.vl - 1)) fl := by
    show (s.marked o.d x fl).setV (·.trimMask o.d) = _
    refine (State.setV_congr ?_).trans (State.marked_setMask x _ fl hd hb)
    simp only [Vlc.trimMask, State.marked_mask _ _ hd]
    rfl
  have hexec := exec_lone_completes hm hdec (loneOk_of_maskOp ho) hs nofun h0 hrun (by rw [hclose]; exact hs)
  rw [hclose] at hexec
  refine ⟨_, fl, hexec, fun k => ?_, fun b => ?_⟩
  · rw [BitVec.getLsbD_and, getLsbD_below hvl]
    by_cases hk : s.v.vl ≤ k
    · simp [hk]
    · rw [if_neg hk, hdone.bits k (by omega), decide_eq_true (by omega), Bool.and_true]
      by_cases hlo : k < s.v.vstart
      · rw [if_pos hlo, if_neg (by omega)]
      · rw [if_neg hlo, if_pos (by omega)]
  · rw [hdone.flags]
    refine exists_congr fun k => ⟨fun ⟨hlo, hlt, h⟩ => ⟨hlo, by omega, h⟩, fun ⟨hlo, hlt, h⟩ => ⟨hlo, by omega, h⟩⟩

/-! ## Counts and searches -/

/-- The bits set among the lowest `n`. -/
theorem ones_eq_length (n x : Nat) : ones n x = ((List.range n).filter fun k => x.testBit k).length := by
  induction n generalizing x with
  | zero => rfl
  | succ n ih =>
    rw [ones, ih, List.range_succ_eq_map, List.filter_cons, List.filter_map]
    have hsucc : ((fun k => x.testBit k) ∘ Nat.succ) = fun k => (x / 2).testBit k := by
      funext k
      exact Nat.testBit_succ x k
    rw [hsucc, Nat.testBit_zero]
    obtain h | h := Nat.mod_two_eq_zero_or_one x
    · simp [h]
    · simp [h]; omega

/-- The lowest bit set of `n` from `i` up, or the end where there is none. -/
theorem firstSet_eq_headD (x i n : Nat) : firstSet x i n = ((List.range' i n).filter fun k => x.testBit k).headD (i + n) := by
  induction n generalizing i with
  | zero => rfl
  | succ n ih =>
    rw [firstSet, List.range'_succ, List.filter_cons]
    split
    · rfl
    · rw [ih, show i + 1 + n = i + (n + 1) by omega]

/-- The elements below VL whose bit a mask register sets. -/
def Vlc.setBits (v : Vlc) (m : MReg) : List Nat := (List.range v.vl).filter fun k => (v.masks[m.toNat]).getLsbD k

theorem Vlc.setBits_eq (v : Vlc) {m : MReg} (hm : m ≠ 0) :
    ((List.range v.vl).filter fun k => (v.maskBelow m).testBit k) = v.setBits m := by
  refine List.filter_congr fun k hk => ?_
  rw [Vlc.maskBelow, Nat.testBit_mod_two_pow, decide_eq_true (List.mem_range.mp hk), Bool.true_and, BitVec.testBit_toNat, Vlc.mask,
    if_neg hm]

theorem Vlc.firstSet_eq (v : Vlc) {m : MReg} (hm : m ≠ 0) : firstSet (v.maskBelow m) 0 v.vl = (v.setBits m).headD v.vl := by
  rw [firstSet_eq_headD, ← List.range_eq_range', Vlc.setBits_eq v hm, Nat.zero_add]

theorem Vlc.headD_setBits_le (v : Vlc) (m : MReg) : (v.setBits m).headD v.vl ≤ v.vl := by
  cases h : v.setBits m with
  | nil => exact le_rfl
  | cons k l =>
    have hk : k ∈ v.setBits m := h ▸ List.mem_cons_self
    exact (List.mem_range.mp (List.mem_of_mem_filter hk)).le

/-- A whole-vector instruction that runs whatever VSTART.ELEM holds, and does not stop. -/
theorem whole_completes {i : Instr} {s s1 : State} {left : State → State} {f : State → Except Stop State} (hd : decodeStop i s = none)
    (h0 : 0 < s.v.vl) (hf : f (s.startAt 0) = .ok s1) (hs : s1.smooth = true) :
    wholeAlone i s true left f = .next (s1.clearVstart.past i) := by
  unfold wholeAlone
  rw [checked_none hd, if_neg (by omega), if_neg (by simp)]
  have hf' : f (s.setV fun v => { v with vstart := 0 }) = .ok s1 := hf
  simp only [hf']
  exact congrArg Host.Outcome.next (State.finish_smooth (s := s1.clearVstart) i hs)

/-- VSTART cleared before or after a scalar write. -/
theorem State.clearVstart_wr (s : State) (d : SReg) (x : Word) : ((s.startAt 0).wr d x).clearVstart = s.clearVstart.wr d x := by
  by_cases hd : d = 0
  · rw [hd, State.wr_zero, State.wr_zero]; rfl
  · have set (t : State) : t.wr d x = t.setV fun v => { v with sregs := v.sregs.set d.toNat x, bad := v.bad.filter (· != .scalar d) } :=
      State.setV_congr (if_neg hd)
    rw [set, set]
    rfl

/-- The lowest set element below VL as a word, or −1, by the elements that are set. -/
theorem Vlc.lowest_setBits (v : Vlc) (m : MReg) :
    (if (v.setBits m).headD v.vl < v.vl then BitVec.ofNat 64 ((v.setBits m).headD v.vl) else BitVec.allOnes 64) =
      match v.setBits m with
      | [] => (-1 : Word)
      | k :: _ => BitVec.ofNat 64 k := by
  cases h : v.setBits m with
  | nil => exact if_neg (Nat.lt_irrefl v.vl)
  | cons k l =>
    have hk : k ∈ v.setBits m := h ▸ List.mem_cons_self
    exact if_pos (List.mem_range.mp (List.mem_of_mem_filter hk))

theorem mpopc_counts {s : State} {d : SReg} {a : MReg} (hs : s.smooth = true) (h0 : 0 < s.v.vl) (ha : a ≠ 0) :
    exec (.mpopc d a) s = .next ((s.clearVstart.wr d (BitVec.ofNat 64 (s.v.setBits a).length)).past (.mpopc d a)) := by
  have hexec : exec (.mpopc d a) s = wholeAlone (.mpopc d a) s true id fun t =>
      .ok (t.wr d (BitVec.ofNat 64 (ones t.v.vl (t.v.maskBelow a)))) := rfl
  have hset : (s.startAt 0).v.setBits a = s.v.setBits a := rfl
  have hs0 : (s.startAt 0).smooth = true := hs
  rw [hexec, whole_completes (decodeStop_ok rfl rfl rfl rfl rfl rfl rfl rfl hs) h0
    (by rw [ones_eq_length, Vlc.setBits_eq _ ha, hset]) (State.smooth_wr d _ hs0), State.clearVstart_wr]

theorem mfirst_searches {s : State} {d : SReg} {a : MReg} (hs : s.smooth = true) (h0 : 0 < s.v.vl) (ha : a ≠ 0) :
    exec (.mfirst d a) s = .next ((s.clearVstart.wr d (match s.v.setBits a with
      | [] => -1
      | k :: _ => BitVec.ofNat 64 k)).past (.mfirst d a)) := by
  have hexec : exec (.mfirst d a) s = wholeAlone (.mfirst d a) s true id fun t =>
      .ok (t.wr d (if firstSet (t.v.maskBelow a) 0 t.v.vl < t.v.vl then BitVec.ofNat 64 (firstSet (t.v.maskBelow a) 0 t.v.vl)
        else BitVec.allOnes 64)) := rfl
  have hset : (s.startAt 0).v.setBits a = s.v.setBits a := rfl
  have hs0 : (s.startAt 0).smooth = true := hs
  rw [hexec, whole_completes (decodeStop_ok rfl rfl rfl rfl rfl rfl rfl rfl hs) h0
    (by rw [Vlc.firstSet_eq _ ha, Vlc.lowest_setBits, hset]) (State.smooth_wr d _ hs0), State.clearVstart_wr]

theorem msbf_sets {s : State} {a e : MReg} (hs : s.smooth = true) (h0 : 0 < s.v.vl) (ha : a ≠ 0) (he : e ≠ 0) :
    exec (.msbf e a) s = .next ((s.clearVstart.marked e (BitVec.ofNat 8192 (2 ^ (s.v.setBits a).headD s.v.vl - 1)) 0).past
      (.msbf e a)) := by
  have hexec : exec (.msbf e a) s = wholeAlone (.msbf e a) s true id fun t =>
      .ok (t.setV (·.setMask e (BitVec.ofNat 8192 (2 ^ firstSet (t.v.maskBelow a) 0 t.v.vl - 1)))) := rfl
  have hb : s.v.bad = [] := ((State.smooth_iff s).1 hs).2.2.2.2.2.1
  have hset : (s.startAt 0).v.setBits a = s.v.setBits a := rfl
  have hsm : ((s.startAt 0).marked e (BitVec.ofNat 8192 (2 ^ (s.v.setBits a).headD (s.startAt 0).v.vl - 1)) 0).smooth = true := hs
  have hmark (x : BitVec 8192) : (s.startAt 0).setV (·.setMask e x) = (s.startAt 0).marked e x 0 := by
    conv_lhs => rw [← (s.startAt 0).marked_self e]
    exact State.marked_setMask _ x 0 he hb
  rw [hexec, whole_completes (decodeStop_ok rfl rfl rfl rfl rfl rfl rfl rfl hs) h0
    (by rw [Vlc.firstSet_eq _ ha, hset, hmark]) hsm]
  rfl

theorem maskCounts : Claim.MaskCounts := by
  intro s d a e hs h0 hvl ha he
  have hle := s.v.headD_setBits_le a
  refine ⟨mpopc_counts hs h0 ha, ?_, BitVec.ofNat 8192 (2 ^ (s.v.setBits a).headD s.v.vl - 1), ?_,
    fun k => getLsbD_below (by omega) k⟩
  · rw [mfirst_searches hs h0 ha]
    rfl
  · rw [msbf_sets hs h0 ha he, State.marked_zero]
    rfl

/-- Settles O24: the compares and mask operations element by element, and the counts and searches over the elements set. -/
theorem masksAreComputed : Obligations.MasksAreComputed :=
  ⟨maskResults, maskCounts⟩

end Sys2Proof.Machine
end


section
/-! Conversions of vector elements (R443), for O23. -/

namespace Sys2Proof.Machine

/-! ## What a conversion may change -/

/-- `t` is `s` but for the vector registers of `ds`, FPC.FLAGS and SRSEED, and no register has become poisoned. -/
structure State.Fills (s : State) (ds : VReg → Prop) (t : State) : Prop where
  rest : ∃ regs fl seed, t = s.setV fun v => { v with vregs := regs, fpc := { v.fpc with flags := fl }, srseed := seed }
  clean : ∀ r : VReg, (s.v.vregs[r.toNat]).poison = 0 → (t.v.vregs[r.toNat]).poison = 0
  kept : ∀ r : VReg, ¬ds r → t.v.vregs[r.toNat] = s.v.vregs[r.toNat]

theorem State.fills_self (s : State) (ds : VReg → Prop) : s.Fills ds s where
  rest := ⟨_, _, _, rfl⟩
  clean := fun _ h => h
  kept := fun _ _ => rfl

section
variable {s t : State} {ds : VReg → Prop}

theorem State.Fills.raiseFlags (h : s.Fills ds t) (f : Flags) : s.Fills ds (t.raiseFlags f) := by
  unfold State.raiseFlags
  split
  · exact h
  · obtain ⟨⟨regs, fl, seed, rfl⟩, hclean, hkept⟩ := h
    exact ⟨⟨regs, _, seed, rfl⟩, hclean, hkept⟩

theorem State.Fills.drawn (h : s.Fills ds t) (p : Conv) : s.Fills ds (t.drawn p) := by
  unfold State.drawn
  split
  · obtain ⟨⟨regs, fl, seed, rfl⟩, hclean, hkept⟩ := h
    exact ⟨⟨regs, fl, _, rfl⟩, hclean, hkept⟩
  · exact h

/-- A register of `ds` written, and not with poison of its own. -/
theorem State.Fills.setVreg (h : s.Fills ds t) {d : VReg} {x : VecReg} (hd : ds d)
    (hx : (t.v.vregs[d.toNat]).poison = 0 → x.poison = 0) : s.Fills ds (t.setV (·.setVreg d x)) := by
  by_cases hheld : 8 * (t.v.declHeld.toNat + 1) ≤ d.toNat
  · have hsame : t.v.setVreg d x = t.v := if_pos hheld
    rwa [show t.setV (·.setVreg d x) = t from (State.setV_congr (g := id) hsame).trans rfl]
  rw [show t.setV (·.setVreg d x) = t.setV fun v => { v with vregs := v.vregs.set d.toNat x } from State.setV_congr (if_neg hheld)]
  obtain ⟨⟨regs, fl, seed, rfl⟩, hclean, hkept⟩ := h
  refine ⟨⟨_, fl, seed, rfl⟩, fun r hr => ?_, fun r hr => ?_⟩
  · by_cases hrd : r = d
    · subst hrd
      exact (congrArg VecReg.poison (Vector.getElem_set_self _)).trans (hx (hclean r hr))
    · exact (congrArg VecReg.poison
        (Vector.getElem_set_ne d.isLt r.isLt fun e => hrd (BitVec.eq_of_toNat_eq e.symm))).trans (hclean r hr)
  · exact (Vector.getElem_set_ne d.isLt r.isLt fun e => hr (BitVec.eq_of_toNat_eq e ▸ hd)).trans (hkept r hr)

theorem State.Fills.writeElem (h : s.Fills ds t) {d : VReg} (hd : ds d) (u : VType) (k x : Nat) :
    s.Fills ds (t.writeElem u d k x) := by
  unfold State.writeElem
  split
  · exact h.setVreg (x := (t.v.vreg d).put u.width k (payload u x)) hd fun hp => hp
  · exact h

theorem State.Fills.cover (h : s.Fills ds t) {d : VReg} (hd : ds d) (u : VType) (e : Nat) (act : Nat → Bool) :
    s.Fills ds (t.cover u d e act) := by
  refine h.setVreg (x := ((t.v.vreg d).cover u e t.v.mvl64).heal u.width act e) hd fun hp => ?_
  have hc : ((t.v.vreg d).cover u e t.v.mvl64).poison = 0 := by
    unfold VecReg.cover
    split
    · exact hp
    · exact hp
  rw [VecReg.heal, if_pos hc]
  exact hc

/-- Where no flag is enabled, an element's flags are raised. -/
theorem State.Fills.flagged (h : s.Fills ds t) (hen : s.v.fpc.en = 0) (p : Conv) (f : Flags) :
    (t.drawn p).flagged f = .ok ((t.drawn p).raiseFlags f) := by
  obtain ⟨regs, fl, seed, ht⟩ := (h.drawn p).rest
  have h0 : (t.drawn p).v.fpc.en = 0 := by rw [ht]; exact hen
  exact State.flagged_ok (by rw [h0]; exact BitVec.zero_and)

end

/-! ## Values read -/

/-- The registers of an operand that a conversion reads are not poisoned. -/
def State.readable (s : State) (u : VType) (a : VReg) : Prop :=
  (s.v.vregs[a.toNat]).poison = 0 ∧ (u.isX = true → (s.v.vregs[(companion a).toNat]).poison = 0)

theorem State.Fills.readable {s t : State} {ds : VReg → Prop} {u : VType} {a : VReg} (h : s.Fills ds t) (hr : s.readable u a) :
    t.readable u a :=
  ⟨h.clean _ hr.1, fun hu => h.clean _ (hr.2 hu)⟩

/-- A field of a register that is not poisoned is read, in the register or past its end. -/
theorem State.readRaw_clean {s : State} {q : VReg} (w k : Nat) (hp : (s.v.vregs[q.toNat]).poison = 0) : ∃ x, s.readRaw w q k = .ok x := by
  unfold State.readRaw
  split
  · exact ⟨_, rfl⟩
  · rw [show (s.v.vreg q).poison = 0#4096 from hp, BitVec.getLsbD_zero]
    exact ⟨_, rfl⟩

theorem State.readElem_clean {s : State} {q : VReg} (u : VType) (k : Nat) (hp : (s.v.vregs[q.toNat]).poison = 0) :
    ∃ x, s.readElem u q k = .ok x := by
  obtain ⟨x, hx⟩ := State.readRaw_clean u.width k hp
  exact ⟨_, by rw [State.readElem, hx]; rfl⟩

/-- The value of an element that is read; of its encoding alone where its type is not block-scaled. -/
theorem State.readValue_ok {s : State} {u : VType} {a : VReg} (k : Nat) (h : s.readable u a) :
    ∃ y, s.readValue u a k = .ok y ∧ (u.notX = true → ∀ x, s.readElem u a k = .ok x → y = u.value x) := by
  obtain ⟨ha, hc⟩ := h
  obtain ⟨x, hx⟩ := State.readElem_clean u k ha
  unfold State.readValue
  cases hu : u.isX
  · refine ⟨u.value x, by rw [hx]; rfl, fun _ z hz => ?_⟩
    rw [hx] at hz
    cases hz
    rfl
  · obtain ⟨e, he⟩ := State.readRaw_clean (s := s) 8 (k / 128) (hc hu)
    refine ⟨(u.value x).scaled e, by rw [hx, he]; rfl, fun hn => ?_⟩
    simp [VType.notX, hu] at hn

/-! ## One element, not block-scaled -/

/-- The mode of R128 that a conversion's field names. -/
def namesMode (p : Conv) (f : Fpc) (mode : RMode) : Prop :=
  (p = .rne ∧ mode = .rne) ∨ (p = .rtz ∧ mode = .rtz) ∨ (p = .rup ∧ mode = .rup) ∨ (p = .rdn ∧ mode = .rdn) ∨
    ((p = .fpc ∨ p = .sat) ∧ mode = RMode.ofRm f.rm)

theorem namesMode_mode {p : Conv} {f : Fpc} {mode : RMode} (h : namesMode p f mode) (seed : Word) :
    convMode p f seed = .mode mode ∧ (p == .srSat) = false := by
  rcases h with ⟨rfl, rfl⟩ | ⟨rfl, rfl⟩ | ⟨rfl, rfl⟩ | ⟨rfl, rfl⟩ | ⟨rfl | rfl, rfl⟩ <;> exact ⟨rfl, rfl⟩

/-- An element that is read is converted; under a mode that its field names, as its encoding is. -/
theorem cvtElem_ok {s0 s t : State} {ds : VReg → Prop} {ty u : VType} {p : Conv} {a : VReg} (h : s.Fills ds t) (hen : s.v.fpc.en = 0)
    (k : Nat) (hr : s0.readable u a) :
    ∃ r : Res, cvtElem s0 ty p u a t k = .ok (r.bits, (t.drawn p).raiseFlags r.flags) ∧
      ∀ mode, namesMode p s.v.fpc mode → u.notX = true → ∀ x, s0.readElem u a k = .ok x → r = cvt ty u (.mode mode) (p == .sat) x := by
  have hmode (mode : RMode) (hn : namesMode p s.v.fpc mode) : convMode p t.v.fpc t.v.srseed = .mode mode ∧ (p == .srSat) = false := by
    obtain ⟨regs, fl, seed, rfl⟩ := h.rest
    exact namesMode_mode (f := { s.v.fpc with flags := fl }) hn seed
  unfold cvtElem
  by_cases hi : (ty.isI && u.isI) = true
  · obtain ⟨x, hx⟩ := State.readElem_clean (s := s0) u k hr.1
    refine ⟨cvt ty u (convMode p t.v.fpc t.v.srseed) false x, ?_, fun mode _ _ y hy => ?_⟩
    · simp only [hi, hx, if_true, bind, Except.bind, Except.map, h.flagged hen]
    · rw [hx] at hy
      cases hy
      simp only [cvt, hi, if_true]
  · obtain ⟨y, hy, hval⟩ := State.readValue_ok (s := s0) k hr
    refine ⟨cvtTo ty (convMode p t.v.fpc t.v.srseed) (p == .sat || p == .srSat) y, ?_, fun mode hn hu x hx => ?_⟩
    · simp only [hi, hy, bind, Except.bind, Except.map, h.flagged hen]
      rfl
    · obtain ⟨hc, hs⟩ := hmode mode hn
      rw [hval hu x hx, hc, hs, Bool.or_false]
      simp only [cvt, hi]
      rfl

/-! ## The run over the elements, not block-scaled -/

theorem payload_payload (t : VType) (x : Nat) : payload t (payload t x) = payload t x := by
  unfold payload
  split
  · exact Nat.mod_mod x 16
  · rfl

/-- An element written reads, in its type, as the low bits of its value, and every other element as it did. -/
theorem State.element_writeElem {s : State} {t : VType} {d : VReg} {i : Nat} (x k : Nat) (hd : d.toNat < 8 * (s.v.declHeld.toNat + 1))
    (hi : s.v.fits t.width i = true) (hk : t.width * (k + 1) ≤ 262144) :
    (s.writeElem t d i x).v.element t d k = if k = i then payload t (x % 2 ^ t.width) else s.v.element t d k := by
  rw [Vlc.element_eq, Vlc.element_eq]
  refine (congrArg (payload t) (State.elem_writeElem s t d i x k hd hi hk)).trans ?_
  split
  · rw [payload_mod, payload_payload]
  · rfl

theorem State.raiseFlags_vregs (s : State) (f : Flags) : (s.raiseFlags f).v.vregs = s.v.vregs := by
  unfold State.raiseFlags
  split <;> rfl

theorem State.drawn_vregs (s : State) (p : Conv) : (s.drawn p).v.vregs = s.v.vregs := by
  unfold State.drawn
  split <;> rfl

/-- The elements of `w` from VSTART.ELEM to below `e` hold the conversions of those of `s`, where the field names a mode. -/
def State.Converted (s : State) (t u : VType) (p : Conv) (d a : VReg) (e : Nat) (w : State) : Prop :=
  ∀ mode, namesMode p s.v.fpc mode → u.notX = true → ∀ k, s.v.vstart ≤ k → k < e →
    w.v.element t d k = payload t ((cvt t u (.mode mode) (p == .sat) (s.v.element u a k)).bits % 2 ^ t.width)

/-- A conversion to a type that is not block-scaled performs its elements. -/
theorem memCvt_run {s : State} {t u : VType} {p : Conv} {d a : VReg} (hvl : s.v.vl ≤ 8192) (ht : s.v.vl * t.width ≤ 64 * s.v.mvl64)
    (hu : s.v.vl * u.width ≤ 64 * s.v.mvl64) (hmvl : s.v.mvl64 ≤ 4096) (hd : d.toNat < 8 * (s.v.declHeld.toNat + 1))
    (hen : s.v.fpc.en = 0) (hr : s.readable u a) {ds : VReg → Prop} (hds : ds d) :
    ∃ w, runElems ((memCvt t p u d a).elem s) s s.v.vstart (s.v.vl - s.v.vstart) = (w, none) ∧ s.Fills ds w ∧
      s.Converted t u p d a (s.v.vstart + (s.v.vl - s.v.vstart)) w := by
  refine runElems_keeps (P := fun e w => s.Fills ds w ∧ s.Converted t u p d a e w)
    ⟨s.fills_self ds, fun _ _ _ k hlo hk => absurd hlo (by omega)⟩ ?_
  rintro e w hlo he ⟨hfills, hconv⟩
  have hlt : e < s.v.vl := by omega
  obtain ⟨r, hcvt, hval⟩ := cvtElem_ok (ty := t) (p := p) hfills hen e hr
  have hread : s.readElem u a e = .ok (s.v.element u a e) :=
    State.readElem_ok (Vlc.fits_below hu hlt) (by rw [hr.1]; exact BitVec.getLsbD_zero)
  have hdone : s.Fills ds ((w.drawn p).raiseFlags r.flags) := (hfills.drawn p).raiseFlags r.flags
  have hregs : ((w.drawn p).raiseFlags r.flags).v.vregs = w.v.vregs := by rw [State.raiseFlags_vregs, State.drawn_vregs]
  have hactive : allActive w.v e = true := by
    obtain ⟨regs, fl, seed, rfl⟩ := hfills.rest
    exact allActive_of_range (v := s.v) hvl hlo hlt
  refine ⟨((w.drawn p).raiseFlags r.flags).writeElem t d e r.bits, ?_, hdone.writeElem hds t e r.bits, ?_⟩
  · refine (if_pos hactive).trans ?_
    rw [hcvt]
  · intro mode hn hx k hklo hk
    have hfit : t.width * (k + 1) ≤ 262144 := by
      have := of_decide_eq_true (Vlc.fits_below ht (show k < s.v.vl by omega))
      omega
    generalize (w.drawn p).raiseFlags r.flags = w1 at hdone hregs
    rw [State.element_writeElem r.bits k ?_ ?_ hfit]
    · split
      · rename_i hke
        rw [hval mode hn hx _ hread, hke]
      · rw [← hconv mode hn hx k hklo (by omega), Vlc.element_eq, Vlc.element_eq, hregs]
    all_goals obtain ⟨regs, fl, seed, rfl⟩ := hdone.rest
    · exact hd
    · exact Vlc.fits_below ht hlt

/-! ## The run over the elements, block-scaled -/

section
variable {s t : State} {ds : VReg → Prop}

theorem State.blockValues_ok {u : VType} {a : VReg} (hr : s.readable u a) (i n : Nat) : ∃ l, s.blockValues u a i n = .ok l := by
  induction n generalizing i with
  | zero => exact ⟨[], rfl⟩
  | succ n ih =>
    obtain ⟨y, hy, -⟩ := State.readValue_ok i hr
    obtain ⟨l, hl⟩ := ih (i + 1)
    exact ⟨y :: l, by rw [State.blockValues, hy, hl]⟩

theorem State.Fills.blockWrite {d : VReg} (hd : ds d) (hen : s.v.fpc.en = 0) (ty : VType) (p : Conv) (e : Nat) (l : List FpVal)
    (i : Nat) (h : s.Fills ds t) : ∃ w, t.blockWrite ty p d e i l = .ok w ∧ s.Fills ds w := by
  induction l generalizing i t with
  | nil => exact ⟨t, rfl, h⟩
  | cons x l ih =>
    rw [State.blockWrite, h.flagged hen]
    exact ih (i + 1) (((h.drawn p).raiseFlags _).writeElem hd ty i _)

/-- A conversion to a block-scaled type performs its elements, wherever it begins. -/
theorem memCvtBlock_run {ty u : VType} {p : Conv} {d a : VReg} (hd : ds d) (hc : ds (companion d)) (hen : s.v.fpc.en = 0)
    (hr : s.readable u a) (lo n : Nat) :
    ∃ w, runElems ((memCvtBlock ty p u d a).elem s) s lo n = (w, none) ∧ s.Fills ds w := by
  refine runElems_keeps (P := fun _ w => s.Fills ds w) (s.fills_self ds) ?_
  intro i t _ _ h
  obtain ⟨l, hl⟩ := State.blockValues_ok (h.readable hr) i (min 128 (t.v.vl - i))
  obtain ⟨w, hw, hfill⟩ := State.Fills.blockWrite hd hen ty p (blockScale ty l) l i h
  by_cases hi : i % 128 = 0
  · refine ⟨_, ?_, hfill.writeElem hc .n8 (i / 128) (blockScale ty l)⟩
    refine (if_neg (by simpa using hi)).trans ?_
    rw [hl]
    simp only [hw]
  · exact ⟨t, if_pos hi, h⟩

end

/-! ## The instruction -/

/-- The registers that a conversion writes. -/
def conversionWrites (t : VType) (d r : VReg) : Prop := r = d ∨ t.isX = true ∧ r = companion d

/-- Tag, mark and poison of the register at a conversion's end leave the elements as they are. -/
theorem State.cover_element (s : State) {t : VType} {d : VReg} (e : Nat) (act : Nat → Bool) (k : Nat)
    (hd : d.toNat < 8 * (s.v.declHeld.toNat + 1)) : (s.cover t d e act).v.element t d k = s.v.element t d k := by
  have hreg : (s.cover t d e act).v.vregs[d.toNat] = ((s.v.vreg d).cover t e s.v.mvl64).heal t.width act e :=
    Vlc.vreg_setVreg_same s.v d _ hd
  rw [Vlc.element_eq, Vlc.element_eq, VecReg.elem_eq, VecReg.elem_eq, hreg, VecReg.heal_img, VecReg.cover_img]
  rfl

theorem State.Fills.smooth {s t : State} {ds : VReg → Prop} (h : s.Fills ds t) (hs : s.smooth = true) : t.smooth = true := by
  obtain ⟨regs, fl, seed, rfl⟩ := h.rest
  exact hs

/-- A conversion completes from what its elements leave. -/
theorem conversion_completes {s : State} {t u : VType} {p : Conv} {d a : VReg} {c : Bool}
    (hdec : decodeStop (.vfcvt t p u d a c) s = none) (hs : s.smooth = true) (hvl : s.v.vl ≤ 8192)
    (ht : s.v.vl * t.width ≤ 64 * s.v.mvl64) (hu : s.v.vl * u.width ≤ 64 * s.v.mvl64) (hmvl : s.v.mvl64 ≤ 4096)
    (hd : d.toNat < 8 * (s.v.declHeld.toNat + 1)) (hen : s.v.fpc.en = 0) (hr : s.readable u a) :
    ∃ lo w, exec (.vfcvt t p u d a c) s = .next (w.clearVstart.past (.vfcvt t p u d a c)) ∧
      (s.startAt lo).Fills (conversionWrites t d) w ∧ (t.notX = true → s.Converted t u p d a s.v.vl w) := by
  have hdw : conversionWrites t d d := .inl rfl
  have hm : loneMember (.vfcvt t p u d a c) = some (memFcvt t p u d a) := rfl
  rcases Nat.eq_zero_or_pos s.v.vl with h0 | h0
  · have hrel : (memFcvt t p u d a).release = true → s.v.early = false := by
      unfold memFcvt
      split <;> nofun
    exact ⟨s.v.vstart, s, exec_lone_zero hm hdec trivial hs hrel h0, s.fills_self _, fun _ _ _ _ k _ hk => absurd hk (by omega)⟩
  cases hx : t.isX
  · have hm : loneMember (.vfcvt t p u d a c) = some (memCvt t p u d a) := hm.trans (by rw [memFcvt, hx]; rfl)
    have hlo : phaseLo [memCvt t p u d a] s = s.v.vstart := phaseLo_lone nofun
    obtain ⟨w, hrun, hfills, hconv⟩ := memCvt_run (p := p) hvl ht hu hmvl hd hen hr hdw
    have hclose : s.Fills (conversionWrites t d) ((memCvt t p u d a).close w s.v.vl true) := hfills.cover hdw t _ _
    refine ⟨s.v.vstart, _, exec_lone_completes hm hdec trivial hs nofun h0 (by rw [hlo]; exact hrun) (hclose.smooth hs), hclose,
      fun _ mode hn hux k hklo hk => ?_⟩
    rw [← hconv mode hn hux k hklo (by omega)]
    refine State.cover_element w _ _ k ?_
    obtain ⟨regs, fl, seed, rfl⟩ := hfills.rest
    exact hd
  · have hm : loneMember (.vfcvt t p u d a c) = some (memCvtBlock t p u d a) := hm.trans (by rw [memFcvt, hx]; rfl)
    have hcw : conversionWrites t d (companion d) := .inr ⟨hx, rfl⟩
    obtain ⟨w, hrun, hfills⟩ := memCvtBlock_run (ty := t) (p := p) (s := s.startAt (phaseLo [memCvtBlock t p u d a] s)) hdw hcw hen hr
      (phaseLo [memCvtBlock t p u d a] s) (s.v.vl - phaseLo [memCvtBlock t p u d a] s)
    have hclose : (s.startAt (phaseLo [memCvtBlock t p u d a] s)).Fills (conversionWrites t d)
        ((memCvtBlock t p u d a).close w s.v.vl true) := (hfills.cover hdw t _ _).cover hcw .n8 _ _
    refine ⟨_, _, exec_lone_completes hm hdec trivial hs nofun h0 hrun (hclose.smooth hs), hclose, fun hn => ?_⟩
    simp [VType.notX, hx] at hn

theorem conversionsFinish : Claim.ConversionsFinish := by
  intro s t u p d a c i hwf hdec hs hvl ht hu hmvl hnames hen ha hac
  have hd : d.toNat < 8 * (s.v.declHeld.toNat + 1) := hnames d.toNat (by simp only [i, vnames, namesOf]; split <;> simp)
  obtain ⟨lo, w, hexec, hfills, hconv⟩ := conversion_completes (c := c) hdec hs hvl ht hu hmvl hd hen ⟨ha, hac⟩
  refine ⟨_, hexec, ?_⟩
  obtain ⟨⟨regs, fl, seed, rfl⟩, -, hkept⟩ := hfills
  exact ⟨rfl, rfl, rfl, rfl, rfl, fun r hrd hrc => hkept r fun h => h.elim hrd fun h => hrc h.1 h.2,
    fun mode hn htx hux k hlo hk => hconv htx mode hn hux k hlo hk⟩

/-- Settles O23: values element by element, the run over the elements and its stop, and the conversions. -/
theorem vectorElementsAreComputed : Obligations.VectorElementsAreComputed :=
  ⟨vectorElementValues, vectorInstructionsRunTheirElements, vectorStopsAtItsElement, conversionsFinish⟩

end Sys2Proof.Machine
end


section
/-! The worked encodings of file 05 (Table 11), for O1, and the numbers of the special registers (R62, R119), for O4. -/

namespace Sys2Proof

/-- Settles O1: each line of Table 11 is decoded. -/
theorem workedEncodingsDecode : Obligations.WorkedEncodingsDecode := by
  unfold Obligations.WorkedEncodingsDecode
  decide

/-! ## Fields of a register number -/

/-- The high bits of a number are its quotient. -/
theorem extractLsb'_eq_iff {w n l : Nat} (hw : n + l = w) (k : BitVec w) (c : BitVec l) :
    k.extractLsb' n l = c ↔ k.toNat / 2 ^ n = c.toNat := by
  have hlt : k.toNat / 2 ^ n < 2 ^ l := Nat.div_lt_of_lt_mul (by rw [← Nat.pow_add, hw]; exact k.isLt)
  rw [BitVec.toNat_eq, BitVec.extractLsb'_toNat, Nat.shiftRight_eq_div_pow, Nat.mod_eq_of_lt hlt]

/-! ## Register numbers -/

/-- The numbers of R119. -/
def sprListed (n : Nat) : Prop := n ≤ 0x13 ∨ (0x100 ≤ n ∧ n ≤ 0x11F) ∨ n = 0x200 ∨ (0x210 ≤ n ∧ n ≤ 0x213)

/-- The numbers of VHWM are 0x100 to 0x11F. -/
theorem vhwm_number_iff (k : BitVec 13) : k.extractLsb' 5 8 = 0b00001000#8 ↔ 0x100 ≤ k.toNat ∧ k.toNat ≤ 0x11F := by
  rw [extractLsb'_eq_iff rfl]
  change k.toNat / 32 = 8 ↔ _
  omega

/-- The numbers of LREMAP are 0x210 to 0x213. -/
theorem lremap_number_iff (k : BitVec 13) : k.extractLsb' 2 11 = 0b00010000100#11 ↔ 0x210 ≤ k.toNat ∧ k.toNat ≤ 0x213 := by
  rw [extractLsb'_eq_iff rfl]
  change k.toNat / 4 = 132 ↔ _
  omega

/-- A number that R119 lists is that of a register. -/
theorem Spr.ofCode_listed {k : BitVec 13} (h : sprListed k.toNat) : ∃ x, Spr.ofCode k = some x ∧ x.code = k := by
  obtain h | h | h | h := h
  · obtain ⟨n, rfl⟩ : ∃ n : Fin 20, k = BitVec.ofNat 13 n := ⟨⟨k.toNat, by omega⟩, by simp⟩
    have hn (n : Fin 20) : (Spr.ofCode (BitVec.ofNat 13 n)).map Spr.code = some (BitVec.ofNat 13 n) := by decide +revert
    exact Option.map_eq_some_iff.1 (hn n)
  · have hk := (vhwm_number_iff k).2 h
    exact ⟨_, if_pos hk, by rw [Spr.code, ← hk]; exact BitVec.extractLsb'_append_extractLsb' (w := 8) (len := 5)⟩
  · obtain rfl : k = 0x200#13 := BitVec.eq_of_toNat_eq h
    exact ⟨.maxvl, rfl, rfl⟩
  · have hk := (lremap_number_iff k).2 h
    have hv : ¬k.extractLsb' 5 8 = 0b00001000#8 := fun hv => by have := (vhwm_number_iff k).1 hv; omega
    exact ⟨_, (if_neg hv).trans (if_pos hk), by rw [Spr.code, ← hk]; exact BitVec.extractLsb'_append_extractLsb' (w := 11) (len := 2)⟩

/-- Any other is that of none. -/
theorem Spr.ofCode_unlisted {k : BitVec 13} (h : ¬sprListed k.toNat) : Spr.ofCode k = none := by
  unfold sprListed at h
  unfold Spr.ofCode
  rw [if_neg fun hv => by have := (vhwm_number_iff k).1 hv; omega, if_neg fun hv => by have := (lremap_number_iff k).1 hv; omega]
  split
  case h_22 => rfl
  all_goals omega

/-! ## MFS and MTS -/

/-- The fields of an instruction that hold a register number. -/
theorem imm13_fields (k : BitVec 13) : k.extractLsb' 8 5 ++ k.extractLsb' 5 3 ++ k.extractLsb' 0 5 = k := by
  rw [BitVec.extractLsb'_append_extractLsb'_eq_extractLsb' (x := k) (start₁ := 5) (len₁ := 3) (start₂ := 8) (len₂ := 5) rfl]
  exact BitVec.extractLsb'_append_extractLsb' (w := 8) (len := 5)

/-- Settles O4: both read the number as `Spr.ofCode` does. -/
theorem specialRegisterNumbers : Obligations.SpecialRegisterNumbers := by
  intro k r c listed mfs mts
  have hmfs : mfs = want (Spr.ofCode k) .spr fun x => .ok (.mfs r x c) := by
    rw [← imm13_fields k]; rfl
  have hmts : mts = want (Spr.ofCode k) .spr fun x => .ok (.mts x r c) := by
    rw [← imm13_fields k]; rfl
  rw [hmfs, hmts]
  refine ⟨fun h => ?_, fun h => ?_⟩
  · obtain ⟨x, hx, hcode⟩ := Spr.ofCode_listed h
    exact ⟨x, hcode, by rw [hx]; rfl, by rw [hx]; rfl⟩
  · rw [Spr.ofCode_unlisted h]
    exact ⟨rfl, rfl⟩

end Sys2Proof
end


section
/-! The scalar integer group (R393 to R395, R116), for O8: each effect's value is the one its table gives. -/

namespace Sys2Proof.Machine

/-! ## Numbers and words -/

/-- The value of a word read signed (R126). -/
theorem signed_toNat (x : Word) : signed 64 x.toNat = x.toInt := by
  rw [signed, Nat.mod_eq_of_lt x.isLt, BitVec.toInt_eq_toNat_cond]
  norm_num
  split <;> split <;> omega

/-- The word of an integer's low bits is the integer's word. -/
theorem ofNat_low (i : Int) : BitVec.ofNat 64 (low 64 i) = BitVec.ofInt 64 i := by
  refine BitVec.eq_of_toNat_eq ?_
  rw [BitVec.toNat_ofNat, low_mod, BitVec.toNat_ofInt, low]

/-! ## Products and quotients (R126) -/

theorem mulh_signed (x y : Word) :
    BitVec.ofNat 64 (intMulh true 64 x.toNat y.toNat) = BitVec.ofInt 64 (x.toInt * y.toInt / 2 ^ 64) := by
  rw [intMulh, if_pos rfl, ofNat_low, signed_toNat, signed_toNat]
  norm_num

theorem mulh_unsigned (x y : Word) :
    BitVec.ofNat 64 (intMulh false 64 x.toNat y.toNat) = BitVec.ofNat 64 (x.toNat * y.toNat / 2 ^ 64) := by
  rw [intMulh, if_neg (by decide), BitVec.toNat_mod_cancel, BitVec.toNat_mod_cancel]

/-- A divisor counts as 0 exactly where its register holds 0. -/
theorem toNat_mod_eq_zero_iff (y : Word) : y.toNat % 2 ^ 64 = 0 ↔ y = 0 := by
  rw [BitVec.toNat_mod_cancel, BitVec.toNat_eq]; rfl

theorem div_signed (x y : Word) :
    BitVec.ofNat 64 (intDiv true 64 x.toNat y.toNat) = if y = 0 then -1 else BitVec.ofInt 64 (x.toInt.tdiv y.toInt) := by
  simp only [intDiv, toNat_mod_eq_zero_iff, if_true]
  split
  · rfl
  · rw [ofNat_low, signed_toNat, signed_toNat]

theorem div_unsigned (x y : Word) :
    BitVec.ofNat 64 (intDiv false 64 x.toNat y.toNat) = if y = 0 then -1 else x / y := by
  simp only [intDiv, toNat_mod_eq_zero_iff]
  split
  · rfl
  · rw [if_neg (by decide), BitVec.toNat_mod_cancel, BitVec.toNat_mod_cancel, ← BitVec.toNat_udiv, BitVec.ofNat_toNat, BitVec.setWidth_eq]

theorem rem_signed (x y : Word) :
    BitVec.ofNat 64 (intRem true 64 x.toNat y.toNat) = if y = 0 then x else BitVec.ofInt 64 (x.toInt.tmod y.toInt) := by
  simp only [intRem, toNat_mod_eq_zero_iff, if_true]
  split
  · rw [BitVec.toNat_mod_cancel, BitVec.ofNat_toNat, BitVec.setWidth_eq]
  · rw [ofNat_low, signed_toNat, signed_toNat]

theorem rem_unsigned (x y : Word) :
    BitVec.ofNat 64 (intRem false 64 x.toNat y.toNat) = if y = 0 then x else x % y := by
  simp only [intRem, toNat_mod_eq_zero_iff]
  split
  · rw [BitVec.toNat_mod_cancel, BitVec.ofNat_toNat, BitVec.setWidth_eq]
  · rw [if_neg (by decide), BitVec.toNat_mod_cancel, BitVec.toNat_mod_cancel, ← BitVec.toNat_umod, BitVec.ofNat_toNat, BitVec.setWidth_eq]

/-! ## Comparisons -/

/-- A truth value that is a proposition's. -/
theorem truth_decide (p : Prop) [Decidable p] : truth (decide p) = if p then 1 else 0 := by
  by_cases h : p <;> simp [truth, h]

/-- A truth value that is a proposition's negated. -/
theorem truth_not_decide (p : Prop) [Decidable p] : truth (!decide p) = if p then 0 else 1 := by
  by_cases h : p <;> simp [truth, h]

/-- The lesser or greater of two words, by the integers they are read as. -/
theorem pick2_signed (mx : Bool) (x y : Word) :
    pick2 false mx x y = BitVec.ofInt 64 (if mx then max x.toInt y.toInt else min x.toInt y.toInt) := by
  rw [pick2, BitVec.slt_eq_decide]
  by_cases h : x.toInt < y.toInt <;> cases mx <;> simp [h]
  · rw [min_eq_left h.le]; simp
  · rw [max_eq_right h.le]; simp
  · rw [min_eq_right (by omega)]; simp
  · rw [max_eq_left (by omega)]; simp

theorem pick2_unsigned (mx : Bool) (x y : Word) :
    pick2 true mx x y = BitVec.ofNat 64 (if mx then max x.toNat y.toNat else min x.toNat y.toNat) := by
  rw [pick2, BitVec.ult_eq_decide]
  by_cases h : x.toNat < y.toNat <;> cases mx <;> simp [h]
  · rw [min_eq_left h.le]; simp
  · rw [max_eq_right h.le]; simp
  · rw [min_eq_right (by omega)]; simp
  · rw [max_eq_left (by omega)]; simp

/-! ## Counts of bits -/

theorem leadingZeros_eq_clz (x : Word) : leadingZeros x = x.clz := by
  unfold leadingZeros
  by_cases h : x = 0
  · rw [if_pos h, h]; rfl
  have hlt : x.clz < 64 := BitVec.clz_lt_iff_ne_zero.2 h
  have hn : x.clz.toNat < 64 := hlt
  have hlog : Nat.log2 x.toNat = 63 - x.clz.toNat := by
    refine (Nat.log2_eq_iff (fun h0 => h (BitVec.eq_of_toNat_eq h0))).2
      ⟨BitVec.two_pow_sub_clz_le_toNat_of_ne_zero (by decide) h, ?_⟩
    rw [show 63 - x.clz.toNat + 1 = 64 - x.clz.toNat by omega]
    exact BitVec.toNat_lt_two_pow_sub_clz
  rw [if_neg h, hlog, show 63 - (63 - x.clz.toNat) = x.clz.toNat by omega, BitVec.ofNat_toNat, BitVec.setWidth_eq]

/-- The lowest set bit of a number is at the count of its trailing zero bits. -/
theorem trailing_eq {n x k : Nat} (hk : k < n) (hset : x.testBit k = true) (hclear : ∀ j, j < k → x.testBit j = false) :
    trailing n x = k := by
  induction n generalizing x k with
  | zero => omega
  | succ n ih =>
    rw [trailing]
    cases k with
    | zero => rw [if_pos (by simpa using hset)]
    | succ k =>
      have h0 : ¬x % 2 = 1 := by simpa using hclear 0 (by omega)
      rw [Nat.testBit_succ] at hset
      rw [if_neg h0, ih (by omega) hset fun j hj => by rw [← Nat.testBit_succ]; exact hclear _ (by omega)]

theorem trailing_eq_ctz (x : Word) : BitVec.ofNat 64 (trailing 64 x.toNat) = x.ctz := by
  by_cases h : x = 0
  · have hz : (0 : Word).ctz = 64 := by rw [BitVec.ctz, BitVec.reverse_eq_zero_iff.2 (rfl : (0 : Word) = 0#64)]; rfl
    rw [h, hz]; rfl
  have hlt : x.ctz < 64 := BitVec.ctz_lt_iff_ne_zero.2 h
  have hn : x.ctz.toNat < 64 := hlt
  rw [trailing_eq hn (BitVec.getLsbD_true_ctz_of_ne_zero h) fun j hj => BitVec.getLsbD_false_of_lt_ctz hj, BitVec.ofNat_toNat,
    BitVec.setWidth_eq]

theorem ones_eq_countP (x : Word) : ones 64 x.toNat = (List.range 64).countP fun k => x.getLsbD k := by
  rw [ones_eq_length, List.countP_eq_length_filter]; rfl

/-! ## Immediates -/

/-- LIH puts its field in the low bits that the shift leaves free (R394). -/
theorem lih_value (x : Word) (k : BitVec 18) : x <<< 18 ||| k.setWidth 64 = BitVec.ofNat 64 (x.toNat * 2 ^ 18 + k.toNat) := by
  have hk : k.toNat % 2 ^ 64 = k.toNat := Nat.mod_eq_of_lt (by have := k.isLt; omega)
  refine BitVec.eq_of_toNat_eq ?_
  rw [BitVec.toNat_or, BitVec.toNat_shiftLeft, BitVec.toNat_setWidth, BitVec.toNat_ofNat, Nat.shiftLeft_eq, hk,
    show 2 ^ 64 = 2 ^ 18 * 2 ^ 46 from rfl, Nat.mul_comm x.toNat, Nat.mul_mod_mul_left, ← Nat.two_pow_add_eq_or_of_lt k.isLt]
  omega

/-- A sign-extended immediate holds its integer. -/
theorem ofInt_simm {w : Nat} (k : BitVec w) : BitVec.ofInt 64 k.toInt = simm k := rfl

theorem slt_simm (x : Word) (k : BitVec 13) : x.slt (simm k) = decide (x.toInt < k.toInt) := by
  rw [BitVec.slt_eq_decide, simm, BitVec.toInt_signExtend_of_le (by decide)]

/-- ADDPC adds twice its signed offset (R395). -/
theorem addpc_value (pc : Word) (k : BitVec 18) : pc + 2 * simm k = BitVec.ofInt 64 (pc.toNat + 2 * k.toInt) := by
  rw [BitVec.ofInt_add, BitVec.ofInt_mul, ofInt_simm]
  simp

/-- C_ADD_IMM adds its signed immediate (R116). -/
theorem cAddImm_value (x : Word) (k : BitVec 5) : x + simm (k.signExtend 13) = BitVec.ofInt 64 (x.toInt + k.toInt) := by
  rw [← ofInt_simm, BitVec.toInt_signExtend_of_le (by decide), BitVec.ofInt_add, BitVec.ofInt_toInt]

/-! ## The instructions -/

/-- An instruction of the scalar group meets no check of decode that depends on the state. -/
theorem scalarGroup_decodes {i : Instr} {s : State} {r : SReg × Word} (h : scalarResult i s = some r) (hj : i.joins = false)
    (hs : s.smooth = true) : decodeStop i s = none := by
  unfold scalarResult at h
  split at h
  case h_51 => cases h
  all_goals exact decodeStop_ok hj rfl rfl rfl rfl rfl rfl rfl hs

/-- A 4-bit shift count among the 6-bit ones (R116). -/
theorem toNat_count (k : BitVec 4) : (k.setWidth 6).toNat = k.toNat := by
  rw [BitVec.toNat_setWidth]; omega

/-- Settles O8: each effect writes the value of its table, and nothing comes between the instruction and its completion. -/
theorem scalarGroupResults : Obligations.ScalarGroupResults := by
  intro i s d x h hj hs
  have hdec := scalarGroup_decodes h hj hs
  have done {f : State → State} {y : Word} (hf : f s = s.wr d y) (hy : y = x) : alone i s f = .next ((s.wr d x).past i) := by
    subst hy
    rw [alone_ok hdec (by rw [hf]; exact State.smooth_wr d y hs), hf]
  cases i
  case add | sub | mul | and | or | xor | shl | shr | shra | sel | addImm | andImm | orImm | xorImm | shlImm | shrImm | shraImm |
      mulImm | cAdd | cSub | cAnd | cOr | cXor => cases h; exact done rfl rfl
  case mulh u d a b c =>
    cases u
    · cases h; exact done rfl (mulh_signed _ _)
    · cases h; exact done rfl (mulh_unsigned _ _)
  case div u d a b c =>
    cases u
    · cases h; exact done rfl (div_signed _ _)
    · cases h; exact done rfl (div_unsigned _ _)
  case rem u d a b c =>
    cases u
    · cases h; exact done rfl (rem_signed _ _)
    · cases h; exact done rfl (rem_unsigned _ _)
  case cmp p d a b c =>
    cases p
    case eq => cases h; exact done rfl (truth_decide _)
    case ne => cases h; exact done rfl (truth_not_decide _)
    case ltS => cases h; exact done rfl (truth_decide _)
    case geS => cases h; exact done rfl (truth_not_decide _)
    case ltU => cases h; exact done rfl (truth_decide _)
    case geU => cases h; exact done rfl (truth_not_decide _)
  case min u d a b c =>
    cases u
    · cases h; exact done rfl (pick2_signed false _ _)
    · cases h; exact done rfl (pick2_unsigned false _ _)
  case max u d a b c =>
    cases u
    · cases h; exact done rfl (pick2_signed true _ _)
    · cases h; exact done rfl (pick2_unsigned true _ _)
  case clz => cases h; exact done rfl (leadingZeros_eq_clz _)
  case ctz => cases h; exact done rfl (trailing_eq_ctz _)
  case popc => cases h; exact done rfl (congrArg (BitVec.ofNat 64) (ones_eq_countP _))
  case cmpS64LtImm d a k c => cases h; exact done rfl ((congrArg truth (slt_simm _ k)).trans (truth_decide _))
  case cmpN64LtImm => cases h; exact done rfl (truth_decide _)
  case lih => cases h; exact done rfl (lih_value _ _)
  case addpc => cases h; exact done rfl (addpc_value _ _)
  case cAddImm => cases h; exact done rfl (cAddImm_value _ _)
  case cShl a k => cases h; exact done rfl (congrArg (_ <<< ·) (toNat_count k))
  case cShr a k => cases h; exact done rfl (congrArg (_ >>> ·) (toNat_count k))
  case cShra a k => cases h; exact done rfl (congrArg (BitVec.sshiftRight _) (toNat_count k))
  all_goals cases h

end Sys2Proof.Machine
end


section
/-! VPERM by an index register that the VLC's registers do not hold whole (R54, R452), for O25: its indexes past their end are values
of their own (log 15), not the bits of the register's image. -/

namespace Sys2Proof.Machine

/-! ## A whole-vector write -/

/-- A whole-vector instruction that begins below VL, and does not stop. -/
theorem whole_completes_below {i : Instr} {s s1 : State} {left : State → State} {f : State → Except Stop State}
    (hd : decodeStop i s = none) (hv : s.v.vstart < s.v.vl) (hf : f (s.startAt 0) = .ok s1) (hs : s1.smooth = true) :
    wholeAlone i s false left f = .next (s1.clearVstart.past i) := by
  have hf' : f (s.setV fun v => { v with vstart := 0 }) = .ok s1 := hf
  unfold wholeAlone
  rw [checked_none hd, if_neg (by omega), if_neg (by omega)]
  simp only [hf']
  exact congrArg Host.Outcome.next (State.finish_smooth (s := s1.clearVstart) i hs)

/-- The end of a write leaves the elements of its register. -/
theorem State.filled_cover_img (s : State) {d : VReg} {t : VType} {e : Nat} {act : Nat → Bool} (r : VecReg) (fl : Flags)
    (h : d.toNat < 8 * (s.v.declHeld.toNat + 1)) : ∃ r', (s.filled d r fl).cover t d e act = s.filled d r' fl ∧ r'.img = r.img :=
  ⟨_, State.filled_cover r fl h, by rw [VecReg.heal_img, VecReg.cover_img]⟩

/-- A write of two elements fills its register: the second reads its value. -/
theorem wholeWrite_two {s : State} {t : VType} {d : VReg} {f : Nat → Except Stop (Option Nat)} {x y : Nat} (hvl : s.v.vl = 2)
    (hfit : 2 * t.width ≤ 64 * s.v.mvl64) (hmvl : s.v.mvl64 ≤ 4096) (hd : d.toNat < 8 * (s.v.declHeld.toNat + 1))
    (hx : f 0 = .ok (some x)) (hy : f 1 = .ok (some y)) :
    ∃ r, wholeWrite t d s f = .ok (s.filled d r 0) ∧ r.img.extractLsb' (t.width * 1) t.width = BitVec.ofNat t.width (payload t y) := by
  have hgather : gatherElems f 0 s.v.vl = .ok [(0, x), (1, y)] := by
    rw [hvl]
    simp only [gatherElems, hx, hy, bind, Except.bind]
  have hfits {k : Nat} (hk : k < 2) : s.v.fits t.width k = true := Vlc.fits_below (by rw [hvl]; exact hfit) (by omega)
  have hwrites : s.writeElems t d [(0, x), (1, y)] =
      s.filled d (((s.v.vregs[d.toNat]).put t.width 0 (payload t x)).put t.width 1 (payload t y)) 0 := by
    conv_lhs => rw [← s.filled_self d]
    simp only [State.writeElems, List.foldl_cons, List.foldl_nil]
    rw [State.filled_writeElem _ _ _ hd (hfits (by decide)), State.filled_writeElem _ _ _ hd (hfits (by decide))]
  obtain ⟨r, hr, himg⟩ := s.filled_cover_img (t := t) (e := s.v.vl) (act := fun i => ([(0, x), (1, y)].map (·.1)).contains i)
    (((s.v.vregs[d.toNat]).put t.width 0 (payload t x)).put t.width 1 (payload t y)) 0 hd
  refine ⟨r, ?_, by rw [himg, VecReg.put_extract _ _ _ (by omega), if_pos rfl]⟩
  unfold wholeWrite
  rw [hgather]
  simp only [bind, Except.bind, hwrites, hr]

/-! ## The counterexample -/

/-- A VLC whose registers hold 64 bits (MVL64 1), with two byte elements in use, `a` in v1 and `b` in v2. -/
def narrow (a b : VecReg) : State :=
  State.reset.setV fun v => { v with vl := 2, mvl64 := 1, vregs := (v.vregs.set 1 a).set 2 b }

/-- The value that VPERM computes for an element: the table's, with the index as it is read. -/
def permElem (t : VType) (m : MReg) (a b : VReg) (s : State) (i : Nat) : Except Stop (Option Nat) :=
  if s.v.active m i then do
    let k ← s.readIndex b i
    if k < s.v.vl then (s.readElem t a k).map some else .ok (some 0)
  else .ok none

/-- VPERM of bytes from v1 to v0 by v2. -/
def permBytes : Instr := .vperm .n8 0 0 1 2

/-- The value that index 1 of v2, at a width of 64 bits past the register's end, reads as (R54, log 15). -/
def indexPastEnd : Nat := State.reset.beyond 64 2 1

section
variable (a b : VecReg)

theorem smooth_narrow : (narrow a b).smooth = true :=
  (State.smooth_iff _).2 ⟨.inr (show (State.reset.core 0).stepctl.getLsbD 0 = false by decide), rfl, rfl, rfl, rfl, rfl, rfl⟩

theorem decodes_narrow : decodeStop permBytes (narrow a b) = none :=
  decodeStop_ok rfl rfl rfl rfl rfl rfl rfl rfl (smooth_narrow a b)

variable {a b}

/-- The elements of the source are read as they are. -/
theorem narrow_readElem (ha : a.poison = 0#4096) {k : Nat} (hk : k < 2) : (narrow a b).readElem .n8 1 k = .ok (a.elem 8 k) :=
  State.readElem_ok (s := narrow a b) (t := .n8) (q := 1)
    (Vlc.fits_below (v := (narrow a b).v) (w := 8) (show 2 * 8 ≤ 64 * 1 by decide) hk)
    (by rw [show (narrow a b).v.vregs[(1 : VReg).toNat] = a from rfl, ha]; exact BitVec.getLsbD_zero)

/-- Of the indexes the first alone lies in its register. -/
theorem narrow_readIndex (hb : b.poison = 0#4096) (htag : b.tag = 3) :
    (narrow a b).readIndex 2 0 = .ok (b.elem 64 0) ∧ (narrow a b).readIndex 2 1 = .ok indexPastEnd := by
  have hraw (i : Nat) : (narrow a b).readIndex 2 i = (narrow a b).readRaw 64 2 i := by
    unfold State.readIndex
    rw [show (narrow a b).v.vreg 2 = b from rfl, VecReg.tagWidth, htag]
    rfl
  have hfit0 : (narrow a b).v.fits 64 0 = true := rfl
  have hfit1 : (narrow a b).v.fits 64 1 = false := rfl
  have hreg : (narrow a b).v.vreg 2 = b := rfl
  constructor
  · simp only [hraw, State.readRaw, hfit0, hreg, hb, BitVec.getLsbD_zero, Bool.not_true, Bool.false_eq_true, if_false]
  · simp only [hraw, State.readRaw, hfit1, Bool.not_false, if_true]
    rw [State.beyond, indexPastEnd, State.beyond]
    rfl

/-- Both elements are active. -/
theorem permElem_active {i : Nat} (hi : i < 2) : permElem .n8 0 1 2 (narrow a b) i =
    ((narrow a b).readIndex 2 i).bind fun k =>
      if k < 2 then ((narrow a b).readElem .n8 1 k).map some else .ok (some 0) := by
  have hactive : (narrow a b).v.active 0 i = true :=
    (Vlc.active_iff (v := (narrow a b).v) (show 2 ≤ 8192 by decide)).2 ⟨Nat.zero_le i, hi, .inl rfl⟩
  exact if_pos hactive

/-- What VPERM does: the second element is the one that the value past the end picks. -/
theorem permBytes_meaning (ha : a.poison = 0#4096) (hb : b.poison = 0#4096) (htag : b.tag = 3) (hindex : b.elem 64 0 = 0) :
    ∃ r, exec permBytes (narrow a b) = .next (((narrow a b).filled 0 r 0).clearVstart.past permBytes) ∧
      r.img.extractLsb' (8 * 1) 8 = BitVec.ofNat 8 (if indexPastEnd < 2 then a.elem 8 indexPastEnd else 0) := by
  obtain ⟨hread0, hread1⟩ := narrow_readIndex (a := a) hb htag
  have hx : permElem .n8 0 1 2 (narrow a b) 0 = .ok (some (a.elem 8 0)) := by
    rw [permElem_active (by decide), hread0, hindex]
    exact congrArg (Except.map some) (narrow_readElem ha (by decide))
  have hy : permElem .n8 0 1 2 (narrow a b) 1 = .ok (some (if indexPastEnd < 2 then a.elem 8 indexPastEnd else 0)) := by
    rw [permElem_active (by decide), hread1]
    simp only [Except.bind]
    split
    · exact congrArg (Except.map some) (narrow_readElem ha ‹_›)
    · rfl
  obtain ⟨r, hwrite, himg⟩ := wholeWrite_two (s := narrow a b) (t := .n8) (d := 0) (f := permElem .n8 0 1 2 (narrow a b))
    rfl (show 2 * 8 ≤ 64 * 1 by decide) (show 1 ≤ 4096 by decide) (show 0 < 8 * (0 + 1) by decide) hx hy
  exact ⟨r, whole_completes_below (i := permBytes) (s := narrow a b) (s1 := (narrow a b).filled 0 r 0)
    (f := fun s => wholeWrite .n8 0 s (permElem .n8 0 1 2 s)) (decodes_narrow a b) (show 0 < 2 by decide) hwrite
    (smooth_narrow a b), himg⟩

/-- The table of VPERM takes the second index from the image, past the register's end. -/
theorem permBytes_op (htag : b.tag = 3) : ∃ val, moveOp permBytes (narrow a b) = some { t := .n8, d := 0, reads := [1, 2], val := val } ∧
    val 1 = some (if b.elem 64 1 < 2 then a.elem 8 (b.elem 64 1) else 0) := by
  have hallowed : (narrow a b).v.allowed 0 1 = true := rfl
  have hindex : (b.img.extractLsb' (8 * 2 ^ b.tag.toNat * 1) (8 * 2 ^ b.tag.toNat)).toNat = b.elem 64 1 := by
    rw [← VecReg.elem_eq, htag]
    rfl
  have hsource (k : Nat) : (narrow a b).v.element .n8 1 k = a.elem 8 k := Vlc.element_eq _ _ _ _
  refine ⟨_, rfl, ?_⟩
  simp only [hallowed, hsource, if_true]
  rw [show (narrow a b).v.vregs[(2 : VReg).toNat] = b from rfl, hindex]
  rfl

/-- So the claim wants the second element to be the one that the image picks. -/
theorem permBytes_claimed (moves : Claim.WholeVectorMoves) (ha : a.poison = 0#4096) (hb : b.poison = 0#4096) (htag : b.tag = 3) :
    ∃ u, exec permBytes (narrow a b) = .next u ∧ (u.v.vregs[0]).img.extractLsb' (8 * 1) 8 =
      BitVec.ofNat 8 (if b.elem 64 1 < 2 then a.elem 8 (b.elem 64 1) else 0) := by
  obtain ⟨val, hop, hval⟩ := permBytes_op (a := a) htag
  have hreads : ∀ r ∈ [1#5, 2#5], ((narrow a b).v.vregs[r.toNat]).poison = 0 := by
    simp only [List.forall_mem_cons]
    exact ⟨ha, hb, nofun⟩
  have hindexes : ∀ t m d x y, permBytes = .vperm t m d x y → 2 * (8 * 2 ^ ((narrow a b).v.vregs[y.toNat]).tag.toNat) ≤ 262144 := by
    rintro t m d x y ⟨⟩
    rw [show (narrow a b).v.vregs[(2 : VReg).toNat] = b from rfl, htag]
    decide
  obtain ⟨r, hexec, -, -, himg⟩ := moves permBytes (narrow a b) _ hop (decodes_narrow a b) (smooth_narrow a b)
    (show 2 ≤ 8192 by decide) (show 2 * 8 ≤ 64 * 1 by decide) (show 1 ≤ 4096 by decide) (show 0 < 8 * (0 + 1) by decide)
    (show 0 < 2 by decide) hreads hindexes
  have h1 : r.img.extractLsb' (8 * 1) 8 = match (if 2 ≤ 0 then none else val 1) with
    | some x => BitVec.ofNat 8 (payload .n8 x)
    | none => (narrow a b).v.vregs[0].img.extractLsb' (8 * 1) 8 := himg 1
  rw [if_neg (by decide), hval] at h1
  exact ⟨_, hexec, (congrArg (fun r : VecReg => r.img.extractLsb' (8 * 1) 8) (Vector.getElem_set_self _)).trans h1⟩

end

/-! ## The registers -/

/-- A register whose byte elements 0 and 1 are 1. -/
def twoOnes : VecReg := (VecReg.clear.put 8 0 1).put 8 1 1

/-- An index register tagged with a width of 64 bits, whose image holds the index 0 and after it `j`. -/
def twoIndexes (j : Nat) : VecReg := VecReg.clear.put 64 1 j

theorem twoOnes_elem {k : Nat} (hk : k < 2) : twoOnes.elem 8 k = 1 := by
  obtain rfl | rfl : k = 0 ∨ k = 1 := by omega
  · rw [twoOnes, VecReg.elem_put_other _ _ _ _ _ (by decide) (by decide), VecReg.elem_put_same _ _ _ _ (by decide)]; rfl
  · rw [twoOnes, VecReg.elem_put_same _ _ _ _ (by decide)]; rfl

theorem twoIndexes_first (j : Nat) : (twoIndexes j).elem 64 0 = 0 := by
  rw [twoIndexes, VecReg.elem_put_other _ _ _ _ _ (by decide) (by decide), VecReg.elem_eq]
  exact congrArg BitVec.toNat BitVec.extractLsb'_zero

theorem twoIndexes_second (j : Nat) : (twoIndexes j).elem 64 1 = j % 2 ^ 64 :=
  VecReg.elem_put_same _ _ _ _ (by decide)

/-- The bytes 1 and 0 tell two propositions apart. -/
theorem iff_of_ofNat_ite {p q : Prop} [Decidable p] [Decidable q]
    (h : BitVec.ofNat 8 (if p then 1 else 0) = BitVec.ofNat 8 (if q then 1 else 0)) : p ↔ q := by
  by_cases hp : p <;> by_cases hq : q <;> simp_all

/-- By the claim, the word past the register's end would decide what its index there is. -/
theorem second_index_decides (moves : Claim.WholeVectorMoves) (j : Nat) : indexPastEnd < 2 ↔ j % 2 ^ 64 < 2 := by
  obtain ⟨r, hmeaning, himg⟩ := permBytes_meaning (a := twoOnes) (b := twoIndexes j) rfl rfl rfl (twoIndexes_first j)
  obtain ⟨u, hclaimed, hu⟩ := permBytes_claimed (a := twoOnes) (b := twoIndexes j) moves rfl rfl rfl
  rw [hmeaning] at hclaimed
  obtain rfl := Host.Outcome.next.inj hclaimed
  have hr : (((narrow twoOnes (twoIndexes j)).filled 0 r 0).clearVstart.past permBytes).v.vregs[0] = r := Vector.getElem_set_self _
  rw [hr, himg, twoIndexes_second, ite_congr rfl (fun h => twoOnes_elem h) fun _ => rfl, ite_congr rfl (fun h => twoOnes_elem h) fun _ => rfl] at hu
  exact iff_of_ofNat_ite hu

/-- Refutes O25: the claim of VPERM asks that VL indexes lie in 32 KiB, not in the register (64 × MVL64 bits). An index past the
register's end reads as a value of its own, so that two images that differ only there give one result, where the claim wants two. -/
theorem not_elementsAreMoved : ¬ Obligations.ElementsAreMoved := by
  rintro ⟨moves, -⟩
  have h0 : indexPastEnd < 2 := (second_index_decides moves 0).2 (by decide)
  exact absurd ((second_index_decides moves 2).1 h0) (by decide)

end Sys2Proof.Machine
end


section
/-! Scalar floating point (R406 to R409), for O20. -/

namespace Sys2Proof.Machine

/-- Flags ORed into FPC.FLAGS, written whole. -/
theorem State.raiseFlags_eq (s : State) (f : Flags) :
    s.raiseFlags f = s.setV fun v => { v with fpc := { v.fpc with flags := v.fpc.flags ||| f } } := by
  unfold State.raiseFlags
  split
  · rename_i h
    have hz : s.v.fpc.flags ||| 0 = s.v.fpc.flags := BitVec.or_zero
    rw [h]
    refine (State.setV_congr (f := id) ?_).symm ▸ rfl
    simp only [hz, id_eq]
  · rfl

/-- A flag traps where it is enabled (R131). -/
theorem Fpc.traps_iff (f : Fpc) (x : Flags) : f.traps x = true ↔ f.en &&& x ≠ 0 := by simp [Fpc.traps]

/-- A result of a conversion to an integer type lies in the type. -/
theorem cvt_int_lt {t : VType} (h : t.isI = true) (u : VType) (c : CvtMode) (sat : Bool) (x : Nat) :
    (cvt t u c sat x).bits < 2 ^ t.width := by
  have hlow (i : Int) : low t.width i < 2 ^ t.width := low_mod t.width i ▸ Nat.mod_lt _ (Nat.two_pow_pos _)
  have htoInt (rm : RMode) (y : FpVal) : (cvtToInt t rm y).bits < 2 ^ t.width := by
    cases y with
    | nan _ => exact Nat.two_pow_pos _
    | inf _ => exact hlow _
    | num d =>
      unfold cvtToInt
      generalize hi : (if d.neg then -((roundAt rm d.neg d.m d.e 0).1 : Int) else (roundAt rm d.neg d.m d.e 0).1) = i
      simp only [hi]
      by_cases hlo : i < t.minInt
      · rw [if_pos hlo]; exact hlow _
      · rw [if_neg hlo]
        split <;> exact hlow _
  unfold cvt
  cases hu : u.isI
  · simpa [h] using htoInt _ _
  · simpa [h, Res.quiet] using hlow _

/-- What FCVT writes to its register: an integer extended by its type, and the bits of any other (R133, R409). -/
theorem cvtWord_eq (t u : VType) (c : CvtMode) (sat : Bool) (x : Nat) :
    cvtWord t (cvt t u c sat x).bits =
      BitVec.ofNat 64 (if t.isI then loaded t (cvt t u c sat x).bits else BitVec.ofNat 64 (cvt t u c sat x).bits).toNat := by
  rw [BitVec.ofNat_toNat, BitVec.setWidth_eq]
  unfold cvtWord
  split
  · exact extend_eq_loaded (cvt_int_lt ‹_› u c sat x)
  · rfl

/-- A scalar floating-point instruction passes decode's checks, and delivers the result of its table. -/
theorem exec_of_scalarFp {i : Instr} {s : State} {d : SReg} {r : Res} (h : scalarFp i s = some (d, r)) (hs : s.smooth = true) :
    exec i s = .next (fpResult i s d r (BitVec.ofNat 64 r.bits) (·.afterDraw i)) := by
  have form {i : Instr} {f : State → Res} (hd : decodeStop i s = none) (ha : ∀ u : State, u.afterDraw i = u) :
      fpForm i s d f = .next (fpResult i s d (f s) (BitVec.ofNat 64 (f s).bits) (·.afterDraw i)) := by
    rw [fpForm, checked_none hd, show (fun u : State => u.afterDraw i) = id from funext ha]
  cases i
  case fadd | fsub | fmul | fdiv | fsqrt | fma | fminmax =>
    cases h
    exact form (decodeStop_ok rfl rfl rfl rfl rfl rfl rfl rfl hs) fun _ => rfl
  case fcmp t p d a b =>
    cases p <;> cases h <;> exact form (decodeStop_ok rfl rfl rfl rfl rfl rfl rfl rfl hs) fun _ => rfl
  case fcvt t p u d' a =>
    have hd : decodeStop (.fcvt t p u d' a) s = none := decodeStop_ok rfl rfl rfl rfl rfl rfl rfl rfl hs
    show Host.Outcome.next (checked _ s _) = _
    rw [checked_none hd]
    simp only [cvtWord_eq]
    cases p <;> cases h <;> rfl
  all_goals cases h

/-- Settles O20: a result either traps with its flags, or is written. -/
theorem scalarFloatsComplete : Obligations.ScalarFloatsComplete := by
  intro i s d r h _ hs s1
  have h1 : s.raiseFlags r.flags = s1 := s.raiseFlags_eq r.flags
  have hdraw : (s1.afterDraw i).smooth = true := by unfold State.afterDraw; split <;> exact hs
  rw [exec_of_scalarFp h hs, fpResult, h1]
  refine ⟨fun hf => ?_, fun hf => ?_⟩
  · rw [if_neg (mt (Fpc.traps_iff _ _).1 (not_not.2 hf)), State.finish_smooth i (State.smooth_wr d _ hdraw)]
  · rw [if_pos ((Fpc.traps_iff _ _).2 hf)]
    rfl

end Sys2Proof.Machine
end


section
/-! Exact values and the one rounding (R128, R129), for O22. -/

namespace Sys2Proof.Machine

/-! ## Exact values -/

/-- The rational number ±m × 2^e. -/
def signed2 (neg : Bool) (x : ℚ) : ℚ := if neg then -x else x

theorem ratOf_eq (d : Dy) : ratOf d = signed2 d.neg (d.m * 2 ^ d.e) := by
  unfold ratOf signed2
  split <;> ring

theorem two_zpow_pos (e : ℤ) : (0 : ℚ) < 2 ^ e := zpow_pos two_pos e

theorem two_zpow_toNat {q e : ℤ} (h : q ≤ e) : ((2 ^ (e - q).toNat : ℕ) : ℚ) = 2 ^ (e - q) := by
  rw [Nat.cast_pow, ← zpow_natCast, Int.toNat_of_nonneg (by omega), Nat.cast_ofNat]

/-- A number is its mantissa at any exponent at or below its own. -/
theorem at_eq_ratOf (d : Dy) {q : ℤ} (h : q ≤ d.e) : (d.at q : ℚ) = ratOf d / 2 ^ q := by
  have hm : ((d.m * 2 ^ (d.e - q).toNat : ℕ) : ℚ) = d.m * 2 ^ d.e / 2 ^ q := by
    rw [Nat.cast_mul, two_zpow_toNat h, zpow_sub₀ two_ne_zero, mul_div_assoc]
  rw [ratOf_eq]
  unfold Dy.at signed2
  cases d.neg
  · simpa using hm
  · simpa [neg_div] using hm

theorem ratOf_add (rm : RMode) (x y : Dy) : ratOf (Dy.add rm x y) = ratOf x + ratOf y := by
  have hx := at_eq_ratOf x (min_le_left x.e y.e)
  have hy := at_eq_ratOf y (min_le_right x.e y.e)
  have hq := (two_zpow_pos (min x.e y.e)).ne'
  have hsum : ratOf x + ratOf y = (x.at (min x.e y.e) + y.at (min x.e y.e) : ℤ) * 2 ^ min x.e y.e := by
    push_cast
    rw [hx, hy]
    field_simp
  rw [hsum, ratOf_eq]
  simp only [Dy.add]
  generalize x.at (min x.e y.e) + y.at (min x.e y.e) = k
  split
  · simp_all [signed2]
  · have habs : ((k.natAbs : ℕ) : ℚ) = |(k : ℚ)| := by simp
    by_cases hk : k < 0
    · have : (k : ℚ) < 0 := by exact_mod_cast hk
      simp [signed2, hk, abs_of_neg this]
    · have : (0 : ℚ) ≤ k := by exact_mod_cast (not_lt.mp hk)
      simp [signed2, hk, abs_of_nonneg this]

theorem ratOf_mul (x y : Dy) : ratOf (Dy.mul x y) = ratOf x * ratOf y := by
  rw [ratOf_eq, ratOf_eq, ratOf_eq]
  have hm : ((x.m * y.m : ℕ) : ℚ) * 2 ^ (x.e + y.e) = x.m * 2 ^ x.e * (y.m * 2 ^ y.e) := by
    rw [zpow_add₀ two_ne_zero]; push_cast; ring
  simp only [Dy.mul, hm]
  cases x.neg <;> cases y.neg <;> simp [signed2]

theorem lt_iff_ratOf (x y : Dy) : Dy.lt x y = true ↔ ratOf x < ratOf y := by
  have hq := two_zpow_pos (min x.e y.e)
  unfold Dy.lt
  rw [decide_eq_true_eq, ← Int.cast_lt (R := ℚ), at_eq_ratOf x (min_le_left _ _), at_eq_ratOf y (min_le_right _ _), div_lt_div_iff_of_pos_right hq]

theorem eqv_iff_ratOf (x y : Dy) : Dy.eqv x y = true ↔ ratOf x = ratOf y := by
  have hq := two_zpow_pos (min x.e y.e)
  unfold Dy.eqv
  rw [decide_eq_true_eq, ← Int.cast_inj (α := ℚ), at_eq_ratOf x (min_le_left _ _), at_eq_ratOf y (min_le_right _ _), div_left_inj' hq.ne']

theorem exactSumsAndProducts : Claim.ExactSumsAndProducts := fun rm x y z =>
  ⟨ratOf_add rm x y, ratOf_mul x y, (ratOf_add rm _ z).trans (by rw [ratOf_mul]), lt_iff_ratOf x y, eqv_iff_ratOf x y⟩

/-! ## One rounding -/

/-- m × 2^e is a multiple of 2^q and a fraction `r / n` of 2^q, by which a mode decides. -/
theorem floorTo_add_rest (m : ℕ) (e q : ℤ) : ∃ r n : ℕ, r < n ∧ (m : ℚ) * 2 ^ (e - q) = floorTo m e q + r / n ∧
    restOf m e q = (compare (2 * r) n, decide (r ≠ 0)) := by
  unfold floorTo restOf
  by_cases h : q ≤ e
  · refine ⟨0, 1, one_pos, ?_, by simp [h]; rfl⟩
    rw [if_pos h, Nat.cast_mul, two_zpow_toNat h]
    simp
  · have h' : e ≤ q := by omega
    refine ⟨m % 2 ^ (q - e).toNat, 2 ^ (q - e).toNat, Nat.mod_lt _ (Nat.two_pow_pos _), ?_, by simp [h]⟩
    have hn : ((2 ^ (q - e).toNat : ℕ) : ℚ) ≠ 0 := by positivity
    rw [if_neg h, ← neg_sub q e, zpow_neg, ← two_zpow_toNat h', eq_comm, ← mul_left_inj' hn]
    have hdm := congrArg (Nat.cast (R := ℚ)) (Nat.div_add_mod m (2 ^ (q - e).toNat))
    rw [Nat.cast_add, Nat.cast_mul] at hdm
    rw [inv_mul_cancel_right₀ hn, add_mul, div_mul_cancel₀ _ hn]
    linarith

/-- A mode takes the fraction `u` above the multiple `k` up to the next multiple (R128). -/
def goesUp (rm : RMode) (neg : Bool) (k : ℕ) (u : ℚ) : Prop :=
  match rm with
  | .rne => 1 / 2 < u ∨ (u = 1 / 2 ∧ k % 2 = 1)
  | .rtz => False
  | .rup => u ≠ 0 ∧ neg = false
  | .rdn => u ≠ 0 ∧ neg = true

/-- A rounding of m × 2^e to a multiple of 2^q: the multiple `k` below and the fraction `u` above it, by which the mode decides. -/
structure Rounds (rm : RMode) (neg : Bool) (m : ℕ) (e q : ℤ) (k : ℕ) (u : ℚ) : Prop where
  nonneg : 0 ≤ u
  lt_one : u < 1
  value : (m : ℚ) * 2 ^ (e - q) = k + u
  inexact : (roundAt rm neg m e q).2 = true ↔ u ≠ 0
  up : goesUp rm neg k u → (roundAt rm neg m e q).1 = k + 1
  down : ¬goesUp rm neg k u → (roundAt rm neg m e q).1 = k

theorem exists_rounds (rm : RMode) (neg : Bool) (m : ℕ) (e q : ℤ) : ∃ k u, Rounds rm neg m e q k u := by
  obtain ⟨r, n, hr, hx, hrest⟩ := floorTo_add_rest m e q
  have hn : (0 : ℚ) < n := by exact_mod_cast Nat.zero_lt_of_lt hr
  have hne : ((r : ℚ) / n ≠ 0) ↔ r ≠ 0 := by simp [hn.ne']
  have hlt : (1 / 2 < (r : ℚ) / n) ↔ n < 2 * r := by
    rw [div_lt_div_iff₀ two_pos hn, one_mul, mul_comm (r : ℚ)]; exact_mod_cast Iff.rfl
  have heq : ((r : ℚ) / n = 1 / 2) ↔ 2 * r = n := by
    rw [div_eq_div_iff hn.ne' two_ne_zero, one_mul, mul_comm (r : ℚ)]; exact_mod_cast Iff.rfl
  have hround : goesUp rm neg (floorTo m e q) (r / n) ∧ (roundAt rm neg m e q).1 = floorTo m e q + 1 ∨
      ¬goesUp rm neg (floorTo m e q) (r / n) ∧ (roundAt rm neg m e q).1 = floorTo m e q := by
    unfold roundAt goesUp
    rw [hrest]
    cases rm
    · simp only [hlt, heq, Bool.or_eq_true, Bool.and_eq_true, beq_iff_eq, compare_gt_iff_gt, compare_eq_iff_eq]
      split <;> simp_all
    · simp
    · simp only [hne, Bool.and_eq_true, decide_eq_true_eq, Bool.not_eq_true']
      split <;> simp_all
    · simp only [hne, Bool.and_eq_true, decide_eq_true_eq]
      split <;> simp_all
  exact ⟨floorTo m e q, r / n, by positivity, (div_lt_one hn).2 (by exact_mod_cast hr), hx, by simp [roundAt, hrest, hne],
    fun h => hround.elim (·.2) fun h' => absurd h h'.1, fun h => hround.elim (fun h' => absurd h'.1 h) (·.2)⟩

variable {rm : RMode} {neg : Bool} {m : ℕ} {e q : ℤ} {k : ℕ} {u : ℚ}

/-- It is inexact where m × 2^e is no multiple of 2^q. -/
theorem Rounds.inexact_iff (h : Rounds rm neg m e q k u) :
    (roundAt rm neg m e q).2 = true ↔ ∀ j : ℕ, (j : ℚ) ≠ (m : ℚ) * 2 ^ (e - q) := by
  rw [h.inexact, h.value]
  refine ⟨fun hu j hj => ?_, fun hj hu => hj k (by rw [hu, add_zero])⟩
  have hlt : (j : ℚ) < (k + 1 : ℕ) := by push_cast; linarith [h.lt_one]
  have hge : (k : ℚ) ≤ j := by linarith [h.nonneg]
  have : j = k := le_antisymm (Nat.lt_succ_iff.mp (by exact_mod_cast hlt)) (by exact_mod_cast hge)
  exact hu (by rw [this] at hj; linarith)

/-- A mode that never goes up gives the multiple below. -/
theorem Rounds.below (h : Rounds rm neg m e q k u) (hd : ¬goesUp rm neg k u) :
    ((roundAt rm neg m e q).1 : ℚ) ≤ (m : ℚ) * 2 ^ (e - q) ∧ (m : ℚ) * 2 ^ (e - q) < (roundAt rm neg m e q).1 + 1 := by
  rw [h.down hd, h.value]
  exact ⟨by linarith [h.nonneg], by linarith [h.lt_one]⟩

/-- A mode that goes up wherever something is left over gives the multiple above. -/
theorem Rounds.above (h : Rounds rm neg m e q k u) (hu : goesUp rm neg k u ↔ u ≠ 0) :
    (m : ℚ) * 2 ^ (e - q) ≤ (roundAt rm neg m e q).1 ∧ ((roundAt rm neg m e q).1 : ℚ) < (m : ℚ) * 2 ^ (e - q) + 1 := by
  rw [h.value]
  rcases eq_or_ne u 0 with h0 | h0
  · rw [h.down (by rw [hu, not_not]; exact h0), h0]
    exact ⟨by linarith, by linarith⟩
  · have hpos : 0 < u := lt_of_le_of_ne h.nonneg h0.symm
    rw [h.up (hu.2 h0)]
    push_cast
    exact ⟨by linarith [h.lt_one], by linarith⟩

/-- Round to nearest gives a multiple within a half, and an even one where another is as near. -/
theorem Rounds.nearest (h : Rounds .rne neg m e q k u) :
    |((roundAt .rne neg m e q).1 : ℚ) - (m : ℚ) * 2 ^ (e - q)| ≤ 1 / 2 ∧
      (|((roundAt .rne neg m e q).1 : ℚ) - (m : ℚ) * 2 ^ (e - q)| = 1 / 2 → (roundAt .rne neg m e q).1 % 2 = 0) := by
  rw [h.value]
  by_cases hup : goesUp .rne neg k u
  · have hu : 1 / 2 ≤ u := hup.elim le_of_lt fun h => h.1.ge
    have e : ((k + 1 : ℕ) : ℚ) - (k + u) = 1 - u := by push_cast; ring
    rw [h.up hup, e, abs_of_pos (sub_pos.2 h.lt_one)]
    refine ⟨by linarith, fun hu => ?_⟩
    have hodd := (hup.resolve_left (by linarith)).2
    omega
  · have hu : u ≤ 1 / 2 := not_lt.mp fun h => hup (.inl h)
    have e : (k : ℚ) - (k + u) = -u := by ring
    rw [h.down hup, e, abs_neg, abs_of_nonneg h.nonneg]
    refine ⟨hu, fun hu => ?_⟩
    have heven : ¬k % 2 = 1 := fun hk => hup (.inr ⟨hu, hk⟩)
    omega

theorem roundingIsDirected : Claim.RoundingIsDirected := by
  intro rm neg m e q
  obtain ⟨k, u, h⟩ := exists_rounds rm neg m e q
  refine ⟨h.inexact_iff, ?_, ?_, ?_, ?_⟩
  · rintro rfl
    exact h.below id
  · rintro rfl
    cases neg
    · exact h.above (by simp [goesUp])
    · exact h.below (by simp [goesUp])
  · rintro rfl
    cases neg
    · exact h.below (by simp [goesUp])
    · exact h.above (by simp [goesUp])
  · rintro rfl
    exact h.nearest

/-- Settles O22: the fraction that is left over decides how a mode rounds, and sums and products of exact values are exact. -/
theorem roundingIsExactOrDirected : Obligations.RoundingIsExactOrDirected := ⟨roundingIsDirected, exactSumsAndProducts⟩

end Sys2Proof.Machine
end


section
/-! The values of a floating-point format and the rounding to them (R120, R128), for O21. -/

namespace Sys2Proof.Machine

/-- A format with infinities and NaNs in its top exponent, as FP64, FP32, FP16 and BF16 are (R120 Table 1). -/
structure IeeeFmt (f : Fmt) : Prop where
  kind : f.kind = .ieee
  frac : 1 ≤ f.fb
  expo : 2 ≤ f.eb

theorem ieeeFmt_of_isF {t : VType} (h : t.isF = true) : IeeeFmt t.fmt := by
  cases t
  case f64 | f32 | f16 | bf16 => exact ⟨rfl, by decide, by decide⟩
  all_goals cases h

theorem four_le_pow_eb {f : Fmt} (hf : IeeeFmt f) : 4 ≤ 2 ^ f.eb := Nat.pow_le_pow_right two_pos hf.expo

/-! ## Powers of two -/

theorem zpow_fb (n : ℕ) (q : ℤ) : (2 : ℚ) ^ n * 2 ^ q = 2 ^ (n + q) := by
  rw [zpow_add₀ two_ne_zero, zpow_natCast]

/-- A comparison of two exact magnitudes. -/
theorem magLe_iff (k : ℕ) (q : ℤ) (m : ℕ) (e : ℤ) : magLe k q m e = true ↔ (k : ℚ) * 2 ^ q ≤ m * 2 ^ e := by
  unfold magLe
  split
  · rename_i h
    rw [decide_eq_true_eq, ← Nat.cast_le (α := ℚ), Nat.cast_mul, two_zpow_toNat h, zpow_sub₀ two_ne_zero, ← mul_div_assoc,
      le_div_iff₀ (two_zpow_pos q)]
  · rename_i h
    rw [decide_eq_true_eq, ← Nat.cast_le (α := ℚ), Nat.cast_mul, two_zpow_toNat (by omega), zpow_sub₀ two_ne_zero, ← mul_div_assoc,
      div_le_iff₀ (two_zpow_pos e)]

/-- A magnitude lies between the powers of two that its exponent names. -/
theorem expOf_bounds {m : ℕ} (hm : m ≠ 0) (e : ℤ) : (2 : ℚ) ^ expOf m e ≤ m * 2 ^ e ∧ (m : ℚ) * 2 ^ e < 2 ^ (expOf m e + 1) := by
  have hlo : ((2 ^ m.log2 : ℕ) : ℚ) ≤ m := by exact_mod_cast Nat.log2_self_le hm
  have hhi : (m : ℚ) < ((2 ^ (m.log2 + 1) : ℕ) : ℚ) := by exact_mod_cast Nat.lt_log2_self
  rw [Nat.cast_pow, Nat.cast_ofNat] at hlo hhi
  have he := two_zpow_pos e
  unfold expOf
  constructor
  · rw [← zpow_fb]
    exact mul_le_mul_of_nonneg_right hlo he.le
  · rw [show (m.log2 : ℤ) + e + 1 = ((m.log2 + 1 : ℕ) : ℤ) + e by push_cast; ring, ← zpow_fb]
    exact mul_lt_mul_of_pos_right hhi he

/-! ## Encodings and their values -/

/-- The finite number with exponent field `E` and fraction field `F`. -/
def fieldsVal (f : Fmt) (neg : Bool) (E F : ℕ) : Dy :=
  if E = 0 then { neg := neg, m := F, e := f.emin - f.fb } else { neg := neg, m := 2 ^ f.fb + F, e := (E : ℤ) - f.bias - f.fb }

/-- What an encoding of the three fields says (R120). -/
theorem val_fields {f : Fmt} (hf : IeeeFmt f) (neg : Bool) {E F : ℕ} (hE : E < 2 ^ f.eb - 1) (hF : F < 2 ^ f.fb) :
    f.val (f.signOf neg + (E * 2 ^ f.fb + F)) = .num (fieldsVal f neg E F) := by
  have hS : f.signOf neg = 2 ^ f.fb * (2 ^ f.eb * neg.toNat) := by
    cases neg <;> simp [Fmt.signOf, Fmt.signBit, Nat.pow_add]
  have hx : f.signOf neg + (E * 2 ^ f.fb + F) = 2 ^ f.fb * (2 ^ f.eb * neg.toNat + E) + F := by rw [hS]; ring
  have hfrac : (f.signOf neg + (E * 2 ^ f.fb + F)) % 2 ^ f.fb = F := by
    rw [hx, Nat.mul_add_mod, Nat.mod_eq_of_lt hF]
  have hdiv : (f.signOf neg + (E * 2 ^ f.fb + F)) / 2 ^ f.fb = 2 ^ f.eb * neg.toNat + E := by
    rw [hx, Nat.mul_add_div (Nat.two_pow_pos _), Nat.div_eq_of_lt hF, Nat.add_zero]
  have hex : (2 ^ f.eb * neg.toNat + E) % 2 ^ f.eb = E := by
    rw [Nat.mul_add_mod, Nat.mod_eq_of_lt (by omega)]
  have hsign : decide ((f.signOf neg + (E * 2 ^ f.fb + F)) / f.signBit % 2 = 1) = neg := by
    rw [Fmt.signBit, Nat.pow_add, ← Nat.div_div_eq_div_mul, hdiv, Nat.mul_add_div (Nat.two_pow_pos _), Nat.div_eq_of_lt (by omega)]
    cases neg <;> rfl
  unfold Fmt.val fieldsVal
  simp only [hfrac, hdiv, hex, hsign, hf.kind]
  rw [if_neg (by omega)]
  split <;> rfl

/-- A finite value is a whole multiple of a power of two at or above that of the subnormal numbers, with at most `fb + 1` bits. -/
theorem finite_of_val {f : Fmt} (hf : IeeeFmt f) {w : ℕ} {d : Dy} (h : f.val w = .num d) :
    f.emin - f.fb ≤ d.e ∧ d.m < 2 ^ (f.fb + 1) := by
  have hfrac : w % 2 ^ f.fb < 2 ^ f.fb := Nat.mod_lt _ (Nat.two_pow_pos _)
  have hpow : 2 ^ (f.fb + 1) = 2 * 2 ^ f.fb := Nat.pow_succ'
  unfold Fmt.val at h
  simp only [hf.kind] at h
  split at h
  · split at h <;> cases h
  · split at h
    · cases h; exact ⟨le_rfl, by simp only; omega⟩
    · cases h
      refine ⟨?_, by simp only; omega⟩
      simp only [Fmt.emin]
      omega

/-- The largest finite magnitude. -/
theorem maxMag_eq {f : Fmt} (hf : IeeeFmt f) : f.maxMag = (2 ^ (f.fb + 1) - 1, (2 ^ f.eb - 2 : ℕ) - (f.bias : ℤ) - f.fb) := by
  have h4 := four_le_pow_eb hf
  have hpos := Nat.two_pow_pos f.fb
  have hpow : 2 ^ (f.fb + 1) = 2 * 2 ^ f.fb := Nat.pow_succ'
  have hbits : f.maxBits = f.signOf false + ((2 ^ f.eb - 2) * 2 ^ f.fb + (2 ^ f.fb - 1)) := by
    obtain ⟨n, hn⟩ := Nat.exists_eq_add_of_le h4
    simp only [Fmt.maxBits, hf.kind, Fmt.signOf, hn]
    rw [show 4 + n - 1 = n + 2 + 1 by omega, show 4 + n - 2 = n + 2 by omega, Nat.add_one_mul]
    simp only [Bool.false_eq_true, if_false]
    omega
  have hval := val_fields hf false (E := 2 ^ f.eb - 2) (F := 2 ^ f.fb - 1) (by omega) (by omega)
  rw [← hbits, fieldsVal, if_neg (by omega)] at hval
  unfold Fmt.maxMag
  rw [hval]
  simp only [Prod.mk.injEq, and_true]
  omega

/-- The magnitude `k` × 2^q is one that a rounding delivers: `k` has `fb + 1` bits or is the power of two above, or it lies below the
normal numbers. -/
structure Rounded (f : Fmt) (k : ℕ) (q : ℤ) : Prop where
  low : f.emin - f.fb ≤ q
  bits : k ≤ 2 ^ (f.fb + 1)
  normal : 2 ^ f.fb ≤ k ∨ q = f.emin - f.fb

/-- The encoding of a rounded magnitude that is not beyond the largest finite one: its fields, of that value, and with the parity of
the magnitude's last bit where that is even. -/
theorem encode_fields {f : Fmt} (hf : IeeeFmt f) {k : ℕ} {q : ℤ} (h : Rounded f k q)
    (hmax : magLe k q f.maxMag.1 f.maxMag.2 = true) : ∃ E F, E < 2 ^ f.eb - 1 ∧ F < 2 ^ f.fb ∧ f.encode k q = E * 2 ^ f.fb + F ∧
      (∀ neg, ratOf (fieldsVal f neg E F) = signed2 neg (k * 2 ^ q)) ∧ (k % 2 = 0 → F % 2 = 0) := by
  obtain ⟨hlow, hbits, hnormal⟩ := h
  have h4 := four_le_pow_eb hf
  have hpos := Nat.two_pow_pos f.fb
  have hpow : 2 ^ (f.fb + 1) = 2 * 2 ^ f.fb := Nat.pow_succ'
  have heven : 2 ^ f.fb % 2 = 0 := by
    obtain ⟨n, hn⟩ := Nat.exists_eq_add_of_le hf.frac
    rw [hn, Nat.add_comm, Nat.pow_succ]; omega
  -- the exponent stays below that of the infinities
  have htop {n : ℕ} (hn : 2 ^ n ≤ k) : (n : ℤ) + q < (2 ^ f.eb - 2 : ℕ) - (f.bias : ℤ) + 1 := by
    rw [maxMag_eq hf, magLe_iff] at hmax
    have h1 : (2 : ℚ) ^ ((n : ℤ) + q) ≤ k * 2 ^ q := by
      rw [← zpow_fb]
      exact mul_le_mul_of_nonneg_right (by exact_mod_cast hn) (two_zpow_pos q).le
    have h2 : ((2 ^ (f.fb + 1) - 1 : ℕ) : ℚ) < 2 ^ (f.fb + 1) := by
      exact_mod_cast Nat.sub_lt (Nat.two_pow_pos _) one_pos
    have h3 := mul_lt_mul_of_pos_right h2 (two_zpow_pos ((2 ^ f.eb - 2 : ℕ) - (f.bias : ℤ) - f.fb))
    rw [zpow_fb] at h3
    have h5 := (zpow_lt_zpow_iff_right₀ (one_lt_two (α := ℚ))).1 ((h1.trans hmax).trans_lt h3)
    push_cast at h5 ⊢
    omega
  have hvalue (neg : Bool) {E F : ℕ} (hE : E ≠ 0) (hv : ((2 ^ f.fb + F : ℕ) : ℚ) * 2 ^ ((E : ℤ) - f.bias - f.fb) = k * 2 ^ q) :
      ratOf (fieldsVal f neg E F) = signed2 neg (k * 2 ^ q) := by
    rw [fieldsVal, if_neg hE, ratOf_eq, ← hv]
  unfold Fmt.encode
  by_cases hk0 : k = 0
  · subst hk0
    exact ⟨0, 0, by omega, hpos, by simp, fun neg => by simp [fieldsVal, ratOf_eq], by simp⟩
  rw [if_neg hk0]
  have hbias : f.emin = 1 - (f.bias : ℤ) := rfl
  by_cases hsub : k < 2 ^ f.fb
  · -- a subnormal number
    obtain rfl : q = f.emin - f.fb := hnormal.resolve_left (by omega)
    have hlog : k.log2 < f.fb := (Nat.log2_lt hk0).2 hsub
    refine ⟨0, k, by omega, hsub, ?_, fun neg => by rw [fieldsVal, if_pos rfl, ratOf_eq], id⟩
    rw [if_pos (by unfold expOf; omega), floorTo, if_pos le_rfl]
    simp
  by_cases hcarry : k = 2 ^ (f.fb + 1)
  · -- the rounding carried into the next power of two
    have hlog : k.log2 = f.fb + 1 := by rw [hcarry, Nat.log2_two_pow]
    have hE := htop (n := f.fb + 1) hcarry.ge
    have hexp : expOf k q = q + 1 + f.fb := by unfold expOf; rw [hlog]; push_cast; ring
    rw [hexp, if_neg (by omega), show q + 1 + (f.fb : ℤ) - f.fb = q + 1 by ring, floorTo, if_neg (by omega), show (q + 1 - q).toNat = 1 by omega]
    refine ⟨(q + 1 + f.fb + f.bias).toNat, 0, by omega, hpos, ?_, fun neg => hvalue neg (by omega) ?_, fun _ => rfl⟩
    · rw [hcarry, hpow]; omega
    · rw [Int.toNat_of_nonneg (by omega), hcarry, hpow]
      push_cast
      rw [show q + 1 + (f.fb : ℤ) + f.bias - f.bias - f.fb = 1 + q by ring, zpow_add₀ two_ne_zero]
      ring
  · -- a normal number
    have hlog : k.log2 = f.fb := (Nat.log2_eq_iff hk0).2 ⟨by omega, by omega⟩
    have hE := htop (n := f.fb) (by omega)
    have hexp : expOf k q = q + f.fb := by unfold expOf; rw [hlog]; ring
    rw [hexp, if_neg (by omega), show q + (f.fb : ℤ) - f.fb = q by ring, floorTo, if_pos le_rfl]
    refine ⟨(q + f.fb + f.bias).toNat, k - 2 ^ f.fb, by omega, by omega, by simp, fun neg => hvalue neg (by omega) ?_, fun _ => by omega⟩
    rw [Int.toNat_of_nonneg (by omega), Nat.add_sub_cancel' (by omega), show q + (f.fb : ℤ) + f.bias - f.bias - f.fb = q by ring]

/-! ## The rounding to a format -/

/-- A mode goes up only where something is left over. -/
theorem ne_zero_of_goesUp {rm : RMode} {neg : Bool} {k : ℕ} {u : ℚ} (h : goesUp rm neg k u) : u ≠ 0 := by
  cases rm
  case rne => rintro rfl; norm_num [goesUp] at h
  case rtz => exact h.elim
  case rup | rdn => exact h.1

/-- A rounding stays between whole numbers that its magnitude lies between. -/
theorem roundAt_between (rm : RMode) (neg : Bool) (m : ℕ) (e q : ℤ) {a b : ℕ} (ha : (a : ℚ) ≤ m * 2 ^ (e - q))
    (hb : (m : ℚ) * 2 ^ (e - q) ≤ b) : a ≤ (roundAt rm neg m e q).1 ∧ (roundAt rm neg m e q).1 ≤ b := by
  obtain ⟨k, u, h⟩ := exists_rounds rm neg m e q
  rw [h.value] at ha hb
  have hak : a < k + 1 := by
    have : (a : ℚ) < (k + 1 : ℕ) := by push_cast; linarith [h.lt_one]
    exact_mod_cast this
  by_cases hup : goesUp rm neg k u
  · have hpos := lt_of_le_of_ne h.nonneg (ne_zero_of_goesUp hup).symm
    have hkb : k < b := by
      have : (k : ℚ) < b := by linarith
      exact_mod_cast this
    rw [h.up hup]; omega
  · have hkb : k ≤ b := by
      have : (k : ℚ) ≤ b := by linarith [h.nonneg]
      exact_mod_cast this
    rw [h.down hup]; omega

/-- The exponent of the last bit that a rounding to a format keeps. -/
def lastBit (f : Fmt) (m : ℕ) (e : ℤ) : ℤ := max (expOf m e - f.fb) (f.emin - f.fb)

/-- The magnitude in units of a bit, between powers of two. -/
theorem scaled_bounds {m : ℕ} (hm : m ≠ 0) (e q : ℤ) :
    (2 : ℚ) ^ (expOf m e - q) ≤ m * 2 ^ (e - q) ∧ (m : ℚ) * 2 ^ (e - q) < 2 ^ (expOf m e + 1 - q) := by
  obtain ⟨h1, h2⟩ := expOf_bounds hm e
  have hq := two_zpow_pos q
  have h : (m : ℚ) * 2 ^ (e - q) = m * 2 ^ e / 2 ^ q := by rw [zpow_sub₀ two_ne_zero, mul_div_assoc]
  rw [h, zpow_sub₀ two_ne_zero, zpow_sub₀ two_ne_zero]
  exact ⟨(div_le_div_iff_of_pos_right hq).2 h1, (div_lt_div_iff_of_pos_right hq).2 h2⟩

theorem magLe_emin_max {f : Fmt} (hf : IeeeFmt f) : (2 : ℚ) ^ f.emin ≤ f.maxMag.1 * 2 ^ f.maxMag.2 := by
  have h4 := four_le_pow_eb hf
  have hpos := Nat.two_pow_pos f.fb
  have hpow : 2 ^ (f.fb + 1) = 2 * 2 ^ f.fb := Nat.pow_succ'
  rw [maxMag_eq hf]
  have h1 : ((2 : ℚ) ^ f.fb) ≤ ((2 ^ (f.fb + 1) - 1 : ℕ) : ℚ) := by
    exact_mod_cast (show 2 ^ f.fb ≤ 2 ^ (f.fb + 1) - 1 by omega)
  calc (2 : ℚ) ^ f.emin ≤ 2 ^ ((f.fb : ℤ) + ((2 ^ f.eb - 2 : ℕ) - (f.bias : ℤ) - f.fb)) :=
        zpow_le_zpow_right₀ one_le_two (by unfold Fmt.emin; omega)
    _ = 2 ^ f.fb * 2 ^ ((2 ^ f.eb - 2 : ℕ) - (f.bias : ℤ) - f.fb) := (zpow_fb _ _).symm
    _ ≤ _ := mul_le_mul_of_nonneg_right h1 (two_zpow_pos _).le

/-- The rounding of a magnitude to a format: beyond the largest finite value, or the multiple of the last bit that the mode gives,
which the format holds, and inexact where that rounding is (R128, R130). -/
theorem round_cases {f : Fmt} (hf : IeeeFmt f) (rm : RMode) (sat neg : Bool) {m : ℕ} (hm : m ≠ 0) (e : ℤ) :
    f.round rm false sat neg m e = { bits := f.beyond rm sat neg, flags := flagOF ||| flagNX } ∨
    (Rounded f (roundAt rm neg m e (lastBit f m e)).1 (lastBit f m e) ∧
      magLe (roundAt rm neg m e (lastBit f m e)).1 (lastBit f m e) f.maxMag.1 f.maxMag.2 = true ∧
      (f.round rm false sat neg m e).bits = f.signOf neg + f.encode (roundAt rm neg m e (lastBit f m e)).1 (lastBit f m e) ∧
      ((f.round rm false sat neg m e).flags &&& flagNX = 0 ↔ (roundAt rm neg m e (lastBit f m e)).2 = false)) := by
  obtain ⟨hlo, hhi⟩ := scaled_bounds hm e (expOf m e - f.fb)
  rw [sub_sub_cancel, zpow_natCast] at hlo
  rw [show expOf m e + 1 - (expOf m e - f.fb) = ((f.fb + 1 : ℕ) : ℤ) by push_cast; ring, zpow_natCast] at hhi
  have hku := roundAt_between rm neg m e (expOf m e - f.fb) (a := 2 ^ f.fb) (b := 2 ^ (f.fb + 1)) (by exact_mod_cast hlo)
    (by exact_mod_cast hhi.le)
  have hnx1 : flagNX &&& flagNX ≠ 0 := by decide
  have hnx2 : (flagUF ||| flagNX) &&& flagNX ≠ 0 := by decide
  have hflags (b : Bool) {x : Flags} (hx : x &&& flagNX ≠ 0) : (if b = true then x else 0) &&& flagNX = 0 ↔ b = false := by
    cases b
    · simp
    · simpa using hx
  unfold Fmt.round
  rw [if_neg hm]
  dsimp only
  by_cases hmax : magLe (roundAt rm neg m e (expOf m e - f.fb)).1 (expOf m e - f.fb) f.maxMag.1 f.maxMag.2 = true
  swap
  · exact .inl (if_pos (by simpa using hmax))
  refine .inr ?_
  rw [if_neg (by simpa using hmax)]
  by_cases hex : expOf m e < f.emin
  · -- below the normal numbers
    have hq : lastBit f m e = f.emin - f.fb := max_eq_right (by omega)
    obtain ⟨-, hs⟩ := scaled_bounds hm e (f.emin - f.fb)
    have hs2 : (2 : ℚ) ^ (expOf m e + 1 - (f.emin - f.fb)) ≤ 2 ^ f.fb := by
      rw [← zpow_natCast]
      exact zpow_le_zpow_right₀ one_le_two (by omega)
    have hk := (roundAt_between rm neg m e (f.emin - f.fb) (a := 0) (b := 2 ^ f.fb) (by positivity)
      (by exact_mod_cast (hs.trans_le hs2).le)).2
    have hqmax : max (expOf m e - f.fb) (f.emin - f.fb) = f.emin - f.fb := hq
    rw [hq, hqmax]
    refine ⟨⟨le_rfl, hk.trans (Nat.pow_le_pow_right two_pos (Nat.le_succ _)), .inr rfl⟩, ?_, ?_⟩
    · rw [magLe_iff]
      refine le_trans ?_ (magLe_emin_max hf)
      have h1 : ((roundAt rm neg m e (f.emin - f.fb)).1 : ℚ) ≤ 2 ^ f.fb := by exact_mod_cast hk
      refine (mul_le_mul_of_nonneg_right h1 (two_zpow_pos _).le).trans_eq ?_
      rw [zpow_fb, add_sub_cancel]
    · by_cases htiny : magLe 1 f.emin (roundAt rm neg m e (expOf m e - f.fb)).1 (expOf m e - f.fb) = true
      · rw [htiny]
        simp only [Bool.not_true, Bool.false_eq_true, if_false, if_pos hex]
        exact ⟨trivial, hflags _ hnx1⟩
      · rw [eq_false_of_ne_true htiny]
        exact ⟨rfl, hflags _ hnx2⟩
  · have hq : lastBit f m e = expOf m e - f.fb := max_eq_left (by omega)
    have hqmax : max (expOf m e - f.fb) (f.emin - f.fb) = expOf m e - f.fb := hq
    have htiny : magLe 1 f.emin (roundAt rm neg m e (expOf m e - f.fb)).1 (expOf m e - f.fb) = true := by
      rw [magLe_iff, Nat.cast_one, one_mul]
      have h1 : (2 : ℚ) ^ f.fb ≤ (roundAt rm neg m e (expOf m e - f.fb)).1 := by exact_mod_cast hku.1
      calc (2 : ℚ) ^ f.emin ≤ 2 ^ ((f.fb : ℤ) + (expOf m e - f.fb)) := zpow_le_zpow_right₀ one_le_two (by omega)
        _ = 2 ^ f.fb * 2 ^ (expOf m e - f.fb) := (zpow_fb _ _).symm
        _ ≤ _ := mul_le_mul_of_nonneg_right h1 (two_zpow_pos _).le
    rw [hq, hqmax, htiny]
    simp only [Bool.not_true, Bool.false_eq_true, if_false, if_neg hex]
    exact ⟨⟨by omega, hku.2, .inl hku.1⟩, hmax, trivial, hflags _ hnx1⟩

end Sys2Proof.Machine
end


section
/-! A rounded result is the nearest value of its format (R128), for O21. -/

namespace Sys2Proof.Machine

theorem scaled_eq (m : ℕ) (e q : ℤ) : (m : ℚ) * 2 ^ e = m * 2 ^ (e - q) * 2 ^ q := by
  rw [mul_assoc, ← zpow_add₀ two_ne_zero, sub_add_cancel]

/-- A rounding says that it is exact where it gives the magnitude itself. -/
theorem rounding_exact_iff (rm : RMode) (neg : Bool) (m : ℕ) (e q : ℤ) :
    (roundAt rm neg m e q).2 = false ↔ ((roundAt rm neg m e q).1 : ℚ) = m * 2 ^ (e - q) := by
  obtain ⟨k, u, h⟩ := exists_rounds rm neg m e q
  constructor
  · intro hex
    have hu : u = 0 := by
      by_contra hu
      rw [h.inexact.2 hu] at hex
      cases hex
    rw [h.down fun hup => ne_zero_of_goesUp hup hu, h.value, hu, add_zero]
  · intro heq
    rw [← Bool.not_eq_true, h.inexact_iff]
    exact fun hne => hne _ heq

/-- A magnitude rounded to nearest lies no farther from the exact one than any whole number does, and is even or that number where it
lies as far. -/
theorem nearest_whole (neg : Bool) (m : ℕ) (e q : ℤ) (j : ℤ) :
    |((roundAt .rne neg m e q).1 : ℚ) - m * 2 ^ (e - q)| ≤ |(j : ℚ) - m * 2 ^ (e - q)| ∧
      (|((roundAt .rne neg m e q).1 : ℚ) - m * 2 ^ (e - q)| = |(j : ℚ) - m * 2 ^ (e - q)| →
        ((roundAt .rne neg m e q).1 : ℤ) = j ∨ (roundAt .rne neg m e q).1 % 2 = 0) := by
  obtain ⟨k, u, h⟩ := exists_rounds .rne neg m e q
  obtain ⟨hhalf, heven⟩ := h.nearest
  generalize (roundAt .rne neg m e q).1 = n at hhalf heven
  generalize (m : ℚ) * 2 ^ (e - q) = x at hhalf heven
  rcases eq_or_ne (n : ℤ) j with hj | hj
  · have hj' : (n : ℚ) = j := by exact_mod_cast hj
    rw [hj']
    exact ⟨le_rfl, fun _ => .inl hj⟩
  have hone : (1 : ℚ) ≤ |(n : ℚ) - j| := by
    have := Int.one_le_abs (sub_ne_zero.2 hj)
    exact_mod_cast this
  have htri := abs_sub_le (n : ℚ) x j
  rw [abs_sub_comm x] at htri
  refine ⟨by linarith, fun heq => .inr (heven (by linarith))⟩

/-- The last bit of an encoding is that of its fraction field. -/
theorem fields_even {f : Fmt} (hf : IeeeFmt f) (neg : Bool) (E : ℕ) {F : ℕ} (hF : F % 2 = 0) :
    (f.signOf neg + (E * 2 ^ f.fb + F)) % 2 = 0 := by
  obtain ⟨n, hn⟩ := Nat.exists_eq_add_of_le hf.frac
  have hS : f.signOf neg % 2 = 0 := by
    cases neg
    · rfl
    · simp only [Fmt.signOf, Fmt.signBit, if_true, hn, show 1 + n + f.eb = n + f.eb + 1 by omega, Nat.pow_succ, Nat.mul_mod_left]
  have hE : E * 2 ^ f.fb % 2 = 0 := by
    rw [hn, Nat.add_comm 1, Nat.pow_succ, ← Nat.mul_assoc, Nat.mul_mod_left]
  omega

theorem signed2_sub (neg : Bool) (x y : ℚ) : |signed2 neg x - signed2 neg y| = |x - y| := by
  cases neg
  · rfl
  · simp only [signed2, if_true]
    rw [← neg_sub', abs_neg]

theorem abs_signed2 (neg : Bool) (x : ℚ) : |signed2 neg x| = |x| := by
  cases neg
  · rfl
  · exact abs_neg x

/-- A finite value that is no multiple of the last bit that the rounding of a magnitude keeps lies below the least magnitude of as many
bits. -/
theorem finer_is_smaller {f : Fmt} (hf : IeeeFmt f) {w : ℕ} {d : Dy} (hd : f.val w = .num d) {m : ℕ} {e : ℤ} (h : d.e < lastBit f m e) :
    lastBit f m e = expOf m e - f.fb ∧ |ratOf d| < 2 ^ f.fb * 2 ^ lastBit f m e := by
  obtain ⟨hlow, hbits⟩ := finite_of_val hf hd
  refine ⟨max_eq_left (by unfold lastBit at h; omega), ?_⟩
  have hb : (d.m : ℚ) < 2 ^ (f.fb + 1) := by exact_mod_cast hbits
  rw [ratOf_eq, abs_signed2, abs_of_nonneg (mul_nonneg (Nat.cast_nonneg _) (two_zpow_pos _).le)]
  calc (d.m : ℚ) * 2 ^ d.e < 2 ^ (f.fb + 1) * 2 ^ d.e := mul_lt_mul_of_pos_right hb (two_zpow_pos _)
    _ = 2 ^ (((f.fb + 1 : ℕ) : ℤ) + d.e) := zpow_fb _ _
    _ ≤ 2 ^ ((f.fb : ℤ) + lastBit f m e) := zpow_le_zpow_right₀ one_le_two (by push_cast; omega)
    _ = _ := (zpow_fb _ _).symm

/-- A finite value whose exponent is at or above another is a whole multiple of that power of two. -/
theorem whole_multiple {d : Dy} {q : ℤ} (h : q ≤ d.e) : ratOf d = (d.at q : ℚ) * 2 ^ q := by
  rw [at_eq_ratOf d h, div_mul_cancel₀ _ (two_zpow_pos q).ne']

/-- No finite value of a format lies nearer to ±m × 2^e than its rounding to nearest at the last bit that the format keeps, and where
one lies as near the rounding's last bit is 0 or it is that value. -/
theorem rounding_nearest {f : Fmt} (hf : IeeeFmt f) (neg : Bool) {m : ℕ} (hm : m ≠ 0) (e : ℤ) {w : ℕ} {d : Dy} (hd : f.val w = .num d) :
    let k := (roundAt .rne neg m e (lastBit f m e)).1
    let r := signed2 neg (k * 2 ^ lastBit f m e)
    let x := signed2 neg (m * 2 ^ e)
    |r - x| ≤ |ratOf d - x| ∧ (|r - x| = |ratOf d - x| → r = ratOf d ∨ k % 2 = 0) := by
  intro k r x
  have hq := two_zpow_pos (lastBit f m e)
  have hX := scaled_eq m e (lastBit f m e)
  have hr : |r - x| = |(k : ℚ) - m * 2 ^ (e - lastBit f m e)| * 2 ^ lastBit f m e := by
    rw [signed2_sub, hX, ← sub_mul, abs_mul, abs_of_pos hq]
  rw [hr]
  by_cases hfine : d.e < lastBit f m e
  · -- a finer value is farther off than the least magnitude of as many bits
    obtain ⟨hlast, hsmall⟩ := finer_is_smaller hf hd hfine
    have hlo := (scaled_bounds hm e (lastBit f m e)).1
    rw [show expOf m e - lastBit f m e = (f.fb : ℤ) by omega, zpow_natCast] at hlo
    have hnear := (nearest_whole neg m e (lastBit f m e) (2 ^ f.fb : ℕ)).1
    push_cast at hnear
    rw [abs_sub_comm (2 ^ f.fb : ℚ), abs_of_nonneg (sub_nonneg.2 hlo)] at hnear
    have hfar : (m * 2 ^ (e - lastBit f m e) - 2 ^ f.fb) * 2 ^ lastBit f m e < |ratOf d - x| := by
      have hx : |x| = m * 2 ^ (e - lastBit f m e) * 2 ^ lastBit f m e := by
        rw [← hX]
        exact (abs_signed2 _ _).trans (abs_of_nonneg (mul_nonneg (Nat.cast_nonneg _) (two_zpow_pos _).le))
      have htri := abs_sub_abs_le_abs_sub x (ratOf d)
      rw [abs_sub_comm x] at htri
      linarith [sub_mul ((m : ℚ) * 2 ^ (e - lastBit f m e)) (2 ^ f.fb) (2 ^ lastBit f m e)]
    have hlt := (mul_le_mul_of_nonneg_right hnear hq.le).trans_lt hfar
    exact ⟨hlt.le, fun heq => absurd heq hlt.ne⟩
  · -- any other is a whole multiple of the last bit
    obtain ⟨j, hj⟩ : ∃ j : ℤ, ratOf d = signed2 neg (j * 2 ^ lastBit f m e) := by
      have hwhole := whole_multiple (not_lt.1 hfine)
      cases neg
      · exact ⟨_, hwhole⟩
      · exact ⟨-d.at (lastBit f m e), by rw [hwhole]; simp [signed2]⟩
    have hd' : |ratOf d - x| = |(j : ℚ) - m * 2 ^ (e - lastBit f m e)| * 2 ^ lastBit f m e := by
      rw [hj, signed2_sub, hX, ← sub_mul, abs_mul, abs_of_pos hq]
    obtain ⟨hle, htie⟩ := nearest_whole neg m e (lastBit f m e) j
    rw [hd', mul_le_mul_iff_left₀ hq, mul_left_inj' hq.ne']
    refine ⟨hle, fun heq => (htie heq).imp_left fun hk => ?_⟩
    have hk' : (k : ℚ) = j := by exact_mod_cast hk
    rw [hj, ← hk']

/-- Settles O21: a result that does not overflow is the magnitude rounded at the last bit that its format keeps, and every other value
of the format is a whole multiple of that bit or too small. -/
theorem resultsAreNearest : Obligations.ResultsAreNearest := by
  intro t neg m e ht hm r x hof
  have hf := ieeeFmt_of_isF ht
  rcases round_cases hf .rne false neg hm e with hover | ⟨hrounded, hmax, hbits, hnx⟩
  · have hflag : r.flags = flagOF ||| flagNX := congrArg Res.flags hover
    rw [hflag] at hof
    exact absurd hof (by decide)
  obtain ⟨E, F, hE, hF, henc, hval, heven⟩ := encode_fields hf hrounded hmax
  have hx : x = signed2 neg (m * 2 ^ e) := by
    show (if neg then -1 else 1) * (m : ℚ) * 2 ^ e = _
    cases neg <;> simp [signed2]
  refine ⟨fieldsVal t.fmt neg E F, ?_, ?_, fun w d' hd' => ?_⟩
  · rw [hbits, henc]
    exact val_fields hf neg hE hF
  · have hinj (y z : ℚ) : signed2 neg y = signed2 neg z ↔ y = z := by cases neg <;> simp [signed2]
    rw [hnx, rounding_exact_iff, hval, hx, hinj, scaled_eq m e (lastBit t.fmt m e), mul_left_inj' (two_zpow_pos _).ne']
  · rw [hval, hx]
    obtain ⟨hle, htie⟩ := rounding_nearest hf neg hm e hd'
    refine ⟨hle, fun heq => (htie heq).imp_right fun hk => ?_⟩
    rw [hbits, henc]
    exact fields_even hf neg E (heven hk)

end Sys2Proof.Machine
end


section
/-! Multiplications of tiles (R146, R208, R211, R212), for O33. -/

namespace Sys2Proof.Machine

/-! ## Runs of bits -/

theorem testBit_bitsAt {n : ℕ} (x : BitVec n) (lo w i : ℕ) : (bitsAt x lo w).testBit i = (decide (i < w) && x.getLsbD (lo + i)) := by
  rw [bitsAt, Nat.testBit_mod_two_pow, Nat.testBit_shiftRight, BitVec.testBit_toNat]

/-- A bit after a run of bits is replaced. -/
theorem getLsbD_putBits {n : ℕ} (x : BitVec n) (lo w y i : ℕ) (hi : i < n) :
    (putBits x lo w y).getLsbD i = if lo ≤ i ∧ i < lo + w then y.testBit (i - lo) else x.getLsbD i := by
  have hmask : ((2 ^ w - 1) <<< lo).testBit i = decide (lo ≤ i ∧ i < lo + w) := by
    rw [Nat.testBit_shiftLeft, Nat.testBit_two_pow_sub_one, ← Bool.decide_and]
    exact decide_eq_decide.2 (and_congr_right fun h => by omega)
  have hval : ((y % 2 ^ w) <<< lo).testBit i = (decide (lo ≤ i ∧ i < lo + w) && y.testBit (i - lo)) := by
    rw [Nat.testBit_shiftLeft, Nat.testBit_mod_two_pow, ← Bool.and_assoc, ← Bool.decide_and]
    exact congrArg (· && _) (decide_eq_decide.2 (and_congr_right fun h => by omega))
  simp only [putBits, BitVec.getLsbD_or, BitVec.getLsbD_and, BitVec.getLsbD_not, BitVec.getLsbD_ofNat, hmask, hval, hi, decide_true,
    Bool.true_and]
  by_cases h : lo ≤ i ∧ i < lo + w
  · rw [if_pos h, decide_eq_true h]; simp
  · rw [if_neg h, decide_eq_false h]; simp

theorem bitsAt_putBits_same {n : ℕ} (x : BitVec n) {lo w : ℕ} (y : ℕ) (h : lo + w ≤ n) :
    bitsAt (putBits x lo w y) lo w = y % 2 ^ w := by
  refine Nat.eq_of_testBit_eq fun i => ?_
  rw [testBit_bitsAt, Nat.testBit_mod_two_pow]
  by_cases hi : i < w
  · rw [getLsbD_putBits _ _ _ _ _ (by omega), if_pos (by omega), Nat.add_sub_cancel_left]
  · simp [hi]

theorem bitsAt_putBits_other {n : ℕ} (x : BitVec n) {lo w lo' w' : ℕ} (y : ℕ) (h : lo + w ≤ lo' ∨ lo' + w' ≤ lo) :
    bitsAt (putBits x lo w y) lo' w' = bitsAt x lo' w' := by
  refine Nat.eq_of_testBit_eq fun i => ?_
  rw [testBit_bitsAt, testBit_bitsAt]
  by_cases hi : i < w'
  · by_cases hn : lo' + i < n
    · rw [getLsbD_putBits _ _ _ _ _ hn, if_neg (by omega)]
    · rw [BitVec.getLsbD_of_ge _ _ (by omega), BitVec.getLsbD_of_ge _ _ (by omega)]
  · simp [hi]

/-! ## Places of the accumulator (R208) -/

/-- The lane that holds column `n` of C. -/
def Vlc.lane (v : Vlc) (n : ℕ) : ℕ := 16 * (clustersOf v.lc).getD (n / 16) 0 + n % 16

theorem lane_lt (v : Vlc) (n : ℕ) : v.lane n < 64 := by
  have h : (clustersOf v.lc).getD (n / 16) 0 < 4 := by
    rw [List.getD_eq_getElem?_getD]
    cases hg : (clustersOf v.lc)[n / 16]? with
    | none => decide
    | some c =>
      have hc := (List.mem_filter.1 (List.mem_of_getElem? hg)).1
      exact List.mem_range.1 hc
  unfold Vlc.lane
  omega

/-- Columns of the clusters held lie in lanes of their own. -/
theorem lane_inj {v : Vlc} {n p : ℕ} (hn : n < 16 * (clustersOf v.lc).length) (hp : p < 16 * (clustersOf v.lc).length)
    (h : v.lane n = v.lane p) : n = p := by
  have hn' : n / 16 < (clustersOf v.lc).length := by omega
  have hp' : p / 16 < (clustersOf v.lc).length := by omega
  unfold Vlc.lane at h
  rw [List.getD_eq_getElem _ _ hn', List.getD_eq_getElem _ _ hp'] at h
  have hnodup : (clustersOf v.lc).Nodup := List.Nodup.filter _ List.nodup_range
  have hq := (hnodup.getElem_inj_iff (hi := hn') (hj := hp')).1 (by omega)
  omega

theorem accBytes_cases (t : VType) : accBytes t = 4 ∨ accBytes t = 8 := by
  unfold accBytes; split <;> simp

theorem accBit_eq (v : Vlc) (t : VType) (m n : ℕ) : v.accBit t m n = 8 * (512 * v.lane n + accBytes t * m) := rfl

/-- An element of a tile that its view holds lies within the tile. -/
theorem accBit_fits (v : Vlc) {t : VType} {m : ℕ} (n : ℕ) (hm : m < 512 / accBytes t) :
    v.accBit t m n + 8 * accBytes t ≤ 262144 := by
  have := lane_lt v n
  rw [accBit_eq]
  rcases accBytes_cases t with h | h <;> rw [h] at hm ⊢ <;> omega

/-- Elements of a tile that its view holds do not meet. -/
theorem accBit_apart {v : Vlc} {t : VType} {m n m' n' : ℕ} (hm : m < 512 / accBytes t) (hm' : m' < 512 / accBytes t)
    (hn : n < 16 * (clustersOf v.lc).length) (hn' : n' < 16 * (clustersOf v.lc).length) (h : (m, n) ≠ (m', n')) :
    v.accBit t m n + 8 * accBytes t ≤ v.accBit t m' n' ∨ v.accBit t m' n' + 8 * accBytes t ≤ v.accBit t m n := by
  rw [accBit_eq, accBit_eq]
  by_cases hl : v.lane n = v.lane n'
  · have hne : m ≠ m' := fun e => h (by rw [e, lane_inj hn hn' hl])
    rw [hl]
    rcases accBytes_cases t with hb | hb <;> rw [hb] <;> omega
  · rcases accBytes_cases t with hb | hb <;> rw [hb] at hm hm' ⊢ <;> omega

/-! ## One element -/

@[simp] theorem State.acc_setAcc_same (s : State) (j : AReg) (a : Acc) : (s.setAcc j a).acc j = a := by
  simp [State.acc, State.setAcc]

theorem State.acc_setAcc_other (s : State) {j k : AReg} (a : Acc) (h : k ≠ j) : (s.setAcc j a).acc k = s.acc k := by
  have hne : j.toNat ≠ k.toNat := fun e => h (BitVec.eq_of_toNat_eq e.symm)
  simp only [State.acc, State.setAcc, State.setCore_v, State.core_setCore_same]
  exact Vector.getElem_set_ne j.isLt k.isLt hne

@[simp] theorem State.oslot_setAcc (s : State) (j : AReg) (a : Acc) (o : OReg) : (s.setAcc j a).oslot o = s.oslot o := by
  simp [State.oslot, State.setAcc]

/-- A state as a multiplication into a tile leaves it: it differs in that tile, and in FSR.POISON (R427). -/
structure State.Multiplied (s u : State) (j : AReg) : Prop where
  mem : u.mem = s.mem
  v : ∃ p, u.v = { s.v with fsrPoison := p }
  stepctl : ∀ c, (u.core c).stepctl = (s.core c).stepctl
  accs : ∀ k, k ≠ j → u.acc k = s.acc k
  slots : ∀ o, u.oslot o = s.oslot o

theorem State.Multiplied.refl (s : State) (j : AReg) : s.Multiplied s j :=
  ⟨rfl, ⟨s.v.fsrPoison, rfl⟩, fun _ => rfl, fun _ _ => rfl, fun _ => rfl⟩

theorem State.Multiplied.trans {s t u : State} {j : AReg} (h : s.Multiplied t j) (k : t.Multiplied u j) : s.Multiplied u j := by
  obtain ⟨p, hp⟩ := h.v
  obtain ⟨q, hq⟩ := k.v
  exact ⟨k.mem.trans h.mem, ⟨q, by rw [hq, hp]⟩, fun c => (k.stepctl c).trans (h.stepctl c), fun i hi => (k.accs i hi).trans (h.accs i hi),
    fun o => (k.slots o).trans (h.slots o)⟩

theorem State.Multiplied.smooth {s u : State} {j : AReg} (h : s.Multiplied u j) : u.smooth = s.smooth := by
  obtain ⟨p, hp⟩ := h.v
  simp only [State.smooth, hp, h.stepctl, Vlc.due, Vlc.sup]

theorem State.multiplied_setAcc (s : State) (j : AReg) (a : Acc) : s.Multiplied (s.setAcc j a) j :=
  ⟨rfl, ⟨s.v.fsrPoison, rfl⟩, fun c => State.stepctl_setCore s _ c rfl, fun _ hk => State.acc_setAcc_other s a hk,
    State.oslot_setAcc s j a⟩

theorem State.multiplied_poison (s : State) (j : AReg) : s.Multiplied (s.setV fun v => { v with fsrPoison := true }) j :=
  ⟨rfl, ⟨true, rfl⟩, fun _ => rfl, fun _ _ => rfl, fun _ => rfl⟩

/-- The bits of C[m][n] in the tile of a multiplication. -/
def Mma.bits (x : Mma) (s0 s : State) (p : ℕ × ℕ) : ℕ :=
  bitsAt (s.acc x.acc).data (s0.v.accBit (accType x.t) p.1 p.2) (8 * accBytes (accType x.t))

/-- What C[m][n] becomes, of what it holds (R146). -/
def Mma.next (x : Mma) (s0 : State) (p : ℕ × ℕ) (c : ℕ) : ℕ :=
  x.sumFrom s0 (accType x.t).fmt p.1 p.2 s0.v.tskK.toNat c 0 (ceilDiv s0.v.tskK.toNat (groupLen x.t))

/-- An element computed writes its place in the tile, and nothing else but the poison. -/
theorem Mma.element_spec (x : Mma) (s0 s : State) (m n : ℕ) : s.Multiplied (x.element s0 s m n) x.acc ∧
    ((x.element s0 s m n).acc x.acc).data =
      putBits (s.acc x.acc).data (s0.v.accBit (accType x.t) m n) (8 * accBytes (accType x.t)) (x.next s0 (m, n) (x.bits s0 s (m, n))) := by
  obtain ⟨bad, h⟩ : ∃ bad : Bool, x.element s0 s m n =
      let a := (s.acc x.acc).write (accType x.t) (s0.v.accBit (accType x.t) m n) (x.next s0 (m, n) (x.bits s0 s (m, n)))
      if bad then (s.setAcc x.acc (a.mark (s0.v.accBit (accType x.t) m n))).setV fun v => { v with fsrPoison := true }
      else s.setAcc x.acc a := ⟨_, rfl⟩
  rw [h]
  cases bad
  swap
  · refine ⟨(State.multiplied_setAcc s _ _).trans (State.multiplied_poison _ _), ?_⟩
    show ((s.setAcc x.acc _).acc x.acc).data = _
    rw [State.acc_setAcc_same]
    rfl
  · refine ⟨State.multiplied_setAcc s _ _, ?_⟩
    show ((s.setAcc x.acc _).acc x.acc).data = _
    rw [State.acc_setAcc_same]
    rfl

/-! ## All elements -/

/-- Where every step of a fold changes its own entry alone, each entry is changed once, from what it was. -/
theorem foldl_entries {σ ι α : Type} {step : σ → ι → σ} {get : σ → ι → α} {g : ι → α → α} (l : List ι)
    (hsame : ∀ s, ∀ i ∈ l, get (step s i) i = g i (get s i)) (hother : ∀ s, ∀ i ∈ l, ∀ j ∈ l, i ≠ j → get (step s i) j = get s j)
    (hl : l.Nodup) (s : σ) {j : ι} (hj : j ∈ l) : get (l.foldl step s) j = g j (get s j) := by
  induction l generalizing s with
  | nil => cases hj
  | cons i l ih =>
    obtain ⟨hi, hl⟩ := List.nodup_cons.1 hl
    have kept (s : σ) (k : List ι) (hk : ∀ x ∈ k, x ∈ l) : get (k.foldl step s) i = get s i := by
      induction k generalizing s with
      | nil => rfl
      | cons x k ihk =>
        have hx := hk x (by simp)
        rw [List.foldl_cons, ihk _ fun y hy => hk y (by simp [hy])]
        exact hother s x (by simp [hx]) i (by simp) fun e => hi (e ▸ hx)
    rw [List.foldl_cons]
    rcases List.mem_cons.1 hj with rfl | hjl
    · rw [kept _ l fun _ h => h]
      exact hsame s j (by simp)
    · rw [ih (fun s x hx => hsame s x (by simp [hx])) (fun s x hx y hy => hother s x (by simp [hx]) y (by simp [hy])) hl _ hjl,
        hother s i (by simp) j (by simp [hjl]) fun e => hi (e ▸ hjl)]

/-- The elements of C, by row and column. -/
def elementsOf (m n : ℕ) : List (ℕ × ℕ) := List.range m ×ˢ List.range n

theorem effMma_eq (x : Mma) (s : State) :
    effMma x s = (elementsOf s.v.tsmM.toNat s.v.tsn.toNat).foldl (fun u p => x.element s u p.1 p.2) s := by
  unfold effMma elementsOf
  simp only [Vlc.shape, SProd.sprod, List.product, List.foldl_flatMap, List.foldl_map]

theorem effMma_multiplied (x : Mma) (s : State) : s.Multiplied (effMma x s) x.acc := by
  rw [effMma_eq]
  exact List.foldlRecOn (motive := fun u => s.Multiplied u x.acc) _ _ (State.Multiplied.refl s _) fun u hu p _ => hu.trans (x.element_spec s u p.1 p.2).1

/-- Every element of C is computed once, from what the tile held. -/
theorem effMma_bits (x : Mma) (s : State) {m n : ℕ} (hm : m < s.v.tsmM.toNat) (hn : n < s.v.tsn.toNat)
    (hN : s.v.tsn.toNat ≤ 16 * (clustersOf s.v.lc).length) (hM : s.v.tsmM.toNat ≤ 512 / accBytes (accType x.t)) :
    x.bits s (effMma x s) (m, n) = x.next s (m, n) (x.bits s s (m, n)) % 2 ^ (8 * accBytes (accType x.t)) := by
  have mem {p : ℕ × ℕ} : p ∈ elementsOf s.v.tsmM.toNat s.v.tsn.toNat ↔ p.1 < s.v.tsmM.toNat ∧ p.2 < s.v.tsn.toNat := by
    rw [elementsOf, List.mem_product, List.mem_range, List.mem_range]
  rw [effMma_eq]
  refine foldl_entries (get := fun u p => x.bits s u p) (g := fun p c => x.next s p c % 2 ^ (8 * accBytes (accType x.t))) _ ?_ ?_
    (List.Nodup.product List.nodup_range List.nodup_range) s (mem.2 ⟨hm, hn⟩)
  · intro u p hp
    rw [Mma.bits, (x.element_spec s u p.1 p.2).2]
    exact bitsAt_putBits_same _ _ (accBit_fits _ _ (by have := (mem.1 hp).1; omega))
  · intro u p hp q hq hne
    obtain ⟨hp1, hp2⟩ := mem.1 hp
    obtain ⟨hq1, hq2⟩ := mem.1 hq
    rw [Mma.bits, (x.element_spec s u p.1 p.2).2]
    exact bitsAt_putBits_other _ _ (accBit_apart (by omega) (by omega) (by omega) (by omega) hne)

/-- A multiplication that passes decode's checks stops by R211's checks, or computes its elements and completes. -/
theorem exec_mma {s : State} {i : Instr} {x : Mma} (h :
    (∃ t acc oa ob, i = .tmma t acc oa ob false ∧ x = { t := t, sp := .dense, acc := acc, oa := oa, ob := ob, oc := oa }) ∨
    (∃ t sp acc oa ob oc, i = .tmmas t sp acc oa ob oc false ∧
      x = { t := t, sp := sp, acc := acc, oa := oa, ob := ob, oc := oc })) (hd : decodeStop i s = none) :
    i.len = 8 ∧ exec i s = .next (match mmaStop x s.v.pc s with
      | some e => s.raise i e
      | none => (effMma x s).clearVstart.finish i) := by
  rcases h with ⟨t, acc, oa, ob, rfl, rfl⟩ | ⟨t, sp, acc, oa, ob, oc, rfl, rfl⟩
  · exact ⟨rfl, congrArg Host.Outcome.next (checked_none hd)⟩
  · exact ⟨rfl, congrArg Host.Outcome.next (checked_none hd)⟩

/-- Settles O33: the elements of C lie apart in their tile, so each is computed once from what the tile held. -/
theorem multiplicationsComplete : Obligations.MultiplicationsComplete := by
  intro s i x hi hd hs
  obtain ⟨hlen, hexec⟩ := exec_mma hi hd
  rw [hexec]
  refine ⟨fun e he => by rw [he], fun hnone => ?_⟩
  have hmul := effMma_multiplied x s
  obtain ⟨p, hv⟩ := hmul.v
  have hsmooth : (effMma x s).clearVstart.smooth = true := hmul.smooth.trans hs
  rw [hnone]
  refine ⟨_, congrArg Host.Outcome.next (State.finish_smooth i hsmooth), ?_, hmul.mem, ?_, ?_, rfl, hmul.accs, hmul.slots,
    fun m n hm hn hN hM => effMma_bits x s hm hn hN hM⟩
  · simp [State.past, State.goesOn, State.clearVstart, hv, hlen]
  · simp [State.past, State.goesOn, State.clearVstart, hv]
  · simp [State.past, State.goesOn, State.clearVstart, hv]

end Sys2Proof.Machine
end


section
/-! Trees of sums (R143) and the results of reductions (R453), for O26. -/

namespace Sys2Proof.Machine

/-! ## The tree of R143 -/

/-- A level adds neighbours in pairs and passes an element without a partner on. -/
theorem treeLevel_getElem (add : ℕ → ℕ → Res) (l : List ℕ) (k : ℕ) : (treeLevel add l).1[k]? =
    match l[2 * k]?, l[2 * k + 1]? with
    | some x, some y => some (add x y).bits
    | some x, none => some x
    | none, _ => none := by
  induction l using treeLevel.induct (add := add) generalizing k with
  | case1 x y l l1 fl h ih =>
    cases k with
    | zero => simp [treeLevel]
    | succ k => simpa [treeLevel, show 2 * (k + 1) = 2 * k + 2 by omega] using ih k
  | case2 l hl =>
    match l, hl with
    | [], _ => simp [treeLevel]
    | [x], _ => cases k <;> simp [treeLevel]
    | x :: y :: l, hl => exact absurd rfl (hl x y l)

theorem treeLevel_length (add : ℕ → ℕ → Res) (l : List ℕ) : (treeLevel add l).1.length = (l.length + 1) / 2 := by
  induction l using treeLevel.induct (add := add) with
  | case1 x y l l1 fl h ih => simp only [treeLevel, List.length_cons, ih]; omega
  | case2 l hl =>
    match l, hl with
    | [], _ => simp [treeLevel]
    | [x], _ => simp [treeLevel]
    | x :: y :: l, hl => exact absurd rfl (hl x y l)

/-- Levels that are as many as the powers of two it takes leave one element. -/
theorem treeSum_length (add : ℕ → ℕ → Res) (l : List ℕ) (f : Flags) (n : ℕ) (h0 : 0 < l.length) (h : l.length ≤ 2 ^ n) :
    (treeSum add l f n).1.length = 1 := by
  induction n generalizing l f with
  | zero => simp only [treeSum]; omega
  | succ n ih =>
    have hlen := treeLevel_length add l
    rw [Nat.pow_succ] at h
    exact ih _ _ (by omega) (by omega)

theorem treeSumHalves : Claim.TreeSumHalves := fun add l hl =>
  ⟨treeLevel_getElem add l, fun h f => treeSum_length add l f 14 (List.length_pos_iff.2 hl) (h.trans (by decide))⟩

/-! ## Integer reductions (R453 Table 8) -/

theorem int_low {t : VType} (h : t.isI = true) {i : ℤ} (h1 : t.minInt ≤ i) (h2 : i ≤ t.maxInt) : t.int (low t.width i) = i := by
  cases t
  case n8 | n16 | n32 | n64 =>
    simp only [VType.int, VType.minInt, VType.maxInt, VType.isSigned, VType.width, low, Bool.false_eq_true, if_false] at *
    omega
  case s8 | s16 | s32 | s64 =>
    simp only [VType.int, VType.minInt, VType.maxInt, VType.isSigned, VType.width, low, signed, if_true] at *
    omega
  all_goals cases h

theorem int_bounds (t : VType) (x : ℕ) : t.minInt ≤ t.int x ∧ t.int x ≤ t.maxInt := by
  unfold VType.int VType.minInt VType.maxInt
  have hx : x % 2 ^ t.width < 2 ^ t.width := Nat.mod_lt _ (Nat.two_pow_pos _)
  have hw : 2 ^ t.width = 2 * 2 ^ (t.width - 1) := by cases t <;> rfl
  split
  · unfold signed
    split <;> omega
  · omega

theorem int_mod (t : VType) (x : ℕ) : t.int (x % 2 ^ t.width) = t.int x := by
  unfold VType.int signed
  rw [Nat.mod_mod]

theorem int_minMax (t : VType) (mx : Bool) (p q : ℕ) :
    t.int (t.minMax mx p q) = if mx then max (t.int p) (t.int q) else min (t.int p) (t.int q) := by
  unfold VType.minMax
  cases mx <;> simp only [Bool.false_eq_true, if_false, if_true] <;> split <;> rw [int_mod] <;> omega

theorem minMax_lt (t : VType) (mx : Bool) (p q : ℕ) : t.minMax mx p q < 2 ^ t.width := by
  unfold VType.minMax
  split_ifs <;> exact Nat.mod_lt _ (Nat.two_pow_pos _)

/-- A step of an integer reduction of values of a type gives one. -/
theorem intReduce_lt {t : VType} (k : RedOp) {p q : ℕ} (hp : p < 2 ^ t.width) (hq : q < 2 ^ t.width) :
    intReduce t k p q < 2 ^ t.width := by
  cases k with
  | sum | seq => exact Nat.mod_lt _ (Nat.two_pow_pos _)
  | min | max => exact minMax_lt t _ p q
  | and => exact Nat.and_lt_two_pow p hq
  | or => exact Nat.or_lt_two_pow hp hq
  | xor => exact Nat.xor_lt_two_pow hp hq

/-- The least or greatest of values of a type, as its value, and as one of them. -/
theorem foldl_minMax {t : VType} (mx : Bool) (l : List ℕ) {p : ℕ} (hp : p < 2 ^ t.width) :
    l.foldl (t.minMax mx) p = low t.width (l.foldl (fun x y => if mx then max x (t.int y) else min x (t.int y)) (t.int p)) := by
  induction l generalizing p with
  | nil => rw [List.foldl_nil, List.foldl_nil, low_int, Nat.mod_eq_of_lt hp]
  | cons x l ih =>
    rw [List.foldl_cons, List.foldl_cons, ih (minMax_lt t mx p x), int_minMax]

theorem foldl_sum (n : ℕ) (l : List ℕ) (p : ℕ) : l.foldl (fun x y => (x + y) % n) (p % n) = (p + l.sum) % n := by
  induction l generalizing p with
  | nil => simp
  | cons x l ih => rw [List.foldl_cons, Nat.mod_add_mod, ih, List.sum_cons, Nat.add_assoc]

/-- The model's reduction of values of an integer type is that of Table 8. -/
theorem intVred_eq {t : VType} (h : t.isI = true) (k : RedOp) (l : List ℕ) :
    intVred t k l = reduced t k l := by
  have hle := minInt_le_maxInt t
  have hlow (i : ℤ) : low t.width i < 2 ^ t.width := low_mod t.width i ▸ Nat.mod_lt _ (Nat.two_pow_pos _)
  cases k with
  | sum | seq =>
    have hsum := foldl_sum (2 ^ t.width) l 0
    rw [Nat.zero_mod, Nat.zero_add] at hsum
    exact hsum
  | min => exact (foldl_minMax false l (hlow _)).trans (by rw [int_low h hle le_rfl]; rfl)
  | max => exact (foldl_minMax true l (hlow _)).trans (by rw [int_low h le_rfl hle]; rfl)
  | and | or | xor => rfl

/-- The reduction of a list and one more value is a step from that of the list. -/
theorem intVred_append (t : VType) (k : RedOp) (l : List ℕ) (x : ℕ) : intVred t k (l ++ [x]) = intReduce t k (intVred t k l) x := by
  simp only [intVred, List.foldl_append, List.foldl_cons, List.foldl_nil]

/-- The reduction of one value is that value. -/
theorem intVred_singleton {t : VType} (h : t.isI = true) (k : RedOp) {x : ℕ} (hx : x < 2 ^ t.width) : intVred t k [x] = x := by
  have hle := minInt_le_maxInt t
  obtain ⟨h1, h2⟩ := int_bounds t x
  rw [intVred_eq h k]
  cases k with
  | sum | seq => simpa [reduced] using Nat.mod_eq_of_lt hx
  | min =>
    simp only [reduced, List.foldl_cons, List.foldl_nil]
    rw [min_eq_right h2, low_int, Nat.mod_eq_of_lt hx]
  | max =>
    simp only [reduced, List.foldl_cons, List.foldl_nil]
    rw [max_eq_right h1, low_int, Nat.mod_eq_of_lt hx]
  | and => simpa [reduced, Nat.and_comm] using (Nat.and_two_pow_sub_one_eq_mod x t.width).trans (Nat.mod_eq_of_lt hx)
  | or | xor => simp [reduced]

/-! ## Results of floating-point operations lie in their format -/

theorem signOf_le (f : Fmt) (neg : Bool) : f.signOf neg ≤ 2 ^ (f.fb + f.eb) := by
  cases neg <;> simp [Fmt.signOf, Fmt.signBit]

/-- The bits below the sign of an encoding leave it within the format. -/
theorem signOf_add_lt (f : Fmt) (neg : Bool) {x : ℕ} (h : x < 2 ^ (f.fb + f.eb)) : f.signOf neg + x < 2 ^ (f.fb + f.eb + 1) := by
  have := signOf_le f neg
  rw [Nat.pow_succ]
  omega

theorem fields_lt {f : Fmt} {E F : ℕ} (hE : E < 2 ^ f.eb) (hF : F < 2 ^ f.fb) : E * 2 ^ f.fb + F < 2 ^ (f.fb + f.eb) := by
  rw [Nat.add_comm f.fb, Nat.pow_add]
  have := Nat.mul_le_mul_right (2 ^ f.fb) (show E + 1 ≤ 2 ^ f.eb from hE)
  rw [Nat.add_one_mul] at this
  omega

theorem infBits_lt (f : Fmt) : f.infBits < 2 ^ (f.fb + f.eb) := by
  have := fields_lt (f := f) (E := 2 ^ f.eb - 1) (F := 0) (Nat.sub_lt (Nat.two_pow_pos _) one_pos) (Nat.two_pow_pos _)
  exact this

theorem inf_lt (f : Fmt) (neg : Bool) : f.inf neg < 2 ^ (f.fb + f.eb + 1) := signOf_add_lt f neg (infBits_lt f)

theorem nan_lt {f : Fmt} (hf : IeeeFmt f) : f.nan < 2 ^ (f.fb + f.eb + 1) := by
  have h := fields_lt (f := f) (E := 2 ^ f.eb - 1) (F := 2 ^ (f.fb - 1)) (Nat.sub_lt (Nat.two_pow_pos _) one_pos)
    (Nat.pow_lt_pow_right one_lt_two (Nat.sub_lt hf.frac one_pos))
  simp only [Fmt.nan, hf.kind]
  exact h.trans (Nat.pow_lt_pow_right one_lt_two (Nat.lt_succ_self _))

theorem round_lt {f : Fmt} (hf : IeeeFmt f) (rm : RMode) (ftz neg : Bool) (m : ℕ) (e : ℤ) :
    (f.round rm ftz false neg m e).bits < 2 ^ (f.fb + f.eb + 1) := by
  have hzero : f.signOf neg < 2 ^ (f.fb + f.eb + 1) := signOf_add_lt f neg (Nat.two_pow_pos _)
  rcases eq_or_ne m 0 with rfl | hm
  · exact hzero
  have hftz : (f.round rm ftz false neg m e).bits = f.signOf neg ∨ f.round rm ftz false neg m e = f.round rm false false neg m e := by
    cases ftz
    · exact .inr rfl
    unfold Fmt.round
    rw [if_neg hm, if_neg hm]
    dsimp only
    split
    · exact .inr rfl
    · split
      · exact .inl rfl
      · exact .inr rfl
  rcases hftz with h | h
  · rw [h]; exact hzero
  rw [h]
  rcases round_cases hf rm false neg hm e with hover | ⟨hr, hmax, hbits, -⟩
  · rw [hover]
    have hmaxBits : f.maxBits < 2 ^ (f.fb + f.eb) := by
      have hinf := infBits_lt f
      simp only [Fmt.maxBits, hf.kind]
      exact (Nat.sub_le _ _).trans_lt hinf
    obtain ⟨up, hup⟩ : ∃ up : Bool, f.beyond rm false neg = f.signOf neg + if up then f.infBits else f.maxBits := by
      simp only [Fmt.beyond, hf.kind, Bool.false_eq_true, if_false]
      exact ⟨_, rfl⟩
    rw [hup]
    refine signOf_add_lt f neg ?_
    cases up
    · exact hmaxBits
    · exact infBits_lt f
  · obtain ⟨E, F, hE, hF, henc, -⟩ := encode_fields hf hr hmax
    rw [hbits, henc]
    exact signOf_add_lt f neg (fields_lt (by omega) hF)

theorem addVal_lt {f : Fmt} (hf : IeeeFmt f) (rm : RMode) (ftz : Bool) (x y : FpVal) :
    (f.addVal rm ftz x y).bits < 2 ^ (f.fb + f.eb + 1) := by
  cases x with
  | nan s => cases y <;> exact nan_lt hf
  | inf a =>
    cases y with
    | nan s => exact nan_lt hf
    | inf b =>
      show (if a == b then Res.quiet (f.inf a) else f.nanRes true).bits < _
      split
      · exact inf_lt f a
      · exact nan_lt hf
    | num d => exact inf_lt f a
  | num d =>
    cases y with
    | nan s => exact nan_lt hf
    | inf b => exact inf_lt f b
    | num c => exact round_lt hf rm ftz _ _ _

theorem deliver_lt {f : Fmt} (hf : IeeeFmt f) (ftz : Bool) (x : ℕ) : f.deliver ftz x < 2 ^ (f.fb + f.eb + 1) := by
  unfold Fmt.deliver
  split
  · exact nan_lt hf
  · exact inf_lt f _
  · split
    · exact signOf_add_lt f _ (Nat.two_pow_pos _)
    · exact Nat.mod_lt _ (Nat.two_pow_pos _)

theorem width_of_isF {t : VType} (h : t.isF = true) : t.width = t.fmt.fb + t.fmt.eb + 1 := by
  cases t
  case f64 | f32 | f16 | bf16 => rfl
  all_goals cases h

/-- What an element that passes through becomes, and a step of a floating reduction, lie in the type. -/
theorem fpPass_lt {t : VType} (h : t.isF = true) (ftz : Bool) (x : ℕ) : (fpPass t.fmt ftz x).bits < 2 ^ t.width := by
  rw [width_of_isF h]
  exact deliver_lt (ieeeFmt_of_isF h) ftz x

theorem fpReduce_lt {t : VType} (h : t.isF = true) (k : RedOp) (rm : RMode) (ftz : Bool) (x y : ℕ) :
    (fpReduce t k rm ftz x y).bits < 2 ^ t.width := by
  have hf := ieeeFmt_of_isF h
  have hpick (mx : Bool) : (fpMinMax t.fmt mx ftz x y).bits < 2 ^ t.width := by
    rw [width_of_isF h]
    unfold fpMinMax
    dsimp only
    split_ifs <;> exact deliver_lt hf ftz _
  have hadd : (fpAdd t.fmt rm ftz x y).bits < 2 ^ t.width := by
    rw [width_of_isF h]
    exact addVal_lt hf rm ftz _ _
  cases k with
  | min => exact hpick false
  | max => exact hpick true
  | sum | seq | and | or | xor => exact hadd

end Sys2Proof.Machine
end


section
/-! VRED (R453), for O26. -/

namespace Sys2Proof.Machine

/-- The elements of an integer or floating type are whole bytes. -/
theorem not_nibbles {t : VType} (h : t.isI = true ∨ t.isF = true) : ¬(t = .e2m1 ∨ t = .e2m1x) := by
  rintro (rfl | rfl)
  · rcases h with h | h <;> cases h
  · rcases h with h | h <;> cases h

theorem payload_id {t : VType} (h : t.isI = true ∨ t.isF = true) (x : Nat) : payload t x = x := if_neg (not_nibbles h)

theorem isI_of_isF {t : VType} (h : t.isF = true) : t.isI = false := by
  cases t
  case f64 | f32 | f16 | bf16 => rfl
  all_goals cases h

/-- A register filled with no flag raised. -/
theorem State.filled_zero (s : State) (d : VReg) (r : VecReg) :
    s.filled d r 0 = s.setV fun v => { v with vregs := v.vregs.set d.toNat r } := by
  have h : s.v.fpc.flags ||| 0 = s.v.fpc.flags := BitVec.or_zero
  refine State.setV_congr ?_
  simp only [h]

/-- Flags raised leave every register as it was. -/
theorem State.raiseFlags_filled (s : State) (d : VReg) (f : Flags) : s.raiseFlags f = s.filled d s.v.vregs[d.toNat] f := by
  conv_lhs => rw [← s.filled_self d, State.filled_raiseFlags]
  exact congrArg _ BitVec.zero_or

section
variable {s : State} {t : VType} {m : MReg} {d a : VReg}

/-- With VSTART.ELEM 0 the active elements are those that the mask allows. -/
theorem Vlc.activeList_start (h : s.v.vl ≤ 8192) : (s.startAt 0).v.activeList m = (List.range s.v.vl).filter (s.v.allowed m) := by
  refine List.filter_congr fun k hk => ?_
  have hk : k < s.v.vl := List.mem_range.1 hk
  refine Eq.trans (?_ : _ = (decide (k < s.v.vl) && (s.v.mask m).getLsbD k)) (by rw [Vlc.mask_bit _ _ (by omega)]; rfl)
  show (decide (0 ≤ k) && decide (k < s.v.vl) && (s.v.mask m).getLsbD k) = _
  rw [decide_eq_true (Nat.zero_le k), Bool.true_and]

/-- Elements of a list, all in the register and not poisoned, are read. -/
theorem State.readElems_ok {l : List Nat} (hp : (s.v.vregs[a.toNat]).poison = 0) (hf : ∀ k ∈ l, s.v.fits t.width k = true) :
    s.readElems t a l = .ok (l.map (s.v.element t a)) := by
  induction l with
  | nil => rfl
  | cons k l ih =>
    have hk := State.readElem_ok (t := t) (q := a) (hf k List.mem_cons_self) (by rw [hp]; exact BitVec.getLsbD_zero)
    simp only [State.readElems, hk, ih fun j hj => hf j (List.mem_cons_of_mem _ hj), bind, Except.bind, List.map_cons]

/-- Zeros put among the values of the active elements. -/
theorem withZeros_map (act : Nat → Bool) (f : Nat → Nat) (i n : Nat) :
    withZeros act i n (((List.range' i n).filter act).map f) = (List.range' i n).map fun k => if act k then f k else 0 := by
  induction n generalizing i with
  | zero => rfl
  | succ n ih =>
    rw [withZeros, List.range'_succ, List.map_cons]
    by_cases h : act i = true
    · rw [if_pos h, if_pos h, List.filter_cons_of_pos h, List.map_cons, List.headD_cons, List.tail_cons, ih]
    · rw [if_neg h, if_neg h, List.filter_cons_of_neg h, ih]

/-- The write of element 0 that VRED ends with fills its register. -/
theorem State.first_written (x : Nat) (fl : Flags) (hd : d.toNat < 8 * (s.v.declHeld.toNat + 1)) (hf : s.v.fits t.width 0 = true)
    (hmvl : s.v.mvl64 ≤ 4096) :
    ∃ r, ((s.filled d s.v.vregs[d.toNat] fl).writeElem t d 0 x).cover t d 1 (fun _ => true) = s.filled d r fl ∧
      r.img.extractLsb' 0 t.width = BitVec.ofNat t.width (payload t x) ∧
      ∀ j, 0 < j → r.img.extractLsb' (t.width * j) t.width = (s.v.vregs[d.toNat]).img.extractLsb' (t.width * j) t.width := by
  have hfit : t.width * (0 + 1) ≤ 262144 := (of_decide_eq_true hf).trans (by omega)
  obtain ⟨r, hr, himg⟩ := s.filled_cover_img (t := t) (e := 1) (act := fun _ => true)
    ((s.v.vregs[d.toNat]).put t.width 0 (payload t x)) fl hd
  refine ⟨r, by rw [State.filled_writeElem _ _ _ hd hf, hr], ?_, fun j hj => ?_⟩
  · have h := VecReg.put_extract (s.v.vregs[d.toNat]) (payload t x) 0 hfit
    rw [if_pos rfl] at h
    rw [himg]; exact h
  · rw [himg, VecReg.put_extract _ _ _ hfit, if_neg (by omega)]

/-- The values of the active elements. -/
def Vlc.activeValues (v : Vlc) (t : VType) (m : MReg) (a : VReg) : List Nat :=
  ((List.range v.vl).filter (v.allowed m)).map (v.element t a)

/-- The values of the elements, +0.0 for those that are not active. -/
def Vlc.valuesOrZero (v : Vlc) (t : VType) (m : MReg) (a : VReg) : List Nat :=
  (List.range v.vl).map fun k => if v.allowed m k then v.element t a k else 0

theorem withZeros_active (h : s.v.vl ≤ 8192) :
    withZeros ((s.startAt 0).v.active m) 0 s.v.vl (s.v.activeValues t m a) = s.v.valuesOrZero t m a := by
  have hact (k : Nat) (hk : k ∈ List.range s.v.vl) : (s.startAt 0).v.active m k = s.v.allowed m k := by
    have hk := List.mem_range.1 hk
    show (decide (0 ≤ k) && decide (k < s.v.vl) && (s.v.mask m).getLsbD k) = _
    rw [decide_eq_true (Nat.zero_le k), Bool.true_and, Vlc.mask_bit _ _ (by omega)]
    rfl
  unfold Vlc.activeValues Vlc.valuesOrZero
  rw [← List.filter_congr hact, List.range_eq_range', withZeros_map, ← List.range_eq_range']
  exact List.map_congr_left fun k hk => by rw [hact k hk]

/-- What VRED does with VSTART.ELEM below VL. -/
theorem exec_vred {k : RedOp} (hd : decodeStop (.vred t m k d a) s = none) (hlt : s.v.vstart < s.v.vl) :
    exec (.vred t m k d a) s = .next (match (s.startAt 0).vred t m k d a with
      | (s1, none) => s1.clearVstart.finish (.vred t m k d a)
      | (s1, some e) => s1.raise (.vred t m k d a) e) := by
  show Host.Outcome.next (checked _ s _) = _
  rw [checked_none hd, if_neg (by omega), if_neg (by omega)]
  rfl

/-- The conditions under which VRED reads its elements. -/
structure Reducible (s : State) (t : VType) (d a : VReg) : Prop where
  smooth : s.smooth = true
  vl : s.v.vl ≤ 8192
  fits : s.v.vl * t.width ≤ 64 * s.v.mvl64
  mvl : s.v.mvl64 ≤ 4096
  held : d.toNat < 8 * (s.v.declHeld.toNat + 1)
  poison : (s.v.vregs[a.toNat]).poison = 0

theorem Reducible.reads (h : Reducible s t d a) :
    (s.startAt 0).readElems t a ((s.startAt 0).v.activeList m) = .ok (s.v.activeValues t m a) := by
  rw [Vlc.activeList_start h.vl]
  refine State.readElems_ok (s := s.startAt 0) h.poison fun k hk => ?_
  exact Vlc.fits_below (v := s.v) h.fits (List.mem_range.1 (List.mem_of_mem_filter hk))

/-- VRED of an integer type writes the reduction of its active elements. -/
theorem exec_vred_int {k : RedOp} (h : Reducible s t d a) (ht : t.isI = true) (hd : decodeStop (.vred t m k d a) s = none)
    (hlt : s.v.vstart < s.v.vl) :
    ∃ r : VecReg, exec (.vred t m k d a) s = .next ((((s.startAt 0).filled d r 0).clearVstart).past (.vred t m k d a)) ∧
      r.img.extractLsb' 0 t.width = BitVec.ofNat t.width (intVred t k (s.v.activeValues t m a)) ∧
      ∀ j, 0 < j → r.img.extractLsb' (t.width * j) t.width = (s.v.vregs[d.toNat]).img.extractLsb' (t.width * j) t.width := by
  obtain ⟨r, hr, hfirst, hrest⟩ := State.first_written (s := s.startAt 0) (t := t) (intVred t k (s.v.activeValues t m a)) 0 h.held
    (Vlc.fits_below (v := s.v) h.fits (by omega)) h.mvl
  rw [State.filled_self] at hr
  refine ⟨r, ?_, by rw [hfirst, payload_id (.inl ht)], hrest⟩
  rw [exec_vred hd hlt]
  simp only [State.vred, h.reads, ht, if_true, hr]
  exact congrArg Host.Outcome.next (State.finish_smooth _ h.smooth)

/-- VRED of a floating type raises the flags of its reduction: an enabled one stops it, and otherwise its result is written. -/
theorem exec_vred_fp {k : RedOp} {res : Res} (h : Reducible s t d a) (ht : t.isF = true)
    (hd : decodeStop (.vred t m k d a) s = none) (hlt : s.v.vstart < s.v.vl)
    (hres : fpVred t k (RMode.ofRm s.v.fpc.rm) (s.ftzFor t) (s.v.activeValues t m a) (s.v.valuesOrZero t m a) = res) :
    (s.v.fpc.en &&& res.flags = 0 →
      ∃ r : VecReg, exec (.vred t m k d a) s = .next ((((s.startAt 0).filled d r res.flags).clearVstart).past (.vred t m k d a)) ∧
        r.img.extractLsb' 0 t.width = BitVec.ofNat t.width res.bits ∧
        ∀ j, 0 < j → r.img.extractLsb' (t.width * j) t.width = (s.v.vregs[d.toNat]).img.extractLsb' (t.width * j) t.width) ∧
    (s.v.fpc.en &&& res.flags ≠ 0 → exec (.vred t m k d a) s =
      .next (((s.startAt 0).raiseFlags res.flags).trapHere .arith 0 (res.flags.setWidth 64) none)) := by
  have hi := isI_of_isF ht
  have hftz : (s.startAt 0).ftzFor t = s.ftzFor t := rfl
  have hz : withZeros ((s.startAt 0).v.active m) 0 (s.startAt 0).v.vl (s.v.activeValues t m a) = s.v.valuesOrZero t m a :=
    withZeros_active h.vl
  have hres' : fpVred t k (RMode.ofRm (s.startAt 0).v.fpc.rm) (s.ftzFor t) (s.v.activeValues t m a) (s.v.valuesOrZero t m a) = res :=
    hres
  refine ⟨fun hen => ?_, fun hen => ?_⟩
  · have htraps : (s.startAt 0).v.fpc.traps res.flags = false := Bool.eq_false_iff.2 (mt (Fpc.traps_iff _ _).1 (not_not.2 hen))
    obtain ⟨r, hr, hfirst, hrest⟩ := State.first_written (s := s.startAt 0) (t := t) res.bits res.flags h.held
      (Vlc.fits_below (v := s.v) h.fits (by omega)) h.mvl
    rw [← State.raiseFlags_filled] at hr
    refine ⟨r, ?_, by rw [hfirst, payload_id (.inr ht)], hrest⟩
    rw [exec_vred hd hlt]
    simp only [State.vred, h.reads, hi, hz, hftz, hres', htraps, Bool.false_eq_true, if_false, hr]
    exact congrArg Host.Outcome.next (State.finish_smooth _ h.smooth)
  · have htraps : (s.startAt 0).v.fpc.traps res.flags = true := (Fpc.traps_iff _ _).2 hen
    rw [exec_vred hd hlt]
    simp only [State.vred, h.reads, hi, hz, hftz, hres', htraps, Bool.false_eq_true, if_false, if_true]
    rfl

end

/-- The ordered folds of R143 over a list of active elements, by its length. -/
def orderedRed (t : VType) (ftz : Bool) (op : Nat → Nat → Res) (unit : Nat) : List Nat → Res
  | [] => .quiet unit
  | [x] => fpPass t.fmt ftz x
  | x :: l => l.foldl (fun r y => { bits := (op r.bits y).bits, flags := r.flags ||| (op r.bits y).flags }) (.quiet x)

theorem fpVred_ordered (t : VType) {k : RedOp} (rm : RMode) (ftz : Bool) (act all : List Nat) (hk : k ≠ .sum) :
    fpVred t k rm ftz act all = orderedRed t ftz (fpReduce t k rm ftz)
      (if k = .min then t.fmt.inf false else if k = .max then t.fmt.inf true else 0) act := by
  cases k
  case sum => exact absurd rfl hk
  all_goals rcases act with - | ⟨x, - | ⟨y, l⟩⟩ <;> rfl

theorem floatingReductions : Claim.FloatingReductions := by
  intro s t m k d a ht hk hs hvl hfit hmvl hd hp hdec hlt f ftz rm act all fold r
  have hres : fpVred t k rm (s.ftzFor t) act all = r := by
    have hfold (op : Nat → Nat → Res) (unit : Nat) : orderedRed t ftz op unit act = fold op unit := by
      simp only [fold]
      generalize act = l
      rcases l with - | ⟨x, - | ⟨y, l⟩⟩ <;> rfl
    cases k with
    | sum =>
      have hlen : all.length = s.v.vl := by rw [List.length_map, List.length_range]
      simp only [fpVred, hlen, r]
      rfl
    | min => exact (fpVred_ordered t (k := .min) rm ftz act all nofun).trans (hfold _ _)
    | max => exact (fpVred_ordered t (k := .max) rm ftz act all nofun).trans (hfold _ _)
    | seq => exact (fpVred_ordered t (k := .seq) rm ftz act all nofun).trans (hfold _ _)
    | and | or | xor => exact absurd ((isI_of_isF ht).symm.trans hk) nofun
  obtain ⟨hquiet, htrap⟩ := exec_vred_fp ⟨hs, hvl, hfit, hmvl, hd, hp⟩ ht hdec hlt hres
  exact ⟨hquiet, fun hen => by rw [htrap hen, State.raiseFlags_eq]; rfl⟩

end Sys2Proof.Machine
end


section
/-! VSCAN (R454), for O26. -/

namespace Sys2Proof.Machine

/-! ## The active element before -/

theorem Vlc.previous_congr {v w : Vlc} (h : v.masks = w.masks) (m : MReg) (i : Nat) : v.previous m i = w.previous m i := by
  have hm : v.mask m = w.mask m := by unfold Vlc.mask; rw [h]
  induction i with
  | zero => rfl
  | succ i ih => rw [Vlc.previous, Vlc.previous, hm, ih]

/-- Nothing before it is allowed by the mask, or the highest that is. -/
theorem Vlc.previous_spec (v : Vlc) (m : MReg) (i : Nat) :
    (v.previous m i = none ∧ ∀ h < i, (v.mask m).getLsbD h = false) ∨
      ∃ j, v.previous m i = some j ∧ j < i ∧ (v.mask m).getLsbD j = true ∧ ∀ g, j < g → g < i → (v.mask m).getLsbD g = false := by
  induction i with
  | zero => exact .inl ⟨rfl, fun h hh => absurd hh (Nat.not_lt_zero h)⟩
  | succ i ih =>
    by_cases hi : (v.mask m).getLsbD i = true
    · exact .inr ⟨i, if_pos hi, Nat.lt_succ_self i, hi, fun g h1 h2 => by omega⟩
    · have hprev : v.previous m (i + 1) = v.previous m i := if_neg hi
      rcases ih with ⟨hn, hall⟩ | ⟨j, hj, hlt, hset, hclear⟩
      · refine .inl ⟨hprev.trans hn, fun h hh => ?_⟩
        rcases Nat.lt_succ_iff_lt_or_eq.1 hh with hh | rfl
        exacts [hall h hh, Bool.eq_false_iff.2 hi]
      · refine .inr ⟨j, hprev.trans hj, by omega, hset, fun g h1 h2 => ?_⟩
        rcases Nat.lt_succ_iff_lt_or_eq.1 h2 with h2 | rfl
        exacts [hclear g h1 h2, Bool.eq_false_iff.2 hi]

section
variable {s : State} {t : VType} {m : MReg} {k : RedOp} {d a : VReg}

theorem Vlc.allowed_iff (v : Vlc) (m : MReg) {j : Nat} (hvl : v.vl ≤ 8192) (hj : j < v.vl) :
    v.allowed m j = (v.mask m).getLsbD j := by
  rw [Vlc.allowed, decide_eq_true hj, Bool.true_and, Vlc.mask_bit _ _ (by omega)]

theorem Vlc.lt_of_allowed {v : Vlc} {j : Nat} (h : v.allowed m j = true) : j < v.vl :=
  of_decide_eq_true (Bool.and_eq_true_iff.1 h).1

/-- The active element before one below VL, as the mask and VL allow it. -/
theorem Vlc.previous_allowed {v : Vlc} {i : Nat} (hvl : v.vl ≤ 8192) (hi : i < v.vl) :
    (v.previous m i = none ∧ ∀ h < i, v.allowed m h = false) ∨
      ∃ j, v.previous m i = some j ∧ j < i ∧ v.allowed m j = true ∧ ∀ g, j < g → g < i → v.allowed m g = false := by
  rcases v.previous_spec m i with ⟨hn, hall⟩ | ⟨j, hj, hlt, hset, hclear⟩
  · exact .inl ⟨hn, fun h hh => (v.allowed_iff m hvl (hh.trans hi)).trans (hall h hh)⟩
  · exact .inr ⟨j, hj, hlt, (v.allowed_iff m hvl (hlt.trans hi)).trans hset,
      fun g h1 h2 => (v.allowed_iff m hvl (h2.trans hi)).trans (hclear g h1 h2)⟩

/-! ## One element -/

/-- What VSCAN computes for an element from the result before it, if there is one. -/
def State.scanStep (s : State) (t : VType) (k : RedOp) (prev : Option Nat) (x : Nat) : Res :=
  match prev with
  | none => if t.isI then .quiet x else fpPass t.fmt (s.ftzFor t) x
  | some p => if t.isI then .quiet (intReduce t k p x) else fpReduce t k (RMode.ofRm s.v.fpc.rm) (s.ftzFor t) p x

/-- A scan, begun at element 0, of a type whose flags do not stop it. -/
structure Scannable (s : State) (t : VType) (d a : VReg) : Prop extends Reducible s t d a where
  start : s.v.vstart = 0
  type : t.isI = true ∨ t.isF = true ∧ s.v.fpc.en = 0

theorem Scannable.active (h : Scannable s t d a) (r : VecReg) (fl : Flags) (j : Nat) :
    (s.filled d r fl).v.active m j = s.v.allowed m j := by
  refine Bool.eq_iff_iff.2 ((Vlc.active_iff (v := s.v) h.vl).trans ?_)
  unfold Vlc.live Vlc.allowed Vlc.bit
  rw [h.start]
  simp

theorem Scannable.payload_eq (h : Scannable s t d a) (x : Nat) : payload t x = x := payload_id (h.type.imp id And.left) x

theorem scanStep_lt (h : Scannable s t d a) {prev : Option Nat} {x : Nat} (hp : ∀ p, prev = some p → p < 2 ^ t.width)
    (hx : x < 2 ^ t.width) : (s.scanStep t k prev x).bits < 2 ^ t.width := by
  rcases h.type with hi | ⟨hf, -⟩
  · cases prev <;> simp only [State.scanStep, hi, if_true, Res.quiet]
    · exact hx
    · exact intReduce_lt k (hp _ rfl) hx
  · cases prev <;> simp only [State.scanStep, isI_of_isF hf, Bool.false_eq_true, if_false]
    · exact fpPass_lt hf _ _
    · exact fpReduce_lt hf k _ _ _ _

/-- An element of VSCAN whose source and predecessor are read computes its step. -/
theorem memScan_writes (t : VType) (m : MReg) (k : RedOp) (d a : VReg) :
    ∃ g, memScan t m k d a = Member.writes t m d g ∧ ∀ (s : State) (r : VecReg) (fl : Flags) (i x : Nat), Scannable s t d a →
      (s.filled d r fl).readElem t a i = .ok x →
      (∀ j, s.v.previous m i = some j → s.v.fits t.width j = true) →
      g (s.filled d r fl) i =
        .ok ((s.scanStep t k ((s.v.previous m i).map (r.elem t.width)) x).bits,
          (s.filled d r fl).raiseFlags (s.scanStep t k ((s.v.previous m i).map (r.elem t.width)) x).flags) := by
  refine ⟨_, rfl, fun s r fl i x h hx hfit => ?_⟩
  have hprev : (s.filled d r fl).v.previous m i = s.v.previous m i :=
    Vlc.previous_congr (v := (s.filled d r fl).v) (w := s.v) rfl m i
  have hflag (f : Flags) (ht : t.isF = true ∧ s.v.fpc.en = 0) : (s.filled d r fl).flagged f = .ok ((s.filled d r fl).raiseFlags f) :=
    State.flagged_ok ((congrArg (· &&& f) ht.2).trans BitVec.zero_and)
  have hftz : (s.filled d r fl).ftzFor t = s.ftzFor t := rfl
  have hrm : (s.filled d r fl).v.fpc.rm = s.v.fpc.rm := rfl
  simp only [hx, hprev, bind, Except.bind]
  cases hj : s.v.previous m i with
  | none =>
    rcases h.type with hi | hf
    · simp only [hi, State.scanStep, Option.map_none, if_true, Res.quiet, State.raiseFlags_zero]
    · simp only [isI_of_isF hf.1, hflag _ hf, hftz, State.scanStep, Option.map_none, Bool.false_eq_true, if_false]
  | some j =>
    have hscan : (s.filled d r fl).scanned t d j = .ok (r.elem t.width j) := by
      have hfit' : (s.filled d r fl).v.fits t.width j = true := hfit j hj
      have hreg : (s.filled d r fl).v.vreg d = r := s.filled_vreg_same d r fl
      have hst : (s.filled d r fl).v.vstart = 0 := h.start
      rw [State.scanned, if_pos ⟨hst ▸ Nat.zero_le j, hfit'⟩, hreg, h.payload_eq]
    simp only [hscan]
    rcases h.type with hi | hf
    · simp only [hi, State.scanStep, Option.map_some, if_true, Res.quiet, State.raiseFlags_zero]
    · simp only [isI_of_isF hf.1, hflag _ hf, hftz, hrm, State.scanStep, Option.map_some, Bool.false_eq_true, if_false]

/-! ## The run over the elements -/

/-- Register `r` with the elements of the scan below `e` performed: each is a step from the one before it in `r` itself. -/
structure ScanDone (s : State) (t : VType) (m : MReg) (k : RedOp) (d a : VReg) (e : Nat) (r : VecReg) : Prop where
  kept : ∀ j, ¬(s.v.allowed m j = true ∧ j < e) →
    r.img.extractLsb' (t.width * j) t.width = (s.v.vregs[d.toNat]).img.extractLsb' (t.width * j) t.width
  value : ∀ j, s.v.allowed m j = true → j < e →
    r.elem t.width j = (s.scanStep t k ((s.v.previous m j).map (r.elem t.width)) (s.v.element t a j)).bits

theorem VecReg.elem_lt (r : VecReg) (w j : Nat) : r.elem w j < 2 ^ w := by
  rw [VecReg.elem_eq]; exact BitVec.isLt _

/-- A scan's element read before its turn is the one at the start. -/
theorem ScanDone.reads {e : Nat} {r : VecReg} (hdone : ScanDone s t m k d a e r) (h : Scannable s t d a)
    (hpoison : r.poison = (s.v.vregs[d.toNat]).poison) (he : e < s.v.vl) (fl : Flags) :
    (s.filled d r fl).readElem t a e = .ok (s.v.element t a e) := by
  have hfit : s.v.fits t.width e = true := Vlc.fits_below h.fits he
  have hpa : (s.v.vregs[a.toNat]).poison.getLsbD (t.width * e / 64) = false := by rw [h.poison]; exact BitVec.getLsbD_zero
  by_cases ha : a = d
  · subst ha
    have hr := s.filled_vreg_same a r fl
    rw [State.readElem_ok (s := s.filled a r fl) hfit (by rw [hr, hpoison]; exact hpa)]
    unfold Vlc.element
    rw [hr, hdone.kept e (by omega)]
  · have hr := s.filled_vreg_other r fl ha
    rw [State.readElem_ok (s := s.filled d r fl) hfit (by rw [hr]; exact hpa)]
    unfold Vlc.element
    rw [hr]

theorem ScanDone.skip {e : Nat} {r : VecReg} (hdone : ScanDone s t m k d a e r) (he : s.v.allowed m e = false) :
    ScanDone s t m k d a (e + 1) r where
  kept j hj := hdone.kept j fun ⟨hl, hlt⟩ => hj ⟨hl, by omega⟩
  value j hl hlt := hdone.value j hl <| by
    rcases Nat.lt_succ_iff_lt_or_eq.1 hlt with h | rfl
    exacts [h, absurd (hl.symm.trans he) nofun]

theorem ScanDone.step {e x : Nat} {r : VecReg} (hdone : ScanDone s t m k d a e r) (hvl : s.v.vl ≤ 8192)
    (he : s.v.allowed m e = true) (hfit : t.width * (e + 1) ≤ 262144) (hlt : x < 2 ^ t.width)
    (hx : x = (s.scanStep t k ((s.v.previous m e).map (r.elem t.width)) (s.v.element t a e)).bits) :
    ScanDone s t m k d a (e + 1) (r.put t.width e x) := by
  have helem (j : Nat) : (r.put t.width e x).elem t.width j = if j = e then x else r.elem t.width j := by
    rw [VecReg.elem_eq, VecReg.put_extract _ _ _ hfit, VecReg.elem_eq]
    split
    · exact Nat.mod_eq_of_lt hlt
    · rfl
  have hprev (j : Nat) (hj : j ≤ e) : (s.v.previous m j).map ((r.put t.width e x).elem t.width) =
      (s.v.previous m j).map (r.elem t.width) := by
    have hjvl : j < s.v.vl := hj.trans_lt (Vlc.lt_of_allowed he)
    rcases Vlc.previous_allowed (m := m) hvl hjvl with ⟨hn, -⟩ | ⟨h, hs, hlt, -⟩
    · rw [hn]; rfl
    · rw [hs, Option.map_some, Option.map_some, helem, if_neg (by omega)]
  refine ⟨fun j hj => ?_, fun j hl hj => ?_⟩
  · rw [VecReg.put_extract _ _ _ hfit, if_neg (by rintro rfl; exact hj ⟨he, by omega⟩)]
    exact hdone.kept j fun ⟨hl, hlt⟩ => hj ⟨hl, by omega⟩
  · rw [helem, hprev j (by omega)]
    split
    · subst_vars; rfl
    · exact hdone.value j hl (by omega)

/-- Only the image of the register counts. -/
theorem ScanDone.congr_img {e : Nat} {r r' : VecReg} (hdone : ScanDone s t m k d a e r) (h : r'.img = r.img) :
    ScanDone s t m k d a e r' := by
  have helem : r'.elem t.width = r.elem t.width := funext fun j => by rw [VecReg.elem_eq, h, VecReg.elem_eq]
  exact ⟨fun j hj => by rw [h, hdone.kept j hj], fun j hl hj => by rw [helem, hdone.value j hl hj]⟩

/-- VSCAN of a type whose flags do not stop it fills its register with the scan. -/
theorem exec_vscan (h : Scannable s t d a) (hdec : decodeStop (.vscan t m k d a) s = none) (hvl : 0 < s.v.vl) :
    ∃ r fl, exec (.vscan t m k d a) s = .next (((s.filled d r fl).clearVstart).past (.vscan t m k d a)) ∧
      (t.isI = true → fl = 0) ∧ ScanDone s t m k d a s.v.vl r := by
  obtain ⟨g, hm, hg⟩ := memScan_writes t m k d a
  have hm : loneMember (.vscan t m k d a) = some (Member.writes t m d g) := congrArg some hm
  have hlo : phaseLo [Member.writes t m d g] s = 0 := (phaseLo_lone fun hb => nomatch (hb : false = true)).trans h.start
  have hst : s.startAt 0 = s := h.start ▸ s.startAt_vstart
  have hstep : ∀ e u, 0 ≤ e → e < 0 + s.v.vl →
      (∃ r fl, u = s.filled d r fl ∧ (t.isI = true → fl = 0) ∧
        r.poison = (s.v.vregs[d.toNat]).poison ∧ ScanDone s t m k d a e r) →
      ∃ w, (Member.writes t m d g).elem s u e = .ok w ∧
        ∃ r fl, w = s.filled d r fl ∧ (t.isI = true → fl = 0) ∧
          r.poison = (s.v.vregs[d.toNat]).poison ∧ ScanDone s t m k d a (e + 1) r := by
    rintro e u - he ⟨r, fl, rfl, hfl, hpoison, hdone⟩
    rw [Nat.zero_add] at he
    have hfits : s.v.fits t.width e = true := Vlc.fits_below h.fits he
    have hact := h.active (m := m) r fl e
    cases hl : s.v.allowed m e with
    | false =>
      have hoff : ¬(s.filled d r fl).v.active m e = true := by rw [hact, hl]; nofun
      exact ⟨_, if_neg hoff, r, fl, rfl, hfl, hpoison, hdone.skip hl⟩
    | true =>
      have hfitsPrev (j : Nat) (hj : s.v.previous m e = some j) : s.v.fits t.width j = true := by
        rcases Vlc.previous_allowed (m := m) h.vl he with ⟨hn, -⟩ | ⟨i, hi, hlt, -⟩
        · exact absurd (hn.symm.trans hj) nofun
        · obtain rfl := Option.some.inj (hi.symm.trans hj)
          exact Vlc.fits_below h.fits (hlt.trans he)
      have hcalc := hg s r fl e _ h (hdone.reads h hpoison he fl) hfitsPrev
      generalize hres : s.scanStep t k ((s.v.previous m e).map (r.elem t.width)) (s.v.element t a e) = res at hcalc
      have hbits : res.bits < 2 ^ t.width := by
        rw [← hres]
        refine scanStep_lt h (fun p hp => ?_) (s.v.element_lt t a e)
        obtain ⟨j, -, rfl⟩ := Option.map_eq_some_iff.1 hp
        exact r.elem_lt _ j
      refine ⟨s.filled d (r.put t.width e res.bits) (fl ||| res.flags), ?_, _, _, rfl, fun hi => ?_, hpoison,
        hdone.step h.vl hl ((of_decide_eq_true hfits).trans (by have := h.mvl; omega)) hbits (by rw [hres])⟩
      · refine (if_pos (hact.trans hl)).trans ?_
        show ((g (s.filled d r fl) e).map fun y => y.2.writeElem t d e y.1).mapError (fun st => (e, st)) = _
        rw [hcalc, State.filled_raiseFlags]
        refine congrArg Except.ok ((State.filled_writeElem _ _ _ h.held hfits).trans ?_)
        rw [h.payload_eq]
      · have hquiet : res.flags = 0 := by
          rw [← hres]
          unfold State.scanStep
          split <;> exact (congrArg Res.flags (if_pos hi)).trans rfl
        rw [hfl hi, hquiet]
        rfl
  have hstart : ScanDone s t m k d a 0 s.v.vregs[d.toNat] :=
    ⟨fun _ _ => rfl, fun j _ hj => absurd hj (Nat.not_lt_zero j)⟩
  obtain ⟨u, hrun, r, fl, rfl, hfl, -, hdone⟩ :=
    runElems_keeps ⟨_, _, (s.filled_self d).symm, fun _ => rfl, rfl, hstart⟩ hstep
  obtain ⟨r', hclose, himg⟩ := s.filled_cover_img (t := t) (e := s.v.vl) (act := (s.filled d r fl).v.active m) r fl h.held
  rw [Nat.zero_add] at hdone
  have hrun' : runElems ((Member.writes t m d g).elem (s.startAt (phaseLo [Member.writes t m d g] s)))
      (s.startAt (phaseLo [Member.writes t m d g] s)) (phaseLo [Member.writes t m d g] s)
      (s.v.vl - phaseLo [Member.writes t m d g] s) = (s.filled d r fl, none) := by rwa [hlo, hst]
  have hexec := exec_lone_completes hm hdec trivial h.smooth nofun hvl hrun' (by
    rw [show (Member.writes t m d g).close (s.filled d r fl) s.v.vl true = s.filled d r' fl from hclose]; exact h.smooth)
  rw [show (Member.writes t m d g).close (s.filled d r fl) s.v.vl true = s.filled d r' fl from hclose] at hexec
  exact ⟨r', fl, hexec, hfl, hdone.congr_img himg⟩

/-! ## The scan of an integer type -/

/-- No active element lies between: the active ones below the higher are those up to the lower. -/
theorem filter_range_gap {p : Nat → Bool} {i j : Nat} (hij : i ≤ j) (hgap : ∀ g, i ≤ g → g < j → p g = false) :
    (List.range j).filter p = (List.range i).filter p := by
  obtain ⟨n, rfl⟩ := Nat.exists_eq_add_of_le hij
  rw [List.range_add, List.filter_append]
  refine (congrArg (_ ++ ·) (List.filter_eq_nil_iff.2 fun g hg => ?_)).trans (List.append_nil _)
  obtain ⟨b, hb, rfl⟩ := List.mem_map.1 hg
  have hb := List.mem_range.1 hb
  rw [hgap _ (Nat.le_add_right i b) (by omega)]
  nofun

/-- The values of the active elements below `n`. -/
def Vlc.valuesUpTo (v : Vlc) (t : VType) (m : MReg) (a : VReg) (n : Nat) : List Nat :=
  ((List.range n).filter (v.allowed m)).map (v.element t a)

theorem Vlc.valuesUpTo_succ {v : Vlc} {j : Nat} (h : v.allowed m j = true) :
    v.valuesUpTo t m a (j + 1) = v.valuesUpTo t m a j ++ [v.element t a j] := by
  unfold Vlc.valuesUpTo
  rw [List.range_succ, List.filter_append, List.filter_cons_of_pos h, List.filter_nil, List.map_append, List.map_singleton]

theorem Vlc.valuesUpTo_gap {v : Vlc} {i j : Nat} (hij : i ≤ j) (hgap : ∀ g, i ≤ g → g < j → v.allowed m g = false) :
    v.valuesUpTo t m a j = v.valuesUpTo t m a i := by
  unfold Vlc.valuesUpTo
  rw [filter_range_gap hij hgap]

/-- Each active element of an integer scan holds the reduction up to it. -/
theorem ScanDone.int {r : VecReg} (hdone : ScanDone s t m k d a s.v.vl r) (hvl : s.v.vl ≤ 8192) (ht : t.isI = true) (j : Nat)
    (hj : s.v.allowed m j = true) : r.elem t.width j = intVred t k (s.v.valuesUpTo t m a (j + 1)) := by
  induction j using Nat.strong_induction_on with
  | _ j ih =>
    have hlt := Vlc.lt_of_allowed hj
    rw [hdone.value j hj hlt, Vlc.valuesUpTo_succ hj]
    rcases Vlc.previous_allowed (m := m) hvl hlt with ⟨hn, hall⟩ | ⟨i, hi, hij, hset, hclear⟩
    · rw [hn, Vlc.valuesUpTo_gap (Nat.zero_le j) fun g _ hg => hall g hg]
      refine Eq.trans (congrArg Res.bits (if_pos ht)) ?_
      exact (intVred_singleton ht k (s.v.element_lt t a j)).symm
    · rw [hi, Vlc.valuesUpTo_gap hij fun g h1 h2 => hclear g h1 h2, intVred_append, ← ih i hij hset]
      exact congrArg Res.bits (if_pos ht)

end

/-! ## The obligation -/

theorem integerReductions : Claim.IntegerReductions := by
  intro s t m k d a ht hs hvl hfit hmvl hd hp upTo done
  have hred : Reducible s t d a := ⟨hs, hvl, hfit, hmvl, hd, hp⟩
  refine ⟨fun hdec hlt => ?_, fun hdec h0 hpos _ _ => ?_⟩
  · obtain ⟨r, hexec, hfirst, hrest⟩ := exec_vred_int hred ht hdec hlt
    rw [State.filled_zero] at hexec
    rw [intVred_eq ht] at hfirst
    exact ⟨r, hexec, hfirst, hrest⟩
  · obtain ⟨r, fl, hexec, hfl, hdone⟩ := exec_vscan ⟨hred, h0, .inl ht⟩ hdec hpos
    rw [hfl ht, State.filled_zero] at hexec
    refine ⟨r, hexec, fun j => ?_⟩
    split
    · have hint : r.elem t.width j = intVred t k (upTo (j + 1)) := hdone.int hvl ht j ‹_›
      rw [← intVred_eq ht, ← hint, VecReg.elem_eq, BitVec.ofNat_toNat, BitVec.setWidth_eq]
    · exact hdone.kept j fun h => ‹¬_› h.1

theorem scansFinish : Claim.ScansFinish := by
  intro s t m k d a i hwf ht hdec hs hvl hfit hmvl hd h0 hen hp ftz op
  have hscan : Scannable s t d a := ⟨⟨hs, hvl, hfit, hmvl, hd, hp⟩, h0, .inr ⟨ht, hen⟩⟩
  have hi := isI_of_isF ht
  by_cases hzero : s.v.vl = 0
  · have hnone (j : Nat) : s.v.allowed m j = false := Bool.eq_false_iff.2 fun h => by
      have := Vlc.lt_of_allowed h; omega
    refine ⟨_, exec_lone_zero (m := memScan t m k d a) rfl hdec trivial hs nofun hzero, rfl, rfl, rfl, rfl, fun _ _ => rfl,
      fun j hj => absurd ((hnone j).symm.trans hj) nofun, fun h j _ _ hj => absurd ((hnone j).symm.trans hj) nofun, fun _ _ => rfl⟩
  obtain ⟨r, fl, hexec, -, hdone⟩ := exec_vscan hscan hdec (Nat.pos_of_ne_zero hzero)
  refine ⟨_, hexec, rfl, rfl, rfl, rfl, ?_⟩
  have helem (j : Nat) : (((s.filled d r fl).clearVstart).past i).v.element t d j = r.elem t.width j := by
    rw [Vlc.element_eq, hscan.payload_eq, show (((s.filled d r fl).clearVstart).past i).v.vregs[d.toNat] = r from s.filled_vreg_same d r fl]
  refine ⟨fun j hj => (helem j).trans ?_, fun j hj hfirst => (helem j).trans ?_, fun h j hhj hh hj hgap =>
    (helem j).trans (Eq.trans ?_ (congrArg (fun x => (op x (s.v.element t a j)).bits) (helem h).symm)), fun q hq => s.filled_vreg_other r fl hq⟩
  · rw [VecReg.elem_eq, hdone.kept j fun h => absurd (hj.symm.trans h.1) nofun, ← VecReg.elem_eq, Vlc.element_eq, hscan.payload_eq]
  · have hlt := Vlc.lt_of_allowed hj
    rw [hdone.value j hj hlt]
    rcases Vlc.previous_allowed (m := m) hvl hlt with ⟨hn, -⟩ | ⟨g, -, hg, hset, -⟩
    · rw [hn]
      exact congrArg Res.bits (if_neg (by simp [hi]))
    · exact absurd ((hfirst g hg).symm.trans hset) nofun
  · have hlt := Vlc.lt_of_allowed hj
    rw [hdone.value j hj hlt]
    rcases Vlc.previous_allowed (m := m) hvl hlt with ⟨-, hall⟩ | ⟨g, hg, hgj, hset, hclear⟩
    · exact absurd ((hall h hhj).symm.trans hh) nofun
    · obtain rfl : g = h := by
        rcases Nat.lt_trichotomy g h with hlt | rfl | hlt
        · exact absurd ((hclear h hlt hhj).symm.trans hh) nofun
        · rfl
        · exact absurd ((hgap g hlt hgj).symm.trans hset) nofun
      rw [hg]
      refine (congrArg Res.bits (if_neg (by simp [hi]))).trans ?_
      cases k <;> rfl

/-- Settles O26: VRED in one step, VSCAN by the run over its elements, and the tree by its levels. -/
theorem reductionsFollowTheirTree : Obligations.ReductionsFollowTheirTree :=
  ⟨integerReductions, floatingReductions, scansFinish, treeSumHalves⟩

end Sys2Proof.Machine
end


section
/-! SUPPORT. Accesses of vector elements that nothing stops (R147 to R150, R302): where they lie, and what they leave unchanged. -/

namespace Sys2Proof.Machine

/-! ## What an access looks at beside memory -/

/-- Translations, grant regions, watchpoints and STEPCTL are as they were: what the checks of an access look at, beside the VLC. -/
structure State.SameWays (s u : State) : Prop where
  dies : u.dies = s.dies
  endpoint : u.endpoint = s.endpoint
  regions : u.regions = s.regions
  core : ∀ c, (u.core c).tlb = (s.core c).tlb ∧ (u.core c).watch = (s.core c).watch ∧ (u.core c).stepctl = (s.core c).stepctl

theorem State.SameWays.refl (s : State) : s.SameWays s := ⟨rfl, rfl, rfl, fun _ => ⟨rfl, rfl, rfl⟩⟩

theorem State.SameWays.trans {s u w : State} (h : s.SameWays u) (k : u.SameWays w) : s.SameWays w where
  dies := k.dies.trans h.dies
  endpoint := k.endpoint.trans h.endpoint
  regions := k.regions.trans h.regions
  core c := by
    obtain ⟨h1, h2, h3⟩ := h.core c
    obtain ⟨k1, k2, k3⟩ := k.core c
    exact ⟨k1.trans h1, k2.trans h2, k3.trans h3⟩

theorem State.SameWays.of_records {s u : State} (hd : u.dies = s.dies) (he : u.endpoint = s.endpoint) (hr : u.regions = s.regions)
    (hc : u.cores = s.cores) : s.SameWays u := ⟨hd, he, hr, fun c => by
  have h : u.core c = s.core c := by unfold State.core; rw [hc]
  rw [h]; exact ⟨rfl, rfl, rfl⟩⟩

theorem State.sameWays_setV (s : State) (f : Vlc → Vlc) : s.SameWays (s.setV f) := .of_records rfl rfl rfl rfl

theorem State.sameWays_counted {s u : State} (h : s.counted u) : s.SameWays u := by
  rw [show u = _ from h]
  exact .of_records rfl rfl rfl rfl

theorem State.sameWays_setCore (s : State) (c : Nat) {f : Core → Core} (h : (f (s.core c)).tlb = (s.core c).tlb ∧
    (f (s.core c)).watch = (s.core c).watch ∧ (f (s.core c)).stepctl = (s.core c).stepctl) : s.SameWays (s.setCore c f) where
  dies := rfl
  endpoint := rfl
  regions := rfl
  core d := by
    by_cases e : d = c
    · subst e; rw [State.core_setCore_same]; exact h
    · rw [State.core_setCore_other s f e]; exact ⟨rfl, rfl, rfl⟩

/-- The events that a write makes due. -/
def State.wroteEvents (s : State) (at_ : Place) : State :=
  { s with events := s.events ++ (s.vlcs.flatMap fun v => v.woken at_.line) ++ s.rereads at_.line }

theorem State.sameWays_wrote (s : State) (at_ : Place) : s.SameWays (s.wrote at_) := by
  cases at_ with
  | phys pa => exact .of_records rfl rfl rfl rfl
  | cmem c o => exact .of_records rfl rfl rfl rfl
  | spad c o =>
    refine State.SameWays.trans (u := s.wroteEvents (.spad c o)) (.of_records rfl rfl rfl rfl) ?_
    unfold State.wrote
    refine State.sameWays_setCore (s.wroteEvents (.spad c o)) c ?_
    simp only
    split <;> exact ⟨rfl, rfl, rfl⟩

theorem State.sameWays_setSpaceMem (s : State) (x : Space) (m : Memory) : s.SameWays (s.setSpaceMem x m) := by
  cases x with
  | glob | cmem => exact .of_records rfl rfl rfl rfl
  | spad => exact State.sameWays_setCore s _ (f := fun c => { c with spad := m }) ⟨rfl, rfl, rfl⟩
  | lane => exact State.sameWays_setCore s _ (f := fun c => { c with lanes := m }) ⟨rfl, rfl, rfl⟩

theorem State.sameWays_wroteSpace (s : State) (x : Space) (o : Nat) : s.SameWays (s.wroteSpace x o) := by
  cases x with
  | lane => exact .refl s
  | glob => exact State.sameWays_wrote s (s.spacePlace .glob o)
  | cmem => exact State.sameWays_wrote s (s.spacePlace .cmem o)
  | spad => exact State.sameWays_wrote s (s.spacePlace .spad o)

theorem State.sameWays_spaceWrite (s : State) (x : Space) (o n y : Nat) : s.SameWays (s.spaceWrite x o n y) :=
  (s.sameWays_setSpaceMem x _).trans (State.sameWays_wroteSpace _ x o)

theorem State.SameWays.direct {s u : State} (h : s.SameWays u) (p : Party) (q : Req) : u.direct p q = s.direct p q := by
  have hdie (d : Nat) : u.die d = s.die d := by unfold State.die; rw [h.dies]
  have htlb : u.tlb1 p = s.tlb1 p := by
    unfold State.tlb1
    cases p.core with
    | none => rfl
    | some c => exact (h.core c).1
  have hcached : u.cached p q.va = s.cached p q.va := by unfold State.cached; simp only [htlb, hdie]
  have hwatched : u.watched p q.kind q.va.toNat q.n = s.watched p q.kind q.va.toNat q.n := by
    unfold State.watched
    cases p.core with
    | none => rfl
    | some c => simp only [(h.core c).2.1]
  unfold State.direct State.granuleOk State.region
  simp only [hcached, hwatched, h.endpoint, h.regions]

/-- A VLC that keeps its status and its stores is as ready to go on as it was. -/
theorem State.SameWays.smooth {s u : State} (h : s.SameWays u) (f : Vlc → Vlc) (hv : u.v = f s.v)
    (hf : (s.setV f).smooth = s.smooth) : u.smooth = s.smooth :=
  (State.smooth_of_eq (s := s.setV f) hv fun c => (h.core c).2.2).trans hf

/-! ## Where an element's access lies -/

/-- Where `eltSpot` names a place, no check of the access fails. -/
theorem State.eltSpot_some {s : State} {k : AccKind} {a : Elt} {o : Nat} (h : s.eltSpot k a = some o) :
    a.late = none ∧ alignOk a.addr.toNat a.bytes = true ∧
      ((a.space = .glob ∧ ∃ pa, s.direct s.party (a.req k) = some pa ∧ (k ≠ .store → s.poisoned pa = false) ∧ dramKey pa = o) ∨
        (a.space ≠ .glob ∧ a.key s = o ∧ inSpace a.space a.addr.toNat a.bytes = true)) := by
  unfold State.eltSpot at h
  split at h
  · cases h
  rename_i hlate
  obtain ⟨p, hp, rfl⟩ := Option.map_eq_some_iff.1 h
  obtain ⟨hal, ⟨hx, hdir⟩ | ⟨hx, rfl, hin⟩⟩ := State.spot_iff_place hp
  · refine ⟨by simpa using hlate, hal, .inl ⟨hx, ?_⟩⟩
    rw [if_neg (by rw [hx]; nofun)]
    exact hdir
  · exact ⟨by simpa using hlate, hal, .inr ⟨hx, rfl, hin⟩⟩

/-- What an access's place depends on. -/
theorem State.SameWays.eltSpot {s u : State} (h : s.SameWays u) (hp : u.party = s.party) (hl : u.v.laneTable = s.v.laneTable)
    {k : AccKind} (hk : k = .store ∨ ∀ pa, u.poisoned pa = s.poisoned pa) (a : Elt) : u.eltSpot k a = s.eltSpot k a := by
  have hspot : u.spot a.space (a.req k) = s.spot a.space (a.req k) := by
    unfold State.spot
    split
    · rfl
    · cases a.space with
      | glob =>
        simp only [h.direct, hp]
        rcases hk with rfl | hk
        · rfl
        · simp only [hk]
      | cmem | spad | lane => rfl
  unfold State.eltSpot
  rw [hspot, hl]

/-- An aligned access within its space meets no check that needs no translation. -/
theorem Elt.check_pass {s : State} {k : AccKind} {a : Elt} (hlate : a.late = none) (hal : alignOk a.addr.toNat a.bytes = true)
    (h : a.space = .glob ∨ inSpace a.space a.addr.toNat a.bytes = true) : a.check s k = .ok () := by
  unfold Elt.check
  cases hs : a.space
  case glob => simp [hal, hlate]
  all_goals
    rw [hs] at h
    simp [hal, h.resolve_left nofun, hlate]

/-- The checks of an element's access that has a place pass. -/
theorem Elt.check_ok {s : State} {k : AccKind} {a : Elt} {o : Nat} (h : s.eltSpot k a = some o) : a.check s k = .ok () := by
  obtain ⟨hlate, hal, ⟨hx, -⟩ | ⟨-, -, hin⟩⟩ := State.eltSpot_some h
  · exact Elt.check_pass hlate hal (.inl hx)
  · exact Elt.check_pass hlate hal (.inr hin)

/-- Past its checks, an access to space 0 is that of the issuing VLC. -/
theorem State.vaccess_glob {s : State} {a : Elt} (hx : a.space = .glob) (x : Nat) :
    (a.check s .load = .ok () → s.vload a = s.load s.party (a.req .load)) ∧
      (a.check s .store = .ok () → s.vstore a x = s.store s.party (a.req .store) x) := by
  unfold State.vload State.vstore
  rw [hx]
  exact ⟨fun h => by rw [h]; rfl, fun h => by rw [h]; rfl⟩

/-- Past its checks, an access to another space is to its bytes there. -/
theorem State.vaccess_local {s : State} {a : Elt} (hx : a.space ≠ .glob) (x : Nat) :
    (a.check s .load = .ok () → s.vload a = .ok ((s.spaceMem a.space).read (a.key s) a.bytes, s)) ∧
      (a.check s .store = .ok () → s.vstore a x = .ok (s.spaceWrite a.space (a.key s) a.bytes x)) := by
  unfold State.vload State.vstore
  cases hs : a.space
  case glob => exact absurd hs hx
  all_goals exact ⟨fun h => by rw [h]; rfl, fun h => by rw [h]; rfl⟩

/-! ## Bytes written -/

/-- `u` differs from `s` in the `n` bytes at `o` of space `x` and in nothing else that is read: the VLC is the same. -/
structure State.Puts (s u : State) (x : Space) (o n : Nat) : Prop where
  ways : s.SameWays u
  vlc : u.v = s.v
  other : ∀ z, z ≠ x → u.spaceMem z = s.spaceMem z
  byte : ∀ b, b < o ∨ o + n ≤ b → (u.spaceMem x).byte b = (s.spaceMem x).byte b

theorem State.puts_spaceWrite (s : State) (x : Space) (o n y : Nat) : s.Puts (s.spaceWrite x o n y) x o n where
  ways := s.sameWays_spaceWrite x o n y
  vlc := State.spaceWrite_v _ _ _ _ _
  other z hz := by rw [State.spaceMem_spaceWrite, if_neg hz]
  byte b hb := by rw [State.spaceMem_spaceWrite, if_pos rfl]; exact Memory.byte_write_other _ _ hb

/-- What a direct store leaves. -/
theorem State.puts_dram (s : State) (pa n y : Nat) : s.Puts (((s.count pa).setDram pa n y).wrote (.phys pa)) .glob (dramKey pa) n where
  ways := State.SameWays.trans (u := (s.count pa).setDram pa n y) (.of_records rfl rfl rfl rfl) (State.sameWays_wrote _ _)
  vlc := State.wrote_v _ _
  other z hz := by
    rw [State.spaceMem_wrote, State.spaceMem_setDram, if_neg hz]
    cases z <;> rfl
  byte b hb := by
    rw [State.spaceMem_wrote, State.spaceMem_setDram, if_pos rfl, Memory.byte_write_other _ _ hb, State.merged_byte]
    rfl

/-- An element's load that nothing stops reads the bytes at its place, and changes counts of accesses alone. -/
theorem State.vload_ok {s : State} {a : Elt} {o : Nat} (h : s.eltSpot .load a = some o) :
    ∃ u, s.vload a = .ok ((s.spaceMem a.space).read o a.bytes, u) ∧ s.counted u := by
  have hcheck := Elt.check_ok h
  obtain ⟨-, -, ⟨hx, pa, hd, hp, rfl⟩ | ⟨hx, rfl, -⟩⟩ := State.eltSpot_some h
  · rw [(State.vaccess_glob hx 0).1 hcheck, hx]
    exact ⟨s.count pa, State.direct_loads hd (hp nofun), rfl⟩
  · exact ⟨s, (State.vaccess_local hx 0).1 hcheck, rfl⟩

/-- An element's store that nothing stops writes bytes at its place alone. -/
theorem State.vstore_ok {s : State} {a : Elt} {o : Nat} (x : Nat) (h : s.eltSpot .store a = some o) :
    ∃ u, s.vstore a x = .ok u ∧ s.Puts u a.space o a.bytes := by
  have hcheck := Elt.check_ok h
  obtain ⟨-, -, ⟨hx, pa, hd, hp, rfl⟩ | ⟨hx, rfl, -⟩⟩ := State.eltSpot_some h
  · exact ⟨_, ((State.vaccess_glob hx x).2 hcheck).trans (State.direct_stores hd), hx ▸ s.puts_dram pa a.bytes x⟩
  · exact ⟨_, (State.vaccess_local hx x).2 hcheck, s.puts_spaceWrite _ _ _ _⟩

/-- An element of a space other than 0 read, and another value written there. -/
theorem State.vrmw_local {s : State} {a : Elt} (hx : a.space ≠ .glob) (f : Nat → Nat) :
    s.vrmw a f = ((s.spaceMem a.space).read (a.key s) a.bytes,
      s.spaceWrite a.space (a.key s) a.bytes (f ((s.spaceMem a.space).read (a.key s) a.bytes))) := by
  unfold State.vrmw
  cases hs : a.space
  case glob => exact absurd hs hx
  all_goals rfl

/-! ## Bytes that no access meets -/

theorem State.within_refl (s : State) (k : AccKind) (l : Elt → Prop) : s.within s k l := fun _ _ _ => rfl

/-- An access among those of `l` that is performed changes no byte that lies without. -/
theorem State.within_puts {s u w : State} {k : AccKind} {l : Elt → Prop} {a : Elt} {o : Nat} (h : s.within u k l) (ha : l a)
    (hs : s.eltSpot k a = some o) (hput : u.Puts w a.space o a.bytes) : s.within w k l := by
  intro x b hb
  by_cases hx : x = a.space
  · subst hx
    rw [hput.byte b (hb a ha rfl o hs), h a.space b hb]
  · rw [hput.other x hx, h x b hb]

/-- Only the memories count. -/
theorem State.within_spaceMem {s u w : State} {k : AccKind} {l : Elt → Prop} (h : s.within u k l)
    (hm : ∀ x, w.spaceMem x = u.spaceMem x) : s.within w k l := fun x b hb => by rw [hm, h x b hb]

/-- A change of the VLC that leaves it on its core changes no memory. -/
theorem State.spaceMem_setV (s : State) {f : Vlc → Vlc} (h : (f s.v).core = s.v.core) (x : Space) :
    (s.setV f).spaceMem x = s.spaceMem x := by
  cases x with
  | glob => rfl
  | cmem => exact congrArg (fun c => (s.cluster (clusterOf c)).cmem) h
  | spad => exact congrArg (fun c => (s.core c).spad) h
  | lane => exact congrArg (fun c => (s.core c).lanes) h

end Sys2Proof.Machine
end


section
/-! What an element of a vector access does in its space (R147 to R150), and the elements of VSTXA and VBIN (R173, R450), for O29. -/

namespace Sys2Proof.Machine

/-! ## Loads and stores -/

theorem alignOk_of_mod {a n : Nat} (h : a % n = 0) : alignOk a n = true := by simp [alignOk, h]

/-- An access outside its space. -/
theorem Elt.check_outside {s : State} {k : AccKind} {a : Elt} (hal : alignOk a.addr.toNat a.bytes = true) (hx : a.space ≠ .glob)
    (h : spaceExtent a.space < a.addr.toNat + a.bytes) : a.check s k = .error (.prot 5 a.addr) := by
  have hin : inSpace a.space a.addr.toNat a.bytes = false := decide_eq_false (Nat.not_le.2 h)
  unfold Elt.check
  cases hs : a.space
  case glob => exact absurd hs hx
  all_goals
    rw [hs] at hin
    simp [hal, hin]

theorem vectorElementSpaces : Claim.VectorElementSpaces := by
  intro s e x hlate _ hmod
  have hal := alignOk_of_mod hmod
  refine ⟨fun hx => ?_, fun hx hle => ?_, fun hx hgt => ?_⟩
  · obtain ⟨hload, hstore⟩ := State.vaccess_glob (s := s) hx x
    exact ⟨hload (Elt.check_pass hlate hal (.inl hx)), hstore (Elt.check_pass hlate hal (.inl hx))⟩
  · have hx : e.space ≠ .glob := by rcases hx with h | h | h <;> rw [h] <;> nofun
    have hin : inSpace e.space e.addr.toNat e.bytes = true := decide_eq_true hle
    obtain ⟨hload, hstore⟩ := State.vaccess_local (s := s) hx x
    have hput := s.puts_spaceWrite e.space (e.key s) e.bytes x
    have hread (hwf : (s.spaceMem e.space).wf = true) :
        ((s.spaceWrite e.space (e.key s) e.bytes x).spaceMem e.space).read (e.key s) e.bytes = x % 256 ^ e.bytes := by
      rw [State.spaceMem_spaceWrite, if_pos rfl, Memory.read_write _ _ _ hwf]
    exact ⟨hload (Elt.check_pass hlate hal (.inr hin)), _, hstore (Elt.check_pass hlate hal (.inr hin)), hput.vlc,
      hput.other .glob hx.symm, hread, hput.byte⟩
  · unfold State.vload State.vstore
    rw [Elt.check_outside hal hx hgt, Elt.check_outside hal hx hgt]
    exact ⟨rfl, rfl⟩

/-! ## Indexes and their elements -/

/-- The signed integer of an element of an image. -/
theorem signed_elem (r : VecReg) (w k : Nat) : signed w (r.elem w k) = (r.img.extractLsb' (w * k) w).toInt := by
  have hlt := (r.img.extractLsb' (w * k) w).isLt
  rw [VecReg.elem_eq, BitVec.toInt_eq_toNat_cond]
  unfold signed
  rw [Nat.mod_eq_of_lt hlt]
  cases w with
  | zero => simp
  | succ w =>
    rw [Nat.add_sub_cancel, Nat.pow_succ]
    split <;> split <;> omega

/-- An access of element `k` to the place that the signed index `x` names, by the stream's address at POS (R163). -/
def State.gather (s : State) (t : VType) (qn : QReg) (k : Nat) (x : Int) : Elt :=
  { space := s.v.mt
    addr := (s.v.streams[qn.toNat]).address (t.width / 8) (s.v.streams[qn.toNat]).pos + BitVec.ofInt 64 (x * (t.width / 8 : Nat))
    bytes := t.width / 8, elem := k, once := false, late := none }

section
variable {s : State} {t : VType} {qn : QReg} {b : VReg} {k : Nat}

theorem State.readIndex_ok (hf : s.v.fits (s.v.vregs[b.toNat]).tagWidth k = true)
    (hp : (s.v.vregs[b.toNat]).poison.getLsbD ((s.v.vregs[b.toNat]).tagWidth * k / 64) = false) :
    s.readIndex b k = .ok ((s.v.vregs[b.toNat]).elem (s.v.vregs[b.toNat]).tagWidth k) := by
  unfold State.readIndex State.readRaw
  rw [show s.v.vreg b = s.v.vregs[b.toNat] from rfl, hf, hp]
  rfl

/-- An index that is read, through a pattern or a tile, names its access. -/
theorem State.indexed_ok (ht : t.isI = true ∨ t.isF = true)
    (hk : (s.v.streams[qn.toNat]).kind = .pattern ∨ (s.v.streams[qn.toNat]).kind = .tile)
    (hf : s.v.fits (s.v.vregs[b.toNat]).tagWidth k = true)
    (hp : (s.v.vregs[b.toNat]).poison.getLsbD ((s.v.vregs[b.toNat]).tagWidth * k / 64) = false) :
    s.indexed t qn b k = .ok (s.gather t qn k
      ((s.v.vregs[b.toNat]).img.extractLsb' ((s.v.vregs[b.toNat]).tagWidth * k) (s.v.vregs[b.toNat]).tagWidth).toInt, .whole) := by
  have hbytes : indexBytes t = t.width / 8 := by
    cases t
    case e4m3 | e5m2 | e2m1 | e4m3x | e2m1x => rcases ht with h | h <;> cases h
    all_goals rfl
  have hoff (x : Int) : indexOffset t x = (BitVec.ofInt 64 (x * (t.width / 8 : Nat)), .whole) := by
    unfold indexOffset
    rw [hbytes, if_neg (not_nibbles ht)]
  unfold State.indexed
  rw [State.readIndex_ok hf hp]
  simp only [bind, Except.bind, hoff, hbytes, show s.v.vreg b = s.v.vregs[b.toNat] from rfl, signed_elem,
    show s.v.stream qn = s.v.streams[qn.toNat] from rfl]
  rcases hk with h | h <;> rw [h] <;> rfl

end

/-! ## VSTXA -/

section
variable {s s0 : State} {t : VType} {m : MReg} {d b : VReg} {qn : QReg} {k x o : Nat} {a : Elt} {p : Part}

/-- An element of VSTXA in a space other than 0 adds to what it finds. -/
theorem vstxa_local (hact : s.v.active m k = true) (hx : s.readElem t d k = .ok x) (hix : s.indexed t qn b k = .ok (a, p))
    (hcheck : a.check s .rmw = .ok ()) (hsp : a.space ≠ .glob) :
    (memVstxa t m d qn b).elem s0 s k =
      let r := addIn t s.rm (s.ftzFor t) ((s.spaceMem a.space).read (a.key s) a.bytes) x
      atElem k ((s.spaceWrite a.space (a.key s) a.bytes r.bits).flagged r.flags) := by
  refine (if_pos hact).trans (congrArg (atElem k) ?_)
  simp only [hx, hix, hcheck, bind, Except.bind, State.vrmw_local hsp]
  cases hs : a.space
  case glob => exact absurd hs hsp
  all_goals rfl

/-- The sum of an integer type wraps at the type. -/
theorem vstxa_local_int (ht : t.isI = true) (hact : s.v.active m k = true) (hx : s.readElem t d k = .ok x)
    (hix : s.indexed t qn b k = .ok (a, p)) (hcheck : a.check s .rmw = .ok ()) (hsp : a.space ≠ .glob) :
    (memVstxa t m d qn b).elem s0 s k =
      .ok (s.spaceWrite a.space (a.key s) a.bytes (((s.spaceMem a.space).read (a.key s) a.bytes + x) % 2 ^ t.width)) := by
  have hsum (old : Nat) : addIn t s.rm (s.ftzFor t) old x = .quiet ((old + x) % 2 ^ t.width) := if_pos ht
  rw [vstxa_local hact hx hix hcheck hsp, hsum]
  exact (congrArg (atElem k) (State.flagged_ok BitVec.and_zero)).trans (congrArg Except.ok (State.raiseFlags_zero _))

/-- A direct read-modify-write of bytes that hold no poison, past its resolution. -/
theorem State.direct_rmwRef {s : State} {q : Req} {pa : Nat} (h : s.direct s.party q = some pa) (hp : s.poisoned pa = false) :
    ∃ r, s.resolve s.party q = .ok r ∧ epOf r.pa = s.endpoint ∧ ∀ (key : Nat) (op : RemoteOp) (f : Nat → Nat),
      s.rmwRef s.party q r key op f = .ok (s.mem.read (dramKey pa) q.n,
        ((s.count pa).setDram pa q.n (f (s.mem.read (dramKey pa) q.n))).wrote (.phys pa)) := by
  obtain ⟨r, hr, rfl, -, hep, -, h11, hn⟩ := State.direct_resolves h
  refine ⟨r, hr, hep, fun key op f => ?_⟩
  simp [State.rmwRef, hep, State.sealOf, h11, State.poisonedUnder, hp, State.readSealed, State.writeSealed, hn, State.dram]

/-- An element of VSTXA in space 0, at a place that is this package's and direct. -/
theorem vstxa_dram {pa : Nat} (hact : s.v.active m k = true) (hx : s.readElem t d k = .ok x)
    (hix : s.indexed t qn b k = .ok (a, p)) (hcheck : a.check s .rmw = .ok ()) (hsp : a.space = .glob)
    (hd : s.direct s.party (a.req .rmw) = some pa) (hp : s.poisoned pa = false) :
    (memVstxa t m d qn b).elem s0 s k =
      let r := addIn t s.rm (s.ftzFor t) (s.mem.read (dramKey pa) a.bytes) x
      atElem k ((((s.count pa).setDram pa a.bytes r.bits).wrote (.phys pa)).flagged r.flags) := by
  obtain ⟨r, hr, hep, hrmw⟩ := State.direct_rmwRef hd hp
  refine (if_pos hact).trans (congrArg (atElem k) ?_)
  simp only [hx, hix, hcheck, bind, Except.bind, hsp, State.addElem, hr, hep, if_true, hrmw]
  rfl

end

/-! ## VBIN -/

/-- The access to the counter of rank `c` that element `k` of VBIN makes (R173). -/
def State.counter (s : State) (t : VType) (b : SReg) (k c : Nat) : Elt :=
  { space := s.v.mt, addr := s.rd b + BitVec.ofNat 64 (c * (t.width / 8)), bytes := t.width / 8, elem := k, once := false,
    late := none }

/-- An element of VBIN counts up, and keeps the count before. -/
theorem vbin_local {s s0 : State} {t : VType} {m : MReg} {d a : VReg} {b : SReg} {k c : Nat} (hact : s.v.active m k = true)
    (hc : s.readElem t a k = .ok c) (hcheck : (s.counter t b k c).check s .rmw = .ok ()) (hsp : s.v.mt ≠ .glob) :
    (memVbin t m d a b).elem s0 s k =
      let old := (s.spaceMem s.v.mt).read ((s.counter t b k c).key s) (t.width / 8)
      .ok ((s.spaceWrite s.v.mt ((s.counter t b k c).key s) (t.width / 8) ((old + 1) % 2 ^ t.width)).writeElem t d k old) := by
  refine (if_pos hact).trans ?_
  have hrmw := State.vrmw_local (s := s) (a := s.counter t b k c) hsp fun old => (old + 1) % 2 ^ t.width
  simp only [State.counter] at hcheck
  simp only [hc, bytesIn, hcheck, bind, Except.bind]
  exact congrArg (fun r : Nat × State => (Except.ok (r.2.writeElem t d k r.1) : Except (Nat × Stop) State)) hrmw

theorem Elt.key_of_ne_lane {s : State} {a : Elt} (h : a.space ≠ .lane) : a.key s = a.addr.toNat := if_neg h

theorem Vlc.clean_bit {v : Vlc} {w k : Nat} {r : VReg} (h : (v.vregs[r.toNat]).poison = 0) :
    (v.vregs[r.toNat]).poison.getLsbD (w * k / 64) = false := by rw [h]; exact BitVec.getLsbD_zero

/-- Bytes written with a sum that wraps at the type read back as the sum. -/
theorem State.read_spaceWrite_width {s : State} {x : Space} (t : VType) (o y : Nat) (hwf : (s.spaceMem x).wf = true) :
    ((s.spaceWrite x o (t.width / 8) (y % 2 ^ t.width)).spaceMem x).read o (t.width / 8) = y % 2 ^ t.width := by
  rw [State.spaceMem_spaceWrite, if_pos rfl, Memory.read_write _ _ _ hwf, pow_bytes, Nat.mod_mod]

/-- The elements of a held register after one of them was written, all of them. -/
theorem State.element_writeElem_held {s : State} {t : VType} {d : VReg} {i : Nat} (x j : Nat)
    (hd : d.toNat < 8 * (s.v.declHeld.toNat + 1)) (hi : s.v.fits t.width i = true) (hmvl : s.v.mvl64 ≤ 4096) :
    (s.writeElem t d i x).v.element t d j = if j = i then payload t (x % 2 ^ t.width) else s.v.element t d j := by
  have hwrite := State.filled_writeElem (t := t) (k := i) s.v.vregs[d.toNat] 0 x hd hi
  have hfit : t.width * (i + 1) ≤ 262144 := (of_decide_eq_true hi).trans (by omega)
  rw [State.filled_self] at hwrite
  rw [hwrite, Vlc.element_eq, State.filled_vreg_same, VecReg.elem_eq, VecReg.put_extract _ _ _ hfit]
  split
  · rw [BitVec.toNat_ofNat, payload_mod, payload_payload]
  · rw [Vlc.element_eq, VecReg.elem_eq]

theorem State.spaceMem_writeElem (s : State) (t : VType) (d : VReg) (i x : Nat) (y : Space) :
    (s.writeElem t d i x).spaceMem y = s.spaceMem y := by
  obtain ⟨regs, hregs⟩ := s.writeElem_eq t d i x
  rw [hregs]
  exact State.spaceMem_setV s rfl y

theorem accumulatingElements : Claim.AccumulatingElements := by
  intro s t m d b qn a k ht hact hfit hmvl hmt hwf n q w ix at_ bin sum
  have hglob : s.v.mt ≠ .glob := by rcases hmt with h | h <;> rw [h] <;> nofun
  have hlane : s.v.mt ≠ .lane := by rcases hmt with h | h <;> rw [h] <;> nofun
  have hfits : s.v.fits t.width k = true := decide_eq_true hfit
  refine ⟨fun hwk hpb hpd hkind hmod hle => ?_, fun hpb hmod hle hd => ?_⟩
  · have hix := State.indexed_ok (s := s) (qn := qn) (b := b) (k := k) (.inl ht) hkind (decide_eq_true hwk) (Vlc.clean_bit hpb)
    have hcheck : (s.gather t qn k ix.toInt).check s .rmw = .ok () :=
      Elt.check_pass rfl (alignOk_of_mod hmod) (.inr (decide_eq_true hle))
    have helem := vstxa_local_int (s0 := s) (d := d) ht hact (State.readElem_ok hfits (Vlc.clean_bit hpd)) hix hcheck hglob
    rw [Elt.key_of_ne_lane hlane] at helem
    have hput := s.puts_spaceWrite s.v.mt at_ n (((s.spaceMem s.v.mt).read at_ n + s.v.element t d k) % 2 ^ t.width)
    exact ⟨_, helem, hput.vlc, State.read_spaceWrite_width t at_ _ hwf, hput.byte⟩
  · have hcheck : (s.counter t a k (s.v.element t b k)).check s .rmw = .ok () :=
      Elt.check_pass rfl (alignOk_of_mod hmod) (.inr (decide_eq_true hle))
    have helem := vbin_local (s0 := s) (d := d) hact (State.readElem_ok hfits (Vlc.clean_bit hpb)) hcheck hglob
    rw [Elt.key_of_ne_lane hlane] at helem
    have hput := s.puts_spaceWrite s.v.mt bin n (((s.spaceMem s.v.mt).read bin n + 1) % 2 ^ t.width)
    have hread := State.read_spaceWrite_width (s := s) t bin ((s.spaceMem s.v.mt).read bin n + 1) hwf
    obtain ⟨u, hu⟩ : ∃ u, s.spaceWrite s.v.mt bin n (((s.spaceMem s.v.mt).read bin n + 1) % 2 ^ t.width) = u := ⟨_, rfl⟩
    rw [hu] at hput hread
    have helem' : (memVbin t m d b a).elem s s k = .ok (u.writeElem t d k ((s.spaceMem s.v.mt).read bin n)) :=
      helem.trans (congrArg Except.ok (congrArg (fun u : State => u.writeElem t d k _) hu))
    have hsame (j : Nat) := State.element_writeElem_held (s := u) (t := t) (i := k) ((s.spaceMem s.v.mt).read bin n) j
      (by rw [hput.vlc]; exact hd) (by rw [hput.vlc]; exact hfits) (by rw [hput.vlc]; exact hmvl)
    refine ⟨_, helem', ⟨by rw [State.spaceMem_writeElem]; exact hread, fun c hc => by rw [State.spaceMem_writeElem]; exact hput.byte c hc⟩,
      ?_, fun j hj => ?_⟩
    · have hlt : (s.spaceMem s.v.mt).read bin n < 2 ^ t.width := pow_bytes t ▸ Memory.read_lt _ _ _
      rw [hsame, if_pos rfl, payload_id (.inl ht), Nat.mod_eq_of_lt hlt]
    · rw [hsame, if_neg hj, hput.vlc]

end Sys2Proof.Machine
end


section
/-! VSTXA (R145, R450) over its elements, for O29. -/

namespace Sys2Proof.Machine

/-! ## What stays while memory is written -/

theorem State.poisoned_congr {s u : State} (hp : u.mem.poison = s.mem.poison) (hc : u.mem.checks = s.mem.checks) (pa : Nat) :
    u.poisoned pa = s.poisoned pa := by
  unfold State.poisoned State.mismatch
  rw [hp, hc]

/-- With no carry check pending a store to DRAM leaves poison and checks as they are. -/
theorem State.wrote_dram_marks {s : State} (h : s.mem.checks = []) (pa n y : Nat) :
    ((((s.count pa).setDram pa n y).wrote (.phys pa)).mem.poison = s.mem.poison) ∧
      (((s.count pa).setDram pa n y).wrote (.phys pa)).mem.checks = s.mem.checks := by
  have hmerged : (s.count pa).merged pa = s.mem := by
    have hu : (s.count pa).unitMismatch pa = false := by
      unfold State.unitMismatch
      rw [State.count_mem, h]
      rfl
    unfold State.merged
    rw [hu]
    rfl
  rw [State.wrote_mem, State.setDram_mem, hmerged, Memory.write_poison, Memory.write_checks]
  exact ⟨rfl, rfl⟩

/-! ## One element -/

section
variable {s u : State} {t : VType} {m : MReg} {d b : VReg} {qn : QReg} {k : Nat}

/-- The access that an indexed form names, in the words of `gather`. -/
theorem State.gatherElt_some {x : Elt × Bool} (ht : t.isI = true ∨ t.isF = true) (h : s.gatherElt t qn b k = some x) :
    s.indexed t qn b k = .ok (x.1, .whole) := by
  unfold State.gatherElt at h
  obtain ⟨hkind, h⟩ := Option.ite_none_right_eq_some.mp h
  obtain ⟨ix, hix, rfl⟩ := Option.map_eq_some_iff.1 h
  unfold Vlc.index at hix
  obtain ⟨⟨hfit, hp⟩, hix⟩ := Option.ite_none_right_eq_some.mp hix
  obtain rfl := Option.some.inj hix
  have hw : 8 * 2 ^ (s.v.vregs[b.toNat]).tag.toNat ≤ 64 := by
    have := Nat.pow_le_pow_right (n := 2) (by decide) (Nat.le_of_lt_succ (s.v.vregs[b.toNat]).tag.isLt)
    omega
  have hbytes : gatherBytes t = t.width / 8 := by
    cases t
    case e4m3 | e5m2 | e2m1 | e4m3x | e2m1x => rcases ht with h | h <;> cases h
    all_goals rfl
  have hoff (x : Int) : gatherOffset t x = BitVec.ofInt 64 (x * (t.width / 8 : Nat)) := by
    unfold gatherOffset
    rw [hbytes, if_neg (not_nibbles ht)]
  rw [State.indexed_ok ht hkind (decide_eq_true hfit) hp]
  unfold State.gather
  rw [hoff, hbytes, BitVec.toInt_signExtend_of_le hw]
  rfl

/-- An element of VSTXA that nothing stops changes bytes at its place, and raises flags. -/
theorem vstxa_elem {s0 : State} {x o : Nat} {a : Elt} {p : Part} (hact : s.v.active m k = true)
    (hx : s.readElem t d k = .ok x) (hix : s.indexed t qn b k = .ok (a, p)) (ho : s.eltSpot .rmw a = some o)
    (hen : t.isI = true ∨ s.v.fpc.en = 0) (hch : a.space ≠ .glob ∨ s.mem.checks = []) :
    ∃ w fl, (memVstxa t m d qn b).elem s0 s k = .ok (w.raiseFlags fl) ∧ s.Puts w a.space o a.bytes ∧
      w.mem.poison = s.mem.poison ∧ w.mem.checks = s.mem.checks := by
  have hflags (w : State) (hw : w.v = s.v) (old : Nat) : w.flagged (addIn t s.rm (s.ftzFor t) old x).flags =
      .ok (w.raiseFlags (addIn t s.rm (s.ftzFor t) old x).flags) := by
    refine State.flagged_ok ?_
    rcases hen with hi | h0
    · rw [show (addIn t s.rm (s.ftzFor t) old x).flags = 0 from (congrArg Res.flags (if_pos hi)).trans rfl]
      exact BitVec.and_zero
    · rw [hw, h0]; exact BitVec.zero_and
  have hcheck := Elt.check_ok ho
  obtain ⟨-, -, ⟨hsp, pa, hd, hp, rfl⟩ | ⟨hsp, rfl, -⟩⟩ := State.eltSpot_some ho
  · have hput := s.puts_dram pa a.bytes (addIn t s.rm (s.ftzFor t) (s.mem.read (dramKey pa) a.bytes) x).bits
    have helem := vstxa_dram (s0 := s0) hact hx hix hcheck hsp hd (hp nofun)
    simp only [hflags _ hput.vlc] at helem
    exact ⟨_, _, helem, hsp ▸ hput, State.wrote_dram_marks (hch.resolve_left (not_not.2 hsp)) _ _ _⟩
  · have hput := s.puts_spaceWrite a.space (a.key s) a.bytes
      (addIn t s.rm (s.ftzFor t) ((s.spaceMem a.space).read (a.key s) a.bytes) x).bits
    have hmem : (s.spaceWrite a.space (a.key s) a.bytes
      (addIn t s.rm (s.ftzFor t) ((s.spaceMem a.space).read (a.key s) a.bytes) x).bits).mem = s.mem := hput.other .glob hsp.symm
    have helem := vstxa_local (s0 := s0) hact hx hix hcheck hsp
    simp only [hflags _ hput.vlc] at helem
    exact ⟨_, _, helem, hput, by rw [hmem], by rw [hmem]⟩

end

/-! ## The run over the elements -/

/-- FPC.FLAGS set. -/
def Vlc.withFlags (v : Vlc) (g : Flags) : Vlc := { v with fpc := { v.fpc with flags := g } }

theorem State.raiseFlags_withFlags (s : State) (f : Flags) : s.raiseFlags f = s.setV (·.withFlags (s.v.fpc.flags ||| f)) :=
  s.raiseFlags_eq f

/-- What VSTXA may have changed: bytes of the accesses of `l`, and FPC.FLAGS. -/
structure State.SumsDone (s : State) (l : Elt → Prop) (u : State) : Prop where
  vlc : ∃ g, u.v = s.v.withFlags g
  ways : s.SameWays u
  within : s.within u .rmw l
  poison : u.mem.poison = s.mem.poison
  checks : u.mem.checks = s.mem.checks

theorem State.sumsDone_self (s : State) (l : Elt → Prop) : s.SumsDone l s :=
  ⟨⟨s.v.fpc.flags, rfl⟩, .refl s, s.within_refl _ _, rfl, rfl⟩

section
variable {s u : State} {t : VType} {m : MReg} {d b : VReg} {qn : QReg} {k : Nat} {l : Elt → Prop}

/-- Accesses lie where they did. -/
theorem State.SumsDone.eltSpot (h : s.SumsDone l u) (a : Elt) : u.eltSpot .rmw a = s.eltSpot .rmw a := by
  obtain ⟨g, hv⟩ := h.vlc
  exact h.ways.eltSpot (by unfold State.party; rw [hv]; rfl) (by rw [hv]; rfl) (.inr (State.poisoned_congr h.poison h.checks)) a

/-- An element whose source is read and whose access nothing stops. -/
theorem State.SumsDone.step {x : Elt × Bool} {o : Nat} {s0 : State} (h : s.SumsDone l u) (ht : t.isI = true ∨ t.isF = true)
    (hen : t.isI = true ∨ s.v.fpc.en = 0) (hch : s.v.mt ≠ .glob ∨ s.mem.checks = []) (hact : s.v.active m k = true)
    (hfit : s.v.fits t.width k = true) (hp : (s.v.vregs[d.toNat]).poison.getLsbD (t.width * k / 64) = false)
    (hx : s.gatherElt t qn b k = some x) (hl : l x.1) (ho : s.eltSpot .rmw x.1 = some o) :
    ∃ w, (memVstxa t m d qn b).elem s0 u k = .ok w ∧ s.SumsDone l w := by
  obtain ⟨g, hv⟩ := h.vlc
  have hgather : u.gatherElt t qn b k = some x := by
    rw [← hx]; unfold State.gatherElt; rw [hv]; rfl
  have hspace : x.1.space = s.v.mt := by
    unfold State.gatherElt at hx
    obtain ⟨-, hx⟩ := Option.ite_none_right_eq_some.mp hx
    obtain ⟨ix, -, rfl⟩ := Option.map_eq_some_iff.1 hx
    rfl
  have hsrc : u.readElem t d k = .ok (u.v.element t d k) :=
    State.readElem_ok (by rw [hv]; exact hfit) (by rw [hv]; exact hp)
  obtain ⟨w, fl, helem, hput, hpoison, hchecks⟩ := vstxa_elem (s := u) (s0 := s0) (m := m) (by rw [hv]; exact hact) hsrc
    (State.gatherElt_some ht hgather) ((h.eltSpot x.1).trans ho) (by rw [hv]; exact hen) (by rw [hspace, h.checks]; exact hch)
  have hin := State.within_puts h.within hl ho hput
  rw [State.raiseFlags_withFlags] at helem
  refine ⟨_, helem, ⟨⟨w.v.fpc.flags ||| fl, ?_⟩, (h.ways.trans hput.ways).trans (State.sameWays_setV w _), ?_, hpoison.trans h.poison,
    hchecks.trans h.checks⟩⟩
  · rw [State.setV_v, hput.vlc, hv]; rfl
  · exact State.within_spaceMem hin fun x => State.spaceMem_setV w rfl x

end

theorem vectorSumsFinish : Claim.VectorSumsFinish := by
  intro s t m d b qn c i hwf hdec hs hvl hfit hmvl hen hch hlive
  have ht : t.isI = true ∨ t.isF = true := Bool.or_eq_true_iff.1 hwf
  have hm : loneMember i = some (memVstxa t m d qn b) := rfl
  by_cases h0 : s.v.vl = 0
  · exact ⟨_, exec_lone_zero hm hdec trivial hs nofun h0, rfl, rfl, rfl, rfl, rfl, State.within_refl s _ _⟩
  have hlo : phaseLo [memVstxa t m d qn b] s = s.v.vstart := phaseLo_lone fun hb => nomatch (hb : false = true)
  let l (a : Elt) : Prop := ∃ k x, s.v.live m k ∧ s.gatherElt t qn b k = some x ∧ a = x.1
  obtain ⟨u, hrun, hdone⟩ : ∃ u, runElems ((memVstxa t m d qn b).elem s) s s.v.vstart (s.v.vl - s.v.vstart) = (u, none) ∧
      s.SumsDone l u := by
    refine runElems_keeps (P := fun _ => s.SumsDone l) (s.sumsDone_self l) fun e u hle hlt hdone => ?_
    obtain ⟨g, hv⟩ := hdone.vlc
    have hact : u.v.active m e = s.v.active m e := by rw [hv]; rfl
    by_cases hl : s.v.live m e
    · have hon := (Vlc.active_iff hvl).2 hl
      obtain ⟨hp, x, hx, hsome⟩ := hlive e hl
      obtain ⟨o, ho⟩ := Option.isSome_iff_exists.1 hsome
      exact hdone.step ht hen hch hon (Vlc.fits_below hfit (by omega)) hp hx ⟨e, x, hl, hx, rfl⟩ ho
    · exact ⟨u, if_neg fun hon => hl ((Vlc.active_iff hvl).1 (hact ▸ hon)), hdone⟩
  obtain ⟨g, hv⟩ := hdone.vlc
  have hclose : (memVstxa t m d qn b).close u s.v.vl true = u.setV fun v => { v with spin := Spin.idle } := u.spinReset_eq
  have hsmooth : ((memVstxa t m d qn b).close u s.v.vl true).smooth = true := by
    rw [hclose]
    exact (hdone.ways.smooth (·.withFlags g) hv rfl).trans hs
  have hexec := exec_lone_completes hm hdec trivial hs nofun (Nat.pos_of_ne_zero h0)
    (by rw [hlo, State.startAt_vstart]; exact hrun) hsmooth
  rw [hclose] at hexec
  refine ⟨_, hexec, ?_, rfl, ?_, ?_, ?_, ?_⟩
  · show u.v.pc + 4 = _; rw [hv]; rfl
  · show u.v.sregs = _; rw [hv]; rfl
  · show u.v.vregs = _; rw [hv]; rfl
  · show u.v.masks = _; rw [hv]; rfl
  · exact State.within_spaceMem hdone.within fun x => State.spaceMem_setV u rfl x

end Sys2Proof.Machine
end


section
/-! VBIN (R173) over its elements, for O29. -/

namespace Sys2Proof.Machine

/-! ## A vector register of the VLC written -/

/-- A vector register set. -/
def Vlc.withVreg (v : Vlc) (d : VReg) (r : VecReg) : Vlc := { v with vregs := v.vregs.set d.toNat r }

@[simp] theorem Vlc.withVreg_same (v : Vlc) (d : VReg) (r : VecReg) : (v.withVreg d r).vregs[d.toNat] = r :=
  Vector.getElem_set_self _

theorem Vlc.withVreg_other (v : Vlc) {d q : VReg} (r : VecReg) (h : q ≠ d) : (v.withVreg d r).vregs[q.toNat] = v.vregs[q.toNat] :=
  Vector.getElem_set_ne d.isLt q.isLt fun e => h (BitVec.eq_of_toNat_eq e.symm)

theorem Vlc.withVreg_self (v : Vlc) (d : VReg) : v.withVreg d v.vregs[d.toNat] = v := by
  have h : v.vregs.set d.toNat v.vregs[d.toNat] = v.vregs := Vector.set_getElem_self _
  unfold Vlc.withVreg
  rw [h]

theorem Vlc.withVreg_withVreg (v : Vlc) (d : VReg) (r x : VecReg) : (v.withVreg d r).withVreg d x = v.withVreg d x := by
  simp only [Vlc.withVreg, Vector.set_set]

section
variable {s u : State} {t : VType} {d a : VReg} {r : VecReg} {k : Nat}

theorem State.writeElem_v (x : Nat) (hd : d.toNat < 8 * (u.v.declHeld.toNat + 1)) (hf : u.v.fits t.width k = true) :
    (u.writeElem t d k x).v = u.v.withVreg d ((u.v.vregs[d.toNat]).put t.width k (payload t x)) :=
  (congrArg State.v (if_pos hf)).trans (if_neg (Nat.not_le.2 hd))

theorem State.sameWays_writeElem (u : State) (t : VType) (d : VReg) (k x : Nat) : u.SameWays (u.writeElem t d k x) := by
  unfold State.writeElem
  split
  · exact State.sameWays_setV u _
  · exact .refl u

theorem State.writeElem_mem (u : State) (t : VType) (d : VReg) (k x : Nat) : (u.writeElem t d k x).mem = u.mem :=
  State.spaceMem_writeElem u t d k x .glob

/-- The end of a write leaves the elements of its register, and nothing else of the VLC but that register. -/
theorem State.cover_v (u : State) (t : VType) {d : VReg} (e : Nat) (act : Nat → Bool) (hd : d.toNat < 8 * (u.v.declHeld.toNat + 1)) :
    ∃ r', u.cover t d e act = u.setV (·.withVreg d r') ∧ r'.img = (u.v.vregs[d.toNat]).img :=
  ⟨_, State.setV_congr (if_neg (Nat.not_le.2 hd)), by rw [VecReg.heal_img, VecReg.cover_img]; rfl⟩

/-- An element not yet written is read as it was, from whichever register. -/
theorem State.readElem_kept (hv : u.v = s.v.withVreg d r) (hpoison : r.poison = (s.v.vregs[d.toNat]).poison)
    (hkept : r.img.extractLsb' (t.width * k) t.width = (s.v.vregs[d.toNat]).img.extractLsb' (t.width * k) t.width)
    (hf : s.v.fits t.width k = true) (hp : (s.v.vregs[a.toNat]).poison.getLsbD (t.width * k / 64) = false) :
    u.readElem t a k = .ok (s.v.element t a k) := by
  have hf' : u.v.fits t.width k = true := by rw [hv]; exact hf
  by_cases ha : a = d
  · subst ha
    have hr : u.v.vregs[a.toNat] = r := by rw [hv]; exact s.v.withVreg_same a r
    rw [State.readElem_ok hf' (by rw [hr, hpoison]; exact hp), Vlc.element_eq, Vlc.element_eq, hr, VecReg.elem_eq, VecReg.elem_eq, hkept]
  · have hr : u.v.vregs[a.toNat] = s.v.vregs[a.toNat] := by rw [hv]; exact s.v.withVreg_other r ha
    rw [State.readElem_ok hf' (by rw [hr]; exact hp), Vlc.element_eq, Vlc.element_eq, hr]

end

/-! ## The run over the elements -/

/-- What VBIN may have changed with its elements below `e` performed: those of its register, and bytes of the accesses of `l`. -/
structure State.CountsDone (s : State) (t : VType) (m : MReg) (d : VReg) (l : Elt → Prop) (e : Nat) (u : State) : Prop where
  vlc : ∃ r, u.v = s.v.withVreg d r ∧ r.poison = (s.v.vregs[d.toNat]).poison ∧
    ∀ j, ¬(s.v.live m j ∧ j < e) →
      r.img.extractLsb' (t.width * j) t.width = (s.v.vregs[d.toNat]).img.extractLsb' (t.width * j) t.width
  ways : s.SameWays u
  within : s.within u .rmw l
  mem : u.mem = s.mem

section
variable {s u : State} {t : VType} {m : MReg} {d a : VReg} {b : SReg} {e : Nat} {l : Elt → Prop}

theorem State.countsDone_start (s : State) (t : VType) (m : MReg) (d : VReg) (l : Elt → Prop) (e : Nat) : s.CountsDone t m d l e s :=
  ⟨⟨_, (s.v.withVreg_self d).symm, rfl, fun _ _ => rfl⟩, .refl s, s.within_refl _ _, rfl⟩

/-- An element that is not active changes nothing. -/
theorem State.CountsDone.skip (h : s.CountsDone t m d l e u) : s.CountsDone t m d l (e + 1) u := by
  obtain ⟨r, hv, hp, hkept⟩ := h.vlc
  refine ⟨⟨r, hv, hp, fun j hj => hkept j fun ⟨hl, hlt⟩ => hj ⟨hl, by omega⟩⟩, h.ways, h.within, h.mem⟩

/-- An active element counts up. -/
theorem State.CountsDone.step {s0 : State} {o : Nat} (h : s.CountsDone t m d l e u) (hl : s.v.live m e) (hvl : s.v.vl ≤ 8192)
    (hfit : s.v.fits t.width e = true) (hmvl : s.v.mvl64 ≤ 4096) (hd : d.toNat < 8 * (s.v.declHeld.toNat + 1)) (hmt : s.v.mt ≠ .glob)
    (hp : (s.v.vregs[a.toNat]).poison.getLsbD (t.width * e / 64) = false) (hin : l (s.counter t b e (s.v.element t a e)))
    (ho : s.eltSpot .rmw (s.counter t b e (s.v.element t a e)) = some o) :
    ∃ w, (memVbin t m d a b).elem s0 u e = .ok w ∧ s.CountsDone t m d l (e + 1) w := by
  obtain ⟨r, hv, hpoison, hkept⟩ := h.vlc
  have hcounter : u.counter t b e (s.v.element t a e) = s.counter t b e (s.v.element t a e) := by
    unfold State.counter State.rd; rw [hv]; rfl
  have hmt' : u.v.mt = s.v.mt := by rw [hv]; rfl
  have hspot : u.eltSpot .rmw (u.counter t b e (s.v.element t a e)) = some o := by
    rw [hcounter, h.ways.eltSpot (by unfold State.party; rw [hv]; rfl) (by rw [hv]; rfl)
      (.inr (State.poisoned_congr (by rw [h.mem]) (by rw [h.mem]))), ho]
  have hread := State.readElem_kept (a := a) hv hpoison (hkept e (by omega)) hfit hp
  have hact : u.v.active m e = true := by rw [hv]; exact (Vlc.active_iff (v := s.v) hvl).2 hl
  have helem := vbin_local (s0 := s0) (d := d) hact hread (Elt.check_ok hspot) (by rw [hmt']; exact hmt)
  obtain ⟨-, -, ⟨hx, -⟩ | ⟨-, hkey, -⟩⟩ := State.eltSpot_some hspot
  · exact absurd (hmt'.symm.trans hx) hmt
  rw [hkey, hmt'] at helem
  obtain ⟨w, old, helem, hput⟩ : ∃ w old, (memVbin t m d a b).elem s0 u e = .ok (State.writeElem w t d e old) ∧
      u.Puts w s.v.mt o (t.width / 8) := ⟨_, _, helem, u.puts_spaceWrite _ _ _ _⟩
  have hwv : w.v = s.v.withVreg d r := hput.vlc.trans hv
  have hwreg : w.v.vregs[d.toNat] = r := by rw [hwv]; exact s.v.withVreg_same d r
  refine ⟨_, helem, ⟨⟨r.put t.width e (payload t old), ?_, hpoison, fun j hj => ?_⟩,
    (h.ways.trans hput.ways).trans (w.sameWays_writeElem _ _ _ _), ?_, ?_⟩⟩
  · rw [State.writeElem_v old (by rw [hwv]; exact hd) (by rw [hwv]; exact hfit), hwreg, hwv, Vlc.withVreg_withVreg]
  · rw [VecReg.put_extract _ _ _ ((of_decide_eq_true hfit).trans (by omega)), if_neg (by rintro rfl; exact hj ⟨hl, by omega⟩)]
    exact hkept j fun ⟨hlj, hlt⟩ => hj ⟨hlj, by omega⟩
  · exact State.within_spaceMem (State.within_puts h.within hin ho hput) fun x => State.spaceMem_writeElem w _ _ _ _ x
  · rw [State.writeElem_mem, ← h.mem]
    exact hput.other .glob hmt.symm

end

theorem countersAreBinned : Claim.CountersAreBinned := by
  intro s t m d a b i bin hwf hdec hs hvl hfit hmvl hmt hd hlive
  have hm : loneMember i = some (memVbin t m d a b) := rfl
  have hglob : s.v.mt ≠ .glob := by rcases hmt with h | h <;> rw [h] <;> nofun
  by_cases h0 : s.v.vl = 0
  · exact ⟨_, exec_lone_zero hm hdec hmt hs nofun h0, rfl, rfl, rfl, rfl, fun _ _ => rfl, fun _ _ => rfl, State.within_refl s _ _⟩
  have hlo : phaseLo [memVbin t m d a b] s = s.v.vstart := phaseLo_lone fun hb => nomatch (hb : false = true)
  let l (e : Elt) : Prop := ∃ k, s.v.live m k ∧ e = bin k
  obtain ⟨u, hrun, hdone⟩ : ∃ u, runElems ((memVbin t m d a b).elem s) s s.v.vstart (s.v.vl - s.v.vstart) = (u, none) ∧
      s.CountsDone t m d l (s.v.vstart + (s.v.vl - s.v.vstart)) u := by
    refine runElems_keeps (P := s.CountsDone t m d l) (s.countsDone_start t m d l _) fun e u hle hlt hdone => ?_
    by_cases hl : s.v.live m e
    · obtain ⟨hp, hsome⟩ := hlive e hl
      obtain ⟨o, ho⟩ := Option.isSome_iff_exists.1 hsome
      exact hdone.step hl hvl (Vlc.fits_below hfit (by omega)) hmvl hd hglob hp ⟨e, hl, rfl⟩ ho
    · obtain ⟨r, hv, -⟩ := hdone.vlc
      have hact : u.v.active m e = s.v.active m e := by rw [hv]; rfl
      exact ⟨u, if_neg fun hon => hl ((Vlc.active_iff hvl).1 (hact ▸ hon)), hdone.skip⟩
  obtain ⟨r, hv, -, hkept⟩ := hdone.vlc
  obtain ⟨r', hcover, himg⟩ := u.cover_v t s.v.vl (u.v.active m) (by rw [hv]; exact hd)
  have hreg : u.v.vregs[d.toNat] = r := by rw [hv]; exact s.v.withVreg_same d r
  have hclose : (memVbin t m d a b).close u s.v.vl true = u.setV fun v => { v.withVreg d r' with spin := Spin.idle } := by
    refine (State.spinReset_eq _).trans ?_
    rw [hcover]
    rfl
  have hsmooth : ((memVbin t m d a b).close u s.v.vl true).smooth = true := by
    rw [hclose]
    exact (hdone.ways.smooth (·.withVreg d r) hv rfl).trans hs
  have hexec := exec_lone_completes hm hdec hmt hs nofun (Nat.pos_of_ne_zero h0)
    (by rw [hlo, State.startAt_vstart]; exact hrun) hsmooth
  rw [hclose] at hexec
  refine ⟨_, hexec, ?_, rfl, ?_, ?_, fun k hk => ?_, fun q hq => ?_, ?_⟩
  · show u.v.pc + 4 = _; rw [hv]; rfl
  · show u.v.sregs = _; rw [hv]; rfl
  · show u.v.masks = _; rw [hv]; rfl
  · show (u.v.withVreg d r').element t d k = _
    rw [Vlc.element_eq, Vlc.element_eq, Vlc.withVreg_same, VecReg.elem_eq, VecReg.elem_eq, himg, hreg, hkept k fun h => hk h.1]
  · show (u.v.withVreg d r').vregs[q.toNat] = _
    rw [Vlc.withVreg_other _ _ hq, hv, Vlc.withVreg_other _ _ hq]
  · exact State.within_spaceMem hdone.within fun x => State.spaceMem_setV u rfl x

end Sys2Proof.Machine
end


section
/-! VLDBPC (R171) over its elements, for O29. -/

namespace Sys2Proof.Machine

/-! ## Loads that the spin detector sees -/

/-- The spin detector's record set. -/
def Vlc.withSpin (v : Vlc) (p : Spin) : Vlc := { v with spin := p }

/-- `u` is `s` but for the spin detector and what no access looks at. -/
structure State.Peeked (s u : State) : Prop where
  vlc : ∃ p, u.v = s.v.withSpin p
  ways : s.SameWays u
  mem : ∀ x, u.spaceMem x = s.spaceMem x

theorem State.peeked_self (s : State) : s.Peeked s := ⟨⟨s.v.spin, rfl⟩, .refl s, fun _ => rfl⟩

theorem State.Peeked.trans {s u w : State} (h : s.Peeked u) (k : u.Peeked w) : s.Peeked w := by
  obtain ⟨p, hp⟩ := h.vlc
  obtain ⟨q, hq⟩ := k.vlc
  exact ⟨⟨q, by rw [hq, hp]; rfl⟩, h.ways.trans k.ways, fun x => (k.mem x).trans (h.mem x)⟩

/-- What an element's load reads depends on the memories and on what its checks look at. -/
theorem State.SameWays.eltLoad {s u : State} (h : s.SameWays u) (hp : u.party = s.party) (hl : u.v.laneTable = s.v.laneTable)
    (hm : ∀ x, u.spaceMem x = s.spaceMem x) (a : Elt) : u.eltLoad a = s.eltLoad a := by
  have hmem : u.mem = s.mem := hm .glob
  have hspot := h.eltSpot hp hl (k := .load) (.inr (State.poisoned_congr (by rw [hmem]) (by rw [hmem]))) a
  unfold State.eltLoad
  rw [hspot, hm]

theorem State.Peeked.eltLoad {s u : State} (h : s.Peeked u) (a : Elt) : u.eltLoad a = s.eltLoad a := by
  obtain ⟨p, hp⟩ := h.vlc
  exact h.ways.eltLoad (by unfold State.party; rw [hp]; rfl) (by rw [hp]; rfl) h.mem a

/-- An element's load that nothing stops, seen by the spin detector. -/
theorem State.vloadSeen_ok {s : State} {a : Elt} {x : Nat} (h : s.eltLoad a = some x) :
    ∃ u, s.vloadSeen a = .ok (x, u) ∧ s.Peeked u := by
  obtain ⟨o, ho, rfl⟩ := Option.map_eq_some_iff.1 h
  obtain ⟨w, hload, hc⟩ := State.vload_ok ho
  obtain ⟨p, hspin⟩ := w.spin_after_load a.space a.addr (BitVec.ofNat 64 ((s.spaceMem a.space).read o a.bytes)) false
  have hseen : s.vloadSeen a = .ok ((s.spaceMem a.space).read o a.bytes, w.setV (·.withSpin p)) := by
    unfold State.vloadSeen
    rw [hload]
    exact congrArg (fun w : State => (Except.ok (_, w) : Except Stop (Nat × State))) hspin
  have hv : w.v = s.v := by rw [show w = _ from hc]
  refine ⟨_, hseen, ⟨p, congrArg (·.withSpin p) hv⟩, (State.sameWays_counted hc).trans (State.sameWays_setV w _), fun x => ?_⟩
  rw [State.spaceMem_setV w rfl, show w = _ from hc]
  cases x <;> rfl

/-! ## One element -/

/-- The accesses of a chunk that both `chunkLoad` and the instruction make: theirs is the space of MT. -/
theorem State.Peeked.chunkElt {s u : State} (h : s.Peeked u) {a : Word} {n k x : Nat}
    (hx : s.eltLoad (Machine.chunkElt s a n k none) = some x) :
    ∃ w, u.vloadSeen (Machine.chunkElt s a n k none) = .ok (x, w) ∧ s.Peeked w := by
  obtain ⟨w, hw, hp⟩ := State.vloadSeen_ok ((h.eltLoad _).trans hx)
  exact ⟨w, hw, h.trans hp⟩

/-- The entry of an element's chunk, through a pattern, where its position lies in the stream. -/
theorem State.chunkAt_ok {s : State} {qn : QReg} {k : Nat} (hkind : (s.v.streams[qn.toNat]).kind = .pattern)
    (hlt : (s.v.streams[qn.toNat]).pos + k / 128 < (s.v.streams[qn.toNat]).extent) :
    s.chunkAt qn k = .ok ⟨(s.v.streams[qn.toNat]).address 4 ((s.v.streams[qn.toNat]).pos + k / 128),
      (s.v.streams[qn.toNat]).pos + k / 128, none⟩ := by
  have hkind' : (s.v.stream qn).kind = .pattern := hkind
  have hlt' : ¬(s.v.stream qn).extent ≤ (s.v.stream qn).pos + k / 128 := Nat.not_le.2 hlt
  simp only [State.chunkAt, State.streamAt, hkind', if_neg hlt']
  rfl

/-- An element of VLDBPC that nothing stops takes what its chunk holds. -/
theorem State.loadChunk_ok {s : State} {t : VType} {md : MReg} {d : VReg} {qn : QReg} {k x : Nat} {b : Bool}
    (h : s.chunkLoad t qn k = some (b, x)) :
    ∃ w, s.Peeked w ∧ s.loadChunk t md d qn k = .ok ((w.writeElem t d k x).setV (·.setMaskBit md k b)) := by
  unfold State.chunkLoad at h
  obtain ⟨⟨hkind, hlt⟩, h⟩ := Option.ite_none_right_eq_some.mp h
  obtain ⟨e, he, h⟩ := Option.bind_eq_some_iff.1 h
  obtain ⟨b0, hb0, h⟩ := Option.bind_eq_some_iff.1 h
  obtain ⟨b1, hb1, h⟩ := Option.bind_eq_some_iff.1 h
  have hat := State.chunkAt_ok hkind hlt
  obtain ⟨s1, hs1, hp1⟩ := s.peeked_self.chunkElt he
  obtain ⟨s2, hs2, hp2⟩ := hp1.chunkElt hb0
  obtain ⟨s3, hs3, hp3⟩ := hp2.chunkElt hb1
  have hones : ones (k % 128) (b0 + 2 ^ 64 * b1) = (List.range (k % 128)).countP (b0 + 2 ^ 64 * b1).testBit := by
    rw [ones_eq_length, List.countP_eq_length_filter]
  unfold State.loadChunk
  simp only [hat, bind, Except.bind, hs1, show s.v.stream qn = s.v.streams[qn.toNat] from rfl, hs2, hs3, hones, bytesIn]
  by_cases hset : (b0 + 2 ^ 64 * b1).testBit (k % 128) = true
  · simp only [hset, if_true] at h
    obtain ⟨y, hy, hyx⟩ := Option.map_eq_some_iff.1 h
    obtain ⟨rfl, rfl⟩ := Prod.mk.inj hyx
    obtain ⟨s4, hs4, hp4⟩ := hp3.chunkElt hy
    refine ⟨s4, hp4, ?_⟩
    simp only [hset, if_true, hs4]
  · have hclear := Bool.eq_false_iff.2 hset
    simp only [hclear, Bool.false_eq_true, if_false] at h
    obtain ⟨rfl, rfl⟩ := Prod.mk.inj (Option.some.inj h)
    refine ⟨s3, hp3, ?_⟩
    simp only [hclear, Bool.false_eq_true, if_false]

/-! ## A mask register of the VLC written -/

/-- A mask register set. -/
def Vlc.withMask (v : Vlc) (m : MReg) (x : BitVec 8192) : Vlc := { v with masks := v.masks.set m.toNat x }

theorem Vlc.setMask_eq {v : Vlc} {m : MReg} (x : BitVec 8192) (hm : m ≠ 0) (hb : v.bad = []) : v.setMask m x = v.withMask m x := by
  unfold Vlc.setMask Vlc.withMask
  rw [if_neg hm, hb, List.filter_nil, ← hb]

theorem Vlc.setMaskBit_eq {v : Vlc} {m : MReg} (k : Nat) (b : Bool) (hm : m ≠ 0) (hb : v.bad = []) :
    v.setMaskBit m k b = v.withMask m (withBit v.masks[m.toNat] k b) := by
  have hmask : v.mask m = v.masks[m.toNat] := if_neg hm
  unfold Vlc.setMaskBit
  rw [Vlc.setMask_eq _ hm hb, hmask]
  rfl

theorem Vlc.setMaskBit_core (v : Vlc) (m : MReg) (k : Nat) (b : Bool) : (v.setMaskBit m k b).core = v.core := by
  unfold Vlc.setMaskBit Vlc.setMask
  split <;> rfl

theorem Vlc.trimMask_eq {v : Vlc} {m : MReg} (hm : m ≠ 0) (hb : v.bad = []) :
    v.trimMask m = v.withMask m (v.masks[m.toNat] &&& BitVec.ofNat 8192 (2 ^ v.vl - 1)) := by
  have hmask : v.mask m = v.masks[m.toNat] := if_neg hm
  unfold Vlc.trimMask
  rw [Vlc.setMask_eq _ hm hb, hmask]

/-- A stream set. -/
def Vlc.withStream (v : Vlc) (q : QReg) (x : Stream) : Vlc := { v with streams := v.streams.set q.toNat x }

theorem Vlc.setStream_eq {v : Vlc} (q : QReg) (x : Stream) (hb : v.bad = []) : v.setStream q x = v.withStream q x := by
  unfold Vlc.setStream Vlc.withStream
  rw [hb, List.filter_nil, ← hb]

/-! ## The run over the elements -/

theorem State.chunkLoad_lt {s : State} {t : VType} {qn : QReg} {k x : Nat} {b : Bool} (h : s.chunkLoad t qn k = some (b, x)) :
    x < 2 ^ t.width := by
  unfold State.chunkLoad at h
  obtain ⟨-, h⟩ := Option.ite_none_right_eq_some.mp h
  obtain ⟨e, -, h⟩ := Option.bind_eq_some_iff.1 h
  obtain ⟨b0, -, h⟩ := Option.bind_eq_some_iff.1 h
  obtain ⟨b1, -, h⟩ := Option.bind_eq_some_iff.1 h
  by_cases hset : (b0 + 2 ^ 64 * b1).testBit (k % 128) = true
  · simp only [hset, if_true] at h
    obtain ⟨y, hy, hyx⟩ := Option.map_eq_some_iff.1 h
    obtain ⟨-, rfl⟩ := Prod.mk.inj hyx
    obtain ⟨o, -, rfl⟩ := Option.map_eq_some_iff.1 hy
    exact pow_bytes t ▸ Memory.read_lt _ _ _
  · simp only [Bool.eq_false_iff.2 hset, Bool.false_eq_true, if_false] at h
    obtain ⟨-, rfl⟩ := Prod.mk.inj (Option.some.inj h)
    exact Nat.two_pow_pos _

/-- The registers as VLDBPC leaves them with its elements below `e` performed: elements and bits are those of the chunks. -/
structure ChunksLoaded (s : State) (t : VType) (d : VReg) (qn : QReg) (e : Nat) (r : VecReg) (x : BitVec 8192) : Prop where
  value : ∀ j, s.v.vstart ≤ j → j < e → s.chunkLoad t qn j = some (x.getLsbD j, r.elem t.width j)
  kept : ∀ j, ¬(s.v.vstart ≤ j ∧ j < e) →
    r.img.extractLsb' (t.width * j) t.width = (s.v.vregs[d.toNat]).img.extractLsb' (t.width * j) t.width

/-- The VLC with a vector register, a mask register and the spin detector's record set. -/
def Vlc.loaded (v : Vlc) (d : VReg) (md : MReg) (r : VecReg) (x : BitVec 8192) (p : Spin) : Vlc :=
  { v with vregs := v.vregs.set d.toNat r, masks := v.masks.set md.toNat x, spin := p }

@[simp] theorem Vlc.loaded_bad (v : Vlc) (d : VReg) (md : MReg) (r : VecReg) (x : BitVec 8192) (p : Spin) :
    (v.loaded d md r x p).bad = v.bad := rfl

@[simp] theorem Vlc.loaded_vreg (v : Vlc) (d : VReg) (md : MReg) (r : VecReg) (x : BitVec 8192) (p : Spin) :
    (v.loaded d md r x p).vregs[d.toNat] = r := Vector.getElem_set_self _

@[simp] theorem Vlc.loaded_mask (v : Vlc) (d : VReg) (md : MReg) (r : VecReg) (x : BitVec 8192) (p : Spin) :
    (v.loaded d md r x p).masks[md.toNat] = x := Vector.getElem_set_self _

theorem Vlc.loaded_self (v : Vlc) (d : VReg) (md : MReg) : v.loaded d md v.vregs[d.toNat] v.masks[md.toNat] v.spin = v := by
  have h1 : v.vregs.set d.toNat v.vregs[d.toNat] = v.vregs := Vector.set_getElem_self _
  have h2 : v.masks.set md.toNat v.masks[md.toNat] = v.masks := Vector.set_getElem_self _
  unfold Vlc.loaded
  rw [h1, h2]

theorem Vlc.loaded_withVreg (v : Vlc) (d : VReg) (md : MReg) (r r' : VecReg) (x : BitVec 8192) (p : Spin) :
    (v.loaded d md r x p).withVreg d r' = v.loaded d md r' x p := by simp only [Vlc.loaded, Vlc.withVreg, Vector.set_set]

theorem Vlc.loaded_withMask (v : Vlc) (d : VReg) (md : MReg) (r : VecReg) (x x' : BitVec 8192) (p : Spin) :
    (v.loaded d md r x p).withMask md x' = v.loaded d md r x' p := by simp only [Vlc.loaded, Vlc.withMask, Vector.set_set]

theorem Vlc.loaded_withSpin (v : Vlc) (d : VReg) (md : MReg) (r : VecReg) (x : BitVec 8192) (p p' : Spin) :
    (v.loaded d md r x p).withSpin p' = v.loaded d md r x p' := rfl

section
variable {s u : State} {t : VType} {md : MReg} {d : VReg} {qn : QReg} {e : Nat}

/-- The state of a VLDBPC between its elements. -/
structure State.ChunksDone (s : State) (t : VType) (md : MReg) (d : VReg) (qn : QReg) (e : Nat) (u : State) : Prop where
  vlc : ∃ r x p, u.v = s.v.loaded d md r x p ∧ ChunksLoaded s t d qn e r x
  ways : s.SameWays u
  mem : ∀ y, u.spaceMem y = s.spaceMem y

theorem State.chunksDone_start (s : State) (t : VType) (md : MReg) (d : VReg) (qn : QReg) : s.ChunksDone t md d qn s.v.vstart s :=
  ⟨⟨_, _, _, (s.v.loaded_self d md).symm, fun j hlo hlt => absurd hlt (by omega), fun _ _ => rfl⟩, .refl s, fun _ => rfl⟩

theorem ChunksLoaded.step {r : VecReg} {x : BitVec 8192} {y : Nat} {b : Bool} (h : ChunksLoaded s t d qn e r x) (he : e < 8192)
    (hle : s.v.vstart ≤ e) (hfit : t.width * (e + 1) ≤ 262144) (hy : s.chunkLoad t qn e = some (b, y)) :
    ChunksLoaded s t d qn (e + 1) (r.put t.width e y) (withBit x e b) where
  value j hlo hlt := by
    rw [withBit_getLsbD _ _ _ (by omega), VecReg.elem_eq, VecReg.put_extract _ _ _ hfit]
    by_cases hj : j = e
    · subst hj
      rw [if_pos rfl, if_pos rfl, BitVec.toNat_ofNat, Nat.mod_eq_of_lt (State.chunkLoad_lt hy), hy]
    · rw [if_neg hj, if_neg hj, ← VecReg.elem_eq, h.value j hlo (by omega)]
  kept j hj := by
    rw [VecReg.put_extract _ _ _ hfit, if_neg (by rintro rfl; exact hj ⟨hle, by omega⟩)]
    exact h.kept j fun ⟨hlo, hlt⟩ => hj ⟨hlo, by omega⟩

theorem State.ChunksDone.step {s0 : State} (h : s.ChunksDone t md d qn e u) (ht : t.isI = true ∨ t.isF = true) (hmd : md ≠ 0)
    (hb : s.v.bad = []) (hvl : s.v.vl ≤ 8192) (hle : s.v.vstart ≤ e) (hlt : e < s.v.vl) (hfit : s.v.fits t.width e = true)
    (hmvl : s.v.mvl64 ≤ 4096) (hd : d.toNat < 8 * (s.v.declHeld.toNat + 1)) (hsome : (s.chunkLoad t qn e).isSome = true) :
    ∃ w, (memVldbpc t md d qn).elem s0 u e = .ok w ∧ s.ChunksDone t md d qn (e + 1) w := by
  obtain ⟨r, x, p, hv, hloaded⟩ := h.vlc
  obtain ⟨⟨b, y⟩, hy⟩ := Option.isSome_iff_exists.1 hsome
  have hyu : u.chunkLoad t qn e = some (b, y) := by
    have hload : u.eltLoad = s.eltLoad := funext fun a =>
      h.ways.eltLoad (by unfold State.party; rw [hv]; rfl) (by rw [hv]; rfl) h.mem a
    rw [← hy]
    unfold State.chunkLoad
    rw [hload, hv]
    rfl
  obtain ⟨w, hpeek, hw⟩ := State.loadChunk_ok (md := md) (d := d) hyu
  obtain ⟨p', hp'⟩ := hpeek.vlc
  have hact : allActive u.v e = true := by rw [hv]; exact allActive_of_range (v := s.v) hvl hle hlt
  have hwv : w.v = s.v.loaded d md r x p' := by rw [hp', hv, Vlc.loaded_withSpin]
  have hwreg : w.v.vregs[d.toNat] = r := by rw [hwv]; exact s.v.loaded_vreg d md r x p'
  have hvw : (w.writeElem t d e y).v = s.v.loaded d md (r.put t.width e y) x p' := by
    rw [State.writeElem_v y (by rw [hwv]; exact hd) (by rw [hwv]; exact hfit), hwreg, payload_id ht, hwv,
      Vlc.loaded_withVreg]
  have hmask : (w.writeElem t d e y).v.masks[md.toNat] = x := by rw [hvw, Vlc.loaded_mask]
  have hbw : (w.writeElem t d e y).v.bad = [] := by rw [hvw, Vlc.loaded_bad, hb]
  refine ⟨_, (if_pos hact).trans (congrArg (atElem e) hw), ⟨_, withBit x e b, p', ?_,
    hloaded.step (by omega) hle ((of_decide_eq_true hfit).trans (by omega)) hy⟩, ?_, fun z => ?_⟩
  · rw [State.setV_v, Vlc.setMaskBit_eq e b hmd hbw, hmask, hvw, Vlc.loaded_withMask]
  · exact (h.ways.trans hpeek.ways).trans ((w.sameWays_writeElem _ _ _ _).trans (State.sameWays_setV _ _))
  · rw [State.spaceMem_setV _ (Vlc.setMaskBit_core _ md e b), State.spaceMem_writeElem, hpeek.mem, h.mem]

/-- The end of a VLDBPC trims its mask and touches its stream. -/
theorem vldbpc_close {r : VecReg} {x : BitVec 8192} {p : Spin} (hv : u.v = s.v.loaded d md r x p) (hmd : md ≠ 0) (hb : s.v.bad = [])
    (hvl : s.v.vl ≤ 8192) (hd : d.toNat < 8 * (s.v.declHeld.toNat + 1)) :
    ∃ r' x' q, (memVldbpc t md d qn).close u s.v.vl true = u.setV (fun _ => (s.v.loaded d md r' x' p).withStream qn q) ∧
      r'.img = r.img ∧ ∀ k, x'.getLsbD k = (x.getLsbD k && decide (k < s.v.vl)) := by
  obtain ⟨r', hcover, himg⟩ := u.cover_v t s.v.vl (allActive u.v) (by rw [hv]; exact hd)
  have hreg : u.v.vregs[d.toNat] = r := by rw [hv]; exact s.v.loaded_vreg d md r x p
  have hcovered : u.v.withVreg d r' = s.v.loaded d md r' x p := by rw [hv, Vlc.loaded_withVreg]
  have htrim : (s.v.loaded d md r' x p).trimMask md = s.v.loaded d md r' (x &&& BitVec.ofNat 8192 (2 ^ s.v.vl - 1)) p := by
    rw [Vlc.trimMask_eq hmd (by rw [Vlc.loaded_bad, hb]), Vlc.loaded_mask, Vlc.loaded_withMask]
    rfl
  have hbits (k : Nat) : (x &&& BitVec.ofNat 8192 (2 ^ s.v.vl - 1)).getLsbD k = (x.getLsbD k && decide (k < s.v.vl)) := by
    rw [BitVec.getLsbD_and, getLsbD_below hvl]
  generalize x &&& BitVec.ofNat 8192 (2 ^ s.v.vl - 1) = x' at htrim hbits
  refine ⟨r', x', { (s.v.loaded d md r' x' p).stream qn with touched := true, unit := 128 }, ?_, himg.trans (by rw [hreg]), hbits⟩
  have hclose : (memVldbpc t md d qn).close u s.v.vl true = ((u.cover t d s.v.vl (allActive u.v)).setV (·.trimMask md)).setV
      fun v => v.setStream qn { v.stream qn with touched := true, unit := 128 } := rfl
  rw [hclose, hcover]
  refine State.setV_congr (s := u) (f := fun v => ((v.withVreg d r').trimMask md).setStream qn
    { ((v.withVreg d r').trimMask md).stream qn with touched := true, unit := 128 }) ?_
  simp only [hcovered, htrim]
  exact Vlc.setStream_eq _ _ (by rw [Vlc.loaded_bad, hb])

end

theorem chunkLoadsFinish : Claim.ChunkLoadsFinish := by
  intro s t md d qn c i hwf hdec hs hpos hvl hfit hmvl hd hsome
  obtain ⟨ht, hmd⟩ := Bool.and_eq_true_iff.1 (show (t.isIF && md != 0) = true from hwf)
  have ht : t.isI = true ∨ t.isF = true := Bool.or_eq_true_iff.1 ht
  have hmd : md ≠ 0 := by simpa using hmd
  have hb : s.v.bad = [] := ((State.smooth_iff s).1 hs).2.2.2.2.2.1
  have hm : loneMember i = some (memVldbpc t md d qn) := rfl
  have hlo : phaseLo [memVldbpc t md d qn] s = s.v.vstart := phaseLo_lone fun hb => nomatch (hb : false = true)
  obtain ⟨u, hrun, hdone⟩ : ∃ u, runElems ((memVldbpc t md d qn).elem s) s s.v.vstart (s.v.vl - s.v.vstart) = (u, none) ∧
      s.ChunksDone t md d qn (s.v.vstart + (s.v.vl - s.v.vstart)) u :=
    runElems_keeps (P := s.ChunksDone t md d qn) (s.chunksDone_start t md d qn) fun e u hle hlt hdone =>
      hdone.step ht hmd hb hvl hle (by omega) (Vlc.fits_below hfit (by omega)) hmvl hd (hsome e hle (by omega))
  obtain ⟨r, x, p, hv, hloaded⟩ := hdone.vlc
  obtain ⟨r', x', q, hclose, himg, hbits⟩ := vldbpc_close (t := t) (qn := qn) hv hmd hb hvl hd
  have hsmooth : ((memVldbpc t md d qn).close u s.v.vl true).smooth = true := by
    rw [hclose]
    exact ((hdone.ways.trans (State.sameWays_setV u _)).smooth (fun v => (v.loaded d md r' x' p).withStream qn q) rfl rfl).trans hs
  have hexec := exec_lone_completes hm hdec trivial hs nofun hpos (by rw [hlo, State.startAt_vstart]; exact hrun) hsmooth
  rw [hclose] at hexec
  have hreg : ((s.v.loaded d md r' x' p).withStream qn q).vregs[d.toNat] = r' := s.v.loaded_vreg d md r' x' p
  have hmask : ((s.v.loaded d md r' x' p).withStream qn q).masks[md.toNat] = x' := s.v.loaded_mask d md r' x' p
  have helem (k : Nat) : ((s.v.loaded d md r' x' p).withStream qn q).element t d k = r.elem t.width k := by
    rw [Vlc.element_eq, hreg, payload_id ht, VecReg.elem_eq, VecReg.elem_eq, himg]
  refine ⟨_, hexec, rfl, rfl, rfl, fun y => ?_, fun k hlo hlt => ?_, fun k hk => ?_, fun k hk => ?_, fun q' hq => ?_, fun q' hq => ?_⟩
  · exact (State.spaceMem_setV u (f := fun _ => (s.v.loaded d md r' x' p).withStream qn q) (by rw [hv]; rfl) y).trans (hdone.mem y)
  · refine (hloaded.value k hlo (by omega)).trans (congrArg some (Prod.ext ?_ (helem k).symm))
    refine Eq.trans ?_ (congrArg (·.getLsbD k) hmask).symm
    rw [hbits, decide_eq_true hlt, Bool.and_true]
  · refine (congrArg (·.getLsbD k) hmask).trans ?_
    rw [hbits, decide_eq_false (by omega), Bool.and_false]
  · refine (helem k).trans ?_
    rw [Vlc.element_eq, payload_id ht, VecReg.elem_eq, VecReg.elem_eq, hloaded.kept k (by omega)]
  · exact Vector.getElem_set_ne d.isLt q'.isLt fun e => hq (BitVec.eq_of_toNat_eq e.symm)
  · exact Vector.getElem_set_ne md.isLt q'.isLt fun e => hq (BitVec.eq_of_toNat_eq e.symm)

end Sys2Proof.Machine
end


section
/-! VSTBPC (R172) over its groups, for O29. -/

namespace Sys2Proof.Machine

/-! ## Groups and their chunks -/

theorem Vlc.mem_groupStarts {v : Vlc} {k : Nat} :
    k ∈ v.groupStarts ↔ k < v.vl ∧ v.vstart ≤ k ∧ (k % 128 = 0 ∨ k = v.vstart) := by
  simp only [Vlc.groupStarts, List.mem_filter, List.mem_range, Bool.and_eq_true, Bool.or_eq_true, decide_eq_true_eq, beq_iff_eq]

/-- A group begins at an element. -/
def Vlc.startsGroup (v : Vlc) (k : Nat) : Bool := decide (v.vstart ≤ k) && (k % 128 == 0 || k == v.vstart)

theorem Vlc.startsGroup_iff {v : Vlc} {k : Nat} (h : v.vstart ≤ k) : v.startsGroup k = true ↔ k % 128 = 0 ∨ k = v.vstart := by
  simp [Vlc.startsGroup, h]

theorem Vlc.starts_below (v : Vlc) (k : Nat) : (v.groupStarts.filter fun j => decide (j < k)) =
    (List.range (min k v.vl)).filter v.startsGroup := by
  have hrange : (List.range v.vl).filter (fun j => decide (j < k)) = List.range (min k v.vl) := by
    rw [filter_range_gap (i := min k v.vl) (by omega) fun g h1 h2 => decide_eq_false (by omega)]
    exact List.filter_eq_self.2 fun j hj => decide_eq_true (by have := List.mem_range.1 hj; omega)
  rw [Vlc.groupStarts, List.filter_filter, ← hrange, List.filter_filter]
  exact List.filter_congr fun j _ => Bool.and_comm _ _

section
variable {v : Vlc} {t : VType} {m : MReg} {qn : QReg} {k : Nat}

/-- Before its first group CURSOR is what it was. -/
theorem Vlc.cursorAt_start : v.cursorAt t m qn v.vstart = (v.streams[qn.toNat]).cursor := by
  have hnone : (v.groupStarts.filter fun j => decide (j < v.vstart)) = [] :=
    List.filter_eq_nil_iff.2 fun j hj => by
      have := (Vlc.mem_groupStarts.1 hj).2.1
      simpa using this
  rw [Vlc.cursorAt, hnone]
  rfl

/-- A group moves CURSOR on by its chunk's units. -/
theorem Vlc.cursorAt_succ_start (h : k ∈ v.groupStarts) :
    v.cursorAt t m qn (k + 1) = v.cursorAt t m qn k + chunkUnits t (v.groupSize m k) := by
  obtain ⟨hlt, hle, hk⟩ := Vlc.mem_groupStarts.1 h
  have hp := (Vlc.startsGroup_iff hle).2 hk
  unfold Vlc.cursorAt
  rw [Vlc.starts_below, Vlc.starts_below, Nat.min_eq_left hlt, Nat.min_eq_left hlt.le, List.range_succ, List.filter_append,
    List.filter_cons_of_pos hp, List.filter_nil, List.map_append, List.sum_append, List.map_singleton, List.sum_singleton, Nat.add_assoc]

/-- Between groups it stays. -/
theorem Vlc.cursorAt_succ_other (hlt : k < v.vl) (hle : v.vstart ≤ k) (h : ¬(k % 128 = 0 ∨ k = v.vstart)) :
    v.cursorAt t m qn (k + 1) = v.cursorAt t m qn k := by
  have hp : ¬v.startsGroup k = true := fun hs => h ((Vlc.startsGroup_iff hle).1 hs)
  unfold Vlc.cursorAt
  rw [Vlc.starts_below, Vlc.starts_below, Nat.min_eq_left hlt, Nat.min_eq_left hlt.le, List.range_succ, List.filter_append,
    List.filter_cons_of_neg hp, List.filter_nil, List.append_nil]

/-- At and above VL no group begins. -/
theorem Vlc.cursorAt_end (h : v.vl ≤ k) : v.cursorAt t m qn k = v.cursorAt t m qn v.vl := by
  unfold Vlc.cursorAt
  rw [Vlc.starts_below, Vlc.starts_below, Nat.min_eq_right h, Nat.min_self]

/-- The active elements of the group at `k`, as the instruction lists them. -/
def Vlc.groupActive (v : Vlc) (m : MReg) (k : Nat) : List Nat :=
  ((List.range (min (128 - k % 128) (v.vl - k))).map (k + ·)).filter (v.active m)

theorem Vlc.live_of_groupActive {j : Nat} (hvl : v.vl ≤ 8192) (h : j ∈ v.groupActive m k) : v.live m j :=
  (Vlc.active_iff hvl).1 (List.mem_filter.1 h).2

theorem Vlc.groupActive_length (hvl : v.vl ≤ 8192) : (v.groupActive m k).length = v.groupSize m k := by
  let p (j : Nat) : Bool := decide (v.vstart ≤ k + j) && decide (k + j < v.vl) && (m == 0 || (v.masks[m.toNat]).getLsbD (k + j))
  have hcut : (List.range (128 - k % 128)).filter p = (List.range (min (128 - k % 128) (v.vl - k))).filter p :=
    filter_range_gap (by omega) fun g h1 h2 => by
      have : ¬k + g < v.vl := by omega
      simp only [p, decide_eq_false this, Bool.and_false, Bool.false_and]
  have hp : (List.range (min (128 - k % 128) (v.vl - k))).filter (v.active m ∘ (k + ·)) =
      (List.range (min (128 - k % 128) (v.vl - k))).filter p := by
    refine List.filter_congr fun j hj => ?_
    have := List.mem_range.1 hj
    show (decide _ && decide _ && (v.mask m).getLsbD (k + j)) = _
    rw [Vlc.mask_bit _ _ (by omega)]
    rfl
  unfold Vlc.groupActive Vlc.groupSize
  rw [List.filter_map, List.length_map, hp, List.countP_eq_length_filter, ← hcut]

end

theorem wordsOf_length (x n : Nat) : (wordsOf x n).length = n := by
  induction n generalizing x with
  | zero => rfl
  | succ n ih => rw [wordsOf, List.length_cons, ih]

/-- The bytes of a chunk: its units, and two words to each. -/
theorem chunk_size (t : VType) (n : Nat) :
    ceilDiv (16 + n * bytesIn t) 16 * 16 / 16 = chunkUnits t n ∧ ceilDiv (16 + n * bytesIn t) 16 * 16 / 8 = 2 * chunkUnits t n := by
  have h : ceilDiv (16 + n * bytesIn t) 16 = chunkUnits t n := rfl
  rw [h]
  omega

theorem State.readGroup_ok {s : State} {t : VType} {d : VReg} {l : List Nat} (h : ∀ k ∈ l, ∃ x, s.readElem t d k = .ok x) :
    ∃ vals, s.readGroup t d l = .ok vals := by
  induction l with
  | nil => exact ⟨[], rfl⟩
  | cons k l ih =>
    obtain ⟨x, hx⟩ := h k List.mem_cons_self
    obtain ⟨vals, hvals⟩ := ih fun j hj => h j (List.mem_cons_of_mem _ hj)
    exact ⟨x :: vals, by simp only [State.readGroup, hx, hvals, Except.map]⟩

/-! ## Stores -/

/-- What stores of the accesses of `l` leave: the VLC as it is but for its stream, and every other byte. -/
structure State.Stored (s : State) (l : Elt → Prop) (qn : QReg) (q : Stream) (u : State) : Prop where
  vlc : u.v = s.v.withStream qn q
  ways : s.SameWays u
  within : s.within u .store l

section
variable {s u : State} {l : Elt → Prop} {qn : QReg} {q : Stream}

theorem Vlc.withStream_self (v : Vlc) (qn : QReg) : v.withStream qn v.streams[qn.toNat] = v := by
  have h : v.streams.set qn.toNat v.streams[qn.toNat] = v.streams := Vector.set_getElem_self _
  unfold Vlc.withStream
  rw [h]

theorem State.stored_self (s : State) (l : Elt → Prop) (qn : QReg) : s.Stored l qn s.v.streams[qn.toNat] s :=
  ⟨(s.v.withStream_self qn).symm, .refl s, s.within_refl _ _⟩

theorem State.Stored.vstore {a : Elt} (h : s.Stored l qn q u) (ha : l a) (ho : (s.eltSpot .store a).isSome = true) (x : Nat) :
    ∃ w, u.vstore a x = .ok w ∧ s.Stored l qn q w := by
  obtain ⟨o, ho⟩ := Option.isSome_iff_exists.1 ho
  have hv := h.vlc
  have hou : u.eltSpot .store a = some o :=
    (h.ways.eltSpot (by unfold State.party; rw [hv]; rfl) (by rw [hv]; rfl) (.inl rfl) a).trans ho
  obtain ⟨w, hw, hput⟩ := State.vstore_ok x hou
  exact ⟨w, hw, hput.vlc.trans hv, h.ways.trans hput.ways, State.within_puts h.within ha ho hput⟩

theorem State.Stored.chunkElt (h : s.Stored l qn q u) (a : Word) (n k : Nat) (o : Option Stop) :
    Machine.chunkElt u a n k o = Machine.chunkElt s a n k o := by
  unfold Machine.chunkElt
  rw [h.vlc]
  rfl

/-- The words of a chunk, each at its place. -/
theorem State.Stored.storeChunk {k : Nat} (h : s.Stored l qn q u) (a : Word) (ws : List Nat)
    (hl : ∀ j < ws.length, l (Machine.chunkElt s (a + BitVec.ofNat 64 (8 * j)) 8 k none) ∧
      (s.eltSpot .store (Machine.chunkElt s (a + BitVec.ofNat 64 (8 * j)) 8 k none)).isSome = true) :
    ∃ w, u.storeChunk a k ws = .ok w ∧ s.Stored l qn q w := by
  induction ws generalizing a u with
  | nil => exact ⟨u, rfl, h⟩
  | cons x ws ih =>
    obtain ⟨hl0, ho0⟩ := hl 0 (Nat.zero_lt_succ _)
    rw [Nat.mul_zero, show a + BitVec.ofNat 64 0 = a from BitVec.add_zero a] at hl0 ho0
    obtain ⟨w, hw, hstored⟩ := h.vstore hl0 ho0 x
    have hnext (j : Nat) : a + BitVec.ofNat 64 (8 * (j + 1)) = a + 8 + BitVec.ofNat 64 (8 * j) := by
      rw [Nat.mul_add_one, Nat.add_comm, BitVec.ofNat_add]
      exact (BitVec.add_assoc a 8 _).symm
    obtain ⟨w', hw', hstored'⟩ := ih hstored (a + 8) fun j hj => by
      rw [← hnext]
      exact hl (j + 1) (Nat.succ_lt_succ hj)
    refine ⟨w', ?_, hstored'⟩
    simp only [State.storeChunk, h.chunkElt, hw, bind, Except.bind]
    exact hw'

end

/-! ## One group -/

theorem Vlc.withStream_same (v : Vlc) (qn : QReg) (q : Stream) : (v.withStream qn q).streams[qn.toNat] = q :=
  Vector.getElem_set_self _

theorem Vlc.withStream_withStream (v : Vlc) (qn : QReg) (q q' : Stream) :
    (v.withStream qn q).withStream qn q' = v.withStream qn q' := by simp only [Vlc.withStream, Vector.set_set]

/-- A stream whose CURSOR stands at `c`. -/
def Stream.at (q : Stream) (c : Nat) : Stream := { q with cursor := c }

theorem Stream.at_cursor (q : Stream) (c : Nat) : (q.at c).cursor = c := rfl

theorem Stream.at_aux (q : Stream) (c : Nat) : (q.at c).aux = q.aux := rfl

section
variable {s u : State} {t : VType} {m : MReg} {d : VReg} {qn : QReg} {k : Nat} {l : Elt → Prop}

/-- The state of a VSTBPC between its elements: CURSOR as the groups below `e` leave it. -/
def State.GroupsDone (s : State) (t : VType) (m : MReg) (qn : QReg) (l : Elt → Prop) (e : Nat) (u : State) : Prop :=
  s.Stored l qn ((s.v.streams[qn.toNat]).at (s.v.cursorAt t m qn e)) u

/-- A group that nothing stops is written, and moves CURSOR on. -/
theorem State.GroupsDone.storeGroup (h : s.GroupsDone t m qn l k u) (hb : s.v.bad = []) (hvl : s.v.vl ≤ 8192)
    (hkind : (s.v.streams[qn.toNat]).kind = .pattern) (hpos : (s.v.streams[qn.toNat]).pos + k / 128 < (s.v.streams[qn.toNat]).extent)
    (hstart : k ∈ s.v.groupStarts) (hroom : s.v.cursorAt t m qn k + chunkUnits t (s.v.groupSize m k) ≤ 2 ^ 32)
    (hl : ∀ a ∈ s.chunkElts t m qn k, l a ∧ (s.eltSpot .store a).isSome = true) (vals : List Nat) :
    ∃ w, u.storeGroup t qn k (s.v.groupActive m k) vals = .ok w ∧ s.GroupsDone t m qn l (k + 1) w := by
  have hstored : s.Stored l qn ((s.v.streams[qn.toNat]).at (s.v.cursorAt t m qn k)) u := h
  have hv := hstored.vlc
  have hq : u.v.streams[qn.toNat] = (s.v.streams[qn.toNat]).at (s.v.cursorAt t m qn k) := by
    rw [hv, Vlc.withStream_same]
  have hat := State.chunkAt_ok (s := u) (qn := qn) (k := k) (by rw [hq]; exact hkind) (by rw [hq]; exact hpos)
  obtain ⟨hunits, hwords⟩ := chunk_size t (s.v.groupActive m k).length
  rw [Vlc.groupActive_length hvl] at hunits hwords
  have hchunk (j : Nat) (hj : j < 2 * chunkUnits t (s.v.groupSize m k)) :=
    hl _ (List.mem_append_left _ (List.mem_map_of_mem (List.mem_range.2 hj)))
  have hentry := hl _ (List.mem_append_right _ (List.mem_singleton_self _))
  obtain ⟨w1, hw1, h1⟩ := hstored.storeChunk (k := k)
    ((s.v.streams[qn.toNat]).aux + BitVec.ofNat 64 (16 * s.v.cursorAt t m qn k))
    (wordsOf (bitmapOf (s.v.groupActive m k) + 2 ^ 128 * packed t.width vals) (2 * chunkUnits t (s.v.groupSize m k)))
    fun j hj => hchunk j (by rwa [wordsOf_length] at hj)
  obtain ⟨w2, hw2, h2⟩ := h1.vstore hentry.1 hentry.2 (s.v.cursorAt t m qn k)
  have hstream : u.v.stream qn = (s.v.streams[qn.toNat]).at (s.v.cursorAt t m qn k) := hq
  have hlen : (s.v.groupActive m k).length = s.v.groupSize m k := Vlc.groupActive_length hvl
  have hfull : ¬2 ^ 32 < s.v.cursorAt t m qn k + chunkUnits t (s.v.groupSize m k) := Nat.not_lt.2 hroom
  have helt : Machine.chunkElt u ((u.v.streams[qn.toNat]).address 4 ((u.v.streams[qn.toNat]).pos + k / 128)) 4 k none =
      Machine.chunkElt s ((s.v.streams[qn.toNat]).address 4 ((s.v.streams[qn.toNat]).pos + k / 128)) 4 k none := by
    rw [hstored.chunkElt, hq]
    rfl
  refine ⟨w2.setV (·.setStream qn ((s.v.streams[qn.toNat]).at (s.v.cursorAt t m qn (k + 1)))), ?_,
    ?_, h2.ways.trans (State.sameWays_setV w2 _), State.within_spaceMem h2.within fun x => State.spaceMem_setV w2 rfl x⟩
  · unfold State.storeGroup
    simp only [hat, hstream, bind, Except.bind, hlen, hunits, hwords, Stream.at_cursor, Stream.at_aux, hfull, if_false, hw1, helt]
    rw [Vlc.cursorAt_succ_start hstart]
    exact congrArg (fun r : Except Stop State => r.bind fun w => Except.ok (w.setV (·.setStream qn _))) hw2
  · have hb2 : w2.v.bad = [] := by rw [h2.vlc]; exact hb
    rw [State.setV_v, Vlc.setStream_eq qn _ hb2, h2.vlc, Vlc.withStream_withStream]

/-- An element at which no group begins changes nothing; at the others a group is written. -/
theorem State.GroupsDone.step {s0 : State} (h : s.GroupsDone t m qn l k u) (hb : s.v.bad = []) (hvl : s.v.vl ≤ 8192)
    (hfit : s.v.vl * t.width ≤ 64 * s.v.mvl64) (hle : s.v.vstart ≤ k) (hlt : k < s.v.vl)
    (hkind : (s.v.streams[qn.toNat]).kind = .pattern)
    (hp : ∀ j, s.v.live m j → (s.v.vregs[d.toNat]).poison.getLsbD (t.width * j / 64) = false)
    (hgroup : k ∈ s.v.groupStarts → (s.v.streams[qn.toNat]).pos + k / 128 < (s.v.streams[qn.toNat]).extent ∧
      s.v.cursorAt t m qn k + chunkUnits t (s.v.groupSize m k) ≤ 2 ^ 32 ∧
      ∀ a ∈ s.chunkElts t m qn k, l a ∧ (s.eltSpot .store a).isSome = true) :
    ∃ w, (memVstbpc t m d qn).elem s0 u k = .ok w ∧ s.GroupsDone t m qn l (k + 1) w := by
  have hv : u.v = s.v.withStream qn _ := State.Stored.vlc h
  have hvstart : u.v.vstart = s.v.vstart := by rw [hv]; rfl
  by_cases hk : k % 128 = 0 ∨ k = s.v.vstart
  · have hstart : k ∈ s.v.groupStarts := Vlc.mem_groupStarts.2 ⟨hlt, hle, hk⟩
    obtain ⟨hpos, hroom, helts⟩ := hgroup hstart
    have hact : u.v.groupActive m k = s.v.groupActive m k := by rw [hv]; rfl
    have hread : ∀ j ∈ s.v.groupActive m k, ∃ x, u.readElem t d j = .ok x := fun j hj => by
      have hlive := Vlc.live_of_groupActive hvl hj
      refine ⟨_, State.readElem_ok ?_ ?_⟩
      · rw [hv]; exact Vlc.fits_below (v := s.v) hfit hlive.2.1
      · rw [hv]; exact hp j hlive
    obtain ⟨vals, hvals⟩ := State.readGroup_ok hread
    obtain ⟨w, hw, hdone⟩ := h.storeGroup hb hvl hkind hpos hstart hroom helts vals
    refine ⟨w, ?_, hdone⟩
    refine (if_pos (by rwa [hvstart])).trans ?_
    have hreadAct : u.readGroup t d (u.v.groupActive m k) = .ok vals := by rw [hact]; exact hvals
    have hwrite : u.storeGroup t qn k (u.v.groupActive m k) vals = .ok w := by rw [hact]; exact hw
    unfold Vlc.groupActive at hreadAct hwrite
    simp only [hreadAct, hwrite]
    rfl
  · refine ⟨u, if_neg (by rwa [hvstart]), ?_⟩
    unfold State.GroupsDone at h ⊢
    rwa [Vlc.cursorAt_succ_other hlt hle hk]

end

theorem chunkStoresFinish : Claim.ChunkStoresFinish := by
  intro s t m d qn c i q hwf hdec hs hvl hfit hmvl hkind hp hgroup
  have hb : s.v.bad = [] := ((State.smooth_iff s).1 hs).2.2.2.2.2.1
  have hm : loneMember i = some (memVstbpc t m d qn) := rfl
  by_cases h0 : s.v.vl = 0
  · have hcursor : (s.v.streams[qn.toNat]).cursor = s.v.cursorAt t m qn s.v.vl := by
      rw [← Vlc.cursorAt_start, Vlc.cursorAt_end (k := s.v.vstart) (by omega)]
    exact ⟨_, exec_lone_zero hm hdec trivial hs nofun h0, rfl, rfl, rfl, rfl, rfl, hcursor, State.within_refl s _ _⟩
  have hlo : phaseLo [memVstbpc t m d qn] s = s.v.vstart := phaseLo_lone fun hb => nomatch (hb : false = true)
  let l (a : Elt) : Prop := ∃ k ∈ s.v.groupStarts, a ∈ s.chunkElts t m qn k
  obtain ⟨u, hrun, hdone⟩ : ∃ u, runElems ((memVstbpc t m d qn).elem s) s s.v.vstart (s.v.vl - s.v.vstart) = (u, none) ∧
      s.GroupsDone t m qn l (s.v.vstart + (s.v.vl - s.v.vstart)) u := by
    refine runElems_keeps (P := s.GroupsDone t m qn l) ?_ fun e u hle hlt hdone =>
      hdone.step hb hvl hfit hle (by omega) hkind hp fun hstart => ?_
    · unfold State.GroupsDone
      rw [Vlc.cursorAt_start]
      exact s.stored_self l qn
    · obtain ⟨hpos, hroom, hsome⟩ := hgroup e hstart
      exact ⟨hpos, hroom, fun a ha => ⟨⟨e, hstart, ha⟩, hsome a ha⟩⟩
  have hstored : s.Stored l qn ((s.v.streams[qn.toNat]).at (s.v.cursorAt t m qn s.v.vl)) u := by
    rw [← Vlc.cursorAt_end (k := s.v.vstart + (s.v.vl - s.v.vstart)) (by omega)]
    exact hdone
  have hv := hstored.vlc
  have hbu : u.v.bad = [] := by rw [hv]; exact hb
  obtain ⟨q', hclose, hq'⟩ : ∃ q', (memVstbpc t m d qn).close u s.v.vl true =
      u.setV (fun v => (v.withStream qn q').withSpin Spin.idle) ∧ q'.cursor = s.v.cursorAt t m qn s.v.vl := by
    have htouch : (u.setV fun v => v.setStream qn { v.stream qn with touched := true, unit := 128 }) =
        u.setV (·.withStream qn { u.v.stream qn with touched := true, unit := 128 }) :=
      State.setV_congr (Vlc.setStream_eq qn { u.v.stream qn with touched := true, unit := 128 } hbu)
    refine ⟨{ u.v.stream qn with touched := true, unit := 128 }, ?_, ?_⟩
    · exact (congrArg State.spinReset htouch).trans (State.spinReset_eq _)
    · show (u.v.stream qn).cursor = _
      rw [hv]
      exact congrArg Stream.cursor (s.v.withStream_same qn _)
  have hsmooth : ((memVstbpc t m d qn).close u s.v.vl true).smooth = true := by
    rw [hclose]
    exact (hstored.ways.smooth (·.withStream qn _) hv rfl).trans hs
  have hexec := exec_lone_completes hm hdec trivial hs nofun (Nat.pos_of_ne_zero h0)
    (by rw [hlo, State.startAt_vstart]; exact hrun) hsmooth
  rw [hclose] at hexec
  refine ⟨_, hexec, ?_, rfl, ?_, ?_, ?_, ?_, ?_⟩
  · show u.v.pc + 4 = _; rw [hv]; rfl
  · show u.v.sregs = _; rw [hv]; rfl
  · show u.v.vregs = _; rw [hv]; rfl
  · show u.v.masks = _; rw [hv]; rfl
  · exact (congrArg Stream.cursor (u.v.withStream_same qn q')).trans hq'
  · exact State.within_spaceMem hstored.within fun x => State.spaceMem_setV u rfl x

/-- Settles O29: an element's access at the place its checks name, and the run of each instruction over its elements. -/
theorem vectorSpacesAndAtomics : Obligations.VectorSpacesAndAtomics :=
  ⟨vectorElementSpaces, accumulatingElements, vectorSumsFinish, countersAreBinned, chunkLoadsFinish, chunkStoresFinish⟩

end Sys2Proof.Machine
end
